-- ==== Sys2Proof/Word.lean ====
section
/-! DEFINITION. The words of the module and the ranges of its unit numbers (spec/00 R7, R14; spec/01). -/

namespace Sys2Proof

/-- One byte. -/
abbrev Byte := BitVec 8
/-- A 32-bit register or field. -/
abbrev Word := BitVec 32
/-- A 64-bit register or counter. -/
abbrev Dword := BitVec 64
/-- A 64-byte record: a descriptor, an op record or a landing command (R41, R114, R246). -/
abbrev Rec64 := BitVec 512
/-- A 32-byte record: a completion record, an action entry, a DMA instruction (R222, R249, R265). -/
abbrev Rec32 := BitVec 256

/-- Halls are numbered 0 to 11, always physical (R14, R24). -/
abbrev HallId := Fin 12
/-- Physical stairwell of a hall, 0 to 255, row-major over the 16 by 16 grid (R14). -/
abbrev SwId := Fin 256
/-- DRAM layer, layer 0 nearest the logic die (R14). -/
abbrev LayerId := Fin 12
/-- Bank of a layer's bank group in one column (R93). -/
abbrev BankId := Fin 4
/-- Op queue of a stairwell, 0 to 11 (R57). -/
abbrev QueueId := Fin 12
/-- Accumulator set of a press (Table 2.3). -/
abbrev AccId := Fin 8
/-- Usher of a hall. -/
abbrev UsherId := Fin 4
/-- DMA channel of a hall (R261). -/
abbrev ChId := Fin 32
/-- Submission ring of a hall (Table 8.1). -/
abbrev SqId := Fin 256
/-- Completion ring of a hall (Table 8.1). -/
abbrev CqId := Fin 64
/-- Volume number (R131). -/
abbrev VolId := BitVec 20
/-- Clasp number (R206). -/
abbrev ClaspId := BitVec 16
/-- Receive stream of a fabric port (R311). -/
abbrev StreamId := Fin 64
/-- Slot of the fabric command area (R337). -/
abbrev FabSlot := Fin 64
/-- Fabric node: module ID in [19:4], hall in [3:0] (R310). -/
abbrev NodeId := BitVec 20
/-- Provisioned ID of a module (Table 11.5, Table 17.1). -/
abbrev Pid := BitVec 48

end Sys2Proof
end

