-- ==== Sys2Proof/Syntax.lean ====
section
/-! DEFINITION. The commands: one constructor of `Instr` for each row of spec/opcode_table.json, in the table's order.
The table gives its rows no operands; each constructor carries what the row's rule says the event names (log entry 1). -/

namespace Sys2Proof

/-- Who issues a clasp operation (R207, R212). -/
inductive Requester where
  /-- A CLASP op record held by a strand of queue `q` (R56). -/
  | strand (h : HallId) (sw : SwId) (q : QueueId)
  /-- A WAIT or SIGNAL of a DMA channel (R267). -/
  | dma (h : HallId) (ch : ChId)
  /-- Usher `u` of a hall; `step` names the claimed descriptor it is running, where there is one (R220). -/
  | usher (h : HallId) (u : UsherId) (claim : Option Nat)
  /-- A CLASP_OP descriptor, by its claim (R212). -/
  | host (claim : Nat)
  /-- An action of a binding (R224). -/
  | binding (b : Nat)
deriving DecidableEq, Repr

/-- Vestibule hints (Table 9.9). -/
inductive Hint where
  | stream | keep | last
deriving DecidableEq, Repr

/-- Which of the two cached tiers an access or a maintenance range names (R274, Table 9.13). -/
inductive TierSpace where
  | park | far
deriving DecidableEq, Repr

/-- A park or far access as it reaches a vestibule (R274): `write` holds the bytes of a write. -/
structure VestReq where
  space : TierSpace
  addr  : Nat
  len   : Nat
  hint  : Hint
  write : Option (List Byte)
  poison : Bool
deriving DecidableEq, Repr

/-- Traffic classes of the mesh and ring (R287). -/
inductive PktClass where
  | request | response
deriving DecidableEq, Repr

/-- A request that was answered TARGET_RESETTING (R303): a clasp operation by its place in the list of those set aside, a
packet of a hall's units by its place, what a DMA channel asks for, the leaf work of a step for a hall. -/
inductive RetryTarget where
  | clasp (i : Nat)
  | packet (h : HallId) (i : Nat)
  | dma (h : HallId) (ch : ChId)
  | item (step : Nat) (h : HallId)
deriving DecidableEq, Repr

/-- Source or destination of a package packet: a stairwell, a unit of the hall block, an edge gate, or the host die
(R288, R297). -/
inductive NetUnit where
  | stairwell (sw : SwId)
  | dma | vestibule | usher (u : UsherId) | clasp
  | hostGate | fabricGate
  | core (c : Fin 24) | porter | parkCtl (c : Fin 12) | portB
deriving DecidableEq, Repr

/-- What a request packet asks of its destination, or what a response says. -/
inductive PktBody where
  /-- A read of `len` bytes. -/
  | read (addr : Nat) (len : Nat)
  /-- A write of bytes. -/
  | write (addr : Nat) (bytes : List Byte) (poison : Bool)
  /-- Data answered to a read, or an empty acknowledgement of a write. -/
  | answer (bytes : List Byte) (poison : Bool)
  /-- UNIT_FENCED (R289, R390). -/
  | unitFenced
  /-- TARGET_RESETTING (R302). -/
  | targetResetting
deriving DecidableEq, Repr

/-- A packet of the hall mesh or the hall ring (R287, R293, R297). -/
structure Packet where
  id      : Nat
  srcHall : HallId
  src     : NetUnit
  dstHall : HallId
  dst     : NetUnit
  cls     : PktClass
  body    : PktBody
deriving DecidableEq, Repr

/-- Outputs of a mesh router (R287, R295). -/
inductive MeshPort where
  | east | west | north | south | local
deriving DecidableEq, Repr

/-- Arbiter outputs of a hall (Table 10.2): a stairwell's mesh injection point; an output of its router; the outputs of
the gate block's crossbar; and the Pelaitik end of the hall's host module. -/
inductive NetOut where
  | injection (sw : SwId)
  | router (sw : SwId) (port : MeshPort)
  | gallery (g : Fin 16)
  | hallBlock | host | ring | fabric
  | hostModule
deriving DecidableEq, Repr

/-- What happens at a hall's mesh or gate: a unit sends a packet, with the input of Table 10.2 at which a stairwell's
waits (0 near-memory responses, 1 leaf-work microcode, 2 op-queue traffic), or an output grants one. -/
inductive MeshEvent where
  | inject (p : Packet) (inp : Fin 3)
  | grant (out : NetOut)
deriving DecidableEq, Repr

/-- How a packet arrived over a fabric link: its link sequence number, and whether every codeword and its link check were right
(R321). -/
structure LinkTag where
  seq : Nat
  ok  : Bool
deriving DecidableEq, Repr

/-- A Jexdel packet: the 32-byte header of Table 11.3, the payload, and the trailer's CRC-32 and upper half (R317). `link`: it
comes over the link of the hall's own port, or goes out over it; none for one that comes over the module's ring. -/
structure FabPacket where
  hdr     : Rec32
  payload : List Byte
  crc     : Word
  pad     : Word
  link    : Option LinkTag := none
deriving DecidableEq, Repr

/-- A management message: the 32-byte header of Table 11.11 and its body (R329). -/
structure MgmtMsg where
  hdr  : Rec32
  body : List Byte
deriving DecidableEq, Repr

/-- A rail whose power-good the sequencer watches (Table 16.3a, R433). -/
inductive Rail where
  | bus | pelaitik | park
  | hallCore (h : HallId) | hallSram (h : HallId) | hallDram (h : HallId) | hallNetwork (h : HallId)
deriving DecidableEq, Repr

/-- SOURCE of an error (Table 14.1). -/
inductive ErrSource where
  | sram | vest | clasp | nearStriped | nearLanded | layer | park | parkLink | parkPkg | ucie | fabFec | fabCrc
  | fabGiveup | portb | fence
deriving DecidableEq, Repr

/-- An error that a detecting unit meets (R379): where it lies, and whether the code corrects it. -/
structure ErrEvent where
  source        : ErrSource
  correctable   : Bool
  hall          : HallId
  unit          : Nat
  layer         : Nat
  addr          : Nat
  scrub         : Bool
deriving DecidableEq, Repr

/-- A unit that the device fences on its own (Table 14.4). -/
inductive FenceTarget where
  | stairwell (h : HallId) (sw : SwId)
  | landing (h : HallId) (sw : SwId) (l : LayerId)
  | usher (h : HallId) (u : UsherId)
  | slice (h : HallId) (slice : Fin 96)
  | hall (h : HallId) (cause : Nat)
  | core (c : Fin 24)
deriving DecidableEq, Repr

/-- What one hall's housekeeping block reads in a round (Table 15.1, R411): temperatures of channels 0 to 319 in
0.125 °C after the factory trim (log entry 8), rail voltages of channels 320 to 371 in mV, busy core cycles of each stairwell, and
the measured `want`. A list shorter than its channels reads 0 beyond its end. -/
structure HallRound where
  temps : List Int
  rails : List Nat
  busy  : List Nat
  want  : Nat
deriving DecidableEq, Repr

/-- What a housekeeping round reads: each hall in turn, and the porter's own channels (two inlet diodes, two outlet
diodes, the eight Pelaitik diodes). -/
structure RoundInput where
  halls    : List HallRound
  inlet    : List Int
  outlet   : List Int
  pelaitik : List Int
  /-- Largest change of unscheduled current within the round, in 10 mA (R427). -/
  unsched  : Nat
deriving DecidableEq, Repr

/-- What the units of the halls compute of the images sent to them (R360, steps 2 to 4): for each unit listed, its value at
the first and at the second attempt. A unit not listed computes the manifest's value. -/
structure LoadReport where
  /-- SHA-384 of the broadcast stream, by the gate block. -/
  hallSha  : List (HallId × List (BitVec 384)) := []
  /-- CRC-32 of the microcode that a stairwell has stored. -/
  swCrc    : List (HallId × SwId × List Word) := []
  /-- CRC-32 of the code that an usher has stored. -/
  usherCrc : List (HallId × UsherId × List Word) := []
deriving DecidableEq, Repr

/-- The end of a compute reset: of one stairwell, or of the hall, with what its load gave where it reloads (R371, R372). -/
structure ResetEnd where
  sw   : Option SwId := none
  load : LoadReport := {}
deriving DecidableEq, Repr

/-- How a UCIe link trains (R290): the lanes it keeps after lane repair, the RATE code of Table 10.5 at which training
succeeds, and the redundant lanes in use. -/
structure LinkTrain where
  lanes  : Nat := 64
  rate   : Nat := 6
  spares : Nat := 0
deriving DecidableEq, Repr

/-- Failures that a cold bring-up finds (Table 13.3, Table 13.4, Table 13.5), as the units report them to the porter. -/
structure BringupReport where
  /-- The porter firmware of slot A, of slot B, verifies. -/
  porterOk      : Bool × Bool
  /-- The microcode, usher code and manifest of slot A, of slot B, verify. -/
  imagesOk      : Bool × Bool
  factoryCalOk  : Bool
  hallSteps     : List Nat
  coldSensor    : Bool
  pllFail       : List HallId
  /-- Host modules by hall, and ring links by the hall they leave clockwise; one that is not listed trains in full. -/
  hostTrain     : List LinkTrain
  ringTrain     : List LinkTrain
  parkFail      : List (Fin 24)
  load          : LoadReport
  trip          : List HallId
  /-- Signal bonds that fail test, of each stairwell that has any (R18). -/
  bondFail      : List (HallId × SwId × Nat)
  /-- Stairwells that fail their logic test or cannot be repaired to 3 MiB of SRAM. -/
  swFail        : List (HallId × SwId)
  /-- Landings that fail their test. -/
  landFail      : List (HallId × SwId × LayerId)
  /-- Columns that fail the near-tier test. -/
  colFail       : List (HallId × SwId)
  usherFail     : List (HallId × UsherId)
  sliceFail     : List (HallId × Fin 96)
  layerFail     : List (HallId × LayerId)
  coreFail      : List (Fin 24)
  /-- DRAM sensors below 15.0 °C when compute is released: halls (R413). -/
  coldDram      : List HallId
  /-- Power-up records A and B pass their CRC-32, and the record written reads back (R350). -/
  pucOk         : Bool × Bool
  pucWritten    : Bool
  /-- The newer and the older copy of the soft map, and of the user calibration area, pass their CRC-32 (R366, R375). -/
  softmapOk     : Bool × Bool
  userCalOk     : Bool × Bool
deriving DecidableEq, Repr

/-- Which write of a ring's set-up a RING_CFG_WRITE makes (Table 8.2). -/
inductive RingReg where
  | sqBaseLo | sqBaseHi | sqCfg | cqBaseLo | cqBaseHi | cqCfg | cqVec
deriving DecidableEq, Repr

/-- Which tier set-up register is written (Table 5.11). -/
inductive TierReg where
  | tierCfg | farBase | farSize
deriving DecidableEq, Repr

/-- Far-decoder registers (Table 9.13). -/
inductive FardecReg where
  | base | size
deriving DecidableEq, Repr

/-- Port A window registers (Table 8.16). -/
inductive PortaReg where
  | winLo | winHi
deriving DecidableEq, Repr

/-- Error-log set-up registers (Table 14.9). -/
inductive ErrlogReg where
  | baseLo | baseHi | cfg
deriving DecidableEq, Repr

/-- Steps of a UCIe link after a flit fails its CRC (R290). -/
inductive UcieOutcome where
  /-- The resent flit is received. -/
  | resent
  /-- The link retrains and keeps its lanes. -/
  | retrained
  /-- Retraining replaces failed lanes with `spares` redundant lanes. -/
  | repaired (spares : Nat)
  /-- Retraining leaves the link with `lanes` lanes. -/
  | narrowed (lanes : Nat)
deriving DecidableEq, Repr

/-- A UCIe link of a hall (Table 10.5). -/
inductive UcieLink where
  | host | ringCw | ringCcw
deriving DecidableEq, Repr

/-- Why an ACTIVE fabric port leaves it (R326). -/
inductive PortFaultCause where
  | lockLost | errorRate | noControlWord
deriving DecidableEq, Repr

/-- The preamble of a volume transfer (R336, step 1): the Table 5.7 fields of the sender's plan and the volume's. -/
structure XferPreamble where
  srcNode  : NodeId
  srcVol   : VolId
  dstVol   : VolId
  layers   : Nat
  span     : Nat
  tpl      : Nat
  kvfmt    : Nat
  kvbytes  : Nat
  rowelems : Nat
  lead     : Nat
  parkFmt  : Nat
  window   : Word
  tokens   : Word
  ckpt     : Word
  pfv      : Nat
  leaves   : Nat
deriving DecidableEq, Repr

/-- Two transports carry SPDM (R449). -/
inductive Transport where
  | i3c | portA
deriving DecidableEq, Repr

/-- An ordinary access to a column by an application core (R121): `write` holds the bytes of a write. -/
structure LineReq where
  addr   : Nat
  len    : Nat
  write  : Option (List Byte)
  poison : Bool
  core   : Fin 24
deriving DecidableEq, Repr

/-- The commands of the block, one for each row of the table, in the table's order. -/
inductive Instr where
  -- descriptors that a hall has claimed, named by their claim (R243, R246)
  | planLoad (c : Nat)
  | planUnload (c : Nat)
  | volOpen (c : Nat)
  | volClose (c : Nat)
  | volQuery (c : Nat)
  | fmSeal (c : Nat)
  | checkpoint (c : Nat)
  | park (c : Nat)
  | shelve (c : Nat)
  | resume (c : Nat)
  | recover (c : Nat)
  | volRehome (c : Nat)
  | hintQuery (c : Nat)
  | stepDecode (c : Nat)
  | stepVerify (c : Nat)
  | stepPrefill (c : Nat)
  | stepAbort (c : Nat)
  | bind (c : Nat)
  | bindForward (b : Nat)
  | claspOp (c : Nat)
  | nop (c : Nat)
  | dmaStart (c : Nat)
  | dmaStop (c : Nat)
  | fenceUnitFence (c : Nat)
  | fenceUnitWatch (c : Nat)
  -- doorbells and claiming
  | sqTailWrite (h : HallId) (ring : SqId) (aligned8 : Bool) (value : Dword)
  | cqHeadWrite (h : HallId) (ring : CqId) (aligned8 : Bool) (value : Dword)
  | claimDescriptor (h : HallId)
  | irqDelayExpire (h : HallId) (ring : CqId)
  -- the stairwell's sequencer, press, path and vector engine
  | opHandout (h : HallId) (sw : SwId) (q : QueueId)
  | opReady (h : HallId) (sw : SwId) (q : QueueId) (i : Fin 32)
  | opRetire (h : HallId) (sw : SwId) (q : QueueId)
  | tile (h : HallId) (sw : SwId)
  | splitPartialAdd (h : HallId) (sw : SwId) (set : AccId)
  | fetch (h : HallId) (sw : SwId) (q : QueueId)
  | store (h : HallId) (sw : SwId) (q : QueueId)
  | smMax (h : HallId) (sw : SwId)
  | smExp (h : HallId) (sw : SwId)
  | smMerge (h : HallId) (sw : SwId)
  | smNorm (h : HallId) (sw : SwId)
  | rmsnorm (h : HallId) (sw : SwId)
  | layernorm (h : HallId) (sw : SwId)
  | silu (h : HallId) (sw : SwId)
  | geluTanh (h : HallId) (sw : SwId)
  | swiglu (h : HallId) (sw : SwId)
  | relu (h : HallId) (sw : SwId)
  | rope (h : HallId) (sw : SwId)
  | scale (h : HallId) (sw : SwId)
  | ewAdd (h : HallId) (sw : SwId)
  | ewMul (h : HallId) (sw : SwId)
  | topk (h : HallId) (sw : SwId)
  | convert (h : HallId) (sw : SwId)
  | psumAdd (h : HallId) (sw : SwId)
  | psumPair (h : HallId) (sw : SwId)
  -- clasp operations
  | ctrInit (rq : Requester) (k : ClaspId) (v : Word)
  | flagInit (rq : Requester) (k : ClaspId) (v : Word)
  | lockInit (rq : Requester) (k : ClaspId) (v : Word)
  | drop (rq : Requester) (k : ClaspId) (v : Word)
  | ctrAdd (rq : Requester) (k : ClaspId) (v : Word)
  | ctrArrive (rq : Requester) (k : ClaspId) (v : Word)
  | ctrWait (rq : Requester) (k : ClaspId) (v : Word)
  | ctrSet (rq : Requester) (k : ClaspId) (v : Word)
  | flagSet (rq : Requester) (k : ClaspId) (v : Word)
  | flagClear (rq : Requester) (k : ClaspId) (v : Word)
  | flagWait (rq : Requester) (k : ClaspId) (v : Word)
  | lockTry (rq : Requester) (k : ClaspId) (v : Word)
  | lockTake (rq : Requester) (k : ClaspId) (v : Word)
  | lockRelease (rq : Requester) (k : ClaspId) (v : Word)
  | lockBreak (rq : Requester) (k : ClaspId) (v : Word)
  | claspRepresent (i : Nat)
  | resetBackoffRetry (t : RetryTarget)
  -- bindings
  | bindPrepare (b : Nat)
  | bindPrepared (b : Nat)
  | bindCommit (b : Nat) (h : HallId)
  | bindDone (b : Nat)
  | bindAbort (b : Nat)
  | bindPrepareTimeout (b : Nat) (h : HallId)
  | bindFinishFromLog (b : Nat)
  -- steps and leaf work
  | laneLockRetry (st : Nat)
  | walkItemEmit (st : Nat)
  | leafAttend (h : HallId) (sw : SwId)
  | leafAppend (h : HallId) (sw : SwId)
  | leafMove (h : HallId) (sw : SwId)
  | leafGather (h : HallId) (sw : SwId)
  | boardSendRows (st : Nat)
  | partialArrive (st : Nat) (i : Nat)
  | mergeForward (st : Nat) (h : HallId) (sw : SwId)
  | stepDecide (st : Nat)
  | stepRunVoid (st : Nat)
  | stepTimeout (st : Nat)
  | pinRequest (st : Nat) (up : Bool)
  -- tier movements of volumes
  | writebackCopiesDone (v : VolId)
  | leafStaged (v : VolId) (idx : Nat)
  | resumeEligible (v : VolId)
  | parkNearReleased (v : VolId)
  | shelveLeavesCommitted (v : VolId) (pair : Nat)
  -- fabric commands and volume transfer
  | volSend (slot : FabSlot)
  | volAccept (slot : FabSlot)
  | volAcceptTimeout (slot : FabSlot)
  | volTransferPreamble (p : XferPreamble)
  | volTransferLeaf (v : VolId) (idx : Nat) (fill : Nat) (bytes : List Byte) (poison : Bool)
  | mgmtSend (slot : FabSlot)
  | mgmtSendTimeout (slot : FabSlot)
  -- DMA program instructions and bursts
  | dmaMove (h : HallId) (ch : ChId)
  | dmaLoop (h : HallId) (ch : ChId)
  | dmaWait (h : HallId) (ch : ChId)
  | dmaSignal (h : HallId) (ch : ChId)
  | dmaEnd (h : HallId) (ch : ChId)
  | dmaBurst (h : HallId)
  | dmaWritesAnswered (h : HallId) (ch : ChId)
  -- vestibule
  | vestAccess (h : HallId) (r : VestReq)
  | vestRecall (space : TierSpace) (unit : Nat) (by_ : Option HallId) (write : Bool) (whole : Bool)
  | evict (h : HallId)
  | unkeep (h : HallId)
  -- landings and near memory
  | modeWrite (h : HallId) (sw : SwId) (page : Fin 16) (w : Rec64)
  | bankAccessesDrained (h : HallId) (sw : SwId) (l : LayerId) (b : BankId)
  | landingCmdWrite (h : HallId) (sw : SwId) (page : Fin 16) (slot : Fin 4) (off : Fin 64) (bytes : List Byte)
  | windowWrite (h : HallId) (sw : SwId) (page : Fin 16) (off : Nat) (bytes : List Byte)
  | windowWriteApply (h : HallId) (sw : SwId) (l : LayerId)
  | score (h : HallId) (sw : SwId) (l : LayerId)
  | valueAcc (h : HallId) (sw : SwId) (l : LayerId)
  | attend (h : HallId) (sw : SwId) (l : LayerId)
  | accClear (h : HallId) (sw : SwId) (l : LayerId)
  | readout (h : HallId) (sw : SwId) (l : LayerId)
  | fill (h : HallId) (sw : SwId) (l : LayerId)
  | copy (h : HallId) (sw : SwId) (l : LayerId)
  | pack (h : HallId) (sw : SwId) (l : LayerId)
  | unpack (h : HallId) (sw : SwId) (l : LayerId)
  | chunkBoundary (h : HallId) (sw : SwId) (l : LayerId)
  | refreshDue (h : HallId) (sw : SwId) (l : LayerId) (b : BankId)
  | nearLineRequest (h : HallId) (sw : SwId) (r : LineReq)
  | layoutApply (h : HallId) (w : Word)
  | layoutReinitDone (h : HallId) (sw : SwId)
  | scrubStep (h : HallId) (sw : SwId)
  | parkScrubStep (ctl : Fin 12)
  -- errors, fences, publication
  | layerLost (h : HallId) (l : LayerId)
  | errorEvent (e : ErrEvent)
  | parkPkgFail (p : Fin 24) (retrained : Bool)
  | unitFence (t : FenceTarget)
  | adoptionComplete (h : HallId) (sw : SwId)
  | resdescPublish
  -- thermal and power
  | housekeepingRound (r : RoundInput)
  | dStepSlot
  | coolantWindow
  | inputSample (mv : Nat) (ma : Nat)
  | startGateOpen
  | railPgoodTimeout (r : Rail)
  -- bring-up and resets
  | porterRelease (r : BringupReport) (slotStraps : Fin 8)
  | handOff
  | enableFall
  | inputLoss
  | railPgoodLoss (r : Rail)
  | pllLockLoss (h : HallId)
  | refLost
  | warmResetRequest (w : Word)
  | hallComputeReset (h : HallId) (w : Word)
  | usherHeartbeatMiss (h : HallId) (u : UsherId)
  | computeFaultReport (h : HallId)
  | stairwellReset (h : HallId) (w : Word)
  -- package network
  | meshPacket (h : HallId) (e : MeshEvent)
  | ringPacket (h : HallId) (cw : Bool)
  | meshBroadcast (h : HallId) (p : Packet)
  | ringBroadcast (h : HallId) (mask : BitVec 12) (p : Packet)
  | ageTick
  | ringReroute
  | ucieFlitResend (h : HallId) (link : UcieLink) (o : UcieOutcome)
  -- fabric
  | fabPortEnable (h : HallId) (en : Bool)
  | fabPortRetrain (h : HallId)
  | fabDownRetry (h : HallId)
  | fecLock (h : HallId) (lanes : Nat)
  | trainTimeout (h : HallId)
  | helloTimeout (h : HallId)
  | helloSend (h : HallId)
  | hello (h : HallId) (p : FabPacket)
  | portFault (h : HallId) (c : PortFaultCause)
  | linkReplay (h : HallId) (linkSeq : Nat)
  | data (h : HallId) (p : FabPacket)
  | ack (h : HallId) (p : FabPacket)
  | ackTimer (h : HallId) (s : StreamId)
  | retransmitTimer (h : HallId) (dst : NodeId) (s : StreamId) (seq : Word)
  | fabricForward (h : HallId) (p : FabPacket)
  | mgmtForward (h : HallId) (p : FabPacket)
  | claimSend
  | claim (h : HallId) (p : FabPacket)
  | managerElected
  | heartbeatSend
  | heartbeat (h : HallId) (p : FabPacket)
  | heartbeatLoss
  | query (h : HallId) (link : Option LinkTag) (p : FabPacket)
  | assignId (h : HallId) (link : Option LinkTag) (p : FabPacket)
  | routeWrite (h : HallId) (link : Option LinkTag) (p : FabPacket)
  | wclSet (h : HallId) (link : Option LinkTag) (p : FabPacket)
  | report (a : HallId × FabPacket)
  -- set-up writes with rows of their own
  | fabStreamCfgWrite (h : HallId) (w : Word)
  | ringCfgWrite (h : HallId) (r : RingReg) (w : Word)
  | dmaChCfgWrite (h : HallId) (w : Word)
  | tierCfgWrite (r : TierReg) (w : Word)
  | fardecWrite (r : FardecReg) (w : Word)
  | portaWinWrite (r : PortaReg) (w : Word)
  | errlogCfgWrite (r : ErrlogReg) (w : Word)
  | errlogHeadWrite (w : Word)
  | peakClear (w : Word)
  | portaIrq (w : Word)
  | mailboxWrite (off : Nat) (size : Nat) (value : Dword)
  | portaLinkChange (perst : Bool) (width : Nat) (gen : Nat)
  | portbLinkLoss
  | pbPerstRelease
  | cableInsert (h : HallId) (watts : Nat)
  -- calibration and firmware
  | calOpRead
  | calOpWrite
  | calOpClear
  | calRestoreFactory
  | fwupdStage
  | fwupdCommit (classes : BitVec 3)
  -- I3C: common command codes
  | entdaa (word : Option (BitVec 64)) (addr : BitVec 7)
  | rstdaa
  | enec (events : Byte)
  | disec (events : Byte)
  | setmwl (n : BitVec 16)
  | getmwl
  | setmrl (n : BitVec 16)
  | getmrl
  | getpid
  | getbcr
  | getdcr
  | getstatus
  | responseRead
  | mctpPacket (t : Transport) (bytes : List Byte)
  -- I3C: management commands, each a well-formed frame's argument bytes
  | readPage (args : List Byte)
  | alertAck (args : List Byte)
  | calRead (args : List Byte)
  | calWrite (args : List Byte)
  | calClear (args : List Byte)
  | restoreFactory (args : List Byte)
  | warmReset (args : List Byte)
  | fwCommit (args : List Byte)
  | ibiRequest (acked : Bool)
  -- SPDM requests, each the bytes after the MCTP message type
  | getVersion (t : Transport) (req : List Byte)
  | getCapabilities (t : Transport) (req : List Byte)
  | negotiateAlgorithms (t : Transport) (req : List Byte)
  | getDigests (t : Transport) (req : List Byte)
  | getCertificate (t : Transport) (req : List Byte)
  | challenge (t : Transport) (req : List Byte)
  | getMeasurements (t : Transport) (req : List Byte)
  -- the rest
  | registerWrite (offset : Nat) (size : Nat) (value : Dword)
  | computeResetRelease (h : HallId) (e : ResetEnd)
  | vestMaintDone (h : HallId)
  | calCommandDone (flashOk : Bool)
  | fwupdDone (flashOk : Bool)
  | mgmtReply (h : HallId) (p : FabPacket)
  | portbLinkUp (width : Nat) (gen : Nat) (cxl : Bool)
  | linkControlWord (h : HallId) (ackedSeq : Nat) (credits : List (Fin 24 × Nat))
  | commandFrameRefused (frame : List Byte)
deriving DecidableEq, Repr

end Sys2Proof
end

