-- ==== Sys2Proof/Config.lean ====
section
/-! DEFINITION. What one device fixes and the spec does not state: constants without a body, of which nothing can be
proved but what holds whatever they are. -/

namespace Sys2Proof

/-! ### Free values: results that the spec bounds or leaves open (log entry 5) -/

/-- Which of the values within R52's bound a function gives, by function and inputs (log entry 12). -/
opaque Config.ulpChoice (function x y z : Nat) : Nat

/-- Sign of the maximum of +0 and −0 (log entry 12). -/
opaque Config.zeroMaxNeg : Bool

/-- Order of the columns in a pairwise reduction, fixed for each count of columns (R52, log entry 12). -/
opaque Config.pairOrder (cols : Nat) : List Nat

/-- The `n`-th free value drawn (log entry 5). -/
opaque Config.free (n : Nat) : Nat

/-- Park address of a copy (0 or 1) of the log of a binding; the spec places the log in the park tier only (log
entry 21). -/
opaque Config.bindLog (binding copy : Nat) : Nat

/-- Which usher of its hall runs the descriptor of a claim (R211, log entry 15). -/
opaque Config.usherOf (claim : Nat) : UsherId

/-- What a device channel of a hall says while a movement of the device runs there, at a time: bits 0 to 2, RUNNING and its
sets; and its BYTES (R261, log entry 116). -/
opaque Config.deviceChan (now hall ch : Nat) : Nat
opaque Config.deviceBytes (now hall ch : Nat) : Nat

/-- Where microcode cuts a chain that runs on a standby, by the step, the op that starts it and the chain's K; no cut where
it does not divide the chain (R84, R394, log entry 63). -/
opaque Config.chainCuts (step op k : Nat) : List Nat

/-- Rank by which the partial of a divided chain's piece arrives, by step, op and piece (R87, log entry 63). -/
opaque Config.pieceArrival (step op piece : Nat) : Nat

/-- How many ops of queue `q` microcode forms for a leaf-work item: a layer's item of spine index `idx` in a run (log
entry 28). -/
opaque Config.leafOps (epoch layer idx q : Nat) : Nat

/-- Which of a layer's two staging blocks a transcoded leaf passes through, by hall, stairwell, slot and time: the second or
the first (R150, log entry 122). -/
opaque Config.stagingSecond (hall sw slot now : Nat) : Bool

/-- Redundant lanes of a UCIe module (R290). -/
opaque Config.ucieSpares : Nat

/-- Which 4 KiB page of the host reservation bring-up gives the resource descriptor (R28). -/
opaque Config.resPage : Nat

/-- The fixed hash of a 2 KiB unit's number that R275 takes modulo the number of vestibule sets. -/
opaque Config.vestHash (unit : Nat) : Nat

/-- Whether firmware of major level `n` + 1 knows a newer park-format version than level `n` (R332). -/
opaque Config.pfvStep (n : Nat) : Bool

/-- Highest preset number of the link training that EQ_FABRIC names (Table 13.11). -/
opaque Config.eqFabricPresets : Nat

/-- Whether a reported quotient that is not whole is rounded up; the spec gives no rounding of the monitors' readings (log
entry 35). -/
opaque Config.roundUp (what num den : Nat) : Bool

/-- Factory thermal-resistance baseline in µK/W (Table 13.10, log entry 8). -/
opaque Config.rthFactory : Nat

/-! ### Firmware bundles and attestation: formats, keys and digests that the spec does not give (log entry 36) -/

/-- Whether the manifest signature and every digest of a bundle are right (R452). -/
opaque Config.bundleSigned (bundle : List Byte) : Bool

/-- Whether a bundle and its manifest have the right format (Table 17.11). -/
opaque Config.bundleFormat (bundle : List Byte) : Bool

/-- Level that a bundle's manifest gives. -/
opaque Config.bundleLevel (bundle : List Byte) : Word

/-- SVN that a bundle's manifest gives a class: 0 porter, 1 hall, 2 PHY. -/
opaque Config.bundleSvn (bundle : List Byte) (class_ : Nat) : Nat

/-- Name of a bundle's images, from which their digests follow. -/
opaque Config.bundleIdent (bundle : List Byte) : Nat

/-- SHA-384 of a byte string, as a number of 48 bytes (R449). -/
opaque Config.sha384 (bytes : List Byte) : BitVec 384

/-- SHA-384 of the images of a running bundle by measurement block (2 porter, 3 microcode, 4 usher code, 5 PHY), of the
boot ROM (1) and of the factory calibration area (8) (Table 17.10). -/
opaque Config.imageDigest (block ident : Nat) : BitVec 384

/-- CRC-32 of an image of a bundle by block, as its manifest gives it (R360). -/
opaque Config.imageCrc (block ident : Nat) : Word

/-- What the units of the halls compute of the images that the `n`-th load of a warm reset sends them: the gate blocks' SHA-384,
and the CRC-32 of what stairwells and ushers have stored, at each attempt (R360, log entry 110). -/
opaque Config.warmHallSha (n : Nat) : List (HallId × List (BitVec 384))
opaque Config.warmSwCrc (n : Nat) : List (HallId × SwId × List Word)
opaque Config.warmUsherCrc (n : Nat) : List (HallId × UsherId × List Word)

/-- Whether the `n`-th write of the soft map to flash fails (R366). -/
opaque Config.flashFails (n : Nat) : Bool

/-- The certificate chain of R448 in SPDM's form. -/
opaque Config.certChain (serial : Dword) (pid : Pid) : List Byte

/-- The identity key's signature of a byte string: 96 bytes (R448, R449). -/
opaque Config.sign (serial : Dword) (bytes : List Byte) : BitVec 768

/-- Yarisk's identifier in an ExtAsym entry (Table 17.9). -/
opaque Config.yariskId : Byte

/-- Timing exponent and transfer size that the SPDM responder reports. -/
opaque Config.spdmTiming : Byte
opaque Config.spdmSize : Word

/-- Value type of a measurement block, and whether it belongs to the trusted computing base. -/
opaque Config.measType (block : Nat) : Byte
opaque Config.measTcb (block : Nat) : Bool

/-- Factory data: bytes of the soft map and of the user calibration area as they stand in flash (R366, R375, R450). -/
opaque Config.softmapArea (entries : List Dword) : List Byte
opaque Config.userCalArea (entries : List (Nat × Dword)) : List Byte

end Sys2Proof
end

