-- ==== Sys2Proof/Machine/State.lean ====
section
/-! DEFINITION. What the module holds: every register, store, queue, mode and pin the spec gives it, as plain data, and
the queue of waiting commands. Every structure's default field values are its state in `State.reset`. -/

namespace Sys2Proof.Machine

/-- A sparse table by number: strictly rising numbers; an unlisted number holds the table's default entry. -/
abbrev Sparse (β : Type) := List (Nat × β)

/-- Why the block stops. No rule of the spec stops the block, so nothing raises a fault: what fails is reported as a
status, a mark or an access fault of a core, and the block goes on. -/
inductive Fault where
deriving DecidableEq, Repr

/-- Why a command has no meaning. -/
inductive Refusal where
  /-- The command is not modelled; raised by an arm of `exec` only. Safe: nothing is claimed of it. -/
  | notModelled (mnemonic : String)
deriving DecidableEq, Repr

/-! ### Rings and claimed descriptors (chapter 8) -/

/-- A submission ring (Table 8.2). -/
structure SubRing where
  base    : Nat := 0
  log2    : Nat := 4
  prio    : Bool := false
  en      : Bool := false
  err     : Bool := false
  tail    : Word := 0
  claimed : Word := 0
deriving DecidableEq, Repr

/-- A completion ring (Table 8.2), with the unsignalled records of R250 and the time of the oldest of them. -/
structure CompRing where
  base     : Nat := 0
  log2     : Nat := 4
  en       : Bool := false
  err      : Bool := false
  irqCount : Nat := 1
  irqDelay : Nat := 0
  vector   : Nat := 0
  tail     : Word := 0
  head     : Word := 0
  res      : Nat := 0
  unsig    : Nat := 0
  oldest   : Option Nat := none
deriving DecidableEq, Repr

/-- How far a claimed descriptor has come. -/
inductive ClaimStage where
  /-- Claimed, nothing done yet. -/
  | claimed
  /-- Waits on its volume (R137), on an idle register set (R268), or on a lane. -/
  | waiting
  /-- Its work runs; an event of the table will complete it. -/
  | running
  /-- A BIND that its hall has forwarded (R242). -/
  | forwarded
  /-- A WATCH or a FENCE that waits for a publication (R391). -/
  | watch (seq : Nat) | fencing (found : Bool)
deriving DecidableEq, Repr

/-- A descriptor that a hall has claimed and whose record is not yet written (R243). -/
structure Claim where
  hall   : HallId
  sq     : SqId
  sqHead : Word
  desc   : Rec64
  stage  : ClaimStage := .claimed
  /-- As the descriptor was claimed: the state of a DMA_STOP's channel (Table 9.6), and a VOL_QUERY's volume (R133). -/
  found  : Nat := 0
  image  : BitVec 1024 := 0
deriving DecidableEq, Repr

/-! ### Stairwell compute (chapter 2) -/

/-- Strand states (Table 2.11); FREE strands are not listed. -/
inductive StrandState where
  | waiting | ready | executing | done | halted
deriving DecidableEq, Repr

/-- One op in flight in a strand. `count` is the queue's retired count when the op left WAITING (R74). -/
structure Strand where
  op     : Rec64
  idx    : Nat
  poison : Bool := false
  state  : StrandState := .waiting
  count  : Word := 0
deriving DecidableEq, Repr

/-- An op record waiting in its queue: the record, its index in its plan, and whether its bytes read poisoned. -/
structure QueuedOp where
  op     : Rec64
  idx    : Nat
  poison : Bool := false
deriving DecidableEq, Repr

/-- Op queue states (Table 2.12). -/
inductive QueueState where
  | running | halted | reset
deriving DecidableEq, Repr

/-- An op queue with its group of 32 strands, oldest op first. `plan` and the SRAM window are those of the placement
that loaded it (R254); none for leaf work. `col` is the column its FETCH and STORE ops reach (R54). -/
structure OpQueue where
  state   : QueueState := .running
  ops     : List QueuedOp := []
  strands : List Strand := []
  retired : Word := 0
  haltStatus : Nat := 0
  haltIndex  : Nat := 0
  plan    : Option Nat := none
  step    : Option Nat := none
  seed    : Word := 0
  winLo   : Nat := 0
  winHi   : Nat := 0x2E0000
  col     : Option Nat := none
deriving DecidableEq, Repr

/-- An accumulator set (Table 2.5): whether it is OPEN, the owner queue, the count of R49, the chain's M and N, the
values (2,048 words; FP32, or two's complement when `int`), the split area and the split chain's stored partials as
(level, slot of the split area); of a chain that microcode divides among standbys, where its pieces end and the partials of
those that have ended (R84); and whether the chain has read poison. -/
structure AccSet where
  isOpen   : Bool := false
  owner    : Nat := 0
  count    : Nat := 0
  m        : Nat := 0
  n        : Nat := 0
  int      : Bool := false
  vals     : Sparse Word := []
  split    : Option Nat := none
  partials : List (Nat × Nat) := []
  cuts     : List Nat := []
  pieces   : List (List Word) := []
  poison   : Bool := false
deriving DecidableEq, Repr

/-- Kinds of leaf work (Table 6.5). -/
inductive WorkKind where
  | attend | append | move | gather
deriving DecidableEq, Repr

/-- A leaf-work item (Table 6.5). `step` is the step whose walk emitted it. -/
structure WorkItem where
  kind     : WorkKind
  step     : Nat
  lane     : Nat
  press    : Bool
  epoch    : Nat
  vol      : VolId
  layer    : Nat
  index    : Nat
  shared   : Bool
  slot     : Nat
  owner    : SwId
  bhall    : HallId
  bsw      : SwId
  rowFrom  : Nat
  rowTo    : Nat
  newCount : Nat
  newBase  : Nat
  nextSw   : SwId
  nextHall : HallId
  nextBoard : Bool
  inCount  : Nat
  localN   : Nat
  halls    : Nat
  /-- Model's own: leaf row of the first new row; ROW_TO unless software has lowered the leaf's FILL (log entry 34). -/
  newRow   : Nat
deriving DecidableEq, Repr

/-- A layer's QUERY and NEWKV rows of a step as a stairwell received them from the board (R198): query rows, then key rows
and value rows, each in beats of 64 bytes with their poison. -/
structure StepRows where
  step   : Nat
  epoch  : Nat
  layer  : Nat
  query  : List (List (List Byte × Bool))
  keys   : List (List (List Byte × Bool))
  values : List (List (List Byte × Bool))
deriving DecidableEq, Repr

/-- A partial row (R51): running maximum, running sum, weighted values, and its poison. -/
structure PartRow where
  m : Word
  s : Word
  o : List Word
  poison : Bool := false
deriving DecidableEq, Repr

/-! ### Landings (chapter 4) -/

/-- Bank modes (Table 4.8). -/
inductive BankMode where
  | ordinary | entering (toLeave : Bool) | landing | leaving
deriving DecidableEq, Repr

/-- What a landing holds in order: an accepted command with the KVFMT it was accepted under and whether every bank it
touches was LANDING or ENTERING then (R115), or a buffered window write (R111, R112). -/
inductive LandItem where
  | cmd (c : Rec64) (kvfmt : Nat) (banksOk : Bool)
  | win (off : Nat) (bytes : List Byte)
deriving DecidableEq, Repr

/-- An accumulator row of a landing (R116): cleared, it holds m = −∞, s = 0 and o = 0. -/
structure AccRow where
  m : Word := 0xFF800000
  s : Word := 0
  o : Sparse Word := []
  poison : Bool := false
deriving DecidableEq, Repr

/-- A command slot being assembled (R111): its bytes and which of the 64 have been written. -/
structure CmdSlot where
  bytes : Rec64 := 0
  mask  : BitVec 64 := 0
deriving DecidableEq, Repr

/-- A landing (Tables 4.7 to 4.9). `chunks` counts the chunk boundaries the running command has passed. -/
structure Landing where
  bank0      : BankMode := .ordinary
  bank1      : BankMode := .ordinary
  bank2      : BankMode := .ordinary
  bank3      : BankMode := .ordinary
  kvfmt      : Nat := 0
  retired    : Bool := false
  issued     : BitVec 16 := 0
  done       : BitVec 16 := 0
  lastTag    : Byte := 0
  lastStatus : Nat := 0
  poisonSeen : Bool := false
  overflow   : Bool := false
  refused    : Bool := false
  slots      : Sparse CmdSlot := []
  queue      : List LandItem := []
  chunks     : Nat := 0
  acc        : Sparse AccRow := []
  query      : Sparse Byte := []
  mask       : Sparse Byte := []
  result     : Sparse Byte := []
  resPoison  : Sparse Bool := []
  failed     : Bool := false
  /-- Postponed refreshes of each bank (R124). -/
  postponed  : Sparse Nat := []
deriving DecidableEq, Repr

/-! ### Stairwells -/

/-- A stairwell and its column. -/
structure Stairwell where
  /-- Holds a logical number since the last bring-up (R25). -/
  assigned  : Bool := false
  fenced    : Bool := false
  /-- Fenced by FENCE_UNIT: lifted at the next warm reset (R365). -/
  fencedSw  : Bool := false
  /-- Signal bonds that spare bonds replace, as the last cold bring-up left them (R18). -/
  bonds     : Nat := 0
  /-- Name of the bundle whose microcode the retention store holds, none before the first load (R360). -/
  mcode     : Option Nat := none
  /-- The column's DRAM is in service (R363). -/
  colGood   : Bool := true
  /-- Chosen adopter of the column, and whether the adoption is complete (R126, R127). -/
  adopter   : Option SwId := none
  adopted   : Bool := false
  /-- The adoption has been published (R127). -/
  adoptPub  : Bool := false
  selfRef   : Bool := false
  resetting : Bool := false
  /-- MEM_LAYOUT: regions landed (bits 0 to 2), the bits last written, BUSY with the regions changing, REFUSED (R95). -/
  landed    : BitVec 3 := 6
  layWant   : BitVec 3 := 6
  layBusy   : Bool := false
  layChange : BitVec 3 := 0
  layRefused : Bool := false
  deferMax  : Nat := 0
  queues    : Sparse OpQueue := []
  acc       : Sparse AccSet := []
  pressLast : Nat := 9
  vecLast   : Nat := 9
  items     : List WorkItem := []
  /-- Rows received for leaf work of the stairwell (R198). -/
  rows      : List StepRows := []
  /-- Next layer in rotation for staged and new leaves (R168). -/
  rotLayer  : Nat := 0
  /-- Skip count and busy core cycles of the last round (R408). -/
  k         : Nat := 0
  fixed     : Bool := false
  busy      : Nat := 0
  sramCe    : List Nat := []
  scrubAddr : Nat := 0
  scrubBegin : Nat := 0
  scrubMs   : Nat := 0
  /-- Time of the last ordinary access, by layer × 4 + bank. -/
  lastAccess : Sparse Nat := []
  lastScrub : Option Nat := none
deriving DecidableEq, Repr

/-! ### DMA (chapter 9) -/

/-- Channel states (Table 9.7). -/
inductive ChState where
  | idle | loading | running | waiting | draining | stopping
deriving DecidableEq, Repr

/-- A MOVE in progress: the instruction as it stood, bytes issued and bytes answered, and its claim. -/
structure MoveRun where
  instr    : Rec32
  issued   : Nat := 0
  claim    : Option Nat := none
  setB     : Bool := false
deriving DecidableEq, Repr

/-- A request to a hall in compute reset that is to be presented again (R303): when, or that it has been and its answer is
awaited; and the interval in µs after that. -/
structure Backoff where
  due      : Option Nat
  interval : Nat
deriving DecidableEq, Repr

/-- Bytes that a channel's bursts have written and whose write is not yet answered (R269): space, address, length, and the
claim of the transfer in shadow mode. -/
structure DmaWrite where
  space : Nat
  addr  : Nat
  len   : Nat
  claim : Option Nat
deriving DecidableEq, Repr

/-- How a channel that is STOPPING ends (R272): the statuses of the transfer that stopped and of those after it, the side
concerned, the transfers before it, which are complete, whether its MOVE was refused before it began, the bytes of each
transfer that no target answers, and the DMA_STOPs that wait with the state that each found. -/
structure ChanStop where
  status  : Nat
  other   : Nat
  space   : Nat := 0
  side    : Nat := 0
  keep    : Nat := 0
  refused : Bool := false
  lost    : List (Option Nat × Nat) := []
  stops   : List (Nat × Nat) := []
deriving DecidableEq, Repr

/-- A DMA channel (R262, R265, R268). -/
structure Chan where
  mode    : Bool := false
  prio    : Bool := false
  en      : Bool := false
  err     : Bool := false
  state   : ChState := .idle
  pc      : Nat := 0
  bytes   : Nat := 0
  prog    : List Rec32 := []
  loops   : Sparse Nat := []
  claim   : Option Nat := none
  /-- Register sets A and B: the MOVE and its claim (shadow mode). -/
  setA    : Option (Rec32 × Nat) := none
  setB    : Option (Rec32 × Nat) := none
  /-- Set that starts next; A first at channel start. -/
  nextB   : Bool := false
  move    : Option MoveRun := none
  /-- The transfer whose last burst is issued and whose writes are not all answered (shadow mode). -/
  tailMv  : Option MoveRun := none
  wrote   : List DmaWrite := []
  back    : Option Backoff := none
  stop    : Option ChanStop := none
deriving DecidableEq, Repr

/-- A vestibule line (R274, R275): KEEP, dirty, and its place in the order of use. Vestibules are coherent (R276): what
every requester reads of a unit, a dirty line's bytes included, stands in the tier's memory (log entry 22). -/
structure VLine where
  keep   : Bool := false
  dirty  : Bool := false
  used   : Nat := 0
  /-- UNKEEP puts the line first in line for replacement. -/
  first  : Bool := false
deriving DecidableEq, Repr

/-! ### Fabric (chapter 11) -/

/-- Port states (Table 11.4). -/
inductive PortState where
  | down | training | hello | check | active | retrain | refused
deriving DecidableEq, Repr

/-- A receive stream (R313 to R315). -/
structure RxStream where
  en      : Bool := false
  err     : Bool := false
  credits : Nat := 0
  src     : NodeId := 0
  /-- Buffered packets by SEQ: payload and poison. -/
  buf     : Sparse (List Byte × Bool) := []
  /-- Every SEQ below `got` has been received; every SEQ below `read` has been handed out. -/
  got     : Word := 0
  read    : Word := 0
  unacked : Nat := 0
  unackAt : Option Nat := none
deriving DecidableEq, Repr

/-- A DATA packet kept until acknowledged: payload, poison, START, times and count of its sends, the MOVE's channel
and, in shadow mode, its claim. -/
structure TxPkt where
  seq     : Word
  payload : List Byte
  poison  : Bool
  start   : Bool
  sent    : Nat
  sends   : Nat
  ch      : Option ChId
  claim   : Option Nat := none
deriving DecidableEq, Repr

/-- A sending sequence of a hall to one (node, stream) pair (R314 to R316). -/
structure TxStream where
  next  : Word := 0
  limit : Option Word := none
  start : Bool := true
  pkts  : List TxPkt := []
  /-- A MOVE to the pair ended with a fault or a stop: the sequence starts again (R314). -/
  stopped : Bool := false
deriving DecidableEq, Repr

/-- A packet in a port's replay buffer (R321): its link sequence number, the packet and its class. -/
structure LinkPkt where
  linkSeq : Nat
  pkt     : FabPacket
deriving DecidableEq, Repr

/-- A fabric port (Table 11.10) with what its peer's last HELLO said, and the link layer's state. -/
structure Port where
  en        : Bool := true
  state     : PortState := .down
  width     : Nat := 0
  reason    : Nat := 0
  jpv       : Nat := 0
  peerPid   : Pid := 0
  peerNode  : NodeId := 0
  peerLevel : Word := 0
  peerWcl   : Nat := 0
  peerEpoch : Word := 0
  peerMgr   : Pid := 0
  peerHello : Option (List Byte) := none
  /-- When the state was entered, and when the last training attempt began. -/
  since     : Nat := 0
  attempt   : Option Nat := none
  helloAt   : Option Nat := none
  cable     : Option Nat := none
  cableOn   : Bool := false
  fecUncorr : Word := 0
  crcErr    : Word := 0
  drops     : Word := 0
  retx      : Word := 0
  linkNext  : Nat := 1
  replay    : List LinkPkt := []
  /-- Packets that wait for credits. -/
  waitq     : List FabPacket := []
  /-- Units of the peer's link buffers in use by each virtual channel, class × 8 + level, in 64 B units (R322). -/
  used      : Sparse Nat := []
  /-- Receiver: the link sequence number awaited, whether a replay from it has been asked for, and the units freed by virtual
  channel and not yet returned to the peer (R321). -/
  rxNext    : Nat := 1
  rxAsked   : Bool := false
  rxFree    : Sparse Nat := []
deriving DecidableEq, Repr

/-! ### Thermal (chapter 15) -/

/-- A sensor channel (R400, R401). -/
structure Sensor where
  temp   : Int := 0
  valid  : Bool := false
  failed : Bool := false
  bad    : Nat := 0
deriving DecidableEq, Repr

/-- Thermal state of a hall (Table 15.5, R409 to R413). -/
structure HallTherm where
  ch        : Sparse Sensor := []
  suspect   : Sparse Nat := []
  suspectMap : Nat := 0
  d         : Nat := 0
  /-- An ordinary step of D that waits for a slot: 1 up, 2 down (R411, R412). -/
  step      : Nat := 0
  /-- Thermal level: 0 ÷1, 1 ÷2, 2 ÷4; rounds since it changed; rounds with at most 16 throttled. -/
  level     : Nat := 0
  levelAge  : Nat := 0
  coolRounds : Nat := 0
  throttled : Nat := 0
  lowTemp   : Bool := false
  tripped   : Bool := false
  want      : Nat := 0
  steady    : Bool := false
  /-- Hottest DRAM readings of the last 100 rounds, newest first. -/
  hotHist   : List Int := []
  hotDram   : Int := 0
  hotLogic  : Int := 0
  floor     : Nat := 0
  chSel     : Nat := 0
  swSel     : Nat := 0
  /-- Rounds in which each rail channel has been outside its window (R436). -/
  railBad   : Sparse Nat := []
  railMv    : Sparse Nat := []
  /-- Refresh rate by layer × 16 + block: 0 1×, 1 2×, 2 4× (R123). -/
  rates     : Sparse Nat := []
deriving DecidableEq, Repr

/-! ### Halls -/

/-- Hall STATE (Table 1.8); `off` before its compute domain is first released. -/
inductive HallState where
  | off | enabled | fenced | computeReset
deriving DecidableEq, Repr

/-- A UCIe link of a hall (Table 10.5). -/
structure Ucie where
  width  : Nat := 0
  rate   : Nat := 0
  spares : Nat := 0
  crcErr : Word := 0
  retrain : Nat := 0
deriving DecidableEq, Repr

/-- A packet waiting at an arbiter, with its weight and AGE (R297), the ring virtual channel (R294) and the input at which
it waits. -/
structure NetPkt where
  pkt   : Packet
  age   : Nat := 0
  weight : Nat := 1
  vc    : Nat := 0
  inp   : Nat := 0
  /-- A fabric packet that crosses the ring, and whether it leaves by the port of its hall there (R322, R325). -/
  fab   : Option (FabPacket × Bool) := none
deriving DecidableEq, Repr

/-- A source identity that had a request waiting at an arbiter input, with its weight and when it last had (R298). -/
structure NetSeen where
  inp    : Nat
  hall   : HallId
  src    : NetUnit
  weight : Nat
  at_    : Nat
deriving DecidableEq, Repr

/-- A request that a unit of a hall has sent and that is not answered, with the input it was sent at; `old`: it was sent
before its destination's direction changed (R293); `back`: it was answered TARGET_RESETTING (R303). -/
structure NetSent where
  pkt  : Packet
  inp  : Nat
  old  : Bool := false
  back : Option Backoff := none
deriving DecidableEq, Repr

/-- An arbiter output: packets waiting, oldest first, each input's deficit counter, the input it visits, and the sources
lately active (R298). -/
structure Arbiter where
  queue : List NetPkt := []
  deficit : Sparse Nat := []
  visit : Nat := 0
  seen  : List NetSeen := []
deriving DecidableEq, Repr

/-- The hall's set-up registers that hold only what software wrote (Tables 9.13, 10.5, 14.9, 18.5). -/
structure HallRegs where
  qselSw     : Nat := 0
  qselQueue  : Nat := 0
  ageMax     : Nat := 64
  wSw        : Nat := 1
  wDma       : Nat := 16
  wVest      : Nat := 16
  wUsher     : Nat := 4
  wClasp     : Nat := 4
  resetAns   : Word := 0
  sqSel      : Nat := 0
  cqSel      : Nat := 0
  badWrite   : Bool := false
  lostCq     : Bool := false
  chSel      : Nat := 0
  minNormal  : Nat := 1
  keepWays   : Nat := 12
  maintLo    : Word := 0
  maintHi    : Word := 0
  maintLen   : Word := 0
  maintOp    : Nat := 0
  vestBusy   : Bool := false
  vestErr    : Bool := false
  vestHits   : Word := 0
  vestMisses : Word := 0
  laySel     : Nat := 0
  errCe      : Word := 0
  errUe      : Word := 0
  streamSel  : Nat := 0
  ucieSel    : Nat := 0
  scrubEn    : Bool := true
  lapLimit   : Nat := 1440
  scrubSlow  : Bool := false
  scrubLap   : Nat := 0
  scrubCur   : Nat := 0
  rstReload  : Bool := false
  rstErr     : Bool := false
  porterResets : Nat := 0
  swRstSw    : Nat := 0
deriving DecidableEq, Repr

/-- A hall. Its rings, channels, streams and vestibule lines are tables by number. -/
structure Hall where
  state     : HallState := .off
  cause     : Nat := 0
  /-- Network domain released, and lost since (R346). -/
  netUp     : Bool := false
  netLost   : Bool := false
  /-- Held by cooling state LOST or power-down (R418, R430). -/
  heldLost  : Bool := false
  /-- RELOAD of the compute reset in progress. -/
  reloading : Bool := false
  pllLocked : Bool := false
  coreDiv   : Nat := 0
  clkCause  : Nat := 0
  elapsed   : Dword := 0
  elapsedOn : Bool := false
  stepCode  : Nat := 0x21
  ushersEn  : BitVec 4 := 0xF
  /-- Ushers fenced by FENCE_UNIT (R365). -/
  ushersSw  : BitVec 4 := 0
  /-- SR seed that microcode has drawn for the ops of ushers and microcode (R74). -/
  srSeed    : Word := 0
  /-- Names of the bundles whose usher code the ushers' retention stores hold (R360). -/
  ucode     : Sparse Nat := []
  layerLost : BitVec 12 := 0
  slicesOff : List Nat := []
  splitCw   : Nat := 32
  route     : BitVec 12 := 0
  hostLink  : Ucie := {}
  cwLink    : Ucie := {}
  ccwLink   : Ucie := {}
  regs      : HallRegs := {}
  sq        : Sparse SubRing := []
  cq        : Sparse CompRing := []
  lastHigh  : Nat := 255
  lastLow   : Nat := 255
  chans     : Sparse Chan := []
  /-- Channels granted last at the normal and at the high priority (R271). -/
  dmaLast   : Nat := 31
  dmaLastHi : Nat := 31
  vest      : Sparse VLine := []
  /-- Model's own: uses of vestibule lines so far, which order them. -/
  vestUse   : Nat := 0
  epoch     : Nat := 0
  port      : Port := {}
  rx        : Sparse RxStream := []
  tx        : Sparse TxStream := []
  /-- Arbiters of the mesh, gate block, ring router and host module by output number. -/
  mesh      : Sparse Arbiter := []
  netSent   : List NetSent := []
  therm     : HallTherm := {}
  /-- Time of the porter's compute resets (R370), and per usher the end of the RELOAD reset that its last
  miss caused, none while that reset runs (R389). -/
  resets    : List Nat := []
  missReset : Sparse (Option Nat) := []
  /-- A rail failed while the rails came up (R429). -/
  railFail  : Bool := false
  /-- Layer error lines: (layer, stairwell, line, time) of corrections within the last second (R99). -/
  layerCe   : List (Nat × Nat × Nat × Nat) := []
  ceLines   : List (Nat × Nat) := []
  deriving DecidableEq, Repr

/-! ### Volumes (chapter 5) -/

/-- Volume states (Table 5.1). -/
inductive VolState where
  | free | live | running | parking | parked | shelving | shelved | resuming | faulted
deriving DecidableEq, Repr

/-- A volume descriptor (Table 5.1). -/
structure Vol where
  state     : VolState := .free
  home      : Nat := 0
  parkFmt   : Nat := 0
  fm        : Bool := false
  retiring  : Bool := false
  faultCause : Nat := 0
  pfv       : Nat := 0
  plan      : Nat := 0
  place     : BitVec 12 := 0
  tokens    : Word := 0
  window    : Word := 0
  fmLink    : VolId := 0
  linked    : Bool := false
  root      : Nat := 0
  sgen      : Word := 0
  ngen      : Word := 0
  lastElapsed : Dword := 0
  lastPuc   : Word := 0
  ckpt      : Word := 0
  dirty     : Nat := 0
  wbBusy    : Bool := false
  nearHalls : BitVec 12 := 0
  leaves    : Nat := 0
  nearLeaves : Nat := 0
  links     : Nat := 0
  liveLinks : Nat := 0
  reftab    : Nat := 0
  ewma      : Nat := 0
  resumes   : Nat := 0
  swTag     : Dword := 0
deriving DecidableEq, Repr

/-- An entry of a leaf reference table (R152). -/
structure RefCount where
  ref : Nat := 0
  pin : Nat := 0
  poison : Bool := false
deriving DecidableEq, Repr

/-- An append reserve: a free near slot and reserved park granules (R161). -/
structure Reserve where
  hall : HallId
  sw   : SwId
  slot : Nat
  park : Nat
  /-- The granules are the reserve's own, and not those of the leaf that the slot is for. -/
  granules : Bool := true
deriving DecidableEq, Repr

/-- What an entry removed from front matter still occupies while steps hold pins on its leaf (R159): those steps, the entry and
its shadow, and how many park and far granules they name. -/
structure KeptLeaf where
  steps  : List Nat
  entry  : Dword
  shadow : Dword
  park   : Nat
  far    : Nat
deriving DecidableEq, Repr

/-- A write-back in progress (R166): its cut, the steps it covers, the leaves copied as (spine index, fill), the
claim that waits for it, and whether it belongs to a PARK. -/
structure WriteBack where
  cut    : Word
  steps  : Nat
  copied : List (Nat × Nat)
  claim  : Option Nat
  park   : Bool
deriving DecidableEq, Repr

/-- A resume in progress (R168): leaves still to stage in staging order with the slot reserved for each, how many of
them belong to the eligibility set, leaves staged so far, and the claim. -/
structure Staging where
  todo   : List (Nat × Reserve)
  elig   : List Nat
  staged : Nat
  claim  : Option Nat
deriving DecidableEq, Repr

/-- What runs on a volume beside its descriptor. -/
structure VolJob where
  wb       : Option WriteBack := none
  staging  : Option Staging := none
  parkClaim : Option Nat := none
  parked   : Nat := 0
  /-- A SHELVE: its claim, the spine pairs still to commit, and the far leaf number reserved for each spine index. -/
  shelve   : Option (Nat × List Nat × Sparse Nat) := none
  reserves : Sparse Reserve := []
  /-- Retired ring heads kept until a cut: (spine index, old leaf entry, its shadow, cut that frees it). -/
  retired  : List (Nat × Dword × Dword × Word) := []
  stageK   : Nat := 0
  /-- Leaf entries and shadows removed from the spine of a RUNNING volume, freed after its step's record (R153). -/
  deferred : List (Dword × Dword) := []
  xfer     : Bool := false
  poisoned : Bool := false
deriving DecidableEq, Repr

/-- Who occupies a near slot (R95, R393). -/
inductive SlotUse where
  | free
  | leaf (v : VolId) (idx : Nat)
  | reserve (v : VolId)
  | newBlock (st : Nat)
deriving DecidableEq, Repr

/-! ### Plans (chapter 8) -/

/-- A placement entry, by physical stairwell (Table 8.11). -/
structure Placement where
  hall  : HallId
  sw    : SwId
  queue : Nat
  lane  : Nat
  first : Nat
  count : Nat
  lo    : Nat
  hi    : Nat
  colOps : Nat
deriving DecidableEq, Repr

/-- A data entry's column range on one stairwell (Table 8.12). -/
structure DataRange where
  hall : HallId
  sw   : SwId
  addr : Nat
  len  : Nat
deriving DecidableEq, Repr

/-- A lane's board (Table 6.1), by physical stairwell. -/
structure Board where
  hall : HallId
  sw   : SwId
  base : Nat
deriving DecidableEq, Repr

/-- A loaded plan (Table 8.9). -/
structure Plan where
  srSeed    : Word := 0
  layers    : Nat := 0
  span      : Nat := 0
  tpl       : Nat := 0
  kvfmt     : Nat := 0
  lead      : Nat := 0
  kvbytes   : Nat := 0
  rowelems  : Nat := 0
  kvheads   : Nat := 0
  g         : Nat := 0
  d         : Nat := 0
  rows      : Nat := 0
  lanes     : Nat := 0
  head      : Bool := false
  scale     : Word := 0
  koff      : Nat := 0
  voff      : Nat := 0
  stride    : Nat := 0
  attClasp  : Nat := 0
  claspBase : Nat := 0
  claspCount : Nat := 0
  regions   : BitVec 3 := 0
  slotRes   : Nat := 0
  placements : List Placement := []
  data      : List DataRange := []
  ctab      : List (Nat × Nat × Word) := []
  boards    : List Board := []
deriving DecidableEq, Repr

/-! ### Steps (chapter 6) -/

/-- Step opcodes. -/
inductive StepOp where
  | decode | verify | prefill
deriving DecidableEq, Repr

/-- Step phases (Table 6.4); `lane` is CLAIM while the lane lock is awaited, `claim` the rest of CLAIM. -/
inductive StepPhase where
  | lane | claim | run | decide | check | commit | tidy
deriving DecidableEq, Repr

/-- A partial row on its way to a merge hop or to the board (R196, R197). -/
structure PartMsg where
  layer : Nat
  toBoard : Bool
  hall  : HallId
  sw    : SwId
  fromHall : HallId
  row   : Nat
  part  : PartRow
deriving DecidableEq, Repr

/-- What one hop of a merge chain holds for one layer (R196, R197): merged rows, its own items still to come, the inputs each
row expects and those that have come, where it forwards, and the rows forwarded. -/
structure Hop where
  layer  : Nat
  hall   : HallId
  sw     : SwId
  rows   : Sparse PartRow
  localLeft : Nat
  ins    : Nat
  got    : Sparse Nat := []
  nextBoard : Bool
  nextHall : HallId
  nextSw : SwId
  fwd    : List Nat := []
deriving DecidableEq, Repr

/-- A new block that a step reserved (R186): layer, spine index, its slot and granules, and whether the layer's append
reserve was taken. -/
structure NewBlock where
  layer : Nat
  idx   : Nat
  res   : Reserve
deriving DecidableEq, Repr

/-- A step that has been claimed (R183 to R205). -/
structure Step where
  claim   : Nat
  op      : StepOp
  home    : HallId
  vol     : VolId
  lane    : Nat
  path    : Nat
  accept  : Bool
  nrows   : Nat
  accK    : Nat
  limit   : Nat
  deadline : Option Nat
  output  : Nat
  tokensIn : List Word
  /-- Whether each input record was read poisoned (R383). -/
  inBad   : List Bool
  parents : List Nat
  phase   : StepPhase
  run     : Nat
  epoch   : Nat
  sgen    : Word
  fsgen   : Word
  pinned  : List Nat
  pinsDone : Bool
  /-- Walk: leaf-work items still to be emitted, in order, each with the stairwell that takes it; the layer to walk
  next. -/
  todo    : List (HallId × SwId × WorkItem)
  /-- Halls whose gate answered an item TARGET_RESETTING. -/
  backs   : Sparse Backoff
  walkLayer : Nat
  blocks  : List NewBlock
  tokens0 : Word
  /-- Board: layers whose GATHER item the board holds, with their hall partials and HALLS; layers whose rows are sent; hall
  partials merged, and counted by row. -/
  gathers : List (Nat × Nat × Nat)
  sentTo  : Nat
  boardRows : Sparse PartRow
  boardGot : Sparse Nat
  boardNeed : Nat
  layersDone : Nat
  hops    : List Hop
  msgs    : List PartMsg
  movesLeft : Nat
  lost    : Bool
  poison  : Bool
  poisonIdx : Option Nat
  rewalk  : Bool
  press   : Bool
  /-- The queue that halted: hall, stairwell, queue, status, op index; a status that ends the step otherwise. -/
  halt    : Option (Nat × Nat × Nat × Nat × Nat)
  fail    : Option Nat
  standby : List (Nat × Nat)
  accepted : Nat
  lastNode : Nat
  kept    : List Nat
  nextTok : Word
deriving DecidableEq, Repr

/-! ### Clasps and bindings (chapter 7) -/

/-- Clasp types (Table 7.1). -/
inductive ClaspType where
  | none | counter | flag | lock
deriving DecidableEq, Repr

/-- What a waiter waits for (R207): a counter's target, a flag's bit, or the lock. -/
inductive WaitCond where
  | reach (v : Word) | flagIs (b : Bool) | take (owner : Nat)
deriving DecidableEq, Repr

/-- A registered waiter (R212), in order of registration, with the cell's value and type from before its operation. -/
structure Waiter where
  who  : Requester
  cond : WaitCond
  old  : Word
  oldType : ClaspType
deriving DecidableEq, Repr

/-- A clasp cell (R206, R219, R385). -/
structure Clasp where
  typ     : ClaspType := .none
  val     : Word := 0
  lost    : Bool := false
  waiters : List Waiter := []
deriving DecidableEq, Repr

/-- A clasp operation that is presented again at `due`: after a full limit (R214) or a binding's lock (R228) with
`interval` 0, or after TARGET_RESETTING with the back-off `interval` in µs (R218, R303). `first`: not yet performed. -/
structure Retry where
  who   : Requester
  cop   : Nat
  clasp : ClaspId
  opnd  : Word
  due   : Nat
  interval : Nat
  first : Bool
deriving DecidableEq, Repr

/-- Address-lock units of a binding (R226). -/
inductive LockKey where
  | entry (v : VolId) (idx : Nat)
  | desc (v : VolId)
  | ref (v : VolId) (idx : Nat)
  | clasp (k : ClaspId)
  | line (a : Nat)
deriving DecidableEq, Repr

/-- Phases of a binding (Table 7.7). -/
inductive BindPhase where
  | fetch | prepare | prepared | apply | applied | aborting
deriving DecidableEq, Repr

/-- A binding in flight. `claim` is the BIND descriptor's claim and `post` the hall that claimed it. -/
structure Binding where
  claim   : Nat
  post    : HallId
  atHall  : HallId
  nact    : Nat
  list    : Nat
  acts    : List Rec32
  datas   : List Rec64
  halls   : List HallId
  coord   : HallId
  phase   : BindPhase
  prepared : List HallId
  prepAt  : Sparse Nat
  applied : List HallId
  lostActs : List HallId
  locks   : List (HallId × LockKey)
  /-- Hall of each action, as the check gave it (R225). -/
  actAt   : List HallId
  /-- References that the binding drops, known once it is prepared: action, front matter, index and hall (R224). -/
  drops   : List (Nat × Nat × Nat × HallId)
  /-- Halls in compute reset whose actions are applied but for those on clasps (R218, R229). -/
  partly  : List HallId
  /-- Whether each of the two copies of its log reads poisoned (R385). -/
  logA    : Bool
  logB    : Bool
  status  : Nat
  failAct : Option Nat
  failHall : HallId
deriving DecidableEq, Repr

/-! ### Porter -/

/-- An entry of the soft or factory bad-unit map (Table 13.6). -/
structure BadUnit where
  kind  : Nat
  hall  : Nat
  unit  : Nat
  cause : Nat
  puc   : Word
deriving DecidableEq, Repr

/-- A firmware bundle in a flash slot (R452): its level, its SVNs, whether signature and digests verify, and names of its
porter firmware and of its other images. -/
structure Bundle where
  verifies  : Bool := false
  level     : Word := 0
  svnPorter : Nat := 0
  svnHall   : Nat := 0
  svnPhy    : Nat := 0
  ident     : Nat := 0
  identHall : Nat := 0
deriving DecidableEq, Repr

/-- What module flash keeps (R350, R366, R375, R333, R452). The soft map and the user calibration area each have two
copies, the newer first; a write goes to the older copy, which is then the newer. -/
structure Flash where
  /-- Power-up records A and B; none where a record has never been written whole. -/
  pucA     : Option Word := some 0
  pucB     : Option Word := none
  softmap  : List BadUnit := []
  softOld  : List BadUnit := []
  softSeq  : Nat := 0
  userCal  : Sparse Dword := []
  userOld  : Sparse Dword := []
  userSeq  : Nat := 0
  wcl      : Nat := 1
  slotA    : Bundle := {}
  slotB    : Bundle := {}
deriving DecidableEq, Repr

/-- Fuses and identity (R374, R439, R453). -/
structure Fuses where
  badMap    : List BadUnit := []
  stepCode  : Nat := 0x21
  serial    : Dword := 0
  mfr       : Nat := 0
  svnPorter : Nat := 0
  svnHall   : Nat := 0
  svnPhy    : Nat := 0
deriving DecidableEq, Repr

/-- Boot stages (Table 13.13). -/
inductive Stage where
  | rom | porter | coldWait | links | parkTrain | microcode | selfTest | reconcile | init | running | warm | halted
deriving DecidableEq, Repr

/-- Calibration commands (R376, R377), host or I3C. -/
inductive CalOp where
  | read | write | clear | restore
deriving DecidableEq, Repr

/-- A calibration command in the one queue of R376. -/
structure CalCmd where
  op    : CalOp
  i3c   : Bool
  id    : Nat
  index : Nat
  value : Dword
deriving DecidableEq, Repr

/-- Calibration unit (Table 13.13). -/
structure Calib where
  id      : Nat := 0
  index   : Nat := 0
  val     : Dword := 0
  busy    : Bool := false
  err     : Bool := false
  user    : Bool := false
  userLost : Bool := false
  status  : Nat := 0
  count   : Nat := 0
  repLo   : Word := 0
  repHi   : Word := 0
  queue   : List CalCmd := []
  /-- Values applied at the last cold bring-up, of the entries that take effect there (R376). -/
  cold    : Sparse Dword := []
  report  : List (Nat × Bool × Nat × Dword) := []
deriving DecidableEq, Repr

/-- What R382 keeps of an unconsumed record of the error log, to merge a later error into it. -/
structure ErrSeen where
  source : Nat
  hall   : Nat
  unit   : Nat
  addr   : Nat
  at_    : Nat
  count  : Nat
  index  : Nat
deriving DecidableEq, Repr

/-- The error log's set-up and counts (Table 14.9), and what R382 needs to merge, newest first. -/
structure ErrLog where
  base  : Nat := 0
  log2  : Nat := 7
  en    : Bool := false
  tail  : Word := 0
  head  : Word := 0
  lost  : Nat := 0
  vec   : Nat := 0
  armed : Bool := true
  recent : List ErrSeen := []
deriving DecidableEq, Repr

/-- An entry of the event log (R445). -/
structure Event where
  code : Nat
  hall : Nat
  unit : Nat
  arg  : Nat
  puc  : Word
  at_  : Dword
deriving DecidableEq, Repr

/-- The management target (chapter 17): `busyCmd` is a command still running and whether its response is still wanted;
`ready` holds responses (marked) and MCTP packets in the order in which they became ready; `ibi` the IBIs to request, as
alert bit and requests made. -/
structure I3c where
  da      : BitVec 7 := 0
  enint   : Bool := true
  mwl     : Nat := 64
  mrl     : Nat := 256
  slot    : Nat := 0
  busyCmd : Option (Byte × Bool) := none
  ready   : List (Bool × List Byte) := []
  ibi     : List (Nat × Nat) := []
  lastIbi : Option Nat := none
deriving DecidableEq, Repr

/-- SPDM state of a transport (R449, R451). -/
structure Spdm where
  version : Nat := 0
  caps    : Bool := false
  algo    : Bool := false
  asym    : Bool := false
  /-- Requests and responses of the connection, of the certificates, and of the measurements since the last signature. -/
  msgA    : List Byte := []
  msgB    : List Byte := []
  msgL    : List Byte := []
  /-- An MCTP message being put together: its source, tag, next packet number and bytes. -/
  mctp    : Option (Nat × Nat × Nat × List Byte) := none
deriving DecidableEq, Repr

/-- Firmware update unit (Table 17.12): the running operation, 1 STAGE or 2 COMMIT, its result, and COMMIT's classes. -/
structure FwUpd where
  lo      : Word := 0
  hi      : Word := 0
  len     : Word := 0
  busy    : Bool := false
  running : Nat := 0
  result  : Nat := 0
  classes : Nat := 0
  target  : Nat := 0
  bundle  : Bundle := {}
  i3c     : Bool := false
  status  : Nat := 0
  done    : Bool := false
deriving DecidableEq, Repr

/-- Resource descriptor publication (R29, R31, R391): SEQ, the last published 6,400 bytes, whether a publication is
due, and the WATCH and FENCE claims that wait for it. -/
structure ResDesc where
  seq    : Word := 0
  image  : List Byte := []
  due    : Bool := false
  base   : Nat := 0
  vector : Nat := 0
  published : Dword := 0
deriving DecidableEq, Repr

/-- A fabric command running (R337): its kind, when it started, and its TOKEN or volumes. -/
structure FabCmd where
  kind  : Nat
  start : Nat
  token : Word := 0
  local_ : VolId := 0
  peerVol : VolId := 0
  node  : NodeId := 0
  left  : Nat := 0
  moved : Nat := 0
  /-- VOL_ACCEPT: a preamble has been accepted: its TOKENS, CKPT_TOKENS, PFV and LEAVES. -/
  pre   : Option (Word × Word × Nat × Nat) := none
  /-- VOL_ACCEPT: runs of park granules reserved for the leaves still to come. -/
  grans : List Nat := []
deriving DecidableEq, Repr

/-- Fabric management of the module (R328 to R338). -/
structure FabMgr where
  moduleId : Nat := 0xFFFF
  epoch    : Word := 0
  prio     : Nat := 0
  elected  : Bool := false
  changed  : Bool := false
  mgrPid   : Option Pid := none
  mgrNode  : NodeId := 0
  /-- Highest epoch heard in any message (R328). -/
  heard    : Word := 0
  /-- Claims received: PRIO, PID and time. -/
  claims   : List (Nat × Pid × Nat) := []
  /-- Since when the module's own PRIO stands. -/
  ownSince : Nat := 0
  lastHb   : Option Nat := none
  hbCount  : Word := 0
  /-- Newest HEARTBEAT of each manager: PID, epoch and count. -/
  hbSeen   : List (Pid × Word × Word) := []
  lastClaim : Option Nat := none
  lastHbSend : Option Nat := none
  vec      : Nat := 0
  cmdLo    : Word := 0
  cmdHi    : Word := 0
  full     : Bool := false
  cmds     : Sparse FabCmd := []
  reports  : Word := 0
  token    : Word := 0
  routes   : Sparse Word := []
deriving DecidableEq, Repr

/-- Cooling states (Table 15.3). -/
inductive CoolState where
  | normal | degraded | hold | lost | dramLost
deriving DecidableEq, Repr

/-- Coolant and module-wide thermal state (Table 15.5, R416 to R418). -/
structure Cool where
  state     : CoolState := .normal
  base      : Nat := 0
  baseVal   : Nat := 0
  baseSum   : Nat := 0
  baseN     : Nat := 0
  inletRange : Bool := false
  flowLow   : Bool := false
  inferLost : Bool := false
  ratio     : Nat := 0
  inlet     : Int := 0
  outlet    : Int := 0
  inletOk   : Bool := false
  outletOk  : Bool := false
  coolSens  : Sparse Sensor := []
  flow      : Nat := 0xFFFF
  rth       : Nat := 0
  degTime   : Nat := 0
  rthHigh   : Nat := 0
  flowRun   : Nat := 0
  inletRun  : Nat := 0
  clearRun  : Nat := 0
  isDegraded : Bool := false
  /-- Power and layer-11 readings summed over the rounds of the current window. -/
  powSum    : Nat := 0
  topSum    : Int := 0
  topN      : Nat := 0
  inSum     : Int := 0
  inN       : Nat := 0
  outSum    : Int := 0
  outN      : Nat := 0
  roundsN   : Nat := 0
  /-- Hottest readings of the last rounds, newest first; consecutive rounds of the rise; rounds since HOLD's C = 4 in
  every hall; rounds without the rise. -/
  hist      : List Int := []
  rise      : Nat := 0
  holdAge   : Nat := 0
  calm      : Nat := 0
  pelaTrip  : Bool := false
  coreStep  : Nat := 0
deriving DecidableEq, Repr

/-- Power input (chapter 16): phase of Tables 16.3a and R430, the last sample and the round's sums. -/
inductive PowerPhase where
  | unpowered | sequencing | on | powerDown | bleeding
deriving DecidableEq, Repr

/-- Power state (Table 16.6, R412, R427). -/
structure Power where
  phase    : PowerPhase := .unpowered
  /-- When the phase was entered, and the loads of Table 16.3 removed so far in a power-down. -/
  since    : Nat := 0
  loadsOff : Nat := 0
  en       : Bool := false
  mv       : Nat := 0
  ma       : Nat := 0
  vSum     : Nat := 0
  iSum     : Nat := 0
  pSum     : Nat := 0
  nSum     : Nat := 0
  uvRound  : Bool := false
  ovRound  : Bool := false
  vin      : Nat := 0
  iin      : Nat := 0
  pin      : Nat := 0
  peak     : Nat := 0
  uvWarn   : Bool := false
  ovWarn   : Bool := false
  uvSeen   : Bool := false
  ovSeen   : Bool := false
  railFault : Bool := false
  railHall : Nat := 0
  slots    : Nat := 0
  slotsNow : Nat := 0
  unsched  : Nat := 0
  /-- Changes of unscheduled current of the last rounds, newest first. -/
  unschedLog : List Nat := []
  lastStep : Option Nat := none
  lastHall : Nat := 11
  pwrgd    : Bool := false
deriving DecidableEq, Repr

/-- Ports A and B and the cores of the host die (Table 1.5, Table 1.7, Table 8.16, Table 9.13). -/
structure HostDie where
  portaPerst : Bool := false
  portaWidth : Nat := 0
  portaGen   : Nat := 0
  winLo      : Word := 0
  winHi      : Word := 0
  mbxVec     : Nat := 0
  mbxSel     : Nat := 0
  mbx        : Sparse Dword := []
  portbWidth : Nat := 0
  portbGen   : Nat := 0
  portbCxl   : Bool := false
  pbRefclk   : Option Nat := none
  pbPerst    : Bool := false
  coresOn    : BitVec 24 := 0xFFFFFF
  coresRun   : Bool := false
  parkFailed : BitVec 24 := 0
  /-- Packages that failed in service: reads of them are poisoned, writes discarded (R380). -/
  parkDead   : BitVec 24 := 0
  /-- Packages in self-refresh (R347). -/
  parkSelfRef : BitVec 24 := 0
  hostRes    : Nat := 34359738368
  fardecSel  : Nat := 0
  fardecBase : Sparse Word := []
  fardecSize : Sparse Word := []
  spineGib   : Nat := 64
  tierLock   : Bool := false
  tierRefused : Bool := false
  farBase    : Nat := 0
  farSize    : Nat := 0
  resumeCount : Nat := 0
  /-- Units moved in the last 1 ms, by the time of the move (Table 5.11, R279). -/
  parkMoved  : Sparse Nat := []
  portbMoved : Sparse Nat := []
  pscrubEn   : Bool := true
  pscrubLap  : Nat := 0
  pscrubAt   : Sparse Nat := []
  pscrubLast : Sparse Nat := []
  pscrubBegin : Nat := 0
  parkCe     : Word := 0
  parkUe     : Word := 0
  refLost    : Bool := false
  pucLost    : Bool := false
deriving DecidableEq, Repr

/-- The porter (chapters 1, 13, 14, 17). -/
structure Porter where
  stage    : Stage := .rom
  fail     : Nat := 0
  slotB    : Bool := false
  rstErr   : Bool := false
  softLost : Bool := false
  softSel  : Nat := 0
  softFac  : Bool := false
  replace  : BitVec 16 := 0
  elapsed  : Dword := 0
  elapsedOn : Bool := false
  powerup  : Word := 0
  flash    : Flash := {}
  fuses    : Fuses := {}
  /-- Units fenced for the rest of the power-up though a full or failing soft map does not hold them (R366). -/
  held     : List BadUnit := []
  res      : ResDesc := {}
  cal      : Calib := {}
  errlog   : ErrLog := {}
  events   : List Event := []
  evNext   : Word := 0
  alert    : BitVec 6 := 0
  i3c      : I3c := {}
  spdmI3c  : Spdm := {}
  spdmPa   : Spdm := {}
  fw       : FwUpd := {}
  running  : Bundle := {}
  /-- Name of the bundle whose images the image store holds (R360). -/
  store    : Option Nat := none
  fab      : FabMgr := {}
  cool     : Cool := {}
  power    : Power := {}
  host     : HostDie := {}
  /-- UCIe resends and park units corrected, with times, for Table 14.8. -/
  ucieResend : List (Nat × Nat × Nat) := []
  parkCeLog  : List (Nat × Nat × Nat) := []
  sliceUe    : List (Nat × Nat × Nat) := []
  /-- A bring-up that waits in COLD_WAIT (R359). -/
  boot     : Option BringupReport := none
  /-- A warm reset that waits for a flash write, with its source (Table 13.9). -/
  warmWait : Option Nat := none
deriving DecidableEq, Repr

/-- What the module has sent outward. -/
inductive Output where
  /-- A message-signalled interrupt to the Pelaitik interrupt controller (R31, R250, R260, R337, R381). -/
  | msi (vector : Nat)
  /-- MSI-X vector to the tray (R260). -/
  | msix (vec : Nat)
  /-- An access fault to a Pelaitik core; `hw` marks a hardware error (Table 14.3). -/
  | accessFault (hw : Bool)
  /-- Data answered to an access of a core or of the path. -/
  | readData (bytes : List Byte)
  /-- An I3C answer: response-frame bytes, or the value of a GET CCC. -/
  | i3c (bytes : List Byte)
  /-- An I3C CCC that is not acknowledged. -/
  | i3cNack
  /-- A private read that returns MCTP bytes. -/
  | mctp (t : Transport) (bytes : List Byte)
  /-- An in-band interrupt with its mandatory data byte (R447). -/
  | ibi (mdb : Nat)
  /-- A packet leaving a fabric port. -/
  | fab (h : HallId) (p : FabPacket)
  /-- A link control word sent: the last link sequence number received in order, and the units returned by virtual channel; a
  replay asked for, from a link sequence number (R321). -/
  | linkWord (h : HallId) (acked : Nat) (credits : List (Nat × Nat))
  | linkAsk (h : HallId) (seq : Nat)
  /-- A fabric packet handed over the ring to a hall of this module, or to its porter for 15. -/
  | fabLocal (hall : Nat) (p : FabPacket)
  /-- A unit written on port B with the poison bit of MemWr (R277). -/
  | portbPoison (addr : Nat)
  /-- A network packet delivered to its unit. -/
  | delivered (h : HallId) (p : Packet)
deriving DecidableEq, Repr

/-- The module. -/
structure State where
  /-- Model's own: reference edges seen so far, which time the time-driven commands (log entry 4). -/
  now      : Nat := 0
  /-- Model's own: how many free values have been drawn (log entry 5). -/
  fresh    : Nat := 0
  porter   : Porter := {}
  halls    : Sparse Hall := []
  /-- Stairwells by hall × 256 + stairwell. -/
  stairs   : Sparse Stairwell := []
  /-- Landings by (hall × 256 + stairwell) × 12 + layer. -/
  landings : Sparse Landing := []
  /-- Every addressed memory (log entry 7). -/
  mem      : List Host.Cell := []
  /-- Units marked poisoned, by the key of their first byte (R383). -/
  poison   : Sparse Bool := []
  claims   : Sparse Claim := []
  nextClaim : Nat := 0
  vols     : Sparse Vol := []
  jobs     : Sparse VolJob := []
  /-- Leaf and shadow entries by volume × 2^18 + spine index (Tables 5.5, 5.6). -/
  leaves   : Sparse Dword := []
  shadows  : Sparse Dword := []
  /-- Spine pairs present, by volume × 512 + root index: their park page (Table 5.4). -/
  pairs    : Sparse Nat := []
  refs     : Sparse RefCount := []
  /-- Near slots in use by (hall × 256 + stairwell) × 2400 + slot. -/
  slots    : Sparse SlotUse := []
  /-- Park leaf granules, far leaf granules and spine-pool pages in use. -/
  parkUsed : Sparse Bool := []
  farUsed  : Sparse Bool := []
  spineUsed : Sparse Bool := []
  plans    : Sparse Plan := []
  steps    : Sparse Step := []
  nextStep : Nat := 0
  /-- Pins that an ended step still holds, by its number: front matter and leaves (R155). -/
  unpins   : Sparse (Nat × List Nat) := []
  /-- Slots and granules of front matter that pins keep (R159). -/
  kept     : List KeptLeaf := []
  clasps   : Sparse Clasp := []
  retries  : List Retry := []
  binds    : Sparse Binding := []
  nextBind : Nat := 0
  out      : List Output := []
  /-- Commands that wait, first in, first out. -/
  pending  : List Instr := []
deriving DecidableEq, Repr

/-- The module as it stands without power, before its first start: every field at its default. -/
def State.reset : State := {}

/-- What a command answers. -/
abbrev Result := Host.Outcome State Fault Refusal

end Sys2Proof.Machine
end

