-- ==== Sys2Proof/Machine/Sparse.lean ====
section
/-! DEFINITION. Reading and writing the state's tables, fields of records, and byte strings. -/

namespace Sys2Proof.Machine

/-! ### Tables by number -/

/-- The entry listed under `k`, if there is one. -/
def sfind {β : Type} : Sparse β → Nat → Option β
  | [], _ => none
  | (j, w) :: t, k => if j = k then some w else sfind t k

/-- The entry of `k`; an unlisted number holds `d`. -/
def sget {β : Type} (t : Sparse β) (d : β) (k : Nat) : β := (sfind t k).getD d

/-- The table with `v` under `k`. -/
def sset {β : Type} : Sparse β → Nat → β → Sparse β
  | [], k, v => [(k, v)]
  | (j, w) :: t, k, v =>
    if k < j then (k, v) :: (j, w) :: t else if j = k then (k, v) :: t else (j, w) :: sset t k v

/-- The table without `k`. -/
def sdel {β : Type} (t : Sparse β) (k : Nat) : Sparse β := t.filter (fun p => !(p.1 == k))

/-- The table with the entry of `k` changed by `f`. -/
def smod {β : Type} (t : Sparse β) (d : β) (k : Nat) (f : β → β) : Sparse β := sset t k (f (sget t d k))

/-- The numbers listed whose entry satisfies `p`, rising. -/
def skeys {β : Type} (t : Sparse β) (p : Nat → β → Bool) : List Nat := (t.filter (fun q => p q.1 q.2)).map (·.1)

/-! ### Fields of records -/

/-- Bits [lo + width − 1 : lo] of the little-endian word at byte `off` of a record. -/
def fld {n : Nat} (d : BitVec n) (off lo width : Nat) : Nat := (d.toNat >>> (8 * off + lo)) % 2 ^ width

/-- A record that holds `v` in `width` bits from bit `lo` of the word at byte `off`, and zeros elsewhere. -/
def put (n off lo width v : Nat) : BitVec n := BitVec.ofNat n ((v % 2 ^ width) <<< (8 * off + lo))

/-- Bit `i` of a register value. -/
def bitAt {n : Nat} (w : BitVec n) (i : Nat) : Bool := w.getLsbD i

/-- Bits [hi:lo] of a register value. -/
def bits {n : Nat} (w : BitVec n) (hi lo : Nat) : Nat := (w.toNat >>> lo) % 2 ^ (hi + 1 - lo)

/-! ### Byte strings, little-endian (R11) -/

/-- The number that bytes spell, the first least significant. -/
def leNat : List Byte → Nat
  | [] => 0
  | b :: t => b.toNat + 256 * leNat t

/-- The `n` low bytes of a number, least significant first. -/
def leBytes : Nat → Nat → List Byte
  | 0, _ => []
  | n + 1, v => BitVec.ofNat 8 v :: leBytes n (v / 256)

/-- The number that bytes spell, the first most significant (I3C and management messages' byte order where they name it). -/
def beNat (l : List Byte) : Nat := leNat l.reverse

/-- `n` consecutive items from `from_`, read as `d` past the end. -/
def slice {α : Type} (l : List α) (from_ n : Nat) (d : α) : List α :=
  (List.range n).map (fun i => l.getD (from_ + i) d)

/-- A list of `n` entries made by `f`. -/
def tab {α : Type} (n : Nat) (f : Nat → α) : List α := (List.range n).map f

/-- Sum of `f` over 0 to n − 1. -/
def sumN (n : Nat) (f : Nat → Nat) : Nat := (List.range n).foldl (fun a i => a + f i) 0

/-- Whether one of 0 to n − 1 satisfies `p`. -/
def anyN (n : Nat) (p : Nat → Bool) : Bool := (List.range n).any p

/-- Whether all of 0 to n − 1 satisfy `p`. -/
def allN (n : Nat) (p : Nat → Bool) : Bool := (List.range n).all p

/-- How many of 0 to n − 1 satisfy `p`. -/
def countN (n : Nat) (p : Nat → Bool) : Nat := ((List.range n).filter p).length

/-- Least of 0 to n − 1 that satisfies `p`. -/
def findN (n : Nat) (p : Nat → Bool) : Option Nat := (List.range n).find? p

/-- How many of the low `n` bits of a mask are 1. -/
def popcount {w : Nat} (m : BitVec w) : Nat := countN w (fun i => m.getLsbD i)

/-- `x` put into a list in rising order of `key`, after its equals. -/
def insertBy {α : Type} (key : α → Nat) (x : α) : List α → List α
  | [] => [x]
  | y :: l => if key x < key y then x :: y :: l else y :: insertBy key x l

/-- A list in rising order of `key`; equals keep their order. -/
def sortBy {α : Type} (key : α → Nat) (l : List α) : List α := l.foldl (fun a x => insertBy key x a) []

/-- ⌈a / b⌉. -/
def ceilDiv (a b : Nat) : Nat := (a + b - 1) / b

/-- The first of a round robin over 0 to n − 1 after `last` that satisfies `p`. -/
def rrNext (n last : Nat) (p : Nat → Bool) : Option Nat :=
  ((List.range n).map (fun i => (last + 1 + i) % n)).find? p

end Sys2Proof.Machine
end

