-- ==== Sys2Proof/Machine/Ops.lean ====
section
/-! DEFINITION. The shared operations: reading and changing each table of the state, memory and its poison marks, what
the module sends outward, which units are in service, and the completion of a claimed descriptor. -/

namespace Sys2Proof.Machine

/-! ### Status codes (Table 8.6, Table 9.8, Table 14.7) -/

abbrev Status.ok : Nat := 0x00
abbrev Status.badEncoding : Nat := 0x01
abbrev Status.badShape : Nat := 0x02
abbrev Status.badRange : Nat := 0x03
abbrev Status.badReserved : Nat := 0x04
abbrev Status.notLanding : Nat := 0x05
abbrev Status.layerLost : Nat := 0x06
abbrev Status.landingFault : Nat := 0x07
abbrev Status.accState : Nat := 0x08
abbrev Status.unitFenced : Nat := 0x09
abbrev Status.hallReset : Nat := 0x0A
abbrev Status.aborted : Nat := 0x0B
abbrev Status.badState : Nat := 0x10
abbrev Status.wrongHome : Nat := 0x11
abbrev Status.hallBusy : Nat := 0x12
abbrev Status.volBusy : Nat := 0x13
abbrev Status.noPlan : Nat := 0x14
abbrev Status.noSlots : Nat := 0x15
abbrev Status.noParkSpace : Nat := 0x16
abbrev Status.noFarSpace : Nat := 0x17
abbrev Status.fmInvalid : Nat := 0x18
abbrev Status.fmFull : Nat := 0x19
abbrev Status.fmInUse : Nat := 0x1A
abbrev Status.pfvUnknown : Nat := 0x1B
abbrev Status.homeInService : Nat := 0x1C
abbrev Status.fieldProtected : Nat := 0x1D
abbrev Status.hallLost : Nat := 0x1E
abbrev Status.retry : Nat := 0x20
abbrev Status.noVerifyHead : Nat := 0x21
abbrev Status.queueHalted : Nat := 0x22
abbrev Status.poisoned : Nat := 0x23
abbrev Status.timeout : Nat := 0x24
abbrev Status.claspType : Nat := 0x30
abbrev Status.claspBusy : Nat := 0x31
abbrev Status.claspFull : Nat := 0x32
abbrev Status.claspLost : Nat := 0x33
abbrev Status.lockBusy : Nat := 0x34
abbrev Status.lockOrphaned : Nat := 0x35
abbrev Status.notOwner : Nat := 0x36
abbrev Status.conflict : Nat := 0x37
abbrev Status.checkFailed : Nat := 0x38
abbrev Status.bindWide : Nat := 0x39
abbrev Status.bindAborted : Nat := 0x3A
abbrev Status.planNoSram : Nat := 0x40
abbrev Status.planNoStrands : Nat := 0x41
abbrev Status.planNoClasps : Nat := 0x42
abbrev Status.planNoSlots : Nat := 0x43
abbrev Status.planNoLanded : Nat := 0x44
abbrev Status.planAccLength : Nat := 0x45
abbrev Status.planTableFull : Nat := 0x46
abbrev Status.planInUse : Nat := 0x47
abbrev Status.fenceLast : Nat := 0x60
abbrev Status.watchFull : Nat := 0x61
abbrev Status.volPoisoned : Nat := 0x62

/-- The status of several failed rules of one record: the first of R484's order that applies, among BAD_RESERVED,
BAD_ENCODING, BAD_SHAPE and BAD_RANGE. -/
def firstStatus (reserved encoding shape range : Bool) : Option Nat :=
  if reserved then some Status.badReserved
  else if encoding then some Status.badEncoding
  else if shape then some Status.badShape
  else if range then some Status.badRange
  else none

/-- Place of a status in R484's order. -/
def statusRank (st : Nat) : Nat :=
  if st = Status.badReserved then 0 else if st = Status.badEncoding then 1 else if st = Status.badShape then 2
  else if st = Status.badRange then 3 else 4

/-- Of two statuses of one record, the one that R484 reports. -/
def firstOf (a b : Option Nat) : Option Nat :=
  match a, b with
  | some x, some y => if statusRank y < statusRank x then some y else some x
  | some x, none => some x
  | none, b => b

/-! ### The state's tables -/

/-- A stairwell's number over the module. -/
def swKey (h sw : Nat) : Nat := h * 256 + sw

/-- A landing's number over the module. -/
def landKey (h sw l : Nat) : Nat := (h * 256 + sw) * 12 + l

def State.hall (s : State) (h : Nat) : Hall := sget s.halls {} h
def State.setHall (s : State) (h : Nat) (x : Hall) : State := { s with halls := sset s.halls h x }
def State.modHall (s : State) (h : Nat) (f : Hall → Hall) : State := s.setHall h (f (s.hall h))

def State.stair (s : State) (h sw : Nat) : Stairwell := sget s.stairs {} (swKey h sw)
def State.setStair (s : State) (h sw : Nat) (x : Stairwell) : State :=
  { s with stairs := sset s.stairs (swKey h sw) x }
def State.modStair (s : State) (h sw : Nat) (f : Stairwell → Stairwell) : State := s.setStair h sw (f (s.stair h sw))

def State.landing (s : State) (h sw l : Nat) : Landing := sget s.landings {} (landKey h sw l)
def State.setLanding (s : State) (h sw l : Nat) (x : Landing) : State :=
  { s with landings := sset s.landings (landKey h sw l) x }
def State.modLanding (s : State) (h sw l : Nat) (f : Landing → Landing) : State :=
  s.setLanding h sw l (f (s.landing h sw l))

def State.vol (s : State) (v : Nat) : Vol := sget s.vols {} v
def State.setVol (s : State) (v : Nat) (x : Vol) : State := { s with vols := sset s.vols v x }
def State.modVol (s : State) (v : Nat) (f : Vol → Vol) : State := s.setVol v (f (s.vol v))

def State.job (s : State) (v : Nat) : VolJob := sget s.jobs {} v
def State.setJob (s : State) (v : Nat) (x : VolJob) : State := { s with jobs := sset s.jobs v x }
def State.modJob (s : State) (v : Nat) (f : VolJob → VolJob) : State := s.setJob v (f (s.job v))

def State.clasp (s : State) (k : Nat) : Clasp := sget s.clasps {} k
def State.setClasp (s : State) (k : Nat) (x : Clasp) : State := { s with clasps := sset s.clasps k x }

def State.claim? (s : State) (c : Nat) : Option Claim := sfind s.claims c
def State.setClaim (s : State) (c : Nat) (x : Claim) : State := { s with claims := sset s.claims c x }
def State.setStage (s : State) (c : Nat) (g : ClaimStage) : State :=
  match s.claim? c with
  | some x => s.setClaim c { x with stage := g }
  | none => s

def State.modPorter (s : State) (f : Porter → Porter) : State := { s with porter := f s.porter }
def State.modHost (s : State) (f : HostDie → HostDie) : State :=
  s.modPorter fun p => { p with host := f p.host }
def State.modRegs (s : State) (h : Nat) (f : HallRegs → HallRegs) : State :=
  s.modHall h fun x => { x with regs := f x.regs }

/-- Sends something outward. -/
def State.emit (s : State) (o : Output) : State := { s with out := s.out ++ [o] }

/-! ### Memory -/

/-- The memories the module addresses: the park tier by park address, the far tier by far-space address, each
stairwell's column and each stairwell's SRAM. -/
inductive Region where
  | park | far
  | column (h sw : Nat)
  | sram (h sw : Nat)
deriving DecidableEq, Repr

def Region.number : Region → Nat
  | .park => 0
  | .far => 1
  | .column h sw => 2 + 2 * swKey h sw
  | .sram h sw => 3 + 2 * swKey h sw

/-- The cell of a byte: one number for each byte of each memory. -/
def memKey (r : Region) (a : Nat) : Nat := a * 8192 + r.number

/-- Bytes of the unit that one poison mark covers (R383). -/
def Region.unit : Region → Nat
  | .column _ _ => 256
  | _ => 64

/-- What a cell holds; a cell not listed reads zero (log entry 7). -/
def memGet (m : List Host.Cell) (k : Nat) : Byte := (sfind m k).getD 0

/-- The memory with one cell changed, in its canonical form. -/
def memSet (m : List Host.Cell) (k : Nat) (b : Byte) : List Host.Cell := if b = 0 then sdel m k else sset m k b

/-- The canonical form of the memory: numbers strictly rising, no zero byte listed. -/
def Memory.wf (m : List Host.Cell) : Bool :=
  decide (List.Pairwise (fun p q : Host.Cell => p.1 < q.1) m) && m.all (fun p => !(p.2 == 0))

/-- The byte at an address of a memory. -/
def State.byte (s : State) (r : Region) (a : Nat) : Byte := memGet s.mem (memKey r a)

/-- `n` bytes from an address. -/
def State.read (s : State) (r : Region) (a n : Nat) : List Byte := tab n fun i => s.byte r (a + i)

/-- The little-endian number of `n` bytes at an address. -/
def State.readNat (s : State) (r : Region) (a n : Nat) : Nat := leNat (s.read r a n)

/-- The cells of bytes written from an address on; a byte whose address `skip` names is discarded. -/
def memWriteAll (m : List Host.Cell) (r : Region) (skip : Nat → Bool) : Nat → List Byte → List Host.Cell
  | _, [] => m
  | a, b :: t => memWriteAll (if skip a then m else memSet m (memKey r a) b) r skip (a + 1) t

/-- Whether an address lies in a park package that has failed in service: it reads poisoned, and a write to it is
discarded (R280, R380). -/
def State.parkGone (s : State) (r : Region) (a : Nat) : Bool :=
  match r with
  | .park => s.porter.host.parkDead.getLsbD (a / 2048 % 24)
  | _ => false

/-- First bytes of the protected units that a range meets. -/
def unitsOf (r : Region) (a n : Nat) : List Nat :=
  if n = 0 then [] else
    let u := r.unit
    tab ((a + n - 1) / u + 1 - a / u) fun i => (a / u + i) * u

/-- Whether a column address lies in the landed layout (R92): its region is landed, or it is a staging block. -/
def landedAt (x : Stairwell) (a : Nat) : Bool :=
  (2400 ≤ a / 65536 && a / 65536 < 2424) || x.landed.getLsbD (a / 2 ^ 26)

/-- Whether the layers that a hall has lost leave a line of a column with no correction (R96 to R100): a striped line
with more than two of its ten stripes erased, a landed line on one of two or more lost layers. -/
def State.lineLost (s : State) (r : Region) (a : Nat) : Bool :=
  match r with
  | .column h sw =>
    let lost := (s.hall h).layerLost
    if lost = 0 then false
    else if landedAt (s.stair h sw) a then 2 ≤ popcount lost && lost.getLsbD (a / 65536 % 12)
    else 2 < countN 12 fun l => lost.getLsbD l && l / 2 != a / 256 % 6
  | _ => false

/-- Whether a read of a range meets a poisoned unit, or one that no code can correct (R98). -/
def State.poisonedAt (s : State) (r : Region) (a n : Nat) : Bool :=
  (unitsOf r a n).any fun x => sget s.poison false (memKey r x) || s.lineLost r x || s.parkGone r x

/-- The mark of one unit set or cleared. -/
def State.setPoison (s : State) (r : Region) (unit : Nat) (p : Bool) : State :=
  { s with poison := sset s.poison (memKey r unit) p }

/-- R40, R98 and R383: a poisoned write marks every unit it touches; a clean write clears the mark of each unit it
covers whole. -/
def markWrite (t : Sparse Bool) (r : Region) (a n : Nat) (p : Bool) : Sparse Bool :=
  (unitsOf r a n).foldl (fun t x =>
    if p then sset t (memKey r x) true
    else if a ≤ x && x + r.unit ≤ a + n then sset t (memKey r x) false else t) t

/-- Bytes written to a memory, with their poison. -/
def State.write (s : State) (r : Region) (a : Nat) (bytes : List Byte) (p : Bool) : State :=
  { s with mem := memWriteAll s.mem r (s.parkGone r) a bytes, poison := markWrite s.poison r a bytes.length p }

/-- Bytes written unit by unit of the destination, each unit with its own poison: `bad o m` says whether `m` of the bytes
from the `o`-th on are poisoned (R98, R383). -/
def State.writeUnits (s : State) (dst : Region) (da : Nat) (bytes : List Byte) (bad : Nat → Nat → Bool) : State :=
  let u := dst.unit
  let n := bytes.length
  (List.range (ceilDiv (da + n) u - da / u)).foldl (fun t i =>
    let lo := max da ((da / u + i) * u)
    let m := min (da + n) ((da / u + i + 1) * u) - lo
    t.write dst lo ((bytes.drop (lo - da)).take m) (bad (lo - da) m)) s

/-- A copy between two memories; what is poisoned arrives poisoned (R383). -/
def State.copyBeats (s : State) (src : Region) (sa : Nat) (dst : Region) (da n : Nat) : State :=
  s.writeUnits dst da (s.read src sa n) fun o m => s.poisonedAt src (sa + o) m

/-- Bytes read in beats of 64, each with its own poison. -/
def State.beats (s : State) (r : Region) (a n : Nat) : List (List Byte × Bool) :=
  tab (ceilDiv n 64) fun i =>
    let m := min 64 (n - 64 * i)
    (s.read r (a + 64 * i) m, s.poisonedAt r (a + 64 * i) m)

/-- Beats written to a memory with their poison. -/
def State.writeBeats (s : State) (dst : Region) (da : Nat) (l : List (List Byte × Bool)) : State :=
  s.writeUnits dst da (l.flatMap fun b => b.1) fun o m =>
    (List.range l.length).any fun i => i * 64 < o + m && o < i * 64 + 64 && ((l[i]?).map fun b => b.2).getD false

/-- A 64-byte record read from memory. -/
def State.record64 (s : State) (r : Region) (a : Nat) : Rec64 := BitVec.ofNat 512 (s.readNat r a 64)

/-- A 32-byte record read from memory. -/
def State.record32 (s : State) (r : Region) (a : Nat) : Rec32 := BitVec.ofNat 256 (s.readNat r a 32)

/-! ### Units in service -/

/-- Whether a hall's compute is in service. -/
def State.hallUp (s : State) (h : Nat) : Bool := (s.hall h).state == .enabled

/-- Whether a hall's compute is fenced. -/
def State.hallFenced (s : State) (h : Nat) : Bool := (s.hall h).state == .fenced

/-- Whether a stairwell is enabled: it holds a logical number and is not fenced (R25). -/
def State.swEnabled (s : State) (h sw : Nat) : Bool :=
  let x := s.stair h sw
  s.hallUp h && x.assigned && !x.fenced

/-- Whether a plan has a placement on a stairwell. -/
def Plan.placedOn (p : Plan) (h sw : Nat) : Bool := p.placements.any fun e => e.hall.val == h && e.sw.val == sw

/-- Logical number of a stairwell: the assigned stairwells below it (R34). -/
def State.logicalOf (s : State) (h sw : Nat) : Nat := countN sw fun p => (s.stair h p).assigned

/-- Physical stairwell that holds a logical number (R34). -/
def State.physicalOf (s : State) (h l : Nat) : Option Nat :=
  findN 256 fun p => (s.stair h p).assigned && s.logicalOf h p == l

/-- Enabled stairwells of a hall, in rising physical order. -/
def State.enabledSws (s : State) (h : Nat) : List Nat := (List.range 256).filter fun p => s.swEnabled h p

/-- Address bound of the host reservation (R22). -/
def State.hostRes (s : State) : Nat := s.porter.host.hostRes

/-- Whether a host range lies in the host reservation (R233). -/
def State.inHost (s : State) (a n : Nat) : Bool := a + n ≤ s.hostRes

/-- A resource changed: the porter publishes a new descriptor within 2 ms (R31). -/
def State.publishDue (s : State) : State :=
  s.modPorter fun p => { p with res := { p.res with due := true } }

/-- An entry of the porter's event log, which keeps the newest 512 (R445). -/
def State.logEvent (s : State) (code hall unit arg : Nat) : State :=
  s.modPorter fun p =>
    let e : Event := { code := code, hall := hall, unit := unit, arg := arg, puc := p.powerup, at_ := p.elapsed }
    { p with events := (p.events ++ [e]).drop (p.events.length + 1 - 512), evNext := p.evNext + 1 }

/-- An alert bit set; a bit newly set asks for an IBI while the module holds an address and ENINT is 1 (R446, R447). -/
def State.raiseAlert (s : State) (bit : Nat) : State :=
  s.modPorter fun p =>
    if p.alert.getLsbD bit then p
    else
      { p with alert := p.alert ||| BitVec.ofNat 6 (2 ^ bit)
               i3c := if p.i3c.da ≠ 0 ∧ p.i3c.enint = true then
                   { p.i3c with ibi := insertBy (fun (q : Nat × Nat) => q.1) (bit, 0) p.i3c.ibi } else p.i3c }

/-- A cause bit of the replace request is set, and published when it is new (R396). -/
def State.replaceCause (s : State) (bit : Nat) : State :=
  if s.porter.replace.getLsbD bit then s
  else (((s.modPorter fun p => { p with replace := p.replace ||| BitVec.ofNat 16 (2 ^ bit) }).publishDue).logEvent
    0x08 0 0 bit).raiseAlert 0

/-- Bytes that the spec leaves undefined: free values, drawn one after another; marks stay as they are (log entry 5). -/
def State.freeBytes (s : State) (r : Region) (a n : Nat) : State :=
  { s with fresh := s.fresh + n
           mem := memWriteAll s.mem r (s.parkGone r) a (tab n fun i => BitVec.ofNat 8 (Config.free (s.fresh + i))) }

/-! ### Access to the set-up registers -/

/-- Whether the module has handed off and runs (R361): with its reference (R347) and with its loads on (R415, R430). -/
def State.running (s : State) : Bool :=
  s.porter.stage == .running && !s.porter.host.refLost && s.porter.power.loadsOff == 0

/-- Whether a hall's network domain answers (R463). -/
def State.hallNet (s : State) (h : Nat) : Bool := (s.hall h).netUp && !(s.hall h).netLost

/-- A write to a set-up register of a hall: an access fault to the core when the hall's network domain does not answer
(R463), ignored before hand-off (R361). -/
def State.hallWrite (s : State) (h : Nat) (k : State → State) : State :=
  if !s.hallNet h then s.emit (.accessFault false) else if !s.running then s else k s

/-! ### Completion of a claimed descriptor (R249, R250) -/

/-- A header field of a descriptor (Table 8.3). -/
def descOpcode (d : Rec64) : Nat := fld d 0 0 8
def descCq (d : Rec64) : Nat := fld d 0 8 6
def descSilent (d : Rec64) : Bool := fld d 0 14 1 == 1
def descFence (d : Rec64) : Bool := fld d 0 15 1 == 1
def descTag (d : Rec64) : Nat := fld d 4 0 32

/-- Records a completion ring holds. -/
def CompRing.size (r : CompRing) : Nat := 2 ^ r.log2
/-- Descriptors a submission ring holds. -/
def SubRing.size (r : SubRing) : Nat := 2 ^ r.log2

/-- PHASE of the record that a ring writes next: 1 on the first pass, then alternating. -/
def CompRing.phase (r : CompRing) : Bool := r.tail.toNat / r.size % 2 == 0

/-- The elapsed counter that stamps a record: the writing hall's, or the porter's for 15. -/
def State.stampOf (s : State) (writer : Nat) : Nat :=
  (if writer = 15 then s.porter.elapsed else (s.hall writer).elapsed).toNat % 2 ^ 32

/-- The record of a claim (Table 8.5); `part` holds bytes 0x10 to 0x1F. -/
def recordOf (s : State) (x : Claim) (writer status : Nat) (phase : Bool) (part : Rec32) : Rec32 :=
  put 256 0 0 32 (descTag x.desc) ||| put 256 4 0 8 status ||| put 256 4 8 8 (descOpcode x.desc)
    ||| put 256 4 16 8 x.sq.val ||| put 256 4 24 4 writer ||| put 256 4 31 1 (if phase then 1 else 0)
    ||| put 256 8 0 32 x.sqHead.toNat ||| put 256 12 0 32 (s.stampOf writer)
    ||| put 256 16 0 128 (fld part 16 0 128)

/-- The completion ring after one record: counted, and signalled when its unsignalled records reach IRQ_COUNT (R250).
Answers whether the interrupt is sent. -/
def CompRing.counted (r : CompRing) (silent : Bool) (now : Nat) : CompRing × Bool :=
  let r := { r with tail := r.tail + 1, res := r.res - 1 }
  if silent then (r, false)
  else
    let u := r.unsig + 1
    if r.irqCount ≠ 0 ∧ r.irqCount ≤ u then ({ r with unsig := 0, oldest := none }, true)
    else ({ r with unsig := u, oldest := some (r.oldest.getD now) }, false)

/-- Whether a requester is an usher that runs claim `c`. -/
def runsClaim (rq : Requester) (c : Nat) : Bool :=
  match rq with
  | .usher _ _ (some d) => d == c
  | _ => false

/-- The clasp waits and presentations of the ushers that run claim `c` are withdrawn: its descriptor ends (R486). -/
def State.endWaits (s : State) (c : Nat) : State :=
  { s with retries := s.retries.filter fun r => !runsClaim r.who c
           clasps := s.clasps.map fun p => (p.1, { p.2 with waiters := p.2.waiters.filter fun w => !runsClaim w.who c }) }

/-- A back-off after an answer TARGET_RESETTING (R303): 1 µs, doubled up to 64 µs. -/
def Backoff.next (now : Nat) (b : Option Backoff) : Backoff :=
  let i := match b with
    | some b => b.interval
    | none => 1
  { due := some (now + i * 100), interval := min (2 * i) 64 }

/-- Whether a request is to be presented again now. -/
def Backoff.ready (b : Backoff) (now : Nat) : Bool := b.due.any fun t => decide (t ≤ now)

/-- Requests answered TARGET_RESETTING are counted by the hall (RING_RESET_ANS). -/
def State.noteReset (s : State) (h : Nat) : State := s.modRegs h fun g => { g with resetAns := g.resetAns + 1 }

/-- Writes the completion record of claim `c` and drops the claim. `writer` is the hall that writes it, or 15. -/
def State.complete (s : State) (c writer status : Nat) (part : Rec32) : State :=
  match s.claim? c with
  | none => s
  | some x =>
    let q := descCq x.desc
    let r := sget (s.hall x.hall).cq {} q
    let a := r.base + r.tail.toNat % r.size * 32
    let bytes := leBytes 32 (recordOf s x writer status r.phase part).toNat
    let (r', irq) := r.counted (descSilent x.desc) s.now
    let s := (s.write .park a bytes false).modHall x.hall fun y => { y with cq := sset y.cq q r' }
    let s := { s with claims := sdel s.claims c }.endWaits c
    if irq then s.emit (.msi r.vector) else s

/-- A claim completed by the hall that claimed it, with an empty record part. -/
def State.finish (s : State) (c status : Nat) : State :=
  match s.claim? c with
  | none => s
  | some x => s.complete c x.hall.val status 0

end Sys2Proof.Machine
end

