-- ==== Sys2Proof/Machine/Clock.lean ====
section
/-! DEFINITION. One edge of the 100 MHz reference (R340, R348). -/

namespace Sys2Proof.Machine

/-- Every counter that runs rises by 1 on a reference edge, 10 ns per count (R348). -/
def referenceEdge (s : State) : State :=
  { s with
    now := s.now + 1
    halls := s.halls.map fun p => if p.2.elapsedOn then (p.1, { p.2 with elapsed := p.2.elapsed + 1 }) else p
    porter := if s.porter.elapsedOn then { s.porter with elapsed := s.porter.elapsed + 1 } else s.porter }

/-- Whether `us` microseconds have passed since the edge `t`. -/
def State.passed (s : State) (t us : Nat) : Bool := t + us * 100 ≤ s.now

end Sys2Proof.Machine
end

