-- ==== Sys2Proof/Machine/Num.lean ====
section
/-! DEFINITION. Number formats, rounding and FP32 arithmetic (chapter 3, R52). A finite value is held exactly, as
(−1)^neg · m · 2^e. -/

namespace Sys2Proof.Machine

/-- A value of a format. A zero keeps its sign. -/
inductive FNum where
  | nan
  | inf (neg : Bool)
  | fin (neg : Bool) (m : Nat) (e : Int)
deriving DecidableEq, Repr

/-! ### Formats (Tables 2.2 and 3.1) -/

def fmtE8M0Nan : Nat := 0xFF

/-- Exponent bits of a floating-point format. -/
def fmtExp : Nat → Nat
  | 0x01 => 4 | 0x02 => 5 | 0x04 => 3 | 0x05 => 2 | 0x06 => 2 | 0x07 => 8 | 0x08 => 5 | _ => 8

/-- Mantissa bits. -/
def fmtMan : Nat → Nat
  | 0x01 => 3 | 0x02 => 2 | 0x04 => 2 | 0x05 => 3 | 0x06 => 1 | 0x07 => 7 | 0x08 => 10 | _ => 23

def fmtBias : Nat → Nat
  | 0x01 => 7 | 0x02 => 15 | 0x04 => 3 | 0x05 => 1 | 0x06 => 1 | 0x07 => 127 | 0x08 => 15 | _ => 127

/-- Bits of one element. -/
def fmtBits : Nat → Nat
  | 0x01 => 8 | 0x02 => 8 | 0x03 => 8 | 0x04 => 6 | 0x05 => 6 | 0x06 => 4 | 0x07 => 16 | 0x08 => 16 | _ => 32

/-- Whether a format is one of the MX element formats. -/
def fmtMx (f : Nat) : Bool := f == 0x04 || f == 0x05 || f == 0x06

/-- Whether a format is an integer format. -/
def fmtInt (f : Nat) : Bool := f == 0x03 || f == 0x0A

/-- Encoding of the largest finite magnitude. -/
def fmtMax : Nat → Nat
  | 0x01 => 0x7E | 0x02 => 0x7B | 0x04 => 0x1F | 0x05 => 0x1F | 0x06 => 0x07 | 0x07 => 0x7F7F | 0x08 => 0x7BFF
  | _ => 0x7F7FFFFF

/-- Canonical NaN of a format (Table 3.2). -/
def fmtNan : Nat → Nat
  | 0x01 => 0x7F | 0x02 => 0x7E | 0x07 => 0x7FC0 | 0x08 => 0x7E00 | 0x09 => 0x7FC00000 | _ => 0

/-- Exponent of the smallest subnormal's unit. -/
def fmtQmin (f : Nat) : Int := 1 - (fmtBias f : Int) - (fmtMan f : Int)

/-- Row bytes of `n` elements, packed (R68). -/
def rowBytes (f n : Nat) : Nat := ceilDiv (n * fmtBits f) 8

/-- The number in two's complement of `w` bits. -/
def toInt (w b : Nat) : Int := if b < 2 ^ (w - 1) then b else (b : Int) - 2 ^ w

/-- An integer as a value. -/
def FNum.ofInt (i : Int) : FNum := .fin (decide (i < 0)) i.natAbs 0

/-- The value an element encodes (R65); MX elements without their scale. -/
def FNum.ofBits (f b : Nat) : FNum :=
  if fmtInt f then FNum.ofInt (toInt (fmtBits f) (b % 2 ^ fmtBits f))
  else
    let mb := fmtMan f
    let eb := fmtExp f
    let m := b % 2 ^ mb
    let e := b / 2 ^ mb % 2 ^ eb
    let s := b / 2 ^ (mb + eb) % 2 == 1
    if f = 0x01 ∧ e = 15 ∧ m = 7 then .nan
    else if (f = 0x02 ∨ f = 0x07 ∨ f = 0x08 ∨ f = 0x09) ∧ e = 2 ^ eb - 1 then if m = 0 then .inf s else .nan
    else if e = 0 then .fin s m (fmtQmin f)
    else .fin s (2 ^ mb + m) (fmtQmin f + e - 1)

/-! ### Rounding (R69 to R74) -/

/-- `m · 2^k` rounded to an integer, to nearest, ties to even. -/
def roundEven (m : Nat) (k : Int) : Nat :=
  if 0 ≤ k then m * 2 ^ k.toNat
  else
    let d := 2 ^ (-k).toNat
    let q := m / d
    let r := m % d
    if d < 2 * r ∨ (2 * r = d ∧ q % 2 = 1) then q + 1 else q

/-- `m · 2^k` rounded to an integer with the 16-bit random value `r` (R73). -/
def roundRandom (m : Nat) (k : Int) (r : Nat) : Nat :=
  if 0 ≤ k then m * 2 ^ k.toNat
  else
    let d := 2 ^ (-k).toNat
    if m % d = 0 then m / d
    else if 65536 ≤ (m % d) * 65536 / d + r then m / d + 1 else m / d

/-- Exponent of the unit in which a format holds the magnitude `m · 2^e`. -/
def unitExp (f m : Nat) (e : Int) : Int := max (fmtQmin f) ((Nat.log2 m : Int) + e - fmtMan f)

/-- Magnitude encoding of `m · 2^e` rounded to nearest even; it may pass the largest finite. -/
def encodeMag (f m : Nat) (e : Int) : Nat :=
  if m = 0 then 0
  else
    let q := unitExp f m e
    (q - fmtQmin f).toNat * 2 ^ fmtMan f + roundEven m (e - q)

/-- The same with stochastic rounding: a magnitude beyond the largest finite rounds as `encodeMag` does. -/
def encodeMagSr (f m : Nat) (e : Int) (r : Nat) : Nat :=
  if m = 0 then 0
  else
    let q := unitExp f m e
    let lo := (q - fmtQmin f).toNat * 2 ^ fmtMan f + (if 0 ≤ e - q then m * 2 ^ (e - q).toNat else m / 2 ^ (q - e).toNat)
    if fmtMax f ≤ lo then encodeMag f m e
    else (q - fmtQmin f).toNat * 2 ^ fmtMan f + roundRandom m (e - q) r

def signBit (f : Nat) (neg : Bool) : Nat := if neg then 2 ^ (fmtMan f + fmtExp f) else 0

/-- A value as a floating-point element; `sr` is the random value of R74 when SR is set (Table 3.2). -/
def FNum.toFloat (f : Nat) (sr : Option Nat) : FNum → Nat
  | .nan => fmtNan f
  | .inf s => if f = 0x01 then 0x7F else if fmtMx f then signBit f s + fmtMax f else signBit f s + fmtMax f + 1
  | .fin s m e =>
    let c := match sr with
      | some r => encodeMagSr f m e r
      | none => encodeMag f m e
    let c := if c ≤ fmtMax f then c else if f = 0x01 ∨ fmtMx f = true then fmtMax f else fmtMax f + 1
    signBit f s + c

/-- A value rounded to an integer and saturated to `w` bits; a NaN gives zero (Table 3.2). -/
def FNum.toIntSat (w : Nat) : FNum → Nat
  | .nan => 0
  | .inf s => if s then 2 ^ (w - 1) else 2 ^ (w - 1) - 1
  | .fin s m e =>
    let n := roundEven m e
    if s then (2 ^ w - min n (2 ^ (w - 1))) % 2 ^ w else min n (2 ^ (w - 1) - 1)

/-- A value converted to a format (R69, R70). -/
def FNum.toBits (f : Nat) (sr : Option Nat) (x : FNum) : Nat :=
  if f = 0x03 then x.toIntSat 8 else if f = 0x0A then x.toIntSat 32 else x.toFloat f sr

/-- The random value of an element (R74). -/
def mix64 (z : Dword) : Dword :=
  let z := (z ^^^ (z >>> 30)) * 0xBF58476D1CE4E5B9
  let z := (z ^^^ (z >>> 27)) * 0x94D049BB133111EB
  z ^^^ (z >>> 31)

/-- R74: bits [63:48] of mix(x XOR mix(y)). -/
def srRandom (count seed : Word) (h sw q index : Nat) : Nat :=
  let x : Dword := (count.zeroExtend 64 <<< 32) ||| seed.zeroExtend 64
  let y : Dword := BitVec.ofNat 64 (h * 2 ^ 44 + sw * 2 ^ 36 + q * 2 ^ 32 + index)
  (mix64 (x ^^^ mix64 y)).toNat / 2 ^ 48

/-! ### Exact sums and products -/

def signed (neg : Bool) (m : Nat) : Int := if neg then -(m : Int) else m

/-- Exact sum, with IEEE 754's signs of zero, infinities and NaNs. -/
def FNum.add : FNum → FNum → FNum
  | .nan, _ => .nan
  | _, .nan => .nan
  | .inf a, .inf b => if a = b then .inf a else .nan
  | .inf a, _ => .inf a
  | _, .inf b => .inf b
  | .fin a m e, .fin b n f =>
    let q := min e f
    let v := signed a m * 2 ^ (e - q).toNat + signed b n * 2 ^ (f - q).toNat
    if v = 0 then .fin (a && b) 0 0 else .fin (decide (v < 0)) v.natAbs q

/-- Exact product. -/
def FNum.mul : FNum → FNum → FNum
  | .nan, _ => .nan
  | _, .nan => .nan
  | .inf a, .inf b => .inf (a != b)
  | .inf a, .fin b n _ => if n = 0 then .nan else .inf (a != b)
  | .fin a m _, .inf b => if m = 0 then .nan else .inf (a != b)
  | .fin a m e, .fin b n f => .fin (a != b) (m * n) (e + f)

def FNum.neg : FNum → FNum
  | .nan => .nan
  | .inf s => .inf !s
  | .fin s m e => .fin (!s) m e

/-- `x` times 2^k. -/
def FNum.scaleBy (x : FNum) (k : Int) : FNum :=
  match x with
  | .fin s m e => .fin s m (e + k)
  | y => y

def FNum.isNan : FNum → Bool
  | .nan => true
  | _ => false

def FNum.isZero : FNum → Bool
  | .fin _ 0 _ => true
  | _ => false

/-- Whether the number `x` is less than the number `y`; false when either is a NaN. -/
def FNum.lt : FNum → FNum → Bool
  | .nan, _ => false
  | _, .nan => false
  | .inf a, .inf b => a && !b
  | .inf a, .fin _ _ _ => a
  | .fin _ _ _, .inf b => !b
  | .fin a m e, .fin b n f =>
    let q := min e f
    decide (signed a m * 2 ^ (e - q).toNat < signed b n * 2 ^ (f - q).toNat)

/-- Maximum, a NaN when either is one (R51). -/
def FNum.max : FNum → FNum → FNum
  | .nan, _ => .nan
  | _, .nan => .nan
  | x, y => if x.lt y then y else if y.lt x then x else if x = y then x else if x.isZero then .fin Config.zeroMaxNeg 0 0 else x

/-! ### FP32 -/

/-- The value of an FP32 word. -/
def f32 (w : Word) : FNum := FNum.ofBits 0x09 w.toNat

/-- A value rounded to FP32 (R69, R70). -/
def FNum.toF32 (x : FNum) : Word := BitVec.ofNat 32 (x.toFloat 0x09 none)

/-- A value rounded to FP32, as a value. -/
def FNum.r32 (x : FNum) : FNum := f32 x.toF32

/-- FP32 sum, product and fused multiply-add, each rounded once (R69). -/
def fadd (a b : FNum) : FNum := (a.add b).r32
def fmul (a b : FNum) : FNum := (a.mul b).r32
def fma (a b c : FNum) : FNum := ((a.mul b).add c).r32
def fsub (a b : FNum) : FNum := fadd a b.neg

def numZero : FNum := .fin false 0 0
def numOne : FNum := .fin false 1 0
def numNegInf : FNum := .inf true

/-! ### Functions within a bound (R52)

`true_` is a value within 2⁻¹⁰⁰ of the true result, relative; the device's result is one of the FP32 words within `k`
ulp of it, chosen by the free constant `Config.ulpChoice` (log entry 12). -/

/-- FP32 magnitudes within `k` ulp of the magnitude `m · 2^e`. -/
def withinUlp (k m : Nat) (e : Int) : List Nat :=
  let c := encodeMag 0x09 m e
  let q := unitExp 0x09 m e
  ((List.range (2 * k + 1)).map fun i => c + i - k).filter fun w =>
    w ≤ fmtMax 0x09 &&
      match FNum.ofBits 0x09 w with
      | .fin _ n f =>
        let p := min e (min f q)
        decide ((signed false n * 2 ^ (f - p).toNat - signed false m * 2 ^ (e - p).toNat).natAbs
          ≤ k * 2 ^ (q - p).toNat)
      | _ => false

/-- A result within `k` ulp of `true_`. -/
def near (k fn x y z : Nat) (true_ : FNum) : FNum :=
  match true_ with
  | .fin s m e =>
    let l := withinUlp k m e
    match l with
    | [] => (FNum.fin s m e).r32
    | w :: _ =>
      match FNum.ofBits 0x09 (l.getD (Config.ulpChoice fn x y z % l.length) w) with
      | .fin _ n f => .fin s n f
      | v => v
  | v => v

/-- ⌊ln 2 · 2^160⌋ and ⌊π · 2^480⌋. -/
def ln2Fix : Nat := 0xb17217f7d1cf79abc9e3b39803f2f6af40f34326
def piFix : Nat :=
  0x3243f6a8885a308d313198a2e03707344a4093822299f31d0082efa98ec4e6c89452821e638d01377be5466cf34e90c6cc0ac29b7c97c50dd3f84d5b5

/-- Sum of the terms t, t·r/i, t·r²/(i(i+1)), … in fixed point with `p` fraction bits. -/
def expTerms (p r : Nat) : Nat → Nat → Nat → Nat
  | 0, _, _ => 0
  | n + 1, i, t => t + expTerms p r n (i + 1) (t * r / 2 ^ p / i)

/-- e^x for x = ±m · 2^e, to 150 bits. -/
def expNum (neg : Bool) (m : Nat) (e : Int) : FNum :=
  if 9 ≤ (Nat.log2 m : Int) + e ∧ m ≠ 0 then if neg then .fin false 1 (-400) else .fin false 1 400
  else
    let x := if 0 ≤ e + 160 then m * 2 ^ (e + 160).toNat else m / 2 ^ (-(e + 160)).toNat
    let v : Int := signed neg x
    let k : Int := v / (ln2Fix : Int)
    let r := (v - k * ln2Fix).toNat
    .fin false (expTerms 160 r 45 1 (2 ^ 160)) (k - 160)

/-- exp of an FP32 value, within 2 ulp. -/
def fexp (x : FNum) : FNum :=
  match x with
  | .nan => .nan
  | .inf s => if s then numZero else .inf false
  | .fin s m e => near 2 1 x.toF32.toNat 0 0 (expNum s m e)

/-- tanh of a positive magnitude m · 2^e. -/
def tanhMag (m : Nat) (e : Int) : FNum :=
  if m = 0 then numZero
  else if 6 ≤ (Nat.log2 m : Int) + e then .fin false (2 ^ 200 - 1) (-200)
  else
    let p := 160 + (-((Nat.log2 m : Int) + e)).toNat
    let y := if 0 ≤ e + 1 + p then m * 2 ^ (e + 1 + p).toNat else m / 2 ^ (-(e + 1 + p)).toNat
    let em1 := if y < 2 ^ p then expTerms p y 50 2 y
      else match expNum false m (e + 1) with
        | .fin _ a b => (if 0 ≤ b + p then a * 2 ^ (b + p).toNat else a / 2 ^ (-(b + p)).toNat) - 2 ^ p
        | _ => 0
    .fin false (em1 * 2 ^ 160 * 2 ^ p / (em1 + 2 ^ (p + 1))) (-160 - p)

/-- tanh within 2 ulp. -/
def ftanh (x : FNum) : FNum :=
  match x with
  | .nan => .nan
  | .inf s => .fin s 1 0
  | .fin s m e =>
    match near 2 2 x.toF32.toNat 0 0 (tanhMag m e) with
    | .fin _ n f => .fin s n f
    | v => v

/-- The quotient of two magnitudes to 160 bits. -/
def quot (m : Nat) (e : Int) (n : Nat) (f : Int) : FNum :=
  let sh := 200 + Nat.log2 n
  .fin false (m * 2 ^ sh / n) (e - f - sh)

/-- Division within `k` ulp: 1 for division, 2 for the reciprocal inside SILU (R52). -/
def fdivK (k fn : Nat) (x y : FNum) : FNum :=
  match x, y with
  | .nan, _ => .nan
  | _, .nan => .nan
  | .inf _, .inf _ => .nan
  | .inf a, .fin b _ _ => .inf (a != b)
  | .fin a _ _, .inf b => .fin (a != b) 0 0
  | .fin a m e, .fin b n f =>
    if n = 0 then if m = 0 then .nan else .inf (a != b)
    else if m = 0 then .fin (a != b) 0 0
    else match near k fn x.toF32.toNat y.toF32.toNat 0 (quot m e n f) with
      | .fin _ p g => .fin (a != b) p g
      | .inf _ => .inf (a != b)
      | .nan => .nan

def fdiv (x y : FNum) : FNum := fdivK 1 3 x y
def frecip (y : FNum) : FNum := fdivK 2 4 numOne y

/-- Square root within 1 ulp. -/
def fsqrt (x : FNum) : FNum :=
  match x with
  | .nan => .nan
  | .inf s => if s then .nan else .inf false
  | .fin s m e =>
    if m = 0 then .fin s 0 0
    else if s then .nan
    else
      let sh : Nat := 320 + (if e % 2 = 0 then 0 else 1)
      near 1 5 x.toF32.toNat 0 0 (.fin false (Nat.sqrt (m * 2 ^ sh)) ((e - sh) / 2))

/-- Alternating terms t, −t·r²/(i(i+1)), … of sine and cosine in fixed point with 480 fraction bits. -/
def trigTerms (r2 : Nat) : Nat → Nat → Int → Int
  | 0, _, _ => 0
  | n + 1, i, t => t + trigTerms r2 n (i + 2) (-(t * r2 / 2 ^ 480 / (i * (i + 1))))

/-- sine (or cosine) of ±m · 2^e, to about 300 bits. -/
def trigNum (cosine neg : Bool) (m : Nat) (e : Int) : FNum :=
  let x := if 0 ≤ e + 480 then m * 2 ^ (e + 480).toNat else m / 2 ^ (-(e + 480)).toNat
  let half := piFix / 2
  let k := x / half
  let r := x % half
  let r2 := r * r / 2 ^ 480
  let sn := trigTerms r2 60 2 r
  let cs := trigTerms r2 60 1 (2 ^ 480)
  let v : Int := match cosine, k % 4 with
    | false, 0 => sn | false, 1 => cs | false, 2 => -sn | false, _ => -cs
    | true, 0 => cs | true, 1 => -sn | true, 2 => -cs | true, _ => sn
  let v := if neg && !cosine then -v else v
  .fin (decide (v < 0)) v.natAbs (-480)

/-- sin and cos of an FP32 value, within 2 ulp whatever its magnitude (R52). -/
def ftrig (cosine : Bool) (x : FNum) : FNum :=
  match x with
  | .fin s m e =>
    match trigNum cosine s m e with
    | .fin t n f =>
      match near 2 (if cosine then 7 else 6) x.toF32.toNat 0 0 (.fin false n f) with
      | .fin _ p g => .fin t p g
      | v => v
    | v => v
  | _ => .nan

/-- Terms z, z³/3, z⁵/5, … in fixed point with 160 fraction bits. -/
def atanhTerms (z2 : Nat) : Nat → Nat → Nat → Nat
  | 0, _, _ => 0
  | n + 1, i, z => z / i + atanhTerms z2 n (i + 2) (z * z2 / 2 ^ 160)

/-- ln of m · 2^e above 1, with 160 fraction bits. -/
def lnFix (m : Nat) (e : Int) : Nat :=
  let k := Nat.log2 m
  let z := (m - 2 ^ k) * 2 ^ 160 / (m + 2 ^ k)
  (((k : Int) + e).toNat * ln2Fix) + 2 * atanhTerms (z * z / 2 ^ 160) 60 1 z

/-- The frequency P0^(−2i/D), within 2 ulp; it depends only on P0, i and D (R52). -/
def ropeFreq (p0 : Word) (i d : Nat) : FNum :=
  match f32 p0 with
  | .fin _ m e => near 2 8 p0.toNat i d (expNum true (2 * i * lnFix m e / d) (-160))
  | v => v

/-! ### Sums -/

/-- Pairs added level by level; an odd one passes up unchanged. -/
def pairSum : Nat → List FNum → FNum
  | 0, l => l.getD 0 numZero
  | n + 1, l =>
    match l with
    | [] => numZero
    | [x] => x
    | l => pairSum n (pairs l)
where
  pairs : List FNum → List FNum
    | a :: b :: t => fadd a b :: pairs t
    | l => l

/-- A reduction over columns: pairwise, in an order fixed for each count of columns (R52). -/
def reduceSum (l : List FNum) : FNum :=
  let n := l.length
  let o := Config.pairOrder n
  let l' := if o.length = n ∧ o.all (· < n) = true ∧ o.Nodup then o.map fun i => l.getD i numZero else l
  pairSum 64 l'

/-- Maximum of a list, −∞ when empty. -/
def maxList (l : List FNum) : FNum := l.foldl FNum.max numNegInf

end Sys2Proof.Machine
end

