-- ==== Sys2Proof/Machine/Formats.lean ====
section
/-! DEFINITION. Rows of elements in memory, and the MX blocks of R67, R68 and R71. -/

namespace Sys2Proof.Machine

/-- Encodings of `n` elements packed from bit 0 of a byte string (R68). -/
def unpackBits (f n : Nat) (bytes : List Byte) : List Nat :=
  let v := leNat bytes
  tab n fun i => v / 2 ^ (fmtBits f * i) % 2 ^ fmtBits f

/-- Elements packed into bytes. -/
def packBits (f : Nat) (l : List Nat) : List Byte :=
  leBytes (rowBytes f l.length) (l.reverse.foldl (fun a c => a * 2 ^ fmtBits f + c % 2 ^ fmtBits f) 0)

/-- Values of `n` plain elements. -/
def plainVals (f n : Nat) (bytes : List Byte) : List FNum := (unpackBits f n bytes).map (FNum.ofBits f)

/-- Values of `n` MX elements with their scale bytes (R67). -/
def mxVals (f n : Nat) (bytes scales : List Byte) : List FNum :=
  (unpackBits f n bytes).mapIdx fun i c =>
    let b := (scales.getD (i / 32) 0).toNat
    if b = fmtE8M0Nan then .nan else (FNum.ofBits f c).scaleBy (b - 127)

/-- emax of an MX element format (R71). -/
def mxEmax (f : Nat) : Int := if f = 0x04 then 4 else 2

/-- Largest magnitude of a block's finite inputs, as m · 2^e. -/
def blockMax (l : List FNum) : FNum :=
  l.foldl (fun a x =>
    match x with
    | .fin _ m e => let y := FNum.fin false m e; if a.lt y then y else a
    | _ => a) numZero

/-- One block converted to MX (R71): its scale byte and elements. `sr i` is the random value of element i. -/
def mxBlock (f : Nat) (sr : Nat → Option Nat) (l : List FNum) : Nat × List Nat :=
  let special := l.any fun x =>
    match x with
    | .fin _ _ _ => false
    | _ => true
  if special then (fmtE8M0Nan, l.map fun _ => 0)
  else
    match blockMax l with
    | .fin _ m e =>
      if m = 0 then (0x7F, l.map fun _ => 0)
      else
        let x := max (-127) (min 127 ((Nat.log2 m : Int) + e - mxEmax f))
        ((x + 127).toNat, l.mapIdx fun i v => (v.scaleBy (-x)).toFloat f (sr i))
    | _ => (0x7F, l.map fun _ => 0)

/-- A list cut into blocks of 32; the fuel is the number of blocks. -/
def blocks32 {α : Type} : Nat → List α → List (List α)
  | 0, _ => []
  | n + 1, l => l.take 32 :: blocks32 n (l.drop 32)

/-- A row converted to MX: packed elements and scale bytes. -/
def mxRow (f : Nat) (sr : Nat → Option Nat) (l : List FNum) : List Byte × List Byte :=
  let bl := (blocks32 (ceilDiv l.length 32) l).mapIdx fun j b => mxBlock f (fun i => sr (32 * j + i)) b
  (packBits f (bl.flatMap (·.2)), bl.map fun b => BitVec.ofNat 8 b.1)

/-- A row of plain elements converted. -/
def plainRow (f : Nat) (sr : Nat → Option Nat) (l : List FNum) : List Byte :=
  packBits f (l.mapIdx fun i x => x.toBits f (sr i))

/-! ### Park formats (R90, R163) -/

/-- `n` elements of a key/value format as MX elements and scales. -/
def packPark (kv pf n : Nat) (bytes : List Byte) : List Byte × List Byte := mxRow pf (fun _ => none) (plainVals kv n bytes)

/-- MX elements and scales back as `n` elements of a key/value format. -/
def unpackPark (kv pf n : Nat) (bytes scales : List Byte) : List Byte :=
  plainRow kv (fun _ => none) (mxVals pf n bytes scales)

end Sys2Proof.Machine
end

