-- ==== Sys2Proof/Machine/Operands.lean ====
section
/-! DEFINITION. Op records: their fields, the byte ranges they touch and the check of R41 to R43 (chapter 2), and the
operand rules of clasp operations (chapter 7). -/

namespace Sys2Proof.Machine

/-- Bounds of the stairwell SRAM (R36, R37). -/
def sramEnd : Nat := 0x300000
def planSramEnd : Nat := 0x2E0000

/-- Bytes of a column's usable space (R92). -/
def columnEnd : Nat := 0x9999600

/-- Whether any of the fields (byte offset, low bit, width) of a record is not zero. -/
def anySet {n : Nat} (d : BitVec n) (l : List (Nat × Nat × Nat)) : Bool := l.any fun f => fld d f.1 f.2.1 f.2.2 != 0

/-! ### Clasp operations (Table 7.2) -/

/-- COPs that wait. -/
def copWaits (c : Nat) : Bool := c == 0x11 || c == 0x12 || c == 0x22 || c == 0x31

/-- COPs of Table 7.2. -/
def copKnown (c : Nat) : Bool :=
  [0x01, 0x02, 0x03, 0x04, 0x10, 0x11, 0x12, 0x13, 0x20, 0x21, 0x22, 0x30, 0x31, 0x32, 0x33].contains c

/-- Who asks for a clasp operation, as Table 7.2 names its issuers. -/
inductive Issuer where
  | op | dma | usher | host | binding
deriving DecidableEq, Repr

/-- Whether Table 7.2 allows a COP to its issuer. -/
def copAllowed (i : Issuer) (c : Nat) : Bool :=
  copKnown c &&
    match i with
    | .op => [0x10, 0x11, 0x12, 0x13, 0x20, 0x21, 0x22, 0x31, 0x32].contains c
    | .dma => [0x10, 0x11, 0x12, 0x13, 0x20, 0x21, 0x22, 0x31, 0x32].contains c
    | .usher => c != 0x33
    | .host => c != 0x31
    | .binding => c != 0x11 && c != 0x31

/-- COPs that add, arrive, set or release: an op record performs them only once every older op has retired (R56). -/
def copLast (c : Nat) : Bool := c == 0x10 || c == 0x11 || c == 0x13 || c == 0x20 || c == 0x21 || c == 0x32

/-- A must-be-zero operand that is not zero: BAD_RESERVED (R11). -/
def copReserved (c v : Nat) : Bool :=
  if c = 0x02 then v / 2 != 0 else (c == 0x03 || c == 0x04 || c == 0x20 || c == 0x21) && v != 0

/-- An owner that R211 refuses to a taker or a releaser: 0, or an usher's from anyone else. -/
def copBadOwner (i : Issuer) (c v : Nat) : Bool :=
  (c == 0x30 || c == 0x31 || c == 0x32) && (v % 2 ^ 24 == 0 || (i != .usher && 0xFFFF00 ≤ v % 2 ^ 24))

/-- The status of an operation that its issuer may not ask for as it stands. -/
def copStatus (i : Issuer) (c v : Nat) : Option Nat :=
  firstStatus (copKnown c && copReserved c v) (!copAllowed i c || copBadOwner i c v) false false

/-! ### Fields of op records -/

def opKind (d : Rec64) : Nat := fld d 0 0 8

-- TILE (Table 2.3)
def tFmtA (d : Rec64) : Nat := fld d 0 8 8
def tFmtB (d : Rec64) : Nat := fld d 0 16 8
def tFmtOut (d : Rec64) : Nat := fld d 0 24 8
def tM (d : Rec64) : Nat := fld d 4 0 13
def tN (d : Rec64) : Nat := fld d 4 16 13
def tK (d : Rec64) : Nat := fld d 8 0 17
def tAcc (d : Rec64) : Nat := fld d 8 17 2
def tDrain (d : Rec64) : Bool := fld d 8 19 1 == 1
def tSet (d : Rec64) : Nat := fld d 8 20 3
def tSr (d : Rec64) : Bool := fld d 8 23 1 == 1
def tSplitBase (d : Rec64) : Nat := fld d 0x0C 0 22
def tSplitEn (d : Rec64) : Bool := fld d 0x0C 31 1 == 1
def tABase (d : Rec64) : Nat := fld d 0x10 0 22
def tAStride (d : Rec64) : Nat := fld d 0x14 0 18
def tASStride (d : Rec64) : Nat := fld d 0x14 18 12
def tBBase (d : Rec64) : Nat := fld d 0x18 0 22
def tBStride (d : Rec64) : Nat := fld d 0x1C 0 18
def tBSStride (d : Rec64) : Nat := fld d 0x1C 18 12
def tCBase (d : Rec64) : Nat := fld d 0x20 0 22
def tCStride (d : Rec64) : Nat := fld d 0x24 0 18
def tASBase (d : Rec64) : Nat := fld d 0x28 0 22
def tBSBase (d : Rec64) : Nat := fld d 0x2C 0 22
def tEpiOp (d : Rec64) : Nat := fld d 0x30 0 2
def tEpiFmt (d : Rec64) : Nat := fld d 0x30 2 8
def tEBase (d : Rec64) : Nat := fld d 0x34 0 22
def tEStride (d : Rec64) : Nat := fld d 0x38 0 18
def tScale (d : Rec64) : Word := BitVec.ofNat 32 (fld d 0x3C 0 32)

-- KERNEL (Table 2.7)
def kOp (d : Rec64) : Nat := fld d 0 8 8
def kIn (d : Rec64) : Nat := fld d 0 16 8
def kOut (d : Rec64) : Nat := fld d 0 24 8
def kRows (d : Rec64) : Nat := fld d 4 0 13
def kCols (d : Rec64) : Nat := fld d 8 0 18
def kSrc0 (d : Rec64) : Nat := fld d 0x0C 0 22
def kSrc0Stride (d : Rec64) : Nat := fld d 0x10 0 18
def kSrc1 (d : Rec64) : Nat := fld d 0x14 0 22
def kSrc1Stride (d : Rec64) : Nat := fld d 0x18 0 18
def kDst (d : Rec64) : Nat := fld d 0x1C 0 22
def kDstStride (d : Rec64) : Nat := fld d 0x20 0 18
def kAux (d : Rec64) : Nat := fld d 0x24 0 22
def kP0 (d : Rec64) : Word := BitVec.ofNat 32 (fld d 0x28 0 32)
def kP1 (d : Rec64) : Word := BitVec.ofNat 32 (fld d 0x2C 0 32)
def kP2 (d : Rec64) : Nat := fld d 0x30 0 32
def kSr (d : Rec64) : Bool := fld d 0x34 0 1 == 1

-- FETCH and STORE (Table 2.9)
def fSram (d : Rec64) : Nat := fld d 4 0 22
def fSramStride (d : Rec64) : Nat := fld d 8 0 18
def fCol (d : Rec64) : Nat := fld d 0x0C 0 28
def fColStride (d : Rec64) : Nat := fld d 0x10 0 28
def fRows (d : Rec64) : Nat := fld d 0x14 0 13
def fBytes (d : Rec64) : Nat := fld d 0x18 0 17

-- CLASP (Table 2.10)
def cCop (d : Rec64) : Nat := fld d 0 8 8
def cClasp (d : Rec64) : Nat := fld d 4 0 16
def cOperand (d : Rec64) : Nat := fld d 8 0 32

/-! ### Ranges -/

/-- A byte interval [lo, hi) that an op reads or writes, in SRAM or in its column (R59). -/
structure Touch where
  col : Bool
  lo  : Nat
  hi  : Nat
  wr  : Bool
deriving DecidableEq, Repr

/-- The interval of `rows` rows of `len` bytes, `stride` apart. -/
def span (wr : Bool) (base rows stride len : Nat) : Touch :=
  { col := false, lo := base, hi := base + (rows - 1) * stride + len, wr := wr }

/-- Scale bytes of a row of `k` elements (R46). -/
def scaleLen (k : Nat) : Nat := ceilDiv k 32

def alignUp (n a : Nat) : Nat := ceilDiv n a * a

def tileTouches (d : Rec64) : List Touch :=
  [span false (tABase d) (tM d) (tAStride d) (rowBytes (tFmtA d) (tK d)),
   span false (tBBase d) (tN d) (tBStride d) (rowBytes (tFmtB d) (tK d))]
  ++ (if fmtMx (tFmtA d) then [span false (tASBase d) (tM d) (tASStride d) (scaleLen (tK d))] else [])
  ++ (if fmtMx (tFmtB d) then [span false (tBSBase d) (tN d) (tBSStride d) (scaleLen (tK d))] else [])
  ++ (if tSplitEn d then [span true (tSplitBase d) 1 0 73728] else [])
  ++ (if tDrain d then [span true (tCBase d) (tM d) (tCStride d) (rowBytes (tFmtOut d) (tN d))] else [])
  ++ (if tEpiOp d ≠ 0 then [span false (tEBase d) (tM d) (tEStride d) (rowBytes (tEpiFmt d) (tN d))] else [])

/-- What a kernel does with an operand area: nothing, a per-row FP32 vector, a row of COLS elements, a whole array, or
an area of its own. -/
inductive AreaUse where
  | unused | perRow | oneRow | array | special
deriving DecidableEq, Repr

/-- SRC1 of a kernel (Table 2.8). -/
def kSrc1Use (d : Rec64) : AreaUse :=
  match kOp d with
  | 0x02 => .perRow | 0x03 => .array | 0x10 => .oneRow | 0x11 => .oneRow | 0x22 => .array | 0x30 => .perRow
  | 0x41 => .array | 0x42 => .array | 0x60 => if fmtMx (kIn d) && fmtMx (kOut d) then .special else .unused
  | 0x70 => .array | _ => .unused

/-- AUX of a kernel, and whether the kernel writes it. -/
def kAuxUse (d : Rec64) : AreaUse × Bool :=
  match kOp d with
  | 0x01 => (.perRow, true) | 0x02 => (.perRow, true) | 0x11 => (.oneRow, false) | 0x50 => (.special, true)
  | 0x60 => if fmtMx (kOut d) then (.special, true) else if fmtMx (kIn d) then (.special, false) else (.unused, false)
  | _ => (.unused, false)

/-- Columns of SRC0 and SRC1 rows, and of DST rows: partial rows hold two values more (R51). -/
def kInCols (d : Rec64) : Nat := if kOp d = 0x03 ∨ kOp d = 0x04 then kCols d + 2 else kCols d
def kOutCols (d : Rec64) : Nat := if kOp d = 0x03 then kCols d + 2 else if kOp d = 0x50 then kP2 d else kCols d

/-- Stride of a CONVERT's scale rows. -/
def kScaleStride (d : Rec64) : Nat := alignUp (scaleLen (kCols d)) 64

def kernelTouches (d : Rec64) : List Touch :=
  (if kOp d = 0x71 then
      [span false (kSrc0 d) 1 0
        ((kP2 d - 1) * kSrc1Stride d + (kRows d - 1) * kSrc0Stride d + rowBytes (kIn d) (kCols d))]
    else [span false (kSrc0 d) (kRows d) (kSrc0Stride d) (rowBytes (kIn d) (kInCols d))])
  ++ (match kSrc1Use d with
    | .unused => []
    | .perRow => [span false (kSrc1 d) 1 0 (4 * kRows d)]
    | .oneRow => [span false (kSrc1 d) 1 0 (rowBytes (kIn d) (kCols d))]
    | .array => [span false (kSrc1 d) (kRows d) (kSrc1Stride d) (rowBytes (kIn d) (kInCols d))]
    | .special => [span false (kSrc1 d) (kRows d) (kScaleStride d) (scaleLen (kCols d))])
  ++ (match kAuxUse d with
    | (.unused, _) => []
    | (.perRow, w) => [span w (kAux d) 1 0 (4 * kRows d)]
    | (.oneRow, w) => [span w (kAux d) 1 0 (rowBytes (kIn d) (kCols d))]
    | (.special, w) =>
      if kOp d = 0x50 then [span w (kAux d) (kRows d) 256 (4 * kP2 d)]
      else [span w (kAux d) (kRows d) (kScaleStride d) (scaleLen (kCols d))]
    | (.array, _) => [])
  ++ (if kOp d = 0x01 then [] else [span true (kDst d) (kRows d) (kDstStride d) (rowBytes (kOut d) (kOutCols d))])

def moveTouches (d : Rec64) : List Touch :=
  let fetch := opKind d == 0x03
  [{ span fetch (fSram d) (fRows d) (fSramStride d) (fBytes d) with },
   { span (!fetch) (fCol d) (fRows d) (fColStride d) (fBytes d) with col := true }]

/-- Every interval an op names. -/
def opTouches (d : Rec64) : List Touch :=
  match opKind d with
  | 0x01 => tileTouches d
  | 0x02 => kernelTouches d
  | 0x03 => moveTouches d
  | 0x04 => moveTouches d
  | _ => []

/-- Whether two ops may not be in flight in this order: one writes what the other touches (R59). -/
def touchHazard (old new : List Touch) : Bool :=
  old.any fun o => new.any fun n => o.col == n.col && (o.wr || n.wr) && o.lo < n.hi && n.lo < o.hi

/-! ### The check (R41, R484) -/

/-- Base addresses of an op, which must be 64-byte aligned. -/
def opBases (d : Rec64) : List Nat :=
  match opKind d with
  | 0x01 => [tABase d, tBBase d, tCBase d, tASBase d, tBSBase d, tEBase d, tSplitBase d]
  | 0x02 => [kSrc0 d, kSrc1 d, kDst d, kAux d]
  | 0x03 => [fSram d, fCol d]
  | 0x04 => [fSram d, fCol d]
  | _ => []

/-- Whether a stride is a multiple of 64 and at least `len`. -/
def strideOk (stride len : Nat) : Bool := stride % 64 == 0 && len ≤ stride

def tileReserved (d : Rec64) : Bool :=
  anySet d [(4, 13, 3), (4, 29, 3), (8, 24, 8), (0x0C, 22, 9), (0x10, 22, 10), (0x14, 30, 2), (0x18, 22, 10),
    (0x1C, 30, 2), (0x20, 22, 10), (0x24, 18, 14), (0x28, 22, 10), (0x2C, 22, 10), (0x30, 10, 22), (0x34, 22, 10),
    (0x38, 18, 14)]
  || (!tSplitEn d && tSplitBase d != 0)
  || (!fmtMx (tFmtA d) && (tASStride d != 0 || tASBase d != 0))
  || (!fmtMx (tFmtB d) && (tBSStride d != 0 || tBSBase d != 0))
  || (!tDrain d && (tCBase d != 0 || tCStride d != 0))
  || (tEpiOp d == 0 && (tEpiFmt d != 0 || tEBase d != 0 || tEStride d != 0))

/-- Whether Table 2.4 lists a pair of operand formats, and the outputs it allows. -/
def tilePairOk (a b o : Nat) : Bool :=
  let fp := [0x01, 0x02, 0x07, 0x08, 0x09].contains o
  (a == 0x06 && b == 0x06 && fp)
  || ((a == 0x04 || a == 0x05) && (b == 0x04 || b == 0x05) && fp)
  || ((a == 0x01 || a == 0x02) && (b == 0x01 || b == 0x02) && fp)
  || (a == 0x03 && b == 0x03 && [0x03, 0x07, 0x08, 0x09, 0x0A].contains o)
  || (a == 0x07 && b == 0x07 && fp) || (a == 0x08 && b == 0x08 && fp)

/-- A NaN or an infinity as FP32. -/
def f32Special (w : Word) : Bool := bits w 30 23 == 255

def tileEncoding (d : Rec64) : Bool :=
  !tilePairOk (tFmtA d) (tFmtB d) (tFmtOut d)
  || 2 ≤ tAcc d
  || (tSr d && !(tFmtOut d == 0x01 || tFmtOut d == 0x02))
  || (tSplitEn d && (tAcc d != 0 || tFmtA d == 0x03))
  || tEpiOp d == 3
  || (tEpiOp d != 0 && !([0x07, 0x08, 0x09].contains (tEpiFmt d)))
  || f32Special (tScale d)
  || (fmtInt (tFmtOut d) && (tEpiOp d != 0 || tScale d != 0x3F800000))

def tileShape (d : Rec64) : Bool :=
  tM d == 0 || 4096 < tM d || tN d == 0 || 4096 < tN d || tK d == 0 || 65536 < tK d
  || (fmtMx (tFmtA d) && tK d % 32 != 0)
  || !strideOk (tAStride d) (alignUp (rowBytes (tFmtA d) (tK d)) 64)
  || !strideOk (tBStride d) (alignUp (rowBytes (tFmtB d) (tK d)) 64)
  || (fmtMx (tFmtA d) && !strideOk (tASStride d) (scaleLen (tK d)))
  || (fmtMx (tFmtB d) && !strideOk (tBSStride d) (scaleLen (tK d)))
  || (tDrain d && !strideOk (tCStride d) (rowBytes (tFmtOut d) (tN d)))
  || (tEpiOp d != 0 && !strideOk (tEStride d) (rowBytes (tEpiFmt d) (tN d)))
  || ((64 < tM d || 32 < tN d) && !(tAcc d == 0 && tDrain d))

def kernelKnown (k : Nat) : Bool :=
  [0x01, 0x02, 0x03, 0x04, 0x10, 0x11, 0x20, 0x21, 0x22, 0x23, 0x30, 0x40, 0x41, 0x42, 0x50, 0x60, 0x70, 0x71].contains k

def kernelReserved (d : Rec64) : Bool :=
  anySet d [(4, 13, 19), (8, 18, 14), (0x0C, 22, 10), (0x10, 18, 14), (0x14, 22, 10), (0x18, 18, 14), (0x1C, 22, 10),
    (0x20, 18, 14), (0x24, 22, 10), (0x34, 1, 31), (0x38, 0, 64)]
  || (kernelKnown (kOp d) &&
    ((kSrc1Use d == .unused && kSrc1 d != 0)
    || (kSrc1Use d != .array && kOp d != 0x71 && kSrc1Stride d != 0)
    || ((kAuxUse d).1 == .unused && kAux d != 0)
    || (kOp d == 0x01 && (kDst d != 0 || kDstStride d != 0))))

/-- Whether an FP32 parameter is a number greater than `n`. -/
def paramAbove (w : Word) (n : Nat) : Bool := (FNum.ofInt n).lt (f32 w)

def kernelEncoding (d : Rec64) : Bool :=
  let plain := fun f => [0x01, 0x02, 0x07, 0x08, 0x09].contains f
  !kernelKnown (kOp d)
  || (if kOp d = 0x60 then kIn d == 0 || 0x0A < kIn d || kOut d == 0 || 0x09 < kOut d
      else !plain (kIn d) || !plain (kOut d))
  || ((kOp d == 0x03 || kOp d == 0x70 || kOp d == 0x71) && (kIn d != 0x09 || kOut d != 0x09))
  || (kOp d == 0x04 && kIn d != 0x09)
  || f32Special (kP0 d) || f32Special (kP1 d)
  || ((kOp d == 0x10 || kOp d == 0x11) && !paramAbove (kP0 d) 0)
  || (kOp d == 0x30 && !paramAbove (kP0 d) 1)
  || (kSr d && !([0x01, 0x02, 0x04, 0x05, 0x06].contains (kOut d)))

def kernelShape (d : Rec64) : Bool :=
  kRows d == 0 || 4096 < kRows d || kCols d == 0 || 131072 < kCols d
  || (kOp d == 0x30 && (kP2 d % 2 != 0 || kP2 d < 2 || 512 < kP2 d || kCols d % kP2 d != 0))
  || (kOp d == 0x50 && (kP2 d == 0 || 64 < kP2 d || kCols d < kP2 d))
  || (kOp d == 0x71 && (kP2 d < 2 || 256 < kP2 d))
  || (kOp d == 0x60 && (fmtMx (kIn d) || fmtMx (kOut d)) && kCols d % 32 != 0)
  || !strideOk (kSrc0Stride d) (rowBytes (kIn d) (kInCols d))
  || ((kSrc1Use d == .array || kOp d == 0x71) && !strideOk (kSrc1Stride d) (rowBytes (kIn d) (kInCols d)))
  || (kOp d != 0x01 && !strideOk (kDstStride d) (rowBytes (kOut d) (kOutCols d)))

def moveReserved (d : Rec64) : Bool :=
  anySet d [(0, 8, 24), (4, 22, 10), (8, 18, 14), (0x0C, 28, 4), (0x10, 28, 4), (0x14, 13, 19), (0x18, 17, 15),
    (0x1C, 0, 288)]

def moveShape (d : Rec64) : Bool :=
  fRows d == 0 || 4096 < fRows d || fBytes d < 64 || 65536 < fBytes d || fBytes d % 64 != 0
  || !strideOk (fSramStride d) (fBytes d) || fColStride d % 64 != 0

/-- Range rule of R41 for the SRAM [lo, hi) open to the producer. -/
def opRange (d : Rec64) (lo hi : Nat) : Bool :=
  (opBases d).any (fun b => b % 64 != 0)
  || (opTouches d).any fun t => if t.col then columnEnd < t.hi else t.lo < lo || hi < t.hi

/-- The status of an op record that fails the check of R43, where [lo, hi) is the SRAM open to its producer. -/
def opStatus (d : Rec64) (lo hi : Nat) : Option Nat :=
  match opKind d with
  | 0x01 => firstStatus (tileReserved d) (tileEncoding d) (tileShape d) (opRange d lo hi)
  | 0x02 => firstStatus (kernelReserved d) (kernelEncoding d) (kernelShape d) (opRange d lo hi)
  | 0x03 => firstStatus (moveReserved d) false (moveShape d) (opRange d lo hi)
  | 0x04 => firstStatus (moveReserved d) false (moveShape d) (opRange d lo hi)
  | 0x05 =>
    if anySet d [(0, 16, 16), (4, 16, 16), (0x0C, 0, 416)] then some Status.badReserved
    else copStatus .op (cCop d) (cOperand d)
  | _ => some Status.badEncoding

end Sys2Proof.Machine
end

