-- ==== Sys2Proof/Machine/Records.lean ====
section
/-! DEFINITION. Completion record parts (R249, Table 8.4) and the images of what a record or a query reports. -/

namespace Sys2Proof.Machine

/-! ### Volumes (Tables 5.1 and 8.8) -/

def descVol (d : Rec64) : Nat := fld d 8 0 20

def VolState.code : VolState → Nat
  | .free => 0 | .live => 1 | .running => 2 | .parking => 3 | .parked => 4 | .shelving => 5 | .shelved => 6
  | .resuming => 7 | .faulted => 8

/-- The 128 bytes of a volume descriptor. -/
def volImage (x : Vol) : BitVec 1024 :=
  let b := fun (c : Bool) => if c then 1 else 0
  put 1024 0 0 4 x.state.code ||| put 1024 0 4 4 x.home ||| put 1024 0 8 2 x.parkFmt ||| put 1024 0 10 1 (b x.fm)
    ||| put 1024 0 11 1 (b x.retiring) ||| put 1024 0 16 8 x.faultCause ||| put 1024 0 24 8 x.pfv
    ||| put 1024 4 0 16 x.plan ||| put 1024 4 16 12 x.place.toNat ||| put 1024 8 0 32 x.tokens.toNat
    ||| put 1024 0x0C 0 32 x.window.toNat ||| put 1024 0x10 0 20 x.fmLink.toNat ||| put 1024 0x10 20 1 (b x.linked)
    ||| put 1024 0x14 0 29 x.root ||| put 1024 0x18 0 32 x.sgen.toNat ||| put 1024 0x1C 0 32 x.ngen.toNat
    ||| put 1024 0x20 0 64 x.lastElapsed.toNat ||| put 1024 0x28 0 32 x.lastPuc.toNat
    ||| put 1024 0x2C 0 32 x.ckpt.toNat ||| put 1024 0x30 0 7 x.dirty ||| put 1024 0x30 7 1 (b x.wbBusy)
    ||| put 1024 0x30 8 12 x.nearHalls.toNat ||| put 1024 0x34 0 19 x.leaves ||| put 1024 0x38 0 19 x.nearLeaves
    ||| put 1024 0x3C 0 16 x.links ||| put 1024 0x3C 16 16 x.liveLinks ||| put 1024 0x40 0 29 x.reftab
    ||| put 1024 0x44 0 32 x.ewma ||| put 1024 0x48 0 16 x.resumes ||| put 1024 0x50 0 64 x.swTag.toNat

/-- Volume completion record part. -/
def volPart (s : State) (v count : Nat) : Rec32 :=
  let x := s.vol v
  put 256 0x10 0 20 v ||| put 256 0x10 20 4 x.state.code ||| put 256 0x10 24 4 x.home
    ||| put 256 0x14 0 32 x.tokens.toNat ||| put 256 0x18 0 32 count ||| put 256 0x1C 0 32 x.ckpt.toNat

/-! ### Steps (Table 6.6) -/

/-- The part of a step refused before it begins. -/
def refusedStep (s : State) (v status : Nat) (unit : Nat × Nat × Bool) : Rec32 :=
  let u := if status = Status.unitFenced then unit else (0, 0, false)
  put 256 0x10 0 32 (s.vol v).tokens.toNat ||| put 256 0x1C 0 4 u.1 ||| put 256 0x1C 4 8 (if u.2.2 then 0 else u.2.1)
    ||| put 256 0x1C 24 1 (if u.2.2 then 1 else 0)

/-! ### Clasps (Table 7.10) -/

def ClaspType.code : ClaspType → Nat
  | .none => 0 | .counter => 1 | .flag => 2 | .lock => 3

/-- CLASP_OP record part (Table 7.10). -/
def claspPart (old : Word) (t : ClaspType) : Rec32 := put 256 0x10 0 32 old.toNat ||| put 256 0x14 0 2 t.code

/-! ### Plans (Table 8.14) -/

/-- Where and why a plan is refused (Table 8.14). -/
structure PlanFail where
  status : Nat
  index  : Nat := 0xFFFFFFFF
  hall   : Nat := 0
  sw     : Nat := 0
  entry  : Nat := 0xFFFF
  need   : Nat := 0
deriving DecidableEq, Repr

/-- Plan completion record part (Table 8.14). -/
def planPart (plan : Nat) (f : PlanFail) : Rec32 :=
  put 256 0x10 0 16 plan ||| put 256 0x14 0 32 f.index ||| put 256 0x18 0 4 f.hall ||| put 256 0x18 4 8 f.sw
    ||| put 256 0x18 16 16 f.entry ||| put 256 0x1C 0 32 f.need

/-! ### DMA (Table 9.6) -/

/-- A channel's set-up at cold bring-up (Table 9.13). -/
def chanReset (c : Nat) : Chan := { mode := 24 ≤ c, prio := 28 ≤ c, en := 24 ≤ c }

def State.chan (s : State) (h c : Nat) : Chan := sget (s.hall h).chans (chanReset c) c

/-- STATE codes (Table 9.7). -/
def ChState.code : ChState → Nat
  | .idle => 0 | .loading => 1 | .running => 2 | .waiting => 3 | .draining => 4 | .stopping => 5

/-- DMA_START record part. -/
def dmaPart (bytes idx ch : Nat) (setB : Bool) (space side : Nat) : Rec32 :=
  put 256 0x10 0 32 (min bytes (2 ^ 32 - 1)) ||| put 256 0x14 0 12 idx ||| put 256 0x14 12 5 ch
    ||| put 256 0x14 17 1 (if setB then 1 else 0) ||| put 256 0x18 0 3 space ||| put 256 0x18 3 1 side

/-- DMA_STOP record part. -/
def stopPart (n found : Nat) : Rec32 := put 256 0x10 0 5 n ||| put 256 0x10 5 3 found

/-! ### FENCE_UNIT (Table 14.6) -/

/-- FENCE_UNIT record part (Table 14.6). -/
def fencePart (s : State) (found : Bool) : Rec32 :=
  put 256 0x10 0 32 s.porter.res.seq.toNat ||| put 256 0x14 0 16 s.porter.replace.toNat
    ||| put 256 0x14 16 1 (if s.porter.replace = 0 then 0 else 1) ||| put 256 0x18 0 1 (if found then 1 else 0)

/-! ### Descriptors that end before their work begins -/

/-- The part of a descriptor of hall `h` that ends before its work begins, with `found` the state of a DMA_STOP's channel (R249,
Table 8.4). A step names the unit only with UNIT_FENCED, which is then the whole hall (R485). -/
def refusedPart (s : State) (h : Nat) (d : Rec64) (status found : Nat) : Rec32 :=
  let o := descOpcode d
  let n := fld d 8 0 5
  if o = 0x01 ∨ o = 0x02 then planPart 0 { status := status }
  else if 0x10 ≤ o ∧ o ≤ 0x19 ∨ o = 0x23 then volPart s (descVol d) 0
  else if o = 0x20 ∨ o = 0x21 ∨ o = 0x22 then refusedStep s (descVol d) status (h, 0, true)
  else if o = 0x31 then claspPart 0 (s.clasp (fld d 0x0C 0 16)).typ
  else if o = 0x40 then dmaPart 0 0 n false 0 0
  else if o = 0x41 then stopPart n found
  else if o = 0x50 then fencePart s false
  else 0

end Sys2Proof.Machine
end

