-- ==== Sys2Proof/Machine/Rings.lean ====
section
/-! DEFINITION. Doorbells, ring set-up and the claiming of descriptors (chapter 8). -/

namespace Sys2Proof.Machine

/-! ### Doorbells (R237 to R240) -/

def State.sq (s : State) (h i : Nat) : SubRing := sget (s.hall h).sq {} i
def State.cq (s : State) (h i : Nat) : CompRing := sget (s.hall h).cq {} i
def State.setSq (s : State) (h i : Nat) (r : SubRing) : State := s.modHall h fun x => { x with sq := sset x.sq i r }
def State.setCq (s : State) (h i : Nat) (r : CompRing) : State := s.modHall h fun x => { x with cq := sset x.cq i r }

/-- A doorbell write that R238 ignores: not one aligned 8-byte write, or with a reserved half that is not zero. -/
def doorbellBad (aligned8 : Bool) (value : Dword) : Bool := !aligned8 || bits value 63 32 != 0

/-- R239. -/
def sqTailOk (r : SubRing) (t : Word) : Bool :=
  (t - r.claimed).toNat ≤ r.size && (t - r.tail).toNat < 2 ^ 31

/-- R240. -/
def cqHeadOk (r : CompRing) (t : Word) : Bool := (t - r.head).toNat ≤ (r.tail - r.head).toNat

/-- SQ_TAIL_WRITE (R238, R239). -/
def execSqTailWrite (h : HallId) (ring : SqId) (aligned8 : Bool) (value : Dword) (s : State) : Result :=
  .next <| s.hallWrite h fun s =>
    if doorbellBad aligned8 value then s.modRegs h fun g => { g with badWrite := true }
    else
      let r := s.sq h ring
      let t : Word := value.truncate 32
      if sqTailOk r t then s.setSq h ring { r with tail := t } else s.setSq h ring { r with err := true }

/-- CQ_HEAD_WRITE (R238, R240). -/
def execCqHeadWrite (h : HallId) (ring : CqId) (aligned8 : Bool) (value : Dword) (s : State) : Result :=
  .next <| s.hallWrite h fun s =>
    if doorbellBad aligned8 value then s.modRegs h fun g => { g with badWrite := true }
    else
      let r := s.cq h ring
      let t : Word := value.truncate 32
      if cqHeadOk r t then s.setCq h ring { r with head := t } else s.setCq h ring { r with err := true }

/-! ### Set-up (R241, R464) -/

/-- A submission ring after a write to DOOR_SQ_CFG. -/
def SubRing.cfg (r : SubRing) (w : Word) : SubRing :=
  let size := bits w 4 0
  let en := bitAt w 6
  if size < 4 || 16 < size || (r.en && en && size != r.log2) then { r with err := true }
  else
    let r := { r with log2 := size, prio := bitAt w 5, err := r.err && !bitAt w 7 }
    if en && !r.en then { r with en := true, tail := 0, claimed := 0 } else { r with en := en }

/-- A completion ring after a write to DOOR_CQ_CFG. HEAD restarts at zero with the other counts (log entry 11). -/
def CompRing.cfg (r : CompRing) (w : Word) : CompRing :=
  let size := bits w 4 0
  let en := bitAt w 6
  if size < 4 || 16 < size || (r.en && en && size != r.log2) || (r.en && !en && r.res != 0) then { r with err := true }
  else
    let r := { r with log2 := size, irqCount := bits w 15 8, irqDelay := bits w 31 16, err := r.err && !bitAt w 7 }
    if en && !r.en then { r with en := true, tail := 0, head := 0, unsig := 0, oldest := none } else { r with en := en }

/-- A ring base with its low 32 bits, or its high 8, written. -/
def baseLo (b : Nat) (w : Word) : Nat := b / 2 ^ 32 * 2 ^ 32 + bits w 31 12 * 4096
def baseHi (b : Nat) (w : Word) : Nat := bits w 7 0 * 2 ^ 32 + b % 2 ^ 32

/-- A write to one of a ring's set-up registers, on the ring its selector names. -/
def ringCfg (s : State) (h : Nat) (reg : RingReg) (w : Word) : State :=
  let i := (s.hall h).regs.sqSel
  let j := (s.hall h).regs.cqSel
  let r := s.sq h i
  let q := s.cq h j
  match reg with
  | .sqBaseLo => s.setSq h i (if r.en then { r with err := true } else { r with base := baseLo r.base w })
  | .sqBaseHi => s.setSq h i (if r.en then { r with err := true } else { r with base := baseHi r.base w })
  | .sqCfg => s.setSq h i (r.cfg w)
  | .cqBaseLo => s.setCq h j (if q.en then { q with err := true } else { q with base := baseLo q.base w })
  | .cqBaseHi => s.setCq h j (if q.en then { q with err := true } else { q with base := baseHi q.base w })
  | .cqCfg => s.setCq h j (q.cfg w)
  | .cqVec => s.setCq h j { q with vector := bits w 15 0 }

/-- RING_CFG_WRITE (R241). -/
def execRingCfgWrite (h : HallId) (r : RingReg) (w : Word) (s : State) : Result :=
  .next <| s.hallWrite h fun s => ringCfg s h r w

/-! ### Claiming (R243 to R246) -/

/-- The descriptor at the head of a submission ring. -/
def State.headDesc (s : State) (h i : Nat) : Rec64 :=
  let r := s.sq h i
  s.record64 .park (r.base + r.claimed.toNat % r.size * 64)

/-- A WATCH that waits does not count toward the 1,024 claims of a hall (R391). -/
def ClaimStage.isWatch : ClaimStage → Bool
  | .watch _ => true
  | _ => false

/-- Descriptors that a hall has claimed and whose records are not written (R243). -/
def State.claimCount (s : State) (h : Nat) : Nat :=
  (s.claims.filter fun p => p.2.hall.val == h && !p.2.stage.isWatch).length

/-- Whether every older descriptor of a ring has its record written. -/
def State.ringDone (s : State) (h i : Nat) : Bool := !s.claims.any fun p => p.2.hall.val == h && p.2.sq.val == i

/-- Whether the head descriptor of a ring can be claimed, or consumed because its completion ring is disabled (R243). -/
def State.claimable (s : State) (h i : Nat) : Bool :=
  let r := s.sq h i
  let d := s.headDesc h i
  let q := s.cq h (descCq d)
  r.en && r.tail != r.claimed &&
    (!q.en || ((q.tail - q.head).toNat + q.res < q.size && s.claimCount h < 1024 && (!descFence d || s.ringDone h i)))

/-- The ring that a hall claims from next (R244): the high class first, round robin within a class. -/
def State.claimRing (s : State) (h : Nat) : Option Nat :=
  let x := s.hall h
  match rrNext 256 x.lastHigh fun i => (s.sq h i).prio && s.claimable h i with
  | some i => some i
  | none => rrNext 256 x.lastLow fun i => !(s.sq h i).prio && s.claimable h i

/-- Opcodes of Table 8.4. -/
def knownOpcode (o : Nat) : Bool :=
  [0x01, 0x02, 0x10, 0x11, 0x12, 0x13, 0x14, 0x15, 0x16, 0x17, 0x18, 0x19, 0x1A, 0x20, 0x21, 0x22, 0x23, 0x30, 0x31,
    0x3F, 0x40, 0x41, 0x50].contains o

/-- Who writes the record that a fenced hall's ring unit gives a descriptor: the porter for what it performs (R249). -/
def writerOf (h op : Nat) : Nat := if op = 0x01 ∨ op = 0x02 ∨ op = 0x50 then 15 else h

/-- A descriptor as it is claimed: a DMA_STOP with the state of its channel, a VOL_QUERY with its volume's descriptor. -/
def claimOf (s : State) (h : HallId) (i : SqId) (head : Word) (d : Rec64) : Claim :=
  { hall := h, sq := i, sqHead := head, desc := d
    found := if descOpcode d = 0x41 then (s.chan h (fld d 8 0 5)).state.code else 0
    image := if descOpcode d = 0x12 then volImage (s.vol (descVol d)) else 0 }

/-- Descriptor `d`, at the head of ring `i` as `r` holds it, is claimed: its number of completion records is reserved; a
descriptor whose completion ring is disabled is consumed. -/
def takeDesc (s : State) (h : HallId) (i : SqId) (r : SubRing) (d : Rec64) : State :=
  let q := descCq d
  let r' := { r with claimed := r.claimed + 1 }
  if !(s.cq h q).en then (s.setSq h i { r' with err := true }).modRegs h fun g => { g with lostCq := true }
  else
    let c := s.nextClaim
    let s := (s.setSq h i r').setCq h q { s.cq h q with res := (s.cq h q).res + 1 }
    let s := { s with nextClaim := c + 1
                      claims := sset s.claims c (claimOf s h i r'.claimed d) }
    let end_ := fun (st : Nat) => s.complete c (writerOf h (descOpcode d)) st (refusedPart s h d st (claimOf s h i r'.claimed d).found)
    if s.hallFenced h && descOpcode d != 0x3F then end_ Status.unitFenced
    else if fld d 0 16 16 != 0 then end_ Status.badReserved
    else if !knownOpcode (descOpcode d) then s.finish c Status.badEncoding
    else s

/-- Takes the head descriptor of ring `i`. -/
def takeHead (s : State) (h : HallId) (i : SqId) : State :=
  let r := s.sq h i
  takeDesc (s.modHall h fun x => if r.prio then { x with lastHigh := i.val } else { x with lastLow := i.val }) h i r
    (s.headDesc h i)

/-- Whether every hall has stopped claiming: an orderly power-down or DRAM_LOST is under way (R415, R430). -/
def State.claimsStopped (s : State) : Bool := s.porter.power.phase == .powerDown || s.porter.cool.state == .dramLost

/-- CLAIM_DESCRIPTOR (R243 to R246). A compute reset and a warm reset stop claims (R242, Table 13.8). -/
def execClaimDescriptor (h : HallId) (s : State) : Result :=
  .next <|
    if s.running && !s.claimsStopped && s.hallNet h && (s.hallUp h || s.hallFenced h) then
      match s.claimRing h with
      | some i => takeHead s h (Fin.ofNat 256 i)
      | none => s
    else s

/-- IRQ_DELAY_EXPIRE (R250): the oldest unsignalled record is IRQ_DELAY µs old. -/
def execIrqDelayExpire (h : HallId) (ring : CqId) (s : State) : Result :=
  .next <|
    let q := s.cq h ring
    match q.oldest with
    | some t =>
      if q.irqDelay ≠ 0 ∧ s.passed t q.irqDelay then
        (s.setCq h ring { q with unsig := 0, oldest := none }).emit (.msi q.vector)
      else s
    | none => s

/-! ### Descriptors in general -/

/-- Whether a record is zero from bit `lo` of the word at byte `off` up to the end. -/
def zeroFrom (d : Rec64) (off lo : Nat) : Bool := d.toNat >>> (8 * off + lo) == 0

/-- Runs `k` on claim `c` when it holds a descriptor of opcode `op` that has not begun its work. -/
def withClaim (s : State) (c op : Nat) (k : Claim → State) : State :=
  match s.claim? c with
  | none => s
  | some x =>
    if descOpcode x.desc == op && (x.stage == .claimed || x.stage == .waiting) then k x else s

/-- NOP (R246): no body. One that a compute reset meets waits for its HALL_RESET (R242). -/
def execNop (c : Nat) (s : State) : Result :=
  .next <| withClaim s c 0x3F fun x =>
    if (s.hall x.hall).state = .computeReset then s
    else if zeroFrom x.desc 8 0 then s.finish c Status.ok else s.finish c Status.badReserved

end Sys2Proof.Machine
end

