-- ==== Sys2Proof/Machine/NetOps.lean ====
section
/-! DEFINITION. The package network's outputs, units, weights and queues (Tables 10.2 and 10.3). -/

namespace Sys2Proof

/-! ### Packets and outputs -/

/-- Bytes of data of a packet. -/
def PktBody.len : PktBody → Nat
  | .read _ _ => 0
  | .write _ b _ => b.length
  | .answer b _ => b.length
  | .unitFenced => 0
  | .targetResetting => 0

/-- Size of a packet: a header flit and its data flits (R287). -/
def Packet.size (p : Packet) : Nat := 64 + Machine.ceilDiv p.body.len 64 * 64

def MeshPort.number : MeshPort → Nat
  | .east => 0 | .west => 1 | .north => 2 | .south => 3 | .local => 4

/-- Numbers of a hall's arbiter outputs; the two ring outputs come last. -/
def NetOut.number : NetOut → Nat
  | .router sw p => sw.val * 5 + p.number
  | .injection sw => 1280 + sw.val
  | .gallery g => 1536 + g.val
  | .hallBlock => 1552
  | .host => 1553
  | .ring => 1554
  | .fabric => 1555
  | .hostModule => 1556

/-- Units of the compute domain (Table 13.1). -/
def NetUnit.compute : NetUnit → Bool
  | .stairwell _ => true
  | .dma => true
  | .usher _ => true
  | .clasp => true
  | _ => false

/-- Units of the host die. -/
def NetUnit.onHost : NetUnit → Bool
  | .hostGate => true
  | .core _ => true
  | .porter => true
  | .parkCtl _ => true
  | .portB => true
  | _ => false

end Sys2Proof

namespace Sys2Proof.Machine

/-- Output number of a ring link. -/
def ringOut (cw : Bool) : Nat := if cw then 1557 else 1558

/-- Weight of a request of a unit of hall `h` (Table 10.3). -/
def unitWeight (g : HallRegs) : NetUnit → Nat
  | .stairwell _ => g.wSw
  | .dma => g.wDma
  | .vestibule => g.wVest
  | .usher _ => g.wUsher
  | .clasp => g.wClasp
  | .core _ => 1
  | _ => 16

/-- Inputs of the gate block's crossbar after the 16 galleries, and of a router (Table 10.2). -/
abbrev inHallBlock : Nat := 16
abbrev inRing : Nat := 17
abbrev inHost : Nat := 18
abbrev inFabric : Nat := 19
abbrev inOwn : Nat := 0

/-- A packet put at the end of an output's queue. -/
def netPush (s : State) (h : Nat) (out : Nat) (p : NetPkt) : State :=
  s.modHall h fun x => { x with mesh := smod x.mesh {} out fun a => { a with queue := a.queue ++ [p] } }

end Sys2Proof.Machine
end

