-- ==== Sys2Proof/Machine/FabOps.lean ====
section
/-! DEFINITION. Fabric packets: fields, CRC, the choice of a route, sending through a port and the sending sequences
(R310 to R325). -/

namespace Sys2Proof.Machine

/-! ### Headers (Table 11.3) -/

abbrev Ptype.data : Nat := 1
abbrev Ptype.ack : Nat := 2
abbrev Ptype.mgmt : Nat := 3

def pkPtype (d : Rec32) : Nat := fld d 0 0 8
def pkJpv (d : Rec32) : Nat := fld d 0 8 8
def pkLevel (d : Rec32) : Nat := fld d 0 16 3
def pkPoison (d : Rec32) : Bool := fld d 0 19 1 == 1
def pkStart (d : Rec32) : Bool := fld d 0 20 1 == 1
def pkDst (d : Rec32) : Nat := fld d 4 0 20
def pkSrc (d : Rec32) : Nat := fld d 8 0 20
def pkStream (d : Rec32) : Nat := fld d 0x0C 0 6
def pkSeq (d : Rec32) : Word := BitVec.ofNat 32 (fld d 0x10 0 32)
def pkLen (d : Rec32) : Nat := fld d 0x14 0 12
def pkAckseq (d : Rec32) : Word := BitVec.ofNat 32 (fld d 0x18 0 32)
def pkLimit (d : Rec32) : Word := BitVec.ofNat 32 (fld d 0x1C 0 32)

/-- Module and hall of a node (R310). -/
def nodeModule (n : Nat) : Nat := n / 16
def nodeHall (n : Nat) : Nat := n % 16

/-- A header with LEVEL and JPV replaced. -/
def withLevel (d : Rec32) (l : Nat) : Rec32 := (d &&& ~~~(put 256 0 16 3 7)) ||| put 256 0 16 3 l
def withJpv (d : Rec32) (v : Nat) : Rec32 := (d &&& ~~~(put 256 0 8 8 255)) ||| put 256 0 8 8 v

/-! ### CRC (R317) -/

/-- One bit of the IEEE 802.3 CRC-32, reflected. -/
def crcBit (c : Nat) : Nat := if c % 2 = 1 then (c / 2) ^^^ 0xEDB88320 else c / 2

def crcByte (c : Nat) (b : Byte) : Nat := (List.range 8).foldl (fun x _ => crcBit x) (c ^^^ b.toNat)

/-- CRC-32 of a byte string. -/
def crc32 (l : List Byte) : Word := BitVec.ofNat 32 ((l.foldl crcByte 0xFFFFFFFF) ^^^ 0xFFFFFFFF)

/-- CRC of a packet, with LEVEL taken as zero. -/
def packetCrc (hdr : Rec32) (payload : List Byte) : Word := crc32 (leBytes 32 (withLevel hdr 0).toNat ++ payload)

def mkPacket (hdr : Rec32) (payload : List Byte) : FabPacket :=
  { hdr := hdr, payload := payload, crc := packetCrc hdr payload, pad := 0 }

/-- Reserved fields of a header, by packet type. -/
def headerBad (d : Rec32) : Bool :=
  anySet d [(0, 21, 11), (4, 20, 12), (8, 20, 12), (0x0C, 6, 26), (0x14, 12, 20)]
  || match pkPtype d with
    | 1 => anySet d [(0x18, 0, 32), (0x1C, 0, 32)]
    | 2 => anySet d [(0x10, 0, 32), (0, 20, 1)]
    | _ => anySet d [(0x0C, 0, 6), (0x10, 0, 32), (0x18, 0, 32), (0x1C, 0, 32), (0, 20, 1)]

/-! ### Ports and credits (R321 to R325) -/

def State.port (s : State) (h : Nat) : Port := (s.hall h).port
def State.modPort (s : State) (h : Nat) (f : Port → Port) : State := s.modHall h fun x => { x with port := f x.port }

/-- A hall's FAB_DROP rises. -/
def fabDrop (s : State) (h : Nat) : State := s.modPort h fun p => { p with drops := p.drops + 1 }

/-- Node of a hall of this module. -/
def State.nodeOf (s : State) (h : Nat) : Nat := s.porter.fab.moduleId * 16 + h

/-- Virtual channel of a packet: its class and level. -/
def vcOf (d : Rec32) : Nat := (if pkPtype d = 1 then 0 else if pkPtype d = 2 then 1 else 2) * 8 + pkLevel d

/-- 64-byte units of a packet: header, payload and trailer. -/
def pktUnits (p : FabPacket) : Nat := ceilDiv (40 + p.payload.length) 64

/-- Units of the peer's 1 MiB of link buffers: 4 KiB reserved to each of the 24 virtual channels, the rest shared (R307,
R322). -/
def vcReserve : Nat := 64
def linkShared : Nat := 16384 - 24 * vcReserve

/-- Credits that a virtual channel can use: what is left of its own and of the shared buffers. -/
def Port.credit (p : Port) (vc : Nat) : Nat :=
  let beyond := (p.used.map fun q => q.2 - vcReserve).sum
  (vcReserve - sget p.used 0 vc) + (linkShared - beyond)

def Port.active (p : Port) : Bool := p.state == .active

/-- Sends a packet on a port's link: it takes credits, a link sequence number and a place in the replay buffer. -/
def linkSend (s : State) (h : HallId) (p : FabPacket) : State :=
  let x := s.port h
  let vc := vcOf p.hdr
  let p := { p with link := none }
  let y := { x with used := sset x.used vc (sget x.used 0 vc + pktUnits p), linkNext := x.linkNext + 1
                    replay := x.replay ++ [{ linkSeq := x.linkNext, pkt := p }] }
  (s.modPort h fun _ => y).emit (.fab h { p with link := some { seq := x.linkNext, ok := true } })

/-- What a hall's link receives (R321): only the packet that is awaited is handed on, once; its buffer is free again. One with a
codeword in error or a failed link check, or one beyond it, is asked for again. -/
def linkIn (s : State) (h : HallId) (p : FabPacket) (k : State → State) : State :=
  match p.link with
  | none => k s
  | some t =>
    let x := s.port h
    if x.state == .down || x.state == .training || x.state == .retrain then s
    else if t.ok && t.seq == x.rxNext then
      k (s.modPort h fun y => { y with rxNext := y.rxNext + 1, rxAsked := false
                                       rxFree := smod y.rxFree 0 (vcOf p.hdr) fun n => n + pktUnits p })
    else if t.ok && (t.seq < x.rxNext || x.rxAsked) then s
    else (s.modPort h fun y => { y with rxAsked := true }).emit (.linkAsk h x.rxNext)

/-- A packet handed to a port: it goes out when its channel has credits and nothing of the channel waits before it. -/
def portSend (s : State) (h : HallId) (p : FabPacket) : State :=
  let x := s.port h
  let vc := vcOf p.hdr
  if pktUnits p ≤ x.credit vc && !x.waitq.any fun q => vcOf q.hdr == vc then linkSend s h p
  else s.modPort h fun x => { x with waitq := x.waitq ++ [p] }

/-- The packets of a port's queue that credits now admit: ACK and MGMT before DATA, each channel in order. -/
def portDrain : Nat → State → HallId → State
  | 0, s, _ => s
  | n + 1, s, h =>
    let x := s.port h
    let ok := fun (p : FabPacket) => pktUnits p ≤ x.credit (vcOf p.hdr)
      && (x.waitq.find? fun q => vcOf q.hdr == vcOf p.hdr) == some p
    let pick := match x.waitq.find? fun p => pkPtype p.hdr != 1 && ok p with
      | some p => some p
      | none => x.waitq.find? ok
    match pick with
    | none => s
    | some p => portDrain n (linkSend (s.modPort h fun x => { x with waitq := x.waitq.erase p }) h p) h

/-- A packet out of the port of hall `h`: one level up, with the version of the link (R320, R323). Its CRC covers the
header as it leaves (log entry 23). -/
def fabOut (s : State) (h : HallId) (p : FabPacket) : State :=
  if !(s.port h).active then fabDrop s h
  else if pkLevel p.hdr = 7 then fabDrop s h
  else
    let ok := p.crc == packetCrc p.hdr p.payload
    let hdr := withJpv (withLevel p.hdr (pkLevel p.hdr + 1)) (s.port h).jpv
    portSend s h { p with hdr := hdr, crc := if ok then packetCrc hdr p.payload else p.crc }

/-- Ring hops from one hall to another in the direction of RING_ROUTE. -/
def ringHops (s : State) (a b : Nat) : Nat :=
  if a = b then 0 else if (s.hall a).route.getLsbD b then (b + 12 - a) % 12 else (a + 12 - b) % 12

/-- The route table's entry of a module. -/
def State.routeOf (s : State) (m : Nat) : Word := sget s.porter.fab.routes 0 m

/-- Halls of a 12-bit field whose ports are ACTIVE. -/
def activeIn (s : State) (w : Word) (lo : Nat) : List Nat :=
  (List.range 12).filter fun h => bitAt w (lo + h) && (s.port h).active

/-- The best of a set of halls (R325): most DATA credits at the next level, then fewest hops, then the lower number. -/
def bestPort (s : State) (from_ level : Nat) (l : List Nat) : Option Nat :=
  let c := fun h => (s.port h).credit (level + 1)
  l.foldl (fun b h =>
    match b with
    | none => some h
    | some g => if c g < c h ∨ (c h = c g ∧ ringHops s from_ h < ringHops s from_ g) then some h else b) none

/-- A fabric packet put on the module's ring at hall `h`, for hall `g`, out of whose port it leaves when `leave` holds: weight
16, in a class of its own with a channel for each hop level (R322, R325). -/
def fabRing (s : State) (h g : HallId) (p : FabPacket) (leave : Bool) : State :=
  let q : Packet := { id := 0, srcHall := h, src := .fabricGate, dstHall := g, dst := .fabricGate, cls := .request,
                      body := .write 0 p.payload false }
  netPush s h NetOut.ring.number
    { pkt := q, weight := 16, vc := pkLevel p.hdr, inp := inFabric, fab := some ({ p with link := none }, leave) }

/-- R325 at hall `h`. -/
def fabSend (s : State) (h : HallId) (p : FabPacket) : State :=
  let d := pkDst p.hdr
  if nodeModule d = 0xFFFF ∨ (12 ≤ nodeHall d ∧ nodeHall d ≤ 14) then fabDrop s h
  else if nodeModule d = s.porter.fab.moduleId then
    if nodeHall d = h.val ∨ nodeHall d = 15 then s.emit (.fabLocal (nodeHall d) { p with link := none })
    else fabRing s h (Fin.ofNat 12 (nodeHall d)) p false
  else if pkLevel p.hdr = 7 then fabDrop s h
  else
    let e := s.routeOf (nodeModule d)
    let l := activeIn s e 0
    match bestPort s h (pkLevel p.hdr) (if l.isEmpty then activeIn s e 12 else l) with
    | none => fabDrop s h
    | some g => if g = h.val then fabOut s h p else fabRing s h (Fin.ofNat 12 g) p true

/-! ### Sending sequences (R314 to R316) -/

def txKey (node stream : Nat) : Nat := node * 64 + stream
def State.tx (s : State) (h key : Nat) : TxStream := sget (s.hall h).tx {} key
def State.setTx (s : State) (h key : Nat) (t : TxStream) : State := s.modHall h fun x => { x with tx := sset x.tx key t }

/-- The DATA packet of a kept packet. -/
def dataPacket (s : State) (h key : Nat) (t : TxPkt) : FabPacket :=
  let hdr : Rec32 := put 256 0 0 8 1 ||| put 256 0 19 1 (if t.poison then 1 else 0)
    ||| put 256 0 20 1 (if t.start then 1 else 0) ||| put 256 4 0 20 (key / 64) ||| put 256 8 0 20 (s.nodeOf h)
    ||| put 256 0x0C 0 6 key ||| put 256 0x10 0 32 t.seq.toNat ||| put 256 0x14 0 12 t.payload.length
  mkPacket hdr t.payload

/-- Bytes of packets that a hall keeps until they are acknowledged. -/
def txPool (s : State) (h : Nat) : Nat :=
  ((s.hall h).tx.map fun p => (p.2.pkts.map fun q => q.payload.length + 40).sum).sum

/-- A sequence as its next packet finds it: one that was stopped starts again once its earlier packets are answered (R314,
log entry 24). -/
def TxStream.now (t : TxStream) : TxStream := if t.stopped && t.pkts.isEmpty then {} else t

/-- Whether a pair's window and the transmit pool admit one more packet. Before any LIMIT is known, only the packet that
carries START is admitted (log entry 24). -/
def txAdmits (s : State) (h key : Nat) : Bool :=
  let t := (s.tx h key).now
  txPool s h + 2088 ≤ 4 * 2 ^ 20 && !t.stopped &&
    match t.limit with
    | none => t.start
    | some l => (l - t.next).toNat < 2 ^ 31

/-- One burst sent as a DATA packet (R314). -/
def txData (s : State) (h : HallId) (ch : Option ChId) (claim : Option Nat) (key : Nat) (bytes : List Byte) (poison : Bool) :
    State :=
  let t := (s.tx h key).now
  let p : TxPkt := { seq := t.next, payload := bytes, poison := poison, start := t.start, sent := s.now, sends := 1,
                     ch := ch, claim := claim }
  let s := s.setTx h key { t with next := t.next + 1, start := false, pkts := t.pkts ++ [p] }
  fabSend s h (dataPacket s h key p)

/-- A device's sequence given up: the next packet of the pair carries START and SEQ 0. -/
def txRestart (s : State) (h key : Nat) : State := s.setTx h key {}

/-- After a MOVE to a pair has ended with a fault or a stop, the pair's sequence starts again with the next packet (R314); the
packets that it has sent stay until they are answered (R309, R315). -/
def txStop (s : State) (h key : Nat) : State := s.setTx h key { s.tx h key with stopped := true }

/-- Pairs to which a channel has packets unacknowledged. -/
def txPairs (s : State) (h : Nat) (ch : ChId) : List Nat :=
  skeys (s.hall h).tx fun _ t => t.pkts.any fun q => q.ch == some ch

/-- Bytes of the DATA packets of a hall that `sel` selects and that no ACK covers. -/
def txBytes (s : State) (h : Nat) (sel : TxPkt → Bool) : Nat :=
  ((s.hall h).tx.map fun p => ((p.2.pkts.filter sel).map fun q => q.payload.length).sum).sum

/-- Bytes of a channel's DATA packets that no ACK covers. -/
def txUnacked (s : State) (h : Nat) (ch : ChId) : Nat := txBytes s h fun q => q.ch == some ch

/-- A channel's packets lose their channel, as it stops without a record (R273): they stay until they are answered. -/
def txOrphan (s : State) (h : Nat) (ch : ChId) : State :=
  let free := fun (q : TxPkt) => if q.ch == some ch then { q with ch := none, claim := none } else q
  s.modHall h fun x => { x with tx := x.tx.map fun p => (p.1, { p.2 with pkts := p.2.pkts.map free }) }

/-! ### Receive streams (R313 to R315) -/

def State.rx (s : State) (h i : Nat) : RxStream := sget (s.hall h).rx {} i
def State.setRx (s : State) (h i : Nat) (r : RxStream) : State := s.modHall h fun x => { x with rx := sset x.rx i r }

/-- LIMIT of a stream: the last SEQ read plus CREDITS. -/
def RxStream.limit (r : RxStream) : Word := r.read - 1 + BitVec.ofNat 32 r.credits

/-- Sends an ACK of a stream. -/
def sendAck (s : State) (h : HallId) (i : Nat) : State :=
  let r := s.rx h i
  let hdr : Rec32 := put 256 0 0 8 2 ||| put 256 4 0 20 r.src.toNat ||| put 256 8 0 20 (s.nodeOf h) ||| put 256 0x0C 0 6 i
    ||| put 256 0x18 0 32 (r.got - 1).toNat ||| put 256 0x1C 0 32 r.limit.toNat
  fabSend (s.setRx h i { r with unacked := 0, unackAt := none }) h (mkPacket hdr [])

end Sys2Proof.Machine
end

