-- ==== Sys2Proof/Machine/Queues.lean ====
section
/-! DEFINITION. Op queues, strands and accumulator sets (Tables 2.5, 2.11 and 2.12). -/

namespace Sys2Proof.Machine

def State.queue (s : State) (h sw q : Nat) : OpQueue := sget (s.stair h sw).queues {} q
def State.setQueue (s : State) (h sw q : Nat) (x : OpQueue) : State :=
  s.modStair h sw fun y => { y with queues := sset y.queues q x }
def State.accSet (s : State) (h sw a : Nat) : AccSet := sget (s.stair h sw).acc {} a
def State.setAcc (s : State) (h sw a : Nat) (x : AccSet) : State :=
  s.modStair h sw fun y => { y with acc := sset y.acc a x }

/-- Whether a stairwell runs: enabled and not in a compute reset. -/
def State.swRuns (s : State) (h sw : Nat) : Bool := s.swEnabled h sw && !(s.stair h sw).resetting

/-! ### Chains (Tables 2.5 and 2.6) -/

/-- Ops of a queue in flight that use accumulator set `a`, oldest first. -/
def OpQueue.tilesOn (x : OpQueue) (a : Nat) : List Strand :=
  x.strands.filter fun t => opKind t.op == 0x01 && tSet t.op == a && t.state != .halted

/-- Those of the chain that an OPEN set holds: up to the next START. -/
def firstChain : List Strand → List Strand
  | [] => []
  | t :: l => t :: l.takeWhile fun u => tAcc u.op != 0

/-- Whether the DRAIN op of the chain on an OPEN set has left the queue. -/
def OpQueue.drainOut (x : OpQueue) (a : Nat) : Bool :=
  match x.tilesOn a with
  | [] => false
  | t :: l =>
    -- a START still in WAITING belongs to the next chain
    if tAcc t.op = 0 ∧ t.state = .waiting then false else (firstChain (t :: l)).any fun u => tDrain u.op

/-- The M and N of the chain that a CONTINUE op of queue `q` would join, and its total K so far; none when the queue
has no chain on the set whose DRAIN op is still to be handed out. -/
def openChain (x : OpQueue) (q : Nat) (s : AccSet) (a : Nat) : Option (Nat × Nat × Nat × Bool) :=
  let l := x.tilesOn a
  let last := l.reverse.takeWhile fun u => tAcc u.op != 0
  let start := (l.reverse.drop last.length).head?
  let open_ := s.isOpen && s.owner == q
  match start with
  | some u =>
    -- the chain's START is in flight
    if (u :: last).any fun v => tDrain v.op then none
    else
      let waiting := (u :: last).filter fun v => v.state == .waiting || v.state == .ready
      let counted := if u.state == .waiting then 0 else s.count
      some (tM u.op, tN u.op, counted + (waiting.map fun v => tK v.op).sum, tSplitEn u.op)
  | none =>
    if !open_ || last.any (fun v => tDrain v.op) then none
    else
      let waiting := last.filter fun v => v.state == .waiting || v.state == .ready
      some (s.m, s.n, s.count + (waiting.map fun v => tK v.op).sum, s.split.isSome)

/-- The status of a TILE op that breaks a chain rule as it leaves its queue (Table 2.6). -/
def chainStatus (x : OpQueue) (q : Nat) (s : AccSet) (d : Rec64) : Option Nat :=
  let c := openChain x q s (tSet d)
  if tAcc d = 0 then if c.isSome then some Status.accState else none
  else
    match c with
    | none => some Status.accState
    | some (m, n, k, split) =>
      if tM d ≠ m ∨ tN d ≠ n then some Status.badShape
      else if k + tK d ≤ 65536 then none
      else if split = false ∨ 2 ^ 24 < k + tK d then some Status.accState
      else none

/-! ### Halt and reset (Table 2.12) -/

/-- Accumulator sets of a halted or reset queue become FREE; one that a READY op of the queue still uses becomes FREE
when that op is done (log entry 13). -/
def freeSets (s : State) (h sw q : Nat) : State :=
  let x := s.queue h sw q
  (List.range 8).foldl (fun t a =>
    let b := t.accSet h sw a
    if b.isOpen && b.owner == q && !((x.tilesOn a).any fun u => u.state == .ready) then t.setAcc h sw a {} else t) s

/-- A failure of the step that a queue works for is kept for its completion record. -/
def noteHalt (s : State) (h sw q status idx : Nat) : State :=
  match (s.queue h sw q).step with
  | none => s
  | some st =>
    match sfind s.steps st with
    | none => s
    | some x =>
      if x.halt.isSome then s else { s with steps := sset s.steps st { x with halt := some (h, sw, q, status, idx) } }

/-- A queue halts with the status of op `idx` (Table 2.12). -/
def haltQueue (s : State) (h sw q status idx : Nat) : State :=
  let x := s.queue h sw q
  let s := s.setQueue h sw q { x with state := .halted, haltStatus := status, haltIndex := idx }
  noteHalt (freeSets s h sw q) h sw q status idx

/-- A queue is reset: every strand FREE, its accumulator sets FREE, its count zero (R64). -/
def resetQueue (s : State) (h sw q : Nat) : State :=
  let s := (List.range 8).foldl (fun t a =>
    let b := t.accSet h sw a
    if b.isOpen && b.owner == q then t.setAcc h sw a {} else t) s
  s.setQueue h sw q { s.queue h sw q with state := .reset, ops := [], strands := [], retired := 0,
                                           haltStatus := 0, haltIndex := 0, step := none }

/-! ### Strands (Table 2.11) -/

/-- The check of an op as it leaves its queue (R43): its record, its plan's clasps (R217), its chain, in R484's order. -/
def handoutStatus (s : State) (h sw q : Nat) (o : QueuedOp) : Option Nat :=
  let x := s.queue h sw q
  let d := o.op
  let other :=
    if opKind d = 0x05 then
      match x.plan with
      | none => none
      | some p =>
        let pl := sget s.plans {} p
        if pl.claspBase ≤ cClasp d ∧ cClasp d < pl.claspBase + pl.claspCount then none else some Status.badRange
    else if opKind d = 0x01 then chainStatus x q (s.accSet h sw (tSet d)) d
    else none
  if o.poison then some Status.poisoned else firstOf (opStatus d x.winLo x.winHi) other

/-- A queue hands out its next op (R58). -/
def handout (s : State) (h sw q : Nat) : State :=
  let x := s.queue h sw q
  match x.ops with
  | [] => s
  | o :: rest =>
    if s.swRuns h sw && x.state == .running && x.strands.length < 32 then
      let st := handoutStatus s h sw q o
      let t : Strand := { op := o.op, idx := o.idx, poison := o.poison
                          state := if st.isSome then .halted else .waiting }
      let s' := s.setQueue h sw q { x with ops := rest, strands := x.strands ++ [t] }
      match st with
      | some c => haltQueue s' h sw q c o.idx
      | none => s'
    else s

/-- Whether an op is a CLASP wait still unsatisfied. -/
def waitOpen (t : Strand) : Bool := opKind t.op == 0x05 && copWaits (cCop t.op) && t.state != .done

/-- Whether an accumulator set is available to an op (Table 2.11). -/
def setAvailable (s : State) (h sw q : Nat) (d : Rec64) : Bool :=
  let b := s.accSet h sw (tSet d)
  if tAcc d = 0 then !b.isOpen else b.isOpen && b.owner == q

/-- Whether the `i`-th op in flight of a queue may leave WAITING (R56, R59, Table 2.11). Clasp operations on one clasp go
in their order (R209). -/
def canReady (s : State) (h sw q i : Nat) : Bool :=
  let x := s.queue h sw q
  match x.strands[i]? with
  | none => false
  | some t =>
    let older := x.strands.take i
    t.state == .waiting
    && !older.any (fun u => waitOpen u || u.state == .halted || touchHazard (opTouches u.op) (opTouches t.op))
    && (opKind t.op != 0x01 ||
        (setAvailable s h sw q t.op && !older.any fun u => opKind u.op == 0x01 && tSet u.op == tSet t.op && u.state == .waiting))
    && (!(opKind t.op == 0x05 && copLast (cCop t.op)) || i == 0)
    && !(opKind t.op == 0x05 && older.any fun u => opKind u.op == 0x05 && cClasp u.op == cClasp t.op && u.state != .done)

/-! ### A chain divided among standbys (R84, R85, R394) -/

/-- The standbys of a hall: its enabled stairwells that hold no placement of any loaded plan (R394). -/
def standbys (s : State) (h : Nat) : List Nat :=
  (List.range 256).filter fun p => s.swEnabled h p && !s.plans.any fun q => q.2.placedOn h p

/-- K of a chain, given the TILE ops on its set from its START on; none when the DRAIN op is not among them. -/
def chainK : List Rec64 → Option Nat
  | [] => none
  | d :: l => if tDrain d then some (tK d) else (chainK l).map fun k => tK d + k

/-- Lengths of the pieces of a chain of length `k` cut at `cuts`. -/
def pieceLens (k : Nat) (cuts : List Nat) : List Nat := ((0 :: cuts).zip (cuts ++ [k])).map fun p => p.2 - p.1

/-- R84's rules and R394's limit for a chain cut into pieces, with `n` standbys: contiguous pieces, every one but the last a
multiple of 16 long, none longer than 65,536, and K at least 64 for each piece. -/
def cutsOk (k n : Nat) (cuts : List Nat) : Bool :=
  let l := pieceLens k cuts
  2 ≤ l.length && l.length ≤ min 4 n && 64 * l.length ≤ k && ((0 :: cuts).zip (cuts ++ [k])).all (fun p => p.1 < p.2)
    && l.all (fun x => x ≤ 65536) && cuts.all (fun c => c % 16 == 0)

/-- Where the chain that the `i`-th op in flight starts is cut: only a floating-point chain that runs on a standby, when
microcode divides it. -/
def chainCuts (s : State) (h sw q i : Nat) (t : Strand) : List Nat :=
  let x := s.queue h sw q
  if x.col.isNone || tFmtA t.op == 0x03 then []
  else
    let ops := (x.strands.drop i).map (fun u => u.op) ++ x.ops.map fun o => o.op
    match chainK (ops.filter fun d => opKind d == 0x01 && tSet d == tSet t.op) with
    | none => []
    | some k =>
      let c := Config.chainCuts (x.step.getD 0) t.idx k
      if cutsOk k (standbys s h).length c then c else []

/-- A set reserved for a START op that leaves WAITING (Table 2.5), with its chain's cuts. -/
def reserveSet (q : Nat) (d : Rec64) (cuts : List Nat) : AccSet :=
  { isOpen := true, owner := q, m := tM d, n := tN d, int := tFmtA d == 0x03,
    split := if tSplitEn d then some (tSplitBase d) else none, cuts := cuts }

/-- The `i`-th op in flight becomes READY. -/
def makeReady (s : State) (h sw q i : Nat) : State :=
  if s.swRuns h sw && canReady s h sw q i then
    let x := s.queue h sw q
    match x.strands[i]? with
    | none => s
    | some t =>
      let s := s.setQueue h sw q { x with strands := x.strands.set i { t with state := .ready, count := x.retired } }
      if opKind t.op = 0x01 ∧ tAcc t.op = 0 then s.setAcc h sw (tSet t.op) (reserveSet q t.op (chainCuts s h sw q i t)) else s
  else s

/-- The oldest op of a queue retires when it is DONE (R62). -/
def retireOp (s : State) (h sw q : Nat) : State :=
  let x := s.queue h sw q
  match x.strands with
  | t :: rest => if t.state = .done then s.setQueue h sw q { x with strands := rest, retired := x.retired + 1 } else s
  | [] => s

/-- Position of the oldest op of a queue that satisfies `p`. -/
def OpQueue.find (x : OpQueue) (p : Strand → Bool) : Option Nat := x.strands.findIdx? p

/-- An op in flight moves to another state. -/
def strandTo (s : State) (h sw q i : Nat) (st : StrandState) : State :=
  let x := s.queue h sw q
  match x.strands[i]? with
  | none => s
  | some t => s.setQueue h sw q { x with strands := x.strands.set i { t with state := st } }

/-- An op fails in flight: it becomes HALTED and its queue halts. -/
def strandFail (s : State) (h sw q i status : Nat) : State :=
  match (s.queue h sw q).strands[i]? with
  | none => s
  | some t => haltQueue (strandTo s h sw q i .halted) h sw q status t.idx

/-- An op is DONE; a halted queue's set that it held becomes FREE (log entry 13). -/
def strandDone (s : State) (h sw q i : Nat) : State :=
  let s := strandTo s h sw q i .done
  if (s.queue h sw q).state = .halted then freeSets s h sw q else s

/-- The step of a queue consumed poison that is not a leaf's (R203, Table 6.6). -/
def notePoison (s : State) (st : Option Nat) (idx : Nat) : State :=
  match st with
  | none => s
  | some n =>
    match sfind s.steps n with
    | none => s
    | some x =>
      if x.poison then s else { s with steps := sset s.steps n { x with poison := true, poisonIdx := some idx } }

/-- The op that a unit takes next (R61): queues 10 and 11 first, then round robin over queues 0 to 9 after `last`; the
oldest READY op of the queue. Answers the queue and the position. -/
def unitPick (s : State) (h sw last kind : Nat) : Option (Nat × Nat) :=
  let f := fun q => (s.queue h sw q).find fun t => t.state == .ready && opKind t.op == kind
  match f 10 with
  | some i => some (10, i)
  | none =>
    match f 11 with
    | some i => some (11, i)
    | none =>
      match rrNext 10 last fun q => (f q).isSome with
      | some q => (f q).map fun i => (q, i)
      | none => none

end Sys2Proof.Machine
end

