-- ==== Sys2Proof/Machine/VestOps.lean ====
section
/-! DEFINITION. The vestibules: lines, sets, hints, the directory's recalls (R274 to R278). Memory holds the coherent
contents of the cached tiers (log entry 22); a line says where the units lie and what a loss of its hall poisons. -/

namespace Sys2Proof.Machine

/-- Number of a 2 KiB unit over both cached tiers: PARK offset or far address divided by 2,048. -/
def vestKey (sp : TierSpace) (unit : Nat) : Nat :=
  unit * 2 + match sp with
    | .park => 0
    | .far => 1

def keySpace (k : Nat) : TierSpace := if k % 2 = 0 then .park else .far

/-- GiB in bytes. -/
def gib : Nat := 2 ^ 30

/-- Port B host physical address of a far-space address: it lies in the first enabled decoder entry whose part of the far space
holds it (R284). -/
def farHpa (s : State) (f : Nat) : Nat :=
  let d := s.porter.host
  ((List.range 8).foldl (fun (q : Nat × Option Nat) e =>
    let z := sget d.fardecSize 0 e
    let n := bits z 13 0 * gib
    if q.2.isSome || !bitAt z 31 then q
    else if f < q.1 + n then (q.1, some ((sget d.fardecBase 0 e).toNat * gib + (f - q.1))) else (q.1 + n, none)) (0, none)).2.getD f

/-- Memory and address of an offset in PARK space or of a far-space address (R280, R284). -/
def tierPlace (s : State) (sp : TierSpace) (a : Nat) : Region × Nat :=
  match sp with
  | .park => (.park, s.hostRes + a)
  | .far => (.far, farHpa s a)

/-- Sets enabled (R277). -/
def Hall.vestSets (x : Hall) : Nat := 3072 - 32 * x.slicesOff.length

/-- Set of a unit (R275). -/
def Hall.vestSet (x : Hall) (k : Nat) : Nat := Config.vestHash k % x.vestSets

/-- `n` units moved now, beside those of the last 1 ms. -/
def movedUnits (now n : Nat) (l : Sparse Nat) : Sparse Nat :=
  let l := l.filter fun p => now < p.1 + 100000
  sset l now (sget l 0 now + n)

/-- A write-back or fetch of units counted for the tier's load (R279). -/
def countUnits (s : State) (sp : TierSpace) (n : Nat) : State :=
  s.modHost fun d => match sp with
    | .park => { d with parkMoved := movedUnits s.now n d.parkMoved }
    | .far => { d with portbMoved := movedUnits s.now n d.portbMoved }

/-- A line written back to its tier. -/
def vestClean (s : State) (h k : Nat) : State :=
  match sfind (s.hall h).vest k with
  | some l =>
    if l.dirty then
      countUnits (s.modHall h fun x => { x with vest := sset x.vest k { l with dirty := false } }) (keySpace k) 1
    else s
  | none => s

/-- A line dropped; `back` writes it back first when it is dirty. -/
def vestDrop (s : State) (h k : Nat) (back : Bool) : State :=
  let s := if back then vestClean s h k else s
  s.modHall h fun x => { x with vest := sdel x.vest k }

/-- R276: what an access by hall `h`, or by no hall, does to the lines of other halls. -/
def vestOthers (s : State) (h : Option Nat) (k : Nat) (write whole : Bool) : State :=
  (List.range 12).foldl (fun s g =>
    if some g = h || (sfind (s.hall g).vest k).isNone then s
    else if write then vestDrop s g k (!whole) else vestClean s g k) s

/-- The least recently used of some lines of a set. -/
def oldestLine (l : List (Nat × VLine)) : Option Nat :=
  (l.foldl (fun b p => match b with
    | none => some p
    | some q => if p.2.used < q.2.used then some p else b) none).map fun p => p.1

/-- The line that makes room for a KEEP line of unit `k`: none needed, none to be had, or one to replace. -/
inductive Room where
  | free | full | replace (k : Nat)
deriving DecidableEq, Repr

/-- R275. -/
def vestRoom (x : Hall) (k : Nat) : Room :=
  let set_ := x.vest.filter fun p => p.1 != k && x.vestSet p.1 == x.vestSet k
  let keeps := set_.filter fun p => p.2.keep
  if x.regs.keepWays ≤ keeps.length then
    match oldestLine keeps with
    | some j => if x.regs.keepWays = 0 then .full else .replace j
    | none => .full
  else if set_.length < 16 then .free
  else
    let plain := set_.filter fun p => !p.2.keep
    let first := plain.filter fun p => p.2.first
    match oldestLine (if first.isEmpty then plain else first) with
    | some j => .replace j
    | none => .full

/-- The line of a unit made a KEEP line, allocated when it is absent. A fenced hall's vestibule allocates nothing
(R277). Answers whether the line stands. -/
def vestKeep (s : State) (h k : Nat) (dirty : Bool) : State × Bool :=
  let x := s.hall h
  let old := sfind x.vest k
  let put_ := fun (s : State) =>
    let d := (old.map fun l => l.dirty).getD false
    s.modHall h fun y => { y with vest := sset y.vest k { keep := true, dirty := d || dirty, used := y.vestUse }
                                  vestUse := y.vestUse + 1 }
  if old.isNone && x.state == .fenced then (s, false)
  else if (old.map fun l => l.keep).getD false then (put_ s, true)
  else match vestRoom x k with
    | .free => (put_ s, true)
    | .replace j => (put_ (vestDrop s h j true), true)
    | .full => (s, false)

/-- A line used, kept as it is. -/
def vestTouch (s : State) (h k : Nat) : State :=
  s.modHall h fun x =>
    match sfind x.vest k with
    | some l => { x with vest := sset x.vest k { l with used := x.vestUse }, vestUse := x.vestUse + 1 }
    | none => x

def vestHit (s : State) (h : Nat) : State := s.modRegs h fun g => { g with vestHits := g.vestHits + 1 }

/-- An access of one unit that reaches its tier. -/
def vestMiss (s : State) (h k : Nat) : State :=
  countUnits (s.modRegs h fun g => { g with vestMisses := g.vestMisses + 1 }) (keySpace k) 1

/-- A read of one unit through a hall's vestibule (Table 9.9). -/
def vestRead (s : State) (h k : Nat) (hint : Hint) : State :=
  let s := vestOthers s (some h) k false false
  let here := (sfind (s.hall h).vest k).isSome
  let s := if here then vestTouch (vestHit s h) h k else vestMiss s h k
  match hint with
  | .stream => s
  | .keep => (vestKeep s h k false).1
  | .last => if here then vestDrop s h k true else s

/-- A write of one unit, or of part of it, through a hall's vestibule (Table 9.9). -/
def vestWrite (s : State) (h k : Nat) (hint : Hint) (whole : Bool) : State :=
  let s := vestOthers s (some h) k true whole
  let here := (sfind (s.hall h).vest k).isSome
  let through := fun (s : State) =>
    let s := vestMiss s h k
    if here then s.modHall h fun x => { x with vest := smod x.vest {} k fun l => { l with dirty := false } } else s
  match hint with
  | .stream => vestTouch (through s) h k
  | .last => vestDrop (through s) h k false
  | .keep =>
    let r := vestKeep s h k true
    if !r.2 then through s
    else if here then vestHit r.1 h
    else if whole then r.1 else vestMiss r.1 h k

/-- The units that a range of a tier meets, each with whether the range covers it whole. -/
def vestUnits (sp : TierSpace) (a n : Nat) : List (Nat × Bool) :=
  if n = 0 then []
  else tab ((a + n - 1) / 2048 + 1 - a / 2048) fun i =>
    let u := a / 2048 + i
    (vestKey sp u, a ≤ u * 2048 && (u + 1) * 2048 ≤ a + n)

/-- Units that an access of `n` bytes at `a` moves (R279). -/
def tierUnits (a n : Nat) : Nat := if n = 0 then 0 else (a + n - 1) / 2048 + 1 - a / 2048

/-- An access of the host reservation, which no vestibule caches, counted for the park tier (R274, R279). -/
def hostPass (s : State) (a n : Nat) : State := countUnits s .park (tierUnits a n)

/-- The pieces of a range of a tier, each inside one unit, with its offset in the range: a far range may lie in several decoder
entries (R284). -/
def tierPieces (a n : Nat) : List (Nat × Nat) :=
  tab (tierUnits a n) fun i =>
    let lo := max a ((a / 2048 + i) * 2048)
    (lo - a, min (a + n) ((a / 2048 + i + 1) * 2048) - lo)

/-- A range of one tier, which begins at a unit, copied to another. -/
def tierCopy (s : State) (src : TierSpace) (a : Nat) (dst : TierSpace) (b n : Nat) : State :=
  (tierPieces a n).foldl (fun (s : State) (t : Nat × Nat) =>
    let p := tierPlace s src (a + t.1)
    let q := tierPlace s dst (b + t.1)
    s.copyBeats p.1 p.2 q.1 q.2 t.2) s

/-- Bytes of a range of a tier, and bytes written there, unit by unit. -/
def tierRead (s : State) (sp : TierSpace) (a n : Nat) : List Byte :=
  (tierPieces a n).flatMap fun t =>
    let p := tierPlace s sp (a + t.1)
    s.read p.1 p.2 t.2

def tierWrite (s : State) (sp : TierSpace) (a : Nat) (b : List Byte) (poison : Bool) : State :=
  (tierPieces a b.length).foldl (fun (s : State) (t : Nat × Nat) =>
    let p := tierPlace s sp (a + t.1)
    s.write p.1 p.2 ((b.drop t.1).take t.2) poison) s

/-- An access of a range by a DMA channel or an usher through its hall's vestibule. -/
def tierPass (s : State) (h : Nat) (sp : TierSpace) (a n : Nat) (hint : Hint) (write : Bool) : State :=
  (vestUnits sp a n).foldl (fun s u => if write then vestWrite s h u.1 hint u.2 else vestRead s h u.1 hint) s

end Sys2Proof.Machine
end

