-- ==== Sys2Proof/Machine/DmaOps.lean ====
section
/-! DEFINITION. DMA channels: instruction fields, completion records, and what a channel does when a wait of its ends
(chapter 9). -/

namespace Sys2Proof.Machine

abbrev Status.dmaReserved : Nat := 0x50
abbrev Status.dmaMode : Nat := 0x51
abbrev Status.dmaBusy : Nat := 0x52
abbrev Status.dmaStopped : Nat := 0x53
abbrev Status.dmaTargetFault : Nat := 0x54

def State.setChan (s : State) (h c : Nat) (x : Chan) : State :=
  s.modHall h fun y => { y with chans := sset y.chans c x }

/-! ### Instructions (Tables 9.2 and 9.3) -/

def iCode (d : Rec32) : Nat := fld d 0 0 8
def mvSrcSpace (d : Rec32) : Nat := fld d 0 8 3
def mvDstSpace (d : Rec32) : Nat := fld d 0 11 3
def mvHint (d : Rec32) : Nat := fld d 0 14 2
def mvPace (d : Rec32) : Nat := fld d 0 16 6
def mvPaced (d : Rec32) : Bool := fld d 0 22 1 == 1
def mvTouch (d : Rec32) : Bool := fld d 0 23 1 == 1
def mvLen (d : Rec32) : Nat := fld d 4 0 25
def mvSrc (d : Rec32) : Nat := fld d 8 0 48
def mvDst (d : Rec32) : Nat := fld d 0x10 0 48
def mvSrcInc (d : Rec32) : Nat := fld d 0x18 0 32
def mvDstInc (d : Rec32) : Nat := fld d 0x1C 0 32
def lpCount (d : Rec32) : Nat := fld d 4 0 16
def lpBack (d : Rec32) : Nat := fld d 8 0 12
def wtLineKind (d : Rec32) : Bool := fld d 0 8 1 == 1
def wtLine (d : Rec32) : Nat := fld d 0 16 6
def wtCop (d : Rec32) : Nat := fld d 4 0 8
def wtClasp (d : Rec32) : Nat := fld d 8 0 16
def wtOperand (d : Rec32) : Nat := fld d 0x0C 0 32

/-! ### Sides (R104, R264) -/

def apertureBase : Nat := 0x4000000000

/-- Hall, stairwell and column address of a Pelaitik address in the near aperture. -/
def nearPlace (a : Nat) : Option (Nat × Nat × Nat) :=
  if a < apertureBase then none
  else
    let o := a - apertureBase
    if o / 2 ^ 36 < 12 then some (o / 2 ^ 36, o / 2 ^ 28 % 256, o % 2 ^ 28) else none

/-- Memory and address of a side that is memory. -/
def sidePlace (s : State) (sp a : Nat) : Region × Nat :=
  match sp with
  | 0 => match nearPlace a with
    | some (h, sw, c) => (.column h sw, c)
    | none => (.park, a)
  | 1 => tierPlace s .park a
  | 2 => tierPlace s .far a
  | _ => (.sram (a / 2 ^ 44) (a / 2 ^ 36 % 256), a % 2 ^ 22)

/-- Key of the sequence that a FABRIC destination names, and its receive stream (Table 11.2). -/
def fabKey (a : Nat) : Nat := txKey (a / 2 ^ 28) (a / 2 ^ 22 % 64)
def fabStream (a : Nat) : Nat := a / 2 ^ 22 % 64

/-- R272: the destination bytes of a stopped MOVE that its bursts have not written are undefined. -/
def freeRest (s : State) (h : Nat) (ch : ChId) : State :=
  match (s.chan h ch).move with
  | some r =>
    if mvTouch r.instr || mvDstSpace r.instr == 4 then s
    else
      let w := sidePlace s (mvDstSpace r.instr) (mvDst r.instr + r.issued)
      s.freeBytes w.1 w.2 (mvLen r.instr - r.issued)
  | none => s

/-- The instruction a program-mode channel stands at. -/
def Chan.instr (x : Chan) : Option Rec32 := x.prog[x.pc]?

/-! ### Completion (Table 9.6) -/

/-- Writes the record of a transfer of channel `ch`. -/
def dmaRecord (s : State) (h ch : Nat) (claim : Option Nat) (status bytes idx : Nat) (setB : Bool)
    (space side : Nat) : State :=
  match claim with
  | none => s
  | some c => s.complete c h status (dmaPart bytes idx ch setB space side)

/-- Every transfer that a shadow channel runs or holds loaded, in load order: claim, the MOVE in progress if it has begun,
and its set. -/
def Chan.transfers (x : Chan) : List (Nat × Option MoveRun × Bool) :=
  let mv := fun (m : Option MoveRun) => match m with
    | some r => (r.claim.map fun c => (c, some r, r.setB)).toList
    | none => []
  let a := (x.setA.map fun p => (p.2, none, false)).toList
  let b := (x.setB.map fun p => (p.2, none, true)).toList
  mv x.tailMv ++ mv x.move ++ (if x.nextB then b ++ a else a ++ b)

/-- The channel IDLE, with its set-up kept. -/
def Chan.idle (x : Chan) : Chan := { mode := x.mode, prio := x.prio, en := x.en, err := x.err }

/-- Bytes of a transfer of a channel that its bursts have written and that no target has answered (R269): `claim` is the
transfer's in shadow mode. -/
def unanswered (s : State) (h : Nat) (ch : ChId) (claim : Option Nat) : Nat :=
  (((s.chan h ch).wrote.filter fun w => w.claim == claim).map fun w => w.len).sum
    + txBytes s h fun q => q.ch == some ch && q.claim == claim

/-- Bytes that the transfer of a program-mode channel, or a shadow transfer, has issued. -/
def Chan.issuedBytes (x : Chan) (m : Option MoveRun) : Nat :=
  (if x.mode then 0 else x.bytes) + match m with
    | some r => r.issued
    | none => 0

/-- BYTES of a channel's current transfer: what it has written and is answered (Tables 9.6 and 9.13). -/
def chanBytes (s : State) (h : Nat) (ch : ChId) : Nat :=
  let x := s.chan h ch
  let m := if x.tailMv.isSome then x.tailMv else x.move
  x.issuedBytes m - unanswered s h ch (m.bind fun r => r.claim)

/-- Bytes of a transfer that a stopped channel's targets did not take. -/
def ChanStop.lostOf (e : ChanStop) (claim : Option Nat) : Nat :=
  ((e.lost.filter fun p => p.1 == claim).map fun p => p.2).sum

/-- Completes what a stopped channel runs, once its issued writes are answered (R272): the transfers before the one that
stopped are complete, those loaded after it end with `other`. -/
def dmaRecords (s : State) (h : Nat) (ch : ChId) (e : ChanStop) : State :=
  let x := s.chan h ch
  if x.mode then
    (x.transfers.mapIdx fun i t => (i, t)).foldl (fun (s : State) (p : Nat × (Nat × Option MoveRun × Bool)) =>
      let n := x.issuedBytes p.2.2.1 - e.lostOf (some p.2.1)
      let r := fun (status space side : Nat) => dmaRecord s h ch (some p.2.1) status n 0 p.2.2.2 space side
      if p.1 < e.keep then r Status.ok 0 0
      else if p.1 = e.keep then r e.status e.space e.side else r e.other 0 0) s
  else dmaRecord s h ch x.claim e.status (x.issuedBytes x.move - e.lostOf none) x.pc false e.space e.side

/-- A channel that is STOPPING ends once every packet it has issued is answered: its transfers complete, then the DMA_STOPs
that wait, and it is IDLE (R272). -/
def endStop (s : State) (h : HallId) (ch : ChId) : State :=
  let x := s.chan h ch
  match x.stop with
  | some e =>
    if txUnacked s h ch = 0 then
      let s := (dmaRecords s h ch e).setChan h ch x.idle
      e.stops.foldl (fun (s : State) (w : Nat × Nat) => s.complete w.1 h Status.ok (stopPart ch w.2)) s
    else s
  | none => s

/-- Pairs whose sequence a stopped channel's MOVEs leave to start again (R314). -/
def stopPairs (s : State) (h : Nat) (ch : ChId) (refused : Bool) : List Nat :=
  let x := s.chan h ch
  let dest := fun (m : Option MoveRun) => match m with
    | some r => if mvDstSpace r.instr = 4 ∧ mvTouch r.instr = false then [fabKey (mvDst r.instr)] else []
    | none => []
  dest x.tailMv ++ (if refused then [] else dest x.move) ++ txPairs s h ch

end Sys2Proof.Machine
end

