-- ==== Sys2Proof/Machine/ClaspOps.lean ====
section
/-! DEFINITION. Clasp cells: the operations of Table 7.2, waiters, hand-over and withdrawal (R206 to R220, R486). -/

namespace Sys2Proof.Machine

/-! ### Cells -/

def lockHeld (v : Word) : Bool := bitAt v 31
def lockOrphan (v : Word) : Bool := bitAt v 30
def lockOwner (v : Word) : Nat := v.toNat % 2 ^ 24
def lockHall (v : Word) : Nat := bits v 27 24

/-- Value of a lock held by an owner of a hall (Table 7.1). -/
def lockTaken (hall owner : Nat) : Word := BitVec.ofNat 32 (2 ^ 31 + hall * 2 ^ 24 + owner % 2 ^ 24)

/-- OWNER_HALL of a requester (R211). -/
def requesterHall : Requester → Nat
  | .strand h _ _ => h.val
  | .dma h _ => h.val
  | .usher h _ _ => h.val
  | .host _ => 12
  | .binding _ => 13

/-- Table 7.2's name of a requester. -/
def requesterIssuer : Requester → Issuer
  | .strand _ _ _ => .op
  | .dma _ _ => .dma
  | .usher _ _ _ => .usher
  | .host _ => .host
  | .binding _ => .binding

/-- R208: whether a counter's value reaches the operand. -/
def reaches (v opnd : Word) : Bool := (v - opnd).toNat < 2 ^ 31

/-- What an operation does to its cell: performed, waiting, or failed with a status. -/
inductive CellResult where
  | ok (c : Clasp)
  | wait (c : Clasp) (w : WaitCond)
  | fail (status : Nat)
deriving DecidableEq, Repr

/-- INIT and DROP: a cell with waiters is busy. -/
def cellInit (c : Clasp) (t : ClaspType) (v : Word) : CellResult :=
  if c.waiters.isEmpty then .ok { typ := t, val := v } else .fail Status.claspBusy

/-- An operation of a type on a cell that must have it. -/
def onType (c : Clasp) (t : ClaspType) (k : CellResult) : CellResult :=
  if c.lost then .fail Status.claspLost else if c.typ = t then k else .fail Status.claspType

/-- A wait on a condition of the cell, met at once or registered. -/
def cellWait (c : Clasp) (met : Bool) (w : WaitCond) : CellResult := if met then .ok c else .wait c w

/-- Table 7.2. `first`: CTR_ARRIVE adds 1 on its first presentation only (R214). An orphaned lock stays held until it is
broken or re-initialised (R218): LOCK_RELEASE gives NOT_OWNER (log entry 114). -/
def cellOp (c : Clasp) (hall cop : Nat) (v : Word) (first : Bool) : CellResult :=
  match cop with
  | 0x01 => cellInit c .counter v
  | 0x02 => cellInit c .flag (v &&& 1)
  | 0x03 => cellInit c .lock 0
  | 0x04 => if c.lost then .fail Status.claspLost else cellInit c .none 0
  | 0x10 => onType c .counter (.ok { c with val := c.val + v })
  | 0x11 =>
    let c' := if first then { c with val := c.val + 1 } else c
    onType c .counter (cellWait c' (reaches c'.val v) (.reach v))
  | 0x12 => onType c .counter (cellWait c (reaches c.val v) (.reach v))
  | 0x13 => onType c .counter (.ok { c with val := v })
  | 0x20 => onType c .flag (.ok { c with val := 1 })
  | 0x21 => onType c .flag (.ok { c with val := 0 })
  | 0x22 => onType c .flag (cellWait c (bitAt c.val 0 == bitAt v 0) (.flagIs (bitAt v 0)))
  | 0x30 => onType c .lock
      (if lockHeld c.val then .fail (if lockOrphan c.val then Status.lockOrphaned else Status.lockBusy)
       else .ok { c with val := lockTaken hall v.toNat })
  | 0x31 => onType c .lock
      (if lockHeld c.val then .wait c (.take (lockTaken hall v.toNat).toNat)
       else .ok { c with val := lockTaken hall v.toNat })
  | 0x32 => onType c .lock
      (if lockHeld c.val && !lockOrphan c.val && lockOwner c.val == v.toNat % 2 ^ 24 && lockHall c.val == hall then .ok { c with val := 0 }
       else .fail Status.notOwner)
  | 0x33 => onType c .lock (.ok { c with val := 0 })
  | _ => .fail Status.badEncoding

/-- Whether a waiter's condition holds of a cell (R213). -/
def condHolds (c : Clasp) : WaitCond → Bool
  | .reach v => reaches c.val v
  | .flagIs b => bitAt c.val 0 == b
  | .take _ => !lockHeld c.val

/-- Every waiter tested in order of registration; a LOCK_TAKE waiter is woken by being handed the lock (R211, R213).
Answers the cell with the waiters that remain, and those woken. -/
def testWaiters : Clasp → List Waiter → Clasp × List Waiter
  | c, [] => ({ c with waiters := [] }, [])
  | c, w :: l =>
    if condHolds c w.cond then
      let c' := match w.cond with
        | .take o => { c with val := BitVec.ofNat 32 o }
        | _ => c
      let r := testWaiters c' l
      (r.1, w :: r.2)
    else
      let r := testWaiters c l
      ({ r.1 with waiters := w :: r.1.waiters }, r.2)

/-! ### What a requester learns -/

/-- The strand of a queue that holds the CLASP op being performed on clasp `k`. -/
def claspStrand (s : State) (h sw q k : Nat) : Option Nat :=
  (s.queue h sw q).find fun t => opKind t.op == 0x05 && cClasp t.op == k && (t.state == .ready || t.state == .executing)

/-- A requester's operation on clasp `k` has ended as asked. -/
def claspDone (s : State) (rq : Requester) (k : Nat) (old : Word) (t : ClaspType) : State :=
  match rq with
  | .strand h sw q =>
    match claspStrand s h sw q k with
    | some i => strandDone s h sw q i
    | none => s
  | .dma h ch =>
    let x := s.chan h ch
    s.setChan h ch { x with state := .running, pc := x.pc + 1 }
  | .usher _ _ _ => s
  | .host c =>
    match s.claim? c with
    | some x => s.complete c x.hall.val Status.ok (claspPart old t)
    | none => s
  | .binding _ => s

/-- Waiters of clasp `k` told that their waits have ended. -/
def wakeAll (s : State) (k : Nat) (l : List Waiter) : State := l.foldl (fun s w => claspDone s w.who k w.old w.oldType) s

/-- A cell stored after its waiters have been tested, and the woken told. -/
def storeCell (s : State) (k : Nat) (c : Clasp) : State :=
  let r := testWaiters c c.waiters
  wakeAll (s.setClasp k r.1) k r.2

/-- A requester's registered wait and its presentations are withdrawn (R486). A lock handed to it passes on. -/
def withdraw (s : State) (rq : Requester) : State :=
  let s := { s with retries := s.retries.filter fun r => r.who != rq }
  { s with clasps := s.clasps.map fun p => (p.1, { p.2 with waiters := p.2.waiters.filter fun w => w.who != rq }) }

/-- R272 and Table 9.7: a channel stops. Its wait is withdrawn and it issues nothing more; it ends as `e` says once the packets
it has issued are answered. -/
def stopChannel (s : State) (h : HallId) (ch : ChId) (e : ChanStop) : State :=
  let s := withdraw s (.dma h ch)
  let s := if e.refused then s else freeRest s h ch
  let s := (stopPairs s h ch e.refused).foldl (fun (s : State) (k : Nat) => txStop s h k) s
  endStop (s.setChan h ch { s.chan h ch with state := .stopping, wrote := [], back := none, stop := some e }) h ch

/-- A requester's operation on clasp `k` has failed (R220); `t` is the cell's type before it (Table 7.10). -/
def claspFail (s : State) (rq : Requester) (k : Nat) (status : Nat) (t : ClaspType) : State :=
  match rq with
  | .strand h sw q =>
    match claspStrand s h sw q k with
    | some i => strandFail s h sw q i status
    | none => s
  | .dma h ch => stopChannel s h ch { status := status, other := Status.dmaStopped }
  | .usher _ _ none => s
  | .usher _ _ (some c) =>
    match s.steps.find? fun p => p.2.claim == c with
    | some (n, x) => { s with steps := sset s.steps n { x with fail := some (x.fail.getD status) } }
    | none => s.finish c status
  | .host c =>
    match s.claim? c with
    | some x => s.complete c x.hall.val status (claspPart 0 t)
    | none => s
  | .binding _ => s

/-! ### Performing an operation -/

/-- Home hall of a clasp (R206). -/
def claspHome (k : Nat) : Nat := k % 12

/-- Whether a binding in flight holds the lock unit of a clasp (R226, R228). -/
def claspLocked (s : State) (k : ClaspId) : Bool := s.binds.any fun b => b.2.locks.any fun l => l.2 == .clasp k

/-- Waiters registered at a home hall (R212). -/
def homeWaiters (s : State) (h : Nat) : Nat :=
  ((s.clasps.filter fun p => claspHome p.1 == h).map fun p => p.2.waiters.length).sum

/-- Completion-record waiters held at the hall that receives a CLASP_OP (Table 7.3). -/
def recordWaiters (s : State) (h : Nat) : Nat :=
  ((s.clasps.map fun p => (p.2.waiters.filter fun w =>
    match w.who with
    | .host c => (s.claim? c).any fun x => x.hall.val == h
    | _ => false).length)).sum

/-- Waits of an usher, registered or to be presented again (Table 7.3). -/
def usherWaits (s : State) (h : HallId) (u : UsherId) : Nat :=
  let mine := fun (rq : Requester) => match rq with
    | .usher g v _ => g == h && v == u
    | _ => false
  ((s.clasps.map fun p => (p.2.waiters.filter fun w => mine w.who).length)).sum
    + (s.retries.filter fun r => mine r.who && copWaits r.cop).length

/-- The strand or channel of a waiting operation is held until the wait ends. -/
def claspHold (s : State) (rq : Requester) (k : Nat) : State :=
  match rq with
  | .strand h sw q =>
    match claspStrand s h sw q k with
    | some i => strandTo s h sw q i .executing
    | none => s
  | .dma h ch => s.setChan h ch { s.chan h ch with state := .waiting }
  | .host c => s.setStage c .running
  | _ => s

/-- An operation set aside to be presented again. -/
def setAside (s : State) (rq : Requester) (cop : Nat) (k : ClaspId) (v : Word) (us interval : Nat) (first : Bool) :
    State :=
  let s := claspHold s rq k.toNat
  { s with retries := s.retries ++ [{ who := rq, cop := cop, clasp := k, opnd := v, due := s.now + us * 100,
                                      interval := interval, first := first }] }

/-- A wait registered, or one that finds a limit full (R214): a CLASP_OP is then refused, and leaves the cell unchanged
(R207). -/
def registerWait (s : State) (rq : Requester) (cop : Nat) (k : ClaspId) (v : Word) (c : Clasp) (w : WaitCond)
    (old : Clasp) : State :=
  let t := storeCell s k.toNat c
  let c := t.clasp k.toNat
  if 1024 ≤ c.waiters.length ∨ 8192 ≤ homeWaiters t (claspHome k.toNat) then
    match rq with
    | .host _ => claspFail s rq k.toNat Status.claspFull old.typ
    | _ => setAside t rq cop k v 2 0 false
  else
    let wt : Waiter := { who := rq, cond := w, old := old.val, oldType := old.typ }
    claspHold (t.setClasp k.toNat { c with waiters := c.waiters ++ [wt] }) rq k.toNat

/-- One presentation of an operation at its home (R207 to R214, R218, R219, R228). -/
def present (s : State) (rq : Requester) (cop : Nat) (k : ClaspId) (v : Word) (interval : Nat) (first : Bool) : State :=
  match (s.hall (claspHome k.toNat)).state with
  | .computeReset =>
    setAside (s.noteReset (claspHome k.toNat)) rq cop k v (max interval 1) (min (2 * max interval 1) 64) first
  | .enabled =>
    if claspLocked s k then setAside s rq cop k v 0 0 first
    else
      let c := s.clasp k.toNat
      match cellOp c (requesterHall rq) cop v first with
      | .fail st => claspFail s rq k.toNat st c.typ
      | .ok c' => claspDone (storeCell s k.toNat c') rq k.toNat c.val c.typ
      | .wait c' w => registerWait s rq cop k v c' w c
  | _ => claspFail s rq k.toNat Status.claspLost .none

/-- Whether a requester has an operation on a clasp that is to be presented again: a later one of its own goes behind it
(R209). -/
def setAsideOn (s : State) (rq : Requester) (k : ClaspId) : Bool := s.retries.any fun r => r.who == rq && r.clasp == k

/-- An operation that an usher of the device issues: presented, or put behind its own earlier one on the same clasp. -/
def usherOp (s : State) (h : HallId) (u : UsherId) (claim : Option Nat) (cop : Nat) (k : ClaspId) (v : Word) : State :=
  let rq := Requester.usher h u claim
  if setAsideOn s rq k then setAside s rq cop k v 0 0 true else present s rq cop k v 0 true

/-- Whether a DMA channel has writes that are not yet answered (R210). -/
def chanUnanswered (s : State) (h : HallId) (ch : ChId) : Bool :=
  (s.chan h ch).move.isSome || !(s.chan h ch).wrote.isEmpty || txUnacked s h ch != 0

/-- Whether an older CLASP_OP of the same submission ring on the same clasp is still to be performed (R209). -/
def olderClaspOp (s : State) (c : Nat) (x : Claim) (k : ClaspId) : Bool :=
  s.claims.any fun p => p.1 < c && p.2.hall == x.hall && p.2.sq == x.sq && descOpcode p.2.desc == 0x31
    && fld p.2.desc 0x0C 0 16 == k.toNat && (p.2.stage == .claimed || setAsideOn s (.host p.1) k)

/-- Whether a requester is at the operation that an event names. A binding's operations are tried by BIND_PREPARE and
performed by BIND_COMMIT (log entry 105). An operation waits for the requester's earlier ones on the clasp (R209), a
channel's CTR_ARRIVE for its writes (R210); an usher has at most 16 waits (Table 7.3). -/
def asks (s : State) (rq : Requester) (cop : Nat) (k : ClaspId) (v : Word) : Bool :=
  match rq with
  | .strand h sw q =>
    s.swRuns h sw &&
      ((s.queue h sw q).find fun t => opKind t.op == 0x05 && t.state == .ready && cCop t.op == cop
        && cClasp t.op == k.toNat && cOperand t.op == v.toNat).isSome
  | .dma h ch =>
    let x := s.chan h ch
    match x.instr with
    | some d => (x.state == .running && iCode d == 0x03 && !wtLineKind d && !(wtCop d == 0x11 && chanUnanswered s h ch) || x.state == .draining && iCode d == 0x04
        && !chanUnanswered s h ch)
        && wtCop d == cop && wtClasp d == k.toNat && wtOperand d == v.toNat
    | none => false
  | .usher h u _ => !setAsideOn s rq k && (!copWaits cop || usherWaits s h u < 16)
  | .host c =>
    match s.claim? c with
    | some x => descOpcode x.desc == 0x31 && x.stage == .claimed && !olderClaspOp s c x k && fld x.desc 8 0 8 == cop
        && fld x.desc 0x0C 0 16 == k.toNat && fld x.desc 0x10 0 32 == v.toNat
    | none => false
  | .binding _ => false

/-- An operation asked for by a requester: refused as it stands, or presented. A waiting CLASP_OP that finds its hall's
256 completion-record waiters held is refused before it is sent (R214). -/
def claspRequest (s : State) (rq : Requester) (cop : Nat) (k : ClaspId) (v : Word) : State :=
  if !asks s rq cop k v then s
  else match copStatus (requesterIssuer rq) cop v.toNat with
    | some st => claspFail s rq k.toNat st (s.clasp k.toNat).typ
    | none =>
      match rq with
      | .host c =>
        let h := match s.claim? c with
          | some x => x.hall.val
          | none => 0
        if copWaits cop && 256 ≤ recordWaiters s h then claspFail s rq k.toNat Status.claspFull (s.clasp k.toNat).typ
        else present s rq cop k v 0 true
      | _ => present s rq cop k v 0 true

/-- The `i`-th operation set aside is presented again once it is due and its requester has no earlier one on the clasp
(R209). -/
def representAt (s : State) (i : Nat) (backoff : Bool) : State :=
  match s.retries[i]? with
  | none => s
  | some r =>
    if r.due ≤ s.now ∧ (0 < r.interval) = backoff ∧
        ((s.retries.take i).any fun q => q.who == r.who && q.clasp == r.clasp) = false then
      present { s with retries := s.retries.eraseIdx i } r.who r.cop r.clasp r.opnd r.interval r.first
    else s

/-! ### Reset and fence of a hall (R218, R219) -/

/-- Whether a requester lies in a hall's compute domain. -/
def requesterIn (s : State) (h : Nat) : Requester → Bool
  | .strand x _ _ => x.val == h
  | .dma x _ => x.val == h
  | .usher x _ _ => x.val == h
  | .host c => (s.claim? c).any fun x => x.hall.val == h
  | .binding _ => false

/-- A cell after the compute of a hall resets or is fenced: waiters of the hall removed, its locks orphaned. A host's
lock is no hall's. -/
def Clasp.loseHall (s : State) (h : Nat) (c : Clasp) : Clasp :=
  let v := if c.typ = .lock ∧ lockHeld c.val = true ∧ lockHall c.val = h then c.val ||| 0x40000000 else c.val
  { c with val := v, waiters := c.waiters.filter fun w => !requesterIn s h w.who }

/-- Every cell, at every home, after the compute of hall `h` resets or is fenced. -/
def orphanLocks (s : State) (h : Nat) : State :=
  { s with clasps := s.clasps.map fun p => (p.1, p.2.loseHall s h)
           retries := s.retries.filter fun r => !requesterIn s h r.who }

/-- Every waiter registered at a fenced hall is woken with CLASP_LOST (R219). -/
def loseClasps (s : State) (h : Nat) : State :=
  let l := (s.clasps.filter fun p => claspHome p.1 == h).flatMap fun p => p.2.waiters.map fun w => (p.1, w)
  let s := { s with clasps := s.clasps.map fun p =>
                      if claspHome p.1 == h then (p.1, { p.2 with waiters := [] }) else p }
  l.foldl (fun s w => claspFail s w.2.who w.1 Status.claspLost w.2.oldType) s

/-- The clasp unit tests its waiters again when the reset of its hall ends (R218). -/
def retestClasps (s : State) (h : Nat) : State :=
  (skeys s.clasps fun k c => claspHome k == h && !c.waiters.isEmpty).foldl (fun s k => storeCell s k (s.clasp k)) s

end Sys2Proof.Machine
end

