-- ==== Sys2Proof/Machine/Columns.lean ====
section
/-! DEFINITION. Columns: who serves them, lines, landing commands' fields and ranges, and what an ordinary access waits
for (chapter 4). -/

namespace Sys2Proof.Machine

/-! ### Service of a column -/

/-- Whether the column of a stairwell is served: by its own stairwell, or, fenced, by an adopter whose adoption has been
published (R104, R127). -/
def State.colServed (s : State) (h sw : Nat) : Bool :=
  let x := s.stair h sw
  s.hallUp h && !x.resetting && x.colGood && (if x.fenced then x.adopted && x.adoptPub && x.adopter.all (fun a => !(s.stair h a).resetting)
      else x.assigned)

/-- Whether a range of a column exists and is not being re-initialised (R91, R95). -/
def State.colRange (s : State) (h sw a n : Nat) : Bool :=
  let x := s.stair h sw
  a + n ≤ columnEnd &&
    !(x.layBusy && (List.range (ceilDiv (a % 2 ^ 26 + n) (2 ^ 26))).any fun i => x.layChange.getLsbD (a / 2 ^ 26 + i))

/-- Bytes written line by line; `p` gives the poison of the line that starts at a given byte of the string. -/
def State.writeLines (s : State) (r : Region) (a : Nat) (bytes : List Byte) (p : Nat → Nat → Bool) : State :=
  (unitsOf r a bytes.length).foldl (fun s u =>
    let lo := max a u - a
    let hi := min (u + r.unit) (a + bytes.length) - a
    s.write r (a + lo) ((bytes.drop lo).take (hi - lo)) (p lo hi)) s

/-! ### Landing commands (Tables 4.10 and 4.11) -/

def lOp (d : Rec64) : Nat := fld d 0 0 8
def lTag (d : Rec64) : Byte := BitVec.ofNat 8 (fld d 0 8 8)
def lQbase (d : Rec64) : Nat := fld d 0 16 4
def lQrows (d : Rec64) : Nat := fld d 0 20 5
def lG (d : Rec64) : Nat := fld d 0 25 5
def lSrc (d : Rec64) : Nat := fld d 4 0 28
def lSrc2 (d : Rec64) : Nat := fld d 8 0 28
def lDst (d : Rec64) : Nat := fld d 0x0C 0 28
def lSaddr (d : Rec64) : Nat := fld d 0x10 0 28
def lStride (d : Rec64) : Nat := fld d 0x14 0 16
def lStride2 (d : Rec64) : Nat := fld d 0x14 16 16
def lNrows (d : Rec64) : Nat := fld d 0x18 0 12
def lD (d : Rec64) : Nat := fld d 0x18 12 9
def lMaskFrom (d : Rec64) : Nat := fld d 0x1C 0 12
def lMasked (d : Rec64) : Bool := fld d 0x1C 12 1 == 1
def lScale (d : Rec64) : Word := BitVec.ofNat 32 (fld d 0x20 0 32)
def lCount (d : Rec64) : Nat := fld d 0x24 0 25
def lPattern (d : Rec64) : Nat := fld d 0x28 0 32
def lPfmt (d : Rec64) : Nat := fld d 0x2C 0 8

/-- Element size of a key/value format. -/
def kvBytes (f : Nat) : Nat := fmtBits f / 8

/-- Bytes of a key or value row that a command covers: H · D · e. -/
def lRowLen (d : Rec64) (kv : Nat) : Nat := lQrows d / lG d * lD d * kvBytes kv

/-- Fields of Table 4.10 by name, as (offset, low bit, width). -/
def fQrows : List (Nat × Nat × Nat) := [(0, 16, 4), (0, 20, 5)]
def fG : List (Nat × Nat × Nat) := [(0, 25, 5)]
def fSrc : List (Nat × Nat × Nat) := [(4, 0, 28)]
def fSrc2 : List (Nat × Nat × Nat) := [(8, 0, 28)]
def fDst : List (Nat × Nat × Nat) := [(0x0C, 0, 28)]
def fSaddr : List (Nat × Nat × Nat) := [(0x10, 0, 28)]
def fStride : List (Nat × Nat × Nat) := [(0x14, 0, 16)]
def fStride2 : List (Nat × Nat × Nat) := [(0x14, 16, 16)]
def fNrows : List (Nat × Nat × Nat) := [(0x18, 0, 12)]
def fD : List (Nat × Nat × Nat) := [(0x18, 12, 9)]
def fMask : List (Nat × Nat × Nat) := [(0x1C, 0, 12), (0x1C, 12, 1)]
def fScale : List (Nat × Nat × Nat) := [(0x20, 0, 32)]
def fCount : List (Nat × Nat × Nat) := [(0x24, 0, 25)]
def fPattern : List (Nat × Nat × Nat) := [(0x28, 0, 32)]
def fPfmt : List (Nat × Nat × Nat) := [(0x2C, 0, 8)]

/-- Fields that an opcode does not use (Table 4.11). -/
def lUnused (op : Nat) : List (Nat × Nat × Nat) :=
  match op with
  | 0x01 => fSrc2 ++ fDst ++ fSaddr ++ fStride2 ++ fCount ++ fPattern ++ fPfmt
  | 0x02 => fSrc ++ fDst ++ fSaddr ++ fStride ++ fMask ++ fScale ++ fCount ++ fPattern ++ fPfmt
  | 0x03 => fDst ++ fSaddr ++ fCount ++ fPattern ++ fPfmt
  | 0x04 => fG ++ fSrc ++ fSrc2 ++ fDst ++ fSaddr ++ fStride ++ fStride2 ++ fNrows ++ fD ++ fMask ++ fScale ++ fCount
      ++ fPattern ++ fPfmt
  | 0x05 => fG ++ fSrc ++ fSrc2 ++ fDst ++ fSaddr ++ fStride ++ fStride2 ++ fNrows ++ fMask ++ fScale ++ fCount
      ++ fPattern ++ fPfmt
  | 0x08 => fQrows ++ fG ++ fSrc ++ fSrc2 ++ fSaddr ++ fStride ++ fStride2 ++ fNrows ++ fD ++ fMask ++ fScale ++ fPfmt
  | 0x09 => fQrows ++ fG ++ fSrc2 ++ fSaddr ++ fStride ++ fStride2 ++ fNrows ++ fD ++ fMask ++ fScale ++ fPattern
      ++ fPfmt
  | _ => fQrows ++ fG ++ fSrc2 ++ fStride ++ fStride2 ++ fNrows ++ fD ++ fMask ++ fScale ++ fPattern

def lKnown (op : Nat) : Bool := [0x01, 0x02, 0x03, 0x04, 0x05, 0x08, 0x09, 0x0A, 0x0B].contains op
def lUsesRows (op : Nat) : Bool := op == 0x01 || op == 0x02 || op == 0x03
def lTranscodes (op : Nat) : Bool := op == 0x0A || op == 0x0B

/-- A byte range of a command: where it starts, its length, and whether the command writes it. -/
structure LandRange where
  at_ : Nat
  len : Nat
  wr  : Bool
deriving DecidableEq, Repr

/-- Rows of `len` bytes, `stride` apart, from the first byte to the last. -/
def rowsRange (a rows stride len : Nat) : LandRange := { at_ := a, len := (rows - 1) * stride + len, wr := false }

/-- Every range a command reads or writes in its column. -/
def landRanges (d : Rec64) (kv : Nat) : List LandRange :=
  let keys := rowsRange (lSrc d) (lNrows d) (lStride d) (lRowLen d kv)
  let values := rowsRange (lSrc2 d) (lNrows d) (lStride2 d) (lRowLen d kv)
  let n := lCount d
  match lOp d with
  | 0x01 => [keys]
  | 0x02 => [values]
  | 0x03 => [keys, values]
  | 0x08 => [{ at_ := lDst d, len := n, wr := true }]
  | 0x09 => [{ at_ := lSrc d, len := n, wr := false }, { at_ := lDst d, len := n, wr := true }]
  | 0x0A => [{ at_ := lSrc d, len := n * kvBytes kv, wr := false }, { at_ := lDst d, len := rowBytes (lPfmt d) n, wr := true },
      { at_ := lSaddr d, len := scaleLen n, wr := true }]
  | 0x0B => [{ at_ := lSrc d, len := rowBytes (lPfmt d) n, wr := false }, { at_ := lSaddr d, len := scaleLen n, wr := false },
      { at_ := lDst d, len := n * kvBytes kv, wr := true }]
  | _ => []

/-- 64 KiB blocks that a range touches. -/
def LandRange.blocks (r : LandRange) : List Nat :=
  if r.len = 0 then [] else tab ((r.at_ + r.len - 1) / 65536 + 1 - r.at_ / 65536) fun i => r.at_ / 65536 + i

/-- Bank of a block (R93). -/
def bankOf (block : Nat) : Nat := block / 12 % 4

/-- Banks that a command touches. -/
def landBanks (d : Rec64) (kv : Nat) : List Nat := ((landRanges d kv).flatMap fun r => r.blocks.map bankOf).dedup

/-! ### Banks -/

def Landing.bank (x : Landing) : Nat → BankMode
  | 0 => x.bank0
  | 1 => x.bank1
  | 2 => x.bank2
  | _ => x.bank3

def Landing.setBank (x : Landing) (b : Nat) (m : BankMode) : Landing :=
  match b with
  | 0 => { x with bank0 := m }
  | 1 => { x with bank1 := m }
  | 2 => { x with bank2 := m }
  | _ => { x with bank3 := m }

def BankMode.entering? : BankMode → Bool
  | .entering _ => true
  | _ => false

/-- ENTERING or LANDING. -/
def BankMode.takes (m : BankMode) : Bool := m.entering? || m == .landing

/-- STATE code of a bank (Table 4.9). -/
def BankMode.code : BankMode → Nat
  | .ordinary => 0 | .entering _ => 1 | .landing => 2 | .leaving => 3

/-- Commands accepted and not DONE. -/
def Landing.commands (x : Landing) : List (Rec64 × Nat) := x.queue.filterMap fun i =>
  match i with
  | .cmd c kv _ => some (c, kv)
  | .win _ _ => none

/-- Whether an access waits for a landing command: it meets a destination range, or writes an operand range, of a command
accepted and not DONE, in a bank that is LANDING or LEAVING (R121). -/
def landHolds (x : Landing) (a n : Nat) (write : Bool) : Bool :=
  x.commands.any fun p => (landRanges p.1 p.2).any fun r =>
    (r.wr || write) && decide (r.at_ < a + n) && decide (a < r.at_ + r.len) &&
      r.blocks.any fun b => x.bank (bankOf b) == .landing || x.bank (bankOf b) == .leaving

/-- Whether an access to a column waits for one of its landings. -/
def State.colHeld (s : State) (h sw a n : Nat) (write : Bool) : Bool :=
  anyN 12 fun l => landHolds (s.landing h sw l) a n write

end Sys2Proof.Machine
end

