-- ==== Sys2Proof/Machine/Landings.lean ====
section
/-! DEFINITION. Landings: mode windows, command and window writes, and what each command does (chapter 4). -/

namespace Sys2Proof.Machine

/-! ### Window pages (R105, R109) -/

/-- Landings that a write to a window page reaches: one, all twelve for the broadcast page, or none. -/
def pageLayers (page : Nat) : List Nat := if page < 12 then [page] else if page = 15 then List.range 12 else []

/-- A write to a window page, on each landing that it reaches. A fenced or resetting stairwell gives the core that
writes an access fault (R33, R303). -/
def windowAccess (s : State) (h sw page : Nat) (k : State → Nat → State) : State :=
  if s.colServed h sw then (pageLayers page).foldl k s else s.emit (.accessFault false)

/-! ### Banks (Table 4.8) -/

/-- A bank after its MODE bit is written. -/
def BankMode.write (m : BankMode) (on : Bool) : BankMode :=
  match m, on with
  | .ordinary, true => .entering false
  | .ordinary, false => .ordinary
  | .entering _, on => .entering !on
  | .landing, true => .landing
  | .landing, false => .leaving
  | .leaving, true => .landing
  | .leaving, false => .leaving

/-- Banks that LEAVING ends for: every accepted command that touches them is DONE. Their postponed refreshes are
issued. -/
def Landing.leave (x : Landing) : Landing :=
  (List.range 4).foldl (fun x b =>
    if x.bank b = .leaving ∧ (x.commands.all fun p => !(landBanks p.1 p.2).contains b) then
      { x.setBank b .ordinary with postponed := sset x.postponed b 0 }
    else x) x

/-- A command or mode write refused, with its status. -/
def Landing.refuse (x : Landing) (status : Nat) : Landing := { x with refused := true, lastStatus := status }

/-- A mode write that passes its checks. -/
def Landing.modeSet (x : Landing) (w : Rec64) : Landing :=
  let x := if fld w 0 4 1 = 1 then { x with poisonSeen := false, overflow := false, refused := false } else x
  let x := { x with kvfmt := fld w 0 8 8 }
  ((List.range 4).foldl (fun x b => x.setBank b ((x.bank b).write (fld w 0 b 1 == 1))) x).leave

/-- Status of a mode write that breaks Table 4.7. -/
def modeStatus (w : Rec64) : Option Nat :=
  firstStatus (anySet w [(0, 5, 3), (0, 16, 16), (4, 0, 480)]) (!([0x01, 0x02, 0x07, 0x08].contains (fld w 0 8 8))) false false

/-- MODE_WRITE (R110): LAYER_LOST on a retired landing (R99). -/
def execModeWrite (h : HallId) (sw : SwId) (page : Fin 16) (w : Rec64) (s : State) : Result :=
  .next <| windowAccess s h sw page fun s l => s.modLanding h sw l fun x =>
    if x.retired then x.refuse Status.layerLost
    else match modeStatus w with
      | some st => x.refuse st
      | none => x.modeSet w

/-- BANK_ACCESSES_DRAINED (R110): the ordinary accesses to an ENTERING bank are complete. -/
def execBankAccessesDrained (h : HallId) (sw : SwId) (l : LayerId) (b : BankId) (s : State) : Result :=
  .next <|
    if s.colServed h sw then
      s.modLanding h sw l fun x =>
        match x.bank b with
        | .entering out => (x.setBank b (if out then .leaving else .landing)).leave
        | _ => x
    else s

/-! ### Commands: checks (R114, R115) -/

def landReserved (d : Rec64) : Bool :=
  anySet d ([(0, 30, 2), (4, 28, 4), (8, 28, 4), (0x0C, 28, 4), (0x10, 28, 4), (0x18, 21, 11), (0x1C, 13, 19),
    (0x24, 25, 7), (0x2C, 8, 24), (0x30, 0, 128)] ++ (if lKnown (lOp d) then lUnused (lOp d) else []))

def landEncoding (d : Rec64) : Bool :=
  !lKnown (lOp d) || f32Special (lScale d)
  || (lTranscodes (lOp d) && !([0x04, 0x05, 0x06].contains (lPfmt d)))

def landShape (d : Rec64) (kv : Nat) : Bool :=
  let op := lOp d
  let rows := lUsesRows op || op == 0x04 || op == 0x05
  let keys := op == 0x01 || op == 0x03
  let values := op == 0x02 || op == 0x03
  (rows && (lQrows d == 0 || 16 < lQbase d + lQrows d))
  || (lUsesRows op && (lG d == 0 || 16 < lG d || lQrows d % lG d != 0))
  || (keys && (lStride d % 32 != 0 || lStride d < lRowLen d kv))
  || (values && (lStride2 d % 32 != 0 || lStride2 d < lRowLen d kv))
  || (lUsesRows op && (lNrows d == 0 || 2048 < lNrows d))
  || (op == 0x01 && 256 < lNrows d) || (op == 0x02 && 254 < lNrows d)
  || ((lUsesRows op || op == 0x05) && (lD d == 0 || 254 < lD d))
  || (keys && lMasked d && (lNrows d ≤ lMaskFrom d || 64 < lNrows d - lMaskFrom d))
  || ((op == 0x08 || op == 0x09) && (lCount d == 0 || lCount d % 256 != 0 || 0x1000000 < lCount d))
  || (lTranscodes op && (lCount d == 0 || lCount d % 32 != 0 || 2 ^ 20 < lCount d))

def landAlign (d : Rec64) : Bool :=
  lSrc d % 32 != 0 || lSrc2 d % 32 != 0 || lDst d % 256 != 0 || lSaddr d % 32 != 0
  || (lTranscodes (lOp d) && lSrc d % 256 != 0)

/-- Whether two ranges of a COPY overlap. -/
def copyOverlap (d : Rec64) : Bool := lOp d == 0x09 && lSrc d < lDst d + lCount d && lDst d < lSrc d + lCount d

/-- R115, the banks apart. -/
def landRange (x : Stairwell) (l : Nat) (d : Rec64) (kv : Nat) : Bool :=
  landAlign d || copyOverlap d || (landRanges d kv).any fun r =>
    columnEnd < r.at_ + r.len || r.blocks.any fun b =>
      b % 12 != l || !landedAt x (b * 65536) || (x.layBusy && x.layChange.getLsbD (b * 65536 / 2 ^ 26))

/-- Status of a command that a field or range rule refuses when it starts. -/
def landStatus (s : State) (h sw l : Nat) (d : Rec64) (kv : Nat) (banksOk : Bool) : Option Nat :=
  firstStatus (landReserved d) (landEncoding d) (landShape d kv) (landRange (s.stair h sw) l d kv || !banksOk)

/-! ### Commands: arithmetic (R116) -/

/-- Element `i` of a query row: BF16. -/
def Landing.queryElem (x : Landing) (row i : Nat) : FNum :=
  let a := row * 512 + 2 * i
  FNum.ofBits 0x07 ((sget x.query 0 a).toNat + 256 * (sget x.query 0 (a + 1)).toNat)

/-- Element of a key or value row whose bytes are given, at byte offset `o`. -/
def kvElem (kv : Nat) (row : List Byte) (o : Nat) : FNum :=
  FNum.ofBits kv (leNat (slice row o (kvBytes kv) 0))

/-- Dot product of a query row with a head's slice of a key row: the exact sum of each 32 bytes read is added into FP32
with one rounding. -/
def landDot (kv d head : Nat) (q : Nat → FNum) (row : List Byte) : FNum :=
  let e := kvBytes kv
  let o := head * d * e
  let first := o / 32
  let last := (o + d * e - 1) / 32
  (List.range (last + 1 - first)).foldl (fun t c =>
    let sum := (List.range d).foldl (fun u i =>
      if (o + i * e) / 32 = first + c then u.add ((q i).mul (kvElem kv row (o + i * e))) else u) numZero
    (t.add sum).r32) numZero

/-- Whether key row `j` is attended by query row `i` (R117). -/
def Landing.attended (x : Landing) (d : Rec64) (i j : Nat) : Bool :=
  !lMasked d || j < lMaskFrom d ||
    (sget x.mask 0 (8 * i + (j - lMaskFrom d) / 8)).getLsbD ((j - lMaskFrom d) % 8)

/-- Score of a query row against a key row. -/
def landScore (x : Landing) (d : Rec64) (kv i j : Nat) (row : List Byte) : FNum :=
  if x.attended d i j then
    fmul (f32 (lScale d)) (landDot kv (lD d) ((i - lQbase d) / lG d) (x.queryElem i) row)
  else numNegInf

/-- One accumulator row as values. -/
structure AccVals where
  m : FNum
  s : FNum
  o : List FNum

/-- R116: one key row taken into an accumulator row. -/
def attendRow (sj : FNum) (v : List FNum) (a : AccVals) : AccVals :=
  if (a.m.max sj).isNan then { m := .nan, s := .nan, o := v.map fun _ => .nan }
  else
    let a :=
      if a.m.lt sj then
        let f := fexp (fsub a.m sj)
        { m := sj, s := fmul a.s f, o := a.o.map fun x => fmul x f }
      else a
    if a.m = numNegInf then a
    else
      let p := fexp (fsub sj a.m)
      { a with s := fadd a.s p, o := (a.o.zip v).map fun q => fma p q.2 q.1 }

def AccRow.vals (r : AccRow) (d : Nat) : AccVals :=
  { m := f32 r.m, s := f32 r.s, o := tab d fun i => f32 (sget r.o 0 i) }

/-- An accumulator row after a command of width `d`: entries beyond `d` are kept. -/
def AccRow.store (r : AccRow) (a : AccVals) (poison : Bool) : AccRow :=
  { m := a.m.toF32, s := a.s.toF32, poison := r.poison || poison,
    o := (a.o.mapIdx fun i x => (i, x.toF32)).foldl (fun t p => sset t p.1 p.2) r.o }

/-- Key or value row `j` of a command. -/
def landRow (s : State) (h sw base stride kv : Nat) (d : Rec64) (j : Nat) : List Byte :=
  s.read (.column h sw) (base + j * stride) (lRowLen d kv)

/-- Whether a head's bytes of any row lie in a poisoned line (R119). -/
def headPoison (s : State) (h sw base stride kv : Nat) (d : Rec64) (head : Nat) : Bool :=
  let n := lD d * kvBytes kv
  anyN (lNrows d) fun j => s.poisonedAt (.column h sw) (base + j * stride + head * n) n

/-- Values of a head in a value row. -/
def headVals (kv d head : Nat) (row : List Byte) : List FNum :=
  tab d fun i => kvElem kv row (head * d * kvBytes kv + i * kvBytes kv)

/-- Result row `i` replaced by words, zeros to its end. -/
def Landing.setResult (x : Landing) (i : Nat) (l : List Word) (poison : Bool) : Landing :=
  let keep := x.result.filter fun p => p.1 < i * 1024 || i * 1024 + 1024 ≤ p.1
  { x with result := ((wordBytesOf l).mapIdx fun j b => (i * 1024 + j, b)).foldl (fun t p => sset t p.1 p.2) keep
           resPoison := sset x.resPoison i poison }
where
  wordBytesOf (l : List Word) : List Byte := l.flatMap fun w => leBytes 4 w.toNat

/-! ### Commands: effects -/

/-- Rows of a command's query and accumulator window. -/
def lRows (d : Rec64) : List Nat := tab (lQrows d) fun i => lQbase d + i

def runScore (s : State) (h sw l : Nat) (d : Rec64) (kv : Nat) : State :=
  let x := s.landing h sw l
  let keys := tab (lNrows d) (landRow s h sw (lSrc d) (lStride d) kv d)
  let p := fun i => headPoison s h sw (lSrc d) (lStride d) kv d ((i - lQbase d) / lG d)
  let x' := (lRows d).foldl (fun y i =>
    y.setResult i (keys.mapIdx fun j r => (landScore x d kv i j r).toF32) (p i)) x
  s.setLanding h sw l { x' with poisonSeen := x.poisonSeen || (lRows d).any p }

/-- An accumulator row after VALUE_ACC. -/
def valueAccRow (x : Landing) (d : Rec64) (kv i : Nat) (values : List (List Byte)) (a : AccVals) : AccVals :=
  let head := (i - lQbase d) / lG d
  { a with o := (values.mapIdx fun j r => (j, r)).foldl (fun o q =>
      (o.zip (headVals kv (lD d) head q.2)).map fun p => fma (x.queryElem i q.1) p.2 p.1) a.o }

def runValueAcc (s : State) (h sw l : Nat) (d : Rec64) (kv : Nat) : State :=
  let x := s.landing h sw l
  let values := tab (lNrows d) (landRow s h sw (lSrc2 d) (lStride2 d) kv d)
  let p := fun i => headPoison s h sw (lSrc2 d) (lStride2 d) kv d ((i - lQbase d) / lG d)
  let acc := (lRows d).foldl (fun t i =>
    let r := sget x.acc {} i
    sset t i (r.store (valueAccRow x d kv i values (r.vals (lD d))) (p i))) x.acc
  s.setLanding h sw l { x with acc := acc, poisonSeen := x.poisonSeen || (lRows d).any p }

/-- An accumulator row after ATTEND. -/
def attendAccRow (x : Landing) (d : Rec64) (kv i : Nat) (keys values : List (List Byte)) (a : AccVals) : AccVals :=
  let head := (i - lQbase d) / lG d
  ((keys.zip values).mapIdx fun j q => (j, q)).foldl (fun a q =>
    attendRow (landScore x d kv i q.1 q.2.1) (headVals kv (lD d) head q.2.2) a) a

def runAttend (s : State) (h sw l : Nat) (d : Rec64) (kv : Nat) : State :=
  let x := s.landing h sw l
  let keys := tab (lNrows d) (landRow s h sw (lSrc d) (lStride d) kv d)
  let values := tab (lNrows d) (landRow s h sw (lSrc2 d) (lStride2 d) kv d)
  let p := fun i => headPoison s h sw (lSrc d) (lStride d) kv d ((i - lQbase d) / lG d)
    || headPoison s h sw (lSrc2 d) (lStride2 d) kv d ((i - lQbase d) / lG d)
  let acc := (lRows d).foldl (fun t i =>
    let r := sget x.acc {} i
    sset t i (r.store (attendAccRow x d kv i keys values (r.vals (lD d))) (p i))) x.acc
  s.setLanding h sw l { x with acc := acc, poisonSeen := x.poisonSeen || (lRows d).any p }

def runAccClear (s : State) (h sw l : Nat) (d : Rec64) : State :=
  s.modLanding h sw l fun x => { x with acc := (lRows d).foldl (fun t i => sset t i {}) x.acc }

def runReadout (s : State) (h sw l : Nat) (d : Rec64) : State :=
  s.modLanding h sw l fun x => (lRows d).foldl (fun y i =>
    let r := sget x.acc {} i
    y.setResult i (r.m :: r.s :: tab (lD d) fun j => sget r.o 0 j) r.poison) x

def runFill (s : State) (h sw : Nat) (d : Rec64) : State :=
  s.write (.column h sw) (lDst d) (tab (lCount d) fun i => BitVec.ofNat 8 (lPattern d / 2 ^ (8 * (i % 4)))) false

/-- POISON_SEEN set when a command has read a poisoned line. -/
def seePoison (s : State) (h sw l : Nat) (p : Bool) : State :=
  if p then s.modLanding h sw l fun x => { x with poisonSeen := true } else s

def runCopy (s : State) (h sw l : Nat) (d : Rec64) : State :=
  let r := Region.column h sw
  let t := s.writeLines r (lDst d) (s.read r (lSrc d) (lCount d)) fun lo hi => s.poisonedAt r (lSrc d + lo) (hi - lo)
  seePoison t h sw l (s.poisonedAt r (lSrc d) (lCount d))

/-- Whether blocks `b0` to `b1` of 32 elements of `e` bits at `a` hold poison. -/
def blocksPoison (s : State) (r : Region) (a e b0 b1 : Nat) : Bool :=
  s.poisonedAt r (a + b0 * 4 * e) ((b1 + 1 - b0) * 4 * e)

def runPack (s : State) (h sw l : Nat) (d : Rec64) (kv : Nat) : State :=
  let r := Region.column h sw
  let n := lCount d
  let e := fmtBits kv
  let f := fmtBits (lPfmt d)
  let o := packPark kv (lPfmt d) n (s.read r (lSrc d) (n * kvBytes kv))
  let t := s.writeLines r (lDst d) o.1 fun lo hi => blocksPoison s r (lSrc d) e (lo / (4 * f)) ((hi - 1) / (4 * f))
  let t := t.writeLines r (lSaddr d) o.2 fun lo hi => blocksPoison s r (lSrc d) e lo (hi - 1)
  seePoison t h sw l (s.poisonedAt r (lSrc d) (n * kvBytes kv))

def runUnpack (s : State) (h sw l : Nat) (d : Rec64) (kv : Nat) : State :=
  let r := Region.column h sw
  let n := lCount d
  let e := fmtBits kv
  let f := fmtBits (lPfmt d)
  let o := unpackPark kv (lPfmt d) n (s.read r (lSrc d) (rowBytes (lPfmt d) n)) (s.read r (lSaddr d) (scaleLen n))
  let t := s.writeLines r (lDst d) o fun lo hi =>
    blocksPoison s r (lSrc d) f (lo / (4 * e)) ((hi - 1) / (4 * e))
      || s.poisonedAt r (lSaddr d + lo / (4 * e)) ((hi - 1) / (4 * e) + 1 - lo / (4 * e))
  seePoison t h sw l (s.poisonedAt r (lSrc d) (rowBytes (lPfmt d) n) || s.poisonedAt r (lSaddr d) (scaleLen n))

/-! ### Acceptance, start and completion -/

/-- A command DONE with a status; a chunk boundary falls here (R120), so postponed refreshes are issued (R122). -/
def Landing.doneWith (x : Landing) (d : Rec64) (status : Nat) : Landing :=
  { x with queue := x.queue.drop 1, done := x.done + 1, lastTag := lTag d, lastStatus := status, chunks := 0,
           postponed := [] }.leave

/-- Commands at the head whose opcode is reserved are refused as they start (R114). -/
def skipUnknown : Nat → State → Nat → Nat → Nat → State
  | 0, s, _, _, _ => s
  | n + 1, s, h, sw, l =>
    match (s.landing h sw l).queue with
    | .cmd d kv ok :: _ =>
      if lKnown (lOp d) then s
      else
        let st := if (s.landing h sw l).failed ∧ (s.stair h sw).fenced then Status.landingFault
          else (landStatus s h sw l d kv ok).getD Status.badEncoding
        skipUnknown n (s.modLanding h sw l fun x => x.doneWith d st) h sw l
    | _ => s

/-- Runs the command at the head of a landing's queue when its opcode is `op`. It waits while a bank that it touches is
still ENTERING. -/
def landCommand (s : State) (h sw l op : Nat) (run : State → Rec64 → Nat → State) : State :=
  let x := s.landing h sw l
  match x.queue with
  | .cmd d kv ok :: _ =>
    if lOp d = op ∧ s.colServed h sw = true then
      let end_ := fun (s : State) (st : Nat) => skipUnknown 8 (s.modLanding h sw l fun x => x.doneWith d st) h sw l
      if x.failed ∧ (s.stair h sw).fenced then end_ s Status.landingFault
      else match landStatus s h sw l d kv ok with
        | some st => end_ s st
        | none =>
          let banks := (landBanks d kv).map x.bank
          if banks.any fun m => m == .ordinary then end_ s Status.notLanding
          else if banks.any BankMode.entering? then s
          else end_ (run s d kv) Status.ok
    else s
  | _ => s

/-- SCORE (R116). -/
def execScore (h : HallId) (sw : SwId) (l : LayerId) (s : State) : Result :=
  .next (landCommand s h sw l 0x01 fun s d kv => runScore s h sw l d kv)

/-- VALUE_ACC (R116). -/
def execValueAcc (h : HallId) (sw : SwId) (l : LayerId) (s : State) : Result :=
  .next (landCommand s h sw l 0x02 fun s d kv => runValueAcc s h sw l d kv)

/-- ATTEND (R116). -/
def execAttend (h : HallId) (sw : SwId) (l : LayerId) (s : State) : Result :=
  .next (landCommand s h sw l 0x03 fun s d kv => runAttend s h sw l d kv)

/-- ACC_CLEAR. -/
def execAccClear (h : HallId) (sw : SwId) (l : LayerId) (s : State) : Result :=
  .next (landCommand s h sw l 0x04 fun s d _ => runAccClear s h sw l d)

/-- READOUT (R118). -/
def execReadout (h : HallId) (sw : SwId) (l : LayerId) (s : State) : Result :=
  .next (landCommand s h sw l 0x05 fun s d _ => runReadout s h sw l d)

/-- FILL. -/
def execFill (h : HallId) (sw : SwId) (l : LayerId) (s : State) : Result :=
  .next (landCommand s h sw l 0x08 fun s d _ => runFill s h sw d)

/-- COPY. -/
def execCopy (h : HallId) (sw : SwId) (l : LayerId) (s : State) : Result :=
  .next (landCommand s h sw l 0x09 fun s d _ => runCopy s h sw l d)

/-- PACK (R163). -/
def execPack (h : HallId) (sw : SwId) (l : LayerId) (s : State) : Result :=
  .next (landCommand s h sw l 0x0A fun s d kv => runPack s h sw l d kv)

/-- UNPACK. -/
def execUnpack (h : HallId) (sw : SwId) (l : LayerId) (s : State) : Result :=
  .next (landCommand s h sw l 0x0B fun s d kv => runUnpack s h sw l d kv)

/-- A whole command offered to a landing (R111, R114). -/
def offerCommand (s : State) (h sw l : Nat) (d : Rec64) : State :=
  let x := s.landing h sw l
  if x.retired then s.setLanding h sw l { x.refuse Status.layerLost with lastTag := lTag d }
  else if !(List.range 4).any fun b => (x.bank b).takes then
    s.setLanding h sw l { x.refuse Status.notLanding with lastTag := lTag d }
  else if 8 ≤ x.commands.length then s.setLanding h sw l { x with overflow := true, refused := true }
  else
    let ok := (landBanks d x.kvfmt).all fun b => (x.bank b).takes
    skipUnknown 8 (s.setLanding h sw l { x with queue := x.queue ++ [.cmd d x.kvfmt ok], issued := x.issued + 1 }) h sw l

/-- A slot with some of its bytes written. -/
def CmdSlot.fill (c : CmdSlot) (off : Nat) (bytes : List Byte) : CmdSlot :=
  let m := (2 ^ (8 * bytes.length) - 1) * 2 ^ (8 * off)
  { bytes := (c.bytes &&& ~~~(BitVec.ofNat 512 m)) ||| BitVec.ofNat 512 (leNat bytes * 2 ^ (8 * off))
    mask := c.mask ||| BitVec.ofNat 64 ((2 ^ bytes.length - 1) * 2 ^ off) }

/-- A write to a command slot of one landing. -/
def slotWrite (s : State) (h sw l slot off : Nat) (bytes : List Byte) : State :=
  let x := s.landing h sw l
  if bytes.length < 8 then s.setLanding h sw l { x with refused := true }
  else
    let c := (sget x.slots {} slot).fill off bytes
    if c.mask = BitVec.allOnes 64 then
      offerCommand (s.setLanding h sw l { x with slots := sset x.slots slot {} }) h sw l c.bytes
    else s.setLanding h sw l { x with slots := sset x.slots slot c }

/-- LANDING_CMD_WRITE (R111). -/
def execLandingCmdWrite (h : HallId) (sw : SwId) (page : Fin 16) (slot : Fin 4) (off : Fin 64) (bytes : List Byte)
    (s : State) : Result :=
  .next <|
    if off.val + bytes.length ≤ 64 then windowAccess s h sw page fun s l => slotWrite s h sw l slot off bytes else s

/-! ### Query and mask windows (R112) -/

/-- Bytes of buffered window writes. -/
def Landing.buffered (x : Landing) : Nat :=
  (x.queue.map fun i => match i with
    | .win _ b => b.length
    | .cmd _ _ _ => 0).sum

/-- Whether a range of a window page lies in the mask or the query window. -/
def windowRange (off n : Nat) : Bool :=
  (0x1000 ≤ off && off + n ≤ 0x1080) || (0x2000 ≤ off && off + n ≤ 0x4000)

/-- WINDOW_WRITE (R112): a store that would pass 16 KiB of buffered writes is held. Writes elsewhere are ignored. -/
def execWindowWrite (h : HallId) (sw : SwId) (page : Fin 16) (off : Nat) (bytes : List Byte) (s : State) : Result :=
  .next <|
    if windowRange off bytes.length &&
        (pageLayers page).all fun l => (s.landing h sw l).buffered + bytes.length ≤ 16384 then
      windowAccess s h sw page fun s l => s.modLanding h sw l fun x => { x with queue := x.queue ++ [.win off bytes] }
    else s

/-- A window write taken into the windows. -/
def Landing.applyWin (x : Landing) (off : Nat) (bytes : List Byte) : Landing :=
  if off < 0x2000 then
    { x with mask := (bytes.mapIdx fun i b => (off - 0x1000 + i, b)).foldl (fun t p => sset t p.1 p.2) x.mask }
  else { x with query := (bytes.mapIdx fun i b => (off - 0x2000 + i, b)).foldl (fun t p => sset t p.1 p.2) x.query }

/-- WINDOW_WRITE_APPLY (R112): every command accepted before it is DONE. -/
def execWindowWriteApply (h : HallId) (sw : SwId) (l : LayerId) (s : State) : Result :=
  .next <|
    if s.colServed h sw then
      let x := s.landing h sw l
      match x.queue with
      | .win off bytes :: rest =>
        skipUnknown 8 (s.setLanding h sw l { (x.applyWin off bytes) with queue := rest }) h sw l
      | _ => s
    else s

/-! ### Chunks and refresh (R120 to R124) -/

/-- CHUNK_BOUNDARY (R120, R122): a running command's chunk ends, and the due refreshes of its banks are issued. -/
def execChunkBoundary (h : HallId) (sw : SwId) (l : LayerId) (s : State) : Result :=
  .next <|
    let x := s.landing h sw l
    match x.queue with
    | .cmd d kv _ :: _ =>
      if s.colServed h sw && (landBanks d kv).all fun b => x.bank b == .landing || x.bank b == .leaving then
        s.setLanding h sw l { x with chunks := x.chunks + 1, postponed := (landBanks d kv).foldl (fun t b => sset t b 0) x.postponed }
      else s
    | _ => s

/-- REFRESH_DUE (R123, R124): a bank that a running command touches postpones it, at most four times; every other bank is
refreshed at once (log entry 18). -/
def execRefreshDue (h : HallId) (sw : SwId) (l : LayerId) (b : BankId) (s : State) : Result :=
  .next <|
    if s.colServed h sw then
      let x := s.landing h sw l
      let busy := match x.queue with
        | .cmd d kv _ :: _ => (landBanks d kv).contains b.val && (x.bank b == .landing || x.bank b == .leaving)
        | _ => false
      let n := sget x.postponed 0 b
      if busy && n < 4 then
        (s.setLanding h sw l { x with postponed := sset x.postponed b (n + 1) }).modStair h sw fun y =>
          { y with deferMax := max y.deferMax (n + 1) }
      else s.setLanding h sw l { x with postponed := sset x.postponed b 0 }
    else s

end Sys2Proof.Machine
end

