-- ==== Sys2Proof/Machine/VolOps.lean ====
section
/-! DEFINITION. Spines, leaf entries, slots, granules, descriptors and the edits that bindings make (chapter 5). -/

namespace Sys2Proof.Machine

/-! ### Entries (Tables 5.5 and 5.6) -/

def leV (e : Dword) : Bool := bitAt e 63
def leTier (e : Dword) : Nat := bits e 62 61
def leSh (e : Dword) : Bool := bitAt e 60
def leDt (e : Dword) : Bool := bitAt e 59
def leLoc (e : Dword) : Nat := bits e 55 28
def leHall (e : Dword) : Nat := bits e 55 52
def leSw (e : Dword) : Nat := bits e 51 44
def leSlot (e : Dword) : Nat := bits e 43 32
def leRef (e : Dword) : Nat := bits e 45 28
def leFill (e : Dword) : Nat := bits e 19 8

/-- A valid leaf entry of given fields. -/
def leafEntry (tier : Nat) (sh dt : Bool) (loc gen fill : Nat) : Dword :=
  BitVec.ofNat 64 (2 ^ 63 + tier % 4 * 2 ^ 61 + (if sh then 2 ^ 60 else 0) + (if dt then 2 ^ 59 else 0)
    + loc % 2 ^ 28 * 2 ^ 28 + gen % 256 * 2 ^ 20 + fill % 4096 * 256)

/-- LOC of a near leaf. -/
def nearLoc (h sw slot : Nat) : Nat := h % 16 * 2 ^ 24 + sw % 256 * 2 ^ 16 + slot % 4096 * 16

def withFill (e : Dword) (n : Nat) : Dword := (e &&& ~~~(0xFFF00#64)) ||| BitVec.ofNat 64 (n % 4096 * 256)
def withDt (e : Dword) (b : Bool) : Dword := if b then e ||| BitVec.ofNat 64 (2 ^ 59) else e &&& ~~~(BitVec.ofNat 64 (2 ^ 59))
def withSh (e : Dword) : Dword := e ||| BitVec.ofNat 64 (2 ^ 60)

/-- The entry moved to another tier and place; GEN is set with TIER or LOC. -/
def withLoc (e : Dword) (tier loc gen : Nat) (dt : Bool) : Dword := leafEntry tier (leSh e) dt loc gen (leFill e)

def shPv (e : Dword) : Bool := bitAt e 63
def shPr (e : Dword) : Bool := bitAt e 62
def shPloc (e : Dword) : Nat := bits e 59 32
def shPfill (e : Dword) : Nat := bits e 19 8
def shadowEntry (pv pr : Bool) (ploc pfill : Nat) : Dword :=
  BitVec.ofNat 64 ((if pv then 2 ^ 63 else 0) + (if pr then 2 ^ 62 else 0) + ploc % 2 ^ 28 * 2 ^ 32 + pfill % 4096 * 256)

/-- Entries of one volume: index and entry. -/
def spineSize : Nat := 2 ^ 18
def leafKey (v i : Nat) : Nat := v * spineSize + i
def State.leaf (s : State) (v i : Nat) : Dword := sget s.leaves 0 (leafKey v i)
def State.shadow (s : State) (v i : Nat) : Dword := sget s.shadows 0 (leafKey v i)
def State.setLeaf (s : State) (v i : Nat) (e : Dword) : State := { s with leaves := sset s.leaves (leafKey v i) e }
def State.setShadow (s : State) (v i : Nat) (e : Dword) : State := { s with shadows := sset s.shadows (leafKey v i) e }

/-- Valid entries of a volume, rising. -/
def State.spine (s : State) (v : Nat) : List (Nat × Dword) :=
  (s.leaves.filter fun p => v * spineSize ≤ p.1 && p.1 < (v + 1) * spineSize && leV p.2).map fun p => (p.1 - v * spineSize, p.2)

/-! ### Geometry -/

def State.plan (s : State) (p : Nat) : Plan := sget s.plans {} p
def State.planOf (s : State) (v : Nat) : Plan := s.plan (s.vol v).plan

/-- Elements of a leaf's keys and values. -/
def Plan.elems (p : Plan) : Nat := p.kvbytes * 8 / fmtBits p.kvfmt

/-- MX element format of a park format (Table 5.8). -/
def parkElem (f : Nat) : Nat := if f = 1 then 0x04 else 0x06

/-- Offsets of the scales and of the bytes beyond GEO_KVBYTES in a park copy, and its size P (Table 5.8). -/
def parkScaleOff (p : Plan) (f : Nat) : Nat := alignUp (rowBytes (parkElem f) p.elems) 256
def parkTailOff (p : Plan) (f : Nat) : Nat := parkScaleOff p f + alignUp (ceilDiv p.elems 32) 256
def parkSize (p : Plan) (f : Nat) : Nat := if f = 0 then 65536 else parkTailOff p f + 65536 - p.kvbytes

def parkGranules (p : Plan) (f : Nat) : Nat := ceilDiv (parkSize p f) 8192
def farGranules (p : Plan) (f : Nat) : Nat := ceilDiv (parkSize p f) 32768

/-- Bytes of the park tier's device share (R23). -/
def State.deviceShare (s : State) : Nat :=
  1536 * gib - s.hostRes - 64 * gib * popcount s.porter.host.parkFailed

/-- Start of the park leaf area in PARK space, and its granules (R162, R178). -/
def State.parkAreaStart (s : State) : Nat := 128 * 2 ^ 20 + s.porter.host.spineGib * gib
def State.parkAreaGranules (s : State) : Nat := (s.deviceShare - s.parkAreaStart) / 8192
def State.spinePages (s : State) : Nat := s.porter.host.spineGib * 2 ^ 18
def spineFirstPage : Nat := 2 ^ 15
def State.farAreaGranules (s : State) : Nat := s.porter.host.farSize * 2 ^ 15

/-- Park address of PARK-space offset `o` (R280). -/
def State.parkAddr (s : State) (o : Nat) : Nat := s.hostRes + o
/-- Park address of park leaf number `n`, and far-space address of far leaf number `n` (R162). -/
def State.parkLeafAddr (s : State) (n : Nat) : Nat := s.parkAddr (s.parkAreaStart + n * 8192)
def State.farLeafAddr (s : State) (n : Nat) : Nat := s.porter.host.farBase * gib + n * 32768

/-! ### Allocation -/

/-- The lowest run of `n` numbers that a table does not list as used, starting at a multiple of `a`, below `limit`;
`at_` is the candidate. -/
def freeRun (n a limit : Nat) : Nat → Sparse Bool → Option Nat
  | at_, [] => if at_ + n ≤ limit then some at_ else none
  | at_, (k, used) :: t =>
    if !used || k < at_ then freeRun n a limit at_ t
    else if at_ + n ≤ k then some at_
    else freeRun n a limit (ceilDiv (k + 1) a * a) t

/-- Numbers from `a` on marked used, or freed. -/
def markRun (t : Sparse Bool) (a n : Nat) : Sparse Bool := (List.range n).foldl (fun t i => sset t (a + i) true) t
def clearRun (t : Sparse Bool) (a n : Nat) : Sparse Bool := t.filter fun p => p.1 < a || a + n ≤ p.1

def State.freePark (s : State) (n : Nat) : Option Nat := freeRun n 1 s.parkAreaGranules 0 s.parkUsed
def State.freeFar (s : State) (n : Nat) : Option Nat := freeRun n 1 s.farAreaGranules 0 s.farUsed
def State.freePages (s : State) (n a : Nat) : Option Nat := freeRun n a s.spinePages 0 s.spineUsed

def slotKey (h sw slot : Nat) : Nat := swKey h sw * 2400 + slot
def State.slotUse (s : State) (h sw slot : Nat) : SlotUse := sget s.slots .free (slotKey h sw slot)
def State.setSlot (s : State) (h sw slot : Nat) (u : SlotUse) : State :=
  { s with slots := if u = .free then sdel s.slots (slotKey h sw slot) else sset s.slots (slotKey h sw slot) u }

/-- Region of a slot, and whether its region is landed (R94). -/
def slotRegion (slot : Nat) : Nat := slot / 1024
def slotLanded (x : Stairwell) (slot : Nat) : Bool := x.landed.getLsbD (slotRegion slot) && !(x.layBusy && x.layChange.getLsbD (slotRegion slot))

/-- Whether a slot could hold a leaf now. -/
def State.slotFree (s : State) (h sw slot : Nat) : Bool :=
  slotLanded (s.stair h sw) slot && !((s.hall h).layerLost.getLsbD (slot % 12)) && s.slotUse h sw slot == .free

/-- Slots of a stairwell that the volumes of a plan occupy or reserve. -/
def State.slotsOfPlan (s : State) (h sw p : Nat) : Nat :=
  (s.slots.filter fun q => q.1 / 2400 == swKey h sw &&
    match q.2 with
    | .leaf v _ => (s.vol v.toNat).plan == p
    | .reserve v => (s.vol v.toNat).plan == p
    | .newBlock st => (sfind s.steps st).any fun x => (s.vol x.vol.toNat).plan == p
    | .free => false).length

/-- Free slots of a stairwell that other plans than `p` have reserved and not yet used (check 9 of Table 8.13). -/
def State.reservedByOthers (s : State) (h sw p : Nat) : Nat :=
  ((s.plans.filter fun q => q.1 != p && q.2.placedOn h sw).map fun q => q.2.slotRes - s.slotsOfPlan h sw q.1).sum

def State.freeSlots (s : State) (h sw : Nat) : Nat := countN 2400 fun k => s.slotFree h sw k

/-- Whether a stairwell has more than `n` free slots. -/
def State.freeMoreThan (s : State) (h sw n : Nat) : Bool :=
  !(((List.range 2400).filter fun k => s.slotFree h sw k).drop n).isEmpty

/-- Lowest free slot of a stairwell on the next layer in rotation (R168): layers from `rotLayer` on, lost and full ones
skipped. -/
def State.nextSlot (s : State) (h sw : Nat) : Option Nat :=
  (List.range 12).findSome? fun i =>
    let l := ((s.stair h sw).rotLayer + i) % 12
    (findN 200 fun j => s.slotFree h sw (j * 12 + l)).map fun j => j * 12 + l

/-- Enabled stairwells of a hall mask's halls in service, by hall, then by physical number (R168). -/
def State.placeList (s : State) (mask : BitVec 12) : List (Nat × Nat) :=
  (List.range 12).flatMap fun h => if mask.getLsbD h then (s.enabledSws h).map fun p => (h, p) else []

/-- The slot that the `k`-th leaf takes, from stairwell k mod S of the list on, for a volume of plan `p`. -/
def State.placeSlot (s : State) (l : List (Nat × Nat)) (k p : Nat) : Option (Nat × Nat × Nat) :=
  if l.isEmpty then none
  else (List.range l.length).findSome? fun i =>
    let x := l.getD ((k + i) % l.length) (0, 0)
    if s.freeMoreThan x.1 x.2 (s.reservedByOthers x.1 x.2 p) then (s.nextSlot x.1 x.2).map fun t => (x.1, x.2, t) else none

/-- Takes a slot for a use and moves the stairwell's rotation on. -/
def State.takeSlot (s : State) (h sw slot : Nat) (u : SlotUse) : State :=
  (s.setSlot h sw slot u).modStair h sw fun x => { x with rotLayer := (slot % 12 + 1) % 12 }

/-- A slot for a leaf of volume `v` that already has its granules. -/
def State.reserveSlot (s : State) (v : Nat) (mask : BitVec 12) (k : Nat) (u : SlotUse) (park : Nat) :
    Except Nat (Reserve × State) :=
  match s.placeSlot (s.placeList mask) k (s.vol v).plan with
  | none => .error Status.noSlots
  | some (h, sw, slot) =>
    .ok ({ hall := Fin.ofNat 12 h, sw := Fin.ofNat 256 sw, slot := slot, park := park, granules := false }, s.takeSlot h sw slot u)

/-- A slot and park granules for a leaf of volume `v`: the refusal, or the reserve and the state that holds it. -/
def State.reserveLeaf (s : State) (v : Nat) (mask : BitVec 12) (k : Nat) (u : SlotUse) : Except Nat (Reserve × State) :=
  let x := s.vol v
  let p := s.plan x.plan
  match s.placeSlot (s.placeList mask) k x.plan with
  | none => .error Status.noSlots
  | some (h, sw, slot) =>
    let n := parkGranules p x.parkFmt
    match s.freePark n with
    | none => .error Status.noParkSpace
    | some g =>
      .ok ({ hall := Fin.ofNat 12 h, sw := Fin.ofNat 256 sw, slot := slot, park := g },
           { s.takeSlot h sw slot u with parkUsed := markRun s.parkUsed g n })

/-- Gives back a reserve's slot, and its own granules. -/
def State.dropReserve (s : State) (v : Nat) (r : Reserve) : State :=
  let s := s.setSlot r.hall r.sw r.slot .free
  if r.granules then { s with parkUsed := clearRun s.parkUsed r.park (parkGranules (s.planOf v) (s.vol v).parkFmt) } else s

/-- The spine pair of an index, allocated when it is absent; none when the spine pool is full. Its root entry gets V in the
binding that sets the pair's first leaf entry (R146). -/
def State.ensurePair (s : State) (v i : Nat) : Option State :=
  let k := v * 512 + i / 512
  match sfind s.pairs k with
  | some _ => some s
  | none =>
    match s.freePages 2 2 with
    | none => none
    | some g => some { s with pairs := sset s.pairs k (spineFirstPage + g), spineUsed := markRun s.spineUsed g 2 }

/-! ### Counts and generations -/

/-- LEAVES, NEAR_LEAVES and NEAR_HALLS after an edit: own leaves only. -/
def State.recount (s : State) (v : Nat) : State :=
  let l := (s.spine v).filter fun p => leTier p.2 != 3
  let near := l.filter fun p => leTier p.2 == 0
  let halls := near.foldl (fun (m : BitVec 12) p => m ||| BitVec.ofNat 12 (2 ^ leHall p.2)) 0
  s.modVol v fun x => { x with leaves := l.length, nearLeaves := near.length, nearHalls := halls }

/-- SGEN raised once for a binding, NGEN set when the binding rewrites (R146). -/
def State.sgenUp (s : State) (v : Nat) (rewrites : Bool) : State :=
  s.modVol v fun x => { x with sgen := x.sgen + 1, ngen := if rewrites then x.sgen + 1 else x.ngen }

/-- GEN that an edit of a volume sets: the low bits of the SGEN that the binding leaves. -/
def State.editGen (s : State) (v : Nat) : Nat := ((s.vol v).sgen + 1).toNat % 256

/-- NGEN is newer than a snapshot (R146). -/
def newer (n g : Word) : Bool := 1 ≤ (n - g).toNat && (n - g).toNat ≤ 2 ^ 31 - 1

/-- States in which a linked volume counts in LIVE_LINKS (Table 5.1). -/
def VolState.linkLive : VolState → Bool
  | .live | .running | .parking | .resuming => true
  | _ => false

/-- LINKS and LIVE_LINKS of front matter, from the volumes that link to it. -/
def State.relink (s : State) (f : Nat) : State :=
  let l := s.vols.filter fun p => p.2.linked && p.2.fmLink.toNat == f && p.2.state != .free
  s.modVol f fun x => { x with links := l.length, liveLinks := (l.filter fun p => p.2.state.linkLive).length }

/-- A volume's state set, with the live links of the front matter it links to. -/
def State.setVolState (s : State) (v : Nat) (st : VolState) : State :=
  let x := s.vol v
  let s := s.setVol v { x with state := st }
  if x.linked then s.relink x.fmLink.toNat else s

/-- Spine pairs that some indices lie in. -/
def pairsOf (l : List Nat) : List Nat := (l.map fun i => i / 512).dedup

/-- Edits of some entries, one binding per spine pair as R166 and R167 have it (log entry 123): `f` edits one index, given the
GEN of its binding, and each binding raises SGEN once. -/
def State.byPair (s : State) (v : Nat) (idxs : List Nat) (rewrites : Bool) (f : State → Nat → Nat → State) : State :=
  (pairsOf idxs).foldl (fun s n =>
    let gen := s.editGen v
    ((idxs.filter fun i => i / 512 == n).foldl (fun s i => f s gen i) s).sgenUp v rewrites) s

/-! ### Freeing -/

/-- Gives back the slot that an entry names and the granules that it and its shadow name: `n` in the park tier, `m` in the
far tier. -/
def State.freePlaces (s : State) (e sh : Dword) (n m : Nat) : State :=
  let s := if leV e && leTier e == 0 then s.setSlot (leHall e) (leSw e) (leSlot e) .free else s
  let s := if shPr sh then { s with parkUsed := clearRun s.parkUsed (shPloc sh) n } else s
  if leV e && leTier e == 2 then { s with farUsed := clearRun s.farUsed (leLoc e) m } else s

/-- Gives back the slot and granules that an entry and its shadow hold. -/
def State.freeEntry (s : State) (v : Nat) (e sh : Dword) : State :=
  let p := s.planOf v
  let f := (s.vol v).parkFmt
  s.freePlaces e sh (parkGranules p f) (farGranules p f)

def State.ref (s : State) (f i : Nat) : RefCount := sget s.refs {} (leafKey f i)
def State.setRef (s : State) (f i : Nat) (r : RefCount) : State := { s with refs := sset s.refs (leafKey f i) r }

/-- Steps that hold a pin on leaf `i` of front matter `f`, running or ended. -/
def State.pinHolders (s : State) (f i : Nat) : List Nat :=
  (s.steps.filter fun q => q.2.pinned.elem i && (s.vol q.2.vol.toNat).fmLink.toNat == f).map (fun q => q.1)
    ++ (s.unpins.filter fun q => q.2.1 == f && q.2.2.elem i).map fun q => q.1

/-- Leaf `i`'s places kept until its pins are lowered (R159). -/
def State.keepPlaces (s : State) (f i : Nat) (e sh : Dword) : State :=
  let p := s.planOf f
  let fmt := (s.vol f).parkFmt
  { s with kept := s.kept ++ [{ steps := s.pinHolders f i, entry := e, shadow := sh, park := parkGranules p fmt,
                                far := farGranules p fmt }] }

/-- What step `n` alone still kept is given back. -/
def State.unkeep (s : State) (n : Nat) : State :=
  let l := s.kept.map fun k => { k with steps := k.steps.filter fun i => i != n }
  let s := { s with kept := l.filter fun k => !k.steps.isEmpty }
  (l.filter fun k => k.steps.isEmpty).foldl (fun s k => s.freePlaces k.entry k.shadow k.park k.far) s

/-- Places that an edit removes from entry `i` of a spine: given back once no pin holds the leaf (R159), after the step's
record when the volume is RUNNING (R153), and else at once. -/
def State.giveBack (s : State) (v i : Nat) (e sh : Dword) : State :=
  if (s.vol v).fm && (s.ref v i).pin != 0 then s.keepPlaces v i e sh
  else if (s.vol v).state = .running then s.modJob v fun j => { j with deferred := j.deferred ++ [(e, sh)] }
  else s.freeEntry v e sh

/-- A front-matter volume whose last link is gone becomes FREE when it is RETIRING (Table 5.2): its remaining leaves,
its spine and its reference table are freed. A leaf still pinned keeps its places till the pins are lowered (R159); one
whose reference-table entry is poisoned keeps them till the next cold bring-up (R385). -/
def State.freeVolume (s : State) (v : Nat) : State :=
  let x := s.vol v
  let p := s.plan x.plan
  let inVol := fun (k : Nat) => v * spineSize ≤ k && k < (v + 1) * spineSize
  -- slots and granules of own leaves that nobody still reads
  let s := (s.spine v).foldl (fun s q =>
    let r := s.ref v q.1
    if leTier q.2 == 3 || (x.fm && r.poison) then s
    else if x.fm && r.pin != 0 then s.keepPlaces v q.1 q.2 (s.shadow v q.1)
    else s.freeEntry v q.2 (s.shadow v q.1)) s
  let s := (s.job v).reserves.foldl (fun s q => s.dropReserve v q.2) s
  let s := (s.pairs.filter fun q => q.1 / 512 == v).foldl (fun s q =>
    { s with spineUsed := clearRun s.spineUsed (q.2 - spineFirstPage) 2 }) s
  let s := { s with spineUsed := clearRun s.spineUsed (x.root - spineFirstPage) 1 }
  let s := if x.fm then { s with spineUsed := clearRun s.spineUsed (x.reftab - spineFirstPage) (ceilDiv (p.layers * p.span) 1024) } else s
  { s with vols := sdel s.vols v, jobs := sdel s.jobs v,
           leaves := s.leaves.filter fun q => !inVol q.1,
           shadows := s.shadows.filter fun q => !inVol q.1,
           pairs := s.pairs.filter fun q => q.1 / 512 != v,
           refs := s.refs.filter fun q => !inVol q.1,
           unpins := s.unpins.map fun q => (q.1, if q.2.1 = v then (v, []) else q.2) }

/-- R158: RETIRING front matter is freed when its LINKS reaches 0. -/
def State.retireCheck (s : State) (f : Nat) : State :=
  let x := s.vol f
  if x.retiring && x.links == 0 then s.freeVolume f else s

/-- R159: a shared leaf's slot and granules are reclaimed when REF and PIN are both 0; the entry is dropped, in a rewriting
edit of the front matter's spine (R146, log entry 123). -/
def State.reclaimShared (s : State) (f i : Nat) : State :=
  let r := s.ref f i
  if r.ref = 0 ∧ r.pin = 0 ∧ r.poison = false ∧ leV (s.leaf f i) = true then
    let s := s.freeEntry f (s.leaf f i) (s.shadow f i)
    (((s.setLeaf f i 0).setShadow f i 0).sgenUp f true).recount f
  else s

/-- REF of a front-matter leaf lowered by 1. -/
def State.dropRef (s : State) (f i : Nat) : State :=
  let r := s.ref f i
  (s.setRef f i { r with ref := r.ref - 1 }).reclaimShared f i

/-- An entry removed from a spine: its resources are freed, after the step's record when the volume is RUNNING (R153);
an indirect entry lowers REF (R157). -/
def State.releaseEntry (s : State) (v : Nat) (e sh : Dword) : State :=
  let x := s.vol v
  if !leV e then s
  else if leTier e = 3 then s.dropRef x.fmLink.toNat (leRef e)
  else if x.state = .running then s.modJob v fun j => { j with deferred := j.deferred ++ [(e, sh)] }
  else s.freeEntry v e sh

/-- What an edit removed from a RUNNING volume is freed once its step's record is written (R153). -/
def State.freeDeferred (s : State) (v : Nat) : State :=
  let l := (s.job v).deferred
  let s := s.modJob v fun j => { j with deferred := [] }
  l.foldl (fun s p => s.freeEntry v p.1 p.2) s

/-! ### Completing a descriptor of a volume -/

/-- Completes claim `c` of volume `v`. -/
def volDone (s : State) (c v status count : Nat) : State :=
  match s.claim? c with
  | none => s
  | some x => s.complete c x.hall.val status (volPart s v count)

/-! ### Copies between tiers (R150, R163) -/

/-- Column address of the staging block that a leaf in `slot` passes through: one of the two on the slot's own layer. -/
def stagingAt (s : State) (h sw slot : Nat) : Nat :=
  (2400 + (if Config.stagingSecond h sw slot s.now then 12 else 0) + slot % 12) * 65536

/-- The PACK or UNPACK that microcode gives the landing of a leaf's layer (Tables 4.10 and 4.11). -/
def transcodeCmd (p : Plan) (fmt op src dst scales : Nat) : Rec64 :=
  put 512 0 0 8 op ||| put 512 4 0 28 src ||| put 512 0x0C 0 28 dst ||| put 512 0x10 0 28 scales
    ||| put 512 0x24 0 25 p.elems ||| put 512 0x2C 0 8 (parkElem fmt)

/-- A command of microcode's own, run on a landing and counted there (R111). -/
def microRun (s : State) (h sw l : Nat) (run : State → State) : State :=
  (run s).modLanding h sw l fun y => { y with issued := y.issued + 1, done := y.done + 1, lastTag := 0, lastStatus := 0 }

/-- The leaf in a near slot copied to its park copy: as it is, or packed into a staging block, from where its elements and
scales are moved; the bytes beyond GEO_KVBYTES are moved from the slot. -/
def copyToPark (s : State) (p : Plan) (fmt h sw slot park : Nat) : State :=
  let a := slot * 65536
  let d := s.parkLeafAddr park
  let col := Region.column h sw
  if fmt = 0 then s.copyBeats col a .park d 65536
  else
    let t := stagingAt s h sw slot
    let c := transcodeCmd p fmt 0x0A a t (t + parkScaleOff p fmt)
    let s := microRun s h sw (slot % 12) fun s => runPack s h sw (slot % 12) c p.kvfmt
    let s := s.copyBeats col t .park d (rowBytes (parkElem fmt) p.elems)
    let s := s.copyBeats col (t + parkScaleOff p fmt) .park (d + parkScaleOff p fmt) (ceilDiv p.elems 32)
    s.copyBeats col (a + p.kvbytes) .park (d + parkTailOff p fmt) (65536 - p.kvbytes)

/-- A park-format copy brought into a near slot: as it is, or through a staging block and UNPACK. -/
def copyToNear (s : State) (p : Plan) (fmt : Nat) (src : Region) (a h sw slot : Nat) : State :=
  let d := slot * 65536
  let col := Region.column h sw
  if fmt = 0 then s.copyBeats src a col d 65536
  else
    let t := stagingAt s h sw slot
    let c := transcodeCmd p fmt 0x0B t d (t + parkScaleOff p fmt)
    let s := s.copyBeats src a col t (rowBytes (parkElem fmt) p.elems)
    let s := s.copyBeats src (a + parkScaleOff p fmt) col (t + parkScaleOff p fmt) (ceilDiv p.elems 32)
    let s := microRun s h sw (slot % 12) fun s => runUnpack s h sw (slot % 12) c p.kvfmt
    s.copyBeats src (a + parkTailOff p fmt) col (d + p.kvbytes) (65536 - p.kvbytes)

/-- Whether a leaf's slot can be read or written now: its column is served, and no landing command holds it (R121). -/
def slotReady (s : State) (h sw slot : Nat) (write : Bool) : Bool :=
  s.colServed h sw && !s.colHeld h sw (slot * 65536) 65536 write

end Sys2Proof.Machine
end

