-- ==== Sys2Proof/Machine/Plans.lean ====
section
/-! DEFINITION. PLAN_LOAD and PLAN_UNLOAD: the image, the checks of Table 8.13 and the loading (R252 to R258, R487). -/

namespace Sys2Proof.Machine

/-! ### The image (Tables 8.9, 8.11 and 8.12) -/

/-- A placement entry as the image gives it. -/
def plHall (d : Rec32) : Nat := fld d 0 0 4
def plSw (d : Rec32) : Nat := fld d 0 4 8
def plQueue (d : Rec32) : Nat := fld d 0 12 4
def plLane (d : Rec32) : Nat := fld d 0 16 6
def plFirst (d : Rec32) : Nat := fld d 4 0 32
def plCount (d : Rec32) : Nat := fld d 8 0 32
def plLo (d : Rec32) : Nat := fld d 0x0C 0 22
def plHi (d : Rec32) : Nat := fld d 0x10 0 22
def plCol (d : Rec32) : Nat := fld d 0x14 0 28
def daHall (d : Rec32) : Nat := fld d 0 0 4
def daBcast (d : Rec32) : Bool := fld d 0 4 1 == 1
def daSw (d : Rec32) : Nat := fld d 0 12 8
def daCol (d : Rec32) : Nat := fld d 4 0 28
def daBytes (d : Rec32) : Nat := fld d 8 0 32
def daSrc (d : Rec32) : Nat := fld d 0x0C 0 40

/-- A plan image in host memory: its address and its header's 1 KiB. -/
structure Image where
  at_ : Nat
  hd  : BitVec 8192
deriving DecidableEq, Repr

def readImage (s : State) (a : Nat) : Image := { at_ := a, hd := BitVec.ofNat 8192 (s.readNat .park a 1024) }

def Image.f (g : Image) (off lo width : Nat) : Nat := fld g.hd off lo width
def Image.placeCount (g : Image) : Nat := g.f 0x50 0 32
def Image.dataCount (g : Image) : Nat := g.f 0x58 0 32
def Image.ctabCount (g : Image) : Nat := g.f 0x60 0 32
def Image.opsCount (g : Image) : Nat := g.f 0x68 0 32
def Image.place (g : Image) (s : State) (i : Nat) : Rec32 := s.record32 .park (g.at_ + g.f 0x4C 0 32 + 32 * i)
def Image.data (g : Image) (s : State) (i : Nat) : Rec32 := s.record32 .park (g.at_ + g.f 0x54 0 32 + 32 * i)
def Image.ctab (g : Image) (s : State) (i : Nat) : Dword :=
  BitVec.ofNat 64 (s.readNat .park (g.at_ + g.f 0x5C 0 32 + 8 * i) 8)
def Image.op (g : Image) (s : State) (i : Nat) : Rec64 := s.record64 .park (g.at_ + g.f 0x64 0 32 + 64 * i)
def Image.lanes (g : Image) : Nat := g.f 0x20 25 7
def Image.attRows (g : Image) : Nat := g.f 0x20 18 7
def Image.boardHall (g : Image) (k : Nat) : Nat := g.f (0x200 + 8 * k) 0 4
def Image.boardSw (g : Image) (k : Nat) : Nat := g.f (0x200 + 8 * k) 4 8
def Image.boardBase (g : Image) (k : Nat) : Nat := g.f (0x204 + 8 * k) 0 22

/-- The header's fields as a plan with nothing placed. -/
def Image.plan (g : Image) : Plan :=
  { srSeed := BitVec.ofNat 32 (g.f 8 0 32), layers := g.f 0x0C 0 10, span := g.f 0x10 0 19, tpl := g.f 0x14 0 12,
    kvfmt := g.f 0x14 12 8, lead := g.f 0x14 20 8, kvbytes := g.f 0x18 0 17, rowelems := g.f 0x1C 0 12,
    kvheads := g.f 0x20 0 5, g := g.f 0x20 5 5, d := g.f 0x20 10 8, rows := g.attRows, lanes := g.lanes,
    head := g.f 0x24 0 1 == 1, scale := BitVec.ofNat 32 (g.f 0x28 0 32), koff := g.f 0x2C 0 17, voff := g.f 0x30 0 17,
    stride := g.f 0x34 0 17, attClasp := g.f 0x38 0 16, claspBase := g.f 0x3C 0 16, claspCount := g.f 0x40 0 17,
    regions := BitVec.ofNat 3 (g.f 0x44 0 3), slotRes := g.f 0x48 0 12 }

/-- Query heads over all rows of a board: Q of R180. -/
def Plan.q (p : Plan) : Nat := p.rows * p.kvheads * p.g
/-- Areas of a board (Table 6.2). -/
def Plan.newkvOff (p : Plan) : Nat := 0x200 + p.q * 512
def Plan.outOff (p : Plan) : Nat := p.newkvOff + 2 * p.rows * p.stride
def Plan.headIdxOff (p : Plan) : Nat := p.outOff + p.q * 512
def Plan.headValOff (p : Plan) : Nat := p.headIdxOff + (if p.head then p.rows * 256 else 0)
def Plan.boardSize (p : Plan) : Nat := p.headValOff + (if p.head then p.rows * 256 else 0)

/-- Bytes of one key or value row. -/
def Plan.rowLen (p : Plan) : Nat := rowBytes p.kvfmt p.rowelems

/-! ### The checks (Table 8.13) -/

/-- The first of a list of checks that fails. -/
def firstFail : List (Option PlanFail) → Option PlanFail
  | [] => none
  | some f :: _ => some f
  | none :: l => firstFail l

/-- The first of 0 to n − 1 that fails a check. -/
def failAt (n : Nat) (f : Nat → Option PlanFail) : Option PlanFail := (List.range n).findSome? f

/-- Table 5.7. -/
def geometryBad (p : Plan) : Bool :=
  p.layers < 8 || 512 < p.layers || p.span % 512 != 0 || p.span < 512 || 262144 < p.layers * p.span
  || p.tpl < 16 || 2048 < p.tpl || !([0x01, 0x02, 0x07, 0x08].contains p.kvfmt)
  || p.kvbytes % 256 != 0 || p.kvbytes < 256 || 65536 < p.kvbytes
  || p.rowelems % 32 != 0 || p.rowelems < 32 || p.kvbytes % p.rowLen != 0 || p.layers < (1 + p.lead) * 8

/-- Table 6.1, the rules refused with BAD_SHAPE. -/
def attentionShape (p : Plan) : Bool :=
  let e := (p.tpl - 1) * p.stride + p.rowLen
  p.kvheads == 0 || 16 < p.kvheads || p.g == 0 || 16 < p.g || p.d == 0 || 254 < p.d || p.kvheads * p.d != p.rowelems
  || p.koff % 64 != 0 || p.voff % 64 != 0 || p.stride % 64 != 0 || p.stride < p.rowLen
  || p.kvbytes < p.koff + e || p.kvbytes < p.voff + e || !(p.koff + e ≤ p.voff || p.voff + e ≤ p.koff)

def headerReserved (g : Image) : Bool :=
  anySet g.hd [(4, 16, 16), (0x0C, 10, 22), (0x10, 19, 13), (0x14, 28, 4), (0x18, 17, 15), (0x1C, 12, 20), (0x24, 1, 31),
    (0x2C, 17, 15), (0x30, 17, 15), (0x34, 17, 15), (0x38, 16, 16), (0x3C, 16, 16), (0x40, 17, 15), (0x44, 3, 29),
    (0x48, 12, 20), (0x6C, 0, 3232)]
  || (g.attRows != 0 && anyN 64 fun k =>
      if k < g.lanes then g.f (0x200 + 8 * k) 12 20 != 0 || g.f (0x204 + 8 * k) 22 10 != 0
      else g.f (0x200 + 8 * k) 0 64 != 0)

/-- An area of entries that is not 64-byte aligned or leaves the host reservation (R487). -/
def areaBad (s : State) (g : Image) (off n size : Nat) : Bool :=
  g.f off 0 32 % 64 != 0 || !s.inHost (g.at_ + g.f off 0 32) (n * size)

def headerRange (s : State) (g : Image) : Bool :=
  let p := g.plan
  areaBad s g 0x4C g.placeCount 32 || areaBad s g 0x54 g.dataCount 32 || areaBad s g 0x5C g.ctabCount 8
  || areaBad s g 0x64 g.opsCount 64
  || 65536 < p.claspBase + p.claspCount
  || (p.rows != 0 &&
      (p.attClasp < p.claspBase || p.claspBase + p.claspCount < p.attClasp + 4 * p.lanes
      || anyN p.lanes fun k => g.boardBase k % 64 != 0 || planSramEnd < g.boardBase k + p.boardSize))

def headerStatus (s : State) (g : Image) : Option Nat :=
  let p := g.plan
  firstStatus (headerReserved g)
    (p.rows != 0 && (f32Special p.scale || anyN p.lanes fun k => 11 < g.boardHall k))
    (geometryBad p || 64 < p.rows || p.lanes == 0 || 64 < p.lanes || (p.rows != 0 && attentionShape p)
      || g.placeCount == 0 || 4096 < g.placeCount || 2400 < p.slotRes)
    (headerRange s g)

def placeStatus (g : Image) (d : Rec32) : Option Nat :=
  firstStatus (anySet d [(0, 22, 10), (0x0C, 22, 10), (0x10, 22, 10), (0x14, 28, 4), (0x18, 0, 64)])
    (11 < plHall d || 10 ≤ plQueue d)
    (plCount d == 0 || 65536 < plCount d || g.opsCount < plFirst d + plCount d || g.lanes ≤ plLane d)
    (plLo d % 64 != 0 || plHi d % 64 != 0 || plCol d % 256 != 0)

def dataStatus (s : State) (d : Rec32) : Option Nat :=
  firstStatus (anySet d [(0, 5, 7), (0, 20, 12), (4, 28, 4), (0x10, 8, 24), (0x14, 0, 96)] || (daBcast d && daSw d != 0))
    (11 < daHall d) (daBytes d % 256 != 0)
    (daCol d % 256 != 0 || daSrc d % 256 != 0 || !s.inHost (daSrc d) (daBytes d))

def ctabStatus (g : Image) (e : Dword) : Option Nat :=
  let p := g.plan
  firstStatus (bits e 31 18 != 0) (bits e 17 16 == 0) false
    (bits e 15 0 < p.claspBase || p.claspBase + p.claspCount ≤ bits e 15 0)

/-- Check 2: the header, then the entries in their order (R484, R487, log entry 14). -/
def check2 (s : State) (g : Image) : Option PlanFail :=
  firstFail [
    (headerStatus s g).map fun st => { status := st },
    failAt g.placeCount fun i => (placeStatus g (g.place s i)).map fun st =>
      { status := st, hall := plHall (g.place s i), sw := plSw (g.place s i), entry := i },
    failAt g.dataCount fun i => (dataStatus s (g.data s i)).map fun st =>
      { status := st, hall := daHall (g.data s i), sw := daSw (g.data s i), entry := i },
    failAt g.ctabCount fun i => (ctabStatus g (g.ctab s i)).map fun st => { status := st, entry := i }]

/-- Whether a logical stairwell of a hall in service is held and enabled; its physical number. -/
def State.resolve (s : State) (h l : Nat) : Option Nat :=
  match s.physicalOf h l with
  | some p => if s.swEnabled h p then some p else none
  | none => none

def check4 (s : State) (g : Image) : Option PlanFail :=
  firstFail [
    failAt g.placeCount fun i =>
      let d := g.place s i
      if (s.resolve (plHall d) (plSw d)).isSome then none
      else some { status := Status.unitFenced, hall := plHall d, sw := plSw d, entry := i },
    failAt g.dataCount fun i =>
      let d := g.data s i
      if (if daBcast d then s.hallUp (daHall d) else (s.resolve (daHall d) (daSw d)).isSome) then none
      else some { status := Status.unitFenced, hall := daHall d, sw := daSw d, entry := i }]

/-- Physical stairwell of a checked placement. -/
def Image.placeSw (g : Image) (s : State) (i : Nat) : Nat :=
  (s.resolve (plHall (g.place s i)) (plSw (g.place s i))).getD 0

/-- Placements of every loaded plan. -/
def State.allPlacements (s : State) : List Placement := s.plans.flatMap fun q => q.2.placements

def check5 (s : State) (g : Image) : Option PlanFail :=
  failAt g.placeCount fun i =>
    let d := g.place s i
    let p := g.placeSw s i
    let other := s.allPlacements.any fun e => e.hall.val == plHall d && e.sw.val == p && e.queue == plQueue d
    let own := anyN i fun j => plHall (g.place s j) == plHall d && g.placeSw s j == p && plQueue (g.place s j) == plQueue d
    if other || own then
      some { status := Status.planNoStrands, hall := plHall d, sw := plSw d, entry := i, need := 1 }
    else none

/-- Bytes that two intervals share. -/
def overlap (a b c d : Nat) : Nat := min b d - max a c

def check6 (s : State) (g : Image) : Option PlanFail :=
  let p := g.plan
  firstFail [
    failAt g.placeCount fun i =>
      let d := g.place s i
      let sw := g.placeSw s i
      let outside := plHi d - planSramEnd + (plLo d - plHi d)
      let met := ((s.allPlacements.filter fun e => e.hall.val == plHall d && e.sw.val == sw).map fun e =>
        overlap (plLo d) (plHi d) e.lo e.hi).sum
      if outside + met = 0 then none
      else some { status := Status.planNoSram, hall := plHall d, sw := plSw d, entry := i, need := outside + met },
    if p.rows = 0 then none
    else failAt p.lanes fun k =>
      let b := g.boardBase k
      let ok := match s.resolve (g.boardHall k) (g.boardSw k) with
        | none => false
        | some sw => anyN g.placeCount fun i =>
          plHall (g.place s i) == g.boardHall k && g.placeSw s i == sw && plLo (g.place s i) ≤ b
            && b + p.boardSize ≤ plHi (g.place s i)
      if ok then none
      else some { status := Status.planNoSram, hall := g.boardHall k, sw := g.boardSw k, need := p.boardSize }]

def check7 (s : State) (g : Image) : Option PlanFail :=
  let p := g.plan
  let bad := countN p.claspCount fun i =>
    let k := p.claspBase + i
    (s.plans.any fun q => q.2.claspBase ≤ k && k < q.2.claspBase + q.2.claspCount)
      || !s.hallUp (claspHome k) || !(s.clasp k).waiters.isEmpty
  if bad = 0 then none else some { status := Status.planNoClasps, need := bad }

def check8 (s : State) (g : Image) : Option PlanFail :=
  failAt g.placeCount fun i =>
    let missing := g.plan.regions &&& ~~~(s.stair (plHall (g.place s i)) (g.placeSw s i)).landed
    if missing = 0 then none
    else some { status := Status.planNoLanded, hall := plHall (g.place s i), sw := plSw (g.place s i), need := missing.toNat }

def check9 (s : State) (g : Image) : Option PlanFail :=
  failAt g.placeCount fun i =>
    let h := plHall (g.place s i)
    let sw := g.placeSw s i
    let have_ := s.freeSlots h sw - s.reservedByOthers h sw 0
    if g.plan.slotRes ≤ have_ then none
    else some { status := Status.planNoSlots, hall := h, sw := plSw (g.place s i), need := g.plan.slotRes - have_ }

/-- Column ranges of an image: hall, stairwell, start, length, entry, and whether it is a data entry. -/
def Image.ranges (g : Image) (s : State) : List (Nat × Nat × Nat × Nat × Nat × Bool) :=
  (tab g.placeCount fun i => (plHall (g.place s i), g.placeSw s i, plCol (g.place s i), plCount (g.place s i) * 64, i, false))
  ++ (List.range g.dataCount).flatMap fun i =>
    let d := g.data s i
    let sws := if daBcast d then s.enabledSws (daHall d) else [(s.resolve (daHall d) (daSw d)).getD 0]
    sws.map fun sw => (daHall d, sw, daCol d, daBytes d, i, true)

/-- Column ranges that loaded plans hold on a stairwell. -/
def State.heldRanges (s : State) (h sw : Nat) : List (Nat × Nat) :=
  s.plans.flatMap fun q =>
    ((q.2.placements.filter fun e => e.hall.val == h && e.sw.val == sw).map fun e => (e.colOps, e.count * 64))
    ++ ((q.2.data.filter fun e => e.hall.val == h && e.sw.val == sw).map fun e => (e.addr, e.len))

/-- R255: wholly in a striped region, with no layout change under way there, or in the tail after the staging blocks. -/
def rangePlaceOk (x : Stairwell) (a n : Nat) : Bool :=
  a + n ≤ columnEnd &&
    ((0x9780000 ≤ a)
    || (let r := a / 0x4000000
        !x.landed.getLsbD r && !(x.layBusy && x.layChange.getLsbD r) && (a + n ≤ (r + 1) * 0x4000000 || r == 2) && (a + n ≤ 0x9600000 || 0x9780000 ≤ a)))

def check10 (s : State) (g : Image) : Option PlanFail :=
  let l := g.ranges s
  (List.range l.length).findSome? fun j =>
    match l[j]? with
    | none => none
    | some (h, sw, a, n, i, _) =>
      let meets := fun (b m : Nat) => n != 0 && m != 0 && a < b + m && b < a + n
      let bad := !rangePlaceOk (s.stair h sw) a n || (s.heldRanges h sw).any (fun r => meets r.1 r.2)
        || (l.take j).any fun r => r.1 == h && r.2.1 == sw && meets r.2.2.1 r.2.2.2.1
      if bad then some { status := Status.badRange, hall := h, sw := s.logicalOf h sw, entry := i } else none

/-- State of a chain scan over one placement's stream: the open chains by set: M, N, K so far, split. -/
abbrev Chains := Sparse (Nat × Nat × Nat × Bool)

/-- K of the rest of a chain on set `a`: up to the op that drains it, or the next START. -/
def chainRest (a : Nat) : List (Nat × Rec64) → Nat
  | [] => 0
  | (_, d) :: l =>
    if opKind d ≠ 0x01 ∨ tSet d ≠ a then chainRest a l
    else if tAcc d = 0 then 0
    else if tDrain d then tK d else tK d + chainRest a l

/-- Chain rules over a stream (Table 2.6): the first failing op, with its status and the chain's total K. The length of a split
chain is check 12's alone. -/
def chainScan (length : Bool) : Chains → List (Nat × Rec64) → Option (Nat × Nat × Nat)
  | _, [] => none
  | c, (i, d) :: l =>
    if opKind d ≠ 0x01 then chainScan length c l
    else
      let a := tSet d
      let next := fun k => if tDrain d then sdel c a else sset c a (tM d, tN d, k, tSplitEn d)
      match sfind c a with
      | none => if tAcc d = 0 then chainScan length (next (tK d)) l else some (i, Status.accState, 0)
      | some (m, n, k, sp) =>
        if tAcc d = 0 then some (i, Status.accState, 0)
        else if tM d ≠ m ∨ tN d ≠ n then some (i, Status.badShape, 0)
        else if length = true ∧ 2 ^ 24 < k + tK d ∧ sp = true then
          some (i, Status.planAccLength, k + tK d + if tDrain d then 0 else chainRest a l)
        else if 65536 < k + tK d ∧ sp = false then some (i, Status.accState, 0)
        else chainScan length (if tDrain d then sdel c a else sset c a (m, n, k + tK d, sp)) l

/-- Streams of the image: placement, and its ops with their indices. -/
def Image.stream (g : Image) (s : State) (i : Nat) : List (Nat × Rec64) :=
  let d := g.place s i
  tab (plCount d) fun j => (plFirst d + j, g.op s (plFirst d + j))

/-- Check 11 for one op: its record in the window of every placement that holds it, and its clasp (R217, R254). -/
def planOpStatus (s : State) (g : Image) (i : Nat) : Option Nat :=
  let d := g.op s i
  let p := g.plan
  let holders := (List.range g.placeCount).filter fun j =>
    plFirst (g.place s j) ≤ i && i < plFirst (g.place s j) + plCount (g.place s j)
  let base := if holders.isEmpty then opStatus d 0 planSramEnd
    else holders.foldl (fun a j => firstOf a (opStatus d (plLo (g.place s j)) (plHi (g.place s j)))) none
  firstOf base
    (if opKind d = 0x05 ∧ (cClasp d < p.claspBase ∨ p.claspBase + p.claspCount ≤ cClasp d) then some Status.badRange else none)

/-- The chain failures of every placement, without or with the accumulation length. -/
def chainFails (s : State) (g : Image) (length : Bool) : List (Nat × Nat × Nat × Nat) :=
  (List.range g.placeCount).filterMap fun j =>
    match chainScan length [] (g.stream s j) with
    | some (i, st, k) => if (st == Status.planAccLength) == length then some (i, st, k, j) else none
    | none => none

/-- The lowest index among failures. -/
def lowest (l : List (Nat × Nat × Nat × Nat)) : Option (Nat × Nat × Nat × Nat) :=
  l.foldl (fun a x => match a with
    | none => some x
    | some y => if x.1 < y.1 then some x else some y) none

def failOp (s : State) (g : Image) (i st need j : Nat) : PlanFail :=
  { status := st, index := i, hall := plHall (g.place s j), sw := plSw (g.place s j), entry := j, need := need }

def check11 (s : State) (g : Image) : Option PlanFail :=
  let rec_ := (List.range g.opsCount).findSome? fun i => (planOpStatus s g i).map fun st => (i, st)
  match rec_, lowest (chainFails s g false) with
  | none, none => none
  | some (i, st), none => some { status := st, index := i }
  | none, some (i, st, _, j) => some (failOp s g i st 0 j)
  | some (i, st), some (i', st', _, j) =>
    if i < i' ∨ (i = i' ∧ statusRank st ≤ statusRank st') then some { status := st, index := i } else some (failOp s g i' st' 0 j)

def check12 (s : State) (g : Image) : Option PlanFail :=
  (lowest (chainFails s g true)).map fun x => failOp s g x.1 x.2.1 (min x.2.2.1 (2 ^ 32 - 1)) x.2.2.2

/-- Checks 2 to 12 in their order. -/
def planChecks (s : State) (g : Image) : Option PlanFail :=
  firstFail [check2 s g, if s.plans.length < 64 then none else some { status := Status.planTableFull }, check4 s g,
    check5 s g, check6 s g, check7 s g, check8 s g, check9 s g, check10 s g, check11 s g, check12 s g]

/-- All checks of Table 8.13 on the image at an address. -/
def planCheck (s : State) (a : Nat) : Option PlanFail :=
  if a % 4096 ≠ 0 ∨ s.inHost a 1024 = false then some { status := Status.badRange }
  else
    let g := readImage s a
    if g.f 0 0 32 ≠ 0x4E414C50 ∨ g.f 4 0 16 ≠ 0x0001 then some { status := Status.badEncoding }
    else planChecks s g

/-! ### Loading -/

/-- The four clasps of each lane (R181) as a clasp table gives them. -/
def laneClasps (p : Plan) : List (Nat × Nat × Word) :=
  if p.rows = 0 then []
  else (List.range p.lanes).flatMap fun k =>
    let c := p.attClasp + 4 * k
    [(c, 3, 0), (c + 1, 2, 0), (c + 2, 1, 0), (c + 3, 2, 0)]

def claspTypeOf (t : Nat) : ClaspType := if t = 1 then .counter else if t = 2 then .flag else .lock

/-- A clasp table applied, then the lanes' clasps (R217). -/
def applyClasps (s : State) (p : Plan) : State :=
  (p.ctab ++ laneClasps p).foldl (fun s e =>
    s.setClasp e.1 { typ := claspTypeOf e.2.1, val := if e.2.1 = 2 then e.2.2 &&& 1 else if e.2.1 = 3 then e.2.2 &&& 0xCFFFFFFF else e.2.2 }) s

/-- The plan that a checked image describes. -/
def Image.loaded (g : Image) (s : State) : Plan :=
  { g.plan with
    placements := tab g.placeCount fun i =>
      let d := g.place s i
      { hall := Fin.ofNat 12 (plHall d), sw := Fin.ofNat 256 (g.placeSw s i), queue := plQueue d, lane := plLane d,
        first := plFirst d, count := plCount d, lo := plLo d, hi := plHi d, colOps := plCol d }
    data := ((g.ranges s).filter fun r => r.2.2.2.2.2).map fun r =>
      { hall := Fin.ofNat 12 r.1, sw := Fin.ofNat 256 r.2.1, addr := r.2.2.1, len := r.2.2.2.1 }
    ctab := tab g.ctabCount fun i =>
      let e := g.ctab s i
      (bits e 15 0, bits e 17 16, BitVec.ofNat 32 (bits e 63 32))
    boards := if g.attRows = 0 then [] else tab g.lanes fun k =>
      { hall := Fin.ofNat 12 (g.boardHall k), sw := Fin.ofNat 256 ((s.resolve (g.boardHall k) (g.boardSw k)).getD 0),
        base := g.boardBase k } }

/-- Streams and data copied into the columns (R256). -/
def copyPlan (s : State) (g : Image) : State :=
  (g.ranges s).foldl (fun t r =>
    let src := if r.2.2.2.2.2 then daSrc (g.data s r.2.2.2.2.1)
      else g.at_ + g.f 0x64 0 32 + 64 * plFirst (g.place s r.2.2.2.2.1)
    (hostPass t src r.2.2.2.1).copyBeats .park src (.column r.1 r.2.1) r.2.2.1 r.2.2.2.1) s

/-- Lowest number from 1 that no loaded plan holds (R252). -/
def State.freePlan (s : State) : Nat := ((List.range 64).map (· + 1)).find? (fun n => (sfind s.plans n).isNone) |>.getD 0

/-- A plan loaded, by the steps of R256 that follow the checks. -/
def loadPlan (s : State) (c a : Nat) : State :=
  let g := readImage s a
  let n := s.freePlan
  let p := g.loaded s
  let s := copyPlan (applyClasps { s with plans := sset s.plans n p } p) g
  s.complete c 15 Status.ok (planPart n { status := 0 })

/-- PLAN_LOAD (R256). -/
def execPlanLoad (c : Nat) (s : State) : Result :=
  .next <| withClaim s c 0x01 fun x =>
    if anySet x.desc [(0x0C, 8, 24), (0x10, 0, 384)] then s.complete c 15 Status.badReserved (planPart 0 { status := 0 })
    else
      let a := fld x.desc 8 0 40
      match planCheck s a with
      | some f => s.complete c 15 f.status (planPart 0 f)
      | none => loadPlan s c a

/-- The plan's queues released: reset and emptied. -/
def releaseQueues (s : State) (p : Plan) : State :=
  p.placements.foldl (fun s e => resetQueue s e.hall e.sw e.queue) s

/-- PLAN_UNLOAD (R257). A plan whose PLAN_UNLOAD is refused can open volumes again. -/
def execPlanUnload (c : Nat) (s : State) : Result :=
  .next <| withClaim s c 0x02 fun x =>
    let n := fld x.desc 8 0 16
    if anySet x.desc [(8, 16, 16), (0x0C, 0, 416)] then s.complete c 15 Status.badReserved (planPart 0 { status := 0 })
    else
      match sfind s.plans n with
      | none => s.complete c 15 Status.noPlan (planPart 0 { status := 0 })
      | some p =>
        if s.vols.any fun v => v.2.plan == n && v.2.state != .free then
          s.complete c 15 Status.planInUse (planPart 0 { status := 0 })
        else
          let s := releaseQueues { s with plans := sdel s.plans n } p
          s.complete c 15 Status.ok (planPart n { status := 0 })

end Sys2Proof.Machine
end

