-- ==== Sys2Proof/Machine/StepOps.lean ====
section
/-! DEFINITION. What a step is, how its run is loaded on the lane's queues, and how a step that fails stops
(R187, R247, R248, R254). -/

namespace Sys2Proof.Machine

def State.step? (s : State) (n : Nat) : Option Step := sfind s.steps n
def State.setStep (s : State) (n : Nat) (x : Step) : State := { s with steps := sset s.steps n x }

/-- Changes a step that exists. -/
def State.modStep (s : State) (n : Nat) (f : Step → Step) : State :=
  match s.step? n with
  | some x => s.setStep n (f x)
  | none => s

/-- The `i`-th clasp of a lane (R181): 0 lock, 1 GO, 2 DONE, 3 HEAD. -/
def laneClasp (p : Plan) (lane i : Nat) : Nat := p.attClasp + 4 * lane + i

/-- Owner that usher `u` of a hall gives a lock (R211). -/
def usherOwner (u : UsherId) : Nat := 0xFFFFF0 + u.val

/-- The usher of the home hall that runs a step. -/
def Step.usher (x : Step) : UsherId := Config.usherOf x.claim

/-- An operation of a step's usher on the `i`-th clasp of the lane. While the step runs, a failure is the step's (R220). -/
def laneUsherOp (s : State) (x : Step) (running : Bool) (i cop v : Nat) : State :=
  usherOp s x.home x.usher (if running then some x.claim else none) cop
    (BitVec.ofNat 16 (laneClasp (s.planOf x.vol.toNat) x.lane i)) (BitVec.ofNat 32 v)

/-- The lane lock of an ended step released by its usher (R183). -/
def releaseLane (s : State) (x : Step) : State := laneUsherOp s x false 0 0x32 (usherOwner x.usher)

/-! ### The lane's queues -/

/-- The stairwell that runs the `i`-th placement of a plan for a step: its own, or the standby of R394. -/
def Step.runsOn (x : Step) (i : Nat) (e : Placement) : Nat :=
  match x.standby.find? fun p => p.1 == i with
  | some p => p.2
  | none => e.sw

/-- The placements of a step's lane with the stairwell that runs each: index, placement, stairwell. -/
def laneRuns (p : Plan) (x : Step) : List (Nat × Placement × Nat) :=
  ((p.placements.mapIdx fun i e => (i, e)).filter fun q => q.2.lane == x.lane).map fun q =>
    (q.1, q.2, x.runsOn q.1 q.2)

/-- A queue stopped and reset by microcode: the waits of its strands are withdrawn (Table 2.11, R486). -/
def stopQueue (s : State) (h : HallId) (sw q : Nat) : State :=
  resetQueue (withdraw s (.strand h (Fin.ofNat 256 sw) (Fin.ofNat 12 q))) h sw q

/-- The op stream of a placement, read from its column (R254). -/
def streamOf (s : State) (e : Placement) : List QueuedOp :=
  tab e.count fun i =>
    let a := e.colOps + 64 * i
    { op := s.record64 (.column e.hall e.sw) a, idx := e.first + i,
      poison := s.poisonedAt (.column e.hall e.sw) a 64 }

/-- A placement loaded for a run of step `n` on a stairwell (R254, R394). -/
def loadPlacement (s : State) (n plan : Nat) (e : Placement) (sw : Nat) : State :=
  let x := s.queue e.hall sw e.queue
  s.setQueue e.hall sw e.queue
    { x with state := .running, ops := x.ops ++ streamOf s e, plan := some plan, step := some n,
             seed := (s.plan plan).srSeed, winLo := e.lo, winHi := e.hi,
             col := if sw = e.sw.val then none else some e.sw.val, haltStatus := 0, haltIndex := 0 }

/-- The plan's run started in a step's lane. -/
def loadLane (s : State) (n : Nat) (x : Step) : State :=
  let pn := (s.vol x.vol.toNat).plan
  (laneRuns (s.plan pn) x).foldl (fun s q => loadPlacement s n pn q.2.1 q.2.2) s

/-- The plan's run stopped: its queues are reset. -/
def stopLane (s : State) (x : Step) : State :=
  (laneRuns (s.planOf x.vol.toNat) x).foldl (fun s q => stopQueue s q.2.1.hall q.2.2 q.2.1.queue) s

/-- Every leaf-work item of a step discarded, with the rows it was to use (R189). -/
def dropItems (s : State) (n : Nat) : State :=
  { s with stairs := s.stairs.map fun p =>
      (p.1, { p.2 with items := p.2.items.filter fun i => i.step != n, rows := p.2.rows.filter fun r => r.step != n }) }

/-! ### The record (Table 6.6) -/

/-- HEAD_IDX entry 0 of a row of a step's board. -/
def headIdx (s : State) (x : Step) (row j : Nat) : Word :=
  let p := s.planOf x.vol.toNat
  match p.boards[x.lane]? with
  | some b => BitVec.ofNat 32 (s.readNat (.sram b.hall b.sw) (b.base + p.headIdxOff + row * 256 + 4 * j) 4)
  | none => 0

/-- NEXT_TOKEN of a record. -/
def nextToken (s : State) (x : Step) (status : Nat) : Nat :=
  if status = Status.ok ∨ status = Status.poisoned then
    if (s.planOf x.vol.toNat).head then x.nextTok.toNat else 0xFFFFFFFF
  else if status = Status.queueHalted then
    match x.halt with
    | some (_, _, _, _, i) => i
    | none => 0
  else 0

/-- The unit that a record names: hall, stairwell, queue, status of the halting op, and whether it is the whole hall. -/
def recordUnit (x : Step) (status : Nat) (unit : Nat × Nat × Bool) : Nat × Nat × Nat × Nat × Bool :=
  if status = Status.queueHalted then
    match x.halt with
    | some (h, sw, q, st, _) => (h, sw, q, st, false)
    | none => (0, 0, 0, 0, false)
  else if status = Status.unitFenced then (unit.1, if unit.2.2 then 0 else unit.2.1, 0, 0, unit.2.2)
  else (0, 0, 0, 0, false)

/-- The step part of a completion record (Table 6.6). -/
def stepPart (s : State) (x : Step) (status : Nat) (unit : Nat × Nat × Bool) : Rec32 :=
  let u := recordUnit x status unit
  let kept := x.op == .verify && (status == Status.ok || status == Status.poisoned)
  put 256 0x10 0 32 (s.vol x.vol.toNat).tokens.toNat ||| put 256 0x14 0 32 (nextToken s x status)
    ||| put 256 0x18 0 5 (if kept then x.accepted else 0) ||| put 256 0x18 5 6 (if kept then x.lastNode else 0)
    ||| put 256 0x18 11 1 (if x.rewalk then 1 else 0) ||| put 256 0x18 12 1 (if x.press then 1 else 0)
    ||| put 256 0x18 13 1 (if x.poison then 1 else 0)
    ||| put 256 0x18 14 18 (if x.poison then x.poisonIdx.getD 0x3FFFF else 0)
    ||| put 256 0x1C 0 4 u.1 ||| put 256 0x1C 4 8 u.2.1 ||| put 256 0x1C 12 4 u.2.2.1
    ||| put 256 0x1C 16 8 u.2.2.2.1 ||| put 256 0x1C 24 1 (if u.2.2.2.2 then 1 else 0)

/-- The completion record of a step, written by its home hall. -/
def stepRecord (s : State) (x : Step) (status : Nat) (unit : Nat × Nat × Bool) : State :=
  s.complete x.claim x.home.val status (stepPart s x status unit)

/-! ### Pins (R155) -/

/-- PIN of some leaves of front matter lowered; a leaf with no counts left is reclaimed (R159). -/
def lowerPins (s : State) (f : Nat) (l : List Nat) : State :=
  l.foldl (fun s i =>
    let r := s.ref f i
    (s.setRef f i { r with pin := r.pin - 1 }).reclaimShared f i) s

/-- The pins of an ended step wait for the front matter's home to lower them. -/
def unpin (s : State) (n : Nat) (x : Step) : State :=
  if x.pinned.isEmpty then s
  else { s with unpins := sset s.unpins n ((s.vol x.vol.toNat).fmLink.toNat, x.pinned) }

/-! ### Ending -/

/-- The lane's clasps as a stopped step leaves them: GO and HEAD cleared, DONE zero (R248). -/
def clearLane (s : State) (x : Step) : State :=
  laneUsherOp (laneUsherOp (laneUsherOp s x false 1 0x21 0) x false 3 0x21 0) x false 2 0x13 0

/-- What an ended step still has in its lane stopped: nothing while it waits for the lane's lock. -/
def quitLane (s : State) (x : Step) : State := if x.phase = .lane then s else clearLane (stopLane s x) x

/-- The lock of a step that has its lane released. -/
def leaveLane (s : State) (x : Step) : State := if x.phase = .lane then s else releaseLane s x

/-- A step's new blocks returned to the free slots (R187). -/
def returnBlocks (s : State) (x : Step) : State := x.blocks.foldl (fun s b => s.dropReserve x.vol.toNat b.res) s

/-! ### Append reserves (R161) -/

/-- Append reserves for a list of layers, the k-th on. -/
def reserveLayers (v : Nat) (mask : BitVec 12) : List Nat → Nat → State → Except Nat State
  | [], _, s => .ok s
  | l :: t, k, s =>
    match s.reserveLeaf v mask k (.reserve (BitVec.ofNat 20 v)) with
    | .error st => .error st
    | .ok (r, s') => reserveLayers v mask t (k + 1) (s'.modJob v fun j => { j with reserves := sset j.reserves l r, stageK := k + 1 })

/-- Whether a layer lacks its append reserve and no retired ring head or new block of a step is to become it (R161). -/
def reserveLacks (s : State) (v l : Nat) : Bool :=
  let p := s.planOf v
  (sfind (s.job v).reserves l).isNone &&
    ((s.vol v).window == 0 || !((s.job v).retired.any (fun q => q.1 / p.span == l)
      || s.steps.any fun q => q.2.vol.toNat == v && q.2.blocks.any fun b => b.layer == l))

/-- The append reserve of a layer, reserved when it lacks. -/
def fillReserve (s : State) (v l : Nat) : Except Nat State :=
  if reserveLacks s v l then reserveLayers v (s.vol v).place [l] (s.job v).stageK s else .ok s

/-- Reserves that a volume in service lacks, refilled where there is room (R161). -/
def refill (s : State) (v : Nat) : State :=
  if (s.vol v).state = .live ∨ (s.vol v).state = .running then
    (List.range (s.planOf v).layers).foldl (fun s l => match fillReserve s v l with
      | .ok s => s
      | .error _ => s) s
  else s

/-- A volume leaves RUNNING when its step's record is written. -/
def leaveRunning (s : State) (v : Nat) : State :=
  let s := if (s.vol v).state = .running then s.setVolState v .live else s
  refill (s.freeDeferred v) v

/-- A step ends before its commit with a status other than OK (R187, R248): its work in the lane stops, nothing
commits, the record is written, and the lane lock and the pins are released. -/
def endStep (s : State) (n status : Nat) (unit : Nat × Nat × Bool) : State :=
  match s.step? n with
  | none => s
  | some x =>
    let s := { dropItems s n with steps := sdel s.steps n }.endWaits x.claim
    let s := returnBlocks (quitLane s x) x
    let s := leaveRunning (stepRecord s x status unit) x.vol.toNat
    unpin (leaveLane s x) n x

/-- Whether a step may still be ended (R247): it is not committing. -/
def Step.endable (x : Step) : Bool :=
  x.phase == .lane || x.phase == .claim || x.phase == .run || x.phase == .decide || x.phase == .check

/-- Whether a clasp of a step's lane is lost (R219, R220, R385). -/
def laneLost (s : State) (x : Step) : Bool :=
  (List.range 4).any fun i =>
    let k := laneClasp (s.planOf x.vol.toNat) x.lane i
    (s.clasp k).lost || (s.hall (claspHome k)).state == .fenced || (s.hall (claspHome k)).state == .off

/-- Ends each step whose usher's clasp operation has failed or whose lane clasps are lost. -/
def settle (s : State) : State :=
  s.steps.foldl (fun s p =>
    match s.step? p.1 with
    | none => s
    | some x =>
      if x.endable then
        match x.fail with
        | some st => endStep s p.1 st (0, 0, false)
        | none =>
          if x.phase ≠ .lane ∧ laneLost s x = true then endStep s p.1 Status.claspLost (0, 0, false) else s
      else s) s

end Sys2Proof.Machine
end

