-- ==== Sys2Proof/Machine/Sequencer.lean ====
section
/-! DEFINITION. The sequencer: ops leave their queue, become READY and retire (R58, R59, R62). -/

namespace Sys2Proof.Machine

/-- OP_HANDOUT (R58, R43): a failed check halts the queue; the step that it works for ends when its usher sees that. -/
def execOpHandout (h : HallId) (sw : SwId) (q : QueueId) (s : State) : Result := .next (handout s h sw q)

/-- OP_READY (R59): the `i`-th op in flight of the queue. -/
def execOpReady (h : HallId) (sw : SwId) (q : QueueId) (i : Fin 32) (s : State) : Result :=
  .next (makeReady s h sw q i)

/-- OP_RETIRE (R62). -/
def execOpRetire (h : HallId) (sw : SwId) (q : QueueId) (s : State) : Result :=
  .next (if s.swRuns h sw then retireOp s h sw q else s)

end Sys2Proof.Machine
end

