-- ==== Sys2Proof/Machine/Press.lean ====
section
/-! DEFINITION. The press: TILE ops, accumulator sets, split chains and the drain (chapters 2 and 3). -/

namespace Sys2Proof.Machine

/-! ### Rows of a stairwell's SRAM -/

/-- `n` words from an address. -/
def State.words (s : State) (r : Region) (a n : Nat) : List Word :=
  tab n fun i => BitVec.ofNat 32 (s.readNat r (a + 4 * i) 4)

def wordBytes (l : List Word) : List Byte := l.flatMap fun w => leBytes 4 w.toNat

/-- Whether one of `rows` rows of `len` bytes, `stride` apart, holds poison. -/
def State.rowsPoisoned (s : State) (r : Region) (base rows stride len : Nat) : Bool :=
  anyN rows fun i => s.poisonedAt r (base + i * stride) len

/-- Every line of an interval marked poisoned. -/
def State.poisonRange (s : State) (r : Region) (lo hi : Nat) : State :=
  (unitsOf r lo (hi - lo)).foldl (fun s u => s.setPoison r u true) s

/-- Row `i` of an operand as exact values; an MX row is read with its scales (R67, R72). -/
def operandRow (s : State) (r : Region) (f n base stride sbase sstride i : Nat) : List FNum :=
  let bytes := s.read r (base + i * stride) (rowBytes f n)
  if fmtMx f then mxVals f n bytes (s.read r (sbase + i * sstride) (scaleLen n)) else plainVals f n bytes

/-! ### K-steps (R44, R49, R75) -/

/-- The K-steps of an op over products `lo` to `hi`: cut at every sixteenth product of the op. -/
def kSteps : Nat → Nat → Nat → List (Nat × Nat)
  | 0, _, _ => []
  | n + 1, lo, hi => if hi ≤ lo then [] else (lo, min hi (lo / 16 * 16 + 16)) :: kSteps n (lo / 16 * 16 + 16) hi

/-- Exact sum of the products of one K-step (R75, R76). -/
def stepSum (a b : List FNum) (lo hi : Nat) : FNum :=
  (List.range (hi - lo)).foldl (fun t i => t.add ((a.getD (lo + i) numZero).mul (b.getD (lo + i) numZero))) numZero

/-- One accumulator after one K-step: rounded once, and never −0 (R75, R77). -/
def accStep (acc s : FNum) : FNum :=
  let v := (acc.add s).r32
  if v.isZero then numZero else v

/-- One accumulator after the K-steps of an op from product `lo` to `hi`; an integer is not rounded (R78). -/
def accRun (int : Bool) (a b : List FNum) (lo hi : Nat) (acc : FNum) : FNum :=
  (kSteps ((hi - lo) / 16 + 2) lo hi).foldl (fun t p =>
    let v := stepSum a b p.1 p.2
    if int then t.add v else accStep t v) acc

/-! ### Accumulator sets -/

/-- The word that a set holds for an accumulator value: FP32, or a two's-complement integer. -/
def accWord (int : Bool) (v : FNum) : Word := if int then BitVec.ofNat 32 (v.toIntSat 32) else v.toF32
def accVal (int : Bool) (w : Word) : FNum := FNum.ofBits (if int then 0x0A else 0x09) w.toNat

def AccSet.word (x : AccSet) (i : Nat) : Word := sget x.vals 0 i
def AccSet.values (x : AccSet) : List Word := tab 2048 x.word
def accOfList (l : List Word) : Sparse Word := (l.mapIdx fun i w => (i, w)).filter fun p => p.2 != 0

/-- Where slot `i` of a split area lies. -/
def splitSlot (base i : Nat) : Nat := base + 8192 * i

/-- The lowest slot of a split area that holds no partial (log entry 16). -/
def AccSet.freeSlot (x : AccSet) : Option Nat := findN 9 fun i => !x.partials.any fun p => p.2 == i

/-- Two stored partials of one level: the lowest level that has two. -/
def AccSet.pairAt (x : AccSet) : Option (Nat × Nat × Nat) :=
  (List.range 9).findSome? fun l =>
    match x.partials.filter fun p => p.1 == l with
    | p :: q :: _ => some (l, p.2, q.2)
    | _ => none

/-- Whether the vector engine still has partials of equal level to add on a stairwell (R49). -/
def addsDue (s : State) (h sw : Nat) : Bool := anyN 8 fun a => (s.accSet h sw a).pairAt.isSome

/-- SPLIT_DRAIN (R49): the set drained in FP32 into a slot of its split area, and zeroed. The set's words lie there row by
row, 32 to a row; the spec gives no order within a partial (DESIGN CHOICE, log entry 16). -/
def splitDrain (s : State) (h sw : Nat) (x : AccSet) : State × AccSet :=
  match x.split, x.freeSlot with
  | some base, some i =>
    (s.write (.sram h sw) (splitSlot base i) (wordBytes x.values) x.poison,
     { x with vals := [], partials := x.partials ++ [(0, i)] })
  | _, _ => (s, x)

/-- Two partials of equal level added into the first one's slot (R49). -/
def addPair (s : State) (h sw a : Nat) : State :=
  let x := s.accSet h sw a
  match x.split, x.pairAt with
  | some base, some (l, i, j) =>
    let r := Region.sram h sw
    let u := s.words r (splitSlot base i) 2048
    let v := s.words r (splitSlot base j) 2048
    let p := s.poisonedAt r (splitSlot base i) 8192 || s.poisonedAt r (splitSlot base j) 8192
    let w := (u.zip v).map fun q => (fadd (f32 q.1) (f32 q.2)).toF32
    let t := s.write r (splitSlot base i) (wordBytes w) p
    t.setAcc h sw a { x with partials := (x.partials.filter fun q => q.2 != i && q.2 != j) ++ [(l + 1, i)]
                             poison := x.poison || p }
  | _, _ => s

/-- Additions until no two partials have the same level. -/
def addAll : Nat → State → Nat → Nat → Nat → State
  | 0, s, _, _, _ => s
  | n + 1, s, h, sw, a => if (s.accSet h sw a).pairAt.isSome then addAll n (addPair s h sw a) h sw a else s

/-- The partials of a divided chain's pieces added in the order in which they arrive (R84, R87): the first is taken as it
is. Each is carried as FP32 words (R86). -/
def sumPieces (step op : Nat) (l : List (List Word)) : List Word :=
  match sortBy (fun q => Config.pieceArrival step op q.1) (l.mapIdx fun i w => (i, w)) with
  | [] => []
  | p :: t => t.foldl (fun a q => (a.zip q.2).map fun w => (fadd (f32 w.1) (f32 w.2)).toF32) p.2

/-- The pieces' partials and the set's contents, which are the last piece, added at the chain's drain. -/
def joinPieces (s : State) (h sw a step op : Nat) : State :=
  let x := s.accSet h sw a
  if x.pieces.isEmpty then s
  else s.setAcc h sw a { x with vals := accOfList (sumPieces step op (x.pieces ++ [x.values])), pieces := [] }

/-- The set's contents added into the remaining partials, from the lowest level upward (R49). -/
def finalSum (s : State) (h sw a : Nat) : State :=
  let x := s.accSet h sw a
  match x.split with
  | none => s
  | some base =>
    let r := Region.sram h sw
    let x' := (List.range 10).foldl (fun x l =>
      (x.partials.filter fun p => p.1 == l).foldl (fun (x : AccSet) p =>
        let u := s.words r (splitSlot base p.2) 2048
        { x with vals := accOfList ((u.zip x.values).map fun q => (fadd (f32 q.1) (f32 q.2)).toF32)
                 poison := x.poison || s.poisonedAt r (splitSlot base p.2) 8192 }) x) x
    s.setAcc h sw a { x' with partials := [] }

/-! ### The drain (R47, R48, R79) -/

/-- The epilogue on one accumulator value: `e` is the matching element of E. -/
def epilogue (d : Rec64) (v e : FNum) : FNum :=
  let v := if tEpiOp d = 1 then fadd v e else if tEpiOp d = 2 then fmul v e else v
  if fmtInt (tFmtOut d) then v else fmul v (f32 (tScale d))

/-- The SR seed of a queue's ops: the plan's, and for leaf work the one drawn at bring-up (R74). -/
def seedOf (s : State) (h sw q : Nat) : Word := if q < 10 then (s.queue h sw q).seed else (s.hall h).srSeed

/-- The random value of an element, when SR is set (R74). -/
def srOf (sr : Bool) (s : State) (h sw q : Nat) (t : Strand) (i : Nat) : Option Nat :=
  if sr then some (srRandom t.count (seedOf s h sw q) h sw q i) else none

/-- Row `i` of C, drained from accumulator values. -/
def drainRow (s : State) (h sw q : Nat) (t : Strand) (i : Nat) (vals : List FNum) : List Byte :=
  let d := t.op
  let e := if tEpiOp d = 0 then [] else operandRow s (.sram h sw) (tEpiFmt d) (tN d) (tEBase d) (tEStride d) 0 0 i
  packBits (tFmtOut d) (vals.mapIdx fun j v =>
    (epilogue d v (e.getD j numZero)).toBits (tFmtOut d) (srOf (tSr d) s h sw q t (i * tN d + j)))

/-- C written row by row; with poison, every line of its range is marked (R40). -/
def writeC (s : State) (h sw : Nat) (d : Rec64) (rows : List (List Byte)) (p : Bool) : State :=
  let r := Region.sram h sw
  let t := (rows.mapIdx fun i l => (i, l)).foldl (fun t q => t.write r (tCBase d + q.1 * tCStride d) q.2 p) s
  if p then t.poisonRange r (tCBase d) (tCBase d + (tM d - 1) * tCStride d + rowBytes (tFmtOut d) (tN d)) else t

/-! ### TILE -/

/-- Whether a TILE op reads poison. -/
def tilePoison (s : State) (h sw : Nat) (d : Rec64) : Bool :=
  let r := Region.sram h sw
  s.rowsPoisoned r (tABase d) (tM d) (tAStride d) (rowBytes (tFmtA d) (tK d))
  || s.rowsPoisoned r (tBBase d) (tN d) (tBStride d) (rowBytes (tFmtB d) (tK d))
  || (fmtMx (tFmtA d) && s.rowsPoisoned r (tASBase d) (tM d) (tASStride d) (scaleLen (tK d)))
  || (fmtMx (tFmtB d) && s.rowsPoisoned r (tBSBase d) (tN d) (tBSStride d) (scaleLen (tK d)))
  || (tEpiOp d != 0 && tDrain d && s.rowsPoisoned r (tEBase d) (tM d) (tEStride d) (rowBytes (tEpiFmt d) (tN d)))

def tileA (s : State) (h sw : Nat) (d : Rec64) (i : Nat) : List FNum :=
  operandRow s (.sram h sw) (tFmtA d) (tK d) (tABase d) (tAStride d) (tASBase d) (tASStride d) i
def tileB (s : State) (h sw : Nat) (d : Rec64) (j : Nat) : List FNum :=
  operandRow s (.sram h sw) (tFmtB d) (tK d) (tBBase d) (tBStride d) (tBSBase d) (tBSStride d) j

/-- A set after the products `lo` to `hi` of an op of one output block. The set's 32-bit words are read by the op's own
FMT_A; what a chain holds that mixes INT8 with floating-point ops no rule says (DESIGN CHOICE, log entry 120). -/
def tileBlock (s : State) (h sw : Nat) (d : Rec64) (lo hi : Nat) (x : AccSet) : AccSet :=
  let int := tFmtA d == 0x03
  let cols := tab (tN d) (tileB s h sw d)
  { x with vals := accOfList (tab 2048 fun i =>
      if i / 32 < tM d ∧ i % 32 < tN d then
        accWord int (accRun int (tileA s h sw d (i / 32)) (cols.getD (i % 32) []) lo hi (accVal int (x.word i)))
      else x.word i) }

/-- The product at which a CONTINUE op passes a multiple of 65,536, if it does (R49). -/
def splitAt (count k : Nat) : Option Nat :=
  let p := ceilDiv count 65536 * 65536 - count
  if 0 < count ∧ p < k then some p else none

/-- One accumulator of an op that starts and drains at once, its chain cut at `cuts` (R84). -/
def wholeAcc (int : Bool) (step op k : Nat) (cuts : List Nat) (a b : List FNum) : FNum :=
  let parts := ((0 :: cuts).zip (cuts ++ [k])).map fun p => [accWord int (accRun int a b p.1 p.2 numZero)]
  accVal int ((sumPieces step op parts).headD 0)

/-- C of an op that starts and drains at once, block by block (its blocks need no set of their own afterwards). -/
def tileWhole (s : State) (h sw q : Nat) (t : Strand) (p : Bool) : State :=
  let d := t.op
  let int := tFmtA d == 0x03
  let cols := tab (tN d) (tileB s h sw d)
  let cuts := (s.accSet h sw (tSet d)).cuts
  let rows := tab (tM d) fun i =>
    let a := tileA s h sw d i
    drainRow s h sw q t i (cols.map fun b => wholeAcc int ((s.queue h sw q).step.getD 0) t.idx (tK d) cuts a b)
  writeC s h sw d rows p

/-- C drained from a set that holds a chain. -/
def tileDrain (s : State) (h sw q : Nat) (t : Strand) : State :=
  let d := t.op
  let a := tSet d
  let s := joinPieces s h sw a ((s.queue h sw q).step.getD 0) t.idx
  let s := finalSum (addAll 16 s h sw a) h sw a
  let x := s.accSet h sw a
  let int := tFmtA d == 0x03
  let rows := tab (tM d) fun i =>
    drainRow s h sw q t i (tab (tN d) fun j => accVal int (x.word (i * 32 + j)))
  writeC s h sw d rows x.poison

/-- The op's products added into its set; where a piece of a divided chain ends, the set is kept in FP32 as that piece's
partial, and zeroed (R84). -/
def tilePieces (s : State) (h sw : Nat) (d : Rec64) (x : AccSet) : AccSet :=
  let ends := (x.cuts.filter fun c => x.count ≤ c && c < x.count + tK d).map fun c => c - x.count
  let r := ends.foldl (fun (a : AccSet × Nat) (m : Nat) =>
    let y := tileBlock s h sw d a.2 m a.1
    ({ y with pieces := y.pieces ++ [y.values], vals := [] }, m)) (x, 0)
  { tileBlock s h sw d r.2 (tK d) r.1 with count := x.count + tK d }

/-- The product at which an op splits its set (R49): none in a chain divided among standbys, whose pieces are shorter. -/
def splitHere (x : AccSet) (d : Rec64) : Option Nat :=
  if tAcc d = 0 ∨ x.cuts ≠ [] then none else splitAt x.count (tK d)

/-- The op's products added into its set, with a split where the count passes a multiple of 65,536. -/
def tileAcc (s : State) (h sw : Nat) (d : Rec64) (p : Bool) : State :=
  let a := tSet d
  let x := s.accSet h sw a
  let x := if tAcc d = 0 then { x with vals := [], count := 0, partials := [], pieces := [], poison := p }
    else { x with poison := x.poison || p }
  match splitHere x d with
  | none => s.setAcc h sw a (tilePieces s h sw d x)
  | some m =>
    let r := splitDrain s h sw (tileBlock s h sw d 0 m x)
    r.1.setAcc h sw a { tileBlock r.1 h sw d m (tK d) r.2 with count := x.count + tK d }

/-- Whether a TILE op needs a free slot of its split area and has none. -/
def splitBlocked (s : State) (h sw : Nat) (d : Rec64) : Bool :=
  let x := s.accSet h sw (tSet d)
  (splitHere x d).isSome && x.freeSlot.isNone

/-- The press runs the `i`-th op in flight of queue `q`. -/
def runTile (s : State) (h sw q i : Nat) (t : Strand) : State :=
  let d := t.op
  let p := tilePoison s h sw d
  let s := s.modStair h sw fun y => if q < 10 then { y with pressLast := q } else y
  let s' := if tAcc d = 0 ∧ tDrain d then tileWhole s h sw q t p
    else
      let s := tileAcc s h sw d p
      if tDrain d then tileDrain s h sw q t else s
  let bad := p || (s'.accSet h sw (tSet d)).poison && tDrain d
  let s' := if tDrain d then s'.setAcc h sw (tSet d) {} else s'
  let s' := if bad then notePoison s' (s.queue h sw q).step 0x3FFFF else s'
  strandDone s' h sw q i

/-- TILE (R45): the press takes the op that R61 picks. -/
def execTile (h : HallId) (sw : SwId) (s : State) : Result :=
  .next <|
    if s.swRuns h sw then
      match unitPick s h sw (s.stair h sw).pressLast 0x01 with
      | none => s
      | some (q, i) =>
        match (s.queue h sw q).strands[i]? with
        | none => s
        | some t => if splitBlocked s h sw t.op then s else runTile s h sw q i t
    else s

/-- SPLIT_PARTIAL_ADD (R49). -/
def execSplitPartialAdd (h : HallId) (sw : SwId) (set : AccId) (s : State) : Result :=
  .next (if s.swRuns h sw then addPair s h sw set.val else s)

end Sys2Proof.Machine
end

