-- ==== Sys2Proof/Machine/Kernels.lean ====
section
/-! DEFINITION. The vector engine's kernels (Table 2.8). Where Table 2.8 writes an expression, its operations are done
in the order written, each rounded to FP32 (R51, log entry 17). -/

namespace Sys2Proof.Machine

/-! ### What every kernel shares -/

/-- A KERNEL op that the vector engine has taken: its queue, its strand. -/
structure KernelRun where
  h : Nat
  sw : Nat
  q : Nat
  t : Strand

def KernelRun.op (k : KernelRun) : Rec64 := k.t.op
def KernelRun.mem (k : KernelRun) : Region := .sram k.h k.sw

/-- Row `i` of SRC0, of `n` elements. -/
def KernelRun.src0 (k : KernelRun) (s : State) (i n : Nat) : List FNum :=
  operandRow s k.mem (kIn k.op) n (kSrc0 k.op) (kSrc0Stride k.op) 0 0 i

/-- Row `i` of SRC1, of `n` elements, where SRC1 is an array. -/
def KernelRun.src1 (k : KernelRun) (s : State) (i n : Nat) : List FNum :=
  operandRow s k.mem (kIn k.op) n (kSrc1 k.op) (kSrc1Stride k.op) 0 0 i

/-- A vector of COLS elements in FMT_IN. -/
def KernelRun.vector (k : KernelRun) (s : State) (a : Nat) : List FNum :=
  operandRow s k.mem (kIn k.op) (kCols k.op) a 0 0 0 0

/-- Element `i` of a per-row vector of words. -/
def KernelRun.perRow (k : KernelRun) (s : State) (a i : Nat) : Word := BitVec.ofNat 32 (s.readNat k.mem (a + 4 * i) 4)

/-- What a kernel writes for one row: DST values, and bytes of AUX. -/
structure KernelRow where
  dst : List FNum := []
  aux : List Byte := []

/-- A row of DST converted to FMT_OUT. -/
def KernelRun.pack (k : KernelRun) (s : State) (i : Nat) (l : List FNum) : List Byte :=
  packBits (kOut k.op) (l.mapIdx fun j v =>
    v.toBits (kOut k.op) (srOf (kSr k.op) s k.h k.sw k.q k.t (i * kCols k.op + j)))

/-- Whether a kernel reads poison in any area that it does not write. -/
def KernelRun.poison (k : KernelRun) (s : State) : Bool :=
  let d := k.op
  let r := k.mem
  (if kOp d = 0x71 then anyN (kP2 d) fun j =>
      s.rowsPoisoned r (kSrc0 d + j * kSrc1Stride d) (kRows d) (kSrc0Stride d) (rowBytes (kIn d) (kCols d))
    else s.rowsPoisoned r (kSrc0 d) (kRows d) (kSrc0Stride d) (rowBytes (kIn d) (kInCols d)))
  || (match kSrc1Use d with
    | .unused => false
    | .perRow => s.poisonedAt r (kSrc1 d) (4 * kRows d)
    | .oneRow => s.poisonedAt r (kSrc1 d) (rowBytes (kIn d) (kCols d))
    | .array => s.rowsPoisoned r (kSrc1 d) (kRows d) (kSrc1Stride d) (rowBytes (kIn d) (kInCols d))
    | .special => s.rowsPoisoned r (kSrc1 d) (kRows d) (kScaleStride d) (scaleLen (kCols d)))
  || (match kAuxUse d with
    | (.oneRow, false) => s.poisonedAt r (kAux d) (rowBytes (kIn d) (kCols d))
    | (.special, false) => s.rowsPoisoned r (kAux d) (kRows d) (kScaleStride d) (scaleLen (kCols d))
    | _ => false)

/-- Bytes between the AUX rows that a kernel writes. -/
def kAuxStep (d : Rec64) : Nat := if kOp d = 0x50 then 256 else if kOp d = 0x60 then kScaleStride d else 4

/-- A kernel's rows written to DST and AUX; with poison every line of both ranges is marked (R40). Each row is one write of the op, also each
element of a per-row vector, so that a clean op clears no mark of an AUX vector's lines (DESIGN CHOICE, log entry 120). -/
def KernelRun.store (k : KernelRun) (s : State) (p : Bool) (rows : List (List Byte × List Byte)) : State :=
  let d := k.op
  let s := (rows.mapIdx fun i r => (i, r)).foldl (fun s q =>
    let s := if q.2.1.isEmpty then s else s.write k.mem (kDst d + q.1 * kDstStride d) q.2.1 p
    if q.2.2.isEmpty then s else s.write k.mem (kAux d + q.1 * kAuxStep d) q.2.2 p) s
  if p then (opTouches d).foldl (fun s t => if t.wr then s.poisonRange k.mem t.lo t.hi else s) s else s

/-- The op's end: poison noted for its step, the engine's turn, DONE. -/
def KernelRun.finish (k : KernelRun) (s : State) (i : Nat) (p : Bool) : State :=
  let s := s.modStair k.h k.sw fun y => if k.q < 10 then { y with vecLast := k.q } else y
  let s := if p then notePoison s (s.queue k.h k.sw k.q).step 0x3FFFF else s
  strandDone s k.h k.sw k.q i

/-- Runs a kernel of opcode `kop` when it is the op that the vector engine takes next (R61). Additions of split
partials come first (R49). -/
def vectorEngine (s : State) (h sw kop : Nat) (rows : KernelRun → State → Nat → List Byte × List Byte) : State :=
  if s.swRuns h sw && !addsDue s h sw then
    match unitPick s h sw (s.stair h sw).vecLast 0x02 with
    | none => s
    | some (q, i) =>
      match (s.queue h sw q).strands[i]? with
      | none => s
      | some t =>
        if kOp t.op = kop then
          let k : KernelRun := { h := h, sw := sw, q := q, t := t }
          let p := k.poison s
          k.finish (k.store s p (tab (kRows t.op) (rows k s))) i p
        else s
  else s

/-- A kernel whose row is given as values of DST and bytes of AUX. -/
def rowKernel (f : KernelRun → State → Nat → KernelRow) (k : KernelRun) (s : State) (i : Nat) : List Byte × List Byte :=
  let r := f k s i
  (k.pack s i r.dst, r.aux)

/-- A kernel that maps each element of SRC0. -/
def mapKernel (f : Rec64 → FNum → FNum) : KernelRun → State → Nat → List Byte × List Byte :=
  rowKernel fun k s i => { dst := (k.src0 s i (kCols k.op)).map (f k.op) }

/-- A kernel that maps each pair of elements of SRC0 and SRC1. -/
def zipKernel (f : FNum → FNum → FNum) : KernelRun → State → Nat → List Byte × List Byte :=
  rowKernel fun k s i =>
    { dst := ((k.src0 s i (kCols k.op)).zip (k.src1 s i (kCols k.op))).map fun p => f p.1 p.2 }

def fword (x : FNum) : List Byte := leBytes 4 x.toF32.toNat
def p0v (d : Rec64) : FNum := f32 (kP0 d)

/-! ### Softmax kernels -/

def smMaxRow (k : KernelRun) (s : State) (i : Nat) : KernelRow :=
  { aux := fword (maxList ((k.src0 s i (kCols k.op)).map fun x => fmul (p0v k.op) x)) }

/-- SM_MAX. -/
def execSmMax (h : HallId) (sw : SwId) (s : State) : Result := .next (vectorEngine s h sw 0x01 (rowKernel smMaxRow))

def smExpRow (k : KernelRun) (s : State) (i : Nat) : KernelRow :=
  let y := f32 (k.perRow s (kSrc1 k.op) i)
  let e := (k.src0 s i (kCols k.op)).map fun x => fexp (fsub (fmul (p0v k.op) x) y)
  { dst := e, aux := fword (reduceSum e) }

/-- SM_EXP. -/
def execSmExp (h : HallId) (sw : SwId) (s : State) : Result := .next (vectorEngine s h sw 0x02 (rowKernel smExpRow))

/-- Two partial rows merged (Table 2.8). -/
def smMerge (x y : List FNum) : List FNum :=
  let m0 := x.getD 0 numZero
  let m1 := y.getD 0 numZero
  if m0 = numNegInf ∧ m1 = numNegInf then numNegInf :: (x.drop 1).map fun _ => numZero
  else
    let m := m0.max m1
    let a := fexp (fsub m0 m)
    let b := fexp (fsub m1 m)
    m :: ((x.drop 1).zip (y.drop 1)).map fun p => fadd (fmul p.1 a) (fmul p.2 b)

def smMergeRow (k : KernelRun) (s : State) (i : Nat) : KernelRow :=
  { dst := smMerge (k.src0 s i (kInCols k.op)) (k.src1 s i (kInCols k.op)) }

/-- SM_MERGE. -/
def execSmMerge (h : HallId) (sw : SwId) (s : State) : Result :=
  .next (vectorEngine s h sw 0x03 (rowKernel smMergeRow))

/-- A partial row normalised: o / s, zeros where s is zero. -/
def smNorm (x : List FNum) : List FNum :=
  let t := x.getD 1 numZero
  (x.drop 2).map fun o => if t.isZero then numZero else fdiv o t

def smNormRow (k : KernelRun) (s : State) (i : Nat) : KernelRow := { dst := smNorm (k.src0 s i (kInCols k.op)) }

/-- SM_NORM. -/
def execSmNorm (h : HallId) (sw : SwId) (s : State) : Result := .next (vectorEngine s h sw 0x04 (rowKernel smNormRow))

/-! ### Norms -/

def meanOf (l : List FNum) : FNum := fdiv (reduceSum l) (FNum.ofInt l.length)

def rmsnormRow (k : KernelRun) (s : State) (i : Nat) : KernelRow :=
  let x := k.src0 s i (kCols k.op)
  let r := fsqrt (fadd (meanOf (x.map fun v => fmul v v)) (p0v k.op))
  { dst := (x.zip (k.vector s (kSrc1 k.op))).map fun p => fdiv (fmul p.1 p.2) r }

/-- RMSNORM. -/
def execRmsnorm (h : HallId) (sw : SwId) (s : State) : Result :=
  .next (vectorEngine s h sw 0x10 (rowKernel rmsnormRow))

def layernormRow (k : KernelRun) (s : State) (i : Nat) : KernelRow :=
  let x := k.src0 s i (kCols k.op)
  let mu := meanOf x
  let c := x.map fun v => fsub v mu
  let r := fsqrt (fadd (meanOf (c.map fun v => fmul v v)) (p0v k.op))
  { dst := (c.zip ((k.vector s (kSrc1 k.op)).zip (k.vector s (kAux k.op)))).map fun p =>
      fadd (fmul (fdiv p.1 r) p.2.1) p.2.2 }

/-- LAYERNORM. -/
def execLayernorm (h : HallId) (sw : SwId) (s : State) : Result :=
  .next (vectorEngine s h sw 0x11 (rowKernel layernormRow))

/-! ### Activations -/

/-- x / (1 + e^(−x)), by the reciprocal of R52. -/
def siluOf (x : FNum) : FNum := fmul x (frecip (fadd numOne (fexp x.neg)))

/-- SILU. -/
def execSilu (h : HallId) (sw : SwId) (s : State) : Result :=
  .next (vectorEngine s h sw 0x20 (mapKernel fun _ => siluOf))

/-- 0.5x(1 + tanh(c₁(x + c₂x³))). -/
def geluOf (x : FNum) : FNum :=
  let cube := fmul (fmul x x) x
  let t := ftanh (fmul (f32 0x3F4C422A) (fadd x (fmul (f32 0x3D372713) cube)))
  fmul (fmul (f32 0x3F000000) x) (fadd numOne t)

/-- GELU_TANH. -/
def execGeluTanh (h : HallId) (sw : SwId) (s : State) : Result :=
  .next (vectorEngine s h sw 0x21 (mapKernel fun _ => geluOf))

/-- SWIGLU. -/
def execSwiglu (h : HallId) (sw : SwId) (s : State) : Result :=
  .next (vectorEngine s h sw 0x22 (zipKernel fun x y => fmul (siluOf x) y))

/-- max(x, 0): −0 gives +0, a NaN gives NaN. -/
def reluOf (x : FNum) : FNum := if x.isNan then .nan else if numZero.lt x then x else numZero

/-- RELU. -/
def execRelu (h : HallId) (sw : SwId) (s : State) : Result :=
  .next (vectorEngine s h sw 0x23 (mapKernel fun _ => reluOf))

/-! ### Rotation -/

/-- The pair of a column in its head, rotated by θ (R52). -/
def ropeOut (x : List FNum) (d c : Nat) (theta : Nat → FNum) : FNum :=
  let j := c % d
  let i := j % (d / 2)
  let lo := x.getD (c - j + i) numZero
  let hi := x.getD (c - j + i + d / 2) numZero
  let co := ftrig true (theta i)
  let sn := ftrig false (theta i)
  if j < d / 2 then ((lo.mul co).add (hi.mul sn).neg).r32 else ((lo.mul sn).add (hi.mul co)).r32

def ropeRow (k : KernelRun) (s : State) (i : Nat) : KernelRow :=
  let d := kP2 k.op
  let x := k.src0 s i (kCols k.op)
  let p := (FNum.ofBits 0x0A (k.perRow s (kSrc1 k.op) i).toNat).r32
  { dst := tab (kCols k.op) fun c => ropeOut x d c fun j => fmul p (ropeFreq (kP0 k.op) j d) }

/-- ROPE (R52). -/
def execRope (h : HallId) (sw : SwId) (s : State) : Result := .next (vectorEngine s h sw 0x30 (rowKernel ropeRow))

/-! ### Element-wise kernels -/

/-- SCALE. -/
def execScale (h : HallId) (sw : SwId) (s : State) : Result :=
  .next (vectorEngine s h sw 0x40 (mapKernel fun d x => fma (p0v d) x (f32 (kP1 d))))

/-- EW_ADD. -/
def execEwAdd (h : HallId) (sw : SwId) (s : State) : Result := .next (vectorEngine s h sw 0x41 (zipKernel fadd))

/-- EW_MUL. -/
def execEwMul (h : HallId) (sw : SwId) (s : State) : Result := .next (vectorEngine s h sw 0x42 (zipKernel fmul))

/-! ### TOPK -/

/-- Whether a column of value `x` ranks before a later column of value `y`. -/
def ranksBefore (x y : FNum) : Bool := !x.lt y && !(x.isNan && !y.isNan)

/-- A column put into a ranking of columns that all have lower numbers. -/
def rankIn (p : Nat × FNum) : List (Nat × FNum) → List (Nat × FNum)
  | [] => [p]
  | r :: l => if ranksBefore r.2 p.2 then r :: rankIn p l else p :: r :: l

/-- Columns in falling order of value; ties rank the lower column first, NaNs last. -/
def ranking (l : List FNum) : List (Nat × FNum) :=
  (l.mapIdx fun i x => (i, x)).foldl (fun r p => rankIn p r) []

def topkRow (k : KernelRun) (s : State) (i : Nat) : KernelRow :=
  let r := (ranking (k.src0 s i (kCols k.op))).take (kP2 k.op)
  { dst := r.map (·.2), aux := r.flatMap fun p => leBytes 4 p.1 }

/-- TOPK. -/
def execTopk (h : HallId) (sw : SwId) (s : State) : Result := .next (vectorEngine s h sw 0x50 (rowKernel topkRow))

/-! ### CONVERT -/

/-- R72: a product of an element and its scale is rounded to FP32 only where it lies outside the FP32 range. -/
def mxInput (x : FNum) : FNum :=
  match x.r32 with
  | .inf s => .inf s
  | _ => x

/-- Row `i` of a CONVERT's input. An INT32 input keeps its full width to the one rounding at FMT_OUT, also where FP32 cannot
hold it exactly (DEDUCED as R79 reads the same words of the press, log entry 120). -/
def convertIn (k : KernelRun) (s : State) (i : Nat) : List FNum :=
  let d := k.op
  if fmtMx (kIn d) then
    let sc := if fmtMx (kOut d) then kSrc1 d else kAux d
    (operandRow s k.mem (kIn d) (kCols d) (kSrc0 d) (kSrc0Stride d) sc (kScaleStride d) i).map mxInput
  else k.src0 s i (kCols d)

def convertRow (k : KernelRun) (s : State) (i : Nat) : List Byte × List Byte :=
  let d := k.op
  let x := convertIn k s i
  let sr := fun j => srOf (kSr d) s k.h k.sw k.q k.t (i * kCols d + j)
  if fmtMx (kOut d) then mxRow (kOut d) sr x else (k.pack s i x, [])

/-- CONVERT (R71). -/
def execConvert (h : HallId) (sw : SwId) (s : State) : Result := .next (vectorEngine s h sw 0x60 convertRow)

/-! ### Partial sums -/

/-- PSUM_ADD. -/
def execPsumAdd (h : HallId) (sw : SwId) (s : State) : Result := .next (vectorEngine s h sw 0x70 (zipKernel fadd))

/-- Row `i` of the pairwise tree sum of P2 blocks (R88). -/
def psumPairRow (k : KernelRun) (s : State) (i : Nat) : KernelRow :=
  let d := k.op
  let blocks := tab (kP2 d) fun j =>
    operandRow s k.mem (kIn d) (kCols d) (kSrc0 d + j * kSrc1Stride d) (kSrc0Stride d) 0 0 i
  { dst := tab (kCols d) fun c => pairSum 16 (blocks.map fun b => b.getD c numZero) }

/-- PSUM_PAIR (R88). -/
def execPsumPair (h : HallId) (sw : SwId) (s : State) : Result :=
  .next (vectorEngine s h sw 0x71 (rowKernel psumPairRow))

end Sys2Proof.Machine
end

