-- ==== Sys2Proof/Machine/Blocks.lean ====
section
/-! DEFINITION. Token blocks and ring positions, write-backs, staging, and the gate that a volume's descriptors pass
(R136, R137, R149, R160, R165 to R168, R231). -/

namespace Sys2Proof.Machine

/-! ### Blocks (R149, R160) -/

/-- Tokens linked from front matter. -/
def State.linkedTokens (s : State) (v : Nat) : Nat :=
  let x := s.vol v
  if x.linked then (s.vol x.fmLink.toNat).tokens.toNat else 0

/-- First block of a windowed volume's ring. -/
def State.ringStart (s : State) (v : Nat) : Nat := s.linkedTokens v / (s.planOf v).tpl

/-- Entries of a ring of window `w` under plan `p`. -/
def ringSize (p : Plan) (w : Nat) : Nat := ceilDiv w p.tpl + 1

/-- Spine index of token block `b` of layer `l`. -/
def State.blockIdx (s : State) (v l b : Nat) : Nat :=
  let p := s.planOf v
  let w := (s.vol v).window.toNat
  let f := s.ringStart v
  l * p.span + if w = 0 ∨ b < f then b else f + (b - f) % ringSize p w

/-- Token block that a spine index holds when the volume has `tokens` tokens: in a ring, the latest block of its
position. -/
def State.blockOf (s : State) (v idx tokens : Nat) : Nat :=
  let p := s.planOf v
  let j := idx % p.span
  let w := (s.vol v).window.toNat
  let f := s.ringStart v
  if w = 0 ∨ j < f then j
  else
    let r := ringSize p w
    let last := ceilDiv tokens p.tpl - 1
    j + (last - j) / r * r

/-- Tokens below `tokens` in block `b`. -/
def fillBelow (p : Plan) (tokens b : Nat) : Nat := min p.tpl (tokens - b * p.tpl)

/-! ### Gate of a volume's descriptors -/

/-- Opcodes whose descriptors of one volume run one at a time (R137); VOL_REHOME, which settles a state that does not end by
itself (R172), and STEP_ABORT (R247) do not wait. -/
def volOrdered (op : Nat) : Bool := [0x10, 0x11, 0x12, 0x13, 0x14, 0x15, 0x16, 0x17, 0x18, 0x20, 0x21, 0x22].contains op

/-- Unfinished descriptors of a volume that satisfy `sel`. -/
def volClaims (s : State) (v : Nat) (sel : Nat → Claim → Bool) : List (Nat × Claim) :=
  s.claims.filter fun p => volOrdered (descOpcode p.2.desc) && descVol p.2.desc == v && sel p.1 p.2

/-- Whether a binding of software's holds a lock on a volume's descriptor, an entry or a count (R228). -/
def volLocked (s : State) (v : Nat) : Bool :=
  s.binds.any fun b => b.2.locks.any fun l => match l.2 with
    | .desc u => u.toNat == v
    | .entry u _ => u.toNat == v
    | .ref u _ => u.toNat == v
    | _ => false

def VolState.transient : VolState → Bool
  | .running | .parking | .shelving | .resuming => true
  | _ => false

/-- Whether a volume holds its entry in its home's cache (R136). -/
def entryHeld (s : State) (v : Nat) : Bool :=
  (s.vol v).state.transient || (s.job v).xfer || !(volClaims s v fun _ k => k.stage == .waiting).isEmpty

/-- Entries that a hall holds. -/
def heldEntries (s : State) (h : Nat) : Nat :=
  (s.vols.filter fun p => p.2.home == h && entryHeld s p.1).length

/-- Uncorrectable error in a root or spine page (Table 14.3). -/
def spinePoisoned (s : State) (v : Nat) : Bool :=
  let page := fun n => s.poisonedAt .park (s.parkAddr (n * 4096))
  page (s.vol v).root 4096 || (s.pairs.any fun q => q.1 / 512 == v && page q.2 8192)

/-- A staging cancelled: the slots of leaves not staged, and granules taken for far ones, are given back. -/
def cancelStaging (s : State) (v : Nat) : State :=
  match (s.job v).staging with
  | none => s
  | some g =>
    (g.todo.foldl (fun (s : State) (q : Nat × Reserve) => s.dropReserve v q.2) s).modJob v fun j => { j with staging := none }

/-- A volume FAULTED: what runs on it beside a step ends, and a claim that waits for it completes with HALL_LOST, or after an
error in its spine with BAD_STATE (log entry 30). -/
def faultVolume (s : State) (v cause : Nat) : State :=
  let j := s.job v
  let cs := (j.wb.bind fun w => w.claim).toList ++ (j.staging.bind fun g => g.claim).toList ++ j.parkClaim.toList
    ++ (j.shelve.map fun q => q.1).toList
  let s := (cancelStaging s v).modJob v fun j => { j with wb := none, staging := none, parkClaim := none, shelve := none }
  let s := (s.modVol v fun x => { x with faultCause := cause, wbBusy := false }).setVolState v .faulted
  cs.foldl (fun s c => volDone s c v (if cause = 1 then Status.hallLost else Status.badState) 0) s

/-- The running step of a volume ended; `f` changes what its record says. -/
def endRunning (s : State) (v status : Nat) (f : Step → Step) : State :=
  match s.steps.find? fun p => p.2.vol.toNat == v && p.2.home.val == (s.vol v).home with
  | some (n, _) => endStep (s.modStep n f) n status (0, 0, false)
  | none => s

/-- An usher has read a poisoned root or spine page: the volume is FAULTED with SPINE_POISON (Table 5.2, Table 14.3), and a step
that runs on it ends with POISONED (log entry 30). -/
def faultSpine (s : State) (v : Nat) : State :=
  endRunning (faultVolume s v 2) v Status.poisoned fun x => { x with poison := true, poisonIdx := x.poisonIdx.getD 0x3FFFF }

/-- What the usher of a volume does when it has read the spine: nothing of it when a page is poisoned. -/
def spineRead (s : State) (v : Nat) (k : State → State) : State :=
  if (s.vol v).state != .free && (s.vol v).state != .faulted && spinePoisoned s v then faultSpine s v else k s

/-- What the gate decides of a descriptor. -/
inductive Gate where
  | go | hold | wait | fail (status : Nat)
deriving DecidableEq, Repr

/-- R134 to R137 for claim `c` of volume `v`, posted to the volume's home or to where `home` says. -/
def volGate (s : State) (c : Nat) (k : Claim) (v : Nat) (home closes : Bool) : Gate :=
  if !s.hallUp k.hall then .hold
  else if !home then .fail Status.wrongHome
  else if (s.job v).poisoned && !closes then .fail Status.volPoisoned
  else if volLocked s v then .hold
  else if !(volClaims s v fun j q => j < c && q.stage == .claimed).isEmpty then .hold
  else if (s.vol v).state.transient || (s.job v).xfer || !(volClaims s v fun j _ => j < c).isEmpty then
    if k.stage = .waiting then .hold
    else if 8 ≤ (volClaims s v fun _ q => q.stage == .waiting).length then .fail Status.volBusy
    else .wait
  else if !entryHeld s v && 16384 ≤ heldEntries s k.hall then .fail Status.hallBusy
  else .go

/-- Runs a descriptor that has passed the gate; `fail` writes a refusal's record. The usher reads the spine first. -/
def gated (s : State) (c : Nat) (g : Gate) (v : Nat) (fail : State → Nat → State) (run : State → State) : State :=
  match g with
  | .hold => s
  | .wait => s.setStage c .waiting
  | .fail st => fail s st
  | .go => run (spineRead s v id)

/-- A volume descriptor of opcode `op`: its body's rules, the gate, then what it does. -/
def withVol (s : State) (c op : Nat) (bad : State → Rec64 → Option Nat) (run : State → Claim → Nat → State) : State :=
  withClaim s c op fun k =>
    let v := descVol k.desc
    if !s.hallUp k.hall then s
    else match bad s k.desc with
      | some st => volDone s c v st 0
      | none =>
        gated s c (volGate s c k v ((s.vol v).home == k.hall.val) (op == 0x11)) v (fun s st => volDone s c v st 0)
          fun s => run s k v

/-! ### Write-back (R165, R166) -/

/-- A leaf's copy to the park tier, through the home's vestibule; a leaf that is no longer near is left. -/
def writeBackLeaf (s : State) (v i : Nat) : State :=
  let e := s.leaf v i
  let x := s.vol v
  let p := s.planOf v
  let n := shPloc (s.shadow v i)
  if !(leV e && leTier e == 0) then s
  else
    let s := tierPass s x.home .park (s.parkAreaStart + n * 8192) (parkSize p x.parkFmt) .stream true
    copyToPark s p x.parkFmt (leHall e) (leSw e) (leSlot e) n

/-- Whether a leaf that a write-back copies can be read now. -/
def leafReady (s : State) (v i : Nat) : Bool :=
  let e := s.leaf v i
  !(leV e && leTier e == 0) || slotReady s (leHall e) (leSw e) (leSlot e) false

/-- DT leaves of a volume's own. -/
def dtLeaves (s : State) (v : Nat) : List (Nat × Dword) := (s.spine v).filter fun q => leTier q.2 == 0 && leDt q.2

/-- A write-back started: its cut, and the DT leaves to copy, with their FILL. -/
def startWriteBack (s : State) (v : Nat) (claim : Option Nat) (park : Bool) : State :=
  let l := dtLeaves s v
  let x := s.vol v
  let w : WriteBack := { cut := x.tokens, steps := x.dirty, copied := l.map fun q => (q.1, leFill q.2), claim := claim, park := park }
  (s.modJob v fun j => { j with wb := some w }).modVol v fun x => { x with wbBusy := true }

/-- A write-back started when DIRTY_STEPS has reached 48 and none runs (R166). -/
def dueWriteBack (s : State) (v : Nat) : State :=
  if 48 ≤ (s.vol v).dirty ∧ (s.job v).wb.isNone = true then startWriteBack s v none false else s

/-- The shadow of a copied leaf, and its DT cleared when its FILL is still the copied one. -/
def commitCopy (s : State) (v i fill : Nat) : State :=
  let e := s.leaf v i
  if leV e && leTier e == 0 then
    let s := s.setShadow v i (shadowEntry true true (shPloc (s.shadow v i)) fill)
    if leFill e = fill then s.setLeaf v i (withDt e false) else s
  else s

/-- A ring head that a committed cut no longer needs becomes its layer's reserve, or is freed (R161). -/
def releaseHead (s : State) (v : Nat) (q : Nat × Dword × Dword × Word) : State :=
  let l := q.1 / (s.planOf v).span
  let e := q.2.1
  if (sfind (s.job v).reserves l).isNone && leV e && leTier e == 0 then
    let r : Reserve := { hall := Fin.ofNat 12 (leHall e), sw := Fin.ofNat 256 (leSw e), slot := leSlot e, park := shPloc q.2.2.1 }
    (s.setSlot r.hall r.sw r.slot (.reserve (BitVec.ofNat 20 v))).modJob v fun j => { j with reserves := sset j.reserves l r }
  else s.freeEntry v e q.2.2.1

/-- A write-back committed (R166, steps 3 and 4): the leaves copied. -/
def commitWriteBack (s : State) (v : Nat) (w : WriteBack) : State :=
  let s := s.byPair v (w.copied.map fun q => q.1) false fun s _ i =>
    match w.copied.find? fun q => q.1 == i with
    | some q => commitCopy s v q.1 q.2
    | none => s
  let old := (s.job v).retired.filter fun q => q.2.2.2.toNat < w.cut.toNat
  let s := s.modJob v fun j => { j with wb := none, retired := j.retired.filter fun q => !(q.2.2.2.toNat < w.cut.toNat) }
  let s := s.modVol v fun x => { x with ckpt := w.cut, dirty := x.dirty - w.steps, wbBusy := false }
  old.foldl (fun s q => releaseHead s v q) s

/-! ### Staging (R168) -/

/-- Own leaves of a layer that are not near, in staging order. -/
def stageOrder (s : State) (v l : Nat) : List Nat :=
  let p := s.planOf v
  let t := (s.vol v).tokens.toNat
  let here := (s.spine v).filter fun q => q.1 / p.span == l && (leTier q.2 == 1 || leTier q.2 == 2)
  (sortBy (fun (q : Nat × Nat) => q.1) (here.map fun q => (s.blockOf v q.1 t, q.1))).map fun q => q.2

/-- A slot, and granules for a far leaf, reserved for a leaf to be staged. -/
def reserveStage (s : State) (v i k : Nat) : Except Nat (Reserve × State) :=
  let e := s.leaf v i
  let u : SlotUse := .leaf (BitVec.ofNat 20 v) i
  if leTier e = 2 then s.reserveLeaf v (s.vol v).place k u else s.reserveSlot v (s.vol v).place k u (shPloc (s.shadow v i))

/-- Slots reserved for a list of leaves, the k-th on. -/
def reserveAll (v : Nat) : List Nat → Nat → List (Nat × Reserve) → State → Except Nat (List (Nat × Reserve) × State)
  | [], _, a, s => .ok (a.reverse, s)
  | i :: l, k, a, s =>
    match reserveStage s v i k with
    | .error st => .error st
    | .ok (r, s') => reserveAll v l (k + 1) ((i, r) :: a) s'

/-- A leaf brought into its reserved slot: TIER 0 with DT 0, in a quiet edit. From the far tier its park copy is made
current as well (R145, R167, log entry 31). -/
def stageLeaf (s : State) (v i : Nat) (r : Reserve) : State :=
  let e := s.leaf v i
  let x := s.vol v
  let p := s.planOf v
  let n := parkSize p x.parkFmt
  let gen := s.editGen v
  let near := nearLoc r.hall r.sw r.slot
  let s :=
    if leTier e = 2 then
      let a := s.farLeafAddr (leLoc e)
      let s := tierPass s x.home .far a n .stream false
      let s := tierPass s x.home .park (s.parkAreaStart + r.park * 8192) n .stream true
      let s := tierCopy s .far a .park (s.parkAreaStart + r.park * 8192) n
      let s := copyToNear s p x.parkFmt .park (s.parkLeafAddr r.park) r.hall r.sw r.slot
      (s.setShadow v i (shadowEntry true true r.park (leFill e))).giveBack v i e 0
    else
      let a := s.parkLeafAddr (shPloc (s.shadow v i))
      let s := tierPass s x.home .park (s.parkAreaStart + shPloc (s.shadow v i) * 8192) n .stream false
      copyToNear s p x.parkFmt .park a r.hall r.sw r.slot
  ((s.setLeaf v i (withLoc e 0 near gen false)).sgenUp v false).recount v

/-- A leaf that is reserved for staging, staged. It waits while its slot cannot be written (R121, R302). -/
def stageOne (s : State) (v i : Nat) : State :=
  match (s.job v).staging with
  | none => s
  | some g =>
    match g.todo.find? fun q => q.1 == i with
    | none => s
    | some q =>
      let e := s.leaf v i
      let drop := fun (s : State) => s.modJob v fun j =>
        { j with staging := some { g with todo := g.todo.filter fun t => t.1 != i, elig := g.elig.filter fun t => t != i,
                                          staged := g.staged + 1 } }
      if !(leV e && (leTier e == 1 || leTier e == 2)) then
        -- software has cleared the leaf meanwhile
        drop (s.dropReserve v q.2)
      else if slotReady s q.2.hall q.2.sw q.2.slot true then drop (stageLeaf s v i q.2)
      else s

/-- Adds one leaf to what is being staged, for a step that meets it or a linker's resume, or tells why it cannot (Table 5.2).
Front matter that is being parked or shelved is left till that is done. -/
def stageWanted (s : State) (v i : Nat) : Except Nat State :=
  let g := ((s.job v).staging).getD { todo := [], elig := [], staged := 0, claim := none }
  if (g.todo.any fun q => q.1 == i) || (s.vol v).state == .parking || (s.vol v).state == .shelving then .ok s
  else match reserveStage s v i (s.job v).stageK with
    | .error st => .error st
    | .ok (r, s) => .ok (s.modJob v fun j => { j with stageK := j.stageK + 1, staging := some { g with todo := g.todo ++ [(i, r)] } })

/-- Near leaves turned back to their park copies (R167, R171, R172). -/
def nearToPark (s : State) (v : Nat) (sel : Nat → Dword → Bool) : State :=
  let l := ((s.spine v).filter fun q => leTier q.2 == 0 && sel q.1 q.2).map fun q => q.1
  (s.byPair v l true fun s gen i =>
    let e := s.leaf v i
    (s.giveBack v i e 0).setLeaf v i (withLoc e 1 (shPloc (s.shadow v i)) gen false)).recount v

/-- Append reserves and retired heads of a volume given back. -/
def dropReserves (s : State) (v : Nat) : State :=
  let j := s.job v
  let s := j.reserves.foldl (fun s q => s.dropReserve v q.2) s
  let s := j.retired.foldl (fun s q => s.freeEntry v q.2.1 q.2.2.1) s
  s.modJob v fun j => { j with reserves := [], retired := [] }

/-- R172: a transient state settled, and a write-back restarted. -/
def settleVolume (s : State) (v : Nat) : State :=
  let j := s.job v
  match (s.vol v).state with
  | .running => s.setVolState v .live
  | .parking =>
    (s.modJob v fun j => { j with wb := none, parkClaim := none }).modVol v (fun x => { x with wbBusy := false }) |>.setVolState v .live
  | .resuming =>
    let s := cancelStaging s v
    let s := dropReserves (nearToPark s v fun _ _ => true) v
    s.setVolState v .parked
  | .shelving =>
    let s := match j.shelve with
      | some (_, _, far) => far.foldl (fun (s : State) (q : Nat × Nat) =>
          if leTier (s.leaf v q.1) = 2 then s
          else { s with farUsed := clearRun s.farUsed q.2 (farGranules (s.planOf v) (s.vol v).parkFmt) }) s
      | none => s
    (s.modJob v fun j => { j with shelve := none }).setVolState v .parked
  | .live =>
    match j.wb with
    | some w => startWriteBack s v w.claim w.park
    | none => s
  | _ => s

/-! ### Leaves of places out of service (R171, R393) -/

/-- A near place that stays out of reach: its hall's compute is fenced, or its column is orphaned and has no adopter. -/
def State.placeLost (s : State) (h sw : Nat) : Bool :=
  s.hallFenced h || ((s.stair h sw).fenced && (s.stair h sw).adopter.isNone)

/-- Slots that a volume holds in reserve in lost places are given up, and leaves not yet staged there stay in their
tier. -/
def dropLost (s : State) (v : Nat) : State :=
  let j := s.job v
  let gone := fun (r : Reserve) => s.placeLost r.hall r.sw
  let s := (j.reserves.filter fun q => gone q.2).foldl (fun s q => s.dropReserve v q.2) s
  let s := s.modJob v fun j => { j with reserves := j.reserves.filter fun q => !gone q.2 }
  match j.staging with
  | none => s
  | some g =>
    let l := g.todo.filter fun q => gone q.2
    let s := l.foldl (fun (s : State) (q : Nat × Reserve) => s.dropReserve v q.2) s
    s.modJob v fun j =>
      { j with staging := some { g with todo := g.todo.filter (fun q => !gone q.2)
                                        elig := g.elig.filter fun i => !l.any fun q => q.1 == i } }

/-- R171 and R393 for one volume: leaves in lost places turn back to their park copies; with a DT leaf there the volume
becomes FAULTED with HALL_LOST, and its running step ends with HALL_LOST. -/
def settleLost (s : State) (v : Nat) : State :=
  let there := fun (e : Dword) => leTier e == 0 && s.placeLost (leHall e) (leSw e)
  let l := (s.spine v).filter fun q => there q.2
  let s := refill (dropLost s v) v
  if l.isEmpty then s
  else
    let s := nearToPark s v fun _ e => there e && !leDt e
    if l.any fun q => leDt q.2 then
      endRunning (faultVolume s v 1) v Status.hallLost id
    else s

/-- The home ushers in service settle every volume (R171, R393). -/
def settleAll (s : State) : State :=
  (skeys s.vols fun _ x => x.state != .free && s.hallUp x.home).foldl settleLost s

end Sys2Proof.Machine
end

