-- ==== Sys2Proof/Machine/Volumes.lean ====
section
/-! DEFINITION. The volume descriptors and the events of the tiers' movements (R131 to R177). -/

namespace Sys2Proof.Machine

/-! ### VOL_OPEN (R134, R154, R160, R161) -/

/-- Newest park-format version that firmware of major level `n` knows (R332). -/
def pfvKnown (n : Nat) : Nat := 1 + countN (n - 1) fun i => Config.pfvStep (i + 1)

/-- Major firmware level of the module. -/
def State.fwMajor (s : State) : Nat := bits s.porter.running.level 31 16

def openBad (_ : State) (d : Rec64) : Option Nat :=
  let linked := fld d 8 22 1 == 1
  firstStatus (anySet d [(8, 23, 9), (0x0C, 28, 4), (0x14, 20, 12), (0x20, 0, 256)] || (!linked && fld d 0x14 0 20 != 0))
    (fld d 8 20 2 == 3 || fld d 0x0C 16 12 == 0) false false

/-- The hall that a VOL_OPEN is posted to (R134). -/
def openHome (s : State) (h v : Nat) : Bool := v % 12 == h || s.hallFenced (v % 12)

/-- The refusals of a VOL_OPEN before anything is reserved, in Table 5.2's order. -/
def openStatus (s : State) (d : Rec64) : Option Nat :=
  let n := fld d 0x0C 0 16
  let p := s.plan n
  let w := fld d 0x10 0 32
  let linked := fld d 8 22 1 == 1
  let f := s.vol (fld d 0x14 0 20)
  let first := if linked then f.tokens.toNat / p.tpl else 0
  if n = 0 ∨ (sfind s.plans n).isNone ∨ p.rows = 0 then some Status.noPlan
  else if w ≠ 0 ∧ (w < p.tpl ∨ p.span < first + ringSize p w) then some Status.badShape
  else if linked && (!f.fm || f.retiring || f.plan != n || f.state == .free || (w != 0 && f.tokens.toNat % p.tpl != 0)) then
    some Status.fmInvalid
  else if linked && 65535 ≤ f.links then some Status.fmFull
  else none

/-- Spine pairs for a list of pair numbers. -/
def ensurePairs (v : Nat) : List Nat → State → Except Nat State
  | [], s => .ok s
  | n :: l, s =>
    match s.ensurePair v (n * 512) with
    | none => .error Status.noParkSpace
    | some s' => ensurePairs v l s'

/-- The new descriptor. -/
def openedVol (s : State) (h : Nat) (d : Rec64) : Vol :=
  let linked := fld d 8 22 1 == 1
  let f := s.vol (fld d 0x14 0 20)
  { state := .live, home := h, parkFmt := fld d 8 20 2, plan := fld d 0x0C 0 16, place := BitVec.ofNat 12 (fld d 0x0C 16 12),
    window := BitVec.ofNat 32 (fld d 0x10 0 32), linked := linked, fmLink := BitVec.ofNat 20 (fld d 0x14 0 20),
    tokens := if linked then f.tokens else 0, ckpt := if linked then f.tokens else 0,
    pfv := pfvKnown s.porter.flash.wcl, swTag := BitVec.ofNat 64 (fld d 0x18 0 64) }

/-- The indirect entries of a new volume, and the counts they raise (R154). -/
def linkEntries (s : State) (v f : Nat) : State :=
  (s.byPair v ((s.spine f).map fun q => q.1) false fun s gen i =>
    let r := s.ref f i
    (s.setLeaf v i (leafEntry 3 true false i gen (leFill (s.leaf f i)))).setRef f i { r with ref := r.ref + 1 }).relink f

/-- What a VOL_OPEN does to a FREE volume, or why it cannot. -/
def openVolume (s : State) (h v : Nat) (d : Rec64) : Except Nat State :=
  let x := openedVol s h d
  let f := x.fmLink.toNat
  let pairs := if x.linked then pairsOf ((s.spine f).map fun q => q.1) else []
  match reserveLayers v x.place (List.range (s.plan x.plan).layers) 0 ((s.setVol v x).setJob v {}) with
  | .error st => .error st
  | .ok s =>
    match s.freePages 1 1 with
    | none => .error Status.noParkSpace
    | some g =>
      match ensurePairs v pairs { s with spineUsed := markRun s.spineUsed g 1 } with
      | .error st => .error st
      | .ok s =>
        let s := s.modVol v fun y => { y with root := spineFirstPage + g }
        let s := s.modHost fun y => { y with tierLock := true }
        .ok (if x.linked then linkEntries s v f else s)

/-- VOL_OPEN. -/
def execVolOpen (c : Nat) (s : State) : Result :=
  .next <| withClaim s c 0x10 fun k =>
    let v := descVol k.desc
    let fail := fun s st => volDone s c v st 0
    if !s.hallUp k.hall then s
    else match openBad s k.desc with
      | some st => fail s st
      | none =>
        let home := if (s.vol v).state = .free then openHome s k.hall v else (s.vol v).home == k.hall.val
        gated s c (volGate s c k v home false) v fail fun s =>
          if (s.vol v).state ≠ .free then fail s Status.badState
          else match openStatus s k.desc with
            | some st => fail s st
            | none =>
              match openVolume s k.hall v k.desc with
              | .error st => fail s st
              | .ok t => volDone t c v Status.ok (if (t.vol v).linked then (t.spine v).length else 0)

/-! ### VOL_CLOSE, VOL_QUERY, FM_SEAL (R133, R151, R157, R158) -/

def plainBad (_ : State) (d : Rec64) : Option Nat := if zeroFrom d 8 20 then none else some Status.badReserved

/-- Drops everything of a volume whose descriptor is lost: what it held stays allocated (R385). -/
def closePoisoned (s : State) (v : Nat) : State :=
  let inVol := fun (k : Nat) => v * spineSize ≤ k && k < (v + 1) * spineSize
  { s with vols := sdel s.vols v, jobs := sdel s.jobs v, leaves := s.leaves.filter fun q => !inVol q.1,
           shadows := s.shadows.filter fun q => !inVol q.1, pairs := s.pairs.filter fun q => q.1 / 512 != v }

/-- A volume closed: references dropped, everything freed; linked-to front matter becomes RETIRING. -/
def closeVolume (s : State) (v : Nat) : State :=
  let x := s.vol v
  if (s.job v).poisoned then closePoisoned s v
  else if x.fm && x.links != 0 then
    if x.retiring then s
    else
      let s := s.modVol v fun y => { y with retiring := true }
      ((s.spine v).filter fun q => leTier q.2 != 3).foldl (fun s q => s.dropRef v q.1) s
  else
    let f := x.fmLink.toNat
    let s := cancelStaging s v
    let s := (s.job v).retired.foldl (fun s q => s.freeEntry v q.2.1 q.2.2.1) s
    let ind := (s.spine v).filter fun q => leTier q.2 == 3
    let s := ind.foldl (fun s q => s.dropRef f (leRef q.2)) s
    let s := s.freeVolume v
    if x.linked then (s.relink f).retireCheck f else s

/-- VOL_CLOSE. -/
def execVolClose (c : Nat) (s : State) : Result :=
  .next <| withVol s c 0x11 plainBad fun s _ v =>
    if [VolState.live, .parked, .shelved, .faulted].elem (s.vol v).state || (s.job v).poisoned then
      volDone (closeVolume s v) c v Status.ok 0
    else volDone s c v Status.badState 0

def queryBad (s : State) (d : Rec64) : Option Nat :=
  let a := fld d 0x10 0 32 + fld d 0x14 0 8 * 2 ^ 32
  firstStatus (anySet d [(8, 20, 12), (0x0C, 0, 32), (0x14, 8, 24), (0x18, 0, 320)]) false false
    (a % 64 != 0 || !s.inHost a 128)

/-- VOL_QUERY (R133): it takes its turn among the volume's descriptors (R137) and copies the descriptor as its claim found it,
also of a volume whose descriptor is poisoned (R385). -/
def execVolQuery (c : Nat) (s : State) : Result :=
  .next <| withClaim s c 0x12 fun k =>
    let v := descVol k.desc
    let a := fld k.desc 0x10 0 32 + fld k.desc 0x14 0 8 * 2 ^ 32
    if !s.hallUp k.hall then s
    else match queryBad s k.desc with
      | some st => volDone s c v st 0
      | none =>
        match volGate s c k v ((s.vol v).home == k.hall.val) true with
        | .hold => s
        | .wait => s.setStage c .waiting
        | .fail st => volDone s c v st 0
        | .go => volDone (s.write .park a (leBytes 128 k.image.toNat) false) c v Status.ok 0

/-- FM_SEAL. -/
def sealVolume (s : State) (v : Nat) : Except Nat State :=
  let x := s.vol v
  let p := s.planOf v
  let n := ceilDiv (p.layers * p.span) 1024
  let l := s.spine v
  match s.freePages n 1 with
  | none => .error Status.noParkSpace
  | some g =>
    let inVol := fun (k : Nat) => v * spineSize ≤ k && k < (v + 1) * spineSize
    let t := { s with spineUsed := markRun s.spineUsed g n, refs := s.refs.filter fun q => !inVol q.1 }.setVol v
      { x with fm := true, reftab := spineFirstPage + g }
    .ok (t.byPair v (l.map fun q => q.1) true fun t _ i =>
      (t.setLeaf v i (withSh (t.leaf v i))).setRef v i { ref := 1 })

/-- FM_SEAL (R151, R152). -/
def execFmSeal (c : Nat) (s : State) : Result :=
  .next <| withVol s c 0x13 plainBad fun s _ v =>
    let x := s.vol v
    if x.state ≠ .live then volDone s c v Status.badState 0
    else if x.linked || x.window != 0 || x.fm then volDone s c v Status.fmInvalid 0
    else match sealVolume s v with
      | .error st => volDone s c v st 0
      | .ok t => volDone t c v Status.ok 0

/-! ### CHECKPOINT and PARK (R156, R166, R167) -/

/-- CHECKPOINT: it waits for a write-back that runs. -/
def execCheckpoint (c : Nat) (s : State) : Result :=
  .next <| withVol s c 0x14 plainBad fun s _ v =>
    if (s.vol v).state ≠ .live then volDone s c v Status.badState 0
    else if (s.job v).wb.isSome then s.setStage c .waiting
    else (startWriteBack s v (some c) false).setStage c .running

def parkBad (_ : State) (d : Rec64) : Option Nat := if zeroFrom d 8 21 then none else some Status.badReserved

/-- PARK: staging is cancelled and the DT leaves are written back. -/
def execPark (c : Nat) (s : State) : Result :=
  .next <| withVol s c 0x15 parkBad fun s k v =>
    let x := s.vol v
    if x.state ≠ .live then volDone s c v Status.badState 0
    else if x.fm && 0 < x.liveLinks && fld k.desc 8 20 1 == 0 then volDone s c v Status.fmInUse 0
    else (startWriteBack ((cancelStaging s v).setVolState v .parking) v (some c) true).setStage c .running

/-- Whether the usher of a volume can run an event of its own. -/
def volRuns (s : State) (v : Nat) : Bool := s.hallUp (s.vol v).home && !volLocked s v

/-- A write-back whose copies are made: committed, its claim told, and the next one started when it is due (R166). -/
def endWriteBack (s : State) (v : Nat) (w : WriteBack) : State :=
  let n := w.copied.length
  let s := w.copied.foldl (fun s q => writeBackLeaf s v q.1) s
  let s := commitWriteBack s v w
  match w.claim with
  | none => dueWriteBack s v
  | some c =>
    if w.park then s.modJob v fun j => { j with parkClaim := some c, parked := n }
    else dueWriteBack (volDone s c v Status.ok n) v

/-- WRITEBACK_COPIES_DONE (R166): every DT leaf of the cut has been copied and every park write answered. It waits while a
landing command or a reset keeps a leaf from being read (R121, R302). -/
def execWritebackCopiesDone (v : VolId) (s : State) : Result :=
  .next <|
    match (s.job v.toNat).wb with
    | none => s
    | some w =>
      if !volRuns s v.toNat then s
      else spineRead s v.toNat fun s =>
        if w.copied.all fun q => leafReady s v.toNat q.1 then endWriteBack s v.toNat w else s

/-- PARK_NEAR_RELEASED (R167): every near leaf becomes TIER 1 and its slot is released, of front matter once no step holds a
pin on the leaf (R159). Front matter that is parked by force rises in NGEN while linked steps run (R199). -/
def execParkNearReleased (v : VolId) (s : State) : Result :=
  .next <|
    let j := s.job v.toNat
    match j.parkClaim with
    | none => s
    | some c =>
      if (s.vol v.toNat).state ≠ .parking ∨ volRuns s v.toNat = false ∨ j.wb.isSome = true then s
      else spineRead s v.toNat fun s =>
        let s := dropReserves (nearToPark s v.toNat fun _ _ => true) v.toNat
        let s := (s.modJob v.toNat fun j => { j with parkClaim := none }).setVolState v.toNat .parked
        volDone s c v.toNat Status.ok j.parked

/-! ### SHELVE (R170) -/

/-- Far granules reserved for a list of leaves. -/
def reserveFar (n : Nat) : List Nat → Sparse Nat → State → Option (Sparse Nat × State)
  | [], t, s => some (t, s)
  | i :: l, t, s =>
    match s.freeFar n with
    | none => none
    | some g => reserveFar n l (sset t i g) { s with farUsed := markRun s.farUsed g n }

/-- A SHELVE that has no spine pair left to commit is done. -/
def shelveDone (s : State) (v : Nat) : State :=
  match (s.job v).shelve with
  | some (c, [], _) => volDone ((s.modJob v fun j => { j with shelve := none }).setVolState v .shelved) c v Status.ok 0
  | _ => s

/-- Whether SHELVE copies a leaf: one of the volume's own in the park tier, or a near one that front matter has staged for a
linker, whose park copy is current. -/
def shelves (e : Dword) : Bool := leTier e == 0 || leTier e == 1

/-- SHELVE. What still runs of a staging for linkers is cancelled. -/
def execShelve (c : Nat) (s : State) : Result :=
  .next <| withVol s c 0x16 plainBad fun s _ v =>
    let x := s.vol v
    if x.state ≠ .parked then volDone s c v Status.badState 0
    else
      let l := ((s.spine v).filter fun q => shelves q.2).map fun q => q.1
      match reserveFar (farGranules (s.planOf v) x.parkFmt) l [] s with
      | none => volDone s c v Status.noFarSpace 0
      | some (far, t) =>
        let t := ((cancelStaging t v).modJob v fun j => { j with shelve := some (c, pairsOf l, far) }).setVolState v .shelving
        shelveDone (t.setStage c .running) v

/-- One leaf copied to the far tier from its park copy; its granules, and the slot of a near one, are given back. -/
def shelveLeaf (s : State) (v i g gen : Nat) : State :=
  let e := s.leaf v i
  let sh := s.shadow v i
  let x := s.vol v
  let p := s.planOf v
  let n := parkSize p x.parkFmt
  let s := tierPass s x.home .park (s.parkAreaStart + shPloc sh * 8192) n .stream false
  let s := tierPass s x.home .far (s.farLeafAddr g) n .stream true
  let s := tierCopy s .park (s.parkAreaStart + shPloc sh * 8192) .far (s.farLeafAddr g) n
  let s := s.giveBack v i (if leTier e = 0 then e else 0) sh
  (s.setLeaf v i (withLoc e 2 g gen false)).setShadow v i 0

/-- SHELVE_LEAVES_COMMITTED (R170): the leaves of one spine pair are in the far tier, and its pages are rewritten. -/
def execShelveLeavesCommitted (v : VolId) (pair : Nat) (s : State) : Result :=
  .next <|
    let v := v.toNat
    match (s.job v).shelve with
    | none => s
    | some (c, l, far) =>
      if !volRuns s v || !l.elem pair || !s.porter.host.portbCxl then s
      else spineRead s v fun s =>
        let gen := s.editGen v
        let mine := (s.spine v).filter fun q => shelves q.2 && q.1 / 512 == pair
        let t := mine.foldl (fun t q => match sfind far q.1 with
          | some g => shelveLeaf t v q.1 g gen
          | none => t) s
        shelveDone (((t.sgenUp v true).recount v).modJob v fun j => { j with shelve := some (c, l.erase pair, far) }) v

/-! ### RESUME (R168, R175 to R177) -/

def resumeBad (_ : State) (d : Rec64) : Option Nat :=
  firstStatus (anySet d [(8, 20, 12), (0x0C, 12, 20), (0x10, 0, 384)]) (fld d 0x0C 0 12 == 0) false false

/-- Front-matter leaves that a volume's indirect entries name and that are not near. -/
def farFront (s : State) (v : Nat) : List Nat :=
  let f := (s.vol v).fmLink.toNat
  ((s.spine v).filter fun q => leTier q.2 == 3 && (leTier (s.leaf f (leRef q.2)) == 1 || leTier (s.leaf f (leRef q.2)) == 2)).map
    fun q => leRef q.2

/-- Front-matter leaves that a volume's resume needs near, put among what their home stages; where it has no room, the walk
asks for them again. -/
def stageFront (s : State) (v : Nat) : State :=
  (farFront s v).foldl (fun s i => match stageWanted s (s.vol v).fmLink.toNat i with
    | .ok s => s
    | .error _ => s) s

/-- What a RESUME reserves, or why it cannot. Leaves of front matter that are being staged for linkers keep their slots. -/
def resumeVolume (s : State) (v : Nat) (place : BitVec 12) (c : Nat) : Except Nat State :=
  let p := s.planOf v
  let s := s.modVol v fun x => { x with place := place }
  let elig := (List.range (p.lead + 1)).flatMap fun l => stageOrder s v l
  let all := (List.range p.layers).flatMap fun l => stageOrder s v l
  let old := ((s.job v).staging.map fun g => g.todo).getD []
  match reserveAll v (all.filter fun i => !old.any fun q => q.1 == i) 0 [] s with
  | .error st => .error st
  | .ok (new, s) =>
    let todo := all.filterMap fun i => (old ++ new).find? fun q => q.1 == i
    match reserveLayers v place (List.range p.layers) all.length s with
    | .error st => .error st
    | .ok s =>
      let g : Staging := { todo := todo, elig := elig, staged := 0, claim := some c }
      let s := (s.modJob v fun j => { j with staging := some g, stageK := all.length + p.layers }).setVolState v .resuming
      .ok (if (s.vol v).linked then stageFront s v else s)

/-- RESUME. -/
def execResume (c : Nat) (s : State) : Result :=
  .next <| withVol s c 0x17 resumeBad fun s k v =>
    let x := s.vol v
    if x.state ≠ .parked ∧ x.state ≠ .shelved then volDone s c v Status.badState 0
    else if (sfind s.plans x.plan).isNone then volDone s c v Status.noPlan 0
    else match resumeVolume s v (BitVec.ofNat 12 (fld k.desc 0x0C 0 12)) c with
      | .error st => volDone s c v st 0
      | .ok t =>
        if pfvKnown s.fwMajor < x.pfv ∨ x.pfv = 0 then volDone s c v Status.pfvUnknown 0 else t.setStage c .running

/-- LEAF_STAGED (R168, R188): a leaf's bytes are in its slot, and its entry becomes near. -/
def execLeafStaged (v : VolId) (idx : Nat) (s : State) : Result :=
  .next (if volRuns s v.toNat then spineRead s v.toNat fun s => stageOne s v.toNat idx else s)

/-- Interval since the last step, in 100 µs units (R177, R353). -/
def parkedFor (s : State) (v : Nat) : Nat :=
  let x := s.vol v
  min (((s.hall x.home).elapsed - x.lastElapsed).toNat / 10000) (2 ^ 32 - 1)

/-- RESUME_ELIGIBLE (R168, step 6): the last leaf of the eligibility set is near. -/
def execResumeEligible (v : VolId) (s : State) : Result :=
  .next <|
    let v := v.toNat
    match (s.job v).staging with
    | none => s
    | some g =>
      match g.claim with
      | none => s
      | some c =>
        if (s.vol v).state ≠ .resuming ∨ volRuns s v = false ∨ !g.elig.isEmpty then s
        else spineRead s v fun s =>
          let n := parkedFor s v
          let s := s.modJob v fun j => { j with staging := some { g with claim := none } }
          let s := s.modVol v fun x =>
            { x with ewma := if x.resumes = 0 then n else (3 * x.ewma + n) / 4, resumes := min (x.resumes + 1) 65535 }
          let s := s.modHost fun d => { d with resumeCount := min (d.resumeCount + 1) (2 ^ 32 - 1) }
          volDone (s.setVolState v .live) c v Status.ok g.staged

/-! ### RECOVER (R173) -/

/-- One entry recovered: the park copy up to the mark, or dropped. A far leaf has a valid copy and stays far. -/
def recoverEntry (s : State) (v gen i : Nat) : State :=
  let x := s.vol v
  let e := s.leaf v i
  let sh := s.shadow v i
  let n := fillBelow (s.planOf v) x.ckpt.toNat (s.blockOf v i x.ckpt.toNat)
  let slot := fun (s : State) => if leTier e = 0 then s.giveBack v i e 0 else s
  if leTier e = 3 then s
  else if leTier e = 2 ∧ n ≠ 0 then s.setLeaf v i (withFill e (min n (leFill e)))
  else if shPv sh = true ∧ n ≠ 0 then
    (slot s).setLeaf v i (leafEntry 1 (leSh e) false (shPloc sh) gen (min n (shPfill sh)))
  else ((s.giveBack v i e sh).setLeaf v i 0).setShadow v i 0

/-- A retained ring head put back in its position; the block written over it is dropped. -/
def putBack (s : State) (v : Nat) (q : Nat × Dword × Dword × Word) : State :=
  let s := s.freeEntry v (s.leaf v q.1) (s.shadow v q.1)
  (s.setLeaf v q.1 q.2.1).setShadow v q.1 q.2.2.1

def recoverVolume (s : State) (v : Nat) : State :=
  let x := s.vol v
  let j := s.job v
  let s := j.reserves.foldl (fun s q => s.dropReserve v q.2) s
  -- the oldest head of a position stood there at the mark
  let s := j.retired.reverse.foldl (fun s q => putBack s v q) s
  let s := s.modJob v fun j => { j with reserves := [], retired := [], wb := none, staging := none, parkClaim := none }
  let s := s.byPair v ((s.spine v).map fun q => q.1) true fun s gen i => recoverEntry s v gen i
  let s := s.modVol v fun y => { y with tokens := x.ckpt, dirty := 0, wbBusy := false, faultCause := 0 }
  -- its pages have been rewritten
  let pages := x.root :: (s.pairs.filter fun q => q.1 / 512 == v).flatMap fun q => [q.2, q.2 + 1]
  let s := pages.foldl (fun s n => (unitsOf .park (s.parkAddr (n * 4096)) 4096).foldl (fun s u => s.setPoison .park u false) s) s
  (s.recount v).setVolState v .parked

/-- RECOVER. -/
def execRecover (c : Nat) (s : State) : Result :=
  .next <| withVol s c 0x18 plainBad fun s _ v =>
    let x := s.vol v
    if x.state ≠ .faulted then volDone s c v Status.badState 0
    else volDone (recoverVolume s v) c v Status.ok (x.tokens - x.ckpt).toNat

/-! ### VOL_REHOME (R172, R353) -/

/-- VOL_REHOME: posted to the new home; it does not wait. The new home caches nothing of the volume yet (R136). -/
def execVolRehome (c : Nat) (s : State) : Result :=
  .next <| withClaim s c 0x19 fun k =>
    let v := descVol k.desc
    let x := s.vol v
    if !s.hallUp k.hall then s
    else match plainBad s k.desc with
      | some st => volDone s c v st 0
      | none =>
        if (s.job v).poisoned then volDone s c v Status.volPoisoned 0
        else if 16384 ≤ heldEntries s k.hall then volDone s c v Status.hallBusy 0
        else if x.state = .free then volDone s c v Status.badState 0
        else if !s.hallFenced x.home then volDone s c v Status.homeInService 0
        else if volLocked s v then s
        else
          let s := s.modVol v fun y => { y with home := k.hall.val, lastElapsed := (s.hall k.hall).elapsed,
                                                lastPuc := s.porter.powerup }
          volDone (settleLost (settleVolume s v) v) c v Status.ok 0

/-! ### HINT_QUERY (R174 to R176) -/

def hintBad (s : State) (d : Rec64) : Option Nat :=
  let a := fld d 0x10 0 32 + fld d 0x14 0 8 * 2 ^ 32
  firstStatus (anySet d [(8, 9, 23), (0x0C, 0, 32), (0x14, 8, 24), (0x18, 0, 320)]) false
    (fld d 8 0 9 == 0 || 256 < fld d 8 0 9) (a % 64 != 0 || !s.inHost a 2048)

/-- Predicted wake time of a volume (R176). -/
def wakeTime (x : Vol) : Nat := (x.lastElapsed.toNat + x.ewma * 10000) % 2 ^ 64

/-- PARKED and SHELVED volumes of a hall in hint order, each with whether its order is predicted. -/
def hintOrder (s : State) (h : Nat) : List (Nat × Vol × Bool) :=
  let l := s.vols.filter fun p => p.2.home == h && (p.2.state == .parked || p.2.state == .shelved)
  let recent := fun (l : List (Nat × Vol)) =>
    (sortBy (fun (p : Nat × Vol) => 2 ^ 64 - p.2.lastElapsed.toNat) l).map fun p => (p.1, p.2, false)
  if s.porter.host.resumeCount < 10000 then recent l
  else
    ((sortBy (fun (p : Nat × Vol) => wakeTime p.2) (l.filter fun p => 0 < p.2.resumes)).map fun p => (p.1, p.2, true))
    ++ recent (l.filter fun p => p.2.resumes == 0)

/-- A hint entry (R174). -/
def hintEntry (s : State) (h : Nat) (q : Nat × Vol × Bool) : Dword :=
  let now := (s.hall h).elapsed.toNat
  let when_ := if q.2.2 then (wakeTime q.2.1 - now) / 10000 else ((s.hall h).elapsed - q.2.1.lastElapsed).toNat / 10000
  let far := (s.spine q.1).any fun e => leTier e.2 == 2
  BitVec.ofNat 64 (q.1 % 2 ^ 20 + (if q.2.2 then 2 ^ 20 else 0) + (if far then 2 ^ 21 else 0) + min when_ (2 ^ 32 - 1) * 2 ^ 32)

/-- HINT_QUERY. -/
def execHintQuery (c : Nat) (s : State) : Result :=
  .next <| withClaim s c 0x1A fun k =>
    if !s.hallUp k.hall then s
    else match hintBad s k.desc with
      | some st => s.finish c st
      | none =>
        let a := fld k.desc 0x10 0 32 + fld k.desc 0x14 0 8 * 2 ^ 32
        let l := (hintOrder s k.hall).take (fld k.desc 8 0 9)
        let bytes := l.flatMap fun q => leBytes 8 (hintEntry s k.hall q).toNat
        (s.write .park a bytes false).complete c k.hall Status.ok (put 256 0x18 0 32 l.length)

end Sys2Proof.Machine
end

