-- ==== Sys2Proof/Machine/Walk.lean ====
section
/-! DEFINITION. The claim of a step and its walk (R183 to R189, R157, R161, R258). -/

namespace Sys2Proof.Machine

/-! ### The descriptor (Table 6.3) and the input records (R185) -/

def sdLane (d : Rec64) : Nat := fld d 8 20 6
def sdPath (d : Rec64) : Nat := fld d 8 26 2
def sdTopk (d : Rec64) : Bool := fld d 8 28 1 == 1
def sdRows (d : Rec64) : Nat := fld d 0x0C 0 7
def sdAccK (d : Rec64) : Nat := fld d 0x0C 8 7
def sdLimit (d : Rec64) : Nat := fld d 0x0C 16 16
def sdInput (d : Rec64) : Nat := fld d 0x10 0 32 + fld d 0x14 0 8 * 2 ^ 32
def sdOutput (d : Rec64) : Nat := fld d 0x18 0 32 + fld d 0x1C 0 8 * 2 ^ 32

/-- The field rules of a step descriptor (R184). ACC_K outside 2 to 64 with ACCEPT TOPK gives BAD_SHAPE: R12 has such a
value refused, and Table 6.3 names no status (DESIGN CHOICE, log entry 120). -/
def stepBad (op : StepOp) (s : State) (d : Rec64) : Option Nat :=
  let p := s.planOf (descVol d)
  let free := (s.vol (descVol d)).state == .free
  firstStatus
    (anySet d [(8, 29, 3), (0x0C, 7, 1), (0x0C, 15, 1), (0x14, 8, 24), (0x1C, 8, 24), (0x20, 0, 256)]
      || (op != .verify && sdTopk d) || (!sdTopk d && sdAccK d != 0))
    (sdPath d == 3)
    (sdRows d == 0 || 64 < sdRows d || (op == .decode && sdRows d != 1) || (sdTopk d && (sdAccK d < 2 || 64 < sdAccK d))
      || (!free && (p.lanes ≤ sdLane d || p.rows < sdRows d)))
    (sdInput d % 64 != 0 || !s.inHost (sdInput d) (8 * sdRows d) || sdOutput d % 64 != 0
      || !s.inHost (sdOutput d) (512 * sdRows d))

/-- An input record. -/
def inputRec (s : State) (d : Rec64) (i : Nat) : Dword := BitVec.ofNat 64 (s.readNat .park (sdInput d + 8 * i) 8)

/-- Depths of the nodes of a tree, given their parents. -/
def depths (parents : List Nat) : List Nat :=
  parents.foldl (fun a q => a ++ [if a.isEmpty then 0 else a.getD q 0 + 1]) []

/-- Status of the first input record that breaks a rule: its reserved bits (R11), then its PARENT (R185). -/
def inputStatus (op : StepOp) (recs : List Dword) : Option Nat :=
  let par := recs.map fun r => bits r 37 32
  let deep := depths par
  (recs.mapIdx fun i r => (i, r)).findSome? fun q =>
    let p := par.getD q.1 0
    if bits q.2 63 38 ≠ 0 then some Status.badReserved
    else if (if op = .verify then if q.1 = 0 then p != 0 else q.1 ≤ p || 16 < deep.getD q.1 0 else p != 0) = true then
      some Status.badShape
    else none

/-- Blocks that positions `t` to `t + n − 1` touch. -/
def touchedBlocks (p : Plan) (t n : Nat) : List Nat :=
  if n = 0 then [] else tab ((t + n - 1) / p.tpl + 1 - t / p.tpl) fun i => t / p.tpl + i

/-- R149 and the window rule of R185. -/
def placeBad (s : State) (v n : Nat) : Bool :=
  let p := s.planOf v
  let t := (s.vol v).tokens.toNat
  if (s.vol v).window = 0 then (touchedBlocks p t n).any fun b => p.span ≤ b
  else 1 < ((touchedBlocks p t n).filter fun b => t ≤ b * p.tpl).length

/-- A placement's unit that is fenced or not enabled: hall, stairwell, and whether it is the whole hall (R258). -/
def fencedUnit (s : State) (p : Plan) : Option (Nat × Nat × Bool) :=
  p.placements.findSome? fun e =>
    if (s.hall e.hall).state == .fenced || (s.hall e.hall).state == .off then some (e.hall.val, e.sw.val, true)
    else if (s.stair e.hall e.sw).fenced || !(s.stair e.hall e.sw).assigned then some (e.hall.val, e.sw.val, false) else none

/-- A step refused before it begins (Table 6.6). -/
def refuseStep (s : State) (c v status : Nat) (unit : Nat × Nat × Bool) : State :=
  match s.claim? c with
  | none => s
  | some x =>
    s.complete c x.hall status (refusedStep s v status unit)

/-! ### New blocks (R161, R186) -/

/-- Spine indices of a layer that a step's rows need new blocks for. -/
def newBlockIdxs (s : State) (v l n : Nat) : List Nat :=
  let p := s.planOf v
  let t := (s.vol v).tokens.toNat
  ((touchedBlocks p t n).filter fun b =>
    if (s.vol v).window = 0 then !leV (s.leaf v (s.blockIdx v l b)) else t ≤ b * p.tpl || !leV (s.leaf v (s.blockIdx v l b))).map
    fun b => s.blockIdx v l b

/-- A slot given to a step's new block. -/
def giveBlock (s : State) (n l i : Nat) (r : Reserve) : State :=
  let s := s.setSlot r.hall r.sw r.slot (.newBlock n)
  s.modStep n fun x => { x with blocks := x.blocks ++ [{ layer := l, idx := i, res := r }] }

/-- One new block: it takes the layer's reserve, which is refilled (R161). A ring's reserve is not refilled: the retired
head becomes it. A ring without a reserve waits at the walk. The block's spine pair is allocated with it. -/
def takeBlock (s : State) (n v l i : Nat) : Except Nat State :=
  let ring := (s.vol v).window != 0
  match s.ensurePair v i with
  | none => .error Status.noParkSpace
  | some s =>
  let own := sfind (s.job v).reserves l
  if ring then
    match own with
    | some r => .ok (giveBlock (s.modJob v fun j => { j with reserves := sdel j.reserves l }) n l i r)
    | none => .ok s
  else
    match s.reserveLeaf v (s.vol v).place (s.job v).stageK (.reserve (BitVec.ofNat 20 v)) with
    | .error st => .error st
    | .ok (r, s) =>
      let s := s.modJob v fun j => { j with stageK := j.stageK + 1, reserves := match own with
                                                                               | some _ => sset j.reserves l r
                                                                               | none => j.reserves }
      .ok (giveBlock s n l i (own.getD r))

def takeBlocks (n v : Nat) : List (Nat × Nat) → State → Except Nat State
  | [], s => .ok s
  | (l, i) :: t, s =>
    match takeBlock s n v l i with
    | .error st => .error st
    | .ok s => takeBlocks n v t s

/-! ### Starting a run (R183, R186, R199) -/

/-- INPUT of the lane's board; a record read poisoned is poisoned there (R383). -/
def writeInput (s : State) (x : Step) : State :=
  match (s.planOf x.vol.toNat).boards[x.lane]? with
  | none => s
  | some b =>
    if !s.swRuns b.hall b.sw then s
    else
      let t := x.tokens0.toNat
      let d := depths x.parents
      let bytes := (List.range x.nrows).flatMap fun r =>
        leBytes 4 (x.tokensIn.getD r 0).toNat ++ leBytes 4 (t + if x.op = .verify then d.getD r 0 else r)
      s.writeUnits (.sram b.hall b.sw) b.base bytes fun o m =>
        (List.range x.nrows).any fun r => o ≤ 8 * r && 8 * r < o + m && x.inBad.getD r false

/-- Whether a unit of a step's lane is in a compute reset: nothing of it is written till the reset ends (R302). -/
def laneResetting (s : State) (x : Step) : Bool :=
  let p := s.planOf x.vol.toNat
  let down := fun h sw => (s.hall h).state == .computeReset || (s.stair h sw).resetting
  ((laneRuns p x).any fun q => down q.2.1.hall q.2.2) || (p.boards[x.lane]?).any fun b => down b.hall b.sw

/-- Whether a unit of a step's lane does not run. -/
def laneDown (s : State) (x : Step) : Bool :=
  let p := s.planOf x.vol.toNat
  ((laneRuns p x).any fun q => !s.swRuns q.2.1.hall q.2.2) || (p.boards[x.lane]?).any fun b => !s.swRuns b.hall b.sw

/-- A run of step `n` begun: a new EPOCH, snapshots, INPUT written, the plan loaded in the lane, the walk at layer 0. A unit
of the lane that has left service since the claim makes the run void (R199). -/
def startRun (s : State) (n : Nat) : State :=
  match s.step? n with
  | none => s
  | some x =>
    let v := x.vol.toNat
    let ep := ((s.hall x.home).epoch + 1) % 65536
    let s := s.modHall x.home fun h => { h with epoch := ep }
    let f := (s.vol v).fmLink.toNat
    let x := { x with phase := .run, epoch := ep, sgen := (s.vol v).sgen, fsgen := (s.vol f).sgen, todo := [], walkLayer := 0,
                      gathers := [], sentTo := 0, boardRows := [], boardGot := [], boardNeed := 0, layersDone := 0, hops := [],
                      msgs := [], movesLeft := 0, lost := laneDown s x, halt := none }
    loadLane (writeInput (s.setStep n x) x) n x

/-- Shared leaves that a step reads. -/
def sharedRead (s : State) (v : Nat) : List Nat := ((s.spine v).filter fun q => leTier q.2 == 3).map fun q => leRef q.2

/-- Whether a step has the pins it needs (R155). -/
def pinsReady (s : State) (x : Step) : Bool :=
  x.pinsDone || !(s.vol x.vol.toNat).linked || (sharedRead s x.vol.toNat).isEmpty

/-- CLAIM's end (Table 6.4): with its pins granted and DONE zeroed, the first run begins. LIMIT counts from here and covers
both runs (R204). A second run begins in the same way. -/
def endClaim (s : State) (n : Nat) : State :=
  match s.step? n with
  | none => s
  | some x =>
    if x.phase ≠ .claim ∨ s.hallUp x.home = false ∨ pinsReady s x = false ∨ laneResetting s x = true ∨
        (s.retries.any fun r => runsClaim r.who x.claim) = true then s
    else
      let t := if x.limit = 0 then none else some (s.now + x.limit * 1000)
      startRun (s.setStep n { x with deadline := if x.run = 1 then t else x.deadline }) n

/-- The lane is the step's: DONE zeroed and a slot reserved for every new block (Table 6.4). -/
def beginStep (s : State) (n : Nat) : State :=
  match s.step? n with
  | none => s
  | some x =>
    let v := x.vol.toNat
    let p := s.planOf v
    let x := { x with phase := .claim }
    let want := (List.range p.layers).flatMap fun l => (newBlockIdxs s v l x.nrows).map fun i => (l, i)
    match takeBlocks n v want (s.setStep n x) with
    | .error st => endStep (s.setStep n x) n st (0, 0, false)
    | .ok s => endClaim (laneUsherOp s x true 2 0x13 0) n

/-- One try of the lane's lock (R183). -/
def tryLane (s : State) (n : Nat) : State :=
  match s.step? n with
  | none => s
  | some x =>
    let k := laneClasp (s.planOf x.vol.toNat) x.lane 0
    match (s.hall (claspHome k)).state with
    | .computeReset => s.noteReset (claspHome k)
    | .enabled =>
      if claspLocked s (BitVec.ofNat 16 k) then s
      else match cellOp (s.clasp k) x.home 0x30 (BitVec.ofNat 32 (usherOwner x.usher)) true with
        | .ok c => beginStep (storeCell s k c) n
        | .fail st => if st = Status.lockBusy ∨ st = Status.lockOrphaned then s else endStep s n st (0, 0, false)
        | .wait _ _ => s
    | _ => endStep s n Status.claspLost (0, 0, false)

/-- LANE_LOCK_RETRY (R183). -/
def execLaneLockRetry (st : Nat) (s : State) : Result :=
  .next <|
    match s.step? st with
    | some x => if x.phase = .lane ∧ s.hallUp x.home = true then settle (tryLane s st) else s
    | none => s

/-- The step of a checked descriptor. A poisoned input record is poison that the step consumes (R203). -/
def newStep (s : State) (c : Nat) (k : Claim) (op : StepOp) (recs : List Dword) : Step :=
  let d := k.desc
  let bad := tab (sdRows d) fun i => s.poisonedAt .park (sdInput d + 8 * i) 8
  let poison := bad.any fun b => b
  { claim := c, op := op, home := k.hall, vol := BitVec.ofNat 20 (descVol d), lane := sdLane d, path := sdPath d,
    accept := sdTopk d, nrows := sdRows d, accK := sdAccK d, limit := sdLimit d, deadline := none, output := sdOutput d,
    tokensIn := recs.map fun r => BitVec.ofNat 32 (bits r 31 0), inBad := bad, parents := recs.map fun r => bits r 37 32,
    phase := .lane, run := 1, epoch := 0, sgen := 0, fsgen := 0, pinned := [], pinsDone := false, todo := [], backs := [], walkLayer := 0,
    blocks := [], tokens0 := (s.vol (descVol d)).tokens, gathers := [], sentTo := 0, boardRows := [], boardGot := [],
    boardNeed := 0, layersDone := 0, hops := [], msgs := [], movesLeft := 0, lost := false, poison := poison,
    poisonIdx := if poison then some 0x3FFFF else none, rewalk := false, press := sdPath d == 2 || (sdPath d == 0 && 2 < sdRows d), halt := none, fail := none,
    standby := [], accepted := 0, lastNode := 0, kept := [], nextTok := 0 }

/-- A step claimed: its checks in R185's order, then the volume is RUNNING and the lane's lock is tried. -/
def claimStep (op : StepOp) (s : State) (c : Nat) (k : Claim) : State :=
  let v := descVol k.desc
  let p := s.planOf v
  let fail := fun st u => refuseStep s c v st u
  let x := s.vol v
  if x.state ≠ .live ∨ x.fm = true then fail Status.badState (0, 0, false)
  else if 64 ≤ x.dirty then dueWriteBack (s.setStage c .waiting) v
  else if op = .verify ∧ p.head = false then fail Status.noVerifyHead (0, 0, false)
  else
    let recs := tab (sdRows k.desc) fun i => inputRec s k.desc i
    match inputStatus op recs with
    | some st => fail st (0, 0, false)
    | none =>
      if placeBad s v (sdRows k.desc) then fail Status.badShape (0, 0, false)
      else match fencedUnit s p with
        | some u => fail Status.unitFenced u
        | none =>
          let n := s.nextStep
          let s := { (s.setStep n (newStep s c k op recs)) with nextStep := n + 1 }
          settle (tryLane ((s.setStage c .running).setVolState v .running) n)

/-- A step descriptor. -/
def stepDescriptor (s : State) (c code : Nat) (op : StepOp) : State :=
  withClaim s c code fun k =>
    let v := descVol k.desc
    if !s.hallUp k.hall then s
    else match stepBad op s k.desc with
      | some st => refuseStep s c v st (0, 0, false)
      | none =>
        gated s c (volGate s c k v ((s.vol v).home == k.hall.val) false) v (fun s st => refuseStep s c v st (0, 0, false))
          fun s => claimStep op s c k

/-- STEP_DECODE (R184 to R187). -/
def execStepDecode (c : Nat) (s : State) : Result := .next (stepDescriptor s c 0x20 .decode)
/-- STEP_VERIFY. -/
def execStepVerify (c : Nat) (s : State) : Result := .next (stepDescriptor s c 0x21 .verify)
/-- STEP_PREFILL. -/
def execStepPrefill (c : Nat) (s : State) : Result := .next (stepDescriptor s c 0x22 .prefill)

/-- STEP_ABORT (R247): it does not wait. A step that waits unclaimed goes first. -/
def execStepAbort (c : Nat) (s : State) : Result :=
  .next <| withClaim s c 0x23 fun k =>
    let d := k.desc
    let v := descVol d
    let x := s.vol v
    let done := fun (s : State) st => volDone s c v st 0
    if !s.hallUp k.hall then s
    else match firstStatus (!zeroFrom d 8 26) false (x.state != .free && (s.planOf v).lanes ≤ sdLane d) false with
      | some st => done s st
      | none =>
        if x.home ≠ k.hall.val then done s Status.wrongHome
        else if (s.job v).poisoned then done s Status.volPoisoned
        else if !entryHeld s v && 16384 ≤ heldEntries s k.hall then done s Status.hallBusy
        else
          let waits := s.claims.find? fun p => [0x20, 0x21, 0x22].contains (descOpcode p.2.desc) && p.2.stage == .waiting
            && descVol p.2.desc == v && sdLane p.2.desc == sdLane d
          match waits with
          | some p => done (refuseStep s p.1 v Status.aborted (0, 0, false)) Status.ok
          | none =>
            match s.steps.find? fun p => p.2.vol.toNat == v && p.2.lane == sdLane d with
            | some p => if p.2.endable then done (endStep s p.1 Status.aborted (0, 0, false)) Status.ok
              else done s Status.badState
            | none => done s Status.badState

/-- STEP_TIMEOUT (R204). -/
def execStepTimeout (st : Nat) (s : State) : Result :=
  .next <|
    match s.step? st with
    | some x =>
      match x.deadline with
      | some t => if (x.phase = .run ∨ x.phase = .claim) ∧ t ≤ s.now ∧ s.hallUp x.home = true then endStep s st Status.timeout (0, 0, false) else s
      | none => s
    | none => s

/-! ### Pins (R155) -/

/-- PIN_REQUEST (R155): the front matter's home raises PIN on what a step reads, unless one would pass 65,535, and the step's
CLAIM can end; or it lowers what an ended step holds. -/
def execPinRequest (st : Nat) (up : Bool) (s : State) : Result :=
  .next <|
    if up then
      match s.step? st with
      | some x =>
        let v := x.vol.toNat
        let f := (s.vol v).fmLink.toNat
        let l := sharedRead s v
        if x.phase = .lane ∨ x.pinsDone = true ∨ !(s.vol v).linked ∨ !volRuns s f ∨ (l.any fun i => 65535 ≤ (s.ref f i).pin) then s
        else settle (endClaim ((l.foldl (fun s i => s.setRef f i { s.ref f i with pin := (s.ref f i).pin + 1 }) s).modStep st
          fun y => { y with pinned := l, pinsDone := true }) st)
      | none => s
    else
      match sfind s.unpins st with
      | some (f, l) =>
        if (s.vol f).state = .free ∨ volRuns s f = true then (lowerPins { s with unpins := sdel s.unpins st } f l).unkeep st else s
      | none => s

/-! ### One layer of the walk (R188, R190, R196) -/

/-- A leaf that a layer's leaf work reads or writes. -/
structure Target where
  idx     : Nat
  shared  : Bool
  hall    : Nat
  owner   : Nat
  slot    : Nat
  rowFrom : Nat
  rowTo   : Nat
  newRow  : Nat
  newCount : Nat
  newBase : Nat

/-- The stairwell that serves a column: its own, or its adopter (R128). -/
def State.receiver (s : State) (h sw : Nat) : Option Nat :=
  let x := s.stair h sw
  if !s.colServed h sw then none
  else if !x.fenced then some sw
  else x.adopter.map fun a => a.val

/-- New rows of a step in block `b`: the first one's leaf row and board row, and their count. -/
def newRows (p : Plan) (t n b : Nat) : Nat × Nat × Nat :=
  let base := b * p.tpl - t
  let lo := max t (b * p.tpl)
  let hi := min (t + n) ((b + 1) * p.tpl)
  (lo - b * p.tpl, base, hi - lo)

/-- An own leaf in a slot as a target. -/
def ownTarget (s : State) (x : Step) (i b fill h sw slot : Nat) : Target :=
  let v := x.vol.toNat
  let p := s.planOf v
  let t := x.tokens0.toNat
  let w := (s.vol v).window.toNat
  let to_ := min fill (t - b * p.tpl)
  let edge := if w = 0 then 0 else t + 1 - w - b * p.tpl
  let nr := newRows p t x.nrows b
  { idx := i, shared := false, hall := h, owner := sw, slot := slot, rowFrom := min edge to_, rowTo := to_,
    newRow := nr.1, newCount := nr.2.2, newBase := nr.2.1 }

/-- Valid entries of a layer, with the block each holds. -/
def layerEntries (s : State) (x : Step) (l : Nat) : List (Nat × Dword × Nat) :=
  let v := x.vol.toNat
  let p := s.planOf v
  ((s.spine v).filter fun q => q.1 / p.span == l).map fun q => (q.1, q.2, s.blockOf v q.1 x.tokens0.toNat)

/-- Leaves of a layer that must be staged before its leaf work: volume and spine index. -/
def layerMissing (s : State) (x : Step) (l : Nat) : List (Nat × Nat) :=
  let v := x.vol.toNat
  let f := (s.vol v).fmLink.toNat
  (layerEntries s x l).filterMap fun q =>
    if leTier q.2.1 = 1 ∨ leTier q.2.1 = 2 then
      let t := ownTarget s x q.1 q.2.2 (leFill q.2.1) 0 0 0
      if t.rowFrom < t.rowTo ∨ 0 < t.newCount then some (v, q.1) else none
    else if leTier q.2.1 = 3 then
      let e := s.leaf f (leRef q.2.1)
      if leV e && leTier e != 0 then some (f, leRef q.2.1) else none
    else none

/-- Indirect entries of a layer that receive new rows (R157). -/
def layerCopies (s : State) (x : Step) (l : Nat) : List (Nat × Nat) :=
  let p := s.planOf x.vol.toNat
  ((layerEntries s x l).filter fun q => leTier q.2.1 == 3 && 0 < (newRows p x.tokens0.toNat x.nrows q.2.2).2.2).map
    fun q => (q.1, leRef q.2.1)

/-- Copy on write of one shared leaf into the layer's append reserve, which is refilled (R157, R161). It waits while the leaf
cannot be read or its copy's slot cannot be written (R121, R302). -/
def copyShared (s : State) (v i fi : Nat) : State :=
  let f := (s.vol v).fmLink.toNat
  let l := i / (s.planOf v).span
  let e := s.leaf f fi
  match sfind (s.job v).reserves l with
  | none => s
  | some r =>
    if !slotReady s (leHall e) (leSw e) (leSlot e) false || !slotReady s r.hall r.sw r.slot true then s
    else
    let s := s.modJob v fun j => { j with reserves := sdel j.reserves l }
    let s := s.copyBeats (.column (leHall e) (leSw e)) (leSlot e * 65536) (.column r.hall r.sw) (r.slot * 65536) 65536
    let s := s.setSlot r.hall r.sw r.slot (.leaf (BitVec.ofNat 20 v) i)
    let s := s.setLeaf v i (leafEntry 0 false true (nearLoc r.hall r.sw r.slot) (s.editGen v) (leFill (s.leaf v i)))
    let s := s.setShadow v i (shadowEntry false true r.park 0)
    refill (((s.sgenUp v true).dropRef f fi).recount v) v

/-- New blocks of a layer that the step holds no slot for yet. -/
def layerNeeds (s : State) (x : Step) (l : Nat) : List Nat :=
  (newBlockIdxs s x.vol.toNat l x.nrows).filter fun i => !x.blocks.any fun b => b.idx == i

/-- A ring's append without a reserve takes it when there is one, and else has a write-back started (R161). -/
def ringReserve (s : State) (n : Nat) (x : Step) (l i : Nat) : State :=
  let v := x.vol.toNat
  match sfind (s.job v).reserves l with
  | some _ =>
    match takeBlock s n v l i with
    | .ok s => s
    | .error _ => s
  | none => if (s.job v).wb.isNone then startWriteBack s v none false else s

/-- Targets of a layer in rising spine index: own leaves, shared leaves and new blocks. -/
def layerTargets (s : State) (x : Step) (l : Nat) : List Target :=
  let v := x.vol.toNat
  let p := s.planOf v
  let f := (s.vol v).fmLink.toNat
  let old := (layerEntries s x l).filterMap fun q =>
    if x.blocks.any fun b => b.idx == q.1 then none
    else if leTier q.2.1 = 0 then some (ownTarget s x q.1 q.2.2 (leFill q.2.1) (leHall q.2.1) (leSw q.2.1) (leSlot q.2.1))
    else if leTier q.2.1 = 3 then
      let e := s.leaf f (leRef q.2.1)
      if leV e then
        some { idx := leRef q.2.1, shared := true, hall := leHall e, owner := leSw e, slot := leSlot e, rowFrom := 0,
               rowTo := leFill e, newRow := 0, newCount := 0, newBase := 0 }
      else none
    else none
  let new := (x.blocks.filter fun b => b.layer == l).map fun b =>
    let t := x.tokens0.toNat
    let blk := ((touchedBlocks p t x.nrows).find? fun k => s.blockIdx v l k == b.idx).getD 0
    let nr := newRows p t x.nrows blk
    { idx := b.idx, shared := false, hall := b.res.hall.val, owner := b.res.sw.val, slot := b.res.slot, rowFrom := nr.1,
      rowTo := nr.1, newRow := nr.1, newCount := nr.2.2, newBase := nr.2.1 }
  (sortBy (fun (t : Target) => t.idx) (old ++ new)).filter fun t =>
    t.rowFrom < t.rowTo || 0 < t.newCount

/-- The next merge hop of a participant within its hall (R196): none for the one that sends to the board. -/
def nextHop (parts : List Nat) (sw : Nat) : Option Nat :=
  let low := parts.filter fun q => q < sw && q / 16 == sw / 16
  if !low.isEmpty then low.getLast?
  else
    match (parts.filter fun q => q / 16 < sw / 16).getLast? with
    | none => none
    | some g => parts.find? fun q => q / 16 == g / 16

/-- The leaf work of one layer: each target's receiver is given. -/
def layerItems (n : Nat) (x : Step) (l : Nat) (ts : List (Target × Nat)) (b : Board) :
    List (HallId × SwId × WorkItem) × List Hop :=
  let parts := fun h => (List.range 256).filter fun sw => ts.any fun t => t.1.hall == h && t.2 == sw
  let halls := (List.range 12).filter fun h => ts.any fun t => t.1.hall == h
  let hop := fun h sw : Nat =>
    let ps := parts h
    let nx := nextHop ps sw
    ({ layer := l, hall := Fin.ofNat 12 h, sw := Fin.ofNat 256 sw, rows := [], got := [],
       localLeft := (ts.filter fun t => t.1.hall == h && t.2 == sw).length,
       ins := (ps.filter fun q => nextHop ps q == some sw).length, nextBoard := nx.isNone, nextHall := Fin.ofNat 12 h,
       nextSw := Fin.ofNat 256 (nx.getD 0) } : Hop)
  let hops := halls.flatMap fun h => (parts h).map fun sw => hop h sw
  let item := fun (kind : WorkKind) (t : Target) (sw : Nat) =>
    let k := hop t.hall sw
    ({ kind := kind, step := n, lane := x.lane, press := x.press, epoch := x.epoch, vol := x.vol, layer := l, index := t.idx,
       shared := t.shared, slot := t.slot, owner := Fin.ofNat 256 t.owner, bhall := b.hall, bsw := b.sw,
       rowFrom := if kind = .attend then t.rowFrom else 0, rowTo := if kind = .attend then t.rowTo else t.newRow,
       newCount := t.newCount, newBase := t.newBase, nextSw := k.nextSw, nextHall := k.nextHall, nextBoard := k.nextBoard,
       inCount := if kind = .attend then k.ins else 0, localN := if kind = .attend then k.localLeft else 0, halls := 0,
       newRow := t.newRow } : WorkItem)
  let at_ := fun (t : Target) (sw : Nat) => (Fin.ofNat 12 t.hall, Fin.ofNat 256 sw)
  let app := (ts.filter fun t => 0 < t.1.newCount && !t.1.shared).map fun t => ((at_ t.1 t.2).1, (at_ t.1 t.2).2, item .append t.1 t.2)
  let att := ts.map fun t => ((at_ t.1 t.2).1, (at_ t.1 t.2).2, item .attend t.1 t.2)
  let gather : WorkItem :=
    { kind := .gather, step := n, lane := x.lane, press := x.press, epoch := x.epoch, vol := x.vol, layer := l, index := 0,
      shared := false, slot := 0, owner := b.sw, bhall := b.hall, bsw := b.sw, rowFrom := 0, rowTo := 0, newCount := 0,
      newBase := 0, nextSw := 0, nextHall := 0, nextBoard := false, inCount := halls.length, localN := 0,
      halls := (halls.map fun h => 2 ^ h).sum, newRow := 0 }
  (app ++ att ++ [(b.hall, b.sw, gather)], hops)

/-- What the walk reserves for one layer: a slot for every leaf that it lacks, and an append reserve for a copy. -/
def walkReserve (x : Step) (s : State) (l : Nat) : Except Nat State :=
  match (layerMissing s x l).foldlM (fun s q => stageWanted s q.1 q.2) s with
  | .error st => .error st
  | .ok s => if (layerCopies s x l).isEmpty then .ok s else fillReserve s x.vol.toNat l

/-- The walk of the step's next layer: what it lacks is reserved, and staged or copied first; else its leaf work is made ready.
Before any leaf work it reserves for every layer; without room the step ends with NO_SLOTS or NO_PARK_SPACE (Table 5.2). -/
def walkLayer (s : State) (n : Nat) (x : Step) (b : Board) : State :=
  let v := x.vol.toNat
  let l := x.walkLayer
  match (if l = 0 then List.range (s.planOf v).layers else [l]).foldlM (walkReserve x) s with
  | .error st => endStep s n st (0, 0, false)
  | .ok s =>
  let missing := layerMissing s x l
  let copies := layerCopies s x l
  let needs := layerNeeds s x l
  if !missing.isEmpty then s
  else if !copies.isEmpty then copies.foldl (fun s q => copyShared s v q.1 q.2) s
  else if !needs.isEmpty then needs.foldl (fun s i => ringReserve s n x l i) s
  else
    let ts := (layerTargets s x l).map fun t => (t, s.receiver t.hall t.owner)
    if ts.any fun t => t.2.isNone then s
    else
      let r := layerItems n x l (ts.map fun t => (t.1, t.2.getD 0)) b
      s.setStep n { x with todo := r.1, hops := x.hops ++ r.2, walkLayer := l + 1 }

/-- A step's leaf work for one hall delivered again, or for every hall that is not waited for: the first such item goes to its
stairwell's store, when the store has room (R189). A hall in compute reset answers TARGET_RESETTING, and the items for it are
held until the first is presented again (R303). -/
def emitItem (s : State) (n : Nat) (x : Step) (only : Option HallId) : State :=
  let mine := fun (t : HallId × SwId × WorkItem) => match only with
    | some h => t.1 == h
    | none => (sfind x.backs t.1).isNone
  match x.todo.find? mine with
  | none => s
  | some (h, sw, i) =>
    if (s.hall h).state = .computeReset ∨ (s.stair h sw).resetting = true then
      (s.noteReset h).setStep n { x with backs := sset x.backs h (Backoff.next s.now (sfind x.backs h)) }
    else if s.swRuns h sw && (s.stair h sw).items.length < 64 then
      (s.modStair h sw fun y => { y with items := y.items ++ [i] }).setStep n
        { x with todo := x.todo.eraseP mine, backs := sdel x.backs h }
    else s

/-- The front matter that a step walks has a poisoned page: it is FAULTED, and the step ends with POISONED (log entry 30). -/
def frontPoisoned (s : State) (n v : Nat) : State :=
  endStep ((faultSpine s (s.vol v).fmLink.toNat).modStep n fun x => { x with poison := true, poisonIdx := x.poisonIdx.getD 0x3FFFF })
    n Status.poisoned (0, 0, false)

/-- WALK_ITEM_EMIT (R188, R189): the walk's next act; of a step in CLAIM, that it ends once nothing is awaited. -/
def execWalkItemEmit (st : Nat) (s : State) : Result :=
  .next <|
    match s.step? st with
    | none => s
    | some x =>
      let v := x.vol.toNat
      let p := s.planOf v
      if x.phase = .claim then settle (endClaim s st)
      else if !s.hallUp x.home || volLocked s v || !pinsReady s x || x.lost then s
      else if x.phase = .decide ∨ (x.phase = .run ∧ !x.todo.isEmpty) then emitItem s st x none
      else if x.phase = .run ∧ x.walkLayer < p.layers then spineRead s v fun s =>
        if (s.vol v).linked && spinePoisoned s (s.vol v).fmLink.toNat then frontPoisoned s st v
        else match p.boards[x.lane]? with
        | some b =>
          let t := walkLayer s st x b
          match t.step? st with
          | some y => emitItem t st y none
          | none => t
        | none => s
      else s

end Sys2Proof.Machine
end

