-- ==== Sys2Proof/Machine/Attention.lean ====
section
/-! DEFINITION. Leaf work at the stairwells, the merge of partial rows, and the end of a step (R189 to R203, R394). -/

namespace Sys2Proof.Machine

/-! ### Items (R189) -/

/-- The board of a step. -/
def boardOf (s : State) (x : Step) : Option Board := (s.planOf x.vol.toNat).boards[x.lane]?

/-- Whether an item belongs to the current run of its step. -/
def itemCurrent (s : State) (i : WorkItem) : Bool :=
  match s.step? i.step with
  | some x => x.epoch == i.epoch && x.phase != .lane
  | none => false

/-- Items of earlier runs discarded, and rows that no item is to use. -/
def dropStale (s : State) (h sw : Nat) : State :=
  s.modStair h sw fun y =>
    let l := y.items.filter (itemCurrent s)
    { y with items := l
             rows := y.rows.filter fun r => l.any fun i => i.step == r.step && i.epoch == r.epoch && i.layer == r.layer }

/-- The count of a queue raised by the ops that microcode formed for an item. Microcode forms only ops that pass R43's check,
and all of them retire with the item (log entry 28). -/
def retireLeaf (i : WorkItem) (l : Sparse OpQueue) (q : Nat) : Sparse OpQueue :=
  let x := sget l {} q
  sset l q { x with retired := x.retired + BitVec.ofNat 32 (Config.leafOps i.epoch i.layer i.index q) }

/-- The `n`-th item of a stairwell consumed: its ops have passed through queues 10 and 11 (R57, R64). -/
def takeItem (s : State) (h sw n : Nat) : State :=
  s.modStair h sw fun y =>
    { y with items := y.items.eraseIdx n
             queues := match y.items[n]? with
               | some i => retireLeaf i (retireLeaf i y.queues 10) 11
               | none => y.queues }

/-- The rows that a stairwell has received for an item (R198). -/
def rowsFor (s : State) (h sw : Nat) (i : WorkItem) : Option StepRows :=
  (s.stair h sw).rows.find? fun r => r.step == i.step && r.epoch == i.epoch && r.layer == i.layer

/-- Bytes of a row received, and whether any is poisoned. -/
def beatBytes (l : List (List Byte × Bool)) : List Byte := l.flatMap fun b => b.1
def beatPoison (l : List (List Byte × Bool)) : Bool := l.any fun b => b.2

/-- Runs `k` on the first item of a stairwell that satisfies `sel`, with its step and board. The item is consumed when
`k` answers. -/
def leafWork (s : State) (h sw : Nat) (sel : State → List WorkItem → WorkItem → Bool)
    (k : State → WorkItem → Step → Board → Option State) : State :=
  if !s.swRuns h sw then s
  else
    let s := dropStale s h sw
    let l := (s.stair h sw).items
    match l.findIdx? (sel s l) with
    | none => s
    | some n =>
      match l[n]? with
      | none => s
      | some i =>
        match s.step? i.step with
        | none => s
        | some x =>
          match boardOf s x with
          | none => s
          | some b => (k (takeItem s h sw n) i x b).getD s

/-- Position of a leaf row, in its column. -/
def keyAt (p : Plan) (slot row : Nat) : Nat := slot * 65536 + p.koff + row * p.stride
def valueAt (p : Plan) (slot row : Nat) : Nat := slot * 65536 + p.voff + row * p.stride

/-- Quiet edit that sets DT on an own near leaf (R165). -/
def setDt (s : State) (v i : Nat) : State :=
  let e := s.leaf v i
  if leV e && leTier e == 0 && !leDt e then (s.setLeaf v i (withDt e true)).sgenUp v false else s

/-! ### APPEND (R195) -/

/-- One new row's key and value written into a leaf. -/
def appendRow (s : State) (p : Plan) (t : StepRows) (col : Region) (slot boardRow row : Nat) : State :=
  let s := s.writeBeats col (keyAt p slot row) (t.keys.getD boardRow [])
  s.writeBeats col (valueAt p slot row) (t.values.getD boardRow [])

/-- An APPEND item's rows `t` written, when no landing command holds them. -/
def runAppend (s : State) (h : Nat) (i : WorkItem) (x : Step) (t : StepRows) : Option State :=
  let v := x.vol.toNat
  let p := s.planOf v
  let col := Region.column h i.owner
  let held := (List.range i.newCount).any fun j =>
    s.colHeld h i.owner (keyAt p i.slot (i.rowTo + j)) p.rowLen true
      || s.colHeld h i.owner (valueAt p i.slot (i.rowTo + j)) p.rowLen true
  if held || !s.colServed h i.owner || volLocked s v then none
  else
    let bad := (List.range i.newCount).any fun j =>
      beatPoison (t.keys.getD (i.newBase + j) []) || beatPoison (t.values.getD (i.newBase + j) [])
    let s := (List.range i.newCount).foldl (fun s j => appendRow s p t col i.slot (i.newBase + j) (i.rowTo + j)) s
    let s := if bad then notePoison s (some i.step) 0x3FFFF else s
    some (if x.blocks.any fun k => k.idx == i.index then s else setDt s v i.index)

/-- LEAF_APPEND (R195). -/
def execLeafAppend (h : HallId) (sw : SwId) (s : State) : Result :=
  .next <| leafWork s h sw (fun s _ i => i.kind == .append && (rowsFor s h sw i).isSome) fun s i x _ =>
    match rowsFor s h sw i with
    | some t => runAppend s h i x t
    | none => none

/-! ### What a query row attends (R190) -/

/-- Logical position of new row `r` of a step. -/
def rowPos (x : Step) (r : Nat) : Nat := x.tokens0.toNat + if x.op = .verify then (depths x.parents).getD r 0 else r

/-- Whether node `a` is node `n` or one of its ancestors. -/
def isAncestor (parents : List Nat) : Nat → Nat → Nat → Bool
  | 0, a, n => a == n
  | k + 1, a, n => a == n || (n != 0 && isAncestor parents k a (parents.getD n 0))

/-- Whether new row `r` attends new row `q`. -/
def attendsNew (x : Step) (r q : Nat) : Bool :=
  match x.op with
  | .decode => q == r
  | .prefill => q ≤ r
  | .verify => isAncestor x.parents 16 q r

/-- First committed row of a leaf that new row `r` attends. -/
def edgeOf (s : State) (i : WorkItem) (x : Step) (r : Nat) : Nat :=
  let v := x.vol.toNat
  let p := s.planOf v
  let w := (s.vol v).window.toNat
  if i.shared || w == 0 || x.blocks.any fun k => k.idx == i.index then i.rowFrom
  else
    let base := s.blockOf v i.index x.tokens0.toNat * p.tpl
    min i.rowTo (max i.rowFrom (rowPos x r + 1 - w - base))

/-- Whether new row `r` attends leaf row `j`. -/
def attendsRow (s : State) (i : WorkItem) (x : Step) (r j : Nat) : Bool :=
  (edgeOf s i x r ≤ j && j < i.rowTo)
  || (i.newRow ≤ j && j < i.newRow + i.newCount && attendsNew x r (i.newBase + (j - i.newRow)))

/-- One past the last leaf row that a step's rows attend. -/
def rowsEnd (i : WorkItem) : Nat := if i.newCount = 0 then i.rowTo else max i.rowTo (i.newRow + i.newCount)

/-- The partial row of a query row that attends nothing. -/
def emptyPart (d : Nat) : PartRow := { m := 0xFF800000, s := 0, o := List.replicate d 0 }

/-! ### Landing path (R192) -/

/-- Address of query head `j` of new row `r` on the board. -/
def queryAt (p : Plan) (b : Board) (r j : Nat) : Nat := b.base + 0x200 + (r * p.kvheads * p.g + j) * 512

/-- The ATTEND command for new row `r` and the heads from `first` on. -/
def attendCmd (p : Plan) (i : WorkItem) (edge first heads : Nat) : Rec64 :=
  let off := first * p.d * kvBytes p.kvfmt
  let n := rowsEnd i - edge
  put 512 0 0 8 0x03 ||| put 512 0 20 5 (heads * p.g) ||| put 512 0 25 5 p.g
    ||| put 512 4 0 28 (keyAt p i.slot edge + off) ||| put 512 8 0 28 (valueAt p i.slot edge + off)
    ||| put 512 0x14 0 16 p.stride ||| put 512 0x14 16 16 p.stride ||| put 512 0x18 0 12 n ||| put 512 0x18 12 9 p.d
    ||| put 512 0x1C 0 12 (i.rowTo - edge) ||| put 512 0x1C 12 1 (if i.newCount = 0 then 0 else 1)
    ||| put 512 0x20 0 32 p.scale.toNat

/-- Mask bytes of one query row (R117). -/
def maskBytes (s : State) (i : WorkItem) (x : Step) (r : Nat) : List Byte :=
  leBytes 8 (sumN 64 fun k => if attendsRow s i x r (i.rowTo + k) then 2 ^ k else 0)

/-- A group of heads of new row `r`: the query window filled, then ACC_CLEAR, ATTEND and READOUT. -/
def landGroup (s : State) (h l : Nat) (i : WorkItem) (x : Step) (p : Plan) (t : StepRows) (r first heads : Nat) :
    State × List PartRow :=
  let edge := edgeOf s i x r
  let n := heads * p.g
  let rows := List.range n
  if rowsEnd i ≤ edge then (s, rows.map fun _ => emptyPart p.d)
  else
    let c := attendCmd p i edge first heads
    let qrow := fun k => t.query.getD (r * p.kvheads * p.g + first * p.g + k) []
    let qb := rows.flatMap fun k => beatBytes (qrow k)
    let mb := rows.flatMap fun _ => maskBytes s i x r
    let s := s.modLanding h i.owner l fun y => ({ y with kvfmt := p.kvfmt }.applyWin 0x2000 qb).applyWin 0x1000 mb
    let s := runReadout (runAttend (runAccClear s h i.owner l c) h i.owner l c p.kvfmt) h i.owner l c
    let s := s.modLanding h i.owner l fun y => { y with issued := y.issued + 3, done := y.done + 3, lastTag := 0, lastStatus := 0 }
    let y := s.landing h i.owner l
    (s, rows.map fun k =>
      let a := sget y.acc {} k
      { m := a.m, s := a.s, o := tab p.d fun j => sget a.o 0 j,
        poison := a.poison || beatPoison ((qrow k).take (ceilDiv (2 * p.d) 64)) })

/-- Every group of every new row, in order. -/
def landAttend (s : State) (h : Nat) (i : WorkItem) (x : Step) (p : Plan) (t : StepRows) : State × List PartRow :=
  let per := max 1 (16 / p.g)
  let groups := (List.range x.nrows).flatMap fun r => tab (ceilDiv p.kvheads per) fun g => (r, g * per)
  groups.foldl (fun (a : State × List PartRow) q =>
    let o := landGroup a.1 h (i.slot % 12) i x p t q.1 q.2 (min per (p.kvheads - q.2))
    (o.1, a.2 ++ o.2)) (s, [])

/-! ### Press path (R193) -/

/-- Element format of the press's operands. -/
def pressFmt (p : Plan) : Nat := if p.kvfmt = 0x08 then 0x08 else 0x07

/-- Key or value rows `lo` to `hi` of a leaf for one head. -/
def headRows (s : State) (col : Region) (p : Plan) (head : Nat) (at_ : Nat → Nat) (lo hi : Nat) : List (List FNum) :=
  tab (hi - lo) fun j =>
    plainVals p.kvfmt p.d (s.read col (at_ (lo + j) + head * p.d * kvBytes p.kvfmt) (p.d * kvBytes p.kvfmt))

/-- One query head against the keys and values of its head: scores, weights, sum and output. `ok j` says whether leaf
row `lo + j` is attended. The leaf is taken in one piece (log entry 28). -/
def pressRow (p : Plan) (q : List FNum) (keys values : List (List FNum)) (ok : Nat → Bool) : PartRow :=
  let n := keys.length
  if !anyN n ok then emptyPart p.d
  else
    let f := pressFmt p
    let score := keys.mapIdx fun j k =>
      fmul (fadd (accRun false q k 0 p.d numZero) (if ok j then numZero else numNegInf)) (f32 p.scale)
    let m := maxList (score.map fun x => fmul numOne x)
    let w := score.map fun x => fexp (fsub (fmul numOne x) m)
    let t := reduceSum w
    let wr := w.map fun x => FNum.ofBits f (x.toBits f none)
    let o := tab p.d fun c =>
      (fmul (accRun false wr (values.map fun v => v.getD c numZero) 0 n numZero) numOne).toF32
    { m := m.toF32, s := t.toF32, o := o }

/-- A query row in the press's format. -/
def pressQuery (p : Plan) (row : List (List Byte × Bool)) : List FNum :=
  let q := plainVals 0x07 p.d ((beatBytes row).take (2 * p.d))
  if pressFmt p = 0x08 then q.map fun x => FNum.ofBits 0x08 (x.toBits 0x08 none) else q

def pressAttend (s : State) (h : Nat) (i : WorkItem) (x : Step) (p : Plan) (t : StepRows) : List PartRow :=
  let col := Region.column h i.owner
  let lo := i.rowFrom
  let hi := rowsEnd i
  let heads := p.kvheads * p.g
  let bad := (List.range (hi - lo)).any fun j =>
    s.poisonedAt col (keyAt p i.slot (lo + j)) p.rowLen || s.poisonedAt col (valueAt p i.slot (lo + j)) p.rowLen
  let kv := tab p.kvheads fun k =>
    (headRows s col p k (keyAt p i.slot) lo hi, headRows s col p k (valueAt p i.slot) lo hi)
  (List.range x.nrows).flatMap fun r => tab heads fun j =>
    let e := kv.getD (j / p.g) ([], [])
    let q := t.query.getD (r * heads + j) []
    { pressRow p (pressQuery p q) e.1 e.2 (fun k => attendsRow s i x r (lo + k)) with
      poison := bad || beatPoison (q.take (ceilDiv (2 * p.d) 64)) }

/-! ### Merging (R196) -/

def PartRow.vals (r : PartRow) : List FNum := f32 r.m :: f32 r.s :: r.o.map f32

/-- Two partial rows merged. -/
def PartRow.merge (a b : PartRow) : PartRow :=
  match (smMerge a.vals b.vals).map FNum.toF32 with
  | m :: s :: o => { m := m, s := s, o := o, poison := a.poison || b.poison }
  | _ => a

/-- A row merged into those held; the first arrival is taken as it is. -/
def mergeRow (t : Sparse PartRow) (r : Nat) (p : PartRow) : Sparse PartRow :=
  sset t r (match sfind t r with
    | some q => q.merge p
    | none => p)

/-- The hop of a stairwell for one layer changed. -/
def hopMod (hops : List Hop) (l h sw : Nat) (f : Hop → Hop) : List Hop :=
  hops.map fun k => if k.layer == l && k.hall.val == h && k.sw.val == sw then f k else k

/-- One of the stairwell's own items is complete: its rows are merged. -/
def Hop.own (k : Hop) (rows : List PartRow) : Hop :=
  { k with rows := (rows.mapIdx fun r p => (r, p)).foldl (fun t q => mergeRow t q.1 q.2) k.rows, localLeft := k.localLeft - 1 }

/-- A row arrives from another hop. -/
def Hop.take (k : Hop) (r : Nat) (p : PartRow) : Hop :=
  { k with rows := mergeRow k.rows r p, got := sset k.got r (sget k.got 0 r + 1) }

/-- The lowest row whose last input has arrived and that is still to be forwarded (R197). -/
def Hop.ready (k : Hop) : Option (Nat × PartRow) :=
  if k.localLeft ≠ 0 then none
  else k.rows.find? fun q => sget k.got 0 q.1 == k.ins && !k.fwd.elem q.1

/-! ### ATTEND -/

/-- Whether an ATTEND item may start: its rows have come, every APPEND of its layer on the stairwell is complete, and
its column is served. -/
def attendReady (h sw : Nat) (s : State) (l : List WorkItem) (i : WorkItem) : Bool :=
  i.kind == .attend && (rowsFor s h sw i).isSome && s.colServed h i.owner
    && !l.any fun j => j.kind == .append && j.step == i.step && j.layer == i.layer

/-- Whether an item can run on its landing: the landing serves, and its mask reaches the new rows. -/
def landingServes (s : State) (h : Nat) (i : WorkItem) : Bool :=
  let y := s.landing h i.owner (i.slot % 12)
  !y.retired && !y.failed && (i.newCount == 0 || (i.newRow - i.rowTo) + i.newCount ≤ 64)

/-- An ATTEND item run on its landing, or on the press path, which a landing that does not serve leaves (R192, R193). It
waits for the landing's earlier commands, or for accumulator sets 6 and 7. -/
def runAttendItem (s : State) (h sw : Nat) (i : WorkItem) (x : Step) (t : StepRows) : Option State :=
  let p := s.planOf x.vol.toNat
  let press := i.press || !landingServes s h i
  let busy := if press then (s.accSet h sw 6).isOpen || (s.accSet h sw 7).isOpen
      || s.colHeld h i.owner (i.slot * 65536) 65536 false
    else !(s.landing h i.owner (i.slot % 12)).queue.isEmpty
  if busy then none
  else
    let r := if press then (s, pressAttend s h i x p t) else landAttend s h i x p t
    let query := (t.query.take (x.nrows * p.kvheads * p.g)).any fun q => beatPoison (q.take (ceilDiv (2 * p.d) 64))
    let t := if r.2.any fun q => q.poison then notePoison r.1 (some i.step) (if query then 0x3FFFF else i.index) else r.1
    some (t.modStep i.step fun y =>
      { y with hops := hopMod y.hops i.layer h sw fun k => k.own r.2, press := y.press || press })

/-- LEAF_ATTEND (R190 to R193). -/
def execLeafAttend (h : HallId) (sw : SwId) (s : State) : Result :=
  .next <| leafWork s h sw (attendReady h sw) fun s i x _ =>
    match rowsFor s h sw i with
    | some t => runAttendItem s h sw i x t
    | none => none

/-! ### MOVE (R201) -/

/-- Where a step's row at a position lies in a layer: hall, column, slot and leaf row. -/
def rowPlace (s : State) (x : Step) (l pos : Nat) : Option (Nat × Nat × Nat × Nat) :=
  let v := x.vol.toNat
  let p := s.planOf v
  let i := s.blockIdx v l (pos / p.tpl)
  match x.blocks.find? fun b => b.idx == i with
  | some b => some (b.res.hall.val, b.res.sw.val, b.res.slot, pos % p.tpl)
  | none =>
    let e := s.leaf v i
    if leV e && leTier e == 0 then some (leHall e, leSw e, leSlot e, pos % p.tpl) else none

/-- Whether no MOVE of the same step and layer for a lower node is still to be done. -/
def moveFirst (s : State) (i : WorkItem) : Bool :=
  let before := fun (j : WorkItem) => j.kind == .move && j.step == i.step && j.epoch == i.epoch && j.layer == i.layer
    && j.newBase < i.newBase
  !(s.stairs.any fun q => q.2.items.any before) && !((s.step? i.step).any fun x => x.todo.any fun q => before q.2.2)

/-- A kept row moved to its place in the path. -/
def runMove (s : State) (h : Nat) (i : WorkItem) (x : Step) : Option State :=
  let v := x.vol.toNat
  let p := s.planOf v
  let ready := fun (h sw slot row : Nat) (w : Bool) => s.colServed h sw && !s.colHeld h sw (keyAt p slot row) p.rowLen w
    && !s.colHeld h sw (valueAt p slot row) p.rowLen w
  match rowPlace s x i.layer (x.tokens0.toNat + i.newBase) with
  | none => none
  | some (sh, ssw, slot, row) =>
    if !ready sh ssw slot row false || !ready h i.owner i.slot i.rowTo true || volLocked s v then none
    else
      let src := Region.column sh ssw
      let dst := Region.column h i.owner
      let bad := s.poisonedAt src (keyAt p slot row) p.rowLen || s.poisonedAt src (valueAt p slot row) p.rowLen
      let s := s.copyBeats src (keyAt p slot row) dst (keyAt p i.slot i.rowTo) p.rowLen
      let s := s.copyBeats src (valueAt p slot row) dst (valueAt p i.slot i.rowTo) p.rowLen
      let s := if bad then notePoison s (some i.step) i.index else s
      let s := if x.blocks.any fun k => k.idx == i.index then s else setDt s v i.index
      some (s.modStep i.step fun y => { y with movesLeft := y.movesLeft - 1 })

/-- LEAF_MOVE (R201). -/
def execLeafMove (h : HallId) (sw : SwId) (s : State) : Result :=
  .next <| leafWork s h sw (fun s _ i => i.kind == .move && moveFirst s i) fun s i x _ => runMove s h i x

/-! ### The board (R196, R198) -/

/-- LEAF_GATHER (R198). -/
def execLeafGather (h : HallId) (sw : SwId) (s : State) : Result :=
  .next <| leafWork s h sw (fun _ _ i => i.kind == .gather) fun s i _ _ =>
    some (s.modStep i.step fun y => { y with gathers := y.gathers ++ [(i.layer, i.inCount, i.halls)] })

/-- An operation of a step on one of its lane's clasps. -/
def laneOp (s : State) (x : Step) (i cop v : Nat) : State :=
  settle (laneUsherOp s x true i cop v)

/-- A lane clasp as its usher reads it: nothing while its home does not answer or a binding holds its lock (R218, R228). -/
def laneRead (s : State) (x : Step) (i : Nat) : Option Clasp :=
  let k := laneClasp (s.planOf x.vol.toNat) x.lane i
  if s.hallUp (claspHome k) && !claspLocked s (BitVec.ofNat 16 k) && !(s.clasp k).lost then some (s.clasp k) else none

/-- Whether a lane's flag is set. -/
def laneFlag (s : State) (x : Step) (i : Nat) : Bool :=
  (laneRead s x i).any fun c => c.typ == .flag && bitAt c.val 0

/-- A layer's QUERY rows and NEWKV rows as the board holds them. -/
def boardRowsOf (s : State) (n : Nat) (x : Step) (b : Board) (l : Nat) : StepRows :=
  let p := s.planOf x.vol.toNat
  let src := Region.sram b.hall b.sw
  let kv := b.base + p.newkvOff
  { step := n, epoch := x.epoch, layer := l
    query := tab (x.nrows * p.kvheads * p.g) fun j => s.beats src (queryAt p b 0 j) 512
    keys := tab x.nrows fun r => s.beats src (kv + r * p.stride) p.rowLen
    values := tab x.nrows fun r => s.beats src (kv + (p.rows + r) * p.stride) p.rowLen }

/-- Rows broadcast in the halls that HALLS names; a stairwell without an item of the step and layer discards them. -/
def sendRows (s : State) (halls : Nat) (t : StepRows) : State :=
  { s with stairs := s.stairs.map fun q =>
      if halls.testBit (q.1 / 256) && s.swRuns (q.1 / 256) (q.1 % 256)
          && q.2.items.any fun i => i.step == t.step && i.epoch == t.epoch && i.layer == t.layer then
        (q.1, { q.2 with rows := q.2.rows ++ [t] })
      else q }

/-- BOARD_SEND_ROWS (R198): the board holds the layer's GATHER item and GO. -/
def execBoardSendRows (st : Nat) (s : State) : Result :=
  .next <|
    match s.step? st with
    | none => s
    | some x =>
      match boardOf s x, x.gathers.find? fun g => g.1 == x.sentTo with
      | some b, some g =>
        if x.phase = .run ∧ x.lost = false ∧ s.swRuns b.hall b.sw = true ∧ x.layersDone = x.sentTo ∧ laneFlag s x 1 = true then
          let s := sendRows s g.2.2 (boardRowsOf s st x b x.sentTo)
          let s := s.setStep st { x with sentTo := x.sentTo + 1, boardRows := [], boardGot := [], boardNeed := g.2.1 }
          laneOp s x 1 0x21 0
        else s
      | _, _ => s

/-- A merged row normalised, as BF16 bytes. -/
def outBytes (r : PartRow) : List Byte := plainRow 0x07 (fun _ => none) (smNorm r.vals)

/-- OUT written and DONE raised, when the last hall partial has been merged. -/
def boardFinish (s : State) (st : Nat) (x : Step) (b : Board) : State :=
  let p := s.planOf x.vol.toNat
  let s := x.boardRows.foldl (fun s q => s.write (.sram b.hall b.sw) (b.base + p.outOff + q.1 * 512) (outBytes q.2) q.2.poison) s
  laneOp (s.setStep st { x with layersDone := x.layersDone + 1, boardRows := [] }) x 2 0x10 1

/-- Whether every row of a layer has all its hall partials at the board. -/
def boardFull (s : State) (x : Step) : Bool :=
  let p := s.planOf x.vol.toNat
  (List.range (x.nrows * p.kvheads * p.g)).all fun r => x.boardNeed ≤ sget x.boardGot 0 r

/-- A row of a hall's partial merged at the board. -/
def boardTake (s : State) (st : Nat) (x : Step) (b : Board) (m : PartMsg) : State :=
  let x := { x with boardRows := mergeRow x.boardRows m.row m.part
                    boardGot := sset x.boardGot m.row (sget x.boardGot 0 m.row + 1) }
  if boardFull s x then boardFinish s st x b else s.setStep st x

/-- PARTIAL_ARRIVE (R196): the `i`-th row under way reaches its hop or the board. -/
def execPartialArrive (st : Nat) (i : Nat) (s : State) : Result :=
  .next <|
    match s.step? st with
    | none => s
    | some x =>
      match x.msgs[i]?, boardOf s x with
      | some m, some b =>
        let y := { x with msgs := x.msgs.eraseIdx i }
        if m.toBoard then
          if s.swRuns b.hall b.sw && m.layer == x.layersDone && m.layer < x.sentTo then boardTake s st y b m else s
        else if s.swRuns m.hall m.sw then
          s.setStep st { y with hops := hopMod y.hops m.layer m.hall m.sw fun k => k.take m.row m.part }
        else s
      | _, _ => s

/-- MERGE_FORWARD (R197): a hop sends on the lowest row whose last input it holds; it does not wait for the others. -/
def execMergeForward (st : Nat) (h : HallId) (sw : SwId) (s : State) : Result :=
  .next <|
    match s.step? st with
    | none => s
    | some x =>
      match x.hops.find? fun k => k.hall == h && k.sw == sw && k.ready.isSome with
      | none => s
      | some k =>
        match k.ready with
        | none => s
        | some (r, p) =>
          if s.swRuns h sw then
            let m : PartMsg :=
              { layer := k.layer, toBoard := k.nextBoard, hall := k.nextHall, sw := k.nextSw, fromHall := h, row := r, part := p }
            s.setStep st { x with msgs := x.msgs ++ [m]
                                  hops := x.hops.map fun q => if q = k then { q with fwd := q.fwd ++ [r] } else q }
          else s

/-! ### Void runs (R199, R394) -/

/-- The lane's clasps and queues set back, and the run's items discarded. -/
def clearRunState (s : State) (n : Nat) (x : Step) : State := laneUsherOp (dropItems (stopLane s x) n) x true 2 0x13 0

/-- A void run: a second run, which begins once DONE is zeroed and no unit of the lane is in reset, or RETRY. -/
def voidRun (s : State) (n : Nat) : State :=
  match s.step? n with
  | none => s
  | some x =>
    if x.run = 1 then
      endClaim ((clearRunState s n x).modStep n fun y =>
        { y with phase := .claim, run := 2, rewalk := true, kept := [], accepted := 0, lastNode := 0, nextTok := 0 }) n
    else endStep s n Status.retry (0, 0, false)

/-- The standby of a placement: the lowest enabled stairwell of its hall that holds no placement (R394). -/
def standbyOf (s : State) (h : Nat) (taken : List Nat) : Option Nat :=
  (standbys s h).find? fun q => !taken.elem q

/-- What a step's placement on a unit that has left service comes to: nothing, wait, end, or a standby. -/
inductive Recover where
  | fine | hold | end_ (unit : Nat × Nat × Bool) | standby (i sw : Nat)
deriving DecidableEq, Repr

/-- R394 for one placement. -/
def recoverPlacement (s : State) (x : Step) (taken : List Nat) (q : Nat × Placement × Nat) : Recover :=
  let h := q.2.1.hall.val
  let col := s.stair h q.2.1.sw
  if (s.hall h).state = .fenced ∨ (s.hall h).state = .off then .end_ (h, 0, true)
  else if (s.hall h).state = .computeReset then .hold
  else if (s.stair h q.2.2).fenced = false then if (s.stair h q.2.2).resetting then .hold else .fine
  else if x.run ≠ 1 ∨ col.adopter.isNone = true then .end_ (h, q.2.2, false)
  else if !col.adopted || !col.adoptPub then .hold
  else match standbyOf s h taken with
    | some w => .standby q.1 w
    | none => .end_ (h, q.2.2, false)

/-- Every placement of a step's lane looked at in turn: what stops the recovery, or the standbys chosen. -/
def recoverAll (s : State) (x : Step) : List (Nat × Placement × Nat) → List (Nat × Nat) → Except Recover (List (Nat × Nat))
  | [], a => .ok a
  | q :: l, a =>
    match recoverPlacement s x (a.map fun p => p.2) q with
    | .fine => recoverAll s x l a
    | .standby i w => recoverAll s x l (a ++ [(i, w)])
    | r => .error r

/-- What stops the board of a step. -/
def boardLost (s : State) (b : Board) : Option (Nat × Nat × Bool) :=
  if s.hallFenced b.hall then some (b.hall.val, 0, true)
  else if (s.stair b.hall b.sw).fenced then some (b.hall.val, b.sw.val, false) else none

/-- STEP_RUN_VOID (R199, R394): the home has learnt of a loss. It waits while a unit of the lane is in reset or an
adoption is under way. -/
def execStepRunVoid (st : Nat) (s : State) : Result :=
  .next <|
    match s.step? st with
    | none => s
    | some x =>
      match boardOf s x with
      | none => s
      | some b =>
        if !s.hallUp x.home || x.phase == .lane || x.phase == .claim || !x.endable then s
        else match boardLost s b with
          | some u => endStep s st Status.unitFenced u
          | none =>
            match recoverAll s x (laneRuns (s.planOf x.vol.toNat) x) [] with
            | .error (.end_ u) => endStep s st Status.unitFenced u
            | .error _ => s
            | .ok a =>
              if !s.swRuns b.hall b.sw then s
              else if x.lost || !a.isEmpty then voidRun (s.modStep st fun y => { y with standby := y.standby ++ a }) st else s

/-! ### DECIDE (R200, R201, R203) -/

/-- Children of a node that GREEDY or TOPK accepts, each with the rank of its match. -/
def acceptedChildren (s : State) (x : Step) (n : Nat) : List (Nat × Nat) :=
  (List.range x.nrows).filterMap fun c =>
    if c = 0 ∨ x.parents.getD c 0 ≠ n then none
    else
      (findN (if x.accept then x.accK else 1) fun j => headIdx s x n j == x.tokensIn.getD c 0).map fun j => (j, c)

/-- The kept path below a node. -/
def keptPath (s : State) (x : Step) : Nat → Nat → List Nat
  | 0, _ => []
  | k + 1, n =>
    match sortBy (fun (q : Nat × Nat) => q.1 * 64 + q.2) (acceptedChildren s x n) with
    | [] => []
    | q :: _ => q.2 :: keptPath s x k q.2

/-- Nodes or rows that a step keeps, the first always. -/
def keptOf (s : State) (x : Step) : List Nat :=
  match x.op with
  | .decode => [0]
  | .prefill => List.range x.nrows
  | .verify => 0 :: keptPath s x 16 0

/-- Whether the head rows that the usher reads hold poison. -/
def headPoisoned (s : State) (x : Step) : Bool :=
  let p := s.planOf x.vol.toNat
  match boardOf s x with
  | some b => p.head && (List.range x.nrows).any fun r =>
      s.poisonedAt (.sram b.hall b.sw) (b.base + p.headIdxOff + r * 256) 256
        || s.poisonedAt (.sram b.hall b.sw) (b.base + p.headValOff + r * 256) 256
  | none => false

/-- MOVE items of a step's kept path: every layer, rising depth. -/
def moveItems (s : State) (n : Nat) (x : Step) (b : Board) : List (HallId × SwId × WorkItem) :=
  let v := x.vol.toNat
  let p := s.planOf v
  let t := x.tokens0.toNat
  let moved := (x.kept.mapIdx fun d k => (d, k)).filter fun q => q.1 != q.2
  (List.range p.layers).flatMap fun l => moved.filterMap fun q =>
    match rowPlace s x l (t + q.1), rowPlace s x l (t + q.2) with
    | some (h, owner, slot, row), some (_, _, _, from_) =>
      (s.receiver h owner).map fun sw =>
        (Fin.ofNat 12 h, Fin.ofNat 256 sw,
         { kind := .move, step := n, lane := x.lane, press := x.press, epoch := x.epoch, vol := x.vol, layer := l,
           index := s.blockIdx v l ((t + q.1) / p.tpl), shared := false, slot := slot, owner := Fin.ofNat 256 owner,
           bhall := b.hall, bsw := b.sw, rowFrom := from_, rowTo := row, newCount := 1, newBase := q.2, nextSw := 0,
           nextHall := 0, nextBoard := false, inCount := 0, localN := 0, halls := 0, newRow := row })
    | _, _ => none

/-- The run's end is reached (Table 6.4). -/
def runEnded (s : State) (x : Step) : Bool :=
  let p := s.planOf x.vol.toNat
  if p.head then laneFlag s x 3
  else
    (laneRead s x 2).any fun c => c.typ == .counter && reaches c.val (BitVec.ofNat 32 p.layers)

/-- DECIDE: HEAD cleared, acceptance, the poison check, and the MOVE items. -/
def enterDecide (s : State) (n : Nat) (x : Step) (b : Board) : State :=
  let p := s.planOf x.vol.toNat
  let kept := keptOf s x
  let s := if headPoisoned s x then notePoison s (some n) 0x3FFFF else s
  let s := s.modStep n fun y =>
    { y with phase := .decide, kept := kept, accepted := if x.op = .verify then kept.length - 1 else 0,
             lastNode := if x.op = .verify then kept.getLastD 0 else 0,
             nextTok := if p.head then headIdx s x (kept.getLastD 0) 0 else 0 }
  let s := if p.head then laneOp s x 3 0x21 0 else s
  match s.step? n with
  | none => s
  | some y =>
    if y.poison then endStep s n Status.poisoned (0, 0, false)
    else
      let m := moveItems s n y b
      s.setStep n { y with todo := m, movesLeft := m.length }

/-! ### CHECK, COMMIT and TIDY (R199, R202) -/

/-- Whether a run is void at CHECK. -/
def runVoid (s : State) (x : Step) : Bool :=
  let y := s.vol x.vol.toNat
  x.lost || newer y.ngen x.sgen || (y.linked && newer (s.vol y.fmLink.toNat).ngen x.fsgen)

/-- An edit that TIDY makes: a FILL raised, or a new block linked. -/
structure TidyEdit where
  idx  : Nat
  fill : Nat
  new  : Option Reserve

/-- One edit under generation `gen`; answers whether it rewrites. A ring position's old head is kept until a cut. -/
def tidyEdit (s : State) (v gen : Nat) (t0 : Word) (e : TidyEdit) : State × Bool :=
  let old := s.leaf v e.idx
  match e.new with
  | none => (s.setLeaf v e.idx (withFill old (max e.fill (leFill old))), false)
  | some r =>
    let s' := if leV old then s.modJob v fun j => { j with retired := j.retired ++ [(e.idx, old, s.shadow v e.idx, t0)] } else s
    let s' := s'.setSlot r.hall r.sw r.slot (.leaf (BitVec.ofNat 20 v) e.idx)
    let s' := s'.setLeaf v e.idx (leafEntry 0 false true (nearLoc r.hall r.sw r.slot) gen e.fill)
    (s'.setShadow v e.idx (shadowEntry false true r.park 0), leV old)

/-- Bindings of up to 16 edits each. -/
def tidyBindings (v : Nat) (t0 : Word) : Nat → List TidyEdit → State → State
  | 0, _, s => s
  | n + 1, l, s =>
    if l.isEmpty then s
    else
      let gen := s.editGen v
      let r := (l.take 16).foldl (fun (a : State × Bool) e =>
        let o := tidyEdit a.1 v gen t0 e
        (o.1, a.2 || o.2)) (s, false)
      tidyBindings v t0 n (l.drop 16) (r.1.sgenUp v r.2)

/-- Edits for the leaves that received kept rows. -/
def tidyEdits (s : State) (x : Step) (k : Nat) : List TidyEdit :=
  let v := x.vol.toNat
  let p := s.planOf v
  let t := x.tokens0.toNat
  (List.range p.layers).flatMap fun l => (touchedBlocks p t k).map fun b =>
    let i := s.blockIdx v l b
    { idx := i, fill := fillBelow p (t + k) b, new := (x.blocks.find? fun q => q.idx == i).map fun q => q.res }

/-- A new block without a kept row goes back to its layer's reserve or to the free slots. -/
def returnUnkept (s : State) (v : Nat) (b : NewBlock) : State :=
  if (sfind (s.job v).reserves b.layer).isNone then
    (s.setSlot b.res.hall b.res.sw b.res.slot (.reserve (BitVec.ofNat 20 v))).modJob v fun j =>
      { j with reserves := sset j.reserves b.layer b.res }
  else s.dropReserve v b.res

/-- Head rows copied to OUTPUT (R184). -/
def copyHeads (s : State) (x : Step) (b : Board) : State :=
  let p := s.planOf x.vol.toNat
  if p.head = false ∨ x.output = 0 then s
  else (List.range x.nrows).foldl (fun s r =>
    let src := Region.sram b.hall b.sw
    let s := s.copyBeats src (b.base + p.headIdxOff + r * 256) .park (x.output + r * 512) 256
    s.copyBeats src (b.base + p.headValOff + r * 256) .park (x.output + r * 512 + 256) 256) s

/-- COMMIT and TIDY: the tail moves, the kept rows are linked, and the record is written. -/
def commitStep (s : State) (n : Nat) (x : Step) (b : Board) : State :=
  let v := x.vol.toNat
  let k := x.kept.length
  let s := s.modVol v fun y => { y with tokens := y.tokens + BitVec.ofNat 32 k }
  let edits := tidyEdits s x k
  let s := tidyBindings v x.tokens0 (edits.length + 1) edits s
  let s := (x.blocks.filter fun q => !edits.any fun e => e.idx == q.idx).foldl (fun s q => returnUnkept s v q) s
  let s := copyHeads (s.recount v) x b
  let s := s.modVol v fun y => { y with dirty := min 64 (y.dirty + 1), lastElapsed := (s.hall x.home).elapsed,
                                        lastPuc := s.porter.powerup }
  let s := { s with steps := sdel s.steps n }
  dueWriteBack (unpin (releaseLane (leaveRunning (stepRecord s x Status.ok (0, 0, false)) v) x) n x) v

/-- Whether a binding in flight holds the lock of a volume's descriptor. -/
def descLocked (s : State) (v : VolId) : Bool := s.binds.any fun b => b.2.locks.any fun l => l.2 == .desc v

/-- CHECK and what follows, once every MOVE is done. CHECK waits while a binding holds the descriptor that it reads (R228);
COMMIT waits while one holds any lock of the volume, and NGEN is read again when it commits (R147). -/
def decideRest (s : State) (n : Nat) (x : Step) (b : Board) : State :=
  if x.phase = .decide ∧ (x.movesLeft ≠ 0 ∨ !x.todo.isEmpty) then s
  else if x.phase ≠ .commit ∧ x.poison = true then endStep s n Status.poisoned (0, 0, false)
  else if descLocked s x.vol then if x.phase = .commit then s else s.setStep n { x with phase := .check }
  else if runVoid s x = true then voidRun s n
  else if volLocked s x.vol.toNat then s.setStep n { x with phase := .commit }
  else commitStep s n x b

/-- STEP_DECIDE (R186, R199 to R203). A step with a halted queue ends here (Table 6.4): what was READY at the halt has run
till then (Table 2.12). -/
def execStepDecide (st : Nat) (s : State) : Result :=
  .next <|
    match s.step? st with
    | none => s
    | some x =>
      match boardOf s x with
      | none => s
      | some b =>
        if !s.hallUp x.home then s
        else if x.endable ∧ x.halt.isSome = true then endStep s st Status.queueHalted (0, 0, false)
        else if !s.swRuns b.hall b.sw then s
        else if x.phase = .run then
          if x.lost || !runEnded s x then s
          else
            let s := enterDecide s st x b
            match s.step? st with
            | some y => if y.phase = .decide then decideRest s st y b else s
            | none => s
        else if x.phase = .lane ∨ x.phase = .claim then s
        else decideRest s st x b

end Sys2Proof.Machine
end

