-- ==== Sys2Proof/Machine/Bindings.lean ====
section
/-! DEFINITION. Software's bindings: action lists, locks, commit and what becomes of them after a fault
(R221 to R232, R385). -/

namespace Sys2Proof.Machine

/-! ### Action entries (Table 7.6) -/

def aKind (a : Rec32) : Nat := fld a 0 0 8
def aSub (a : Rec32) : Nat := fld a 0 8 8
def aCheck (a : Rec32) : Bool := fld a 0 16 1 == 1
def aVol (a : Rec32) : Nat := fld a 4 0 20
def aClasp (a : Rec32) : Nat := fld a 4 0 16
def aIdx (a : Rec32) : Nat := fld a 8 0 18
def aOperand (a : Rec32) : Nat := fld a 8 0 32
def aAddr (a : Rec32) : Nat := fld a 4 0 32 + fld a 8 0 8 * 2 ^ 32
def aValue (a : Rec32) : Dword := BitVec.ofNat 64 (fld a 0x10 0 64)
def aExpect (a : Rec32) : Dword := BitVec.ofNat 64 (fld a 0x18 0 64)

/-! ### Where actions belong (R223, R224) -/

/-- Hall of an action; none for a MEMW to host memory. -/
def actHall (s : State) (a : Rec32) : Option Nat :=
  match aKind a with
  | 0x04 => some (claspHome (aClasp a))
  | 0x05 => (nearPlace (aAddr a)).map fun p => p.1
  | _ => some (s.vol (aVol a)).home

/-- The shared leaf that clearing an indirect entry drops a reference to: front matter and index. -/
def actDrops (s : State) (a : Rec32) : Option (Nat × Nat) :=
  let e := s.leaf (aVol a) (aIdx a)
  if aKind a = 0x01 ∧ aValue a = 0 ∧ leV e = true ∧ leTier e = 3 then
    some ((s.vol (aVol a)).fmLink.toNat, leRef e) else none

/-- Halls of a binding, rising. -/
def bindHalls (s : State) (acts : List Rec32) : List Nat :=
  let l := acts.filterMap (actHall s) ++ (acts.filterMap fun a => (actDrops s a).map fun d => (s.vol d.1).home)
  (List.range 12).filter fun h => l.contains h

/-- The coordinator: the lowest of the halls, or the hall that claimed the BIND when none is named. -/
def bindCoord (halls : List Nat) (post : Nat) : Nat := halls.headD post

/-! ### Checks of an action (R222 to R224) -/

def actReserved (a : Rec32) : Bool :=
  anySet a [(0, 17, 15), (0x0C, 0, 32)]
  || (aKind a != 0x01 && aKind a != 0x02 && aCheck a)
  || (!aCheck a && aExpect a != 0)
  || match aKind a with
    | 0x01 => anySet a [(4, 20, 12), (8, 18, 14)]
    | 0x02 => anySet a [(4, 20, 12), (8, 0, 32)] || (aSub a == 1 && fld a 0x10 12 52 != 0)
    | 0x03 => anySet a [(4, 20, 12), (8, 18, 14)] || (fld a 0x10 16 48 != if fld a 0x10 15 1 = 1 then 2 ^ 48 - 1 else 0)
    | 0x04 => anySet a [(4, 16, 16), (0x10, 0, 64)] || copReserved (aSub a) (aOperand a)
    | 0x05 => anySet a [(8, 8, 24), (0x10, 0, 64)]
    | _ => false

/-- Whether SPINE's value clears the entry or lowers its FILL (R144). -/
def spineOk (e v : Dword) : Bool := v == 0 || (leV e && v == withFill e (leFill v) && leFill v < leFill e)

def actEncoding (s : State) (a : Rec32) : Bool :=
  match aKind a with
  | 0x01 => aSub a != 0 || !spineOk (s.leaf (aVol a) (aIdx a)) (aValue a)
  | 0x02 => 1 < aSub a || (aSub a == 1 && aValue a == 0)
  | 0x03 => 1 < aSub a
  | 0x04 => !copAllowed .binding (aSub a) || copBadOwner .binding (aSub a) (aOperand a)
  | 0x05 => aSub a == 0 || 64 < aSub a
  | _ => true

def actRange (s : State) (a : Rec32) : Bool :=
  aKind a == 0x05 &&
    ((64 < aAddr a % 64 + aSub a) ||
      match nearPlace (aAddr a) with
      | some (h, sw, c) => !s.colRange h sw c (aSub a)
      | none => !s.inHost (aAddr a) (aSub a))

/-- Rules that name a status of their own: the clasp's home fenced, the volume's state, its protected fields, a column that
nothing serves (R33). -/
def actOwn (s : State) (a : Rec32) : Option Nat :=
  let x := s.vol (aVol a)
  match aKind a with
  | 0x01 =>
    if (s.job (aVol a)).poisoned then some Status.volPoisoned
    else if !([VolState.live, .running, .parked, .shelved, .faulted].elem x.state) then some Status.badState
    else if x.fm then some Status.fieldProtected else none
  | 0x02 =>
    if (s.job (aVol a)).poisoned then some Status.volPoisoned
    else if x.state = .free then some Status.fieldProtected else none
  | 0x03 => some Status.fieldProtected
  | 0x04 => if s.hallUp (claspHome (aClasp a)) || (s.hall (claspHome (aClasp a))).state == .computeReset then none
      else some Status.claspLost
  | 0x05 =>
    match nearPlace (aAddr a) with
    | some (h, sw, _) =>
      if (s.hall h).state == .computeReset || (s.stair h sw).resetting || s.colServed h sw then none else some Status.unitFenced
    | none => none
  | _ => none

/-- Status of an action that fails its check. -/
def actStatus (s : State) (a : Rec32) : Option Nat :=
  match firstStatus (actReserved a) (actEncoding s a) false (actRange s a) with
  | some st => some st
  | none => actOwn s a

/-- The first action that fails, with its status. -/
def firstBad (acts : List Rec32) (f : Rec32 → Option Nat) : Option (Nat × Nat) :=
  (acts.mapIdx fun i a => (i, a)).findSome? fun p => (f p.2).map fun st => (p.1, st)

/-! ### Records (Table 7.8) -/

def Binding.part (b : Binding) : Rec32 :=
  put 256 0x10 0 4 (b.failAct.getD 0) ||| put 256 0x10 4 1 (if b.failAct.isSome then 1 else 0)
    ||| put 256 0x10 8 4 (if b.status = 0 then 0 else b.failHall.val) ||| put 256 0x10 12 4 b.coord.val
    ||| put 256 0x10 16 12 (b.halls.foldl (fun m h => m ||| 2 ^ h.val) 0)

def State.setBind (s : State) (n : Nat) (b : Binding) : State := { s with binds := sset s.binds n b }

/-- A binding's completion record, written by a hall; its slots and locks are released. -/
def bindRecord (s : State) (n : Nat) (b : Binding) (writer status : Nat) : State :=
  { s with binds := sdel s.binds n }.complete b.claim writer status ({ b with status := status }).part

/-- A binding that aborts: BIND_ABORT releases its locks and writes the record. -/
def bindFail (s : State) (n : Nat) (b : Binding) (status : Nat) (act : Option Nat) (h : HallId) : State :=
  s.setBind n { b with phase := .aborting, status := status, failAct := act, failHall := h }

/-! ### Claim and forwarding -/

def bindBodyStatus (s : State) (d : Rec64) : Option Nat :=
  let n := fld d 8 0 5
  let a := fld d 0x0C 0 32 + fld d 0x10 0 8 * 2 ^ 32
  firstStatus (anySet d [(8, 5, 27), (0x10, 8, 24), (0x14, 0, 352)]) false (n == 0 || 16 < n)
    (a % 512 != 0 || !s.inHost a 1536)

/-- The action entries of a list in host memory. -/
def readActs (s : State) (list n : Nat) : List Rec32 := tab n fun i => s.record32 .park (list + 32 * i)

/-- BIND (R221): the claiming hall forwards it to the hall that the list names as coordinator. -/
def execBind (c : Nat) (s : State) : Result :=
  .next <| withClaim s c 0x30 fun x =>
    if !s.hallUp x.hall then s
    else match bindBodyStatus s x.desc with
      | some st => s.finish c st
      | none =>
        let n := fld x.desc 8 0 5
        let a := fld x.desc 0x0C 0 32 + fld x.desc 0x10 0 8 * 2 ^ 32
        let at_ := bindCoord (bindHalls s (readActs s a n)) x.hall
        let b : Binding :=
          { claim := c, post := x.hall, atHall := Fin.ofNat 12 at_, nact := n, list := a, acts := [], datas := [],
            halls := [], coord := Fin.ofNat 12 at_, phase := .fetch, prepared := [], prepAt := [], applied := [],
            lostActs := [], locks := [], actAt := [], drops := [], partly := [], logA := false, logB := false, status := 0, failAct := none, failHall := x.hall }
        { (s.setBind s.nextBind b) with nextBind := s.nextBind + 1 }.setStage c .forwarded

/-- Binding slots that software's bindings hold in a hall (R230): the coordinator's to the record, another hall's from its
prepare to its release. -/
def bindSlots (s : State) (h : Nat) : Nat :=
  (s.binds.filter fun p => p.2.phase != .fetch &&
    (p.2.coord.val == h || p.2.prepared.any fun g => g.val == h && !p.2.applied.elem g)).length

/-- Slots of a hall open to software's bindings: 64 less the 16 kept for ushers. -/
def bindSlotLimit : Nat := 48

/-- A forwarded BIND fetched and checked at the hall that holds it (R225). -/
def bindFetch (s : State) (n : Nat) (b : Binding) : State :=
  let acts := readActs s b.list b.nact
  let datas := tab b.nact fun i => s.record64 .park (b.list + 512 + 64 * i)
  let halls := bindHalls s acts
  let coord := bindCoord halls b.post
  let one := { b with halls := [b.atHall], coord := b.atHall, failHall := b.atHall }
  match firstBad acts (actStatus s) with
  | some (i, st) => bindRecord s n { one with failAct := some i } b.atHall st
  | none =>
    if 4 < halls.length then bindRecord s n one b.atHall Status.bindWide
    else if coord ≠ b.atHall.val then s.setBind n { b with atHall := Fin.ofNat 12 coord, coord := Fin.ofNat 12 coord }
    else
      let l := (if halls.isEmpty then [b.post.val] else halls).map (Fin.ofNat 12)
      let at_ := acts.map fun a => ((actHall s a).map (Fin.ofNat 12)).getD b.atHall
      s.setBind n { b with acts := acts, datas := datas, halls := l, coord := b.atHall, actAt := at_, phase := .prepare }

/-- BIND_FORWARD (R225): it waits for a slot of the coordinator (R230). -/
def execBindForward (b : Nat) (s : State) : Result :=
  .next <|
    match sfind s.binds b with
    | some x =>
      if x.phase = .fetch then
        if !s.hallUp x.atHall then bindFail s b { x with halls := [x.atHall] } Status.bindAborted none x.atHall
        else if bindSlotLimit ≤ bindSlots s x.atHall then s
        else bindFetch s b x
      else s
    | none => s

/-! ### Prepare (R226, R227) -/

/-- The actions of a hall with their numbers (R223, R225). -/
def Binding.mine (b : Binding) (h : Nat) : List (Nat × Rec32) :=
  (b.acts.mapIdx fun i a => (i, a)).filter fun p => (b.actAt[p.1]?).any fun g => g.val == h

/-- Lock unit of an action. -/
def actKey (a : Rec32) : LockKey :=
  match aKind a with
  | 0x01 => .entry (BitVec.ofNat 20 (aVol a)) (aIdx a)
  | 0x04 => .clasp (BitVec.ofNat 16 (aClasp a))
  | 0x05 => .line (aAddr a / 64)
  | _ => .desc (BitVec.ofNat 20 (aVol a))

/-- Place of a lock unit in the order in which a hall takes its locks. The spec says rising address order and gives
units of different kinds no common addresses: kinds go in this order (DESIGN CHOICE, log entry 115). -/
def LockKey.rank : LockKey → Nat
  | .desc v => v.toNat
  | .entry v i => 2 ^ 64 + v.toNat * 2 ^ 20 + i
  | .ref v i => 2 ^ 65 + v.toNat * 2 ^ 20 + i
  | .clasp k => 2 ^ 66 + k.toNat
  | .line a => 2 ^ 67 + a

/-- References that the clearing of indirect entries drops: action, front matter, index and hall (R224). -/
def Binding.refDrops (b : Binding) (s : State) : List (Nat × Nat × Nat × HallId) :=
  (b.acts.mapIdx fun i a => (i, a)).filterMap fun p =>
    (actDrops s p.2).map fun d => (p.1, d.1, d.2, Fin.ofNat 12 (s.vol d.1).home)

/-- Locks that a binding takes in a hall, in their order: action index and unit, the implicit drop of a reference among
them. -/
def Binding.keys (b : Binding) (s : State) (h : Nat) : List (Nat × LockKey) :=
  sortBy (fun (k : Nat × LockKey) => k.2.rank) (((b.mine h).map fun p => (p.1, actKey p.2)) ++
    (((b.refDrops s).filter fun d => d.2.2.2.val == h).map fun d => (d.1, LockKey.ref (BitVec.ofNat 20 d.2.1) d.2.2.1)))

/-- Whether another binding holds a lock. -/
def lockTakenBy (s : State) (n : Nat) (k : LockKey) : Bool :=
  s.binds.any fun p => p.1 != n && p.2.locks.any fun l => l.2 == k

/-- Whether CHECK holds of an action. -/
def checkHolds (s : State) (a : Rec32) : Bool :=
  !aCheck a ||
    match aKind a with
    | 0x01 => s.leaf (aVol a) (aIdx a) == aExpect a
    | _ => if aSub a = 0 then (s.vol (aVol a)).swTag == aExpect a
        else (s.vol (aVol a)).place.toNat == (aExpect a).toNat

/-- A clasp action tried on a cell: a guard that does not hold fails with CHECK_FAILED. -/
def actCell (c : Clasp) (a : Rec32) : Except Nat Clasp :=
  match cellOp c 13 (aSub a) (BitVec.ofNat 32 (aOperand a)) true with
  | .ok c' => .ok c'
  | .wait _ _ => .error Status.checkFailed
  | .fail st => .error st

/-- The actions of a hall tested in turn: the first that fails (R226, R484). Clasp actions are tried one after another. -/
def tryActs (s : State) : List (Nat × Rec32) → Sparse Clasp → Option (Nat × Nat)
  | [], _ => none
  | (i, a) :: l, t =>
    match actStatus s a with
    | some st => some (i, st)
    | none =>
      if !checkHolds s a then some (i, Status.checkFailed)
      else if aKind a = 0x04 then
        match actCell (sget t (s.clasp (aClasp a)) (aClasp a)) a with
        | .error st => some (i, st)
        | .ok c => tryActs s l (sset t (aClasp a) c)
      else tryActs s l t

/-- The first test that fails in a hall: its locks in their order, then the checks, guards and LOCK_TRY by action. -/
def prepareFails (s : State) (n : Nat) (b : Binding) (h : Nat) : Option (Nat × Nat) :=
  match (b.keys s h).find? fun (k : Nat × LockKey) => lockTakenBy s n k.2 with
  | some k => some (k.1, Status.conflict)
  | none => tryActs s (b.mine h) []

/-- The next hall that a binding prepares. -/
def Binding.nextHall (b : Binding) : Option HallId := b.halls.find? fun h => !b.prepared.elem h

/-- BIND_PREPARE (R226, R227): at the next hall in rising order. -/
def execBindPrepare (b : Nat) (s : State) : Result :=
  .next <|
    match sfind s.binds b with
    | some x =>
      match x.phase, x.nextHall with
      | .prepare, some h =>
        if !s.hallUp h then bindFail s b x Status.bindAborted none h
        else if h ≠ x.coord ∧ bindSlotLimit ≤ bindSlots s h then s
        else match prepareFails s b x h with
          | some (i, st) => bindFail s b x st (some i) h
          | none =>
            let x := { x with prepared := x.prepared ++ [h], prepAt := sset x.prepAt h s.now
                              locks := x.locks ++ (x.keys s h).map fun (k : Nat × LockKey) => (h, k.2) }
            s.setBind b (if x.nextHall.isNone then { x with phase := .prepared, drops := x.refDrops s } else x)
      | _, _ => s
    | none => s

/-- BIND_PREPARED (R226): the coordinator writes the log; the binding is committed. -/
def execBindPrepared (b : Nat) (s : State) : Result :=
  .next <|
    match sfind s.binds b with
    | some x => if x.phase = .prepared ∧ s.hallUp x.coord = true then s.setBind b { x with phase := .apply } else s
    | none => s

/-! ### Apply (R224, R226) -/

/-- Software's edit of a leaf entry: a cleared leaf is freed (R153), a lowered FILL is set. An absent entry is left. -/
def editEntry (s : State) (v i : Nat) (value : Dword) : State :=
  let e := s.leaf v i
  if !leV e then s
  else if value = 0 then
    let sh := s.shadow v i
    let s := (s.setLeaf v i 0).setShadow v i 0
    if leTier e = 3 then s else s.releaseEntry v e sh
  else s.setLeaf v i value

/-- One action applied. -/
def applyAct (s : State) (a : Rec32) (data : Rec64) : State :=
  match aKind a with
  | 0x01 => editEntry s (aVol a) (aIdx a) (aValue a)
  | 0x02 =>
    if aSub a = 0 then s.modVol (aVol a) fun x => { x with swTag := aValue a }
    else s.modVol (aVol a) fun x => { x with place := BitVec.ofNat 12 (aValue a).toNat }
  | 0x04 =>
    match actCell (s.clasp (aClasp a)) a with
    | .ok c => storeCell s (aClasp a) c
    | .error _ => s
  | _ =>
    let bytes := leBytes (aSub a) data.toNat
    match nearPlace (aAddr a) with
    | some (h, sw, c) =>
      -- a column that has lost its service since the prepare cannot be reached (log entry 115)
      if s.hallUp h && !s.colServed h sw then s else s.write (.column h sw) c bytes false
    | none => s.write .park (aAddr a) bytes false

/-- The actions of a hall that `sel` selects, with their implicit effects: each volume edited counts once (R146), and the
references dropped at the hall, the coordinator for a hall that has no part in the binding. -/
def applyHall (s : State) (b : Binding) (h : Nat) (sel : Rec32 → Bool) : State :=
  let acts := (b.mine h).filter fun p => sel p.2
  let vols := ((acts.filter fun p => aKind p.2 == 0x01 && leV (s.leaf (aVol p.2) (aIdx p.2))).map fun p => aVol p.2).dedup
  let here := fun (g : HallId) => if b.halls.elem g then g.val == h else b.coord.val == h
  let drops := b.drops.filter fun d => here d.2.2.2 && sel (b.acts.getD d.1 0)
  let t := acts.foldl (fun t p => applyAct t p.2 (b.datas.getD p.1 0)) s
  let t := vols.foldl (fun t v => (t.sgenUp v true).recount v) t
  drops.foldl (fun t d => t.dropRef d.2.1 d.2.2.1) t

/-- A hall is done with a binding: its locks are released. -/
def Binding.doneAt (b : Binding) (h : HallId) : Binding :=
  { b with applied := b.applied ++ [h], locks := b.locks.filter fun l => l.1 != h }

/-- Whether a MEMW of a hall must wait: for a stairwell in reset (R302), or for a landing (R121). -/
def memwHeld (s : State) (b : Binding) (h : Nat) : Bool :=
  (b.mine h).any fun p => aKind p.2 == 0x05 &&
    match nearPlace (aAddr p.2) with
    | some (g, sw, c) => (s.stair g sw).resetting || s.colHeld g sw c (aSub p.2) true
    | none => false

/-- The actions that a hall itself still has to apply: of one reset since, those on clasps (R229). -/
def Binding.still (b : Binding) (h : HallId) (a : Rec32) : Bool := !b.partly.elem h || aKind a == 0x04

/-- A hall in service applies its actions of a committed binding. -/
def bindApply (s : State) (b : Nat) (h : HallId) : State :=
  match sfind s.binds b with
  | some x =>
    if x.phase = .apply ∧ x.halls.elem h = true ∧ x.applied.elem h = false ∧ s.hallUp h = true ∧ memwHeld s x h = false then
      let x' := x.doneAt h
      (applyHall s x h (x.still h)).setBind b
        (if x'.halls.all fun g => x'.applied.elem g then { x' with phase := .applied } else x')
    else s
  | none => s

/-- BIND_COMMIT (R226). -/
def execBindCommit (b : Nat) (h : HallId) (s : State) : Result := .next (settle (bindApply s b h))

/-- BIND_DONE (R226): the coordinator writes the record. -/
def execBindDone (b : Nat) (s : State) : Result :=
  .next <|
    match sfind s.binds b with
    | some x => if x.phase = .applied ∧ s.hallUp x.coord = true then bindRecord s b x x.coord Status.ok else s
    | none => s

/-- BIND_ABORT (R226). -/
def execBindAbort (b : Nat) (s : State) : Result :=
  .next <|
    match sfind s.binds b with
    | some x => if x.phase = .aborting then bindRecord s b x x.coord x.status else s
    | none => s

/-- BIND_PREPARE_TIMEOUT (R229). -/
def execBindPrepareTimeout (b : Nat) (h : HallId) (s : State) : Result :=
  .next <|
    match sfind s.binds b with
    | some x =>
      match sfind x.prepAt h with
      | some t =>
        if (x.phase = .prepare ∨ x.phase = .prepared) ∧ s.passed t 50 = true then
          bindFail s b x Status.bindAborted none h
        else s
      | none => s
    | none => s

/-! ### After the commit point (R229, R385) -/

/-- What the coordinator's ushers apply for a hall that is not in service. While its compute resets, its clasp actions
wait (R218); once it is fenced they are dropped, and with its network lost its columns are out of reach. -/
def remoteSel (s : State) (b : Binding) (h : HallId) (a : Rec32) : Bool :=
  !b.partly.elem h && aKind a != 0x04 && !(aKind a == 0x05 && (nearPlace (aAddr a)).isSome && !s.hallNet h)

/-- Whether a hall still has to run clasp actions of a binding. -/
def claspsLeft (s : State) (b : Binding) (h : Nat) : Bool :=
  (s.hall h).state == .computeReset && b.acts.any fun a => aKind a == 0x04 && claspHome (aClasp a) == h

/-- What a binding that can never be finished names is marked (R385): its volumes fault, its clasps are lost, its lines
are poisoned. -/
def markUnfinished (s : State) (b : Binding) : State :=
  b.acts.foldl (fun s a =>
    match aKind a with
    | 0x04 => s.setClasp (aClasp a) { s.clasp (aClasp a) with lost := true }
    | 0x05 =>
      match nearPlace (aAddr a) with
      | some (h, sw, c) => s.setPoison (.column h sw) (c / 256 * 256) true
      | none => s.setPoison .park (aAddr a / 64 * 64) true
    | _ => (s.modVol (aVol a) fun x => { x with faultCause := 2 }).setVolState (aVol a) .faulted) s

/-- The lowest-numbered hall of a list that is in service. -/
def firstUp (s : State) (l : List HallId) : Option HallId := l.find? fun h => s.hallUp h

/-- The hall that finishes a committed binding: the coordinator, else the lowest other hall of it in service, else the
lowest hall in service. -/
def finisher (s : State) (b : Binding) : Option HallId :=
  if s.hallUp b.coord then some b.coord
  else if b.halls.length = 1 ∧ (s.hall b.coord).state = .computeReset then none
  else match firstUp s b.halls with
    | some h => some h
    | none => firstUp s ((List.range 12).map (Fin.ofNat 12))

/-- A hall in compute reset has all but its clasp actions applied: their locks alone remain. -/
def Binding.partlyAt (b : Binding) (h : HallId) : Binding :=
  { b with partly := b.partly ++ [h]
           locks := b.locks.filter fun l => l.1 != h || (match l.2 with | .clasp _ => true | _ => false) }

/-- Actions left of a committed binding applied by the finishing hall, for every hall not in service: at once, but for clasp
actions, which wait for the end of a reset. -/
def finishRemote (s : State) (b : Binding) : State × Binding :=
  b.halls.foldl (fun r h =>
    if r.2.applied.elem h || s.hallUp h || (claspsLeft s b h && b.partly.elem h) then r
    else (applyHall r.1 b h (remoteSel s b h), if claspsLeft s b h then r.2.partlyAt h else r.2.doneAt h)) (s, b)

/-- A committed binding whose two log copies read poisoned (R385). -/
def finishPoisoned (s : State) (n : Nat) (b : Binding) (h : HallId) : State :=
  if b.applied.isEmpty then bindRecord s n { b with failHall := h } h Status.bindAborted
  else
    let left := b.halls.filter fun g => !b.applied.elem g
    match left.find? fun g => b.lostActs.elem g || !s.hallUp g with
    | none => (left.foldl (fun (r : State) (g : HallId) => applyHall r b g (b.still g)) s).setBind n
        { b with phase := .applied, applied := b.halls, locks := [] }
    | some g =>
      let held := left.filter fun g => !b.lostActs.elem g && s.hallUp g
      let s := held.foldl (fun (r : State) (g : HallId) => applyHall r b g (b.still g)) s
      bindRecord (markUnfinished s b) n { b with failHall := g } h Status.bindAborted

/-- BIND_FINISH_FROM_LOG (R229): a hall in service applies what a hall out of service still owes to a committed binding,
and writes its record when nothing is left. -/
def execBindFinishFromLog (b : Nat) (s : State) : Result :=
  .next <|
    match sfind s.binds b with
    | some x =>
      match finisher s x with
      | some h =>
        if x.phase = .applied then (if s.hallUp x.coord then s else bindRecord s b x h Status.ok)
        else if x.phase = .apply ∧ (!(x.halls.all fun g => s.hallUp g) || !s.hallUp x.coord || !x.lostActs.isEmpty) = true then
          if x.logA && x.logB then settle (finishPoisoned s b x h)
          else
            let r := finishRemote s x
            let done := r.2.halls.all fun g => r.2.applied.elem g
            settle (r.1.setBind b (if done then { r.2 with phase := .applied } else r.2))
        else s
      | none => s
    | none => s

end Sys2Proof.Machine
end

