-- ==== Sys2Proof/Machine/ErrOps.lean ====
section
/-! DEFINITION. The error log (R381, R382). -/

namespace Sys2Proof.Machine

/-- SOURCE codes (Table 14.1). -/
def errCode : ErrSource → Nat
  | .sram => 0x01 | .vest => 0x02 | .clasp => 0x03 | .nearStriped => 0x04 | .nearLanded => 0x05 | .layer => 0x06
  | .park => 0x08 | .parkLink => 0x09 | .parkPkg => 0x0A | .ucie => 0x0C | .fabFec => 0x10 | .fabCrc => 0x11
  | .fabGiveup => 0x12 | .portb => 0x14 | .fence => 0x18

/-- CLASS codes (Table 14.2). -/
abbrev Class.corrected : Nat := 1
abbrev Class.uncorrectable : Nat := 2
abbrev Class.fence : Nat := 3
abbrev Class.link : Nat := 4

/-- What an error record says (Table 14.2). -/
structure ErrInfo where
  source : ErrSource
  class_ : Nat
  hall   : Nat := 0
  unit   : Nat := 0
  layer  : Nat := 0
  addr   : Nat := 0
  scrub  : Bool := false

/-- Sources whose records carry a HALL: zero for a park, port B or porter source. -/
def errHasHall : ErrSource → Bool
  | .park => false | .parkLink => false | .parkPkg => false | .portb => false | _ => true

/-- The HALL of a record. -/
def ErrInfo.recordHall (e : ErrInfo) : Nat := if errHasHall e.source then e.hall else 0

/-- The 32 bytes of a new record. -/
def errBytes (s : State) (e : ErrInfo) : List Byte :=
  let layered := e.source == .nearStriped || e.source == .nearLanded || e.source == .layer
  let r : Rec32 := put 256 0 0 8 (errCode e.source) ||| put 256 0 8 4 e.class_
    ||| put 256 0 12 4 e.recordHall ||| put 256 0 16 8 e.unit
    ||| put 256 0 24 4 (if layered then e.layer else 0) ||| put 256 0 31 1 (if e.scrub then 1 else 0)
    ||| put 256 4 0 32 1
    ||| put 256 8 0 64 (if e.class_ = Class.fence ∨ e.class_ = Class.link then 0 else e.addr)
    ||| put 256 0x10 0 64 s.porter.elapsed.toNat ||| put 256 0x18 0 32 s.porter.powerup.toNat
  leBytes 32 r.toNat

def ErrLog.size (l : ErrLog) : Nat := 2 ^ l.log2
def ErrLog.fill (l : ErrLog) : Nat := (l.tail - l.head).toNat

/-- The newest unconsumed record that a corrected error merges into: less than 1 s old. -/
def ErrLog.merge? (l : ErrLog) (now : Nat) (e : ErrInfo) : Option ErrSeen :=
  match l.recent.find? fun r => r.source == errCode e.source && r.hall == e.recordHall && r.unit == e.unit && r.addr == e.addr
      && (BitVec.ofNat 32 r.index - l.head).toNat < l.fill with
  | some r => if now < r.at_ + 100000000 then some r else none
  | none => none

def State.setErrLog (s : State) (l : ErrLog) : State := s.modPorter fun p => { p with errlog := l }

/-- Writes or merges one error record (R381, R382). -/
def State.logError (s : State) (e : ErrInfo) : State :=
  let l := s.porter.errlog
  if !l.en then s
  else match (if e.class_ = Class.corrected then l.merge? s.now e else none) with
    | some r =>
      let n := min (r.count + 1) (2 ^ 32 - 1)
      let s := s.write .park (l.base + r.index % l.size * 32 + 4) (leBytes 4 n) false
      s.setErrLog { l with recent := l.recent.map fun q => if q.index == r.index then { q with count := n } else q }
    | none =>
      if l.size ≤ l.fill then s.setErrLog { l with lost := min (l.lost + 1) (2 ^ 32 - 1) }
      else
        let i := l.tail.toNat
        let s := s.write .park (l.base + i % l.size * 32) (errBytes s e) false
        let seen : ErrSeen := { source := errCode e.source, hall := e.recordHall, unit := e.unit, addr := e.addr, at_ := s.now,
                                count := 1, index := i }
        let live := l.recent.filter fun q => (BitVec.ofNat 32 q.index - l.head).toNat < l.fill
        let fire := l.armed && l.fill == 0
        let s := s.setErrLog { l with tail := l.tail + 1, armed := l.armed && !fire
                                      recent := if e.class_ = Class.corrected then seen :: live else live }
        if fire then s.emit (.msi l.vec) else s

end Sys2Proof.Machine
end

