-- ==== Sys2Proof/Machine/MgmtOps.lean ====
section
/-! DEFINITION. Management messages: their header and body, the three ways they travel, replies, and the reports of ports
(R329, R330, R338). -/

namespace Sys2Proof.Machine

/-! ### The module as a porter -/

/-- Whether the porter's firmware runs. -/
def State.porterUp (s : State) : Bool := s.porter.stage != .rom && s.porter.stage != .halted

/-- The module's provisioned ID (Table 17.1). -/
def State.pid (s : State) : Pid :=
  BitVec.ofNat 48 (s.porter.fuses.mfr % 2 ^ 15 * 2 ^ 33 + 0x0C12 * 2 ^ 16 + s.porter.fuses.serial.toNat % 2 ^ 16)

/-- Firmware level as a message carries it: FW_MAJOR in [31:16]. -/
def State.fwLevel (s : State) : Word := s.porter.running.level
def levelMajor (w : Word) : Nat := bits w 31 16

/-- Node of the module's porter. -/
def State.porterNode (s : State) : Nat := s.porter.fab.moduleId * 16 + 15

def State.modFab (s : State) (f : FabMgr → FabMgr) : State := s.modPorter fun p => { p with fab := f p.fab }

/-- The porter's interrupt for commands, reports and CHANGED. -/
def State.fabIrq (s : State) : State := s.emit (.msi s.porter.fab.vec)

/-! ### Header and body (Tables 11.11 and 11.12) -/

def mgType (m : MgmtMsg) : Nat := fld m.hdr 0 0 8
def mgRouted (m : MgmtMsg) : Bool := fld m.hdr 0 8 1 == 1
def mgEpoch (m : MgmtMsg) : Word := BitVec.ofNat 32 (fld m.hdr 4 0 32)
def mgOrigin (m : MgmtMsg) : Pid := BitVec.ofNat 48 (fld m.hdr 8 0 48)
def mgRoute (m : MgmtMsg) : Nat := fld m.hdr 0x10 0 32
def mgReturn (m : MgmtMsg) : Nat := fld m.hdr 0x14 0 32
def mgToken (m : MgmtMsg) : Word := BitVec.ofNat 32 (fld m.hdr 0x18 0 32)

/-- Reserved fields of a header, and a ROUTE or RETURN that is not zero in a message that is not routed. -/
def mgBad (m : MgmtMsg) : Bool :=
  anySet m.hdr [(0, 9, 23), (8, 48, 16), (0x1C, 0, 32)] || (!mgRouted m && (mgRoute m != 0 || mgReturn m != 0))

/-- `n` bytes of a body from byte `off`, as a number. -/
def bodyNat (b : List Byte) (off n : Nat) : Nat := leNat (slice b off n 0)

/-- Whether a body has a length and no bit outside the named ones: each `(byte, lo, width)` must be zero. -/
def bodyOk (b : List Byte) (len : Nat) (reserved : List (Nat × Nat × Nat)) : Bool :=
  b.length == len && !reserved.any fun f => leNat b >>> (8 * f.1 + f.2.1) % 2 ^ f.2.2 != 0

/-- A message of this porter. -/
def mkMgmt (s : State) (mtype : Nat) (routed : Bool) (route ret : Nat) (token : Word) (body : List Byte) : MgmtMsg :=
  { hdr := put 256 0 0 8 mtype ||| put 256 0 8 1 (if routed then 1 else 0) ||| put 256 4 0 32 s.porter.fab.epoch.toNat
      ||| put 256 8 0 48 s.pid.toNat ||| put 256 0x10 0 32 route ||| put 256 0x14 0 32 ret ||| put 256 0x18 0 32 token.toNat
    body := body }

/-- Bytes of a message. -/
def mgBytes (m : MgmtMsg) : List Byte := leBytes 32 m.hdr.toNat ++ m.body

/-- The MGMT packet that carries a message. -/
def mgPacket (src dst level jpv : Nat) (m : MgmtMsg) : FabPacket :=
  let b := mgBytes m
  mkPacket (put 256 0 0 8 3 ||| put 256 0 8 8 jpv ||| put 256 0 16 3 level ||| put 256 4 0 20 dst ||| put 256 8 0 20 src
    ||| put 256 0x14 0 12 b.length) b

/-- The message that a MGMT packet carries. -/
def msgOf (p : FabPacket) : MgmtMsg := { hdr := BitVec.ofNat 256 (leNat (p.payload.take 32)), body := p.payload.drop 32 }

/-- Destination node of a link-local message: no module, the porter. -/
def linkLocalNode : Nat := 0xFFFFF

/-- A packet checked at its destination by its CRC and `bad` fields, then handled (R317). -/
def checked (s : State) (h : HallId) (p : FabPacket) (bad : Bool) (k : State → State) : State :=
  if !s.hallNet h then s
  else linkIn s h p fun s =>
    if p.crc != packetCrc p.hdr p.payload then
      (s.modPort h fun x => { x with crcErr := x.crcErr + 1 }).logError
        { source := .fabCrc, class_ := Class.uncorrectable, hall := h }
    else if bad then fabDrop s h
    else k s

/-- A routed packet with the way it comes: over the link of the hall's own port, or over the module's ring (none). -/
def arrived (p : FabPacket) (l : Option LinkTag) : FabPacket := { p with link := l }

/-- A MGMT packet that the porter discards: a field is reserved, or it is not for this porter. The DST of a routed packet is
ignored (Table 11.3). -/
def mgmtPktBad (s : State) (p : FabPacket) : Bool :=
  let m := msgOf p
  p.pad != 0 || headerBad p.hdr || pkPtype p.hdr != 3 || pkLen p.hdr != p.payload.length || 256 < p.payload.length
    || p.payload.length < 32 || mgBad m
    || !(mgRouted m || pkDst p.hdr == linkLocalNode || pkDst p.hdr == s.porterNode)

/-- A message that reaches the porter through hall `h`. -/
def mgmtIn (s : State) (h : HallId) (p : FabPacket) (k : State → State) : State := checked s h p (mgmtPktBad s p) k

/-! ### Sending (R329) -/

/-- A link-local message out of one port; it leaves at LEVEL 1 like every packet that crosses one link (R323). -/
def sendLink (s : State) (h : HallId) (m : MgmtMsg) : State :=
  portSend s h (mgPacket s.porterNode linkLocalNode 1 (s.port h).jpv m)

/-- A link-local message out of every ACTIVE port but those left out. -/
def sendLinks (s : State) (m : MgmtMsg) (but : Option HallId) : State :=
  (List.finRange 12).foldl (fun (s : State) (h : HallId) => if (s.port h).active && some h != but then sendLink s h m else s) s

/-- A message by table from this porter. -/
def sendTable (s : State) (dst : Nat) (m : MgmtMsg) : State := fabSend s 0 (mgPacket s.porterNode dst 0 0 m)

/-- ROUTE and RETURN of a routed packet replaced; its CRC stays right or wrong as it was. -/
def withRoute (p : FabPacket) (route ret : Nat) : FabPacket :=
  let ok := p.crc == packetCrc p.hdr p.payload
  let b := p.payload.take 0x10 ++ leBytes 4 route ++ leBytes 4 ret ++ p.payload.drop 0x18
  { p with payload := b, crc := if ok then packetCrc p.hdr b else p.crc }

/-- Steps 3 and 4 of R329 for a routed packet at hall `h`: one taken in at its port crosses the ring to another hall's (`ring`), one of
the porter goes to the port directly (log entry 119). -/
def steer (s : State) (h : HallId) (ring : Bool) (p : FabPacket) : State :=
  let route := bodyNat p.payload 0x10 4
  let g := route % 16
  if g = 15 then s.emit (.fabLocal 15 { p with link := none })
  else if 12 ≤ g then fabDrop s h
  else
    let q := withRoute p (route / 16 + 0xF0000000) (bodyNat p.payload 0x14 4)
    if ring && g != h.val then fabRing s h (Fin.ofNat 12 g) q true else fabOut s (Fin.ofNat 12 g) q

/-- A reply to a request that came in at hall `h` from node `src`. -/
def sendReply (s : State) (h : HallId) (src : Nat) (m : MgmtMsg) (body : List Byte) : State :=
  let mtype := mgType m + 0x80
  if mgRouted m then
    steer s h false (mgPacket s.porterNode linkLocalNode 0 0 (mkMgmt s mtype true (mgReturn m) 0xFFFFFFFF (mgToken m) body))
  else sendTable s src (mkMgmt s mtype false 0 0 (mgToken m) body)

/-! ### Reports (R338) -/

/-- Base of the fabric command area. -/
def State.fabArea (s : State) : Nat := s.porter.fab.cmdHi.toNat * 2 ^ 32 + s.porter.fab.cmdLo.toNat

/-- A report written into the manager's ring. -/
def recordReport (s : State) (node event reason peer : Nat) : State :=
  let n := s.porter.fab.reports
  let e := node % 2 ^ 20 + event % 16 * 2 ^ 20 + reason % 16 * 2 ^ 24 + peer % 2 ^ 16 * 2 ^ 32
  let s := s.write .park (s.fabArea + 4096 + n.toNat % 512 * 8) (leBytes 8 e) false
  (s.modFab fun f => { f with reports := n + 1 }).fabIrq

/-- A port's event reported to the manager, if one is held; the manager's own ports go straight to its ring. -/
def portReport (s : State) (h : HallId) (event : Nat) : State :=
  let x := s.port h
  let peer := nodeModule x.peerNode.toNat
  if !s.porterUp then s
  else if s.porter.fab.elected then recordReport s (s.nodeOf h) event x.reason peer
  else match s.porter.fab.mgrPid with
    | none => s
    | some _ =>
      let w := s.nodeOf h + event * 2 ^ 20 + x.reason * 2 ^ 24
      sendTable s s.porter.fab.mgrNode.toNat (mkMgmt s 0x07 false 0 0 0 (leBytes 4 w ++ leBytes 4 peer))

end Sys2Proof.Machine
end

