-- ==== Sys2Proof/Machine/Network.lean ====
section
/-! DEFINITION. The package network: mesh, gate block, ring and their arbiters (chapter 10). What a delivered packet does at
its unit is the meaning of the command that made it; the network moves it and answers for units out of service. Buffers
are unbounded (log entry 33). -/

namespace Sys2Proof.Machine

/-! ### Routing (R288, R293) -/

/-- The stairwell to which a packet for stairwell `sw` goes: the adopter of an orphaned column (R289, R390). -/
def netTarget (s : State) (h : Nat) (sw : SwId) : SwId :=
  let x := s.stair h sw
  if x.fenced && x.adopted && x.adoptPub then x.adopter.getD sw else sw

/-- Output of router `at_` toward stairwell `to_` of its hall: along the gallery, then along the column. -/
def routeSw (at_ to_ : Nat) : MeshPort :=
  if at_ % 16 < to_ % 16 then .east
  else if to_ % 16 < at_ % 16 then .west
  else if at_ < to_ then .south
  else if to_ < at_ then .north
  else .local

/-- A packet at the router of stairwell `at_`, come in at `inp`, queued at its output: west toward the gate block when it
leaves the mesh. -/
def routerQueue (s : State) (h : Nat) (at_ : SwId) (inp : Nat) (p : NetPkt) : State :=
  let port := match p.pkt.dst with
    | .stairwell sw => if p.pkt.dstHall.val = h then routeSw at_ (netTarget s h sw) else .west
    | _ => .west
  netPush s h (NetOut.router at_ port).number { p with inp := inp }

/-- Crossbar output of a packet. -/
def gateOut (s : State) (h : Nat) (p : Packet) : NetOut :=
  if p.dst.onHost then .host
  else if p.dstHall.val ≠ h then .ring
  else match p.dst with
    | .stairwell sw => .gallery (Fin.ofNat 16 ((netTarget s h sw).val / 16))
    | .fabricGate => .fabric
    | _ => .hallBlock

def gateQueue (s : State) (h inp : Nat) (p : NetPkt) : State :=
  netPush s h (gateOut s h p.pkt).number { p with inp := inp }

/-- Whether a unit presents a request again after the answer TARGET_RESETTING; a core's access ends as an access fault (R303). -/
def unitRepresents : NetUnit → Bool
  | .core _ => false
  | _ => true

/-- A request answered at its source (R293): one answered TARGET_RESETTING is kept, to be presented again (R303). -/
def netAnswered (s : State) (p : Packet) : State :=
  s.modHall p.dstHall fun x =>
    if p.body = .targetResetting ∧ unitRepresents p.dst = true then
      { x with netSent := x.netSent.map fun e =>
          if e.pkt.id = p.id ∧ e.pkt.src = p.dst then { e with back := some (Backoff.next s.now e.back) } else e }
    else { x with netSent := x.netSent.filter fun e => e.pkt.id != p.id || e.pkt.src != p.dst }

/-- A packet handed to its unit. -/
def netDeliver (s : State) (h : HallId) (p : Packet) : State :=
  (if p.cls = .response then netAnswered s p else s).emit (.delivered h p)

/-! ### Answers for units out of service (R289, R302, R304, R390) -/

/-- The answer to a request. -/
def answerOf (h : HallId) (p : Packet) (b : PktBody) : NetPkt :=
  { pkt := { id := p.id, srcHall := h, src := p.dst, dstHall := p.srcHall, dst := p.src, cls := .response, body := b },
    weight := 0 }

/-- Requests answered TARGET_RESETTING are counted. -/
def countReset (s : State) (h : Nat) (b : PktBody) : State :=
  if b = .targetResetting then s.noteReset h else s

/-- What a hall's gate answers a packet for a unit of its compute domain. -/
def gateRefuses (s : State) (h : Nat) (p : Packet) : Option PktBody :=
  if p.dstHall.val = h ∧ p.dst.compute = true then
    match (s.hall h).state with
    | .enabled => none
    | .computeReset => some .targetResetting
    | _ => some .unitFenced
  else none

/-- A packet that arrives at the gate block. A response to a unit out of service is discarded. -/
def gateArrive (s : State) (h : HallId) (inp : Nat) (p : NetPkt) : State :=
  match gateRefuses s h p.pkt with
  | none => gateQueue s h inp p
  | some b =>
    if p.pkt.cls = .response then netAnswered s p.pkt
    else
      let r := answerOf h p.pkt b
      let s := countReset s h b
      if (gateRefuses s h r.pkt).isSome then s else gateQueue s h inHallBlock r

/-- A packet that reaches the stairwell at the end of its path. -/
def swArrive (s : State) (h : HallId) (at_ sw : SwId) (p : NetPkt) : State :=
  let x := s.stair h sw
  let b : Option PktBody :=
    if (s.hall h).state == .computeReset || x.resetting then some .targetResetting
    else if !s.hallUp h || (x.fenced && at_ == sw) then some .unitFenced
    else none
  match b with
  | none => netDeliver s h p.pkt
  | some b =>
    if p.pkt.cls = .response then netAnswered s p.pkt
    else routerQueue (countReset s h b) h at_ inOwn (answerOf h p.pkt b)

/-! ### Arbitration (R297 to R299) -/

/-- 1,024 mesh cycles in reference edges. -/
def activeEdges : Nat := 117

/-- The sources that count at an input: those that wait there and those that did within 1,024 mesh cycles, once each. -/
def Arbiter.active (a : Arbiter) (now inp : Nat) : List (HallId × NetUnit × Nat) :=
  let w := (a.queue.filter fun p => p.inp == inp && p.pkt.cls == .request).map fun p => (p.pkt.srcHall, p.pkt.src, p.weight)
  let o := (a.seen.filter fun e => e.inp == inp && now ≤ e.at_ + activeEdges).map fun e => (e.hall, e.src, e.weight)
  (w ++ o).foldl (fun l e => if l.any fun (q : HallId × NetUnit × Nat) => q.1 == e.1 && q.2.1 == e.2.1 then l else l ++ [e]) []

/-- Active weight of an input. -/
def Arbiter.weight (a : Arbiter) (now inp : Nat) : Nat := ((a.active now inp).map fun e => e.2.2).sum

/-- Position of the oldest request at an input. -/
def Arbiter.oldest (a : Arbiter) (inp : Nat) : Option Nat :=
  a.queue.findIdx? fun p => p.inp == inp && p.pkt.cls == .request

/-- One round robin by deficit over 64 inputs (R298): the position granted, and the arbiter with its counters. -/
def Arbiter.deficitPick (now : Nat) : Nat → Arbiter → Option (Nat × Arbiter)
  | 0, _ => none
  | n + 1, a =>
    let i := a.visit
    let c := sget a.deficit 0 i
    let next := (i + 1) % 64
    let go := fun (a : Arbiter) =>
      let c := if (a.oldest next).isNone then 0 else sget a.deficit 0 next + 64 * a.weight now next
      Arbiter.deficitPick now n { a with visit := next, deficit := sset a.deficit next c }
    match a.oldest i with
    | none => go { a with deficit := sset a.deficit i 0 }
    | some k =>
      match a.queue[k]? with
      | none => none
      | some p => if p.pkt.size ≤ c then some (k, { a with deficit := sset a.deficit i (c - p.pkt.size) }) else go a

/-- The request that has reached AGE_MAX and wins outright (R299): the highest AGE, then the lower input. -/
def Arbiter.aged (a : Arbiter) (ageMax : Nat) : Option Nat :=
  let l := (a.queue.mapIdx fun i p => (i, p)).filter fun q => q.2.pkt.cls == .request && decide (ageMax ≤ q.2.age)
  (l.foldl (fun (b : Option (Nat × NetPkt)) q =>
    match b with
    | none => some q
    | some r => if r.2.age < q.2.age || (q.2.age == r.2.age && q.2.inp < r.2.inp) then some q else b) none).map fun q => q.1

/-- The packet that an output grants (R298, R299). -/
def Arbiter.pick (a : Arbiter) (ageMax now : Nat) : Option (Nat × Arbiter) :=
  match a.aged ageMax with
  | some k => some (k, a)
  | none =>
    match a.queue.findIdx? fun p => p.pkt.cls == .response with
    | some k => some (k, a)
    | none => if a.queue.isEmpty then none else a.deficitPick now 512

/-- The arbiter without the packet granted; its source stays active for 1,024 mesh cycles, and an input left with nothing
waiting has its counter set to zero (R298). -/
def Arbiter.take (a : Arbiter) (k now : Nat) (p : NetPkt) : Arbiter :=
  let old := a.seen.filter fun e => now ≤ e.at_ + activeEdges && !(e.inp == p.inp && e.hall == p.pkt.srcHall && e.src == p.pkt.src)
  let q := a.queue.eraseIdx k
  { a with queue := q
           deficit := if q.any fun e => e.inp == p.inp && e.pkt.cls == .request then a.deficit else sset a.deficit p.inp 0
           seen := if p.pkt.cls = .request then
               { inp := p.inp, hall := p.pkt.srcHall, src := p.pkt.src, weight := p.weight, at_ := now } :: old else old }

/-- Grants an output's next packet to `k`. -/
def netGrant (s : State) (h out : Nat) (k : State → NetPkt → State) : State :=
  let x := s.hall h
  match (sget x.mesh {} out).pick x.regs.ageMax s.now with
  | none => s
  | some (i, a) =>
    match a.queue[i]? with
    | none => s
    | some p => k (s.modHall h fun y => { y with mesh := sset y.mesh out (a.take i s.now p) }) p

/-! ### Mesh and gate -/

/-- Whether a unit holds new packets to a hall: its direction changed (R293), or an earlier request to it is to be presented
again (R303). -/
def netHeld (s : State) (p : Packet) : Bool :=
  p.cls == .request && (s.hall p.srcHall).netSent.any fun e =>
    (e.old || e.back.isSome) && e.pkt.src == p.src && e.pkt.dstHall == p.dstHall

/-- A request to a hall noted until it is answered. -/
def netNote (s : State) (h : HallId) (p : Packet) (inp : Nat) : State :=
  if p.cls = .request ∧ p.dst.onHost = false then
    s.modHall h fun x => { x with netSent := x.netSent ++ [{ pkt := p, inp := inp }] }
  else s

/-- Whether a unit of a hall is in service to send: a stairwell that runs, a unit of the compute domain of a hall in service,
any other unit at all times. -/
def netSends (s : State) (h : Nat) (u : NetUnit) : Bool :=
  match u with
  | .stairwell sw => s.swRuns h sw
  | u => !u.compute || s.hallUp h

/-- A packet put where its source sends: AGE 0 and, for a request, the weight of the source's hall (R297). -/
def netPlace (s : State) (h : HallId) (p : Packet) (inp : Nat) : State :=
  let q : NetPkt := { pkt := p, weight := if p.cls = .request then unitWeight (s.hall h).regs p.src else 0 }
  match p.src with
  | .stairwell sw => netPush s h (NetOut.injection sw).number { q with inp := inp }
  | .core c => netPush s h NetOut.hostModule.number { q with inp := c }
  | .porter => netPush s h NetOut.hostModule.number { q with inp := 24 }
  | .parkCtl c => netPush s h NetOut.hostModule.number { q with inp := 25 + c.val }
  | .portB => netPush s h NetOut.hostModule.number { q with inp := 37 }
  | .hostGate => gateArrive s h inHost q
  | .fabricGate => gateArrive s h inFabric q
  | .vestibule => gateArrive s h inHallBlock q
  | _ => gateArrive s h inHallBlock q

/-- A packet sent by its source. -/
def netInject (s : State) (h : HallId) (p : Packet) (inp : Nat) : State :=
  if 256 < p.body.len || p.srcHall != h || netHeld s p then s
  else if !netSends s h p.src then s
  else netPlace (netNote s h p inp) h p inp

/-- A request answered TARGET_RESETTING presented again once its interval has passed (R303). -/
def netRepresent (s : State) (h : HallId) (i : Nat) : State :=
  match (s.hall h).netSent[i]? with
  | some e =>
    match e.back with
    | some b =>
      if s.hallNet h && netSends s h e.pkt.src && b.ready s.now then
        netPlace (s.modHall h fun x => { x with netSent := x.netSent.set i { e with back := some { b with due := none } } })
          h e.pkt e.inp
      else s
    | none => s
  | none => s

/-- Requests of a unit that stops are no longer presented. -/
def netForget (s : State) (h : Nat) (sel : NetUnit → Bool) : State :=
  s.modHall h fun x => { x with netSent := x.netSent.filter fun e => !sel e.pkt.src }

/-- Direction of a packet at a ring router. -/
def ringDir (s : State) (h : Nat) (p : Packet) : Bool := (s.hall h).route.getLsbD p.dstHall

/-- A packet granted at an output of the mesh or the gate block goes one hop on. -/
def netHop (s : State) (h : HallId) (out : NetOut) (p : NetPkt) : State :=
  match out with
  | .injection sw => routerQueue s h sw inOwn p
  | .router sw .local =>
    match p.pkt.dst with
    | .stairwell t => swArrive s h sw t p
    | _ => s
  | .router sw .east => routerQueue s h (Fin.ofNat 256 (sw.val + 1)) 2 p
  | .router sw .west =>
    if sw.val % 16 = 0 then gateArrive s h (sw.val / 16) p else routerQueue s h (Fin.ofNat 256 (sw.val - 1)) 1 p
  | .router sw .north => routerQueue s h (Fin.ofNat 256 (sw.val - 16)) 4 p
  | .router sw .south => routerQueue s h (Fin.ofNat 256 (sw.val + 16)) 3 p
  | .gallery g => routerQueue s h (Fin.ofNat 256 (g.val * 16)) 2 p
  | .ring => netPush s h (ringOut (ringDir s h p.pkt)) { p with inp := 0, vc := if p.fab.isSome then p.vc else 0 }
  | .hostModule => gateArrive s h inHost p
  -- a request accepted and not begun when a reset or a fence comes is answered at its turn (R302)
  | .hallBlock =>
    match gateRefuses s h p.pkt with
    | none => netDeliver s h p.pkt
    | some b =>
      if p.pkt.cls = .response then netAnswered s p.pkt
      else gateQueue (countReset s h b) h inHallBlock (answerOf h p.pkt b)
  | .host => netDeliver s h p.pkt
  | .fabric =>
    match p.fab with
    | some (q, true) => fabOut s h q
    | some (q, false) => s.emit (.fabLocal h q)
    | none => netDeliver s h p.pkt

/-- MESH_PACKET (R287 to R289, R297 to R299, R302, R304): a packet is sent, or an output of the mesh, the gate block or the
host module grants one. -/
def execMeshPacket (h : HallId) (e : MeshEvent) (s : State) : Result :=
  .next <|
    if !s.hallNet h then s
    else match e with
      | .inject p inp => netInject s h p inp
      | .grant out => netGrant s h out.number fun s p => netHop s h out p

/-! ### The ring -/

/-- The neighbour of a hall. -/
def ringNext (h : HallId) (cw : Bool) : HallId := Fin.ofNat 12 (if cw then h.val + 1 else h.val + 11)

/-- Whether the ring link of a hall is up (R292). -/
def ringUp (s : State) (h : HallId) (cw : Bool) : Bool :=
  (if cw then (s.hall h).cwLink.width else (s.hall h).ccwLink.width) != 0

/-- Whether a link joins hall 11 and hall 0. -/
def crossesSeam (h : HallId) (cw : Bool) : Bool := if cw then h == 11 else h == 0

/-- RING_PACKET (R293, R294): a ring link grants a packet, which goes to the neighbour. -/
def execRingPacket (h : HallId) (cw : Bool) (s : State) : Result :=
  .next <|
    let g := ringNext h cw
    if s.hallNet h && s.hallNet g && ringUp s h cw then
      netGrant s h (ringOut cw) fun s p =>
        -- fabric packets have a class of their own, with one channel for each hop level (R322)
        let p := if crossesSeam h cw && p.fab.isNone then { p with vc := 1 } else p
        if p.pkt.dstHall = g then gateArrive s g inRing p else netPush s g (ringOut (ringDir s g p.pkt)) { p with inp := 1 }
    else s

/-! ### Broadcast (R295, R296) -/

/-- One hall's copy of a broadcast packet: every enabled stairwell receives it once, or the gate answers for the hall; for a
stairwell in its own compute reset the answer is TARGET_RESETTING (R302, R372). -/
def hallBroadcast (s : State) (h : HallId) (p : Packet) : State :=
  let answer := fun (s : State) (sw : SwId) (b : PktBody) =>
    let r := answerOf h { p with dst := .stairwell sw, dstHall := h } b
    gateQueue (countReset s h b) h inHallBlock r
  match (s.hall h).state with
  | .enabled => (s.enabledSws h).foldl (fun (s : State) (sw : Nat) =>
      if (s.stair h sw).resetting then answer s (Fin.ofNat 256 sw) .targetResetting
      else s.emit (.delivered h { p with dstHall := h, dst := .stairwell (Fin.ofNat 256 sw) })) s
  | .computeReset => answer s 0 .targetResetting
  | _ => answer s 0 .unitFenced

/-- MESH_BROADCAST (R295). -/
def execMeshBroadcast (h : HallId) (p : Packet) (s : State) : Result :=
  .next (if s.hallNet h && p.body.len ≤ 256 && p.srcHall == h then hallBroadcast s h p else s)

/-- Whether hall `d` can be reached from `h` in the direction of its route bit: every link up, every hall on the way with
its network. -/
def ringReaches (s : State) (h d : HallId) : Bool :=
  let cw := (s.hall h).route.getLsbD d
  let n := if cw then (d.val + 12 - h.val) % 12 else (h.val + 12 - d.val) % 12
  allN n fun i =>
    let a : HallId := Fin.ofNat 12 (if cw then h.val + i else h.val + 12 - i)
    ringUp s a cw && s.hallNet (ringNext a cw)

/-- RING_BROADCAST (R296): each hall of the mask gets one copy; the source's own hall through its own gate. -/
def execRingBroadcast (h : HallId) (mask : BitVec 12) (p : Packet) (s : State) : Result :=
  .next <|
    if s.hallNet h && p.body.len ≤ 256 && p.srcHall == h then
      (List.finRange 12).foldl (fun (s : State) (d : HallId) =>
        if mask.getLsbD d.val && (d == h || ringReaches s h d) then hallBroadcast s d p else s) s
    else s

/-! ### AGE and routes -/

/-- A waiting packet after 32 mesh cycles (R297): responses carry no AGE. -/
def NetPkt.older (p : NetPkt) : NetPkt := if p.pkt.cls = .request then { p with age := min 255 (p.age + 1) } else p

/-- AGE_TICK (R297). -/
def execAgeTick (s : State) : Result :=
  .next { s with halls := s.halls.map fun q =>
    (q.1, { q.2 with mesh := q.2.mesh.map fun a => (a.1, { a.2 with queue := a.2.queue.map NetPkt.older }) }) }

/-- Hops from `h` to `d` in one direction over links that are up and halls whose network answers; none when there is no
such way. -/
def hopsTo (s : State) (h d : HallId) (cw : Bool) : Option Nat :=
  let n := if cw then (d.val + 12 - h.val) % 12 else (h.val + 12 - d.val) % 12
  if allN n fun i =>
      let a : HallId := Fin.ofNat 12 (if cw then h.val + i else h.val + 12 - i)
      ringUp s a cw && s.hallNet (ringNext a cw) then some n else none

/-- RING_ROUTE of a hall (R293): the fewer hops, clockwise on a tie; its own bit 0. -/
def routeBits (s : State) (h : HallId) : BitVec 12 :=
  (List.finRange 12).foldl (fun (w : BitVec 12) (d : HallId) =>
    let cw := d != h && match hopsTo s h d true, hopsTo s h d false with
      | some a, some b => a ≤ b
      | some _, none => true
      | _, _ => false
    if cw then w ||| BitVec.ofNat 12 (2 ^ d.val) else w) 0

/-- Packets that wait at a ring output of a hall and whose direction has changed go to the end of the other output, in their
order. -/
def moveWaiting (s : State) (h : Nat) : State :=
  [true, false].foldl (fun (s : State) (cw : Bool) =>
    let a := sget (s.hall h).mesh {} (ringOut cw)
    let moved := a.queue.filter fun p => ringDir s h p.pkt != cw
    let s := s.modHall h fun x => { x with mesh := sset x.mesh (ringOut cw) { a with queue := a.queue.filter fun p => ringDir s h p.pkt == cw } }
    moved.foldl (fun (s : State) (p : NetPkt) => netPush s h (ringOut (!cw)) p) s) s

/-- Every RING_ROUTE set again; packets that wait follow, and a source holds new packets for a destination whose direction
changes (R293). -/
def reroute (s : State) : State :=
  (List.finRange 12).foldl (fun (s : State) (h : HallId) =>
    if !s.hallNet h then s
    else
      let w := routeBits s h
      moveWaiting (s.modHall h fun x =>
        { x with route := w
                 netSent := x.netSent.map fun e =>
                   if e.pkt.dstHall = h ∨ w.getLsbD e.pkt.dstHall = x.route.getLsbD e.pkt.dstHall then e else { e with old := true } }) h) s

/-- RING_REROUTE (R293). -/
def execRingReroute (s : State) : Result := .next (if s.porter.stage = .rom then s else reroute s)

end Sys2Proof.Machine
end

