-- ==== Sys2Proof/Machine/Ports.lean ====
section
/-! DEFINITION. Fabric ports: training, HELLO, the check of versions, loss and repair, and the link layer (R307, R308,
R318 to R326). -/

namespace Sys2Proof.Machine

/-! ### Leaving and entering states (Table 11.4) -/

abbrev Reason.none_ : Nat := 0
abbrev Reason.levelGap : Nat := 1
abbrev Reason.wclAhead : Nat := 2
abbrev Reason.selfLoop : Nat := 3
abbrev Reason.trainFail : Nat := 4

/-- A port with an empty link. -/
def Port.cleared (p : Port) (st : PortState) (now : Nat) : Port :=
  { p with state := st, since := now, width := 0, jpv := 0, linkNext := 1, replay := [], waitq := [], used := [],
           rxNext := 1, rxAsked := false, rxFree := [] }

/-- A packet taken back from a port and chosen anew: it held the LEVEL of the link that it has not crossed. Link-local
messages go with their link. -/
def chooseAnew (s : State) (h : HallId) (p : FabPacket) : State :=
  if pkPtype p.hdr = 3 ∧ bodyNat p.payload 0 2 / 256 % 2 = 1 then fabDrop s h
  else if pkPtype p.hdr = 3 ∧ pkDst p.hdr = linkLocalNode then s
  else fabSend s h { p with hdr := withLevel p.hdr (pkLevel p.hdr - 1) }

/-- A port leaves the state it is in for one with an empty link. Leaving ACTIVE is repaired around (Table 11.6). -/
def leavePort (s : State) (h : HallId) (st : PortState) : State :=
  let x := s.port h
  let l := (x.replay.map fun q => q.pkt) ++ x.waitq
  let s := s.modPort h fun p => p.cleared st s.now
  if x.active then (l.foldl (fun s p => chooseAnew s h p) (portReport s h 1)).publishDue else s

/-- A port DOWN; it has no peer. -/
def portDown (s : State) (h : HallId) (reason : Nat) : State :=
  (leavePort s h .down).modPort h fun p =>
    { p with reason := reason, peerPid := 0, peerNode := 0, peerLevel := 0, peerWcl := 0, peerEpoch := 0, peerMgr := 0,
             peerHello := none }

/-- Training begins. -/
def startTraining (s : State) (h : HallId) : State :=
  s.modPort h fun p => { p.cleared .training s.now with attempt := some s.now, reason := 0 }

/-- Whether a DOWN port may train: EN 1, no cable assembly held unpowered (R479), and 10 s since its last attempt. -/
def downReady (s : State) (h : HallId) : Bool :=
  let x := s.port h
  x.en && x.state == .down && !(x.cable.isSome && !x.cableOn) && match x.attempt with
    | some t => s.passed t 10000000
    | none => true

/-- A write to FAB_PORT_CTL.EN. -/
def portEnable (s : State) (h : HallId) (en : Bool) : State :=
  let s := s.modPort h fun p => { p with en := en }
  if !en then if (s.port h).state = .down then s else portDown s h (s.port h).reason
  else if downReady s h then startTraining s h else s

/-- FAB_PORT_ENABLE (R318). -/
def execFabPortEnable (h : HallId) (en : Bool) (s : State) : Result := .next <| s.hallWrite h fun s => portEnable s h en

/-- An ACTIVE port enters RETRAIN. -/
def portRetrain (s : State) (h : HallId) : State :=
  if (s.port h).active then (leavePort s h .retrain).modPort h fun p => { p with attempt := some s.now } else s

/-- FAB_PORT_RETRAIN (R326). -/
def execFabPortRetrain (h : HallId) (s : State) : Result := .next <| s.hallWrite h fun s => portRetrain s h

/-- FAB_DOWN_RETRY (Table 11.4). -/
def execFabDownRetry (h : HallId) (s : State) : Result :=
  .next (if s.hallNet h && downReady s h then startTraining s h else s)

/-- Time that a port may train, in µs. -/
def trainLimit (st : PortState) : Nat := if st = .retrain then 2000000 else 1500000

def Port.trains (p : Port) : Bool := p.state == .training || p.state == .retrain

/-- FEC_LOCK (R308, Table 11.4): at ×4, ×2 or ×1. -/
def execFecLock (h : HallId) (lanes : Nat) (s : State) : Result :=
  .next <|
    let x := s.port h
    if s.hallNet h && x.trains && [1, 2, 4].contains lanes && s.now ≤ x.since + trainLimit x.state * 100 then
      s.modPort h fun p => { p.cleared .hello s.now with width := lanes, reason := 0, helloAt := none, peerHello := none }
    else s

/-- TRAIN_TIMEOUT (Table 11.4). -/
def execTrainTimeout (h : HallId) (s : State) : Result :=
  .next <|
    let x := s.port h
    if x.trains && s.passed x.since (trainLimit x.state) then portDown s h Reason.trainFail else s

/-- HELLO_TIMEOUT (Table 11.4). -/
def execHelloTimeout (h : HallId) (s : State) : Result :=
  .next (if (s.port h).state = .hello ∧ s.passed (s.port h).since 100000 = true then portDown s h Reason.trainFail else s)

/-! ### HELLO (R318 to R320) -/

/-- The HELLO of hall `h`'s port (Tables 11.5 and 11.12). -/
def helloMsg (s : State) (h : Nat) : MgmtMsg :=
  mkMgmt s 0x08 false 0 0 0
    (leBytes 4 (s.nodeOf h) ++ leBytes 4 s.fwLevel.toNat ++ leBytes 8 s.porter.flash.wcl
      ++ leBytes 8 ((s.porter.fab.mgrPid.getD 0).toNat))

/-- HELLO_SEND (R318): every 1 ms, or every 1 s while REFUSED. -/
def execHelloSend (h : HallId) (s : State) : Result :=
  .next <|
    let x := s.port h
    let every := match x.state with
      | .hello => some 1000
      | .check => some 1000
      | .active => some 1000
      | .refused => some 1000000
      | _ => none
    match every with
    | none => s
    | some us =>
      let due := match x.helloAt with
        | some t => s.passed t us
        | none => true
      if s.porterUp && s.hallNet h && due then
        sendLink (s.modPort h fun p => { p with helloAt := some s.now }) h (helloMsg s h)
      else s

def helloOk (m : MgmtMsg) : Bool :=
  mgType m == 0x08 && !mgRouted m && !mgBad m && bodyOk m.body 24 [(0, 20, 12), (8, 16, 48), (0x16, 0, 16)]

/-- What a HELLO says, to tell a change. -/
def helloBytes (m : MgmtMsg) : List Byte := leBytes 4 (mgEpoch m).toNat ++ leBytes 6 (mgOrigin m).toNat ++ m.body

/-- The peer as its HELLO gives it. -/
def Port.withPeer (p : Port) (m : MgmtMsg) : Port :=
  { p with peerPid := mgOrigin m, peerNode := BitVec.ofNat 20 (bodyNat m.body 0 4), peerLevel := BitVec.ofNat 32 (bodyNat m.body 4 4),
           peerWcl := bodyNat m.body 8 2, peerEpoch := mgEpoch m, peerMgr := BitVec.ofNat 48 (bodyNat m.body 0x10 6),
           peerHello := some (helloBytes m) }

/-- The rule of R319 that a port's peer breaks. Of two modules of which one is below the other's WCL, that one refuses. -/
def checkReason (s : State) (x : Port) : Option Nat :=
  let a := levelMajor s.fwLevel
  let b := levelMajor x.peerLevel
  if b + 1 < a ∨ a + 1 < b then some Reason.levelGap
  else if a < x.peerWcl then some Reason.wclAhead
  else if x.peerPid = s.pid then some Reason.selfLoop
  else none

/-- An epoch heard: a higher one is taken, and the manager of a lower one is held no more (R328). -/
def takeEpoch (s : State) (e : Word) : State :=
  let f := s.porter.fab
  let f := if f.heard.toNat < e.toNat then { f with heard := e } else f
  if f.epoch.toNat < e.toNat then
    let gone := f.mgrPid.isSome && !f.elected
    let f := { f with epoch := e, mgrPid := if f.elected then f.mgrPid else none, changed := f.changed || gone }
    if gone then (s.modFab fun _ => f).fabIrq else s.modFab fun _ => f
  else s.modFab fun _ => f

/-- CHECK, left at once for ACTIVE or REFUSED. -/
def checkPort (s : State) (h : HallId) : State :=
  let x := s.port h
  match checkReason s x with
  | some r => portReport (s.modPort h fun p => { p with state := .refused, since := s.now, reason := r, jpv := 0 }) h 3
  | none =>
    let s := s.modPort h fun p =>
      { p with state := .active, since := s.now, reason := 0, jpv := min (levelMajor s.fwLevel) (levelMajor x.peerLevel) }
    let s := s.modPorter fun p => { p with flash := { p.flash with wcl := max p.flash.wcl x.peerWcl } }
    (portReport (takeEpoch s x.peerEpoch) h 2).publishDue

/-- HELLO (R318 to R320): a peer's HELLO is received. -/
def execHello (h : HallId) (p : FabPacket) (s : State) : Result :=
  .next <| mgmtIn s h p fun s =>
    let m := msgOf p
    let x := s.port h
    if !s.porterUp || !helloOk m then s
    else match x.state with
      | .hello => checkPort (s.modPort h fun p => p.withPeer m) h
      | .refused => if x.peerHello = some (helloBytes m) then s else checkPort (s.modPort h fun p => p.withPeer m) h
      | .active => s.modPort h fun p => p.withPeer m
      | _ => s

/-! ### Faults and the link layer (R321, R326) -/

/-- PORT_FAULT (R326). -/
def execPortFault (h : HallId) (_c : PortFaultCause) (s : State) : Result :=
  .next (if s.hallNet h then portRetrain s h else s)

/-- LINK_REPLAY (R321): the peer asks for replay from a link sequence number. -/
def execLinkReplay (h : HallId) (linkSeq : Nat) (s : State) : Result :=
  .next <|
    if s.hallNet h then
      (((s.port h).replay.filter fun q => linkSeq ≤ q.linkSeq).foldl (fun s q =>
        s.emit (.fab h { q.pkt with link := some { seq := q.linkSeq, ok := true } })) s)
    else s

/-- LINK_CONTROL_WORD (R321, R322): the peer has every packet up to `ackedSeq`, and returns credits; the port's own word goes
the other way (log entry 118). -/
def execLinkControlWord (h : HallId) (ackedSeq : Nat) (credits : List (Fin 24 × Nat)) (s : State) : Result :=
  .next <|
    let x := s.port h
    if !s.hallNet h || x.state == .down || x.trains then s
    else
      let s := s.modPort h fun p =>
        { p with replay := p.replay.filter fun q => ackedSeq < q.linkSeq
                 used := credits.foldl (fun t c => sset t c.1 (sget t 0 c.1 - c.2)) p.used, rxFree := [] }
      portDrain (s.port h).waitq.length (s.emit (.linkWord h (x.rxNext - 1) x.rxFree)) h

end Sys2Proof.Machine
end

