-- ==== Sys2Proof/Machine/Transfer.lean ====
section
/-! DEFINITION. Fabric commands and the transfer of a volume between modules (R335 to R337). -/

namespace Sys2Proof.Machine

/-! ### Command slots (Tables 11.8 and 11.9) -/

abbrev FabStatus.ok : Nat := 0x00
abbrev FabStatus.badCommand : Nat := 0x01
abbrev FabStatus.noId : Nat := 0x02
abbrev FabStatus.unreachable : Nat := 0x03
abbrev FabStatus.notManager : Nat := 0x04
abbrev FabStatus.badState : Nat := 0x05
abbrev FabStatus.volShape : Nat := 0x06
abbrev FabStatus.pfvUnknown : Nat := 0x07
abbrev FabStatus.noParkSpace : Nat := 0x08
abbrev FabStatus.timeout : Nat := 0x09
abbrev FabStatus.notArmed : Nat := 0x0A

/-- Kinds of FabCmd: the FCMD codes, and a volume command that waits for its volume (R335). -/
abbrev FabKind.mgmt : Nat := 1
abbrev FabKind.send : Nat := 2
abbrev FabKind.accept : Nat := 3
abbrev FabKind.waiting (k : Nat) : Nat := 16 + k

def slotAddr (s : State) (n : Nat) : Nat := s.fabArea + n * 64
def slotRec (s : State) (n : Nat) : Rec64 := s.record64 .park (slotAddr s n)

def fcCode (d : Rec64) : Nat := fld d 0 0 8
def fcNode (d : Rec64) : Nat := fld d 8 0 20
def fcRouted (d : Rec64) : Bool := fld d 8 20 1 == 1
def fcRoute (d : Rec64) : Nat := fld d 0x0C 0 32
def fcLocal (d : Rec64) : Nat := fld d 0x10 0 20
def fcPeer (d : Rec64) : Nat := fld d 0x14 0 20
def fcReq (d : Rec64) : Nat := fld d 0x18 0 32 + fld d 0x1C 0 8 * 2 ^ 32
def fcReqLen (d : Rec64) : Nat := fld d 0x1C 8 8
def fcRep (d : Rec64) : Nat := fld d 0x20 0 32 + fld d 0x24 0 8 * 2 ^ 32

/-- Reserved fields and the fields that a code requires to be zero. -/
def slotBad (d : Rec64) : Bool :=
  anySet d [(0, 8, 24), (8, 21, 11), (0x10, 20, 12), (0x14, 20, 12), (0x1C, 16, 16), (0x24, 8, 24), (0x28, 0, 64),
    (0x30, 9, 23), (0x38, 0, 64)]
  || !(1 ≤ fcCode d && fcCode d ≤ 3)
  || (if fcCode d = 1 then !fcRouted d && fcRoute d != 0 else fcRouted d || fcRoute d != 0)

/-- A fabric command completed: STATUS and RESULT, then DONE, then the interrupt (R337). -/
def fabDone (s : State) (n status result : Nat) : State :=
  let s := s.write .park (slotAddr s n + 0x34) (leBytes 4 result) false
  let s := s.write .park (slotAddr s n + 0x30) (leBytes 4 (status + 256)) false
  (s.modFab fun f => { f with cmds := sdel f.cmds n }).fabIrq

def State.fabCmd? (s : State) (n : Nat) : Option FabCmd := sfind s.porter.fab.cmds n
def State.setFabCmd (s : State) (n : Nat) (c : FabCmd) : State := s.modFab fun f => { f with cmds := sset f.cmds n c }

/-! ### MGMT_SEND -/

/-- A request read from its buffer: MTYPE 0x03 to 0x06 and the body. -/
def mgmtSend (s : State) (n : Nat) (d : Rec64) : State :=
  let b := s.read .park (fcReq d) (fcReqLen d)
  let mtype := (b.headD 0).toNat
  if fcReqLen d = 0 ∨ 225 < fcReqLen d ∨ mtype < 3 ∨ 6 < mtype ∨ (fcRouted d = false ∧ nodeHall (fcNode d) ≠ 15) then
    fabDone s n FabStatus.badCommand 0
  else if fcRouted d = false ∧ s.porter.fab.moduleId = 0xFFFF then fabDone s n FabStatus.noId 0
  else
    let t := s.porter.fab.token + 1
    let s := (s.modFab fun f => { f with token := t }).setFabCmd n { kind := FabKind.mgmt, start := s.now, token := t }
    if fcRouted d then
      steer s 0 false (mgPacket s.porterNode linkLocalNode 0 0 (mkMgmt s mtype true (fcRoute d) 0xFFFFFFFF t (b.drop 1)))
    else sendTable s (fcNode d) (mkMgmt s mtype false 0 0 t (b.drop 1))

/-! ### Device streams -/

/-- Streams that carry a transfer, and its answer (log entry 32). -/
abbrev deviceStream : Nat := 48
abbrev answerStream : Nat := 49

/-- Number of a hall's device stream from one node. -/
def deviceRx (src stream : Nat) : Nat := (src + 1) * 64 + stream

/-- CREDITS of a hall's enabled streams but one, the device's own among them (R313). -/
def otherCredits (s : State) (h i : Nat) : Nat :=
  (((s.hall h).rx.filter fun q => q.1 != i && q.2.en).map fun q => q.2.credits).sum

/-- A device stream set up for one node: 64 units, or what the receive pool has left (R307, R313, log entry 32). -/
def openDevice (s : State) (h src stream : Nat) : State :=
  let k := deviceRx src stream
  let n := min 64 (2048 - otherCredits s h k)
  let r := s.rx h k
  if r.en then s.setRx h k { r with credits := max r.credits n }
  else s.setRx h k { en := true, credits := n, src := BitVec.ofNat 20 src }

/-- A device stream that no transfer uses any more gives its units back; it still acknowledges what is sent again. -/
def closeDevice (s : State) (h kind node stream : Nat) : State :=
  let k := deviceRx node stream
  let more := s.porter.fab.cmds.any fun q => q.2.kind == kind && q.2.node.toNat == node && (s.vol q.2.local_.toNat).home == h
  if more || !(s.rx h k).en then s else s.setRx h k { s.rx h k with credits := 0 }

/-! ### The source (R336, steps 1 and 3) -/

/-- Bytes of a transfer's preamble. -/
def preambleBytes (s : State) (v d : Nat) : List Byte :=
  let x := s.vol v
  let p := s.plan x.plan
  [p.layers, p.span, p.tpl, p.kvfmt, p.kvbytes, p.rowelems, p.lead, x.parkFmt, x.window.toNat, x.tokens.toNat,
    x.ckpt.toNat, x.pfv, x.leaves, v, d].flatMap fun n => leBytes 4 n

/-- Packets of one park copy, of the leaf entries, and of the whole transfer of volume `v`. -/
def copyPackets (s : State) (v : Nat) : Nat := ceilDiv (parkSize (s.planOf v) (s.vol v).parkFmt) 2048
def entryPackets (s : State) (v : Nat) : Nat := ceilDiv ((s.spine v).length * 8) 2048
def sendPackets (s : State) (v : Nat) : Nat := 1 + entryPackets s v + (s.spine v).length * copyPackets s v

/-- Packet `i` of the transfer: the preamble, the valid leaf entries, then each park copy in spine order as stored. -/
def sendPacket (s : State) (v d i : Nat) : List Byte × Bool :=
  let l := s.spine v
  if i = 0 then (preambleBytes s v d, false)
  else if i ≤ entryPackets s v then
    (((l.drop ((i - 1) * 256)).take 256).flatMap fun q => leBytes 8 q.2.toNat, false)
  else
    let j := i - 1 - entryPackets s v
    let n := copyPackets s v
    let e := (l.getD (j / n) (0, 0)).1
    let off := j % n * 2048
    let a := s.parkLeafAddr (shPloc (s.shadow v e)) + off
    let m := min 2048 (parkSize (s.planOf v) (s.vol v).parkFmt - off)
    (s.read .park a m, s.poisonedAt .park a m)

/-- A packet of a leaf's park copy is read through the home's vestibule (R274, R279). -/
def sendPass (s : State) (v i : Nat) : State :=
  if i ≤ entryPackets s v then s
  else
    let j := i - 1 - entryPackets s v
    let n := copyPackets s v
    let e := ((s.spine v).getD (j / n) (0, 0)).1
    let off := j % n * 2048
    tierPass s (s.vol v).home .park (s.parkAreaStart + shPloc (s.shadow v e) * 8192 + off)
      (min 2048 (parkSize (s.planOf v) (s.vol v).parkFmt - off)) .stream false

/-- Sends what a transfer's window admits. -/
def pumpSend : Nat → State → HallId → Nat → State
  | 0, s, _, _ => s
  | fuel + 1, s, h, n =>
    match s.fabCmd? n with
    | none => s
    | some c =>
      let v := c.local_.toNat
      let k := txKey c.node.toNat deviceStream
      if c.kind = FabKind.send ∧ (s.vol v).home = h.val ∧ c.left < sendPackets s v ∧ txAdmits s h k = true then
        let b := sendPacket s v c.peerVol.toNat c.left
        pumpSend fuel ((txData (sendPass s v c.left) h none none k b.1 b.2).setFabCmd n { c with left := c.left + 1 }) h n
      else s

/-- Sends what every transfer of hall `h` may send. -/
def pumpSends (s : State) (h : HallId) : State :=
  s.porter.fab.cmds.foldl (fun s q => pumpSend (sendPackets s q.2.local_.toNat) s h q.1) s

/-- A volume freed for other commands. -/
def releaseXfer (s : State) (v : Nat) : State := s.modJob v fun j => { j with xfer := false }

/-- VOL_SEND started. -/
def startSend (s : State) (n : Nat) (d : Rec64) : State :=
  let v := fcLocal d
  let h : HallId := Fin.ofNat 12 (s.vol v).home
  let c : FabCmd := { kind := FabKind.send, start := s.now, local_ := BitVec.ofNat 20 v, peerVol := BitVec.ofNat 20 (fcPeer d),
                      node := BitVec.ofNat 20 (fcNode d) }
  let s := openDevice ((s.setFabCmd n c).modJob v fun j => { j with xfer := true }) h (fcNode d) answerStream
  pumpSend (sendPackets s v) s h n

/-- A VOL_SEND ended with its destination's answer, or without one. -/
def endSend (s : State) (n : Nat) (c : FabCmd) (status result : Nat) : State :=
  closeDevice (fabDone (releaseXfer s c.local_.toNat) n status result) (s.vol c.local_.toNat).home FabKind.send c.node.toNat
    answerStream

/-- The VOL_SENDs of hall `h` over a sequence that was given up (R316, R336). -/
def sendGaveUp (s : State) (h : HallId) (k : Nat) : State :=
  if k % 64 ≠ deviceStream then s
  else s.porter.fab.cmds.foldl (fun s q =>
    if q.2.kind = FabKind.send ∧ q.2.node.toNat = k / 64 ∧ (s.vol q.2.local_.toNat).home = h.val then
      endSend s q.1 q.2 FabStatus.unreachable 0
    else s) s

/-- The destination's answer to a transfer: STATUS, the two volumes and the leaves moved. -/
def answerBytes (status src dst count : Nat) : List Byte :=
  leBytes 4 status ++ leBytes 4 src ++ leBytes 4 dst ++ leBytes 4 count

def takeAnswer (s : State) (from_ : Nat) (b : List Byte) : State :=
  match s.porter.fab.cmds.find? fun q => q.2.kind == FabKind.send && q.2.node.toNat == from_
      && q.2.local_.toNat == bodyNat b 4 4 && q.2.peerVol.toNat == bodyNat b 8 4 with
  | some (n, c) => endSend s n c (bodyNat b 0 4) (bodyNat b 12 4)
  | none => s

/-- What a device stream has received in order is handed out: answers to the VOL_SENDs they name; the contents of a
transfer reach the destination as VOL_TRANSFER_PREAMBLE and VOL_TRANSFER_LEAF. -/
def deviceData (s : State) (h k : Nat) : State :=
  let r := s.rx h k
  let n := (r.got - r.read).toNat
  let l := (List.range n).filterMap fun i => sfind r.buf (r.read + BitVec.ofNat 32 i).toNat
  let s := s.setRx h k { r with read := r.got, buf := r.buf.filter fun q => (r.got - BitVec.ofNat 32 q.1).toNat ≥ 2 ^ 31 }
  if k % 64 = answerStream then l.foldl (fun s b => takeAnswer s r.src.toNat b.1) s else s

/-! ### The destination (R335, R336) -/

/-- Sends an answer to the source of a transfer. -/
def sendAnswer (s : State) (h : HallId) (node status src dst count : Nat) : State :=
  txData s h none none (txKey node answerStream) (answerBytes status src dst count) false

def homeOf (s : State) (v : Nat) : HallId := Fin.ofNat 12 (s.vol v).home

/-- VOL_ACCEPT arms volume d. -/
def startAccept (s : State) (n : Nat) (d : Rec64) : State :=
  let v := fcLocal d
  let c : FabCmd := { kind := FabKind.accept, start := s.now, local_ := BitVec.ofNat 20 v, peerVol := BitVec.ofNat 20 (fcPeer d),
                      node := BitVec.ofNat 20 (fcNode d) }
  openDevice ((s.setFabCmd n c).modJob v fun j => { j with xfer := true }) (homeOf s v) (fcNode d) deviceStream

/-- Everything that an unfinished transfer reserved and wrote is freed: d stays PARKED and empty. -/
def clearTransfer (s : State) (c : FabCmd) : State :=
  let v := c.local_.toNat
  let p := s.planOf v
  let n := parkGranules p (s.vol v).parkFmt
  let s := { s with parkUsed := c.grans.foldl (fun t g => clearRun t g n) s.parkUsed }
  let s := (s.spine v).foldl (fun s q => ((s.freeEntry v q.2 (s.shadow v q.1)).setLeaf v q.1 0).setShadow v q.1 0) s
  let mine := s.pairs.filter fun q => q.1 / 512 == v
  let s := mine.foldl (fun s q => { s with spineUsed := clearRun s.spineUsed (q.2 - spineFirstPage) 2 }) s
  { s with pairs := s.pairs.filter fun q => q.1 / 512 != v }.recount v

/-- A VOL_ACCEPT ended without a volume; its source, if it has one, is told. -/
def failAccept (s : State) (n : Nat) (c : FabCmd) (status : Nat) (tell : Bool) : State :=
  let v := c.local_.toNat
  let s := closeDevice (fabDone (releaseXfer (clearTransfer s c) v) n status 0) (s.vol v).home FabKind.accept c.node.toNat
    deviceStream
  if tell then sendAnswer s (homeOf s v) c.node.toNat status c.peerVol.toNat v 0 else s

/-- The last binding: TOKENS, CKPT_TOKENS, LEAVES and PFV of the source; LAST_ELAPSED and LAST_PUC of the new home
(R353). VOL_ACCEPT completes, and then VOL_SEND. -/
def finishAccept (s : State) (n : Nat) (c : FabCmd) (pre : Word × Word × Nat × Nat) : State :=
  let v := c.local_.toNat
  let s := (s.recount v).sgenUp v false
  let s := s.modVol v fun x => { x with tokens := pre.1, ckpt := pre.2.1, pfv := pre.2.2.1, leaves := pre.2.2.2,
                                        lastElapsed := (s.hall x.home).elapsed, lastPuc := s.porter.powerup }
  let s := closeDevice (fabDone (releaseXfer s v) n FabStatus.ok pre.2.2.2) (s.vol v).home FabKind.accept c.node.toNat deviceStream
  sendAnswer s (homeOf s v) c.node.toNat FabStatus.ok c.peerVol.toNat v pre.2.2.2

/-- Runs of park granules for `k` leaves of `n` granules each. -/
def reserveRuns (n : Nat) : Nat → State → List Nat → Option (State × List Nat)
  | 0, s, l => some (s, l.reverse)
  | k + 1, s, l =>
    match s.freePark n with
    | none => none
    | some g => reserveRuns n k { s with parkUsed := markRun s.parkUsed g n } (g :: l)

/-- Whether a preamble's fields differ from the armed volume's (Table 5.7, PARK_FMT, WINDOW). -/
def shapeDiffers (s : State) (v : Nat) (p : XferPreamble) : Bool :=
  let x := s.vol v
  let q := s.plan x.plan
  q.layers != p.layers || q.span != p.span || q.tpl != p.tpl || q.kvfmt != p.kvfmt || q.kvbytes != p.kvbytes
    || q.rowelems != p.rowelems || q.lead != p.lead || x.parkFmt != p.parkFmt || x.window != p.window

/-- VOL_TRANSFER_PREAMBLE (R336, step 2). -/
def execVolTransferPreamble (p : XferPreamble) (s : State) : Result :=
  .next <|
    let v := p.dstVol.toNat
    let h := homeOf s v
    let armed := s.porter.fab.cmds.find? fun q => q.2.kind == FabKind.accept && q.2.pre.isNone && q.2.local_ == p.dstVol
      && q.2.peerVol == p.srcVol && q.2.node == p.srcNode
    if !s.porterUp || !s.hallUp h then s
    else match armed with
      | none => sendAnswer s h p.srcNode.toNat FabStatus.notArmed p.srcVol.toNat v 0
      | some (n, c) =>
        if shapeDiffers s v p then failAccept s n c FabStatus.volShape true
        else if pfvKnown s.fwMajor < p.pfv then failAccept s n c FabStatus.pfvUnknown true
        else
          let pre := (p.tokens, p.ckpt, p.pfv, p.leaves)
          match reserveRuns (parkGranules (s.planOf v) p.parkFmt) p.leaves s [] with
          | none => failAccept s n c FabStatus.noParkSpace true
          | some (t, l) =>
            let c := { c with pre := some pre, grans := l, left := p.leaves, start := s.now }
            if p.leaves = 0 then finishAccept t n c pre else t.setFabCmd n c

/-- A park copy received: written to its granules, its entry set TIER 1 with its shadow, in a binding (R231, R336). -/
def placeLeaf (s : State) (v idx fill g : Nat) (bytes : List Byte) (poison : Bool) : State :=
  let s := tierPass s (s.vol v).home .park (s.parkAreaStart + g * 8192) bytes.length .stream true
  let s := s.write .park (s.parkLeafAddr g) bytes poison
  let s := (s.setLeaf v idx (leafEntry 1 false false g (s.editGen v) fill)).setShadow v idx (shadowEntry true true g fill)
  s.sgenUp v false

/-- VOL_TRANSFER_LEAF (R336, step 4): a leaf's copy arrives; the last one is followed by the last binding. -/
def execVolTransferLeaf (v : VolId) (idx fill : Nat) (bytes : List Byte) (poison : Bool) (s : State) : Result :=
  .next <|
    let v' := v.toNat
    let p := s.planOf v'
    match s.porter.fab.cmds.find? fun q => q.2.kind == FabKind.accept && q.2.local_ == v && q.2.pre.isSome with
    | none => s
    | some (n, c) =>
      match c.pre, c.grans with
      | some pre, g :: l =>
        if !s.hallUp (homeOf s v') || p.layers * p.span ≤ idx || leV (s.leaf v' idx) || p.tpl < fill
            || bytes.length != parkSize p (s.vol v').parkFmt then s
        else match s.ensurePair v' idx with
          | none => failAccept s n c FabStatus.noParkSpace true
          | some t =>
            let t := placeLeaf t v' idx fill g bytes poison
            let c := { c with grans := l, left := c.left - 1, moved := c.moved + 1, start := s.now }
            if l.isEmpty then finishAccept t n c pre else t.setFabCmd n c
      | _, _ => s

/-- VOL_ACCEPT_TIMEOUT (R335): armed for 10 s without a sender; a transfer that falls silent for as long as a sender
tries (R316) has failed. -/
def execVolAcceptTimeout (slot : FabSlot) (s : State) : Result :=
  .next <|
    match s.fabCmd? slot with
    | none => s
    | some c =>
      if c.kind ≠ FabKind.accept then s
      else if c.pre.isNone then if s.passed c.start 10000000 then failAccept s slot c FabStatus.timeout false else s
      else if s.passed c.start 12700 then failAccept s slot c FabStatus.unreachable true else s

/-! ### Starting a command (R335, R337) -/

/-- Whether a volume command waits for its volume, as a descriptor would (R137). -/
def volBusyFor (s : State) (v : Nat) : Bool :=
  (s.vol v).state.transient || (s.job v).xfer || volLocked s v || !(volClaims s v fun _ _ => true).isEmpty
    || ((s.vol v).state != .free && !s.hallUp (s.vol v).home)

/-- Whether a volume breaks its command's condition. -/
def volUnfit (s : State) (v : Nat) (send : Bool) : Bool :=
  let x := s.vol v
  x.state != .parked || x.linked || x.fm || (s.job v).poisoned
    || (if send then (s.spine v).any fun q => leTier q.2 == 2 else x.tokens != 0 || x.leaves != 0)

/-- A volume command checked and started, or held until its volume is free. -/
def volCommand (s : State) (n : Nat) (d : Rec64) : State :=
  let v := fcLocal d
  let send := fcCode d == FabKind.send
  if s.porter.fab.moduleId = 0xFFFF then fabDone s n FabStatus.noId 0
  else if volBusyFor s v then s.setFabCmd n { kind := FabKind.waiting (fcCode d), start := s.now }
  else
    let s := if (s.vol v).state == .parked && spinePoisoned s v then faultVolume s v 2 else s
    if volUnfit s v send then fabDone s n FabStatus.badState 0
    else if send then startSend s n d else startAccept s n d

/-- A write of a slot's index to PRT_FABCMD_DB. A command that waits for its volume is tried again. -/
def fabDoorbell (s : State) (n : Nat) : State :=
  let d := slotRec s n
  match s.fabCmd? n with
  | some c => if c.kind = FabKind.waiting (fcCode d) then volCommand s n d else s
  | none =>
    if 16 ≤ s.porter.fab.cmds.length then s.modFab fun f => { f with full := true }
    else if slotBad d then fabDone s n FabStatus.badCommand 0
    else if fcCode d = FabKind.mgmt then mgmtSend s n d else volCommand s n d

/-- A doorbell for a slot that holds one kind of command. -/
def fabStart (s : State) (slot : FabSlot) (code : Nat) : State :=
  if s.running && fcCode (slotRec s slot) == code then fabDoorbell s slot else s

/-- VOL_SEND (R335, R336). -/
def execVolSend (slot : FabSlot) (s : State) : Result := .next (fabStart s slot FabKind.send)

/-- VOL_ACCEPT (R335). -/
def execVolAccept (slot : FabSlot) (s : State) : Result := .next (fabStart s slot FabKind.accept)

/-- MGMT_SEND (R337). -/
def execMgmtSend (slot : FabSlot) (s : State) : Result := .next (fabStart s slot FabKind.mgmt)

/-- MGMT_SEND_TIMEOUT (R337): no reply within 10 ms. -/
def execMgmtSendTimeout (slot : FabSlot) (s : State) : Result :=
  .next <|
    match s.fabCmd? slot with
    | some c =>
      if c.kind = FabKind.mgmt ∧ s.passed c.start 10000 = true then fabDone s slot FabStatus.unreachable 0 else s
    | none => s

/-- MGMT_REPLY (R329, R337): the reply's MTYPE and body go to the reply buffer. -/
def execMgmtReply (h : HallId) (p : FabPacket) (s : State) : Result :=
  .next <| mgmtIn s h p fun s =>
    let m := msgOf p
    match s.porter.fab.cmds.find? fun q => q.2.kind == FabKind.mgmt && q.2.token == mgToken m with
    | none => s
    | some (n, _) =>
      if !s.porterUp || mgBad m || mgType m < 0x80 || 224 < m.body.length then s
      else
        let b := BitVec.ofNat 8 (mgType m) :: m.body
        let st := if mgType m = 0x83 ∧ m.body.length = 208 then FabStatus.ok else (m.body.headD 0).toNat
        fabDone (s.write .park (fcRep (slotRec s n)) b false) n st b.length

end Sys2Proof.Machine
end

