-- ==== Sys2Proof/Machine/NearMem.lean ====
section
/-! DEFINITION. The near-memory path and controller: FETCH and STORE, ordinary accesses, layouts and scrubbing
(chapters 2, 4 and 14). -/

namespace Sys2Proof.Machine

/-! ### FETCH and STORE (R54, R55) -/

/-- Rows copied between the SRAM and a column. With poison in any line read, every line of the destination range is
marked (R40, log entry 19). -/
def moveRows (s : State) (src : Region) (sa sstride : Nat) (dst : Region) (da dstride rows len : Nat) : State × Bool :=
  let p := s.rowsPoisoned src sa rows sstride len
  let s := (List.range rows).foldl (fun t i =>
    t.write dst (da + i * dstride) (t.read src (sa + i * sstride) len) p) s
  (if p then s.poisonRange dst da (da + (rows - 1) * dstride + len) else s, p)

/-- When each bank that a column range touches was last accessed. -/
def touchBanks (s : State) (h sw a n : Nat) : State :=
  s.modStair h sw fun x =>
    { x with lastAccess := (unitsOf (.column h sw) a n).foldl (fun t u =>
        let b := bankOf (u / 65536)
        if landedAt x u then sset t (u / 65536 % 12 * 4 + b) s.now
        else (List.range 12).foldl (fun t l => if l / 2 = u / 256 % 6 then t else sset t (l * 4 + b) s.now) t) x.lastAccess }

/-- Runs the oldest READY op of a kind of queue `q` on the near-memory path. It waits while a landing command holds its
column range (R121). -/
def nearPath (s : State) (h sw q kind : Nat) : State :=
  if !s.swRuns h sw then s
  else
    let x := s.queue h sw q
    match x.find fun t => t.state == .ready && opKind t.op == kind with
    | none => s
    | some i =>
      match x.strands[i]? with
      | none => s
      | some t =>
        let d := t.op
        let c := x.col.getD sw
        let fetch := kind == 0x03
        let lo := fCol d
        let n := (fRows d - 1) * fColStride d + fBytes d
        if x.col.isSome && !s.colServed h c then settle (strandFail s h sw q i Status.unitFenced)
        else if !s.colRange h c lo n then settle (strandFail s h sw q i Status.badRange)
        else if s.colHeld h c lo n (!fetch) then s
        else
          let r := if fetch then
              moveRows s (.column h c) lo (fColStride d) (.sram h sw) (fSram d) (fSramStride d) (fRows d) (fBytes d)
            else moveRows s (.sram h sw) (fSram d) (fSramStride d) (.column h c) lo (fColStride d) (fRows d) (fBytes d)
          let s := touchBanks r.1 h c lo n
          let s := if r.2 then notePoison s x.step 0x3FFFF else s
          strandDone s h sw q i

/-- FETCH (R55). -/
def execFetch (h : HallId) (sw : SwId) (q : QueueId) (s : State) : Result := .next (nearPath s h sw q 0x03)

/-- STORE (R55). -/
def execStore (h : HallId) (sw : SwId) (q : QueueId) (s : State) : Result := .next (nearPath s h sw q 0x04)

/-! ### Ordinary accesses by a core (R91, R104, R121) -/

/-- NEAR_LINE_REQUEST (R121): a core's access through the near aperture. A poisoned load is an access fault marked as a
hardware error, and is logged (Table 14.3). -/
def execNearLineRequest (h : HallId) (sw : SwId) (r : LineReq) (s : State) : Result :=
  .next <|
    if !s.colServed h sw || !s.colRange h sw r.addr r.len then s.emit (.accessFault false)
    else if s.colHeld h sw r.addr r.len r.write.isSome then s
    else
      let s := touchBanks s h sw r.addr r.len
      match r.write with
      | some b =>
        if b.length = r.len then s.write (.column h sw) r.addr b r.poison else s
      | none =>
        if s.poisonedAt (.column h sw) r.addr r.len then
          let e : ErrInfo := { source := if landedAt (s.stair h sw) r.addr then .nearLanded else .nearStriped,
                               class_ := Class.uncorrectable, hall := h, unit := sw, layer := r.addr / 65536 % 12,
                               addr := r.addr }
          ((s.logError e).logEvent 0x10 0 r.core 0).emit (.accessFault true)
        else s.emit (.readData (s.read (.column h sw) r.addr r.len))

/-! ### Layouts (R95) -/

/-- Regions whose layout a request changes. -/
def layoutChange (x : Stairwell) (want : BitVec 3) : BitVec 3 := x.landed ^^^ want

/-- Whether a plan's SLOT_RESERVE counts on slots of the changing regions (log entry 20). -/
def reserveNeeds (s : State) (h sw n : Nat) (p : Plan) (ch : BitVec 3) : Bool :=
  let free := countN 2400 fun k => s.slotFree h sw k && !ch.getLsbD (slotRegion k)
  free < p.slotRes - s.slotsOfPlan h sw n + s.reservedByOthers h sw n

/-- Whether a change of layout is refused (R95). A column whose adopter is chosen counts as adopted also before its adoption is
complete (DESIGN CHOICE, log entry 124). -/
def layoutRefused (s : State) (h sw : Nat) (ch : BitVec 3) : Bool :=
  let x := s.stair h sw
  let k := swKey h sw
  anyN 12 (fun l => anyN 4 fun b => (s.landing h sw l).bank b != .ordinary)
  || x.adopted || x.adopter.isSome
  || s.slots.any (fun q => q.1 / 2400 == k && ch.getLsbD (slotRegion (q.1 % 2400)))
  || s.plans.any fun p =>
      (p.2.data.any fun d => d.hall.val == h && d.sw.val == sw && d.len != 0 &&
        anyN 3 fun r => ch.getLsbD r && d.addr < (r + 1) * 2 ^ 26 && r * 2 ^ 26 < d.addr + d.len)
      || (p.2.placements.any fun e => e.hall.val == h && e.sw.val == sw && (e.count != 0 &&
          (anyN 3 fun r => ch.getLsbD r && e.colOps < (r + 1) * 2 ^ 26 && r * 2 ^ 26 < e.colOps + 64 * e.count)
          || (ch &&& p.2.regions) != 0 || (p.2.slotRes != 0 && reserveNeeds s h sw p.1 p.2 ch)))

/-- A write to MEM_LAYOUT of the stairwell that MEM_LAYOUT_SEL names. APPLY while BUSY is refused; R95's list has no such
case (DESIGN CHOICE, log entry 124). -/
def layoutWrite (s : State) (h : HallId) (w : Word) : State :=
  let sw := (s.hall h).regs.laySel
  let want : BitVec 3 := BitVec.ofNat 3 (bits w 2 0)
  let s := s.modStair h sw fun x => { x with layWant := want, layRefused := x.layRefused && !bitAt w 6 }
  if !bitAt w 4 then s
  else
    let x := s.stair h sw
    let ch := layoutChange x want
    if x.layBusy || layoutRefused s h sw ch then s.setStair h sw { x with layRefused := true }
    else if ch = 0 then s
    else s.setStair h sw { x with layBusy := true, layChange := ch }

/-- LAYOUT_APPLY (R95). -/
def execLayoutApply (h : HallId) (w : Word) (s : State) : Result := .next <| s.hallWrite h fun s => layoutWrite s h w

/-- Bytes of a changing region of a column: the staging blocks apart (R95). -/
def inChange (ch : BitVec 3) (a : Nat) : Bool :=
  ch.getLsbD (a / 2 ^ 26) && !(2400 ≤ a / 65536 && a / 65536 < 2424)

/-- LAYOUT_REINIT_DONE (R95): the changing regions hold zeros with valid codes. -/
def execLayoutReinitDone (h : HallId) (sw : SwId) (s : State) : Result :=
  .next <|
    let x := s.stair h sw
    if x.layBusy then
      let n := (Region.column h sw).number
      let hit := fun (k : Nat) => k % 8192 == n && inChange x.layChange (k / 8192)
      { s with mem := s.mem.filter fun c => !hit c.1
               poison := s.poison.filter fun c => !hit c.1 }.setStair h sw
        { x with layBusy := false, layChange := 0, landed := x.landed ^^^ x.layChange }
    else s

/-! ### Scrubbing (R386 to R388) -/

/-- Layer and bank pairs of a line. -/
def lineBanks (x : Stairwell) (a : Nat) : List (Nat × Nat) :=
  let b := bankOf (a / 65536)
  if landedAt x a then [(a / 65536 % 12, b)]
  else (List.range 12).filterMap fun l => if l / 2 = a / 256 % 6 then none else some (l, b)

/-- Whether a scrub step may be issued to a line now (R386). -/
def scrubReady (s : State) (h sw : Nat) : Bool :=
  let x := s.stair h sw
  (s.hall h).regs.scrubEn && s.colServed h sw && !x.layBusy
  && (match x.lastScrub with
    | some t => s.passed t (if x.fenced then 8 else 2)
    | none => true)
  && (lineBanks x x.scrubAddr).all fun q =>
    let l := s.landing h sw q.1
    l.bank q.2 == .ordinary && sget l.postponed 0 q.2 == 0 &&
      match sfind x.lastAccess (q.1 * 4 + q.2) with
      | some t => s.passed t 1
      | none => true

/-- SCRUB_LAP, SCRUB_CUR and SLOW of a hall (R387), in ms, over the columns that a controller scrubs (log entry 125). -/
def scrubRegs (s : State) (h : Nat) : State :=
  let l := s.stairs.filter fun p => p.1 / 256 == h && p.2.colGood && s.colServed h (p.1 % 256)
  let lap := (l.map fun p => p.2.scrubMs).foldl max 0
  let cur := (l.map fun p => if p.2.lastScrub.isSome then (s.now - p.2.scrubBegin) / 100000 else 0).foldl max 0
  s.modRegs h fun g => { g with scrubLap := min lap (2 ^ 32 - 1), scrubCur := min cur (2 ^ 32 - 1)
                                scrubSlow := g.scrubSlow || g.lapLimit * 60000 < cur }

/-- SCRUB_STEP (R386): a line that cannot be corrected is written back poisoned. -/
def execScrubStep (h : HallId) (sw : SwId) (s : State) : Result :=
  .next <|
    if scrubReady s h sw then
      let x := s.stair h sw
      let r := Region.column h sw
      let s := if s.poisonedAt r x.scrubAddr 256 then s.setPoison r x.scrubAddr true else s
      let x := if x.lastScrub.isSome then x else { x with scrubBegin := s.now }
      let a := x.scrubAddr + 256
      let x := if a < columnEnd then { x with scrubAddr := a, lastScrub := some s.now }
        else { x with scrubAddr := 0, lastScrub := some s.now, scrubBegin := s.now, scrubMs := (s.now - x.scrubBegin) / 100000 }
      scrubRegs (s.setStair h sw x) h
    else s

/-- Units of the park tier that one controller scrubs in a lap (R388). -/
def parkLapUnits : Nat := 67108864

/-- PARK_SCRUB_STEP (R388): one unit per controller every 1 µs; the lap ends when every controller has ended its own. -/
def execParkScrubStep (ctl : Fin 12) (s : State) : Result :=
  .next <|
    let d := s.porter.host
    let due := match sfind d.pscrubLast ctl with
      | some t => s.passed t 1
      | none => true
    if d.pscrubEn && due then
      let d := if d.pscrubLast.isEmpty then { d with pscrubBegin := s.now } else d
      let n := sget d.pscrubAt 0 ctl + 1
      let d := { d with pscrubAt := sset d.pscrubAt ctl (min n parkLapUnits), pscrubLast := sset d.pscrubLast ctl s.now }
      let d := if allN 12 fun c => sget d.pscrubAt 0 c == parkLapUnits then
          { d with pscrubAt := [], pscrubLast := [], pscrubLap := min ((s.now - d.pscrubBegin) / 100000) (2 ^ 32 - 1) }
        else d
      s.modHost fun _ => d
    else s

end Sys2Proof.Machine
end

