-- ==== Sys2Proof/Machine/Dma.lean ====
section
/-! DEFINITION. The DMA engine: programs, shadow sets, MOVEs and their bursts (R261 to R273, R311, R312). -/

namespace Sys2Proof.Machine

/-! ### Request lines (Table 9.4) -/

/-- Lines that a PACE or a LINE may name. -/
def lineKnown (l : Nat) : Bool := l < 12 || l == 16 || l == 17 || l == 20 || l == 21 || l == 24

/-- Whether a packet of a stream waits, in order, to be read. -/
def rxWaits (s : State) (h i : Nat) : Bool :=
  let r := s.rx h i
  r.en && (sfind r.buf r.read.toNat).isSome

/-- The MOVE of a channel with a FABRIC side of the given kind that runs next: the one in progress, or the first in the program
from where it stands, or, after a LOOP back, from the program's start (log entry 25). -/
def fabMove (x : Chan) (src : Bool) : Option Rec32 :=
  let ok := fun (d : Rec32) => iCode d == 1 && (if src then mvSrcSpace d == 4 else mvDstSpace d == 4)
  match (x.move.map fun r => r.instr).filter ok with
  | some d => some d
  | none => (x.prog.drop x.pc ++ x.prog).find? ok

/-- Whether a line holds a request for a channel. Controllers, port B and the vestibule have room whenever a burst is
granted, since a burst is one command (log entry 26). -/
def lineHolds (s : State) (h : Nat) (x : Chan) (l : Nat) : Bool :=
  if l = 20 then (fabMove x false).any fun d => txAdmits s h (fabKey (mvDst d))
  else if l = 21 then (fabMove x true).any fun d => rxWaits s h (fabStream (mvSrc d))
  else if l = 16 ∨ l = 17 then s.porter.host.portbCxl
  else lineKnown l

/-! ### Checks (R264 to R267, R311) -/

def tierSide (d : Rec32) : Bool :=
  let t := fun c => c == 1 || c == 2
  t (mvSrcSpace d) || t (mvDstSpace d)

/-- A MOVE's field rules. -/
def moveStatus (d : Rec32) : Option Nat :=
  firstStatus
    (anySet d [(0, 24, 8), (4, 25, 7), (8, 48, 16), (0x10, 48, 16)]
      || (!mvPaced d && mvPace d != 0) || (!tierSide d && mvHint d != 0)
      || (mvTouch d && (mvDstSpace d != 0 || mvDst d != 0 || mvDstInc d != 0)))
    (4 < mvSrcSpace d || 4 < mvDstSpace d || mvHint d == 3 || (mvPaced d && !lineKnown (mvPace d))
      || (mvTouch d && (!(mvSrcSpace d == 1 || mvSrcSpace d == 2) || mvHint d != 1)))
    (mvLen d == 0 || 2 ^ 24 < mvLen d) false

/-- Bits that Table 9.3 names for an instruction. -/
def instrReserved (d : Rec32) : Bool :=
  match iCode d with
  | 0x02 => anySet d [(0, 8, 24), (4, 16, 16), (8, 12, 20), (0x0C, 0, 160)]
  | 0x03 =>
    if wtLineKind d then anySet d [(0, 9, 7), (0, 22, 10), (4, 0, 224)]
    else anySet d [(0, 9, 23), (4, 8, 24), (8, 16, 16), (0x10, 0, 128)] || (copKnown (wtCop d) && copReserved (wtCop d) (wtOperand d))
  | 0x04 => anySet d [(0, 8, 24), (4, 8, 24), (8, 16, 16), (0x10, 0, 128)]
      || (copKnown (wtCop d) && copReserved (wtCop d) (wtOperand d))
  | _ => anySet d [(0, 8, 248)]

def waitCops : List Nat := [0x11, 0x12, 0x22, 0x31]
def signalCops : List Nat := [0x10, 0x13, 0x20, 0x21, 0x32]

/-- An instruction's rules, at its index. Chapter 9 names no status for a COUNT or a BACK out of range, a ninth LOOP or a last
instruction that is not END: DESIGN CHOICE BAD_SHAPE, as for other counts out of range (log entry 27). -/
def instrStatus (i : Nat) (d : Rec32) : Option Nat :=
  match iCode d with
  | 0x01 => moveStatus d
  | 0x02 => firstStatus (instrReserved d) false (lpCount d == 0) (lpBack d == 0 || i < lpBack d)
  | 0x03 => firstStatus (instrReserved d)
      (if wtLineKind d then !lineKnown (wtLine d)
       else !waitCops.contains (wtCop d) || copBadOwner .dma (wtCop d) (wtOperand d)) false false
  | 0x04 => firstStatus (instrReserved d) (!signalCops.contains (wtCop d) || copBadOwner .dma (wtCop d) (wtOperand d)) false false
  | 0x0F => firstStatus (instrReserved d) false false false
  | _ => some Status.badEncoding

/-- The first failing instruction of a program: its index and status (R265). LOOP COUNT 0, BACK out of range, a ninth LOOP and a
last instruction other than END give BAD_SHAPE: chapter 9 names no status (DESIGN CHOICE, log entry 27). -/
def programFail (l : List Rec32) : Option (Nat × Nat) :=
  let own := (l.mapIdx fun i d => (i, d)).findSome? fun p =>
    match instrStatus p.1 p.2 with
    | some st => some (p.1, st)
    | none =>
      if iCode p.2 = 0x02 ∧ 8 ≤ ((l.take p.1).filter fun d => iCode d == 0x02).length then some (p.1, Status.badShape)
      else if p.1 + 1 = l.length ∧ iCode p.2 ≠ 0x0F then some (p.1, Status.badShape) else none
  own

/-- Bytes of the far tier (R283, R284). -/
def State.farBytes (s : State) : Nat :=
  let d := s.porter.host
  if d.portbCxl then (List.range 8).foldl (fun a e =>
    let z := sget d.fardecSize 0 e
    if bitAt z 31 then a + bits z 13 0 * gib else a) 0 else 0

/-- Whether a range meets the far leaf area. -/
def meetsFarArea (s : State) (a n : Nat) : Bool :=
  let lo := s.porter.host.farBase * gib
  decide (a < lo + s.porter.host.farSize * gib) && decide (lo < a + n)

/-- What a side of a software channel's MOVE meets: nothing, an error, or a hall in compute reset, which answers
TARGET_RESETTING (R303). -/
inductive SideCheck where
  | ok | bad (status : Nat) | later (h : Nat)
deriving DecidableEq, Repr

/-- Service of a stairwell's column to an ordinary access (R33, R264). -/
def columnSide (s : State) (h sw a n : Nat) : SideCheck :=
  if (s.hall h).state == .computeReset || (s.stair h sw).resetting then .later h
  else if !s.colServed h sw then .bad Status.unitFenced
  else if !s.colRange h sw a n then .bad Status.badRange
  else .ok

/-- A side checked against Table 9.1, R264 and R311. `own` is the channel's hall. -/
def sideCheck (s : State) (own sp a n : Nat) (write : Bool) (inc : Nat) : SideCheck :=
  match sp with
  | 0 =>
    if s.inHost a n then .ok
    else match nearPlace a with
      | some (h, sw, c) => columnSide s h sw c n
      | none => .bad Status.badRange
  | 1 =>
    if !write && s.parkAreaStart ≤ a && a + n ≤ s.parkAreaStart + s.parkAreaGranules * 8192 then .ok
    else .bad Status.badRange
  | 2 => if a + n ≤ s.farBytes && !(write && meetsFarArea s a n) then .ok else .bad Status.badRange
  | 3 =>
    let h := a / 2 ^ 44
    let sw := a / 2 ^ 36 % 256
    if 11 < h ∨ a / 2 ^ 22 % 2 ^ 14 ≠ 0 ∨ planSramEnd < a % 2 ^ 22 + n then .bad Status.badRange
    else if (s.hall h).state == .computeReset || (s.stair h sw).resetting then .later h
    else if s.swEnabled h sw then .ok else .bad Status.unitFenced
  | _ =>
    if inc ≠ 0 ∨ a % 2 ^ 22 ≠ 0 ∨ 48 ≤ fabStream a then .bad Status.badRange
    else if write then
      if 11 < nodeHall (a / 2 ^ 28) then .bad Status.badRange
      else if s.porter.fab.moduleId = 0xFFFF then .bad Status.dmaTargetFault else .ok
    else if a / 2 ^ 28 ≠ 0 ∨ own > 11 then .bad Status.badRange else .ok

/-- The error of a MOVE as it starts, or at a burst: status, space, side; or that it must be presented again. -/
def moveCheck (s : State) (h : Nat) (d : Rec32) (src dst n : Nat) : SideCheck × Nat × Nat :=
  let both := mvSrcSpace d == 4 && mvDstSpace d == 4
  let a := if both then .bad Status.badRange else sideCheck s h (mvSrcSpace d) src n false (mvSrcInc d)
  let b := if mvTouch d then .ok else sideCheck s h (mvDstSpace d) dst n true (mvDstInc d)
  match a, b with
  | .bad st, _ => (.bad st, mvSrcSpace d, 0)
  | _, .bad st => (.bad st, mvDstSpace d, 1)
  | .later g, _ => (.later g, 0, 0)
  | _, .later g => (.later g, 0, 0)
  | _, _ => (.ok, 0, 0)

/-! ### Starting and stopping (R261, R265, R268, R272) -/

/-- The MOVE in a DMA_START body. -/
def startMove (d : Rec64) : Rec32 := BitVec.ofNat 256 (d.toNat >>> 256)
def startAddr (d : Rec64) : Nat := fld d 0x0C 0 32 + fld d 0x10 0 8 * 2 ^ 32
def startCount (d : Rec64) : Nat := fld d 0x14 0 13

/-- A DMA_START's status before it is accepted, in R484's order: the fields of the channel's mode, then DMA_RESERVED, DMA_MODE
and DMA_BUSY (log entry 27). -/
def startStatus (s : State) (x : Chan) (d : Rec64) : Option Nat :=
  let other := if x.mode then startAddr d != 0 || startCount d != 0 || iCode (startMove d) != 1 else startMove d != 0
  let fields :=
    if anySet d [(8, 5, 27), (0x10, 8, 24), (0x14, 13, 19), (0x18, 0, 64)] then some Status.badReserved
    else if x.mode then if iCode (startMove d) = 1 then moveStatus (startMove d) else none
    else firstStatus false false (startCount d == 0 || 4096 < startCount d)
      (startAddr d % 32 != 0 || !s.inHost (startAddr d) (startCount d * 32))
  match fields with
  | some st => some st
  | none =>
    if 24 ≤ fld d 8 0 5 then some Status.dmaReserved
    else if !x.en || other then some Status.dmaMode
    else if x.mode || x.state == .idle then none else some Status.dmaBusy

/-- Whether a register set of a channel is idle. -/
def Chan.setIdle (x : Chan) (b : Bool) : Bool :=
  let used := fun (m : Option MoveRun) => m.any fun r => r.setB == b
  (if b then x.setB.isNone else x.setA.isNone) && !used x.move && !used x.tailMv

/-- A shadow MOVE loaded into an idle set, A first at channel start; none when both are loaded, or the
channel is STOPPING. -/
def loadSet (x : Chan) (d : Rec32) (c : Nat) : Option Chan :=
  if x.state = .stopping then none
  else if x.state = .idle then some { x with state := .running, setA := some (d, c), nextB := false }
  else
    -- sets alternate, so that the transfers run in load order
    if x.setIdle false then some { x with setA := some (d, c) }
    else if x.setIdle true then some { x with setB := some (d, c) } else none

/-- Whether an older DMA_START of the channel waits for a set. -/
def olderWaits (s : State) (h ch c : Nat) : Bool :=
  s.claims.any fun p => p.1 < c && p.2.hall.val == h && descOpcode p.2.desc == 0x40 && p.2.stage == .waiting
    && fld p.2.desc 8 0 5 == ch

/-- DMA_START (R265, R268). -/
def execDmaStart (c : Nat) (s : State) : Result :=
  .next <| withClaim s c 0x40 fun k =>
    let d := k.desc
    let h := k.hall
    let n := fld d 8 0 5
    let ch : ChId := Fin.ofNat 32 n
    let x := s.chan h ch
    if !s.hallUp h then s
    else match startStatus s x d with
      | some st => s.complete c h st (dmaPart 0 0 n false 0 0)
      | none =>
        if x.mode then
          if olderWaits s h n c then s.setStage c .waiting
          else match loadSet x (startMove d) c with
            | some x' => (s.setChan h ch x').setStage c .running
            | none => s.setStage c .waiting
        else
          let l := tab (startCount d) fun i => s.record32 .park (startAddr d + 32 * i)
          match programFail l with
          | some (i, st) => s.complete c h st (dmaPart 0 i n false 0 0)
          | none => (s.setChan h ch { x.idle with state := .running, prog := l, claim := some c }).setStage c .running

/-- DMA_STOP (R272): its record follows those of the transfers that it stops. -/
def execDmaStop (c : Nat) (s : State) : Result :=
  .next <| withClaim s c 0x41 fun k =>
    let n := fld k.desc 8 0 5
    let ch : ChId := Fin.ofNat 32 n
    if !s.hallUp k.hall then s
    else if !zeroFrom k.desc 8 5 then s.complete c k.hall Status.badReserved (stopPart n k.found)
    else if 24 ≤ n then s.complete c k.hall Status.dmaReserved (stopPart n k.found)
    else
      let x := s.chan k.hall ch
      match x.stop with
      | some e => (s.setStage c .running).setChan k.hall ch { x with stop := some { e with stops := e.stops ++ [(c, k.found)] } }
      | none =>
        if x.state = .idle then s.complete c k.hall Status.ok (stopPart n k.found)
        else stopChannel (s.setStage c .running) k.hall ch
          { status := Status.dmaStopped, other := Status.dmaStopped, stops := [(c, k.found)] }

/-- A write to DMA_CH_CFG, on the channel that DMA_CH_SEL names. -/
def dmaChCfg (s : State) (h : HallId) (w : Word) : State :=
  let c := (s.hall h).regs.chSel
  let x := s.chan h c
  if 24 ≤ c then s
  else if x.state ≠ .idle ∧ (bitAt w 0 ≠ x.mode ∨ bitAt w 1 ≠ x.prio) then s.setChan h c { x with err := true }
  else s.setChan h c { x with mode := bitAt w 0, prio := bitAt w 1, en := bitAt w 2, err := x.err && !bitAt w 3 }

/-- DMA_CH_CFG_WRITE (R261, R262). -/
def execDmaChCfgWrite (h : HallId) (w : Word) (s : State) : Result := .next <| s.hallWrite h fun s => dmaChCfg s h w

/-! ### Instructions (R266, R267) -/

/-- A MOVE with its increments added (R266). -/
def bumped (d : Rec32) : Rec32 :=
  let add := fun a i => (a + (if i < 2 ^ 31 then i else 2 ^ 48 - (2 ^ 32 - i))) % 2 ^ 48
  (d &&& ~~~(put 256 8 0 48 (2 ^ 48 - 1) ||| put 256 0x10 0 48 (2 ^ 48 - 1)))
    ||| put 256 8 0 48 (add (mvSrc d) (mvSrcInc d)) ||| put 256 0x10 0 48 (add (mvDst d) (mvDstInc d))

/-- What a channel asks of a hall in compute reset is to be presented again (R303). -/
def chanBackoff (s : State) (h : HallId) (ch : ChId) (g : Nat) : State :=
  let x := s.chan h ch
  (s.noteReset g).setChan h ch { x with back := some (Backoff.next s.now x.back) }

/-- Whether a channel may present a request: none of its own waits out a back-off (R303). -/
def Chan.presents (x : Chan) : Bool :=
  match x.back with
  | some b => b.due.isNone
  | none => true

/-- How a channel ends whose MOVE meets an error: a shadow transfer before it that has issued its last burst is complete. -/
def moveError (x : Chan) (status space side : Nat) (refused : Bool) : ChanStop :=
  { status := status, other := Status.dmaStopped, space := space, side := side, keep := if x.tailMv.isSome then 1 else 0,
    refused := refused }

/-- A MOVE checked and begun: `k` is the channel with it in progress. One that is refused leaves its destination as it is
(R264, R266). -/
def beginMove (s : State) (h : HallId) (ch : ChId) (d : Rec32) (k : Chan) : State :=
  match moveCheck s h d (mvSrc d) (mvDst d) (mvLen d) with
  | (.bad st, sp, side) => stopChannel (s.setChan h ch k) h ch (moveError k st sp side true)
  | (.later g, _, _) => chanBackoff s h ch g
  | (.ok, _, _) => s.setChan h ch { k with back := none }

/-- The next loaded set of a shadow channel begun. -/
def beginSet (s : State) (h : HallId) (ch : ChId) (x : Chan) : State :=
  let b := if x.nextB then x.setB.isSome else !x.setA.isSome && x.setB.isSome
  match (if b then x.setB else x.setA) with
  | some (d, c) =>
    let r : MoveRun := { instr := d, claim := some c, setB := b }
    let x := if b then { x with setB := none, nextB := false } else { x with setA := none, nextB := true }
    beginMove s h ch d { x with move := some r }
  | none => s

/-- The next MOVE of a channel begun, when it stands at one. -/
def nextMove (s : State) (h : HallId) (ch : ChId) : State :=
  let x := s.chan h ch
  if !s.hallUp h || x.state != .running || x.move.isSome || !x.presents then s
  else if x.mode then beginSet s h ch x
  else match x.instr with
    | some d =>
      if iCode d = 1 then beginMove s h ch d { x with prog := x.prog.set x.pc (bumped d), move := some { instr := d } } else s
    | none => s

/-- MOVE (R266, R269): it starts once the channel's previous MOVE has issued its last burst. -/
def execDmaMove (h : HallId) (ch : ChId) (s : State) : Result := .next (nextMove s h ch)

/-- LOOP (R266). -/
def execDmaLoop (h : HallId) (ch : ChId) (s : State) : Result :=
  .next <|
    let x := s.chan h ch
    match x.instr with
    | some d =>
      if s.hallUp h && x.state == .running && x.move.isNone && iCode d == 0x02 then
        let n := sget x.loops 0 x.pc
        if n < lpCount d then s.setChan h ch { x with loops := sset x.loops x.pc (n + 1), pc := x.pc - lpBack d }
        else s.setChan h ch { x with loops := sset x.loops x.pc 0, pc := x.pc + 1 }
      else s
    | none => s

/-- WAIT (R267): on a clasp, or until a line holds a request. -/
def execDmaWait (h : HallId) (ch : ChId) (s : State) : Result :=
  .next <|
    let x := s.chan h ch
    match x.instr with
    | some d =>
      if s.hallUp h && x.move.isNone && iCode d == 0x03 then
        if wtLineKind d then
          if x.state = .running ∨ x.state = .waiting then
            if lineHolds s h x (wtLine d) then s.setChan h ch { x with state := .running, pc := x.pc + 1 }
            else s.setChan h ch { x with state := .waiting }
          else s
        else if x.state = .running then
          settle (claspRequest s (.dma h ch) (wtCop d) (BitVec.ofNat 16 (wtClasp d)) (BitVec.ofNat 32 (wtOperand d)))
        else s
      else s
    | none => s

/-- What a draining channel does once every write is answered: its SIGNAL, or its END. -/
def drained (s : State) (h : HallId) (ch : ChId) : State :=
  let x := s.chan h ch
  match x.instr with
  | some d =>
    if x.state = .draining ∧ chanUnanswered s h ch = false then
      if iCode d = 0x04 then
        settle (claspRequest s (.dma h ch) (wtCop d) (BitVec.ofNat 16 (wtClasp d)) (BitVec.ofNat 32 (wtOperand d)))
      else (dmaRecord s h ch x.claim Status.ok x.bytes x.pc false 0 0).setChan h ch x.idle
    else s
  | none => s

/-- A SIGNAL or an END reached: it drains first (R267). -/
def startDrain (s : State) (h : HallId) (ch : ChId) (code : Nat) : State :=
  let x := s.chan h ch
  match x.instr with
  | some d =>
    if s.hallUp h && x.state == .running && x.move.isNone && iCode d == code then
      drained (s.setChan h ch { x with state := .draining }) h ch
    else s
  | none => s

/-- SIGNAL (R267). -/
def execDmaSignal (h : HallId) (ch : ChId) (s : State) : Result := .next (startDrain s h ch 0x04)

/-- END (R267). -/
def execDmaEnd (h : HallId) (ch : ChId) (s : State) : Result := .next (startDrain s h ch 0x0F)

/-! ### Bursts (R263, R269 to R271) -/

/-- Bytes of a burst (R263): up to the next 2 KiB boundary of each park or far side, else of the source; of a FABRIC
source, what its packet still holds. -/
def burstLen (s : State) (h : Nat) (r : MoveRun) : Nat :=
  let d := r.instr
  let left := mvLen d - r.issued
  let cut := fun a => 2048 - (a + r.issued) % 2048
  let t := fun c => c == 1 || c == 2
  let a := if t (mvSrcSpace d) then cut (mvSrc d) else 2048
  let b := if t (mvDstSpace d) && !mvTouch d then cut (mvDst d) else 2048
  let c := if !tierSide d && mvSrcSpace d != 4 then cut (mvSrc d) else 2048
  let p := if mvSrcSpace d = 4 then
      let x := s.rx h (fabStream (mvSrc d))
      ((sfind x.buf x.read.toNat).map fun q => q.1.length).getD 0
    else 2048
  min left (min (min a b) (min c p))

def tierOf (sp : Nat) : Option TierSpace := if sp = 1 then some .park else if sp = 2 then some .far else none

def hintOf (n : Nat) : Hint := if n = 1 then .keep else if n = 2 then .last else .stream

/-- Whether a burst on a side waits: for a landing (R121), for the stream's window or packet (R312). -/
def sideHeld (s : State) (h sp a n : Nat) (write : Bool) : Bool :=
  match sp with
  | 0 => match nearPlace a with
    | some (g, sw, c) => s.colHeld g sw c n write
    | none => false
  | 4 => if write then !txAdmits s h (fabKey a) else !rxWaits s h (fabStream a)
  | _ => false

/-- Whether a range of a side meets bytes of the channel whose write is not answered (R269). -/
def Chan.awaits (x : Chan) (sp a n : Nat) : Bool :=
  x.wrote.any fun w => w.space == sp && decide (w.addr < a + n) && decide (a < w.addr + w.len)

/-- Whether a channel's next burst may be granted. -/
def burstReady (s : State) (h : Nat) (x : Chan) : Bool :=
  match x.move with
  | some r =>
    let d := r.instr
    let n := burstLen s h r
    let at_ := fun sp a => if sp = 4 then a else a + r.issued
    let src := at_ (mvSrcSpace d) (mvSrc d)
    let dst := at_ (mvDstSpace d) (mvDst d)
    r.issued < mvLen d && x.presents && !sideHeld s h (mvSrcSpace d) src n false
      && (mvSrcSpace d == 4 || !x.awaits (mvSrcSpace d) src n)
      && (mvTouch d || (!sideHeld s h (mvDstSpace d) dst n true && (mvDstSpace d == 4 || !x.awaits (mvDstSpace d) dst n)))
      && (!mvPaced d || lineHolds s h x (mvPace d))
  | none => false

/-- Whether a channel has a burst to be granted now. -/
def burstOk (s : State) (h c : Nat) : Bool :=
  let x := s.chan h c
  (x.state == .running || x.state == .draining || x.state == .waiting) && burstReady s h x

/-- The channel that is granted the next burst (R271): the high priority first, round robin within each priority. -/
def burstPick (s : State) (h : Nat) : Option Nat :=
  match rrNext 32 (s.hall h).dmaLastHi fun c => (s.chan h c).prio && burstOk s h c with
  | some c => some c
  | none => rrNext 32 (s.hall h).dmaLast fun c => !(s.chan h c).prio && burstOk s h c

/-- A packet's bytes read from a receive stream: the packet is read when its last byte is. -/
def rxTake (s : State) (h i n : Nat) : State × List Byte × Bool :=
  let r := s.rx h i
  match sfind r.buf r.read.toNat with
  | none => (s, [], false)
  | some (b, p) =>
    let r' := if b.length ≤ n then { r with buf := sdel r.buf r.read.toNat, read := r.read + 1 }
      else { r with buf := sset r.buf r.read.toNat (b.drop n, p) }
    (s.setRx h i r', b.take n, p)

/-- A side of a burst passes through the hall's vestibule, or is counted for the park tier where it lies in the host
reservation (R274, R279). -/
def sidePass (s : State) (h sp a n : Nat) (hint : Hint) (write : Bool) : State :=
  match tierOf sp with
  | some t => tierPass s h t a n hint write
  | none => if sp = 0 ∧ s.inHost a n = true then hostPass s a n else s

/-- The data of one burst moved. -/
def burstMove (s : State) (h : HallId) (ch : ChId) (r : MoveRun) (src dst n : Nat) : State :=
  let d := r.instr
  let hint := hintOf (mvHint d)
  let s := sidePass s h (mvSrcSpace d) src n hint false
  if mvTouch d then s
  else
    let s := sidePass s h (mvDstSpace d) dst n hint true
    if mvSrcSpace d = 4 then
      let t := rxTake s h (fabStream src) n
      let w := sidePlace s (mvDstSpace d) dst
      t.1.write w.1 w.2 t.2.1 t.2.2
    else
      let a := sidePlace s (mvSrcSpace d) src
      if mvDstSpace d = 4 then txData s h (some ch) r.claim (fabKey dst) (s.read a.1 a.2 n) (s.poisonedAt a.1 a.2 n)
      else
        let w := sidePlace s (mvDstSpace d) dst
        s.copyBeats a.1 a.2 w.1 w.2 n

/-- A write added to those that are not answered; it continues the newest where it follows it. -/
def noteWrite (w : DmaWrite) : List DmaWrite → List DmaWrite
  | v :: l =>
    if v.space = w.space ∧ v.addr + v.len = w.addr ∧ v.claim = w.claim then { v with len := v.len + w.len } :: l else w :: v :: l
  | [] => [w]

/-- A channel after a burst of its MOVE: past the last one, a program goes on, and a shadow transfer leaves only its answers
awaited. -/
def burstDone (x : Chan) (r : MoveRun) (dst n : Nat) : Chan :=
  let d := r.instr
  let w := if mvTouch d ∨ mvDstSpace d = 4 then x.wrote
    else noteWrite { space := mvDstSpace d, addr := dst, len := n, claim := r.claim } x.wrote
  let r := { r with issued := r.issued + n }
  let x := { x with wrote := w, back := none }
  if r.issued < mvLen d then { x with move := some r }
  else if x.mode then
    if x.tailMv.isNone then { x with move := none, tailMv := some r } else { x with move := some r }
  else { x with move := none, bytes := x.bytes + r.issued, pc := x.pc + 1 }

/-- One burst of a channel's MOVE. -/
def burstOne (s : State) (h : HallId) (ch : ChId) : State :=
  let x := s.chan h ch
  match x.move with
  | none => s
  | some r =>
    let d := r.instr
    let n := burstLen s h r
    let src := if mvSrcSpace d = 4 then mvSrc d else mvSrc d + r.issued
    let dst := if mvDstSpace d = 4 then mvDst d else mvDst d + r.issued
    match moveCheck s h d src dst n with
    | (.bad st, sp, side) => stopChannel s h ch (moveError x st sp side false)
    | (.later g, _, _) => chanBackoff s h ch g
    | (.ok, _, _) => (burstMove s h ch r src dst n).setChan h ch (burstDone x r dst n)

/-- DMA_BURST (R271): one burst of the channel that the engine grants. A burst is one command, so no other pre-empts it. -/
def execDmaBurst (h : HallId) (s : State) : Result :=
  .next <|
    if !s.hallUp h then s
    else match burstPick s h with
      | none => s
      | some c =>
        burstOne (s.modHall h fun y => if (s.chan h c).prio then { y with dmaLastHi := c } else { y with dmaLast := c }) h
          (Fin.ofNat 32 c)

/-- What a channel asked of a hall in reset presented again, once its interval has passed (R303). -/
def chanRepresent (s : State) (h : HallId) (ch : ChId) : State :=
  let x := s.chan h ch
  match x.back with
  | some b =>
    if s.hallUp h && b.ready s.now then
      let s := s.setChan h ch { x with back := some { b with due := none } }
      if x.move.isNone then nextMove s h ch else if burstOk s h ch then burstOne s h ch else s
    else s
  | none => s

/-- The record of a shadow transfer that is complete, and what the channel does next. -/
def shadowDone (s : State) (h : HallId) (ch : ChId) (x : Chan) (r : MoveRun) : State :=
  let s := dmaRecord s h ch r.claim Status.ok r.issued 0 r.setB 0 0
  let x := { x with wrote := x.wrote.filter fun w => w.claim != r.claim }
  let up := match x.move with
    | some m => if mvLen m.instr ≤ m.issued then { x with move := none, tailMv := some m } else { x with tailMv := none }
    | none => { x with tailMv := none }
  if up.move.isNone && up.tailMv.isNone && up.setA.isNone && up.setB.isNone then s.setChan h ch up.idle
  else s.setChan h ch up

/-- DMA_WRITES_ANSWERED (R267, R269): the writes to memory that a channel has issued are answered, those of the oldest
transfer in shadow mode; those to FABRIC are once an ACK covers them. -/
def execDmaWritesAnswered (h : HallId) (ch : ChId) (s : State) : Result :=
  .next <|
    let x := s.chan h ch
    if !s.hallUp h then s
    else if x.mode then
      match x.tailMv with
      | some r =>
        if txBytes s h (fun q => q.ch == some ch && q.claim == r.claim) = 0 then shadowDone s h ch x r
        else s.setChan h ch { x with wrote := x.wrote.filter fun w => w.claim != r.claim }
      | none => s.setChan h ch { x with wrote := [] }
    else drained (s.setChan h ch { x with wrote := [] }) h ch

end Sys2Proof.Machine
end

