-- ==== Sys2Proof/Machine/Vestibule.lean ====
section
/-! DEFINITION. The vestibule's commands: accesses, recalls and maintenance (R274 to R278). -/

namespace Sys2Proof.Machine

/-- Whether a range lies in the park device share or in the far tier. -/
def tierRange (s : State) (sp : TierSpace) (a n : Nat) : Bool :=
  match sp with
  | .park => a + n ≤ s.deviceShare
  | .far => a + n ≤ s.farBytes

/-- VEST_ACCESS (R274): an access by a DMA channel or an usher of hall `h`. -/
def execVestAccess (h : HallId) (r : VestReq) (s : State) : Result :=
  .next <|
    if s.hallNet h && tierRange s r.space r.addr r.len then
      match r.write with
      | none => (tierPass s h r.space r.addr r.len r.hint false).emit (.readData (tierRead s r.space r.addr r.len))
      | some b =>
        if b.length = r.len then tierWrite (tierPass s h r.space r.addr r.len r.hint true) r.space r.addr b r.poison else s
    else s

/-- VEST_RECALL (R276): the directory recalls the lines of one unit before a read or write of `by_`, or of a requester
that is no hall. -/
def execVestRecall (space : TierSpace) (unit : Nat) (by_ : Option HallId) (write whole : Bool) (s : State) : Result :=
  .next (vestOthers s (by_.map fun h => h.val) (vestKey space unit) write whole)

/-- Whether a line lies in the range of a maintenance operation (R278). -/
def inMaint (g : HallRegs) (k : Nat) : Bool :=
  let sp := if bitAt g.maintHi 16 then 1 else 0
  let first := bits g.maintLo 31 11 + bits g.maintHi 15 0 * 2 ^ 21
  g.maintLen = 0 || (k % 2 == sp && first ≤ k / 2 && k / 2 < first + g.maintLen.toNat)

/-- Every line of a hall's vestibule that `sel` selects written back and invalidated. -/
def vestEvict (s : State) (h : Nat) (sel : Nat → Bool) : State :=
  ((skeys (s.hall h).vest fun k _ => sel k).foldl (fun s k => vestDrop s h k true) s)

/-- Starts a maintenance operation, unless one runs. -/
def startMaint (s : State) (h op : Nat) (run : State → State) : State :=
  if (s.hall h).regs.vestBusy then s.modRegs h fun g => { g with vestErr := true }
  else run (s.modRegs h fun g => { g with vestBusy := true, maintOp := op })

/-- An EVICT started (R278). -/
def evictRange (s : State) (h : Nat) : State := startMaint s h 1 fun s => vestEvict s h (inMaint (s.hall h).regs)

/-- An UNKEEP started (R278). -/
def unkeepRange (s : State) (h : Nat) : State :=
  startMaint s h 2 fun s => s.modHall h fun x =>
    { x with vest := x.vest.map fun p =>
        if p.2.keep && inMaint x.regs p.1 then (p.1, { p.2 with keep := false, first := true }) else p }

/-- EVICT (R278): a write of 1 to VEST_MAINT_CMD.OP. -/
def execEvict (h : HallId) (s : State) : Result := .next (s.hallWrite h fun s => evictRange s h)

/-- UNKEEP (R278): a write of 2 to VEST_MAINT_CMD.OP. -/
def execUnkeep (h : HallId) (s : State) : Result := .next (s.hallWrite h fun s => unkeepRange s h)

/-- VEST_MAINT_DONE (R278). -/
def execVestMaintDone (h : HallId) (s : State) : Result :=
  .next (if s.hallNet h then s.modRegs h fun g => { g with vestBusy := false, maintOp := 0 } else s)

end Sys2Proof.Machine
end

