-- ==== Sys2Proof/Machine/FenceOps.lean ====
section
/-! DEFINITION. Stopping and fencing units: stairwells, halls, ushers, slices, cores, layers, and a hall's network domain
(R125 to R130, R171, R218, R219, R229, R273, R346, R365, R389 to R393, R485). -/

namespace Sys2Proof.Machine

/-! ### Landings and stairwells stopped (R125) -/

/-- The destination ranges of the command that a landing runs are undefined once it stops. -/
def freeLanding (s : State) (h sw l : Nat) : State :=
  let x := s.landing h sw l
  match x.queue with
  | .cmd d kv _ :: _ =>
    if lKnown (lOp d) && (landBanks d kv).all fun b => x.bank b == .landing || x.bank b == .leaving then
      (landRanges d kv).foldl (fun (s : State) (r : LandRange) =>
        if r.wr then s.freeBytes (.column h sw) r.at_ (min r.len (columnEnd - r.at_)) else s) s
    else s
  | _ => s

/-- A landing after a compute reset or fence of its stairwell. -/
def Landing.stopped (x : Landing) : Landing := { retired := x.retired, failed := x.failed }

/-- Whether a step has work of its run at a stairwell: its board, a placement that runs, leaf work, or a merge hop. `gone`:
the stairwell does not come back, so that work still to be sent there is lost too. -/
def stepUses (s : State) (n : Nat) (x : Step) (h sw : Nat) (gone : Bool) : Bool :=
  let p := s.planOf x.vol.toNat
  ((p.boards[x.lane]?).any fun b => b.hall.val == h && b.sw.val == sw)
  || (x.phase == .run && (laneRuns p x).any fun q => q.2.1.hall.val == h && q.2.2 == sw)
  || ((s.stair h sw).items.any fun i => i.step == n)
  || (x.hops.any fun k => k.hall.val == h && k.sw.val == sw)
  || (gone && ((x.msgs.any fun m => m.hall.val == h && m.sw.val == sw) ||
      x.todo.any fun t => t.1.val == h && t.2.1.val == sw))

/-- Steps in progress that lose work when a stairwell stops (R199, R372). -/
def markLost (s : State) (h sw : Nat) (gone : Bool) : State :=
  { s with steps := s.steps.map fun p =>
      if p.2.phase != .lane && p.2.endable && stepUses s p.1 p.2 h sw gone then (p.1, { p.2 with lost := true }) else p }

/-- The SRAM of a stairwell zeroed. -/
def zeroSram (s : State) (h sw : Nat) : State :=
  let n := (Region.sram h sw).number
  { s with mem := s.mem.filter fun c => c.1 % 8192 != n
           poison := s.poison.filter fun c => c.1 % 8192 != n }

/-- A stairwell's compute stops: strands, queues, accumulator sets, leaf work and landing state are cleared, its waits are
withdrawn, and its column enters self-refresh. A reset zeroes its SRAM. -/
def stopStair (s : State) (h : HallId) (sw : Nat) (gone zero : Bool) : State :=
  let s := markLost s h sw gone
  let s := (List.range 12).foldl (fun (s : State) (q : Nat) => withdraw s (.strand h (Fin.ofNat 256 sw) (Fin.ofNat 12 q))) s
  let s := (List.range 12).foldl (fun (s : State) (l : Nat) => (freeLanding s h sw l).modLanding h sw l Landing.stopped) s
  let s := s.modStair h sw fun x => { x with queues := [], acc := [], items := [], rows := [], pressLast := 9, vecLast := 9, selfRef := true }
  let s := netForget s h fun u => u == .stairwell (Fin.ofNat 256 sw)
  if zero then zeroSram s h sw else s

/-- Stairwells of a hall that the state lists. -/
def hallSws (s : State) (h : Nat) : List Nat := (skeys s.stairs fun k _ => k / 256 == h).map fun k => k % 256

/-! ### Soft map, records and replace causes -/

/-- A unit entered in the soft map (R363, R365): the new map goes to the older copy. When the map is full, or the flash
write fails, the unit is held for the power-up only, and a replace request is raised (R366). -/
def softAdd (s : State) (kind h unit cause : Nat) : State :=
  let m := s.porter.flash.softmap
  let same := fun (b : BadUnit) => b.kind == kind && b.hall == h && b.unit == unit
  if m.any same || s.porter.held.any same then s
  else
    let b : BadUnit := { kind := kind, hall := h, unit := unit, cause := cause, puc := s.porter.powerup }
    if m.length < 1024 ∧ Config.flashFails s.porter.flash.softSeq = false then s.modPorter fun p =>
      { p with flash := { p.flash with softmap := m ++ [b], softOld := m, softSeq := p.flash.softSeq + 1 } }
    else (s.modPorter fun p => { p with held := p.held ++ [b] }).replaceCause 8

/-- A unit entered with cause IN_SERVICE (R365). -/
def softEnter (s : State) (kind h unit : Nat) : State := softAdd s kind h unit 2

/-- The record of a fence (Table 14.1). -/
def fenceRecord (s : State) (h unit : Nat) : State :=
  s.logError { source := .fence, class_ := Class.fence, hall := h, unit := unit }

/-! ### Adoption (R126, R127, R130) -/

/-- Neighbours that a column is offered to: east, west, north, south. -/
def neighbours (p : Nat) : List Nat :=
  (if p % 16 < 15 then [p + 1] else []) ++ (if 0 < p % 16 then [p - 1] else []) ++ (if 16 ≤ p then [p - 16] else [])
    ++ (if p < 240 then [p + 16] else [])

/-- Whether a stairwell adopts, or is to adopt, a column. -/
def adoptsAny (s : State) (h a : Nat) : Bool :=
  s.stairs.any fun q => q.1 / 256 == h && q.2.adopter.any fun b => b.val == a

/-- Whether a stairwell holds a logical number and is not fenced, whatever its hall does. -/
def State.swGood (s : State) (h p : Nat) : Bool := (s.stair h p).assigned && !(s.stair h p).fenced

/-- The neighbour that adopts an orphan. -/
def adopterOf (s : State) (h p : Nat) : Option Nat := (neighbours p).find? fun a => s.swGood h a && !adoptsAny s h a

/-- The search of R126 for one orphan. -/
def searchOrphan (s : State) (h p : Nat) : State :=
  let x := s.stair h p
  if x.fenced && x.colGood && x.adopter.isNone then
    match adopterOf s h p with
    | some a => s.setStair h p { x with adopter := some (Fin.ofNat 256 a), adopted := false, adoptPub := false }
    | none => s
  else s

/-- Columns that a stairwell adopts or is to adopt: each is orphaned again. -/
def releaseAdopted (s : State) (h a : Nat) : State × List Nat :=
  let l := (skeys s.stairs fun k x => k / 256 == h && x.adopter.any fun b => b.val == a).map fun k => k % 256
  (l.foldl (fun (s : State) (p : Nat) =>
    let s := (List.range 12).foldl (fun (s : State) (i : Nat) =>
      (freeLanding s h p i).modLanding h p i Landing.stopped) s
    s.modStair h p fun x => { x with adopter := none, adopted := false, adoptPub := false, selfRef := true }) s, l)

/-! ### A stairwell fenced -/

/-- A running step's new blocks in lost places reserved anew; without room the step ends. -/
def retakeBlocks (s : State) (n : Nat) : State :=
  match s.step? n with
  | none => s
  | some x =>
    let l := x.blocks.filter fun b => s.placeLost b.res.hall b.res.sw
    if l.isEmpty then s
    else
      let s := l.foldl (fun (s : State) (b : NewBlock) => s.dropReserve x.vol.toNat b.res) s
      let s := s.modStep n fun y => { y with blocks := y.blocks.filter (fun b => !l.any fun c => c.idx == b.idx), lost := true }
      match takeBlocks n x.vol.toNat (l.map fun b => (b.layer, b.idx)) s with
      | .ok s => s
      | .error st => if x.endable then endStep s n st (0, 0, false) else s

/-- What the ushers do once a place is lost (R171, R393). -/
def settlePlaces (s : State) : State :=
  (settleAll s).steps.foldl (fun (s : State) (p : Nat × Step) => if s.hallUp p.2.home then retakeBlocks s p.1 else s) (settleAll s)

/-- Cause STAIRWELLS (R367). -/
def countStairs (s : State) (h : Nat) : State :=
  if countN 256 (fun p => s.swGood h p) < 240 then s.replaceCause 0 else s

/-- A stairwell fenced (R33, R125, R126, R130, R389). -/
def fenceStair (s : State) (h : HallId) (sw : Nat) (software : Bool) : State :=
  if (s.stair h sw).fenced then s
  else
    let s := (stopStair s h sw true false).modStair h sw fun x =>
      { x with fenced := true, fencedSw := software, resetting := false }
    let r := releaseAdopted s h sw
    let s := (sortBy id (sw :: r.2)).foldl (fun (s : State) (p : Nat) => searchOrphan s h p) r.1
    let s := if software then s else softEnter s 1 h sw
    settlePlaces (countStairs (fenceRecord s h sw).publishDue h)

/-! ### A hall's compute stopped -/

/-- Every channel of a hall IDLE, with no record (R273); the packets that the pool holds stay until they are answered
(R309). -/
def stopChannels (s : State) (h : HallId) : State :=
  (List.finRange 32).foldl (fun (s : State) (c : ChId) =>
    let x := s.chan h c
    if x.state = .idle then s
    else
      let refused := match x.stop with
        | some e => e.refused
        | none => false
      let s := (stopPairs s h c refused).foldl (fun (s : State) (k : Nat) => txStop s h k)
        (if x.state = .stopping then s else freeRest s h c)
      (txOrphan s h c).setChan h c (s.chan h c).idle) s

/-- Bindings as a hall's compute resets or is fenced: those before their commit point abort everywhere, and the hall loses
the prepared actions of the others (R229, R385). -/
def bindsLose (s : State) (h : HallId) : State :=
  s.binds.foldl (fun (s : State) (p : Nat × Binding) =>
    let b := p.2
    if !b.halls.elem h then s
    else match b.phase with
      | .prepare => bindFail s p.1 b Status.bindAborted none h
      | .prepared => bindFail s p.1 b Status.bindAborted none h
      | .apply => if b.applied.elem h then s else s.setBind p.1 { b with lostActs := b.lostActs ++ [h] }
      | _ => s) s

/-- The compute domain of a hall stops. -/
def stopHall (s : State) (h : HallId) (gone zero : Bool) : State :=
  let s := (hallSws s h).foldl (fun (s : State) (p : Nat) => stopStair s h p gone zero) s
  netForget (bindsLose (stopChannels s h) h) h NetUnit.compute

/-! ### Descriptors of a hall that stopped (R242, R485) -/

/-- Descriptors that complete as if nothing had happened: a forwarded BIND, and what the porter performs. -/
def outlives (k : Claim) : Bool :=
  k.stage == .forwarded || descOpcode k.desc == 0x01 || descOpcode k.desc == 0x02 || descOpcode k.desc == 0x50

/-- One descriptor completed with UNIT_FENCED or HALL_RESET. -/
def loseClaim (s : State) (c : Nat) (k : Claim) (status : Nat) : State :=
  s.complete c k.hall status (refusedPart s k.hall k.desc status k.found)

/-- Every claimed descriptor of a hall that does not outlive it. -/
def loseClaims (s : State) (h status : Nat) : State :=
  (s.claims.filter fun p => p.2.hall.val == h && !outlives p.2).foldl (fun (s : State) p => loseClaim s p.1 p.2 status) s

/-- A step whose home's compute is fenced: UNIT_FENCED; the volume stays as the table records it (R485). -/
def fencedStep (s : State) (n : Nat) (x : Step) : State :=
  let s := { dropItems s n with steps := sdel s.steps n }.endWaits x.claim
  let s := returnBlocks (quitLane s x) x
  unpin (stepRecord s x Status.unitFenced (x.home.val, 0, true)) n x

/-! ### A hall fenced -/

/-- Volume transfers whose volume is homed in a fenced hall end with UNREACHABLE (R336). -/
def loseTransfers (s : State) (h : HallId) : State :=
  s.porter.fab.cmds.foldl (fun (s : State) (q : Nat × FabCmd) =>
    if (s.vol q.2.local_.toNat).home != h.val then s
    else if q.2.kind = FabKind.send then endSend s q.1 q.2 FabStatus.unreachable 0
    else if q.2.kind = FabKind.accept then failAccept s q.1 q.2 FabStatus.unreachable q.2.pre.isSome
    else s) s

/-- Causes of a hall fence that enter the soft map (R365). -/
def softCause (cause : Nat) : Bool := cause == 3 || cause == 5

/-- How long a cause holds a hall: 0 until a warm reset (SOFTWARE, MICROCODE), 1 until a cold bring-up, 2 in the soft map
(R365). -/
def causeRank (cause : Nat) : Nat := if softCause cause then 2 else if cause = 4 ∨ cause = 6 then 0 else 1

/-- A hall whose compute is fenced already meets a cause that lasts longer (R346, R365): the hall takes that cause, enters
the soft map where the cause does, and is no longer a fence of software's. -/
def refence (s : State) (h : HallId) (cause : Nat) : State :=
  if causeRank (s.hall h).cause < causeRank cause then
    let s := s.modHall h fun x => { x with cause := cause }
    ((if softCause cause then softEnter s 6 h 0 else s).replaceCause 1).publishDue
  else s

/-- A hall's compute fenced with a cause of Table 1.9. Cause STAIRWELLS speaks of a hall whose own stairwells are fewer than
240 (R367): a hall fenced as a whole raises cause HALL alone, and none when software fences it (DEDUCED, log entry 108). -/
def fenceHall (s : State) (h : HallId) (cause : Nat) : State :=
  if s.hallFenced h then refence s h cause
  else
    let s := s.modHall h fun x => { x with state := .fenced, cause := cause, heldLost := false, reloading := false }
    let s := stopHall s h true false
    let s := (s.steps.filter fun p => p.2.home == h).foldl (fun (s : State) p => fencedStep s p.1 p.2) s
    let s := orphanLocks (loseClasps s h) h
    let s := loseTransfers (loseClaims s h Status.unitFenced) h
    let s := (skeys (s.hall h).vest fun _ _ => true).foldl (fun (s : State) (k : Nat) => vestClean s h k) s
    let s := if softCause cause then softEnter s 6 h 0 else s
    let s := if cause = 4 then s else s.replaceCause 1
    settle (settlePlaces (fenceRecord s h 0).publishDue)

/-! ### Other units -/

/-- Ushers of a hall in service. -/
def ushersLeft (s : State) (h : Nat) : Nat := popcount (s.hall h).ushersEn

/-- An usher fenced; with the last one the hall's compute is fenced (R21). -/
def fenceUsher (s : State) (h : HallId) (u : UsherId) (software : Bool) : State :=
  if !(s.hall h).ushersEn.getLsbD u then s
  else
    let s := s.modHall h fun x =>
      { x with ushersEn := x.ushersEn &&& ~~~(BitVec.ofNat 4 (2 ^ u.val))
               ushersSw := if software then x.ushersSw ||| BitVec.ofNat 4 (2 ^ u.val) else x.ushersSw }
    let s := if software then s else softEnter s 2 h u
    let s := (fenceRecord s h u).publishDue
    if ushersLeft s h = 0 then fenceHall s h 3 else s

/-- A vestibule slice retired: every line is written back and invalidated (R277). -/
def retireSlice (s : State) (h : HallId) (i : Nat) : State :=
  if (s.hall h).slicesOff.elem i then s
  else
    let s := vestEvict s h fun _ => true
    let s := s.modHall h fun x => { x with slicesOff := x.slicesOff ++ [i] }
    let s := (fenceRecord (softEnter s 3 h i) h i).publishDue
    if 96 - (s.hall h).slicesOff.length < 88 then s.replaceCause 10 else s

/-- An application core fenced. -/
def fenceCore (s : State) (c : Fin 24) : State :=
  if !s.porter.host.coresOn.getLsbD c then s
  else
    let s := s.modHost fun d => { d with coresOn := d.coresOn &&& ~~~(BitVec.ofNat 24 (2 ^ c.val)) }
    (fenceRecord (softEnter s 5 0 c) 0 c).publishDue.replaceCause 11

/-- A landing that fails in service fences its stairwell (R19, R129). -/
def fenceLanding (s : State) (h : HallId) (sw : SwId) (l : LayerId) : State :=
  fenceStair (s.modLanding h sw l fun x => { x with failed := true }) h sw false

/-- A landing of a lost layer retired; its windows' buffered writes are dropped with it, on which the spec is silent
(DESIGN CHOICE, log entry 109): its running command stops and its queued ones complete, all with LAYER_LOST; its
banks are ORDINARY (R99). -/
def retireLanding (s : State) (h sw l : Nat) : State :=
  (freeLanding s h sw l).modLanding h sw l fun x =>
    let x := x.commands.foldl (fun (x : Landing) (c : Rec64 × Nat) => x.doneWith c.1 Status.layerLost) { x with queue := [] }
    { x with bank0 := .ordinary, bank1 := .ordinary, bank2 := .ordinary, bank3 := .ordinary, retired := true, queue := [] }

/-- The twelve landings that a layer has in every column retired. -/
def retireLayer (s : State) (h l : Nat) : State :=
  (List.range 256).foldl (fun (s : State) (p : Nat) => retireLanding s h p l) s

/-- A DRAM layer declared lost (R99, R100). -/
def loseLayer (s : State) (h : HallId) (l : LayerId) : State :=
  if (s.hall h).layerLost.getLsbD l then s
  else
    let s := s.modHall h fun x => { x with layerLost := x.layerLost ||| BitVec.ofNat 12 (2 ^ l.val) }
    let s := (retireLayer s h l).logError { source := .layer, class_ := Class.uncorrectable, hall := h, layer := l }
    ((softEnter s 4 h l).replaceCause 2).publishDue

/-! ### A hall's network domain lost (R277, R346, R433) -/

/-- The vestibule's lines lost: units held dirty are poisoned in their tier and logged; clean lines are dropped. -/
def loseVest (s : State) (h : HallId) : State :=
  let dirty := skeys (s.hall h).vest fun _ l => l.dirty
  let s := dirty.foldl (fun (s : State) (k : Nat) =>
    let a := k / 2 * 2048
    let p := tierPlace s (keySpace k) a
    let s := (List.range 32).foldl (fun (s : State) (i : Nat) => s.setPoison p.1 (p.2 + 64 * i) true) s
    let s := if keySpace k = .far then s.emit (.portbPoison p.2) else s
    s.logError { source := .vest, class_ := Class.uncorrectable, hall := h, addr := match keySpace k with
      | .park => p.2
      | .far => a }) s
  s.modHall h fun x => { x with vest := [] }

/-- A hall's network domain lost: its compute is fenced, its vestibule, port and waiting packets are lost, and routes move
around it. -/
def loseNetwork (s : State) (h : HallId) : State :=
  if (s.hall h).netLost then s
  else
    let s := loseVest s h
    let s := s.modHall h fun x => { x with netLost := true, mesh := [], netSent := [], port := { x.port with replay := [], waitq := [] } }
    let s := portDown s h Reason.none_
    reroute (fenceHall s h 5)

end Sys2Proof.Machine
end

