-- ==== Sys2Proof/Machine/Publish.lean ====
section
/-! DEFINITION. The resource descriptor and its publication, and FENCE_UNIT (R28 to R33, R391, R392). -/

namespace Sys2Proof.Machine

/-! ### The resource descriptor (Tables 1.7 and 1.8) -/

/-- Halls in which `p` holds, as a bit map. -/
def hallMap (p : Nat → Bool) : Nat := sumN 12 fun n => if p n then 2 ^ n else 0

/-- Stairwells in which `p` holds, as a bit map. -/
def swMap (p : Nat → Bool) : Nat := sumN 256 fun n => if p n then 2 ^ n else 0

/-- Usable bytes of a column, and its leaf slots on layers in service (R91). The 200 slots of a lost layer leave every
column's count, an adopted column's too, since R27 has every count true; R99 and R392 name LEAF_SLOTS alone (DEDUCED, log
entry 108). -/
def columnBytes : Nat := 161060352
def slotsPerColumn (x : Hall) : Nat := 2400 - 200 * popcount x.layerLost

/-- STATE of a hall (Table 1.8). -/
def HallState.code : HallState → Nat
  | .enabled => 0 | .fenced => 1 | .computeReset => 2 | .off => 2

/-- Clasps homed in a hall (Table 1.4). -/
def claspsHomed (n : Nat) : Nat := if n < 4 then 5462 else 5461

/-- Counts that a hall's section advertises: zero while its compute is fenced (R392). -/
def hallSwEn (s : State) (n : Nat) : Nat := if s.hallFenced n then 0 else countN 256 fun p => s.swGood n p
def hallAdopted (s : State) (n : Nat) : Nat := if s.hallFenced n then 0 else countN 256 fun p => (s.stair n p).adopted
def hallLeafSlots (s : State) (n : Nat) : Nat := hallSwEn s n * slotsPerColumn (s.hall n)

/-- A hall's section, 512 bytes. ADOPT_SLOTS falls by the slots of lost layers as LEAF_SLOTS does (DEDUCED, log entry 108). -/
def hallSection (s : State) (n : Nat) : List Byte :=
  let x := s.hall n
  let live := !s.hallFenced n
  let up := x.state == .enabled
  let en := hallSwEn s n
  let ad := hallAdopted s n
  let w0 := n + x.state.code * 2 ^ 8 + (if live then 0 else x.cause * 2 ^ 16)
  let w1 := en + (countN 256 fun p => (s.stair n p).assigned) * 2 ^ 9 + ad * 2 ^ 18
  let w2 := x.layerLost.toNat + (if live then x.ushersEn.toNat * 2 ^ 12 else 0) + x.splitCw * 2 ^ 16 + (64 - x.splitCw) * 2 ^ 23
  let w3 := x.hostLink.width + (if x.port.active then 2 ^ 7 else 0)
  let vest := if live then (96 - x.slicesOff.length) * 2 ^ 20 else 0
  leBytes 4 w0 ++ leBytes 4 w1 ++ leBytes 4 w2 ++ leBytes 4 w3
    ++ leBytes 4 (hallLeafSlots s n) ++ leBytes 4 (ad * slotsPerColumn x) ++ leBytes 8 ((en + ad) * columnBytes)
    ++ leBytes 4 (en * 384) ++ leBytes 4 vest ++ leBytes 4 (if up then claspsHomed n else 0) ++ leBytes 4 (if up then 64 else 0)
    ++ leBytes 16 0
    ++ leBytes 32 (swMap fun p => live && s.swGood n p) ++ leBytes 32 (swMap fun p => (s.stair n p).assigned)
    ++ leBytes 32 (swMap fun p => live && (s.stair n p).adopted)
    ++ tab 256 (fun p =>
        let y := s.stair n p
        if live && y.adopted then BitVec.ofNat 8 ((y.adopter.map fun a => a.val).getD 0) else 0)
    ++ leBytes 96 0

/-- HALLS_EN, HALLS_FENCED and REPLACE (offset 0x018). A hall's compute is in service while its STATE is ENABLED, as
CLASPS_HOMED and BIND_SLOTS of Table 1.8 have it: not during a compute reset (DEDUCED, log entry 108). -/
def hallsWord (s : State) : Nat :=
  hallMap (fun n => s.hallUp n) + hallMap (fun n => s.hallFenced n) * 2 ^ 12 + (if s.porter.replace = 0 then 0 else 2 ^ 24)

/-- The module header, 256 bytes. -/
def moduleHeader (s : State) (seq : Word) : List Byte :=
  let d := s.porter.host
  let en := sumN 12 fun n => hallSwEn s n
  leBytes 4 seq.toNat ++ leBytes 4 (1 + 0x1900 * 2 ^ 16) ++ leBytes 4 0x210C12 ++ leBytes 4 s.porter.powerup.toNat
    ++ leBytes 8 s.porter.elapsed.toNat ++ leBytes 4 (hallsWord s) ++ leBytes 4 d.coresOn.toNat
    ++ leBytes 4 (~~~d.parkFailed).toNat ++ leBytes 4 0 ++ leBytes 8 s.deviceShare ++ leBytes 8 s.hostRes
    ++ leBytes 8 s.farBytes ++ leBytes 4 (d.portbWidth + d.portbGen * 2 ^ 5 + (if d.portbCxl then 2 ^ 8 else 0))
    ++ leBytes 4 (d.portaWidth + d.portaGen * 2 ^ 5) ++ leBytes 4 (hallMap fun n => (s.port n).active)
    ++ leBytes 4 en ++ leBytes 4 (en * 384) ++ leBytes 4 (sumN 12 fun n => hallLeafSlots s n) ++ leBytes 4 0x00100000
    ++ leBytes 4 (sumN 12 fun n => if s.hallUp n then claspsHomed n else 0)
    ++ leBytes 4 s.porter.running.level.toNat ++ leBytes 156 0

/-- The 6,400 bytes of the resource descriptor. -/
def resImage (s : State) (seq : Word) : List Byte :=
  moduleHeader s seq ++ (List.range 12).flatMap fun n => hallSection s n

/-- A WATCH or FENCE whose publication has been made completes (R391). -/
def wake (s : State) (c : Nat) (k : Claim) : State :=
  match k.stage with
  | .watch q => if BitVec.ofNat 32 q = s.porter.res.seq then s else s.complete c 15 Status.ok (fencePart s false)
  | .fencing found => s.complete c 15 Status.ok (fencePart s found)
  | _ => s

/-- A publication: SEQ two higher, the new body, the interrupt (R29, R31). -/
def publish (s : State) : State :=
  let seq := s.porter.res.seq + 2
  let img := resImage s seq
  let s := s.write .park s.porter.res.base img false
  let s := s.modPorter fun p =>
    { p with res := { p.res with seq := seq, image := img, due := false, published := p.elapsed } }
  let s := { s with stairs := s.stairs.map fun (q : Nat × Stairwell) => (q.1, { q.2 with adoptPub := q.2.adopted }) }
  let s := s.emit (.msi s.porter.res.vector)
  s.claims.foldl (fun (s : State) (q : Nat × Claim) => wake s q.1 q.2) s

/-- RESDESC_PUBLISH (R31): what has taken effect since the last publication is published. -/
def execResdescPublish (s : State) : Result := .next (if s.running && s.porter.res.due then publish s else s)

/-! ### FENCE_UNIT (R391) -/

def fuOp (d : Rec64) : Nat := fld d 8 0 3
def fuKind (d : Rec64) : Nat := fld d 8 4 4
def fuHall (d : Rec64) : Nat := fld d 8 8 4
def fuUnit (d : Rec64) : Nat := fld d 8 12 8

/-- Status of a FENCE_UNIT body that breaks Table 14.5. -/
def fenceBody (d : Rec64) : Option Nat :=
  let zero := match fuOp d with
    | 1 => anySet d [(0x0C, 0, 32)] || (fuKind d == 6 && fuUnit d != 0)
    | 2 => anySet d [(8, 4, 16)]
    | _ => false
  firstStatus (anySet d [(8, 3, 1), (8, 20, 12), (0x10, 0, 384)] || zero)
    (if fuOp d = 1 then !([1, 2, 6].contains (fuKind d)) || 11 < fuHall d || (fuKind d == 2 && 3 < fuUnit d) else fuOp d != 2)
    false false

/-- The unit that a FENCE names, already fenced. -/
def fenceFound (s : State) (d : Rec64) : Bool :=
  match fuKind d with
  | 1 => (s.stair (fuHall d) (fuUnit d)).fenced
  | 2 => !(s.hall (fuHall d)).ushersEn.getLsbD (fuUnit d)
  | _ => s.hallFenced (fuHall d)

/-- The fence of a FENCE. -/
def fenceApply (s : State) (d : Rec64) : State :=
  let h : HallId := Fin.ofNat 12 (fuHall d)
  match fuKind d with
  | 1 => settle (fenceStair s h (fuUnit d) true)
  | 2 => fenceUsher s h (Fin.ofNat 4 (fuUnit d)) true
  | _ => fenceHall s h 4

/-- FENCE_UNIT, FENCE: it completes once its publication is made. -/
def execFenceUnitFence (c : Nat) (s : State) : Result :=
  .next <| withClaim s c 0x50 fun k =>
    let d := k.desc
    match fenceBody d with
    | some st => s.complete c 15 st (fencePart s false)
    | none =>
      if fuOp d ≠ 1 then s
      else if fenceFound s d then s.complete c 15 Status.ok (fencePart s true)
      else if fuKind d = 2 ∧ ushersLeft s (fuHall d) = 1 then s.complete c 15 Status.fenceLast (fencePart s false)
      else fenceApply (s.setStage c (.fencing false)) d

/-- WATCH descriptors that wait. -/
def watchers (s : State) : Nat := (s.claims.filter fun p => p.2.stage.isWatch).length

/-- FENCE_UNIT, WATCH. -/
def execFenceUnitWatch (c : Nat) (s : State) : Result :=
  .next <| withClaim s c 0x50 fun k =>
    let d := k.desc
    match fenceBody d with
    | some st => s.complete c 15 st (fencePart s false)
    | none =>
      if fuOp d ≠ 2 then s
      else
        let q := fld d 0x0C 0 32
        if BitVec.ofNat 32 q ≠ s.porter.res.seq then s.complete c 15 Status.ok (fencePart s false)
        else if 16 ≤ watchers s then s.complete c 15 Status.watchFull (fencePart s false)
        else s.setStage c (.watch q)

end Sys2Proof.Machine
end

