-- ==== Sys2Proof/Machine/Faults.lean ====
section
/-! DEFINITION. Errors as they are met, and the units that the device fences on its own (chapter 14). -/

namespace Sys2Proof.Machine

/-- 24 h, 1 h and 1 s in reference edges. -/
abbrev edgesDay : Nat := 8640000000000
abbrev edgesHour : Nat := 360000000000
abbrev edgesSecond : Nat := 100000000

/-- Times of a list that lie within the last `n` edges. -/
def recent (now n : Nat) (l : List Nat) : List Nat := l.filter fun t => now ≤ t + n

/-- An error logged as it was met. -/
def logEvent (s : State) (e : ErrEvent) : State :=
  s.logError { source := e.source, class_ := if e.correctable then Class.corrected else Class.uncorrectable, hall := e.hall,
               unit := e.unit, layer := e.layer, addr := e.addr, scrub := e.scrub }

/-! ### Stairwell SRAM, vestibule, clasp store -/

/-- SRAM: more than 64 corrected errors within 24 h fence the stairwell (Table 14.4). -/
def sramError (s : State) (e : ErrEvent) : State :=
  let sw := e.unit % 256
  if e.correctable then
    let s := s.modStair e.hall sw fun x => { x with sramCe := s.now :: recent s.now edgesDay x.sramCe }
    if 64 < (s.stair e.hall sw).sramCe.length then fenceStair s e.hall sw false else s
  else s.setPoison (.sram e.hall sw) (e.addr / 64 * 64) true

/-- The line of a vestibule that holds a tier address: of the park tier if there is one, else of the far tier. -/
def vestLineOf (s : State) (h a : Nat) : Option (Nat × VLine) :=
  let park := vestKey .park ((a - s.hostRes) / 2048)
  let far := vestKey .far (a / 2048)
  match sfind (s.hall h).vest park with
  | some l => if s.hostRes ≤ a then some (park, l) else none
  | none => (sfind (s.hall h).vest far).map fun l => (far, l)

/-- Vestibule: a clean line is fetched again; a dirty one is poisoned and written back; more than 16 uncorrectable reads of
a slice within 24 h retire it. -/
def vestError (s : State) (e : ErrEvent) : State :=
  if e.correctable then s
  else
    let s := match vestLineOf s e.hall e.addr with
      | some (k, l) =>
        if l.dirty then
          let r := tierPlace s (keySpace k) (k / 2 * 2048)
          vestClean (s.setPoison r.1 (r.2 + e.addr % 2048 / 64 * 64) true) e.hall k
        else vestMiss s e.hall k
      | none => s
    let i := e.unit % 96
    let s := s.modPorter fun p =>
      { p with sliceUe := (e.hall.val, i, s.now) :: p.sliceUe.filter fun q => s.now ≤ q.2.2 + edgesDay }
    if 16 < (s.porter.sliceUe.filter fun q => q.1 == e.hall.val && q.2.1 == i).length then retireSlice s e.hall i else s

/-- A clasp cell lost: its waiters get CLASP_LOST (R385). -/
def claspError (s : State) (e : ErrEvent) : State :=
  if e.correctable then s
  else
    let c := s.clasp e.addr
    let s := s.setClasp e.addr { c with lost := true, waiters := [] }
    settle (c.waiters.foldl (fun (s : State) w => claspFail s w.who e.addr Status.claspLost w.oldType) s)

/-! ### Near tier and layers -/

/-- Stairwells whose controllers each corrected errors on a layer in more than 64 distinct lines within the last second
(R99). -/
def layerHits (s : State) (h l : Nat) : Nat :=
  let q := (s.hall h).layerCe.filter fun q => q.1 == l && s.now ≤ q.2.2.2 + edgesSecond
  countN 256 fun p => 64 < ((q.filter fun e => e.2.1 == p).map fun e => e.2.2.1).dedup.length

/-- Near tier: corrections are counted by line for CE_RATE and by layer for R99; what cannot be corrected is poisoned. -/
def nearError (s : State) (e : ErrEvent) : State :=
  let sw := e.unit % 256
  let line := e.addr / 256
  if e.correctable then
    let s := s.modRegs e.hall fun g => { g with errCe := g.errCe + 1 }
    let key := sw * 2 ^ 20 + line
    let s := s.modHall e.hall fun x =>
      { x with layerCe := (e.layer, sw, line, s.now) :: x.layerCe.filter fun q => s.now ≤ q.2.2.2 + edgesSecond
               ceLines := (key, s.now) :: x.ceLines.filter fun q => q.1 != key && s.now ≤ q.2 + edgesDay }
    let s := if 4096 < (s.hall e.hall).ceLines.length then s.replaceCause 4 else s
    if e.layer < 12 ∧ 8 ≤ layerHits s e.hall e.layer then loseLayer s e.hall (Fin.ofNat 12 e.layer) else s
  else (s.modRegs e.hall fun g => { g with errUe := g.errUe + 1 }).setPoison (.column e.hall sw) (line * 256) true

/-! ### Park tier -/

/-- Device metadata that a poisoned burst of the park tier holds (R385): a volume descriptor that its home does not hold, 16
reference-table entries, or a copy of a binding's log. A descriptor that the home holds is rewritten. -/
def parkMeta (s : State) (a : Nat) : State :=
  let o := a - s.hostRes
  let u := a / 64 * 64
  let s := if s.hostRes ≤ a ∧ o < 2 ^ 27 then
      let v := o / 128
      if entryHeld s v then s.setPoison .park u false
      else if (s.vol v).state = .free then s else s.modJob v fun j => { j with poisoned := true }
    else s
  let tabs := s.vols.filter fun q => q.2.fm && decide (q.2.reftab * 4096 ≤ o) &&
    decide (o < q.2.reftab * 4096 + (s.planOf q.1).layers * (s.planOf q.1).span * 4)
  let s := tabs.foldl (fun (s : State) q =>
    let i := (o - q.2.reftab * 4096) / 64 * 16
    (List.range 16).foldl (fun (s : State) j => s.setRef q.1 (i + j) { s.ref q.1 (i + j) with poison := true }) s) s
  s.binds.foldl (fun (s : State) q =>
    let hit := fun copy => Config.bindLog q.1 copy / 2048 == a / 2048
    if hit 0 || hit 1 then s.setBind q.1 { q.2 with logA := q.2.logA || hit 0, logB := q.2.logB || hit 1 } else s) s

/-- Park tier: corrections counted by unit and package for CE_RATE; a burst that cannot be corrected is poisoned. -/
def parkError (s : State) (e : ErrEvent) : State :=
  if e.correctable then
    let s := s.modHost fun d => { d with parkCe := d.parkCe + 1 }
    let u := e.addr / 2048
    let s := s.modPorter fun p =>
      { p with parkCeLog := (e.unit, u, s.now) :: p.parkCeLog.filter fun q => !(q.1 == e.unit && q.2.1 == u) && s.now ≤ q.2.2 + edgesDay }
    if 1024 < (s.porter.parkCeLog.filter fun q => q.1 == e.unit).length then s.replaceCause 4 else s
  else
    parkMeta ((s.modHost fun d => { d with parkUe := d.parkUe + 1 }).setPoison .park (e.addr / 64 * 64) true) e.addr

/-! ### UCIe links (R290) -/

def getLink (x : Hall) : UcieLink → Ucie
  | .host => x.hostLink
  | .ringCw => x.cwLink
  | .ringCcw => x.ccwLink

def setLink (x : Hall) (l : UcieLink) (u : Ucie) : Hall :=
  match l with
  | .host => { x with hostLink := u }
  | .ringCw => { x with cwLink := u }
  | .ringCcw => { x with ccwLink := u }

def linkUnit : UcieLink → Nat
  | .host => 0 | .ringCw => 1 | .ringCcw => 2

/-- A flit resent after its CRC failed: counted and logged; more than 360 resends of one link in an hour raise CE_RATE. -/
def ucieResent (s : State) (h : HallId) (l : UcieLink) : State :=
  let s := s.modHall h fun x => setLink x l { getLink x l with crcErr := (getLink x l).crcErr + 1 }
  let s := s.logError { source := .ucie, class_ := Class.corrected, hall := h, unit := linkUnit l }
  let s := s.modPorter fun p =>
    { p with ucieResend := (h.val, linkUnit l, s.now) :: p.ucieResend.filter fun q => s.now ≤ q.2.2 + edgesHour }
  if 360 < (s.porter.ucieResend.filter fun q => q.1 == h.val && q.2.1 == linkUnit l).length then s.replaceCause 4 else s

/-- A link has retrained. -/
def ucieRetrained (s : State) (h : HallId) (l : UcieLink) : State :=
  let s := s.modHall h fun x => setLink x l { getLink x l with retrain := min 65535 ((getLink x l).retrain + 1) }
  s.logError { source := .ucie, class_ := Class.link, hall := h, unit := linkUnit l }

/-- The ring link of a hall seen from its other end. -/
def linkPeer (h : HallId) : UcieLink → Option (HallId × UcieLink)
  | .host => none
  | .ringCw => some (ringNext h true, .ringCcw)
  | .ringCcw => some (ringNext h false, .ringCw)

/-- A link left with `w` lanes; one that is down has no rate (Table 10.5). -/
def Ucie.narrow (u : Ucie) (w : Nat) : Ucie := { u with width := w, rate := if w = 0 then 0 else u.rate }

/-- A link left with `lanes` lanes: the host module runs ×64 or ×32, below which its hall is fenced; a ring link drops by
groups of 16 lanes at both ends, and is down at none (R290, R292). -/
def ucieNarrow (s : State) (h : HallId) (l : UcieLink) (lanes : Nat) : State :=
  match linkPeer h l with
  | none =>
    let w := if 64 ≤ lanes then 64 else if 32 ≤ lanes then 32 else 0
    let s := (s.modHall h fun x => { x with hostLink := x.hostLink.narrow w }).publishDue
    if w = 64 then s else if w = 32 then s.replaceCause 3 else fenceHall s h 1
  | some (g, k) =>
    let w := min lanes (getLink (s.hall h) l).width / 16 * 16
    let s := s.modHall h fun x => setLink x l ((getLink x l).narrow w)
    let s := (s.modHall g fun x => setLink x k ((getLink x k).narrow w)).publishDue
    if w = 0 then s.replaceCause 3 else s

/-- UCIE_FLIT_RESEND (R290, Table 14.1). Redundant lanes number 15 at most (Table 10.5); a host module that uses them all
raises LANES when it narrows (Table 14.8). -/
def execUcieFlitResend (h : HallId) (link : UcieLink) (o : UcieOutcome) (s : State) : Result :=
  .next <|
    if !s.hallNet h || (getLink (s.hall h) link).width = 0 then s
    else
      let s := ucieResent s h link
      match o with
      | .resent => s
      | .retrained => ucieRetrained s h link
      | .repaired n =>
        let s := ucieRetrained s h link
        let n := min 15 n
        let s := s.modHall h fun x => setLink x link { getLink x link with spares := n }
        if link = .host ∧ Config.ucieSpares ≤ n then s.replaceCause 3 else s
      | .narrowed n => ucieNarrow (ucieRetrained s h link) h link n

/-! ### The events -/

/-- ERROR_EVENT (R379 to R385, R389, Table 14.1). -/
def execErrorEvent (e : ErrEvent) (s : State) : Result :=
  .next <|
    if !s.porterUp then s
    else match e.source with
      | .sram => sramError (logEvent s e) e
      | .vest => vestError (logEvent s e) e
      | .clasp => claspError (logEvent s e) e
      | .nearStriped => nearError (logEvent s e) e
      | .nearLanded => nearError (logEvent s e) e
      | .layer => if e.layer < 12 then loseLayer s e.hall (Fin.ofNat 12 e.layer) else s
      | .park => parkError (logEvent s e) e
      -- a burst that fails again after it was read once more is a park error
      | .parkLink => if e.correctable then logEvent s e else parkError (logEvent s { e with source := .park }) e
      | .portb =>
        let s := logEvent s e
        if e.correctable then s else s.setPoison .far (farHpa s (e.addr / 64 * 64)) true
      -- a codeword that the FEC cannot correct is counted; the link layer replays (R321)
      | .fabFec =>
        let s := logEvent s e
        if e.correctable then s else s.modPort e.hall fun x => { x with fecUncorr := x.fecUncorr + 1 }
      | _ => logEvent s e

/-- LAYER_LOST (R99, R100). -/
def execLayerLost (h : HallId) (l : LayerId) (s : State) : Result := .next (if s.hallNet h then loseLayer s h l else s)

/-- PARK_PKG_FAIL (R380): a package that retrains goes on; otherwise it reads poisoned until the next cold bring-up. -/
def execParkPkgFail (p : Fin 24) (retrained : Bool) (s : State) : Result :=
  .next <|
    if retrained || s.porter.host.parkDead.getLsbD p then s
    else
      let s := s.modHost fun d => { d with parkDead := d.parkDead ||| BitVec.ofNat 24 (2 ^ p.val) }
      (s.logError { source := .parkPkg, class_ := Class.uncorrectable, unit := p }).replaceCause 7

/-- UNIT_FENCE (R389): a unit that the device fences on its own. -/
def execUnitFence (t : FenceTarget) (s : State) : Result :=
  .next <|
    if !s.porterUp then s
    else match t with
      | .stairwell h sw => settle (fenceStair s h sw false)
      | .landing h sw l => settle (fenceLanding s h sw l)
      | .usher h u => fenceUsher s h u false
      | .slice h i => retireSlice s h i
      | .hall h cause => if 1 ≤ cause ∧ cause ≤ 7 ∧ cause ≠ 4 then fenceHall s h cause else s
      | .core c => fenceCore s c

/-- ADOPTION_COMPLETE (R127): the adopter takes the column out of self-refresh. -/
def execAdoptionComplete (h : HallId) (sw : SwId) (s : State) : Result :=
  .next <|
    let x := s.stair h sw
    match x.adopter with
    | some a =>
      if x.fenced && !x.adopted && s.swRuns h a then
        (s.setStair h sw { x with adopted := true, adoptPub := false, selfRef := false }).publishDue
      else s
    | none => s

end Sys2Proof.Machine
end

