-- ==== Sys2Proof/Machine/Resets.lean ====
section
/-! DEFINITION. Compute resets of a hall and of a stairwell, and the warm reset (R302 to R305, R365, R368 to R373). -/

namespace Sys2Proof.Machine

/-- 10 minutes in reference edges. -/
abbrev edgesTenMinutes : Nat := 60000000000

/-- Whether compute resets and warm resets are ignored: before hand-off, during a warm reset (Table 13.9), and in cooling
states LOST and DRAM_LOST (Table 15.4). -/
def State.resetsIgnored (s : State) : Bool :=
  !s.running || s.porter.cool.state == .lost || s.porter.cool.state == .dramLost

/-! ### Compute reset of a hall (R370, R371) -/

/-- Steps 1 to 3 of R371 begin; a reset in progress takes RELOAD of both (Table 13.9). -/
def startHallReset (s : State) (h : HallId) (reload : Bool) : State :=
  match (s.hall h).state with
  | .enabled =>
    let s := s.modHall h fun x => { x with state := .computeReset, reloading := reload }
    orphanLocks (stopHall s h false true) h
  | .computeReset => s.modHall h fun x => { x with reloading := x.reloading || reload }
  | _ => s

/-- A hall's columns out of self-refresh and its stairwells' resets ended; in a hall that is not in service they stay in
self-refresh (R125, R346). -/
def wakeColumns (s : State) (h : Nat) : State :=
  if !s.hallUp h then s
  else { s with stairs := s.stairs.map fun (q : Nat × Stairwell) =>
      if q.1 / 256 == h then
        (q.1, { q.2 with resetting := false, selfRef := q.2.fenced && !(q.2.adopted && (q.2.adopter.any fun a => s.swGood h a)) })
      else q }

/-- Volumes homed in a hall whose table entry is transient are settled, and those with leaves in lost places (R171, R305). -/
def settleHome (s : State) (h : Nat) : State :=
  (skeys s.vols fun _ x => x.state != .free && x.home == h).foldl
    (fun (s : State) (v : Nat) => settleLost (settleVolume s v) v) s

/-- Committed bindings of one hall alone finished from their logs (R229). -/
def finishSingle (s : State) (h : HallId) : State :=
  (s.binds.filter fun q => q.2.phase == .apply && q.2.halls == [h]).foldl (fun (s : State) (q : Nat × Binding) =>
    if q.2.logA && q.2.logB then finishPoisoned s q.1 q.2 h else bindApply s q.1 h) s

/-! ### Loading a hall (R360, steps 2 to 4) -/

/-- Whether a unit stores its image: its value at the first attempt or at the second is the manifest's. -/
def loadOk {w : Nat} (good : BitVec w) : Option (List (BitVec w)) → Bool
  | some (a :: b :: _) => a == good || b == good
  | _ => true

/-- A unit whose load fails twice has failed a test: it is fenced and entered in the soft map (R360, R363). -/
def loadFails (s : State) (kind : Nat) (h : HallId) (unit : Nat) : State :=
  (softAdd s kind h unit 1).logEvent 0x02 h unit kind

/-- Whether the broadcast of the microcode to a hall is right, and what of its stairwells and ushers have stored is. -/
def hallLoads (s : State) (r : LoadReport) (h : HallId) : Bool :=
  loadOk (Config.imageDigest 3 (s.porter.store.getD 0)) ((r.hallSha.find? fun q => q.1 == h).map fun q => q.2)
def swLoads (s : State) (r : LoadReport) (h : HallId) (p : SwId) : Bool :=
  loadOk (Config.imageCrc 3 (s.porter.store.getD 0)) ((r.swCrc.find? fun q => q.1 == h && q.2.1 == p).map fun q => q.2.2)
def usherLoads (s : State) (r : LoadReport) (h : HallId) (u : UsherId) : Bool :=
  loadOk (Config.imageCrc 4 (s.porter.store.getD 0)) ((r.usherCrc.find? fun q => q.1 == h && q.2.1 == u).map fun q => q.2.2)

/-- The image store's microcode and usher code in the retention stores of a hall. -/
def storeImages (s : State) (h : HallId) : State :=
  let n := s.porter.store
  let s := s.modHall h fun x => { x with ucode := n.elim [] fun i => tab 4 fun u => (u, i) }
  { s with stairs := s.stairs.map fun (q : Nat × Stairwell) => if q.1 / 256 == h.val then (q.1, { q.2 with mcode := n }) else q }

/-- A hall loaded from the image store in service, or at a warm reset: a second mismatch of the hall's digest fences its
compute with cause MICROCODE, one of a stairwell or an usher fences the unit. -/
def loadHall (s : State) (r : LoadReport) (h : HallId) : State :=
  if !hallLoads s r h then fenceHall s h 6
  else
    let s := storeImages s h
    let s := (List.finRange 256).foldl (fun (s : State) (p : SwId) =>
      if swLoads s r h p || (s.stair h p).fenced then s else fenceStair (loadFails s 1 h p) h p false) s
    (List.finRange 4).foldl (fun (s : State) (u : UsherId) =>
      if usherLoads s r h u || !(s.hall h).ushersEn.getLsbD u then s else fenceUsher (loadFails s 2 h u) h u false) s

/-- Steps 5 and 6 of R371: the hall is in service again, finishes its work, and its claimed descriptors end with
HALL_RESET (R242, R305). -/
def releaseHall (s : State) (h : HallId) : State :=
  let s := s.modHall h fun x =>
    { x with state := .enabled, reloading := false, heldLost := false
             missReset := x.missReset.map fun (q : Nat × Option Nat) => (q.1, some (q.2.getD s.now)) }
  let s := finishSingle (wakeColumns s h) h
  let s := (s.steps.filter fun q => q.2.home == h).foldl
    (fun (s : State) (q : Nat × Step) => endStep s q.1 Status.hallReset (0, 0, false)) s
  let s := loseClaims s h Status.hallReset
  settle (settleHome (retestClasps s h) h)

/-- A compute reset that the porter makes, with RELOAD; after three within 10 minutes the hall is fenced instead (R370). -/
def porterReset (s : State) (h : HallId) : State :=
  let times := recent s.now edgesTenMinutes (s.hall h).resets
  if (s.hall h).state != .enabled then startHallReset s h true
  else if 3 ≤ times.length then fenceHall s h 5
  else
    let s := s.modHall h fun x =>
      { x with resets := s.now :: times, regs := { x.regs with porterResets := min 255 (x.regs.porterResets + 1) } }
    startHallReset s h true

/-- A write to HALL_RST: ERR clears first; COMPUTE starts a reset with the RELOAD that the same write sets. -/
def hallRst (s : State) (h : HallId) (w : Word) : State :=
  let s := s.modRegs h fun g => { g with rstErr := g.rstErr && !bitAt w 2 }
  let s := if s.running then s.modRegs h fun g => { g with rstReload := bitAt w 1 } else s
  if !bitAt w 0 then s
  else if s.resetsIgnored || s.hallFenced h then s.modRegs h fun g => { g with rstErr := true }
  else settle (startHallReset s h (bitAt w 1))

/-- HALL_COMPUTE_RESET (R370, R371): a write to HALL_RST. -/
def execHallComputeReset (h : HallId) (w : Word) (s : State) : Result :=
  .next (if s.hallNet h then hallRst s h w else s.emit (.accessFault false))

/-- USHER_HEARTBEAT_MISS (R370, R389): a second miss within 10 minutes of the end of the RELOAD reset that the same usher's
earlier miss caused fences the usher. -/
def execUsherHeartbeatMiss (h : HallId) (u : UsherId) (s : State) : Result :=
  .next <|
    if !s.running || !s.hallUp h || !(s.hall h).ushersEn.getLsbD u then s
    else
      let again := match sget (s.hall h).missReset none u with
        | some t => decide (s.now ≤ t + edgesTenMinutes)
        | none => false
      if again then settle (fenceUsher s h u false)
      else settle ((porterReset s h).modHall h fun x => { x with missReset := sset x.missReset u none })

/-- COMPUTE_FAULT_REPORT (R370). -/
def execComputeFaultReport (h : HallId) (s : State) : Result :=
  .next (if s.running && s.hallUp h then settle (porterReset s h) else s)

/-! ### Compute reset of a stairwell (R372) -/

/-- A write to HALL_SW_RST: SW is set, then GO starts the reset. -/
def hallSwRst (s : State) (h : HallId) (w : Word) : State :=
  let sw := bits w 7 0
  let s := if s.running then s.modRegs h fun g => { g with swRstSw := sw } else s
  if !bitAt w 8 then s
  else if s.resetsIgnored || s.hallFenced h || (s.stair h sw).fenced then s.modRegs h fun g => { g with rstErr := true }
  else if !s.hallUp h || (s.stair h sw).resetting then s
  else settle ((stopStair s h sw false true).modStair h sw fun x => { x with resetting := true })

/-- STAIRWELL_RESET (R372): a write to HALL_SW_RST. -/
def execStairwellReset (h : HallId) (w : Word) (s : State) : Result :=
  .next (if s.hallNet h then hallSwRst s h w else s.emit (.accessFault false))

/-- The end of a hall's compute reset: with RELOAD, step 4 of R371 first; a hall that the load fences stays fenced. -/
def endHallReset (s : State) (h : HallId) (r : LoadReport) : State :=
  let s := if (s.hall h).reloading then loadHall s r h else s
  if (s.hall h).state = .computeReset then releaseHall s h else settle s

/-- COMPUTE_RESET_RELEASE (R371, R372): the end of a reset of the hall, or of one of its stairwells. A hall held by cooling
state LOST stays held (R418). -/
def execComputeResetRelease (h : HallId) (e : ResetEnd) (s : State) : Result :=
  .next <|
    match e.sw with
    | none =>
      if (s.hall h).state = .computeReset ∧ (s.hall h).heldLost = false ∧ s.running = true then endHallReset s h e.load else s
    | some p =>
      if (s.stair h p).resetting && s.hallUp h then s.modStair h p fun x => { x with resetting := false, selfRef := false }
      else s

/-! ### Halls held at D = 0 (R418, R430) -/

/-- Whether a hall whose D is 0 is held in compute reset. -/
def holdsHalls (s : State) : Bool := s.porter.cool.state == .lost || s.porter.power.phase == .powerDown

/-- A hall held once its D is 0. -/
def holdLost (s : State) (h : HallId) : State :=
  let x := s.hall h
  if holdsHalls s && x.therm.d == 0 && !x.heldLost && (x.state == .enabled || x.state == .computeReset) then
    (startHallReset s h false).modHall h fun x => { x with heldLost := true }
  else s

/-! ### Warm reset (R368, R369) -/

/-- Whether a bad-unit map, or the units held for the power-up, name a unit (R363, R365, R366). -/
def State.mapHolds (s : State) (kind h unit : Nat) : Bool :=
  let same := fun (b : BadUnit) => b.kind == kind && b.hall == h && b.unit == unit
  s.porter.fuses.badMap.any same || s.porter.flash.softmap.any same || s.porter.held.any same

/-- Bindings at a warm reset: those before their commit point end, without a record; the others are applied in full. -/
def warmBinds (s : State) : State :=
  let s := { s with binds := s.binds.filter fun (q : Nat × Binding) => q.2.phase == BindPhase.apply }
  let s := s.binds.foldl (fun (s : State) (q : Nat × Binding) =>
    let left := q.2.halls.filter fun h => !q.2.applied.elem h
    if q.2.logA && q.2.logB then (if q.2.applied.isEmpty then s else markUnfinished s q.2)
    else left.foldl (fun (s : State) (h : HallId) => applyHall s q.2 h (remoteSel s q.2 h)) s) s
  { s with binds := [] }

/-- FENCE_CAUSE of a hall after the maps are applied at a warm reset, none when it is in service (R365). -/
def warmCause (s : State) (h : Nat) : Option Nat :=
  let x := s.hall h
  if x.state = .fenced ∧ (x.cause = 1 ∨ x.cause = 2 ∨ x.cause = 6) then some x.cause
  else if s.mapHolds 6 h 0 then some 7
  else if x.ushersEn = 0 then some 3
  else if x.railFail || x.netLost || !x.netUp then some 5
  else none

/-- Logical numbers (R25): every stairwell in service holds one. -/
def assignNumbers (s : State) (h : Nat) : State :=
  (List.range 256).foldl (fun (s : State) (p : Nat) =>
    let x := s.stair h p
    if x.assigned = !x.fenced then s else s.setStair h p { x with assigned := !x.fenced }) s

/-- The search of R126 at a bring-up for every fenced stairwell whose column tests good, in rising number; the adoptions
are complete at hand-off. -/
def adoptAll (s : State) (h : Nat) : State :=
  let s := { s with stairs := s.stairs.map fun (q : Nat × Stairwell) =>
    if q.1 / 256 == h then (q.1, { q.2 with adopter := none, adopted := false, adoptPub := false }) else q }
  let s := (hallSws s h).foldl (fun (s : State) (p : Nat) => searchOrphan s h p) s
  { s with stairs := s.stairs.map fun (q : Nat × Stairwell) =>
    if q.1 / 256 == h && q.2.adopter.isSome then (q.1, { q.2 with adopted := true }) else q }

/-- A hall's microcode and usher code loaded anew at a warm reset (Table 13.8); a hall that stays fenced takes no load. The
cause MICROCODE is lifted unless the load fails twice (R365). -/
def warmLoad (s : State) (r : LoadReport) (h : HallId) : State :=
  let s := if (s.hall h).state = .fenced ∧ ((s.hall h).cause = 4 ∨ (s.hall h).cause = 6) then s.modHall h fun x => { x with state := .computeReset, cause := 0 } else s
  if (s.hall h).state = .off ∨ (s.hall h).netLost = true then s else loadHall s r h

/-- Microcode draws a new SR seed at every bring-up (R74). -/
def drawSeed (s : State) (h : HallId) : State :=
  { s with fresh := s.fresh + 1 }.modHall h fun x => { x with srSeed := BitVec.ofNat 32 (Config.free s.fresh) }

/-- A hall through a warm reset: it is loaded, software's fences are lifted, the maps hold, numbers and adoptions are made
anew. -/
def warmHall (r : LoadReport) (s : State) (h : HallId) : State :=
  let s := drawSeed (warmLoad s r h) h
  let s := { s with stairs := s.stairs.map fun (q : Nat × Stairwell) =>
    if q.1 / 256 == h.val && q.2.fencedSw && !s.mapHolds 1 h (q.1 % 256) then (q.1, { q.2 with fenced := false, fencedSw := false })
    else q }
  let s := s.modHall h fun x =>
    { x with ushersEn := (List.range 4).foldl (fun (w : BitVec 4) (u : Nat) =>
               if x.ushersSw.getLsbD u && !s.mapHolds 2 h u then w ||| BitVec.ofNat 4 (2 ^ u) else w) x.ushersEn
             ushersSw := 0 }
  let s := adoptAll (assignNumbers s h) h
  let s := s.modHall h fun x =>
    { x with state := if x.state = .off then .off else if (warmCause s h).isSome then .fenced else .enabled
             cause := (warmCause s h).getD 0, reloading := false, heldLost := false
             missReset := x.missReset.map fun (q : Nat × Option Nat) => (q.1, some (q.2.getD s.now)) }
  wakeColumns s h

/-- Fields of a hall's network domain that a warm reset returns to their reset values (Table 18.6), and its vestibule
written back and invalidated (R277). -/
def warmRegs (s : State) (h : HallId) : State :=
  let s := vestEvict s h fun _ => true
  s.modHall h fun x =>
    { x with sq := [], cq := [], lastHigh := 255, lastLow := 255
             chans := x.chans.map fun (q : Nat × Chan) => (q.1, q.2.idle)
             regs := { x.regs with sqSel := 0, cqSel := 0, badWrite := false, lostCq := false, vestBusy := false, maintOp := 0 } }

/-- Clasps set to NONE and the clasp tables of the loaded plans applied anew (R216). -/
def warmClasps (s : State) : State :=
  s.plans.foldl (fun (s : State) (q : Nat × Plan) => applyClasps s q.2) { s with clasps := [], retries := [] }

/-- The first part of a warm reset, up to the compute domains held (Table 13.8); `src` is 0 for the register, 1 for I3C. -/
def warmReset (s : State) (src : Nat) : State :=
  let s := (s.modPorter fun p => { p with stage := .warm, warmWait := none }).logEvent 0x0B 0 0 src
  let s := { s with claims := [] }
  let s := s.steps.foldl (fun (s : State) (q : Nat × Step) => endStep s q.1 Status.aborted (0, 0, false)) s
  let s := (List.finRange 12).foldl (fun (s : State) (h : HallId) =>
    warmRegs (stopChannels s h) h) s
  let s := (List.finRange 12).foldl (fun (s : State) (h : HallId) =>
    (hallSws s h).foldl (fun (s : State) (p : Nat) => stopStair s h p false true) s) s
  warmBinds s

/-- What a warm reset's load gives: free values, one load after the other (log entry 110). -/
def warmReport (n : Nat) : LoadReport :=
  { hallSha := Config.warmHallSha n, swCrc := Config.warmSwCrc n, usherCrc := Config.warmUsherCrc n }

/-- The rest of a warm reset, from the load on up to hand-off (Table 13.8). -/
def warmRest (s : State) : State :=
  let r := warmReport s.fresh
  let s := { s with fresh := s.fresh + 1 }
  let s := (List.finRange 12).foldl (warmHall r) s
  let s := (List.range 12).foldl (fun (s : State) (h : Nat) => if s.hallUp h then settleHome s h else s) s
  let s := (warmClasps s).publishDue
  -- cooling state LOST that began in the warm reset holds the halls again (Table 15.4)
  settle ((List.finRange 12).foldl holdLost s)

/-- Whether a calibration command that writes module flash runs (Table 13.9). -/
def State.flashBusy (s : State) : Bool :=
  match s.porter.cal.queue with
  | c :: _ => c.op != .read
  | [] => false

/-- A warm reset asked for: ignored (none), or started when no flash write runs, else when that write ends. -/
def warmRequest (s : State) (src : Nat) : Option State :=
  if s.resetsIgnored then none
  else if s.flashBusy then some (s.modPorter fun p => { p with warmWait := some (p.warmWait.getD src) })
  else some (warmReset s src)

/-- A write to PRT_RESET: ERR clears first; WARM with KEY 0x5752 starts a warm reset. -/
def prtReset (s : State) (w : Word) : State :=
  let s := s.modPorter fun p => { p with rstErr := p.rstErr && !bitAt w 1 }
  if !bitAt w 0 then s
  else match (if bits w 31 16 = 0x5752 then warmRequest s 0 else none) with
    | some s => s
    | none => s.modPorter fun p => { p with rstErr := true }

/-- WARM_RESET_REQUEST (R368): a write to PRT_RESET. -/
def execWarmResetRequest (w : Word) (s : State) : Result := .next (prtReset s w)

/-- HAND_OFF (R361): from INIT, or at the end of a warm reset; not once the reference is lost (R347). -/
def execHandOff (s : State) : Result :=
  .next <|
    if (s.porter.stage = .init ∨ s.porter.stage = .warm) ∧ s.porter.host.refLost = false then
      let s := if s.porter.stage = .warm then warmRest s else s
      let s := s.modPorter fun p => { p with stage := .running, res := { p.res with seq := 0 } }
      publish (s.raiseAlert 3)
    else s

/-! ### Answers TARGET_RESETTING (R218, R303) -/

/-- A step's item for a hall presented again, once its interval has passed. -/
def itemRepresent (s : State) (st : Nat) (h : HallId) : State :=
  match s.step? st with
  | some x =>
    match sfind x.backs h with
    | some b => if s.hallUp x.home && !x.lost && b.ready s.now then emitItem s st x (some h) else s
    | none => s
  | none => s

/-- RESET_BACKOFF_RETRY (R218, R303): a clasp operation, a packet, what a DMA channel asks, or a step's leaf work. -/
def execResetBackoffRetry (t : RetryTarget) (s : State) : Result :=
  .next <| match t with
    | .clasp i => settle (representAt s i true)
    | .packet h i => netRepresent s h i
    | .dma h ch => chanRepresent s h ch
    | .item st h => itemRepresent s st h

end Sys2Proof.Machine
end

