-- ==== Sys2Proof/Machine/Calib.lean ====
section
/-! DEFINITION. Calibration (R374 to R377), and the I3C frames in which its I3C commands are answered (R441, R442). -/

namespace Sys2Proof.Machine

/-! ### Response frames (R441, R442) -/

/-- One bit of the CRC-8 of x⁸ + x² + x + 1. -/
def crc8Bit (c : Nat) : Nat := if 128 ≤ c then (c * 2 % 256) ^^^ 7 else c * 2

/-- CRC-8 of a byte string, initial value 0. -/
def crc8 (l : List Byte) : Byte :=
  BitVec.ofNat 8 (l.foldl (fun (c : Nat) (b : Byte) => (List.range 8).foldl (fun (x : Nat) (_ : Nat) => crc8Bit x) (c ^^^ b.toNat)) 0)

/-- Frame status codes (Table 17.4). -/
abbrev Frame.ok : Nat := 0
abbrev Frame.badFrame : Nat := 1
abbrev Frame.badCmd : Nat := 2
abbrev Frame.badArg : Nat := 3
abbrev Frame.busy : Nat := 4
abbrev Frame.pending : Nat := 5
abbrev Frame.noCmd : Nat := 6
abbrev Frame.romOnly : Nat := 7
abbrev Frame.refused : Nat := 8
abbrev Frame.tooLong : Nat := 9

/-- A response frame. -/
def respFrame (cmd status : Nat) (data : List Byte) : List Byte :=
  let b := [0xC5#8, BitVec.ofNat 8 cmd, BitVec.ofNat 8 status, BitVec.ofNat 8 data.length] ++ data
  b ++ [crc8 b]

def State.modI3c (s : State) (f : I3c → I3c) : State := s.modPorter fun p => { p with i3c := f p.i3c }
def State.modCal (s : State) (f : Calib → Calib) : State := s.modPorter fun p => { p with cal := f p.cal }

/-- A response ready to be read. -/
def respReady (s : State) (cmd status : Nat) (data : List Byte) : State :=
  s.modI3c fun i => { i with ready := i.ready ++ [(true, respFrame cmd status data)] }

/-- The running command ends: its response is ready, unless it has been discarded (R442). -/
def respEnd (s : State) (status : Nat) (data : List Byte) : State :=
  match s.porter.i3c.busyCmd with
  | some (cmd, wanted) =>
    let s := s.modI3c fun i => { i with busyCmd := none }
    if wanted then respReady s cmd.toNat status data else s
  | none => s

/-! ### Entries (Table 13.11) -/

abbrev CalStatus.ok : Nat := 0
abbrev CalStatus.badId : Nat := 1
abbrev CalStatus.badIndex : Nat := 2
abbrev CalStatus.outOfBand : Nat := 3
abbrev CalStatus.full : Nat := 4
abbrev CalStatus.notReady : Nat := 5
abbrev CalStatus.flashFail : Nat := 6

abbrev Cal.hostRes : Nat := 1
abbrev Cal.ringSplit : Nat := 2
abbrev Cal.throttleDram : Nat := 3
abbrev Cal.throttleLogic : Nat := 4
abbrev Cal.sensorOffset : Nat := 5

def calKey (id idx : Nat) : Nat := id * 65536 + idx

/-- Indexes that an ID has; 0 for an ID not in the table. -/
def calIndexes (id : Nat) : Nat :=
  match id with
  | 1 => 1 | 2 => 12 | 3 => 1 | 4 => 1 | 5 => 4608 | 6 => 48 | 7 => 16 | 8 => 16 | _ => 0

/-- Factory value. -/
def calFactory (id : Nat) : Dword :=
  match id with
  | 1 => 32 | 2 => 32 | 3 => 800 | 4 => 800 | 7 => 15 | 8 => 15 | _ => 0

/-- Whether a value lies in its range. -/
def calRange (id : Nat) (v : Dword) : Bool :=
  let n := v.toNat
  match id with
  | 1 => 32 ≤ n && n ≤ 128 && n % 4 == 0
  | 2 => n ≤ 64 && n % 16 == 0
  | 3 => 720 ≤ n && n ≤ 800
  | 4 => 720 ≤ n && n ≤ 800
  | 5 => -40 ≤ v.toInt && v.toInt ≤ 40
  | 6 => n ≤ Config.eqFabricPresets
  | 7 => n ≤ 10 || n == 15
  | 8 => n ≤ 10 || n == 15
  | _ => false

/-- Entries that take effect at the next cold bring-up. -/
def calCold (id : Nat) : Bool := id == 1 || id == 2

/-- A user entry that applies: held and in its range (R375). -/
def State.userCal (s : State) (id idx : Nat) : Option Dword :=
  match sfind s.porter.flash.userCal (calKey id idx) with
  | some v => if calRange id v then some v else none
  | none => none

/-- The value in effect, and whether it comes from a user entry (R376). -/
def State.calValue (s : State) (id idx : Nat) : Dword × Bool :=
  match (if calCold id then sfind s.porter.cal.cold (calKey id idx) else s.userCal id idx) with
  | some v => (v, true)
  | none => (calFactory id, false)

/-! ### Commands (R376, R377) -/

/-- Records of the report of a RESTORE_FACTORY (R377). -/
def reportBytes (l : List (Nat × Bool × Nat × Dword)) : List Byte :=
  l.flatMap fun (q : Nat × Bool × Nat × Dword) =>
    leBytes 8 (q.1 + (if q.2.1 then 256 else 0) + q.2.2.1 * 65536) ++ leBytes 8 q.2.2.2.toNat

/-- The user entries that RESTORE_FACTORY changes: id, pending, index, old value. -/
def restoreReport (s : State) : List (Nat × Bool × Nat × Dword) :=
  (s.porter.flash.userCal.filter fun (q : Nat × Dword) => calRange (q.1 / 65536) q.2 && q.2 != calFactory (q.1 / 65536)).map
    fun (q : Nat × Dword) => (q.1 / 65536, calCold (q.1 / 65536), q.1 % 65536, q.2)

/-- The user area written as the next copy (R375). -/
def State.setUserCal (s : State) (t : Sparse Dword) : State :=
  s.modPorter fun p =>
    { p with flash := { p.flash with userCal := t, userOld := p.flash.userCal, userSeq := p.flash.userSeq + 1 } }

/-- RESTORE_FACTORY: the user area emptied and the report written. -/
def restoreFactory (s : State) : State :=
  let l := restoreReport s
  let c := s.porter.cal
  let a := c.repHi.toNat * 2 ^ 32 + c.repLo.toNat
  let s := ((s.setUserCal []).modCal fun c => { c with report := l, count := l.length }).logEvent 0x0C 0 0 (min l.length 4095)
  if a = 0 ∨ s.inHost a 16384 = false then s else s.write .park a (reportBytes l) false

/-- What a command does, with its status and, for a READ, the value and its origin. -/
def calRun (s : State) (c : CalCmd) (flashOk : Bool) : State × Nat × Dword × Bool :=
  let none_ := fun (s : State) (st : Nat) => (s, st, (0 : Dword), false)
  let k := calKey c.id c.index
  let t := s.porter.flash.userCal
  if !s.running then none_ s CalStatus.notReady
  else if c.op = .restore then
    if flashOk then none_ (restoreFactory s) CalStatus.ok else none_ s CalStatus.flashFail
  else if calIndexes c.id = 0 then none_ s CalStatus.badId
  else if calIndexes c.id ≤ c.index then none_ s CalStatus.badIndex
  else match c.op with
    | .read => (s, CalStatus.ok, (s.calValue c.id c.index).1, (s.calValue c.id c.index).2)
    | .write =>
      if !calRange c.id c.value then none_ s CalStatus.outOfBand
      else if (sfind t k).isNone && 1024 ≤ t.length then none_ s CalStatus.full
      else if !flashOk then none_ s CalStatus.flashFail
      else none_ (s.setUserCal (sset t k c.value)) CalStatus.ok
    | _ =>
      if (sfind t k).isNone then none_ s CalStatus.ok
      else if !flashOk then none_ s CalStatus.flashFail
      else none_ (s.setUserCal (sdel t k)) CalStatus.ok

/-- A write to PRT_CAL_CMD of one of its four commands. -/
def calHost (s : State) (op : CalOp) : State :=
  let c := s.porter.cal
  if c.busy then s.modCal fun c => { c with err := true }
  else s.modCal fun c =>
    { c with busy := true, queue := c.queue ++ [{ op := op, i3c := false, id := c.id, index := c.index, value := c.val }] }

/-- CAL_OP_READ (R376). -/
def execCalOpRead (s : State) : Result := .next (if s.porterUp then calHost s .read else s)
/-- CAL_OP_WRITE (R376). -/
def execCalOpWrite (s : State) : Result := .next (if s.porterUp then calHost s .write else s)
/-- CAL_OP_CLEAR (R376). -/
def execCalOpClear (s : State) : Result := .next (if s.porterUp then calHost s .clear else s)
/-- CAL_RESTORE_FACTORY (R377). -/
def execCalRestoreFactory (s : State) : Result := .next (if s.porterUp then calHost s .restore else s)

/-- The registers, or the response, that a command ends with. -/
def calReport (s : State) (c : CalCmd) (r : Nat × Dword × Bool) : State :=
  let st := BitVec.ofNat 8 r.1
  if c.i3c then
    let data := match c.op with
      | .read => [st, if r.2.2 then 1 else 0] ++ leBytes 8 r.2.1.toNat
      | .restore => st :: leBytes 2 (if r.1 = CalStatus.ok then s.porter.cal.count else 0)
      | _ => [st]
    respEnd s Frame.ok data
  else s.modCal fun k =>
    let k := { k with busy := false, status := r.1 }
    if c.op = .read ∧ r.1 = CalStatus.ok then { k with val := r.2.1, user := r.2.2 } else k

/-- CAL_COMMAND_DONE (R376): the command at the head of the queue ends; `flashOk`: a flash write it makes succeeds. A warm
reset that waited for the write starts. -/
def execCalCommandDone (flashOk : Bool) (s : State) : Result :=
  .next <|
    match s.porter.cal.queue with
    | [] => s
    | c :: l =>
      let r := calRun s c flashOk
      let s := calReport (r.1.modCal fun k => { k with queue := l }) c r.2
      match s.porter.warmWait with
      | some src =>
        if s.flashBusy then s
        else if s.resetsIgnored then s.modPorter fun p => { p with warmWait := none, rstErr := true }
        else warmReset s src
      | none => s

end Sys2Proof.Machine
end

