-- ==== Sys2Proof/Machine/Bringup.lean ====
section
/-! DEFINITION. The cold bring-up, and the losses of clocks and power that end in one (R4, R5, R18 to R25, R290 to R293,
R346, R347, R350, R356 to R367). -/

namespace Sys2Proof.Machine

/-! ### Without power (R422, R431) -/

/-- The module without power: what flash, fuses, far memory and the pins hold remains; a park package that failed in service
is remembered until the next bring-up (R380; log entry 125). -/
def powerOff (s : State) (phase : PowerPhase) : State :=
  let w := s.porter.power
  { now := s.now, fresh := s.fresh, out := s.out, pending := s.pending
    mem := s.mem.filter fun c => c.1 % 8192 == Region.far.number
    poison := s.poison.filter fun c => c.1 % 8192 == Region.far.number
    porter := { flash := s.porter.flash, fuses := s.porter.fuses
                power := { phase := phase, since := s.now, en := w.en, mv := w.mv, ma := w.ma }
                host := { portaPerst := s.porter.host.portaPerst, parkDead := s.porter.host.parkDead } } }

/-! ### A bring-up that halts (R362) -/

/-- HALTED with a code of Table 13.4: only management and attestation run on. -/
def bootHalt (s : State) (code : Nat) : State :=
  let s := (s.modPorter fun p => { p with stage := .halted, fail := code, boot := none }).modHost fun d =>
    { d with pbPerst := false, coresRun := false }
  ((s.logEvent 0x07 0 0 code).replaceCause 9).raiseAlert 3

/-! ### ROM and PORTER -/

/-- Whether a bundle's class counters pass the fused ones (R452). -/
def State.svnOk (s : State) (b : Bundle) : Bool :=
  s.porter.fuses.svnPorter ≤ b.svnPorter && s.porter.fuses.svnHall ≤ b.svnHall && s.porter.fuses.svnPhy ≤ b.svnPhy

def State.bundleIn (s : State) (slotB : Bool) : Bundle := if slotB then s.porter.flash.slotB else s.porter.flash.slotA

/-- The slot tried first: the higher level, A first with equal levels (true is B). -/
def State.firstSlot (s : State) : Bool := s.porter.flash.slotA.level.toNat < s.porter.flash.slotB.level.toNat

/-- Whether the porter firmware, or the images, of a slot verify. -/
def porterVerifies (s : State) (r : BringupReport) (b : Bool) : Bool :=
  (if b then r.porterOk.2 else r.porterOk.1) && s.porter.fuses.svnPorter ≤ (s.bundleIn b).svnPorter
def imagesVerify (s : State) (r : BringupReport) (b : Bool) : Bool :=
  (if b then r.imagesOk.2 else r.imagesOk.1) && s.porter.fuses.svnHall ≤ (s.bundleIn b).svnHall
    && s.porter.fuses.svnPhy ≤ (s.bundleIn b).svnPhy

/-- A power-up record that is there and passes its CRC-32. -/
def validRecord (ok : Bool) (r : Option Word) : Option Word := if ok then r else none

/-- The higher valid power-up record, raised by 1 and saturating; 1 when neither is valid (R350). -/
def nextPowerup (f : Flash) (r : BringupReport) : Word × Bool :=
  match validRecord r.pucOk.1 f.pucA, validRecord r.pucOk.2 f.pucB with
  | none, none => (1, true)
  | a, b =>
    let n := max (a.getD 0).toNat (b.getD 0).toNat
    (BitVec.ofNat 32 (min (n + 1) (2 ^ 32 - 1)), false)

/-- The new count written to the record that does not hold the higher valid one, and read back (R350). A record that does
not read back is not valid. -/
def writePowerup (f : Flash) (r : BringupReport) : Flash :=
  let a := validRecord r.pucOk.1 f.pucA
  let b := validRecord r.pucOk.2 f.pucB
  let new := if r.pucWritten then some (nextPowerup f r).1 else none
  let holdsA : Bool := match a, b with
    | some x, some y => decide (y.toNat ≤ x.toNat)
    | some _, none => true
    | none, _ => false
  if holdsA then { f with pucA := a, pucB := new } else { f with pucA := new, pucB := b }

/-- The copy of an area that bring-up takes: the newer of those that pass their CRC-32, none when neither does (R366, R375). -/
def validCopy {α : Type} (ok : Bool × Bool) (new old : List α) : Option (List α) :=
  if ok.1 then some new else if ok.2 then some old else none

/-- What flash holds once the porter has started: the power-up count raised, the copies of each area that bring-up takes, and
which slots verify. -/
def bootFlash (s : State) (r : BringupReport) : Flash :=
  let f := writePowerup s.porter.flash r
  { f with softmap := (validCopy r.softmapOk f.softmap f.softOld).getD []
           userCal := (validCopy r.userCalOk f.userCal f.userOld).getD []
           slotA := { f.slotA with verifies := porterVerifies s r false && imagesVerify s r false }
           slotB := { f.slotB with verifies := porterVerifies s r true && imagesVerify s r true } }

/-- What the porter reports of the areas it reads from flash (R350, R366, R375). -/
def bootFlashEvents (s : State) (r : BringupReport) (pucLost : Bool) : State :=
  let s := if pucLost then (s.modHost fun d => { d with pucLost := true }).logEvent 0x04 0 0 0 else s
  let s := if r.userCalOk.1 || r.userCalOk.2 then s else (s.modCal fun c => { c with userLost := true }).logEvent 0x05 0 0 0
  if r.softmapOk.1 || r.softmapOk.2 then s
  else ((s.modPorter fun p => { p with softLost := true }).logEvent 0x06 0 0 0).replaceCause 8

/-- The porter's start: power-up count raised, flash areas read (R350, R366, R375, R475). -/
def bootPorter (s : State) (r : BringupReport) (slotB : Bool) : State :=
  let n := nextPowerup s.porter.flash r
  let f := bootFlash s r
  let s := s.modPorter fun p => { p with stage := .porter, slotB := slotB, powerup := n.1, running := s.bundleIn slotB, flash := f }
  bootFlashEvents (if slotB = s.firstSlot then s else s.logEvent 0x0F 0 0 0) r n.2

/-! ### Calibration at a cold bring-up (R22, R291, R375) -/

/-- An entry of an ID that takes effect now: applied when it is valid; missing or invalid it takes its factory value, and is
logged. -/
def applyCold (s : State) (id idx : Nat) : State :=
  match s.userCal id idx with
  | some v => s.modCal fun c => { c with cold := sset c.cold (calKey id idx) v }
  | none => s.logEvent 0x03 (if id = Cal.ringSplit then idx else 0) 0 id

/-- Entries of the other IDs outside their range are ignored and logged. -/
def ignoredCals (s : State) : State :=
  (s.porter.flash.userCal.filter fun (q : Nat × Dword) => !calCold (q.1 / 65536) && !calRange (q.1 / 65536) q.2).foldl
    (fun (s : State) (q : Nat × Dword) => s.logEvent 0x03 0 0 (q.1 / 65536)) s

def bootCal (s : State) : State :=
  let s := ignoredCals (applyCold s Cal.hostRes 0)
  let s := (List.range 12).foldl (fun (s : State) (h : Nat) => applyCold s Cal.ringSplit h) s
  s.modHost fun d => { d with hostRes := (s.calValue Cal.hostRes 0).1.toNat * gib }

/-! ### LINKS (R4, R5, R290 to R293, R342, R476, R477) -/

/-- Stepping codes that disagree. -/
def steppingBad (s : State) (r : BringupReport) : Bool :=
  (List.range 12).any fun h => r.hallSteps.getD h s.porter.fuses.stepCode != s.porter.fuses.stepCode

/-- Lanes of a hall's host module: ×64, ×32, or none (R290). -/
def hostWidth (t : LinkTrain) : Nat := if 64 ≤ t.lanes then 64 else if 32 ≤ t.lanes then 32 else 0

/-- Trained lanes of the link from a hall to the next one clockwise: what both ends steer (R292), less whole groups of 16
lanes that lane repair cannot keep (R290). -/
def ringWidth (s : State) (t : LinkTrain) (h : HallId) : Nat :=
  if !s.hallNet h || !s.hallNet (ringNext h true) then 0
  else min (min (s.calValue Cal.ringSplit h).1.toNat (64 - (s.calValue Cal.ringSplit (ringNext h true)).1.toNat)) t.lanes / 16 * 16

/-- A link of `w` lanes as it has trained: the highest rate at which training succeeds, 32 GT/s down to 4 GT/s (R290). -/
def trained (t : LinkTrain) (w : Nat) : Ucie :=
  if w = 0 then {} else { width := w, rate := min 6 (max 1 t.rate), spares := min 15 t.spares }

/-- A hall's PLL locks, or not, and its network domain is released with its elapsed counter (R342, R348). -/
def bootHall (r : BringupReport) (s : State) (h : HallId) : State :=
  let ok := !r.pllFail.elem h
  s.modHall h fun x =>
    { x with stepCode := r.hallSteps.getD h s.porter.fuses.stepCode, pllLocked := ok, netUp := ok, elapsedOn := ok }

/-- A hall's UCIe modules trained (R290 to R292). -/
def trainHall (r : BringupReport) (s : State) (h : HallId) : State :=
  let ring := fun (g : HallId) => r.ringTrain.getD g {}
  let host := r.hostTrain.getD h {}
  let before := ringNext h false
  s.modHall h fun x =>
    { x with splitCw := (s.calValue Cal.ringSplit h).1.toNat
             hostLink := trained host (if s.hallNet h then hostWidth host else 0)
             cwLink := trained (ring h) (ringWidth s (ring h) h)
             ccwLink := trained (ring before) (ringWidth s (ring before) before) }

/-- The first part of LINKS: clocks, network domains and elapsed counters. -/
def bootNet (s : State) (r : BringupReport) : State :=
  (List.finRange 12).foldl (bootHall r) ((bootCal s).modPorter fun p => { p with stage := .links })

/-- The second part of LINKS: the links train and the ring is routed; the ports begin training. -/
def bootLinks (s : State) (r : BringupReport) : State :=
  let s := (List.finRange 12).foldl (trainHall r) s
  let s := reroute ((s.modPorter fun p => { p with stage := .links }).modHost fun d => { d with pbRefclk := some s.now })
  let s := (List.finRange 12).foldl (fun (s : State) (h : HallId) =>
    if s.hallNet h && (s.port h).en then startTraining s h else s) s
  if (List.finRange 12).any fun (h : HallId) =>
      ((s.hall h).netUp && ((s.hall h).hostLink.width == 32 || ((s.hall h).hostLink.width == 64 && Config.ucieSpares ≤ (s.hall h).hostLink.spares)))
        || (s.hall h).cwLink.width == 0 then s.replaceCause 3 else s

/-! ### RECONCILE (R363, Table 13.5) -/

/-- The fate of one unit: whether it is fenced, with the soft map and the event log as Table 13.5 gives. `tested`: its hall
could be tested. -/
def judge (s : State) (kind h unit : Nat) (tested fails : Bool) : State × Bool :=
  if s.mapHolds kind h unit then (if tested && !fails then s.logEvent 0x01 h unit kind else s, true)
  else if fails then ((softAdd s kind h unit 1).logEvent 0x02 h unit kind, true)
  else (s, false)

/-- Signal bonds of a stairwell that fail their test; spare bonds replace up to 64 (R18). -/
def bondsOf (r : BringupReport) (h : HallId) (p : SwId) : Nat :=
  ((r.bondFail.find? fun q => q.1 == h && q.2.1 == p).map fun q => q.2.2).getD 0

/-- The stairwells of a hall judged (R363). A column that fails its own test cannot be adopted. -/
def judgeStairs (s : State) (r : BringupReport) (h : HallId) : State :=
  let t := (s.hall h).netUp
  let s := r.landFail.foldl (fun (s : State) (q : HallId × SwId × LayerId) =>
    if q.1 = h then s.modLanding h q.2.1 q.2.2 fun x => { x with failed := true } else s) s
  (List.finRange 256).foldl (fun (s : State) (p : SwId) =>
    let col := r.colFail.any fun q => q.1 == h && q.2 == p
    let bonds := bondsOf r h p
    let bad := col || (r.swFail.any fun q => q.1 == h && q.2 == p) || (r.landFail.any fun q => q.1 == h && q.2.1 == p)
      || decide (64 < bonds) || !swLoads s r.load h p
    let f := judge s 1 h p t bad
    f.1.modStair h p fun x => { x with fenced := f.2, colGood := !col, selfRef := true, bonds := min 64 bonds, mcode := s.porter.store }) s

def judgeHallParts (s : State) (r : BringupReport) (h : HallId) : State :=
  let t := (s.hall h).netUp
  let s := (List.finRange 4).foldl (fun (s : State) (u : UsherId) =>
    let f := judge s 2 h u t ((r.usherFail.any fun q => q.1 == h && q.2 == u) || !usherLoads s r.load h u)
    if f.2 then f.1.modHall h fun x => { x with ushersEn := x.ushersEn &&& ~~~(BitVec.ofNat 4 (2 ^ u.val)) } else f.1) s
  let s := (List.finRange 96).foldl (fun (s : State) (i : Fin 96) =>
    let f := judge s 3 h i t (r.sliceFail.any fun q => q.1 == h && q.2 == i)
    if f.2 then f.1.modHall h fun x => { x with slicesOff := x.slicesOff ++ [i.val] } else f.1) s
  (List.finRange 12).foldl (fun (s : State) (l : LayerId) =>
    let f := judge s 4 h l t (r.layerFail.any fun q => q.1 == h && q.2 == l)
    if f.2 then retireLayer (f.1.modHall h fun x => { x with layerLost := x.layerLost ||| BitVec.ofNat 12 (2 ^ l.val) }) h l else f.1) s

/-- The cause with which a hall's compute is fenced at a cold bring-up (R365, Table 13.4), none when it goes in service. -/
def bootCause (s : State) (r : BringupReport) (h : HallId) (inMap : Bool) : Option Nat :=
  let x := s.hall h
  if inMap then some 7
  else if r.pllFail.elem h || x.railFail then some 5
  else if x.hostLink.width = 0 then some 1
  else if !hallLoads s r.load h then some 6
  else if r.trip.elem h then some 2
  else if x.ushersEn = 0 then some 3
  else none

/-- One hall reconciled: its stairwells, ushers, slices, layers and itself; numbers and adoptions. -/
def reconcileHall (s : State) (r : BringupReport) (h : HallId) : State :=
  let s := judgeHallParts (judgeStairs s r h) r h
  let inMap := s.mapHolds 6 h 0
  let f := judge s 6 h 0 true (r.pllFail.elem h)
  let s := f.1
  let c := bootCause s r h inMap
  let s := if r.trip.elem h then (s.logEvent 0x0A h 0 0).raiseAlert 2 else s
  let s := s.modHall h fun x =>
    { x with state := if c.isSome then .fenced else .enabled, cause := c.getD 0
             ucode := s.porter.store.elim [] fun i => tab 4 fun u => (u, i)
             therm := { x.therm with lowTemp := c.isNone && r.coldDram.elem h } }
  wakeColumns (adoptAll (assignNumbers (drawSeed s h) h) h) h

/-- Replace-request causes that the reconciliation shows (R367, R396). -/
def bootCauses (s : State) : State :=
  let any := fun (f : Nat → Bool) => (List.range 12).any f
  let s := if any fun h => s.hallUp h && countN 256 (fun p => s.swGood h p) < 240 then s.replaceCause 0 else s
  let s := if any fun h => s.hallFenced h then s.replaceCause 1 else s
  let s := if any fun h => (s.hall h).layerLost != 0 then s.replaceCause 2 else s
  let s := if any fun h => 8 < (s.hall h).slicesOff.length then s.replaceCause 10 else s
  if s.porter.host.coresOn = 0xFFFFFF then s else s.replaceCause 11

def reconcile (s : State) (r : BringupReport) : State :=
  let s := (List.finRange 12).foldl (fun (s : State) (h : HallId) => reconcileHall s r h) s
  let s := (List.finRange 24).foldl (fun (s : State) (c : Fin 24) =>
    let f := judge s 5 0 c true (r.coreFail.elem c)
    if f.2 then f.1.modHost fun d => { d with coresOn := d.coresOn &&& ~~~(BitVec.ofNat 24 (2 ^ c.val)) } else f.1) s
  bootCauses s

/-! ### The stages (Table 13.3) -/

/-- From PARK_TRAIN to INIT, where the hand-off waits. A package that failed in the power-up before is fenced as one that
does not train, and the bring-up halts (R23, R380). -/
def bootRest (s : State) (r : BringupReport) : State :=
  let s := s.modPorter fun p => { p with stage := .parkTrain, boot := none }
  let failed := r.parkFail.foldl (fun (w : BitVec 24) (p : Fin 24) => w ||| BitVec.ofNat 24 (2 ^ p.val)) s.porter.host.parkDead
  if failed != 0 then
    let s := s.modHost fun d => { d with parkFailed := d.parkFailed ||| failed, parkDead := 0 }
    bootHalt (s.replaceCause 7) 4
  else
    let s := s.modHost fun d => { d with coresRun := true }
    let b := s.porter.slotB
    match (if imagesVerify s r b then some b else if imagesVerify s r (!b) then some (!b) else none) with
    | none => bootHalt (s.modPorter fun p => { p with stage := .microcode }) 5
    | some img =>
      let s := s.modPorter fun p =>
        { p with store := some (s.bundleIn img).identHall
                 running :=
            { p.running with
              svnHall := (s.bundleIn img).svnHall, svnPhy := (s.bundleIn img).svnPhy, identHall := (s.bundleIn img).identHall } }
      let s := if img = b ∧ img = s.firstSlot then s else s.logEvent 0x0F 0 0 1
      let s := reconcile s r
      s.modPorter fun p =>
        { p with stage := .init, res := { p.res with base := (Config.resPage % (s.hostRes / 4096 - 2)) * 4096 } }

/-- From the verified porter firmware on. While a sensor reads below 0 °C it waits in COLD_WAIT (R359). -/
def bootPorterUp (s : State) (r : BringupReport) (slotB : Bool) : State :=
  let s := bootPorter s r slotB
  if !r.factoryCalOk then bootHalt s 2
  else
    let s := bootNet s r
    if steppingBad s r then bootHalt s 3
    else if r.coldSensor then s.modPorter fun p => { p with stage := .coldWait, boot := some r }
    else bootRest (bootLinks s r) r

/-- PORTER_RELEASE (R358): the porter is released once the rails are up, and runs the cold bring-up through its stages. -/
def execPorterRelease (r : BringupReport) (slotStraps : Fin 8) (s : State) : Result :=
  .next <|
    if s.porter.power.phase ≠ .sequencing then s
    else
      -- the porter's domain is released: its elapsed counter starts, and the straps are read
      let s := s.modPorter fun p =>
        { p with power := { p.power with phase := .on, since := s.now, pwrgd := true }, elapsed := 0, elapsedOn := true
                 i3c := { slot := slotStraps } }
      let b := s.firstSlot
      if porterVerifies s r b then bootPorterUp s r b
      else if porterVerifies s r (!b) then bootPorterUp s r (!b)
      -- the boot ROM answers only identity and status
      else s.modPorter fun p => { p with fail := 1 }

/-! ### Clocks lost (R346, R347) -/

/-- PLL_LOCK_LOSS (R346). -/
def execPllLockLoss (h : HallId) (s : State) : Result :=
  .next <|
    if (s.hall h).pllLocked then
      let s := s.modHall h fun x => { x with pllLocked := false }
      if s.hallNet h then (loseNetwork s h).replaceCause 9 else s
    else s

/-- Compute and network domains of a hall held in reset until the next cold bring-up: its columns stand in self-refresh, and
its PLL, without reference or supply, is not locked. -/
def holdHall (s : State) (h : HallId) : State :=
  let s := stopHall s h true false
  (portDown s h Reason.none_).modHall h fun x => { x with state := .off, netUp := false, pllLocked := false, coreDiv := 0 }

/-- REF_LOST (R347): every park package enters self-refresh. -/
def execRefLost (s : State) : Result :=
  .next <|
    if !s.porterUp || s.porter.host.refLost then s
    else
      let s := (List.finRange 12).foldl holdHall s
      let s := { s with halls := s.halls.map fun (q : Nat × Hall) => (q.1, { q.2 with elapsedOn := false }) }
      let s := s.modPorter fun p =>
        { p with elapsedOn := false, host := { p.host with refLost := true, coresRun := false, parkSelfRef := 0xFFFFFF } }
      s.replaceCause 9

end Sys2Proof.Machine
end

