-- ==== Sys2Proof/Machine/Clasps.lean ====
section
/-! DEFINITION. Clasp operations as commands (Table 7.2): each is presented by the requester that stands at it. -/

namespace Sys2Proof.Machine

/-- CTR_INIT. -/
def execCtrInit (rq : Requester) (k : ClaspId) (v : Word) (s : State) : Result := .next (settle (claspRequest s rq 0x01 k v))
/-- FLAG_INIT. -/
def execFlagInit (rq : Requester) (k : ClaspId) (v : Word) (s : State) : Result := .next (settle (claspRequest s rq 0x02 k v))
/-- LOCK_INIT. -/
def execLockInit (rq : Requester) (k : ClaspId) (v : Word) (s : State) : Result := .next (settle (claspRequest s rq 0x03 k v))
/-- DROP. -/
def execDrop (rq : Requester) (k : ClaspId) (v : Word) (s : State) : Result := .next (settle (claspRequest s rq 0x04 k v))
/-- CTR_ADD. -/
def execCtrAdd (rq : Requester) (k : ClaspId) (v : Word) (s : State) : Result := .next (settle (claspRequest s rq 0x10 k v))
/-- CTR_ARRIVE (R208). -/
def execCtrArrive (rq : Requester) (k : ClaspId) (v : Word) (s : State) : Result :=
  .next (settle (claspRequest s rq 0x11 k v))
/-- CTR_WAIT (R208). -/
def execCtrWait (rq : Requester) (k : ClaspId) (v : Word) (s : State) : Result := .next (settle (claspRequest s rq 0x12 k v))
/-- CTR_SET. -/
def execCtrSet (rq : Requester) (k : ClaspId) (v : Word) (s : State) : Result := .next (settle (claspRequest s rq 0x13 k v))
/-- FLAG_SET. -/
def execFlagSet (rq : Requester) (k : ClaspId) (v : Word) (s : State) : Result := .next (settle (claspRequest s rq 0x20 k v))
/-- FLAG_CLEAR. -/
def execFlagClear (rq : Requester) (k : ClaspId) (v : Word) (s : State) : Result :=
  .next (settle (claspRequest s rq 0x21 k v))
/-- FLAG_WAIT. -/
def execFlagWait (rq : Requester) (k : ClaspId) (v : Word) (s : State) : Result := .next (settle (claspRequest s rq 0x22 k v))
/-- LOCK_TRY (R211). -/
def execLockTry (rq : Requester) (k : ClaspId) (v : Word) (s : State) : Result := .next (settle (claspRequest s rq 0x30 k v))
/-- LOCK_TAKE (R211). -/
def execLockTake (rq : Requester) (k : ClaspId) (v : Word) (s : State) : Result := .next (settle (claspRequest s rq 0x31 k v))
/-- LOCK_RELEASE (R211). -/
def execLockRelease (rq : Requester) (k : ClaspId) (v : Word) (s : State) : Result :=
  .next (settle (claspRequest s rq 0x32 k v))
/-- LOCK_BREAK (R211). -/
def execLockBreak (rq : Requester) (k : ClaspId) (v : Word) (s : State) : Result :=
  .next (settle (claspRequest s rq 0x33 k v))

/-- CLASP_OP (R207, R251). -/
def execClaspOp (c : Nat) (s : State) : Result :=
  .next <| withClaim s c 0x31 fun x =>
    if !s.hallUp x.hall then s
    else if anySet x.desc [(8, 8, 24), (0x0C, 16, 16), (0x14, 0, 352)] then s.complete c x.hall Status.badReserved (refusedPart s x.hall x.desc Status.badReserved 0)
    else
      settle (claspRequest s (.host c) (fld x.desc 8 0 8) (BitVec.ofNat 16 (fld x.desc 0x0C 0 16))
        (BitVec.ofNat 32 (fld x.desc 0x10 0 32)))

/-- CLASP_REPRESENT (R214): a wait that found the limits full, or one held off by a binding's lock (R228), is presented
again. -/
def execClaspRepresent (i : Nat) (s : State) : Result := .next (settle (representAt s i false))

end Sys2Proof.Machine
end

