-- ==== Sys2Proof/Machine/PowerOps.lean ====
section
/-! DEFINITION. Caps, the drawn share D, the module step schedule, and what removes power (R409, R411, R412, R415, R418, R427,
R430 to R433). -/

namespace Sys2Proof.Machine

/-! ### Caps (R409) -/

/-- Cap of a thermal level. -/
def levelCap (l : Nat) : Nat := if l = 0 then 16 else if l = 1 then 8 else 4

/-- C of a hall: the lowest of the caps in force. -/
def capOf (s : State) (h : Nat) : Nat :=
  let x := s.hall h
  let t := x.therm
  let cool := match s.porter.cool.state with
    | .hold => 4 | .lost => 0 | .dramLost => 0 | _ => 16
  let off := t.tripped || x.railFail || s.porter.power.phase == .powerDown
  min (levelCap t.level) (min (if t.lowTemp then 8 else 16) (min cool (if off then 0 else 16)))

/-- HALL_CLK.CAUSE: cooling, then thermal, then low temperature; 0 after a trip. -/
def capCause (s : State) (h : Nat) : Nat :=
  let t := (s.hall h).therm
  let st := s.porter.cool.state
  if t.tripped then 0
  else if st == .hold || st == .lost || st == .dramLost then 3
  else if t.level ≠ 0 then 1
  else if t.lowTemp then 2 else 0

/-- Division level that a cap asks for. -/
def divOf (c : Nat) : Nat := if 8 < c then 0 else if 4 < c then 1 else 2

/-- A skip count converted so that its rate is unchanged (R410). -/
def halveK (k : Nat) : Nat := 2 * k - 16
def doubleK (k : Nat) : Nat := if k = 0 then 0 else (16 + k + 1) / 2

/-- Every skip count of a hall converted; stairwells of a failed pair stay at 12 (Table 15.4). -/
def convertK (s : State) (h : Nat) (f : Nat → Nat) : State :=
  { s with stairs := s.stairs.map fun (q : Nat × Stairwell) =>
      if q.1 / 256 == h && !q.2.fixed then (q.1, { q.2 with k := f q.2.k }) else q }

/-- The divisor follows C, one level at a time, where D equals 8 or 4 (R344, R409). -/
def followDiv (s : State) (h : Nat) : State :=
  let x := s.hall h
  let want := divOf (capOf s h)
  let s := s.modHall h fun x => { x with clkCause := capCause s h }
  let down := fun (s : State) => convertK (s.modHall h fun x => { x with coreDiv := x.coreDiv + 1 }) h halveK
  let up := fun (s : State) => convertK (s.modHall h fun x => { x with coreDiv := x.coreDiv - 1 }) h doubleK
  if x.therm.d = 8 then
    if x.coreDiv = 0 ∧ 1 ≤ want then down s else if x.coreDiv = 1 ∧ want = 0 then up s else s
  else if x.therm.d = 4 then
    if x.coreDiv = 1 ∧ want = 2 then down s else if x.coreDiv = 2 ∧ want ≤ 1 then up s else s
  else s

/-! ### Loads removed (R415, R430) -/

/-- The next load of Table 16.3 removed: the halls in rising number, the park tier, the Pelaitik core. An orderly power-down
then ends: PWRGD falls, the switch opens, bleed starts. -/
def removeLoad (s : State) : State :=
  let n := s.porter.power.loadsOff
  let s := if n < 12 then holdHall s (Fin.ofNat 12 n) else if n = 13 then s.modHost fun d => { d with coresRun := false } else s
  let s := s.modPorter fun p => { p with power := { p.power with loadsOff := n + 1 } }
  if n = 13 ∧ s.porter.power.phase = .powerDown then powerOff s .bleeding else s

/-- Whether loads are to be removed: D is 0 in every hall of a module that powers down or has lost its DRAM. -/
def removesLoads (s : State) : Bool :=
  (s.porter.power.phase == .powerDown || s.porter.cool.state == .dramLost) && s.porter.power.loadsOff < 14
    && allN 12 fun h => (s.hall h).therm.d == 0

/-! ### The step schedule (R412, R427) -/

/-- D of a hall changed by one step, the divisor with it, and the hall held when it is due. -/
def stepD (s : State) (h : HallId) (up : Bool) : State :=
  let s := s.modHall h fun x =>
    { x with therm := { x.therm with d := if up then x.therm.d + 1 else x.therm.d - 1, step := 0 } }
  settle (holdLost (followDiv s h) h)

/-- D_STEP_SLOT (R412): at least 16.7 µs after the slot before. Forced steps first, round-robin over halls; then ordinary
steps; then loads to be removed. -/
def execDStepSlot (s : State) : Result :=
  .next <|
    let w := s.porter.power
    let due := match w.lastStep with
      | some t => t + 1670 ≤ s.now
      | none => true
    let use := fun (s : State) (h : Nat) =>
      s.modPorter fun p => { p with power := { p.power with lastStep := some s.now, slotsNow := p.power.slotsNow + 1, lastHall := h } }
    if !due || !(w.phase == .on || w.phase == .powerDown) then s
    else match rrNext 12 w.lastHall fun h => capOf s h < (s.hall h).therm.d with
      | some h => stepD (use s h) (Fin.ofNat 12 h) false
      | none =>
        match rrNext 12 w.lastHall fun h => (s.hall h).therm.step != 0 with
        | some h => stepD (use s h) (Fin.ofNat 12 h) ((s.hall h).therm.step == 1)
        | none => if removesLoads s then removeLoad (use s w.lastHall) else s

/-! ### Start, power-down and loss (R421, R429 to R434) -/

/-- START_GATE_OPEN (R421, R429, R432): the enable pin is high and the input has been in range for 10 ms; after a loss or a
power-down the bulk has also fallen below 5 V, 2.0 s from its start. The rails then sequence. -/
def execStartGateOpen (s : State) : Result :=
  .next <|
    let w := s.porter.power
    let ready := w.phase == .unpowered || (w.phase == .bleeding && s.passed w.since 2000000)
    if ready then
      let s := powerOff s .sequencing
      s.modPorter fun p => { p with power := { p.power with en := true } }
    else s

def setEn (s : State) (b : Bool) : State := s.modPorter fun p => { p with power := { p.power with en := b } }

/-- ENABLE_FALL (R430, R434): an orderly power-down; while the rails sequence they go off again at once. -/
def execEnableFall (s : State) : Result :=
  .next <|
    let s := setEn s false
    match s.porter.power.phase with
    | .on =>
      let s := (s.modPorter fun p => { p with power := { p.power with phase := .powerDown, since := s.now } }).modHost
        fun d => { d with pbPerst := false }
      settle ((List.finRange 12).foldl (fun (s : State) (h : HallId) => holdLost (followDiv s h) h) s)
    | .sequencing => powerOff s .bleeding
    | _ => s

/-- Power gone at once (R431). -/
def dropAll (s : State) : State :=
  match s.porter.power.phase with
  | .unpowered => s
  | .bleeding => s
  | _ => powerOff s .bleeding

/-- INPUT_LOSS (R431). -/
def execInputLoss (s : State) : Result := .next (dropAll s)

/-- PRT_PWR_STAT.RAIL_FAULT and RAIL_HALL set. -/
def railFault (s : State) (h : HallId) : State :=
  let new := !s.porter.power.railFault
  let s := s.modPorter fun p => { p with power := { p.power with railFault := true, railHall := h } }
  if new then s.raiseAlert 4 else s

/-- A core, SRAM or DRAM rail of a hall lost (R433). -/
def loseCompute (s : State) (h : HallId) : State :=
  fenceHall (railFault (s.modHall h fun x => { x with railFail := true }) h) h 5

/-- A network rail of a hall lost (R346, R433). -/
def loseNetRail (s : State) (h : HallId) : State := 
  (loseNetwork (railFault (s.modHall h fun x => { x with pllLocked := false }) h) h).replaceCause 9

/-- RAIL_PGOOD_TIMEOUT (R429): while the rails sequence. -/
def execRailPgoodTimeout (r : Rail) (s : State) : Result :=
  .next <|
    if s.porter.power.phase ≠ .sequencing then s
    else
      let fail := fun (h : HallId) => s.modHall h fun x => { x with railFail := true }
      match r with
      | .hallCore h => fail h
      | .hallSram h => fail h
      | .hallDram h => fail h
      | .hallNetwork h => fail h
      | _ => powerOff s .bleeding

/-- RAIL_PGOOD_LOSS (R433): in service. -/
def execRailPgoodLoss (r : Rail) (s : State) : Result :=
  .next <|
    if s.porter.power.phase ≠ .on then s
    else match r with
      | .hallCore h => loseCompute s h
      | .hallSram h => loseCompute s h
      | .hallDram h => loseCompute s h
      | .hallNetwork h => loseNetRail s h
      | _ => dropAll s

/-- INPUT_SAMPLE (R421, R435): voltage in mV and current in mA, every 10 µs. The round's means and warnings rest on it. -/
def execInputSample (mv ma : Nat) (s : State) : Result :=
  .next <| s.modPorter fun p =>
    let w := p.power
    { p with power := { w with mv := mv, ma := ma, vSum := w.vSum + mv, iSum := w.iSum + ma, pSum := w.pSum + mv * ma
                               nSum := w.nSum + 1, uvRound := w.uvRound || (38000 ≤ mv && mv < 40000)
                               ovRound := w.ovRound || (50000 < mv && mv ≤ 53000) } }

/-- PEAK_CLEAR (R437): a write to PRT_PWR_PEAK. -/
def peakClear (s : State) (w : Word) : State :=
  if bitAt w 16 then s.modPorter fun p => { p with power := { p.power with peak := 0 } } else s

def execPeakClear (w : Word) (s : State) : Result := .next (if s.porterUp then peakClear s w else s)

end Sys2Proof.Machine
end

