-- ==== Sys2Proof/Machine/Thermal.lean ====
section
/-! DEFINITION. The housekeeping round and the coolant window (R123, R399 to R420, R435, R436). Temperatures are in 0.125 °C. -/

namespace Sys2Proof.Machine

/-! ### Sensors (R400 to R406) -/

/-- 3.0 °C. -/
abbrev substitute : Int := 24

/-- A sensor after one round's reading (R401). -/
def Sensor.take (x : Sensor) (t : Int) : Sensor :=
  let kept := -320 ≤ t && t ≤ 1200
  let bad := if kept then 0 else x.bad + 1
  { temp := t, valid := kept, failed := x.failed || 16 ≤ bad, bad := bad }

/-- Its reading in this round, none when it is discarded or FAILED. -/
def Sensor.reading (x : Sensor) : Option Int := if x.valid && !x.failed then some x.temp else none

/-- The reading of two diodes (R401, R402). -/
def pairReading (a b : Sensor) : Option Int :=
  match a.reading, b.reading with
  | some t, some u => some (max t u)
  | some t, none => some (t + substitute)
  | none, some u => some (u + substitute)
  | none, none => none

def Hall.sensor (x : Hall) (c : Nat) : Sensor := sget x.therm.ch {} c

/-- Reading of logic pair `k`, and whether it is a failed pair (R403). -/
def Hall.pair (x : Hall) (k : Nat) : Option Int := pairReading (x.sensor (2 * k)) (x.sensor (2 * k + 1))
def Hall.pairFailed (x : Hall) (k : Nat) : Bool := (x.sensor (2 * k)).failed && (x.sensor (2 * k + 1)).failed

/-- The highest of some readings. -/
def hottest (l : List (Option Int)) : Option Int :=
  l.foldl (fun a b => match a, b with
    | some t, some u => some (max t u)
    | none, r => r
    | r, none => r) none

/-- The four logic pairs under a block. -/
def pairsUnder (b : Nat) : List Nat :=
  let k := 16 * (b / 4) + 2 * (b % 4)
  [k, k + 1, k + 8, k + 9]

/-- Reading of the DRAM sensor of a layer and block, by substitution downward when it is discarded or FAILED (R404). -/
def Hall.dram (x : Hall) (b : Nat) : Nat → Option Int
  | 0 =>
    match (x.sensor (128 + b)).reading with
    | some t => some t
    | none => (hottest ((pairsUnder b).map x.pair)).map fun t => t + substitute
  | l + 1 =>
    match (x.sensor (128 + 16 * (l + 1) + b)).reading with
    | some t => some t
    | none => (x.dram b l).map fun t => t + substitute

/-- The pair and the block over a stairwell (Table 15.1). -/
def pairOf (p : Nat) : Nat := p / 32 * 8 + p % 16 / 2
def blockUnder (p : Nat) : Nat := p / 64 * 4 + p % 16 / 4

/-- Stairwells that a pair, or a block, covers. -/
def pairCovers (k : Nat) : List Nat :=
  let a := 32 * (k / 8) + 2 * (k % 8)
  [a, a + 1, a + 16, a + 17]
def blockCovers (b : Nat) : List Nat :=
  (List.range 4).flatMap fun i => (List.range 4).map fun j => 16 * (4 * (b / 4) + i) + 4 * (b % 4) + j

/-- Every DRAM reading of a hall, by layer and block. -/
def Hall.drams (x : Hall) : List (Nat × Nat × Option Int) :=
  (List.range 12).flatMap fun l => (List.range 16).map fun b => (l, b, x.dram b l)
def Hall.pairs (x : Hall) : List (Nat × Option Int) := (List.range 64).map fun k => (k, x.pair k)

/-- One hall's channels read, with the user's offsets (R400), and its suspect pairs marked (R402). -/
def readHall (s : State) (h : Nat) (r : HallRound) : State :=
  let read := fun (x : Hall) (c : Nat) =>
    (c, (x.sensor c).take (r.temps.getD c 0 + (s.calValue Cal.sensorOffset (h * 384 + c)).1.toInt))
  s.modHall h fun x =>
    let ch := (List.range 320).map (read x)
    let x := { x with therm := { x.therm with ch := ch, railMv := (List.range 52).map fun i => (320 + i, r.rails.getD i 0)
                                              want := min 16 r.want } }
    let far := fun (k : Nat) =>
      match (x.sensor (2 * k)).reading, (x.sensor (2 * k + 1)).reading with
      | some t, some u => decide (48 < (t - u).natAbs)
      | _, _ => false
    let sus := (List.range 64).map fun k => (k, if far k then sget x.therm.suspect 0 k + 1 else 0)
    let new := sus.foldl (fun (m : Nat) (q : Nat × Nat) => if 16 ≤ q.2 then m ||| 2 ^ q.1 else m) x.therm.suspectMap
    { x with therm := { x.therm with suspect := sus, suspectMap := new } }

/-! ### Throttling (R403, R408, R410) -/

def thresholdDram (s : State) : Int := (s.calValue Cal.throttleDram 0).1.toInt
def thresholdLogic (s : State) : Int := (s.calValue Cal.throttleLogic 0).1.toInt

/-- The busiest of some stairwells with k below 12; on a tie the lowest number. -/
def busiest (s : State) (h : Nat) (busy : List Nat) (l : List Nat) : Option Nat :=
  (l.filter fun p => (s.stair h p).k < 12).foldl (fun (b : Option Nat) (p : Nat) =>
    match b with
    | none => some p
    | some q => if busy.getD q 0 < busy.getD p 0 then some p else if busy.getD q 0 = busy.getD p 0 ∧ p < q then some p else b) none

/-- Stairwells that raise k in this round. -/
def raised (s : State) (h : Nat) (busy : List Nat) : List Nat :=
  let x := s.hall h
  let at_ := fun (thr : Int) (t : Option Int) => t.any fun v => decide (thr ≤ v)
  ((x.pairs.filter fun q => at_ (thresholdLogic s) q.2).filterMap fun q => busiest s h busy (pairCovers q.1))
    ++ ((x.drams.filter fun q => at_ (thresholdDram s) q.2.2).filterMap fun q => busiest s h busy (blockCovers q.2.1))

/-- Whether every sensor over a stairwell reads at least 2.0 °C below its threshold. -/
def coolSw (s : State) (x : Hall) (p : Nat) : Bool :=
  (x.pair (pairOf p)).any (fun v => decide (v + 16 ≤ thresholdLogic s))
    && (List.range 12).all fun l => (x.dram (blockUnder p) l).any fun v => decide (v + 16 ≤ thresholdDram s)

/-- One hall's skip counts after a round. -/
def throttle (s : State) (h : Nat) (busy : List Nat) : State :=
  let x := s.hall h
  let up := raised s h busy
  (List.range 256).foldl (fun (s : State) (p : Nat) =>
    let y := s.stair h p
    let failed := x.pairFailed (pairOf p)
    let k := if (x.pair (pairOf p)).isNone then 12
      else if up.contains p then min 12 (y.k + 1) else if coolSw s x p then y.k - 1 else y.k
    let z := { y with k := k, fixed := failed, busy := busy.getD p 0 }
    if z = y then s else s.setStair h p z) s

/-- Stairwells throttled (R410). -/
def throttledCount (s : State) (h : Nat) : Nat :=
  let x := s.hall h
  countN 256 fun p => !(s.stair h p).fixed && 16 - 2 ^ x.coreDiv * x.therm.d < (s.stair h p).k

/-- The thermal level after a round (R410). -/
def levelRound (s : State) (h : Nat) : State :=
  let n := throttledCount s h
  s.modHall h fun x =>
    let t := { x.therm with throttled := n, levelAge := x.therm.levelAge + 1
                            coolRounds := if n ≤ 16 then x.therm.coolRounds + 1 else 0 }
    { x with therm :=
        if 32 < n ∧ 10 ≤ t.levelAge ∧ t.level < 2 then { t with level := t.level + 1, levelAge := 0, coolRounds := 0 }
        else if 100 ≤ t.coolRounds ∧ 0 < t.level then { t with level := t.level - 1, levelAge := 0, coolRounds := 0 }
        else t }

/-! ### The drawn share (R411), refresh rates (R123), the low-temperature cap (R413) -/

/-- The share asked for in this round. -/
def rampHall (s : State) (h : Nat) : State :=
  let c := capOf s h
  s.modHall h fun x =>
    let t := x.therm
    let target := min (max t.want t.floor) c
    { x with therm := { t with step := if c < t.d then 0 else if t.d < target ∧ t.steady = true then 1
                                       else if target < t.d ∧ t.steady = true then 2 else 0 } }

/-- A bank's refresh rate for a reading: 0 1×, 1 2×, 2 4×. -/
def nextRate (c : Nat) (t : Int) : Nat :=
  if 760 ≤ t then 2
  else if t ≤ 656 then 0
  else if c = 2 then (if t ≤ 736 then 1 else 2)
  else if c = 1 then 1
  else if 680 ≤ t then 1 else 0

/-- Hottest readings, steadiness, refresh rates and the low-temperature cap of a hall. -/
def hallReadings (s : State) (h : Nat) : State :=
  s.modHall h fun x =>
    let d := x.drams
    let hot := hottest (d.map fun q => q.2.2)
    let hist := match hot with
      | some v => (v :: x.therm.hotHist).take 101
      | none => x.therm.hotHist
    let steady := match hist[100]? with
      | some v => (hist.headD 0 - v).natAbs < 4
      | none => false
    let rates := d.map fun q =>
      let c := sget x.therm.rates 0 (q.1 * 16 + q.2.1)
      (q.1 * 16 + q.2.1, (q.2.2.map fun v => nextRate c v).getD c)
    { x with therm := { x.therm with
        hotDram := hot.getD 0, hotLogic := (hottest (x.pairs.map fun q => q.2)).getD 0, hotHist := hist, steady := steady
        rates := rates
        lowTemp := x.therm.lowTemp && !d.all fun q => q.2.2.any fun v => decide (120 ≤ v) } }

/-! ### Trips and lost contents (R414, R415) -/

/-- A hall trips. -/
def tripHall (s : State) (h : HallId) : State :=
  if (s.hall h).therm.tripped then s
  else
    let s := s.modHall h fun x => { x with therm := { x.therm with tripped := true } }
    followDiv (((fenceHall s h 2).logEvent 0x0A h 0 0).raiseAlert 2) h

/-- Whether a hall reads at a trip. -/
def tripReading (x : Hall) : Bool :=
  (x.pairs.any fun q => q.2.any fun v => decide (920 ≤ v)) || x.drams.any fun q => q.2.2.any fun v => decide (864 ≤ v)

/-- A cooling state entered: published, with the alert and the event (R418). -/
def enterCool (s : State) (st : CoolState) : State :=
  if s.porter.cool.state = st then s
  else
    let code := match st with
      | .normal => 0 | .degraded => 1 | .hold => 2 | .lost => 3 | .dramLost => 4
    let s := s.modPorter fun p => { p with cool := { p.cool with state := st, calm := 0, holdAge := 0 } }
    ((s.publishDue).logEvent 0x09 0 0 code).raiseAlert 1

/-- DRAM_LOST: published at once, and every hall in service trips. -/
def loseDram (s : State) : State :=
  let s := enterCool s .dramLost
  let s := if s.running then publish s else s
  (List.finRange 12).foldl (fun (s : State) (h : HallId) => if s.hallUp h || (s.hall h).state == .computeReset then tripHall s h else s) s

/-! ### Sudden loss of coolant (R418) -/

/-- The hottest valid reading of the module: a hall whose network domain is down gives none (log entry
125). -/
def moduleHottest (s : State) : Option Int :=
  hottest ((s.halls.filter fun (q : Nat × Hall) => s.hallNet q.1).flatMap fun (q : Nat × Hall) => q.2.therm.ch.map fun (e : Nat × Sensor) => e.2.reading)

/-- Halls that LOST holds are released into HOLD, without RELOAD. -/
def releaseLost (s : State) : State :=
  (List.finRange 12).foldl (fun (s : State) (h : HallId) =>
    if (s.hall h).heldLost && (s.hall h).state == .computeReset then releaseHall s h else s) (enterCool s .hold)

/-- Whether every reading allows the release from LOST. -/
def coolEnough (s : State) : Bool :=
  (List.range 12).all fun h =>
    let x := s.hall h
    !s.hallNet h || (x.drams.all fun q => q.2.2.all fun v => decide (v + 80 ≤ thresholdDram s))
      && x.pairs.all fun q => q.2.all fun v => decide (v + 80 ≤ thresholdLogic s)

/-- Steps 1 to 5 of R418 at the end of a round. -/
def coolRound (s : State) : State :=
  let c := s.porter.cool
  let hist := match moduleHottest s with
    | some v => (v :: c.hist).take 51
    | none => c.hist
  let rises := match hist[50]? with
    | some v => decide (v + 8 < hist.headD 0)
    | none => false
  let low := allN 12 fun h => (s.hall h).therm.d ≤ 4
  let s := s.modPorter fun p =>
    { p with cool := { p.cool with hist := hist, rise := if rises then c.rise + 1 else 0, calm := if rises then 0 else c.calm + 1
                                   holdAge := if low then c.holdAge + 1 else 0 } }
  let c := s.porter.cool
  let halls := fun (s : State) => (List.finRange 12).foldl (fun (s : State) (h : HallId) => holdLost (followDiv s h) h) s
  match c.state with
  | .normal => if 3 ≤ c.rise then halls (enterCool s .hold) else s
  | .degraded => if 3 ≤ c.rise then halls (enterCool s .hold) else s
  | .hold =>
    if 50 ≤ c.holdAge ∧ 3 ≤ c.rise then halls (enterCool s .lost)
    else if 1000 ≤ c.calm then halls (enterCool s (if c.isDegraded then .degraded else .normal))
    else s
  | .lost => if 10000 ≤ c.calm ∧ coolEnough s = true then halls (releaseLost s) else s
  | .dramLost => s

/-! ### The porter's own channels -/

/-- Inlet, outlet and Pelaitik diodes read: channels 0, 1, 2, 3 and 4 to 11. -/
def readPorter (s : State) (r : RoundInput) : State :=
  let raw := fun (i : Nat) => if i < 2 then r.inlet.getD i 0 else if i < 4 then r.outlet.getD (i - 2) 0 else r.pelaitik.getD (i - 4) 0
  s.modPorter fun p =>
    let c := p.cool
    let t := (List.range 12).map fun i => (i, (sget c.coolSens {} i).take (raw i))
    let at_ := fun (i : Nat) => sget t {} i
    let a := pairReading (at_ 0) (at_ 1)
    let b := pairReading (at_ 2) (at_ 3)
    { p with cool := { c with coolSens := t, inlet := a.getD c.inlet, outlet := b.getD c.outlet, inletOk := a.isSome, outletOk := b.isSome
                              inferLost := c.inferLost || ((at_ 0).failed && (at_ 1).failed && (at_ 2).failed && (at_ 3).failed) } }

/-- Core slowing and trip of the Pelaitik die (Table 15.2). -/
def pelaitikRound (s : State) : State :=
  match hottest ((List.range 8).map fun i => (sget s.porter.cool.coolSens {} (4 + i)).reading) with
  | none => s
  | some t =>
    let s := s.modPorter fun p =>
      { p with cool := { p.cool with
          coreStep := if 800 ≤ t then min 2 (p.cool.coreStep + 1) else if t ≤ 784 then p.cool.coreStep - 1 else p.cool.coreStep
          pelaTrip := p.cool.pelaTrip || 920 ≤ t } }
    if 920 ≤ t then s.modHost fun d => { d with coresRun := false } else s

/-- Failed pairs of the module, logic and coolant, and FAILED DRAM sensors (R405). -/
def failedPairs (s : State) : Nat :=
  let c := fun (i : Nat) => (sget s.porter.cool.coolSens {} i).failed
  sumN 12 (fun h => countN 64 fun k => (s.hall h).pairFailed k) + (if c 0 && c 1 then 1 else 0) + (if c 2 && c 3 then 1 else 0)
def hallFailedDram (x : Hall) : Nat := countN 192 fun i => (x.sensor (128 + i)).failed
def failedDram (s : State) : Nat := sumN 12 fun h => hallFailedDram (s.hall h)

/-! ### Monitors (R435, R436) -/

/-- A mean rounded as the device rounds (log entry 35). -/
def quotient (what num den : Nat) : Nat := num / den + if num % den ≠ 0 ∧ Config.roundUp what num den = true then 1 else 0

/-- Window in mV of a rail channel, and whether its loss takes the network domain (Table 16.5). -/
def railWindow (c : Nat) : Nat × Nat × Bool :=
  if c < 336 then (630, 770, false) else if c < 348 then (1045, 1155, false) else if c < 360 then (1710, 1890, false)
  else if c < 364 then (700, 800, true) else if c < 368 then (750, 850, false) else (800, 900, true)

/-- Rail channels of a hall: outside its window for 3 consecutive rounds a rail has lost power-good. -/
def railRound (s : State) (h : HallId) : State :=
  let x := s.hall h
  let bad := (List.range 52).map fun i =>
    let w := railWindow (320 + i)
    let mv := sget x.therm.railMv 0 (320 + i)
    (320 + i, if mv < w.1 ∨ w.2.1 < mv then sget x.therm.railBad 0 (320 + i) + 1 else 0)
  let s := s.modHall h fun x => { x with therm := { x.therm with railBad := bad } }
  (bad.filter fun (q : Nat × Nat) => q.2 == 3).foldl (fun (s : State) (q : Nat × Nat) =>
    if (railWindow q.1).2.2 then loseNetRail s h else loseCompute s h) s

/-- The input monitor's round (R435, Table 16.6). -/
def inputRound (s : State) (unsched : Nat) : State :=
  let w := s.porter.power
  let n := w.nSum
  let log := (unsched :: w.unschedLog).take 1000
  let pin := if n = 0 then w.pin else quotient 2 w.pSum (n * 100000)
  let new := (w.uvRound && !w.uvSeen) || (w.ovRound && !w.ovSeen)
  let s := s.modPorter fun p =>
    { p with power := { w with
        vin := if n = 0 then w.vin else quotient 0 w.vSum (n * 10)
        iin := if n = 0 then w.iin else quotient 1 w.iSum (n * 10)
        pin := pin, peak := max w.peak pin, vSum := 0, iSum := 0, pSum := 0, nSum := 0
        uvWarn := w.uvRound, ovWarn := w.ovRound, uvSeen := w.uvSeen || w.uvRound, ovSeen := w.ovSeen || w.ovRound
        uvRound := false, ovRound := false, slots := min 59 w.slotsNow, slotsNow := 0
        unschedLog := log, unsched := log.foldl max 0 } }
  if new then s.raiseAlert 4 else s

/-- The round's contribution to the coolant window (R416). -/
def sumRound (s : State) : State :=
  let top := (List.range 12).flatMap fun h =>
    if s.hallUp h then (List.range 16).filterMap fun b => ((s.hall h).sensor (128 + 16 * 11 + b)).reading else []
  s.modPorter fun p =>
    let c := p.cool
    { p with cool := { c with
        powSum := c.powSum + p.power.pin, topSum := c.topSum + top.sum, topN := c.topN + top.length, roundsN := c.roundsN + 1
        inSum := if c.inletOk then c.inSum + c.inlet else c.inSum, inN := if c.inletOk then c.inN + 1 else c.inN
        outSum := if c.outletOk then c.outSum + c.outlet else c.outSum, outN := if c.outletOk then c.outN + 1 else c.outN } }

/-! ### The round (R399) -/

/-- Whether any sensor of the module reads below 0 °C (R359). -/
def anyCold (s : State) : Bool :=
  (s.halls.any fun (q : Nat × Hall) => q.2.therm.ch.any fun (e : Nat × Sensor) => e.2.reading.any fun v => decide (v < 0))
    || s.porter.cool.coolSens.any fun (e : Nat × Sensor) => e.2.reading.any fun v => decide (v < 0)

/-- One hall's decisions; its scrub times go on with the clock (R387). -/
def hallRound (s : State) (h : HallId) (busy : List Nat) : State :=
  let s := hallReadings (scrubRegs s h) h
  let s := if tripReading (s.hall h) then tripHall s h else s
  let s := followDiv (levelRound (throttle s h busy) h) h
  rampHall (railRound s h) h

/-- HOUSEKEEPING_ROUND (R399). -/
def execHousekeepingRound (r : RoundInput) (s : State) : Result :=
  .next <|
    if !s.porterUp || s.porter.power.phase != .on || s.porter.host.refLost then s
    else
      let live := fun (s : State) (h : HallId) => s.hallNet h
      let s := (List.finRange 12).foldl (fun (s : State) (h : HallId) =>
        if live s h then readHall s h (r.halls.getD h { temps := [], rails := [], busy := [], want := 0 }) else s) (readPorter s r)
      let s := inputRound s r.unsched
      match s.porter.stage, s.porter.boot with
      | .coldWait, some b => if anyCold s then s else bootRest (bootLinks s b) { b with coldSensor := false }
      | _, _ =>
        let s := (List.finRange 12).foldl (fun (s : State) (h : HallId) =>
          if live s h then hallRound s h (r.halls.getD h { temps := [], rails := [], busy := [], want := 0 }).busy else s) s
        let s := if (List.range 12).any fun h => (s.hall h).drams.any fun q => q.2.2.any fun v => decide (920 ≤ v) then loseDram s else s
        let s := sumRound (pelaitikRound (coolRound s))
        settle (if 4 < failedPairs s ∨ 16 < failedDram s then s.replaceCause 5 else s)

/-! ### The coolant window (R416, R417) -/

/-- Baseline in use, in µK/W. -/
def Cool.baseline (c : Cool) : Nat := if c.base = 1 then c.baseVal else Config.rthFactory

/-- Means over the window: input power in 0.1 W, inlet and outlet as sums and counts. -/
def Cool.power (c : Cool) : Nat := if c.roundsN = 0 then 0 else c.powSum / c.roundsN

/-- Inferred flow in 0.01 L/min; a value that the formula does not give in range is free (log entry 5). -/
def Cool.flowNow (c : Cool) (free : Nat) : Nat :=
  let dt := c.outSum * c.inN - c.inSum * c.outN
  if c.roundsN = 0 ∨ c.powSum < 10000 * c.roundsN ∨ c.inN = 0 ∨ c.outN = 0 then 0xFFFF
  else if dt ≤ 0 then Config.free free % 65536
  else
    let q := quotient 3 (57 * c.powSum * c.inN * c.outN) (50 * c.roundsN * dt.toNat)
    if q < 65536 then q else Config.free free % 65536

/-- Thermal resistance in µK/W in a qualifying window. -/
def Cool.rthNow (c : Cool) (free : Nat) : Option Nat :=
  let dt := c.topSum * c.inN - c.inSum * c.topN
  if c.roundsN = 0 ∨ c.powSum < 10000 * c.roundsN ∨ c.inN = 0 ∨ c.topN = 0 then none
  else if dt < 0 then some (Config.free free % 2 ^ 32)
  else
    let q := quotient 4 (1250000 * dt.toNat * c.roundsN) (c.powSum * c.topN * c.inN)
    some (if q < 2 ^ 32 then q else Config.free free % 2 ^ 32)

/-- The baseline learned from the first 3,600 qualifying windows. -/
def Cool.learn (c : Cool) (rth : Nat) : Cool :=
  if c.base ≠ 0 ∨ 3600 ≤ c.baseN then c
  else
    let c := { c with baseSum := c.baseSum + rth, baseN := c.baseN + 1 }
    if c.baseN < 3600 then c
    else
      let m := quotient 5 c.baseSum 3600
      if 115 * Config.rthFactory < 100 * m then { c with base := 2 } else { c with base := 1, baseVal := m }

/-- Whether the inlet's mean lies outside 15.0 to 45.0 °C. -/
def Cool.inletOut (c : Cool) : Bool := c.inN != 0 && (c.inSum < 120 * (c.inN : Int) || 360 * (c.inN : Int) < c.inSum)

/-- One 1 s window. -/
def Cool.window (c : Cool) (free : Nat) : Cool :=
  let flow := if c.inferLost then 0xFFFF else c.flowNow free
  let out := c.inletOut
  let c := { c with flow := flow, inletRun := if out then c.inletRun + 1 else 0 }
  let c := match (if c.inferLost then none else c.rthNow (free + 1)) with
    | none => c
    | some rth =>
      let base := c.baseline
      let good := 100 * rth ≤ 110 * base && 450 ≤ flow && flow != 0xFFFF && !out
      ({ c with rth := rth
                ratio := if base = 0 then 65535 else min 65535 (quotient 6 (rth * 4096) base)
                rthHigh := if 115 * base ≤ 100 * rth then c.rthHigh + 1 else 0
                flowRun := if flow < 450 then c.flowRun + 1 else 0
                clearRun := if good then c.clearRun + 1 else 0 } : Cool).learn rth
  let starts := 60 ≤ c.rthHigh || 60 ≤ c.flowRun || 60 ≤ c.inletRun
  let deg := if starts then true else if 60 ≤ c.clearRun then false else c.isDegraded
  { c with inletRange := 60 ≤ c.inletRun, flowLow := 60 ≤ c.flowRun, isDegraded := deg, degTime := if deg then c.degTime + 1 else 0
           powSum := 0, topSum := 0, topN := 0, inSum := 0, inN := 0, outSum := 0, outN := 0, roundsN := 0 }

/-- COOLANT_WINDOW (R416, R417). -/
def execCoolantWindow (s : State) : Result :=
  .next <|
    if !s.porterUp || s.porter.power.phase != .on then s
    else
      let s := { (s.modPorter fun p => { p with cool := p.cool.window s.fresh }) with fresh := s.fresh + 2 }
      let c := s.porter.cool
      let s := match c.state with
        | .normal => if c.isDegraded then enterCool s .degraded else s
        | .degraded => if c.isDegraded then s else enterCool s .normal
        | _ => s
      if 86400 ≤ c.degTime then s.replaceCause 6 else s

end Sys2Proof.Machine
end

