-- ==== Sys2Proof/Machine/HostOps.lean ====
section
/-! DEFINITION. The tier set-up, the far decoder, the error log's set-up, ports A and B, and the fabric cages (R178, R259, R260,
R284, R285, R398, R464, R476, R477, R479). -/

namespace Sys2Proof.Machine

/-! ### Tier set-up (R178, R284) -/

/-- A tier set-up write refused: REFUSED is set. -/
def tierRefuse (s : State) : State := s.modHost fun d => { d with tierRefused := true }

/-- Whether a far leaf area lies within FAR_BYTES; one of no size names no area. -/
def farAreaOk (s : State) (base size : Nat) : Bool := size == 0 || (base + size) * gib ≤ s.farBytes

/-- A write to a tier set-up register. -/
def tierCfg (s : State) (r : TierReg) (w : Word) : State :=
  let d := s.porter.host
  if d.tierLock then tierRefuse s
  else match r with
    | .tierCfg =>
      let n := bits w 8 0
      if n < 8 || 256 < n then tierRefuse s
      else s.modHost fun d => { d with spineGib := n, tierRefused := d.tierRefused && !bitAt w 10 }
    | .farBase => if farAreaOk s w.toNat d.farSize then s.modHost fun d => { d with farBase := w.toNat } else tierRefuse s
    | .farSize =>
      let n := bits w 13 0
      if n ≤ 8192 && farAreaOk s d.farBase n then s.modHost fun d => { d with farSize := n } else tierRefuse s

/-- TIER_CFG_WRITE (R178). -/
def execTierCfgWrite (r : TierReg) (w : Word) (s : State) : Result := .next (if s.porterUp then tierCfg s r w else s)

/-- Enabled far-decoder entries as (base, size) in GiB, in entry order. -/
def fardecEntries (d : HostDie) : List (Nat × Nat) :=
  (List.range 8).filterMap fun (e : Nat) =>
    let z := sget d.fardecSize 0 e
    if bitAt z 31 then some ((sget d.fardecBase 0 e).toNat, bits z 13 0) else none

/-- Whether the enabled entries fit the far space and do not overlap on port B. -/
def fardecOk (d : HostDie) : Bool :=
  let l := fardecEntries d
  decide ((l.map fun (q : Nat × Nat) => q.2).sum ≤ 8192)
    && decide (l.Pairwise fun (p q : Nat × Nat) => p.1 + p.2 ≤ q.1 ∨ q.1 + q.2 ≤ p.1 ∨ p.2 = 0 ∨ q.2 = 0)

/-- A write to the far-decoder entry that PRT_FARDEC_SEL names. -/
def fardecWrite (s : State) (r : FardecReg) (w : Word) : State :=
  let d := s.porter.host
  let d' := match r with
    | .base => { d with fardecBase := sset d.fardecBase d.fardecSel w }
    | .size => { d with fardecSize := sset d.fardecSize d.fardecSel (w &&& 0x80003FFF) }
  if d.tierLock || !fardecOk d' then tierRefuse s else s.modHost fun _ => d'

/-- FARDEC_WRITE (R284). -/
def execFardecWrite (r : FardecReg) (w : Word) (s : State) : Result := .next (if s.porterUp then fardecWrite s r w else s)

/-! ### Port A (R259, R260, R464, R476) -/

/-- A write to the BAR0 window. With EN 1 and a window outside the host reservation a write to WIN_HI is ignored; ADDR_HI
keeps its value while EN stays 1. -/
def portaWin (s : State) (r : PortaReg) (w : Word) : State :=
  match r with
  | .winLo => s.modHost fun d => { d with winLo := w &&& 0xFF000000 }
  | .winHi => s.modHost fun d =>
    let hi := if bitAt d.winHi 31 && bitAt w 31 then bits d.winHi 7 0 else bits w 7 0
    if bitAt w 31 && d.hostRes < hi * 2 ^ 32 + d.winLo.toNat + 2 ^ 24 then d
    else { d with winHi := BitVec.ofNat 32 (hi + if bitAt w 31 then 2 ^ 31 else 0) }

/-- PORTA_WIN_WRITE (R259). -/
def execPortaWinWrite (r : PortaReg) (w : Word) (s : State) : Result := .next (if s.porterUp then portaWin s r w else s)

/-- A write to PRT_PORTA_IRQ: an MSI-X vector to the tray. -/
def portaIrq (s : State) (w : Word) : State := s.emit (.msix (bits w 5 0))

/-- PORTA_IRQ (R260). -/
def execPortaIrq (w : Word) (s : State) : Result := .next (if s.porterUp then portaIrq s w else s)

/-- MAILBOX_WRITE (R260): a write to BAR2. It comes in over port A's link; any but one aligned 8-byte write is discarded. -/
def execMailboxWrite (off : Nat) (size : Nat) (value : Dword) (s : State) : Result :=
  .next <|
    if !s.porterUp || s.porter.host.portaWidth == 0 || size != 8 || off % 8 != 0 || 512 ≤ off then s
    else (s.modHost fun d => { d with mbx := sset d.mbx (off / 8) value }).emit (.msi (s.porter.host.mbxVec + off / 8))

/-- Widths and generations to which ports A and B train (Tables 1.7, 8.15 and 9.12). -/
def linkOk (widths : List Nat) (width gen : Nat) : Bool := widths.contains width && 1 ≤ gen && gen ≤ 6

/-- PORTA_LINK_CHANGE (R476): PERST_N as it now stands, and the link that port A trained: none while PERST_N is low or before
the stage LINKS. -/
def execPortaLinkChange (perst : Bool) (width : Nat) (gen : Nat) (s : State) : Result :=
  .next <|
    let d := s.porter.host
    let up := perst && s.porter.stage != .rom && d.pbRefclk.isSome && linkOk [1, 2, 4, 8, 16] width gen
    let d' := { d with portaPerst := perst, portaWidth := if up then width else 0, portaGen := if up then gen else 0 }
    let s := s.modHost fun _ => d'
    if d'.portaWidth = d.portaWidth ∧ d'.portaGen = d.portaGen then s else s.publishDue

/-! ### Port B (R283, R285, R477) -/

/-- The side of a MOVE that lies in the far tier: 0 the source, 1 the destination. -/
def farSide (r : MoveRun) : Option Nat :=
  if mvSrcSpace r.instr = 2 then some 0 else if mvDstSpace r.instr = 2 then some 1 else none

/-- The first transfer of a channel that has a burst on port B: its place among those that the channel runs, and its far
side. -/
def Chan.farSide (x : Chan) : Option (Nat × Nat) :=
  let l := (if x.mode then x.tailMv.toList else []) ++ x.move.toList
  ((l.mapIdx fun i r => (i, r)).findSome? fun p => (Sys2Proof.Machine.farSide p.2).map fun side => (p.1, side))

/-- Every channel with a burst on port B stopped; the transfers before it are complete. -/
def stopFarBursts (s : State) : State :=
  (List.finRange 12).foldl (fun (s : State) (h : HallId) =>
    (List.finRange 32).foldl (fun (s : State) (c : ChId) =>
      let x := s.chan h c
      if x.stop.isSome then s
      else match x.farSide with
        | some (n, side) => stopChannel s h c
            { status := Status.dmaTargetFault, other := Status.dmaStopped, space := 2, side := side, keep := n }
        | none => s) s) s

/-- PORTB_LINK_LOSS (R285): far leaves and their spine entries stay. -/
def execPortbLinkLoss (s : State) : Result :=
  .next <|
    if s.porter.host.portbWidth = 0 then s
    else ((stopFarBursts s).modHost fun d => { d with portbWidth := 0, portbGen := 0, portbCxl := false }).publishDue

/-- What a CXL link of port B trains to (Table 9.12): ×16, ×8 or ×4 at 64 or 32 GT/s. -/
def portbOk (width gen : Nat) : Bool := [4, 8, 16].contains width && (gen == 5 || gen == 6)

/-- PORTB_LINK_UP (R31, R282, R283): the devices' reset is released and the link trains. -/
def execPortbLinkUp (width : Nat) (gen : Nat) (cxl : Bool) (s : State) : Result :=
  .next <|
    if s.porterUp && s.porter.host.pbPerst && (if cxl then portbOk width gen else linkOk [1, 2, 4, 8, 16] width gen) then
      (s.modHost fun d => { d with portbWidth := width, portbGen := gen, portbCxl := cxl }).publishDue
    else s

/-- PB_PERST_RELEASE (R477): 100 µs after PB_REFCLK starts. -/
def execPbPerstRelease (s : State) : Result :=
  .next <|
    match s.porter.host.pbRefclk with
    | some t =>
      if s.porterUp && s.porter.power.phase == .on && s.passed t 100 then s.modHost fun d => { d with pbPerst := true } else s
    | none => s

/-! ### Fabric cages (R479) -/

/-- CABLE_INSERT (R479): an assembly that declares more than 16 W is held unpowered, and its port DOWN. -/
def execCableInsert (h : HallId) (watts : Nat) (s : State) : Result :=
  .next <|
    if !s.porterUp then s
    else
      let s := s.modPort h fun p => { p with cable := some watts, cableOn := watts ≤ 16 }
      if watts ≤ 16 then (if s.hallNet h && downReady s h then startTraining s h else s) else portDown s h Reason.trainFail

/-! ### The error log's set-up (R381, R398, R464) -/

/-- A write to the error log's set-up. Base and LOG2SIZE are kept while EN is 1; a base outside the host reservation leaves EN
at 0. A LOG2SIZE that Table 14.9 does not give is not taken. -/
def errlogCfg (s : State) (r : ErrlogReg) (w : Word) : State :=
  let l := s.porter.errlog
  match r with
  | .baseLo => if l.en then s else s.setErrLog { l with base := baseLo l.base w }
  | .baseHi => if l.en then s else s.setErrLog { l with base := baseHi l.base w }
  | .cfg =>
    let n := bits w 4 0
    let l' := if l.en && bitAt w 5 then l else if 7 ≤ n && n ≤ 16 then { l with log2 := n } else l
    if l.en && bitAt w 5 then s
    else if bitAt w 5 then
      if s.inHost l'.base (32 * l'.size) then
        s.setErrLog { l' with en := true, tail := 0, armed := l'.head == 0, recent := [] }
      else s.setErrLog l'
    else s.setErrLog { l' with en := false }

/-- ERRLOG_CFG_WRITE (R398). -/
def execErrlogCfgWrite (r : ErrlogReg) (w : Word) (s : State) : Result := .next (if s.porterUp then errlogCfg s r w else s)

/-- A write to PRT_ERRLOG_HEAD: the interrupt is armed again once HEAD is TAIL. -/
def errlogHead (s : State) (w : Word) : State :=
  let l := s.porter.errlog
  s.setErrLog { l with head := w, armed := l.armed || w == l.tail }

/-- ERRLOG_HEAD_WRITE (R381). -/
def execErrlogHeadWrite (w : Word) (s : State) : Result := .next (if s.porterUp then errlogHead s w else s)

end Sys2Proof.Machine
end

