-- ==== Sys2Proof/Machine/Firmware.lean ====
section
/-! DEFINITION. Firmware update: STAGE and COMMIT, from the registers and from I3C (R452 to R454). -/

namespace Sys2Proof.Machine

/-! ### Status codes (Table 17.11) -/

abbrev FwStatus.ok : Nat := 0
abbrev FwStatus.badSignature : Nat := 1
abbrev FwStatus.badManifest : Nat := 2
abbrev FwStatus.rollback : Nat := 3
abbrev FwStatus.flashFail : Nat := 4
abbrev FwStatus.busy : Nat := 5
abbrev FwStatus.notReady : Nat := 6

def State.modFw (s : State) (f : FwUpd → FwUpd) : State := s.modPorter fun p => { p with fw := f p.fw }

/-- PRT_FW_SVN. -/
def State.fwSvn (s : State) : Nat :=
  let f := s.porter.fuses
  f.svnPorter % 256 + f.svnHall % 256 * 2 ^ 8 + f.svnPhy % 256 * 2 ^ 16

/-- Whether a slot's bundle verifies: signature and digests, and each class's SVN against its counter (R452). -/
def State.slotVerifies (s : State) (slotB : Bool) : Bool := (s.bundleIn slotB).verifies && s.svnOk (s.bundleIn slotB)

def State.setBundle (s : State) (slotB : Bool) (b : Bundle) : State :=
  s.modPorter fun p => { p with flash := if slotB then { p.flash with slotB := b } else { p.flash with slotA := b } }

/-! ### STAGE (R454) -/

/-- The slot that STAGE writes: the one that fails verification or, when both verify, the one that was not booted. -/
def State.stageSlot (s : State) : Bool :=
  if !s.slotVerifies false && s.slotVerifies true then false
  else if !s.slotVerifies true && s.slotVerifies false then true
  else !s.porter.slotB

def FwUpd.base (f : FwUpd) : Nat := f.hi.toNat * 2 ^ 32 + f.lo.toNat

/-- The bytes that software has placed. -/
def stageBytes (s : State) : List Byte := s.read .park s.porter.fw.base s.porter.fw.len.toNat

/-- The bundle that bytes hold. -/
def bundleOf (b : List Byte) : Bundle :=
  { verifies := true, level := Config.bundleLevel b, svnPorter := Config.bundleSvn b 0, svnHall := Config.bundleSvn b 1,
    svnPhy := Config.bundleSvn b 2, ident := Config.bundleIdent b, identHall := Config.bundleIdent b }

/-- What the checks of a STAGE find. -/
def stageCheck (s : State) (b : List Byte) : Nat :=
  let f := s.porter.fw
  if 0x800000 < f.len.toNat || !s.inHost f.base f.len.toNat then FwStatus.badManifest
  else if !Config.bundleSigned b then FwStatus.badSignature
  else if !Config.bundleFormat b || (List.range 3).any (fun c => 63 < Config.bundleSvn b c) then FwStatus.badManifest
  else if !s.svnOk (bundleOf b) then FwStatus.rollback
  else FwStatus.ok

/-- OP 1 written to PRT_FWUPD_CMD. -/
def fwStage (s : State) : State :=
  if s.porter.fw.busy then s
  else
    let b := stageBytes s
    let r := stageCheck s b
    let t := s.stageSlot
    s.modFw fun f => { f with busy := true, running := 1, result := r, target := if t then 1 else 0, bundle := bundleOf b, i3c := false }

/-- FWUPD_STAGE (R454). -/
def execFwupdStage (s : State) : Result := .next (if s.porterUp then fwStage s else s)

/-! ### COMMIT (R453) -/

/-- A COMMIT begins; before hand-off it completes with NOT_READY. -/
def fwCommitStart (s : State) (classes : Nat) (i3c : Bool) : State :=
  s.modFw fun f => { f with busy := true, running := 2, classes := classes, i3c := i3c
                            result := if s.running then FwStatus.ok else FwStatus.notReady }

/-- OP 2 written to PRT_FWUPD_CMD. -/
def fwCommit (s : State) (classes : Nat) : State := if s.porter.fw.busy then s else fwCommitStart s classes false

/-- FWUPD_COMMIT (R453). -/
def execFwupdCommit (classes : BitVec 3) (s : State) : Result := .next (if s.porterUp then fwCommit s classes.toNat else s)

/-- Each named class's counter raised to the SVN of the image of that class that runs; a counter only rises. -/
def raiseCounters (s : State) (classes : Nat) : State :=
  let w := BitVec.ofNat 3 classes
  let b := s.porter.running
  s.modPorter fun p => { p with fuses := { p.fuses with
    svnPorter := if bitAt w 0 then max p.fuses.svnPorter b.svnPorter else p.fuses.svnPorter
    svnHall := if bitAt w 1 then max p.fuses.svnHall b.svnHall else p.fuses.svnHall
    svnPhy := if bitAt w 2 then max p.fuses.svnPhy b.svnPhy else p.fuses.svnPhy } }

/-! ### Completion -/

/-- STATUS and DONE set, BUSY cleared, and alert bit 5. -/
def fwEnd (s : State) (status : Nat) : State :=
  (s.modFw fun f => { f with busy := false, running := 0, status := status, done := true, i3c := false }).raiseAlert 5

/-- FWUPD_DONE (R453, R454): the operation that runs completes; `flashOk`: the write and read-back of a STAGE succeed. A slot
whose write failed does not verify. -/
def execFwupdDone (flashOk : Bool) (s : State) : Result :=
  .next <|
    let f := s.porter.fw
    if !s.porterUp || !f.busy then s
    else if f.running = 1 then
      let st := if f.result = FwStatus.ok ∧ flashOk = false then FwStatus.flashFail else f.result
      let s := if st = FwStatus.ok then s.setBundle (f.target == 1) f.bundle
        else if st = FwStatus.flashFail then s.setBundle (f.target == 1) { f.bundle with verifies := false } else s
      (fwEnd s st).logEvent 0x0D 0 0 st
    else
      let s := if f.result = FwStatus.ok then (raiseCounters s f.classes).logEvent 0x0E 0 0 f.classes else s
      let s := fwEnd s f.result
      if f.i3c then respEnd s Frame.ok (leBytes 4 s.fwSvn) else s

end Sys2Proof.Machine
end

