-- ==== Sys2Proof/Machine/Manager.lean ====
section
/-! DEFINITION. The fabric manager: election, heartbeats and what a porter does for the manager (R328 to R333, R338). -/

namespace Sys2Proof.Machine

/-! ### Election (R328) -/

/-- A higher PRIO is better; for equal PRIO, the lower PID. -/
def claimBetter (a b : Nat × Pid) : Bool := b.1 < a.1 || (a.1 == b.1 && decide (a.2.toNat < b.2.toNat))

def State.ownClaim (s : State) : Nat × Pid := (s.porter.fab.prio, s.pid)

/-- CLAIM_SEND: every 100 ms on each ACTIVE port. -/
def execClaimSend (s : State) : Result :=
  .next <|
    let due := match s.porter.fab.lastClaim with
      | some t => s.passed t 100000
      | none => true
    if s.porterUp && due then
      sendLinks (s.modFab fun f => { f with lastClaim := some s.now }) (mkMgmt s 0x01 false 0 0 0 (leBytes 4 s.porter.fab.prio)) none
    else s

/-- An epoch heard in a claim. -/
def hearEpoch (s : State) (e : Word) : State :=
  s.modFab fun f => if f.heard.toNat < e.toNat then { f with heard := e } else f

/-- CLAIM: a claim is held for 1 s. A manager that holds a better one than its own steps down. -/
def execClaim (h : HallId) (p : FabPacket) (s : State) : Result :=
  .next <| mgmtIn s h p fun s =>
    let m := msgOf p
    if !s.porterUp || !(s.port h).active || mgType m != 0x01 || mgRouted m || mgBad m || !bodyOk m.body 4 [(0, 8, 24)] then s
    else
      let c := (bodyNat m.body 0 1, mgOrigin m)
      let s := hearEpoch s (mgEpoch m)
      let s := s.modFab fun f =>
        { f with claims := (c.1, c.2, s.now) :: f.claims.filter fun q => !s.passed q.2.2 3000000 }
      if s.porter.fab.elected && claimBetter c s.ownClaim then
        (s.modFab fun f => { f with elected := false, changed := true, mgrPid := none }).fabIrq
      else s

/-- Whether the porter's own claim has been the best it holds for 2 s: no better claim was held for 1 s within them. -/
def ownBestLong (s : State) : Bool :=
  let f := s.porter.fab
  f.prio != 0 && s.passed f.ownSince 2000000
    && f.claims.all fun q => !claimBetter (q.1, q.2.1) s.ownClaim || s.passed q.2.2 3000000

/-- MANAGER_ELECTED: an epoch one greater than the highest heard. -/
def execManagerElected (s : State) : Result :=
  .next <|
    let f := s.porter.fab
    if s.porterUp && !f.elected && ownBestLong s then
      let e := (if f.heard.toNat < f.epoch.toNat then f.epoch else f.heard) + 1
      (s.modFab fun f => { f with elected := true, changed := true, epoch := e, heard := e, mgrPid := some s.pid,
                                  mgrNode := BitVec.ofNat 20 s.porterNode, lastHbSend := none }).fabIrq
    else s

/-- HEARTBEAT_SEND: the manager's, every 100 ms on each ACTIVE port. -/
def execHeartbeatSend (s : State) : Result :=
  .next <|
    let f := s.porter.fab
    let due := match f.lastHbSend with
      | some t => s.passed t 100000
      | none => true
    if s.porterUp && f.elected && due then
      let n := f.hbCount + 1
      let s := s.modFab fun f => { f with hbCount := n, lastHbSend := some s.now }
      sendLinks s (mkMgmt s 0x02 false 0 0 0 (leBytes 4 s.porterNode ++ leBytes 4 n.toNat)) none
    else s

/-- Whether a HEARTBEAT is new: of a manager not heard before, of a higher epoch, or of a newer count. -/
def hbNew (s : State) (m : MgmtMsg) : Bool :=
  mgOrigin m != s.pid &&
    match s.porter.fab.hbSeen.find? fun q => q.1 == mgOrigin m with
    | none => true
    | some q =>
      let d := (BitVec.ofNat 32 (bodyNat m.body 4 4) - q.2.2).toNat
      decide (q.2.1.toNat < (mgEpoch m).toNat) || (q.2.1 == mgEpoch m && 1 ≤ d && d < 2 ^ 31)

/-- A manager held, with CHANGED when it is another than before. -/
def holdManager (s : State) (m : MgmtMsg) : State :=
  let f := s.porter.fab
  if f.elected || mgEpoch m != f.epoch then s
  else
    let other := f.mgrPid != some (mgOrigin m)
    let s := s.modFab fun f => { f with mgrPid := some (mgOrigin m), mgrNode := BitVec.ofNat 20 (bodyNat m.body 0 4),
                                        lastHb := some s.now, changed := f.changed || other }
    if other then s.fabIrq else s

/-- HEARTBEAT: a new one goes on to the other ACTIVE ports once, and its epoch is taken when it is higher. -/
def execHeartbeat (h : HallId) (p : FabPacket) (s : State) : Result :=
  .next <| mgmtIn s h p fun s =>
    let m := msgOf p
    if !s.porterUp || !(s.port h).active || mgType m != 0x02 || mgRouted m || mgBad m || !bodyOk m.body 8 [(0, 20, 12)]
        || !hbNew s m then s
    else
      let seen := (mgOrigin m, mgEpoch m, (BitVec.ofNat 32 (bodyNat m.body 4 4) : Word))
      let s := s.modFab fun f => { f with hbSeen := seen :: f.hbSeen.filter fun q => q.1 != mgOrigin m }
      sendLinks (holdManager (takeEpoch s (mgEpoch m)) m) m (some h)

/-- HEARTBEAT_LOSS: none heard for 1 s. -/
def execHeartbeatLoss (s : State) : Result :=
  .next <|
    let f := s.porter.fab
    match f.mgrPid, f.lastHb with
    | some _, some t =>
      if s.porterUp && !f.elected && s.passed t 1000000 then
        (s.modFab fun f => { f with mgrPid := none, changed := true }).fabIrq
      else s
    | _, _ => s

/-! ### Requests (R330 to R333) -/

def PortState.code : PortState → Nat
  | .down => 0 | .training => 1 | .hello => 2 | .check => 3 | .active => 4 | .retrain => 5 | .refused => 6

/-- FAB_PORT_STAT's STATE, WIDTH and REASON. -/
def portWord (p : Port) : Nat := p.state.code + p.width * 8 + p.reason * 64

/-- Body of a QUERY reply (Table 11.12). -/
def queryBody (s : State) : List Byte :=
  leBytes 4 s.porter.fab.moduleId ++ leBytes 4 s.fwLevel.toNat ++ leBytes 4 s.porter.flash.wcl
    ++ leBytes 4 s.porter.fab.epoch.toNat
    ++ (List.range 12).flatMap fun h =>
      let p := s.port h
      leBytes 4 (portWord p) ++ leBytes 4 (nodeHall p.peerNode.toNat) ++ leBytes 8 p.peerPid.toNat

/-- A request delivered to this porter: `run` answers it when its body is well formed. -/
def request (s : State) (h : HallId) (p : FabPacket) (mtype : Nat) (ok : List Byte → Bool) (run : MgmtMsg → State → State) :
    State :=
  mgmtIn s h p fun s =>
    let m := msgOf p
    if !s.porterUp || mgType m != mtype then s
    else if ok m.body then run m s else sendReply s h (pkSrc p.hdr) m (leBytes 4 0x01)

/-- A request that only the manager's porter may make (R331): its reply carries the status. -/
def managed (s : State) (h : HallId) (p : FabPacket) (mtype : Nat) (ok : List Byte → Bool)
    (run : List Byte → State → State × Nat) : State :=
  request s h p mtype ok fun m s =>
    if mgEpoch m = s.porter.fab.epoch ∧ s.porter.fab.mgrPid = some (mgOrigin m) then
      let r := run m.body s
      sendReply r.1 h (pkSrc p.hdr) m (leBytes 4 r.2)
    else sendReply s h (pkSrc p.hdr) m (leBytes 4 0x04)

/-- QUERY. -/
def execQuery (h : HallId) (link : Option LinkTag) (p : FabPacket) (s : State) : Result :=
  .next <| request s h (arrived p link) 0x03 (fun b => b.isEmpty) fun m s => sendReply s h (pkSrc p.hdr) m (queryBody s)

/-- ASSIGN_ID's body: module ID 0xFFFF is never assigned. -/
def assignBodyOk (b : List Byte) : Bool := bodyOk b 4 [(0, 16, 16)] && bodyNat b 0 2 != 0xFFFF

/-- What an ASSIGN_ID of this body does. -/
def assignId (b : List Byte) (s : State) : State × Nat := (s.modFab fun f => { f with moduleId := bodyNat b 0 2 }, 0)

/-- ASSIGN_ID. -/
def execAssignId (h : HallId) (link : Option LinkTag) (p : FabPacket) (s : State) : Result :=
  .next <| managed s h (arrived p link) 0x04 assignBodyOk assignId

/-- A ROUTE_WRITE's body. -/
def routeBodyOk (b : List Byte) : Bool :=
  let first := bodyNat b 0 2
  let n := bodyNat b 2 1
  let k := n % 64
  n < 64 && 1 ≤ k && k ≤ 54 && b.length == 4 + 4 * k && bodyNat b 3 1 == 0 && first + k ≤ 0xFFFF
    && allN k fun i => bodyNat b (4 + 4 * i + 3) 1 == 0

/-- What a ROUTE_WRITE of this body does: each entry changes in one write, in every hall's copy. -/
def routeWrite (b : List Byte) (s : State) : State × Nat :=
  let first := bodyNat b 0 2
  (s.modFab fun f => { f with routes := (List.range (bodyNat b 2 1)).foldl (fun t i =>
    sset t (first + i) (BitVec.ofNat 32 (bodyNat b (4 + 4 * i) 4))) f.routes }, 0)

/-- ROUTE_WRITE. -/
def execRouteWrite (h : HallId) (link : Option LinkTag) (p : FabPacket) (s : State) : Result :=
  .next <| managed s h (arrived p link) 0x05 routeBodyOk routeWrite

/-- What a WCL_SET of this body does (R333). -/
def wclSet (b : List Byte) (s : State) : State × Nat :=
  let n := bodyNat b 0 2
  if levelMajor s.fwLevel < n then (s, 0x05)
  else (s.modPorter fun p => { p with flash := { p.flash with wcl := max p.flash.wcl n } }, 0)

/-- WCL_SET (R333). -/
def execWclSet (h : HallId) (link : Option LinkTag) (p : FabPacket) (s : State) : Result :=
  .next <| managed s h (arrived p link) 0x06 (fun b => bodyOk b 4 [(0, 16, 16)]) wclSet

/-- REPORT (R338): on the manager's module only. -/
def execReport (a : HallId × FabPacket) (s : State) : Result :=
  .next <| mgmtIn s a.1 a.2 fun s =>
    let m := msgOf a.2
    if s.porterUp && s.porter.fab.elected && mgType m == 0x07 && bodyOk m.body 8 [(0, 28, 4), (4, 16, 16)] then
      let w := bodyNat m.body 0 4
      recordReport s (w % 2 ^ 20) (w / 2 ^ 20 % 16) (w / 2 ^ 24) (bodyNat m.body 4 2)
    else s

end Sys2Proof.Machine
end

