-- ==== Sys2Proof/Machine/RegRead.lean ====
section
/-! DEFINITION. What each set-up register reads: the images of Tables 18.2 to 18.5 (R458 to R463, R468). A read changes nothing
(R461). -/

namespace Sys2Proof.Machine

/-! ### Fields shared by registers and telemetry -/

def bit1 (b : Bool) (i : Nat) : Nat := if b then 2 ^ i else 0

/-- A signed reading of 0.125 °C in 12 bits. -/
def temp12 (t : Int) : Nat := (BitVec.ofInt 12 t).toNat

def Stage.code : Stage → Nat
  | .rom => 0 | .porter => 1 | .coldWait => 2 | .links => 3 | .parkTrain => 4 | .microcode => 5 | .selfTest => 6
  | .reconcile => 7 | .init => 8 | .running => 9 | .warm => 10 | .halted => 11

def CoolState.code : CoolState → Nat
  | .normal => 0 | .degraded => 1 | .hold => 2 | .lost => 3 | .dramLost => 4

/-- A bad-unit map entry (Table 13.6). -/
def BadUnit.image (b : BadUnit) (cause : Nat) : Dword :=
  BitVec.ofNat 64 (b.kind % 16 + b.hall % 16 * 2 ^ 4 + b.unit % 256 * 2 ^ 8 + cause % 16 * 2 ^ 16 + b.puc.toNat * 2 ^ 32)

/-- PRT_SOFTMAP_ENTRY: the entry that PRT_SOFTMAP_SEL names, zero beyond COUNT. -/
def State.softmapEntry (s : State) : Dword :=
  let p := s.porter
  match (if p.softFac then p.fuses.badMap else p.flash.softmap)[p.softSel]? with
  | some b => b.image (if p.softFac then 0 else b.cause)
  | none => 0

/-- PRT_BOOT. -/
def regBoot (s : State) : Nat := s.porter.stage.code + s.porter.fail % 256 * 2 ^ 4 + bit1 s.porter.slotB 12

/-- PRT_CLK_STAT. -/
def regClkStat (s : State) : Nat :=
  hallMap (fun h => (s.hall h).pllLocked) + bit1 s.porter.host.refLost 12 + bit1 s.porter.host.pucLost 13

/-- PRT_REPLACE. -/
def regReplace (s : State) : Nat := s.porter.replace.toNat + bit1 (s.porter.replace != 0) 16

/-- PRT_SOFTMAP_STAT. -/
def regSoftmapStat (s : State) : Nat := s.porter.flash.softmap.length % 2 ^ 11 + bit1 s.porter.softLost 11

/-- PRT_ALERT. -/
def regAlert (s : State) : Nat := s.porter.alert.toNat + bit1 (s.porter.alert != 0) 6

/-- PRT_FWUPD_STAT. -/
def regFwStat (s : State) : Nat := bit1 s.porter.fw.busy 0 + s.porter.fw.status % 256 * 2 + bit1 s.porter.fw.done 9

/-- PRT_CAL_STAT. -/
def regCalStat (s : State) : Nat :=
  let c := s.porter.cal
  bit1 c.busy 0 + bit1 c.err 1 + bit1 c.user 2 + bit1 c.userLost 3 + c.status % 256 * 2 ^ 4 + c.count % 2 ^ 11 * 2 ^ 12

/-- PRT_THERM_COOL and PRT_THERM_COOLANT. -/
def regCool (s : State) : Nat :=
  let c := s.porter.cool
  c.state.code + c.base % 4 * 2 ^ 3 + bit1 c.inletRange 5 + bit1 c.flowLow 6 + bit1 c.inferLost 7 + c.ratio % 2 ^ 16 * 2 ^ 16
def regCoolant (s : State) : Nat := temp12 s.porter.cool.inlet + temp12 s.porter.cool.outlet * 2 ^ 16

/-- PRT_THERM_SENS_FAIL. -/
def regSensFail (s : State) : Nat := failedPairs s % 256 + failedDram s % 2 ^ 12 * 2 ^ 8

/-- PRT_PWR_STAT. -/
def regPwrStat (s : State) : Nat :=
  let w := s.porter.power
  bit1 w.uvWarn 0 + bit1 w.ovWarn 1 + bit1 w.uvSeen 2 + bit1 w.ovSeen 3 + bit1 w.railFault 4 + w.railHall % 16 * 2 ^ 5

/-! ### Porter block (Table 18.2) -/

/-- Bytes moved in the last 1 ms as a percentage of the `most` that a tier moves in 1 ms (Table 5.11). -/
def tierLoad (now most : Nat) (l : Sparse Nat) : Nat :=
  min (quotient 7 (((l.filter fun p => now < p.1 + 100000).map fun p => p.2 * 2048).sum * 100) most) 127

/-- Offsets 0x000 to 0x1FF: identity, boot, time, the soft map, tiers. -/
def porterWordA (s : State) (off : Nat) : Nat :=
  let p := s.porter
  let d := p.host
  match off with
  | 0x000 => 0x210C12
  | 0x004 => regBoot s
  | 0x008 => bit1 p.rstErr 1
  | 0x00C => p.powerup.toNat
  | 0x010 => p.elapsed.toNat % 2 ^ 32
  | 0x014 => p.elapsed.toNat / 2 ^ 32
  | 0x018 => regClkStat s
  | 0x01C => regReplace s
  | 0x020 => p.res.base % 2 ^ 32
  | 0x024 => p.res.base / 2 ^ 32
  | 0x028 => p.res.vector
  | 0x030 => p.softSel + bit1 p.softFac 10
  | 0x034 => regSoftmapStat s
  | 0x038 => s.softmapEntry.toNat % 2 ^ 32
  | 0x03C => s.softmapEntry.toNat / 2 ^ 32
  | 0x100 => d.hostRes % 2 ^ 32
  | 0x104 => d.hostRes / 2 ^ 32
  | 0x108 => d.spineGib + bit1 d.tierLock 9 + bit1 d.tierRefused 10
  | 0x10C => d.farBase
  | 0x110 => d.farSize
  | 0x114 => d.resumeCount
  | 0x118 => tierLoad s.now 1640000000 d.parkMoved
  | 0x11C => tierLoad s.now 100000000 d.portbMoved
  | 0x120 => d.fardecSel
  | 0x124 => (sget d.fardecBase 0 d.fardecSel).toNat
  | 0x128 => (sget d.fardecSize 0 d.fardecSel).toNat
  | _ => 0

/-- Offsets 0x200 to 0x4FF: port A, the fabric, calibration. -/
def porterWordB (s : State) (off : Nat) : Nat :=
  let d := s.porter.host
  let f := s.porter.fab
  let c := s.porter.cal
  match off with
  | 0x200 => d.winLo.toNat
  | 0x204 => d.winHi.toNat
  | 0x208 => d.mbxVec
  | 0x20C => d.mbxSel
  | 0x210 => (sget d.mbx 0 d.mbxSel).toNat % 2 ^ 32
  | 0x214 => (sget d.mbx 0 d.mbxSel).toNat / 2 ^ 32
  | 0x300 => f.moduleId
  | 0x304 => f.epoch.toNat
  | 0x308 => f.prio + bit1 f.elected 8 + bit1 f.changed 9
  | 0x30C => s.porter.flash.wcl
  | 0x310 => f.vec
  | 0x314 => f.cmdLo.toNat
  | 0x318 => f.cmdHi.toNat
  | 0x320 => min f.cmds.length 16 + bit1 f.full 5
  | 0x324 => f.reports.toNat
  | 0x400 => c.id + c.index * 2 ^ 16
  | 0x408 => c.val.toNat % 2 ^ 32
  | 0x40C => c.val.toNat / 2 ^ 32
  | 0x410 => regCalStat s
  | 0x414 => c.repLo.toNat
  | 0x418 => c.repHi.toNat
  | _ => 0

/-- Offsets 0x500 to 0x8FF: errors, cooling, power, management. -/
def porterWordC (s : State) (off : Nat) : Nat :=
  let p := s.porter
  let l := p.errlog
  let c := p.cool
  let w := p.power
  match off with
  | 0x500 => l.base % 2 ^ 32
  | 0x504 => l.base / 2 ^ 32
  | 0x508 => l.log2 + bit1 l.en 5
  | 0x50C => l.tail.toNat
  | 0x510 => l.head.toNat
  | 0x514 => l.lost
  | 0x518 => l.vec
  | 0x51C => bit1 p.host.pscrubEn 0
  | 0x520 => p.host.pscrubLap
  | 0x524 => p.host.parkCe.toNat
  | 0x528 => p.host.parkUe.toNat
  | 0x600 => regCool s
  | 0x604 => regCoolant s
  | 0x608 => c.flow
  | 0x60C => c.rth
  | 0x610 => c.baseline
  | 0x614 => c.degTime
  | 0x618 => regSensFail s
  | 0x700 => w.vin
  | 0x704 => w.iin
  | 0x708 => w.pin
  | 0x70C => w.peak
  | 0x710 => regPwrStat s
  | 0x714 => w.slots
  | 0x718 => w.unsched
  | 0x800 => p.i3c.da.toNat + bit1 p.i3c.enint 7
  | 0x804 => regAlert s
  | 0x808 => s.fwSvn
  | 0x80C => p.fw.lo.toNat
  | 0x810 => p.fw.hi.toNat
  | 0x814 => p.fw.len.toNat
  | 0x81C => regFwStat s
  | _ => 0

/-- The 32-bit word at a 4-byte aligned offset of the porter block. -/
def porterWord (s : State) (off : Nat) : Word :=
  BitVec.ofNat 32 (if off < 0x200 then porterWordA s off else if off < 0x500 then porterWordB s off else porterWordC s off)

/-! ### Hall blocks (Tables 18.3 and 18.4) -/

/-- Whether a hall's compute domain is held or fenced, so that what its units report is their reset state (R463). -/
def computeHeld (s : State) (h : Nat) : Bool := !s.hallUp h

/-- HALL_CLK. -/
def regHallClk (x : Hall) : Nat := x.coreDiv % 4 + x.clkCause % 4 * 2 ^ 2 + bit1 x.pllLocked 4

/-- THERM_CH of a channel: a temperature, or a rail's voltage in mV (R436). -/
def regThermCh (x : Hall) (c : Nat) : Nat :=
  if c < 320 then temp12 (x.sensor c).temp + bit1 (x.sensor c).valid 12 + bit1 (x.sensor c).failed 13
  else match sfind x.therm.railMv c with
    | some mv => mv % 4096 + 2 ^ 12
    | none => 0

/-- Reported temperature of a stairwell (R406). -/
def reportedTemp (x : Hall) (p : Nat) : Int :=
  (hottest (x.pair (pairOf p) :: (List.range 12).map fun l => x.dram (blockUnder p) l)).getD 0

/-- THERM_SW of a stairwell. -/
def regThermSw (s : State) (h p : Nat) : Nat :=
  let y := s.stair h p
  temp12 (reportedTemp (s.hall h) p) + if computeHeld s h || y.fenced then 0 else y.k % 16 * 2 ^ 12 + bit1 y.fixed 16

/-- THERM_HALL, THERM_HOTTEST, THERM_FAILS, THERM_PAIR_FAIL. -/
def regThermHall (s : State) (h : Nat) : Nat :=
  let t := (s.hall h).therm
  t.d % 32 + capOf s h % 32 * 2 ^ 5 + t.throttled % 512 * 2 ^ 10 + bit1 t.steady 19 + bit1 t.lowTemp 20
def regHottest (x : Hall) : Nat := temp12 x.therm.hotDram + temp12 x.therm.hotLogic * 2 ^ 16
def regFails (x : Hall) : Nat := hallFailedDram x % 256 + countN 64 x.pairFailed % 128 * 2 ^ 8
def regPairFail (x : Hall) : Nat := sumN 64 fun k => bit1 (x.pairFailed k) k

/-- DOOR_ registers. -/
def doorWord (s : State) (h off : Nat) : Nat :=
  let g := (s.hall h).regs
  let r := s.sq h g.sqSel
  let q := s.cq h g.cqSel
  match off with
  | 0x000 => 0x80000000 + h * 0x10000
  | 0x004 => 0x3E
  | 0x008 => bit1 g.badWrite 0 + bit1 g.lostCq 1
  | 0x010 => g.sqSel
  | 0x014 => r.base % 2 ^ 32
  | 0x018 => r.base / 2 ^ 32
  | 0x01C => r.log2 + bit1 r.prio 5 + bit1 r.en 6 + bit1 r.err 7
  | 0x020 => r.claimed.toNat
  | 0x030 => g.cqSel
  | 0x034 => q.base % 2 ^ 32
  | 0x038 => q.base / 2 ^ 32
  | 0x03C => q.log2 + bit1 q.en 6 + bit1 q.err 7 + q.irqCount * 2 ^ 8 + q.irqDelay * 2 ^ 16
  | 0x040 => q.vector
  | 0x044 => q.tail.toNat
  | 0x048 => q.res
  | _ => 0

/-- Whether a movement of the device runs in a hall: a copy of a volume homed there, or a PLAN_LOAD (R261). -/
def deviceMoves (s : State) (h : Nat) : Bool :=
  (s.vols.any fun q => q.2.home == h && (q.2.state.transient || (s.job q.1).wb.isSome || (s.job q.1).staging.isSome))
    || s.claims.any fun q => descOpcode q.2.desc == 0x01 && q.2.stage == .running

/-- DMA_CH_STAT. Which device channel carries a movement, and what it says meanwhile, the spec does not give: STATE IDLE or
RUNNING and the two sets are free while one runs in the hall (log entry 116). -/
def chanStat (s : State) (h c : Nat) : Nat :=
  let x := s.chan h c
  if 24 ≤ c then
    let w := Config.deviceChan s.now h c
    if deviceMoves s h && w % 2 == 1 then 2 + w / 2 % 4 * 2 ^ 3 else 0
  else x.state.code + bit1 (!x.setIdle false) 3 + bit1 (!x.setIdle true) 4 + x.pc % 2 ^ 12 * 2 ^ 5

/-- DMA_CH_BYTES. -/
def chanCount (s : State) (h : Nat) (c : ChId) : Nat :=
  if 24 ≤ c.val then if deviceMoves s h then Config.deviceBytes s.now h c % 2 ^ 32 else 0 else min (chanBytes s h c) (2 ^ 32 - 1)

/-- DMA_ and VEST_ registers. -/
def dmaWord (s : State) (h off : Nat) : Nat :=
  let g := (s.hall h).regs
  let x := s.chan h g.chSel
  match off with
  | 0x000 => g.chSel
  | 0x004 => bit1 x.mode 0 + bit1 x.prio 1 + bit1 x.en 2 + bit1 x.err 3
  | 0x008 => chanStat s h g.chSel
  | 0x00C => chanCount s h (Fin.ofNat 32 g.chSel)
  | 0x010 => g.minNormal
  | _ => 0

def vestWord (s : State) (h off : Nat) : Nat :=
  let g := (s.hall h).regs
  match off with
  | 0x000 => g.keepWays
  | 0x004 => (96 - (s.hall h).slicesOff.length) + bit1 g.vestBusy 7 + bit1 g.vestErr 8
  | 0x008 => g.maintLo.toNat
  | 0x00C => g.maintHi.toNat
  | 0x010 => g.maintLen.toNat
  | 0x018 => g.vestHits.toNat
  | 0x01C => g.vestMisses.toNat
  | _ => 0

/-- HALL_ and RING_ registers. -/
def hallHeadWord (s : State) (h off : Nat) : Nat :=
  let x := s.hall h
  let g := x.regs
  match off with
  | 0x000 => 0x0C12 + x.stepCode % 256 * 2 ^ 16 + h * 2 ^ 24
  | 0x004 => 256 + 12 * 2 ^ 9 + 4 * 2 ^ 13 + 32 * 2 ^ 16 + 96 * 2 ^ 22
  | 0x008 => 3072 + 384 * 2 ^ 12 + 12 * 2 ^ 21
  | 0x00C => regHallClk x
  | 0x010 => x.elapsed.toNat % 2 ^ 32
  | 0x014 => x.elapsed.toNat / 2 ^ 32
  | 0x018 => bit1 g.rstReload 1 + bit1 g.rstErr 2 + g.porterResets % 256 * 2 ^ 8
  | 0x01C => g.swRstSw + bit1 (s.stair h g.swRstSw).resetting 9
  | 0x020 => g.qselSw + g.qselQueue * 2 ^ 8
  | 0x024 => if computeHeld s h || (s.stair h g.qselSw).fenced then 0 else (s.queue h g.qselSw g.qselQueue).retired.toNat
  | _ => 0

def ringWord (s : State) (h off : Nat) : Nat :=
  let x := s.hall h
  let g := x.regs
  match off with
  | 0x000 => x.splitCw / 16
  | 0x004 => x.route.toNat
  | 0x008 => g.ageMax
  | 0x00C => g.wSw + g.wDma * 2 ^ 4 + g.wVest * 2 ^ 9 + g.wUsher * 2 ^ 14 + g.wClasp * 2 ^ 18
  | 0x010 => g.resetAns.toNat
  | _ => 0

/-- MEM_RATE of a stairwell. -/
def regMemRate (s : State) (h p : Nat) : Nat :=
  (sumN 12 fun l => sget (s.hall h).therm.rates 0 (l * 16 + blockUnder p) % 4 * 2 ^ (2 * l)) + (s.stair h p).deferMax % 8 * 2 ^ 24

/-- MEM_ and LAND_ registers. -/
def memWord (s : State) (h off : Nat) : Nat :=
  let g := (s.hall h).regs
  let y := s.stair h g.laySel
  match off with
  | 0x000 => g.laySel
  | 0x004 => y.layWant.toNat + bit1 y.layBusy 5 + bit1 y.layRefused 6
  | 0x008 => regMemRate s h g.laySel
  | 0x010 => 0x40 + 0x10 * h
  | 0x014 => g.errCe.toNat
  | 0x018 => g.errUe.toNat
  | _ => 0

def landWord (h off : Nat) : Nat :=
  match off with
  | 0x000 => h * 0x08000000
  | 0x004 => 0x3F
  | _ => 0

/-- THERM_ registers. -/
def thermWord (s : State) (h off : Nat) : Nat :=
  let x := s.hall h
  match off with
  | 0x000 => x.therm.chSel
  | 0x004 => regThermCh x x.therm.chSel
  | 0x008 => x.therm.swSel
  | 0x00C => regThermSw s h x.therm.swSel
  | 0x010 => regThermHall s h
  | 0x014 => x.therm.floor
  | 0x018 => regHottest x
  | 0x01C => regFails x
  | 0x020 => regPairFail x % 2 ^ 32
  | 0x024 => regPairFail x / 2 ^ 32
  | 0x028 => x.therm.suspectMap % 2 ^ 32
  | 0x02C => x.therm.suspectMap / 2 ^ 32
  | _ => 0

/-- FAB_ registers. -/
def fabWord (s : State) (h off : Nat) : Nat :=
  let x := s.port h
  let g := (s.hall h).regs
  let r := s.rx h g.streamSel
  match off with
  | 0x000 => bit1 x.en 0
  | 0x004 => portWord x + x.jpv % 256 * 2 ^ 10
  | 0x008 => x.peerPid.toNat % 2 ^ 32
  | 0x00C => x.peerPid.toNat / 2 ^ 32 + nodeHall x.peerNode.toNat * 2 ^ 16
  | 0x010 => g.streamSel
  | 0x014 => bit1 r.en 0 + bit1 r.err 1 + r.credits * 2 ^ 2
  | 0x018 => r.src.toNat
  | 0x01C => x.fecUncorr.toNat
  | 0x020 => x.crcErr.toNat
  | 0x024 => x.drops.toNat
  | 0x028 => x.retx.toNat
  | _ => 0

/-- UCIE_ registers of the link that UCIE_SEL names. -/
def ucieWord (s : State) (h off : Nat) : Nat :=
  let x := s.hall h
  let u := if x.regs.ucieSel = 0 then x.hostLink else if x.regs.ucieSel = 1 then x.cwLink else x.ccwLink
  match off with
  | 0x000 => x.regs.ucieSel
  | 0x004 => u.width % 128 + u.rate % 8 * 2 ^ 7 + u.spares % 16 * 2 ^ 10 + bit1 (u.width != 0) 14
  | 0x008 => u.crcErr.toNat
  | 0x00C => min u.retrain 65535
  | _ => 0

/-- SCRUB_ registers. -/
def scrubWord (s : State) (h off : Nat) : Nat :=
  let g := (s.hall h).regs
  match off with
  | 0x000 => bit1 g.scrubEn 0 + g.lapLimit * 2 ^ 16
  | 0x004 => bit1 g.scrubSlow 0
  | 0x008 => g.scrubLap
  | 0x00C => g.scrubCur
  | _ => 0

/-- The 32-bit word at a 4-byte aligned offset of a hall's block. -/
def hallWord (s : State) (h off : Nat) : Word :=
  let o := off % 4096
  BitVec.ofNat 32 <| match off / 4096 with
    | 0 => hallHeadWord s h o
    | 1 => ringWord s h o
    | 2 => doorWord s h o
    | 3 => dmaWord s h o
    | 4 => vestWord s h o
    | 5 => memWord s h o
    | 6 => landWord h o
    | 7 => thermWord s h o
    | 8 => fabWord s h o
    | 9 => ucieWord s h o
    | 10 => scrubWord s h o
    | _ => 0

/-! ### The module control space (R458 to R463) -/

/-- Bytes of a block, and of the space. -/
abbrev blockBytes : Nat := 0x100000
abbrev controlBytes : Nat := 0x1000000

/-- The hall whose block holds an offset. -/
def blockHall (off : Nat) : Option HallId :=
  if blockBytes ≤ off ∧ off < 13 * blockBytes then some (Fin.ofNat 12 (off / blockBytes - 1)) else none

/-- Whether an access is aligned and of 4 or 8 bytes (R459). -/
def accessOk (off size : Nat) : Bool := (size == 4 || size == 8) && off % size == 0

/-- Whether an access falls on the block of a hall whose network domain does not answer (R463). -/
def blockLost (s : State) (off : Nat) : Bool :=
  match blockHall off with
  | some h => !s.hallNet h
  | none => false

/-- The word at a 4-byte aligned offset of the module control space; an offset that holds no register reads zero (R460). -/
def State.controlWord (s : State) (off : Nat) : Word :=
  match blockHall off with
  | some h => hallWord s h (off % blockBytes)
  | none => if off < blockBytes then porterWord s off else 0

/-- A read of the module control space: none is an access fault (R459, R463). -/
def State.readRegister (s : State) (off size : Nat) : Option Nat :=
  if !accessOk off size || blockLost s off then none
  else if size = 4 then some (s.controlWord off).toNat
  else some ((s.controlWord off).toNat + (s.controlWord (off + 4)).toNat * 2 ^ 32)

/-- An aligned read of the doorbell page of a hall whose network answers: the last value accepted, and zero above the
doorbells (Table 8.1, R238). -/
def State.readDoorbell (s : State) (h off : Nat) : Word :=
  if off < 0x800 then (sget (s.hall h).sq {} (off / 8)).tail
  else if off < 0xA00 then (sget (s.hall h).cq {} ((off - 0x800) / 8)).head
  else 0

/-! ### Window pages (Tables 4.6 to 4.9) -/

/-- MODE bit of a bank: set from the write of 1 until the write of 0 (Table 4.7). -/
def BankMode.bit : BankMode → Bool
  | .entering out => !out
  | .landing => true
  | _ => false

/-- Words of the mode window and of the status. -/
def Landing.modeWord (x : Landing) : Nat :=
  bit1 x.bank0.bit 0 + bit1 x.bank1.bit 1 + bit1 x.bank2.bit 2 + bit1 x.bank3.bit 3 + x.kvfmt % 256 * 2 ^ 8
def Landing.stateWord (x : Landing) : Nat :=
  x.bank0.code + x.bank1.code * 2 ^ 2 + x.bank2.code * 2 ^ 4 + x.bank3.code * 2 ^ 6 + x.kvfmt % 256 * 2 ^ 8 + bit1 x.retired 16
def Landing.countWord (x : Landing) : Nat := x.issued.toNat + x.done.toNat * 2 ^ 16
def Landing.lastWord (x : Landing) : Nat :=
  x.lastTag.toNat + x.lastStatus % 256 * 2 ^ 8 + bit1 x.poisonSeen 16 + bit1 x.overflow 17 + bit1 x.refused 18

/-- The 32-bit word at a 4-byte aligned offset of a landing's page; write-only windows and reserved offsets read zero. -/
def Landing.pageWord (x : Landing) (off : Nat) : Nat :=
  if off = 0 then x.modeWord
  else if off = 0x40 then x.stateWord
  else if off = 0x44 then x.countWord
  else if off = 0x48 then x.lastWord
  else if 0x4000 ≤ off then leNat (tab 4 fun i => sget x.result 0 (off - 0x4000 + i))
  else 0

/-- What a core's read of a window page answers: a word, or an access fault, which `hw` marks as a hardware error. -/
inductive WindowRead where
  | word (w : Nat)
  | fault (hw : Bool)
deriving DecidableEq, Repr

/-- A core's aligned read of a word of a window page: a fault where the column is not served (R33, R129), and one marked as a
hardware error of a poisoned result row (R119). Pages 12 to 15 read zero (R105, R109). -/
def State.readWindow (s : State) (h sw page off : Nat) : WindowRead :=
  if !s.colServed h sw then .fault false
  else if 12 ≤ page then .word 0
  else
    let x := s.landing h sw page
    if 0x4000 ≤ off && sget x.resPoison false ((off - 0x4000) / 1024) then .fault true else .word (x.pageWord off)

/-- A core's load of a word of a window page: the word, or the fault; of a poisoned row the porter logs the fault as it logs any
load of poisoned data (Table 14.3). -/
def State.windowLoad (s : State) (h sw page off : Nat) (core : Fin 24) : State :=
  match s.readWindow h sw page off with
  | .word w => s.emit (.readData (leBytes 4 w))
  | .fault hw => (if hw then s.logEvent 0x10 0 core 0 else s).emit (.accessFault hw)

end Sys2Proof.Machine
end

