-- ==== Sys2Proof/Machine/I3cOps.lean ====
section
/-! DEFINITION. The I3C target: common command codes, command frames, telemetry pages and in-band interrupts (R438 to R447). -/

namespace Sys2Proof.Machine

/-! ### The target (R438 to R440) -/

/-- Whether the target runs: whenever the input is in range and EN is high. -/
def State.targetUp (s : State) : Bool := s.porter.power.phase == .on || s.porter.power.phase == .powerDown

/-- Whether the boot ROM answers. -/
def State.inRom (s : State) : Bool := s.porter.stage == .rom

/-- DCR, and the 64-bit word of ENTDAA (Table 17.1). -/
def State.dcr (s : State) : Nat := 0xC0 + s.porter.i3c.slot % 8
def State.daaWord (s : State) : Nat := s.pid.toNat * 2 ^ 16 + 0x06 * 2 ^ 8 + s.dcr

/-- Bytes of a number, most significant first, as CCCs carry it. -/
def beBytes (n v : Nat) : List Byte := (leBytes n v).reverse

/-- RSTDAA or a new address: held responses are discarded, and that of a running command will be (R442). -/
def dropResponses (i : I3c) : I3c :=
  { i with ready := i.ready.filter fun (q : Bool × List Byte) => !q.1, busyCmd := i.busyCmd.map fun (q : Byte × Bool) => (q.1, false) }

/-- ENTDAA (R439, R440): the module presents its word; `word` is the lowest that the other modules present. The lowest word
takes the address. -/
def execEntdaa (word : Option (BitVec 64)) (addr : BitVec 7) (s : State) : Result :=
  .next <|
    if !s.targetUp || s.porter.i3c.da != 0 then s
    else
      let s := s.emit (.i3c (beBytes 8 s.daaWord))
      let wins := match word with
        | some w => decide (s.daaWord ≤ w.toNat)
        | none => true
      if wins then s.modI3c fun i => { dropResponses i with da := addr } else s

/-- RSTDAA (R438). -/
def execRstdaa (s : State) : Result := .next (if s.targetUp then s.modI3c fun i => { dropResponses i with da := 0 } else s)

/-- ENEC and DISEC (Table 17.2): ENINT is bit 0 of the event byte. -/
def execEnec (events : Byte) (s : State) : Result :=
  .next (if s.targetUp && bitAt events 0 then s.modI3c fun i => { i with enint := true } else s)
def execDisec (events : Byte) (s : State) : Result :=
  .next (if s.targetUp && bitAt events 0 then s.modI3c fun i => { i with enint := false } else s)

/-- An addressed transfer: not acknowledged until the module holds an address. -/
def addressed (s : State) (k : State → State) : State :=
  if !s.targetUp then s else if s.porter.i3c.da = 0 then s.emit .i3cNack else k s

/-- SETMWL: 16 to 64 bytes; another length is not taken. -/
def execSetmwl (n : BitVec 16) (s : State) : Result :=
  .next <| addressed s fun s => if 16 ≤ n.toNat ∧ n.toNat ≤ 64 then s.modI3c fun i => { i with mwl := n.toNat } else s
/-- GETMWL. -/
def execGetmwl (s : State) : Result := .next <| addressed s fun s => s.emit (.i3c (beBytes 2 s.porter.i3c.mwl))
/-- SETMRL: 16 to 256 bytes; another length is not taken. -/
def execSetmrl (n : BitVec 16) (s : State) : Result :=
  .next <| addressed s fun s => if 16 ≤ n.toNat ∧ n.toNat ≤ 256 then s.modI3c fun i => { i with mrl := n.toNat } else s
/-- GETMRL: the length, then the IBI payload of 1 byte. -/
def execGetmrl (s : State) : Result := .next <| addressed s fun s => s.emit (.i3c (beBytes 2 s.porter.i3c.mrl ++ [1]))
/-- GETPID. -/
def execGetpid (s : State) : Result := .next <| addressed s fun s => s.emit (.i3c (beBytes 6 s.pid.toNat))
/-- GETBCR. -/
def execGetbcr (s : State) : Result := .next <| addressed s fun s => s.emit (.i3c [0x06])
/-- GETDCR. -/
def execGetdcr (s : State) : Result := .next <| addressed s fun s => s.emit (.i3c [BitVec.ofNat 8 s.dcr])
/-- GETSTATUS (R446). -/
def execGetstatus (s : State) : Result :=
  .next <| addressed s fun s => s.emit (.i3c (beBytes 2 (min 15 (popcount s.porter.alert))))

/-! ### Telemetry pages (R444, R445, Tables 17.5 to 17.7) -/

def words (l : List Nat) : List Byte := l.flatMap fun w => leBytes 4 w

/-- LEVEL_A and LEVEL_B: all ones for a slot that fails verification. -/
def slotLevel (s : State) (b : Bool) : Nat := if s.slotVerifies b then (s.bundleIn b).level.toNat else 0xFFFFFFFF

/-- The certificate chain (R448), and bytes 0 to 15 of its digest. -/
def State.chain (s : State) : List Byte := Config.certChain s.porter.fuses.serial s.pid
def digestBytes (b : List Byte) : List Byte := leBytes 48 (Config.sha384 b).toNat

/-- IDENTITY (Table 17.6). -/
def pageIdentity (s : State) : List Byte :=
  let rom := s.inRom
  leBytes 8 s.pid.toNat ++ words [0x06 + s.dcr * 2 ^ 8 + 0x0C12 * 2 ^ 16, 0x21 + s.porter.i3c.slot % 8 * 2 ^ 8]
    ++ leBytes 8 s.porter.fuses.serial.toNat
    ++ words [if rom then 0xFFFFFFFF else s.fwLevel.toNat, if rom then 0xFFFFFFFF else slotLevel s false,
              if rom then 0xFFFFFFFF else slotLevel s true, if rom then 0 else s.porter.flash.wcl % 2 ^ 16,
              s.fwSvn, 1 + bit1 rom 1]
    ++ if rom then leBytes 16 0 else (digestBytes s.chain).take 16

/-- STATUS, POWER, COOLANT and ERRORS. -/
def pageStatus (s : State) : List Byte :=
  words [regBoot s, regReplace s, regCool s, hallsWord s, s.porter.powerup.toNat, s.porter.elapsed.toNat % 2 ^ 32,
         s.porter.elapsed.toNat / 2 ^ 32, regClkStat s, regSoftmapStat s, regAlert s, regFwStat s]
def pagePower (s : State) : List Byte :=
  let w := s.porter.power
  words [w.vin, w.iin, w.pin, w.peak, regPwrStat s, w.slots, w.unsched]
def pageCoolant (s : State) : List Byte :=
  let c := s.porter.cool
  words [regCool s, regCoolant s, c.flow, c.rth, c.baseline, c.degTime, regSensFail s]
def pageErrors (s : State) : List Byte :=
  let d := s.porter.host
  words ([d.parkCe.toNat, d.parkUe.toNat, d.pscrubLap, s.porter.errlog.lost]
    ++ (List.range 12).flatMap fun h => [(s.hall h).regs.errCe.toNat, (s.hall h).regs.errUe.toNat])

/-- HALL n; empty when the hall's network domain does not answer. -/
def pageHall (s : State) (h : Nat) : List Byte :=
  if !s.hallNet h then []
  else
    let x := s.hall h
    (hallSection s h).take 12 ++ words [regHallClk x, regThermHall s h, regHottest x, regFails x]
      ++ leBytes 8 (regPairFail x) ++ leBytes 8 x.therm.suspectMap
      ++ words [bit1 x.regs.scrubSlow 0, x.regs.scrubLap, x.regs.scrubCur, x.regs.resetAns.toNat]

/-- An entry of the event log (R445). -/
def Event.bytes (e : Event) : List Byte :=
  leBytes 4 (e.code % 256 + e.hall % 16 * 2 ^ 8 + e.unit % 256 * 2 ^ 12 + e.arg % 4096 * 2 ^ 20) ++ leBytes 4 e.puc.toNat
    ++ leBytes 8 e.at_.toNat

/-- EVENTS: NEXT, then up to 7 entries from the one whose number ends in `idx`; none when it is not in the window. -/
def pageEvents (s : State) (idx : Nat) : Option (List Byte) :=
  let p := s.porter
  let back := (p.evNext.toNat % 65536 + 65536 - idx) % 65536
  if p.events.length < back then none
  else some (leBytes 4 p.evNext.toNat ++ ((p.events.drop (p.events.length - back)).take 7).flatMap Event.bytes)

/-- CALREPORT: COUNT, then up to 7 records. -/
def pageReport (s : State) (idx : Nat) : List Byte :=
  leBytes 4 s.porter.cal.count ++ reportBytes ((s.porter.cal.report.drop idx).take 7)

/-- SENSORS: up to 32 consecutive channels of one hall. -/
def pageSensors (s : State) (idx : Nat) : List Byte :=
  let h := idx / 384
  let c := idx % 384
  if s.hallNet h then words ((List.range (min 32 (384 - c))).map fun i => regThermCh (s.hall h) (c + i)) else []

/-- A page of Table 17.5; none for an unknown PAGE or an INDEX out of range. -/
def pageBytes (s : State) (page idx : Nat) : Option (List Byte) :=
  let only := fun (b : List Byte) => if idx = 0 then some b else none
  if 0x10 ≤ page ∧ page ≤ 0x1B then only (pageHall s (page - 0x10))
  else match page with
    | 0x00 => only (pageIdentity s)
    | 0x01 => only (pageStatus s)
    | 0x02 => only (pagePower s)
    | 0x03 => only (pageCoolant s)
    | 0x04 => only (pageErrors s)
    | 0x20 => pageEvents s idx
    | 0x21 => if idx < 1024 then some (pageReport s idx) else none
    | 0x22 => if idx < 4608 then some (pageSensors s idx) else none
    | _ => none

/-! ### Command frames (R441, R442, Table 17.3) -/

/-- A well-formed frame of `cmd`: longer than the maximum write length it is answered BAD_FRAME, and BUSY while a command runs.
The boot ROM serves READ_PAGE alone. -/
def withFrame (s : State) (cmd : Nat) (args : List Byte) (len : Nat) (k : State → State) : State :=
  addressed s fun s =>
    if s.porter.i3c.mwl < args.length + 4 then respReady s cmd Frame.badFrame []
    else if s.porter.i3c.busyCmd.isSome then respReady s cmd Frame.busy []
    else if s.inRom && cmd != 0x01 then respReady s cmd Frame.romOnly []
    else if args.length ≠ len then respReady s cmd Frame.badArg []
    else k s

/-- READ_PAGE (R444). -/
def execReadPage (args : List Byte) (s : State) : Result :=
  .next <| withFrame s 0x01 args 3 fun s =>
    let page := bodyNat args 0 1
    if s.inRom && 1 < page then respReady s 0x01 Frame.romOnly []
    else match pageBytes s page (bodyNat args 1 2) with
      | some b => respReady s 0x01 Frame.ok b
      | none => respReady s 0x01 Frame.badArg []

/-- ALERT_ACK (R446). -/
def execAlertAck (args : List Byte) (s : State) : Result :=
  .next <| withFrame s 0x02 args 2 fun s =>
    let m := BitVec.ofNat 6 (bodyNat args 0 2)
    let s := s.modPorter fun p => { p with alert := p.alert &&& ~~~m }
    respReady s 0x02 Frame.ok (leBytes 2 s.porter.alert.toNat)

/-- A calibration command takes its place in the queue (R376, R442). -/
def calFrame (s : State) (cmd : Nat) (op : CalOp) (args : List Byte) : State :=
  let c : CalCmd := { op := op, i3c := true, id := bodyNat args 0 1, index := bodyNat args 1 2,
                      value := BitVec.ofNat 64 (bodyNat args 3 8) }
  (s.modI3c fun i => { i with busyCmd := some (BitVec.ofNat 8 cmd, true) }).modCal fun k => { k with queue := k.queue ++ [c] }

/-- CAL_READ. -/
def execCalRead (args : List Byte) (s : State) : Result := .next <| withFrame s 0x03 args 3 fun s => calFrame s 0x03 .read args
/-- CAL_WRITE. -/
def execCalWrite (args : List Byte) (s : State) : Result := .next <| withFrame s 0x04 args 11 fun s => calFrame s 0x04 .write args
/-- CAL_CLEAR. -/
def execCalClear (args : List Byte) (s : State) : Result := .next <| withFrame s 0x05 args 3 fun s => calFrame s 0x05 .clear args
/-- RESTORE_FACTORY (R377). -/
def execRestoreFactory (args : List Byte) (s : State) : Result :=
  .next <| withFrame s 0x06 args 0 fun s => calFrame s 0x06 .restore args

/-- WARM_RESET (R368): ignored, it is answered REFUSED. -/
def execWarmReset (args : List Byte) (s : State) : Result :=
  .next <| withFrame s 0x07 args 2 fun s =>
    if bodyNat args 0 2 ≠ 0x5752 then respReady s 0x07 Frame.badArg []
    else match warmRequest s 1 with
      | some s => respReady s 0x07 Frame.ok []
      | none => respReady (s.modPorter fun p => { p with rstErr := true }) 0x07 Frame.refused []

/-- FW_COMMIT (R453, R454): while STAGE or COMMIT runs it is ignored, and reads back BUSY. -/
def execFwCommit (args : List Byte) (s : State) : Result :=
  .next <| withFrame s 0x08 args 1 fun s =>
    let c := bodyNat args 0 1
    if 7 < c then respReady s 0x08 Frame.badArg []
    else if s.porter.fw.busy then respReady (s.modFw fun f => { f with status := FwStatus.busy }) 0x08 Frame.busy []
    else fwCommitStart (s.modI3c fun i => { i with busyCmd := some (0x08, true) }) c true

/-- COMMAND_FRAME_REFUSED (R441, Table 17.4): a wrong CRC, a wrong LEN or excess length, or an unknown CMD. -/
def execCommandFrameRefused (frame : List Byte) (s : State) : Result :=
  .next <| addressed s fun s =>
    let n := frame.length
    let cmd := bodyNat frame 1 1
    if frame.headD 0 ≠ 0xC5 then s
    else if n < 4 || s.porter.i3c.mwl < n || bodyNat frame 2 1 + 4 != n || crc8 (frame.take (n - 1)) != frame.getD (n - 1) 0 then
      respReady s cmd Frame.badFrame []
    else if 1 ≤ cmd ∧ cmd ≤ 8 then s
    else if s.porter.i3c.busyCmd.isSome then respReady s cmd Frame.busy []
    else respReady s cmd Frame.badCmd []

/-- RESPONSE_READ (R442, R443): what became ready first; PENDING while a command runs; NO_CMD. -/
def execResponseRead (s : State) : Result :=
  .next <| addressed s fun s =>
    let i := s.porter.i3c
    match i.ready, i.busyCmd with
    | (true, b) :: l, _ =>
      let s := s.modI3c fun i => { i with ready := l }
      if i.mrl < b.length then s.emit (.i3c (respFrame (b.getD 1 0).toNat Frame.tooLong [])) else s.emit (.i3c b)
    | (false, b) :: l, _ => (s.modI3c fun i => { i with ready := l }).emit (.mctp .i3c b)
    | [], some (cmd, _) => s.emit (.i3c (respFrame cmd.toNat Frame.pending []))
    | [], none => s.emit (.i3c (respFrame 0 Frame.noCmd []))

/-! ### In-band interrupts (R447) -/

/-- IBI_REQUEST (R447): one per 1 ms, in rising bit order; one that is not acknowledged is requested again, three times at
most. -/
def execIbiRequest (acked : Bool) (s : State) : Result :=
  .next <|
    let i := s.porter.i3c
    let due := match i.lastIbi with
      | some t => s.passed t 1000
      | none => true
    if !s.targetUp || i.da == 0 || !i.enint || !due then s
    else match i.ibi with
      | [] => s
      | (bit, n) :: l =>
        let rest := if acked || 3 ≤ n then l else (bit, n + 1) :: l
        (s.modI3c fun i => { i with ibi := rest, lastIbi := some s.now }).emit (.ibi (bit + 1))

end Sys2Proof.Machine
end

