-- ==== Sys2Proof/Machine/Streams.lean ====
section
/-! DEFINITION. Receive streams, acknowledgement and retransmission (R313 to R317), and packets that pass through. -/

namespace Sys2Proof.Machine

/-! ### Set-up (R313) -/

/-- A write to FAB_STREAM_CFG of the stream that FAB_STREAM_SEL names. Setting EN resets the stream, clearing it discards
what the stream holds. -/
def streamCfg (s : State) (h : Nat) (w : Word) : State :=
  let i := (s.hall h).regs.streamSel
  let r := s.rx h i
  let en := bitAt w 0
  let n := bits w 13 2
  if 48 ≤ i ∨ 2048 < n ∨ (en = true ∧ 2048 < n + otherCredits s h i) then s.setRx h i { r with err := true }
  else
    let r := { r with err := r.err && !bitAt w 1, credits := n }
    if en = r.en then s.setRx h i r
    else s.setRx h i { en := en, err := r.err, credits := n, src := r.src }

/-- FAB_STREAM_CFG_WRITE (R313). -/
def execFabStreamCfgWrite (h : HallId) (w : Word) (s : State) : Result := .next <| s.hallWrite h fun s => streamCfg s h w

/-! ### DATA (R313 to R317) -/

/-- A packet that its destination discards: its CRC fails, or a field is reserved. -/
def packetBad (s : State) (h : Nat) (p : FabPacket) (ptype : Nat) : Bool :=
  p.pad != 0 || headerBad p.hdr || pkPtype p.hdr != ptype || pkLen p.hdr != p.payload.length || 2048 < pkLen p.hdr
    || pkDst p.hdr != s.nodeOf h || nodeModule (pkSrc p.hdr) == 0xFFFF

/-- A DATA or ACK packet checked at its destination, then handled. -/
def received (s : State) (h : HallId) (p : FabPacket) (ptype : Nat) (k : State → State) : State :=
  checked s h p (packetBad s h p ptype) k

/-- Every SEQ that a stream has in order from `got` on. -/
def advance : Nat → Word → Sparse (List Byte × Bool) → Word
  | 0, g, _ => g
  | n + 1, g, b => if (sfind b g.toNat).isSome then advance n (g + 1) b else g

/-- A stream after a packet that it accepts: restarted when the packet carries START (log entry 29), the packet buffered
unless it is a duplicate. -/
def RxStream.take (r : RxStream) (p : FabPacket) : RxStream :=
  let r := if pkStart p.hdr then { r with buf := [], got := 0, read := 0, unacked := 0, unackAt := none } else r
  let q := pkSeq p.hdr
  if (q - r.got).toNat < 2 ^ 31 && (sfind r.buf q.toNat).isNone then
    let b := sset r.buf q.toNat (p.payload, pkPoison p.hdr)
    { r with buf := b, got := advance b.length r.got b }
  else r

/-- Whether a stream's window admits a packet: it carries START, or its SEQ is not beyond LIMIT. -/
def RxStream.admits (r : RxStream) (p : FabPacket) : Bool :=
  pkStart p.hdr || (r.limit - pkSeq p.hdr).toNat < 2 ^ 31

/-- A DATA packet received by a stream: acknowledged at every fourth one (R315). -/
def rxData (s : State) (h : HallId) (i : Nat) (r : RxStream) (p : FabPacket) : State :=
  if !r.en then s
  else if r.src.toNat ≠ pkSrc p.hdr ∨ r.admits p = false then fabDrop s h
  else
    let r := r.take p
    let r := { r with unacked := r.unacked + 1, unackAt := some (r.unackAt.getD s.now) }
    let s := s.setRx h i r
    if 4 ≤ r.unacked then sendAck s h i else s

/-- DATA: a packet reaches its stream. The device's own streams hand out what they receive as it arrives. -/
def execData (h : HallId) (p : FabPacket) (s : State) : Result :=
  .next <| received s h p 1 fun s =>
    let i := pkStream p.hdr
    if i < 48 then rxData s h i (s.rx h i) p
    else
      let k := deviceRx (pkSrc p.hdr) i
      let s := rxData s h k (s.rx h k) p
      deviceData s h k

/-! ### ACK (R315, R316) -/

/-- Every packet up to ACKSEQ released; LIMIT only moves forward. -/
def TxStream.acked (t : TxStream) (a l : Word) : TxStream :=
  { t with pkts := t.pkts.filter fun q => 2 ^ 31 ≤ (a - q.seq).toNat
           limit := some (match t.limit with
             | some o => if (l - o).toNat < 2 ^ 31 then l else o
             | none => l) }

/-- Channels of a hall that were STOPPING and whose packets are all answered end (R272). -/
def endStops (s : State) (h : HallId) : State := (List.finRange 32).foldl (fun (s : State) (c : ChId) => endStop s h c) s

/-- ACK: packets are released and the window moves. One that acknowledges what was never sent is discarded. -/
def execAck (h : HallId) (p : FabPacket) (s : State) : Result :=
  .next <| received s h p 2 fun s =>
    let k := txKey (pkSrc p.hdr) (pkStream p.hdr)
    match sfind (s.hall h).tx k with
    | none => s
    | some t =>
      if (t.next - 1 - pkAckseq p.hdr).toNat < 2 ^ 31 then
        pumpSends (endStops (s.setTx h k (t.acked (pkAckseq p.hdr) (pkLimit p.hdr))) h) h
      else s

/-- ACK_TIMER (R315): a packet has waited 2 µs for its ACK. -/
def execAckTimer (h : HallId) (strm : StreamId) (s : State) : Result :=
  .next <|
    let due := fun (i : Nat) => match (s.rx h i).unackAt with
      | some t => s.passed t 2
      | none => false
    if !s.hallNet h then s
    else if strm.val < 48 then if due strm then sendAck s h strm else s
    else (skeys (s.hall h).rx fun i _ => 64 ≤ i && i % 64 == strm.val && due i).foldl (fun s i => sendAck s h i) s

/-! ### Retransmission (R316) -/

/-- How a channel ends whose packet is given up: the transfer of the packet stopped, those before it complete (R316). -/
def gaveUpStop (x : Chan) (q : TxPkt) : ChanStop :=
  { status := Status.dmaTargetFault, other := Status.dmaStopped, space := 4, side := 1
    keep := (x.transfers.findIdx? fun t => some t.1 == q.claim).getD 0, lost := [(q.claim, q.payload.length)] }

/-- A sender gives up a packet: the MOVE of its channel stops, or the device's transfer does. -/
def giveUp (s : State) (h : HallId) (k : Nat) (q : TxPkt) : State :=
  let s := s.logError { source := .fabGiveup, class_ := Class.uncorrectable, hall := h }
  if 48 ≤ k % 64 then sendGaveUp (txRestart s h k) h k
  else
    let t := s.tx h k
    let s := s.setTx h k { t with stopped := true, pkts := t.pkts.filter fun p => p.seq != q.seq }
    match q.ch with
    | none => s
    | some c =>
      let x := s.chan h c
      let g := gaveUpStop x q
      match x.stop with
      | none => stopChannel s h c g
      | some e =>
        endStop (s.setChan h c { x with stop := some { e with keep := min e.keep g.keep, lost := g.lost ++ e.lost } }) h c

/-- RETRANSMIT_TIMER (R316): sends fall at 0, 0.1, 0.3, 0.7, 1.5, 3.1 and 6.3 ms, each on a route chosen anew. -/
def execRetransmitTimer (h : HallId) (dst : NodeId) (strm : StreamId) (seq : Word) (s : State) : Result :=
  .next <|
    let k := txKey dst.toNat strm
    let t := s.tx h k
    match t.pkts.find? fun q => q.seq == seq with
    | none => s
    | some q =>
      if !s.hallNet h || !s.passed q.sent (100 * 2 ^ (q.sends - 1)) then s
      else if 7 ≤ q.sends then giveUp s h k q
      else
        let q' := { q with sent := s.now, sends := q.sends + 1 }
        let s := s.setTx h k { t with pkts := t.pkts.map fun x => if x.seq == seq then q' else x }
        fabSend (s.modPort h fun x => { x with retx := x.retx + 1 }) h (dataPacket s h k q')

/-! ### Packets that pass through (R325, R329) -/

/-- FABRIC_FORWARD (R325). -/
def execFabricForward (h : HallId) (p : FabPacket) (s : State) : Result :=
  .next (if s.hallNet h then linkIn s h p fun s => fabSend s h p else s)

/-- MGMT_FORWARD (R329): a routed packet taken in at hall `h`'s port. -/
def execMgmtForward (h : HallId) (p : FabPacket) (s : State) : Result :=
  .next <|
    if !s.hallNet h then s
    else linkIn s h p fun s =>
      if p.payload.length < 32 then fabDrop s h
      else steer s h true (withRoute p (bodyNat p.payload 0x10 4) (bodyNat p.payload 0x14 4 * 16 % 2 ^ 32 + h.val))

end Sys2Proof.Machine
end

