-- ==== Sys2Proof/Machine/Registers.lean ====
section
/-! DEFINITION. Writes to the set-up registers (R9, R10, R361, R458 to R465). Each word of a write acts on its register by the
register's access types; a register with a command of its own acts through the operation that the command calls. -/

namespace Sys2Proof.Machine

/-! ### Porter block -/

/-- A W1C bit after a write. -/
def w1c (old : Bool) (w : Word) (i : Nat) : Bool := old && !bitAt w i

/-- A write to PRT_FAB_MGR: PRIO, and CHANGED. -/
def fabMgrWrite (s : State) (w : Word) : State :=
  let n := bits w 7 0
  s.modFab fun f => { f with prio := n, changed := w1c f.changed w 9, ownSince := if n = f.prio then f.ownSince else s.now }

/-- A write to PRT_CAL_CMD. -/
def calCmdWrite (s : State) (w : Word) : State :=
  match bits w 2 0 with
  | 1 => calHost s .read
  | 2 => calHost s .write
  | 3 => calHost s .clear
  | 4 => calHost s .restore
  | _ => s

/-- A write to PRT_FWUPD_CMD. -/
def fwCmdWrite (s : State) (w : Word) : State :=
  match bits w 1 0 with
  | 1 => fwStage s
  | 2 => fwCommit s (bits w 4 2)
  | _ => s

/-- A write to PRT_PWR_STAT. -/
def pwrStatWrite (s : State) (w : Word) : State :=
  s.modPorter fun p => { p with power := { p.power with uvSeen := w1c p.power.uvSeen w 2, ovSeen := w1c p.power.ovSeen w 3,
                                                        railFault := w1c p.power.railFault w 4 } }

/-- Offsets 0x000 to 0x1FF. -/
def porterWriteA (s : State) (off : Nat) (w : Word) : State :=
  match off with
  | 0x008 => prtReset s w
  | 0x018 => s.modHost fun d => { d with pucLost := w1c d.pucLost w 13 }
  | 0x028 => s.modPorter fun p => { p with res := { p.res with vector := bits w 15 0 } }
  | 0x030 => s.modPorter fun p => { p with softSel := bits w 9 0, softFac := bitAt w 10 }
  | 0x034 => s.modPorter fun p => { p with softLost := w1c p.softLost w 11 }
  | 0x108 => tierCfg s .tierCfg w
  | 0x10C => tierCfg s .farBase w
  | 0x110 => tierCfg s .farSize w
  | 0x120 => s.modHost fun d => { d with fardecSel := bits w 2 0 }
  | 0x124 => fardecWrite s .base w
  | 0x128 => fardecWrite s .size w
  | _ => s

/-- Offsets 0x200 to 0x4FF. -/
def porterWriteB (s : State) (off : Nat) (w : Word) : State :=
  match off with
  | 0x200 => portaWin s .winLo w
  | 0x204 => portaWin s .winHi w
  | 0x208 => s.modHost fun d => { d with mbxVec := bits w 15 0 }
  | 0x20C => s.modHost fun d => { d with mbxSel := bits w 5 0 }
  | 0x218 => portaIrq s w
  | 0x308 => fabMgrWrite s w
  | 0x310 => s.modFab fun f => { f with vec := bits w 15 0 }
  | 0x314 => s.modFab fun f => { f with cmdLo := w &&& 0xFFFFE000 }
  | 0x318 => s.modFab fun f => { f with cmdHi := w &&& 0xFF }
  | 0x31C => if s.running then fabDoorbell s (bits w 5 0) else s
  | 0x320 => s.modFab fun f => { f with full := w1c f.full w 5 }
  | 0x400 => s.modCal fun c => { c with id := bits w 7 0, index := bits w 31 16 }
  | 0x404 => calCmdWrite s w
  | 0x408 => s.modCal fun c => { c with val := BitVec.ofNat 64 (c.val.toNat / 2 ^ 32 * 2 ^ 32 + w.toNat) }
  | 0x40C => s.modCal fun c => { c with val := BitVec.ofNat 64 (w.toNat * 2 ^ 32 + c.val.toNat % 2 ^ 32) }
  | 0x410 => s.modCal fun c => { c with err := w1c c.err w 1, userLost := w1c c.userLost w 3 }
  | 0x414 => s.modCal fun c => { c with repLo := w }
  | 0x418 => s.modCal fun c => { c with repHi := w &&& 0xFF }
  | _ => s

/-- Offsets 0x500 to 0x8FF. -/
def porterWriteC (s : State) (off : Nat) (w : Word) : State :=
  match off with
  | 0x500 => errlogCfg s .baseLo w
  | 0x504 => errlogCfg s .baseHi w
  | 0x508 => errlogCfg s .cfg w
  | 0x510 => errlogHead s w
  | 0x518 => s.setErrLog { s.porter.errlog with vec := bits w 15 0 }
  | 0x51C => s.modHost fun d => { d with pscrubEn := bitAt w 0 }
  | 0x70C => peakClear s w
  | 0x710 => pwrStatWrite s w
  | 0x80C => s.modFw fun f => { f with lo := w &&& 0xFFFFF000 }
  | 0x810 => s.modFw fun f => { f with hi := w &&& 0xFF }
  | 0x814 => s.modFw fun f => { f with len := w &&& 0xFFFFFF }
  | 0x818 => fwCmdWrite s w
  | 0x81C => s.modFw fun f => { f with done := w1c f.done w 9 }
  | _ => s

/-- A word written to the porter block. -/
def porterWrite (s : State) (off : Nat) (w : Word) : State :=
  if !s.porterUp then s
  else if off < 0x200 then porterWriteA s off w
  else if off < 0x500 then porterWriteB s off w
  else porterWriteC s off w

/-! ### Hall blocks -/

/-- A write to RING_WEIGHT; a field written 0 keeps its value. -/
def weightWrite (g : HallRegs) (w : Word) : HallRegs :=
  let f := fun (old hi lo : Nat) => if bits w hi lo = 0 then old else bits w hi lo
  { g with wSw := f g.wSw 3 0, wDma := f g.wDma 8 4, wVest := f g.wVest 13 9, wUsher := f g.wUsher 17 14, wClasp := f g.wClasp 21 18 }

/-- A write to HALL_QSEL; a queue above 11 is no instance (R462). -/
def qselWrite (g : HallRegs) (w : Word) : HallRegs :=
  if 11 < bits w 11 8 then g else { g with qselSw := bits w 7 0, qselQueue := bits w 11 8 }

/-- DOOR_ registers. -/
def doorWrite (s : State) (h : HallId) (off : Nat) (w : Word) : State :=
  match off with
  | 0x008 => s.modRegs h fun g => { g with badWrite := w1c g.badWrite w 0, lostCq := w1c g.lostCq w 1 }
  | 0x010 => s.modRegs h fun g => { g with sqSel := bits w 7 0 }
  | 0x014 => ringCfg s h .sqBaseLo w
  | 0x018 => ringCfg s h .sqBaseHi w
  | 0x01C => ringCfg s h .sqCfg w
  | 0x030 => s.modRegs h fun g => { g with cqSel := bits w 5 0 }
  | 0x034 => ringCfg s h .cqBaseLo w
  | 0x038 => ringCfg s h .cqBaseHi w
  | 0x03C => ringCfg s h .cqCfg w
  | 0x040 => ringCfg s h .cqVec w
  | _ => s

/-- DMA_ registers. -/
def dmaWrite (s : State) (h : HallId) (off : Nat) (w : Word) : State :=
  match off with
  | 0x000 => s.modRegs h fun g => { g with chSel := bits w 4 0 }
  | 0x004 => dmaChCfg s h w
  | 0x010 => s.modRegs h fun g => if 8 < bits w 3 0 then g else { g with minNormal := bits w 3 0 }
  | _ => s

/-- VEST_ registers. -/
def vestRegWrite (s : State) (h : HallId) (off : Nat) (w : Word) : State :=
  match off with
  | 0x000 => s.modRegs h fun g => { g with keepWays := bits w 3 0 }
  | 0x004 => s.modRegs h fun g => { g with vestErr := w1c g.vestErr w 8 }
  | 0x008 => s.modRegs h fun g => { g with maintLo := w &&& 0xFFFFF800 }
  | 0x00C => s.modRegs h fun g => { g with maintHi := w &&& 0x1FFFF }
  | 0x010 => s.modRegs h fun g => { g with maintLen := w }
  | 0x014 =>
    match bits w 1 0 with
    | 1 => evictRange s h
    | 2 => unkeepRange s h
    | _ => if (s.hall h).regs.vestBusy then s.modRegs h fun g => { g with vestErr := true } else s
  | _ => s

/-- MEM_ and THERM_ registers. -/
def memWrite (s : State) (h : HallId) (off : Nat) (w : Word) : State :=
  match off with
  | 0x000 => s.modRegs h fun g => { g with laySel := bits w 7 0 }
  | 0x004 => layoutWrite s h w
  | _ => s

def State.modTherm (s : State) (h : Nat) (f : HallTherm → HallTherm) : State := s.modHall h fun x => { x with therm := f x.therm }

def thermWrite (s : State) (h : HallId) (off : Nat) (w : Word) : State :=
  match off with
  | 0x000 => s.modTherm h fun t => if 383 < bits w 8 0 then t else { t with chSel := bits w 8 0 }
  | 0x008 => s.modTherm h fun t => { t with swSel := bits w 7 0 }
  | 0x014 => s.modTherm h fun t => if 16 < bits w 4 0 then t else { t with floor := bits w 4 0 }
  | _ => s

/-- A write to FAB_STREAM_SRC; streams 48 to 63 are not software's (R313). -/
def streamSrc (s : State) (h : Nat) (w : Word) : State :=
  let i := (s.hall h).regs.streamSel
  let r := s.rx h i
  s.setRx h i (if 48 ≤ i then { r with err := true } else { r with src := BitVec.ofNat 20 (bits w 19 0) })

/-- FAB_ registers. -/
def fabWrite (s : State) (h : HallId) (off : Nat) (w : Word) : State :=
  match off with
  | 0x000 =>
    let s := portEnable s h (bitAt w 0)
    if bitAt w 1 then portRetrain s h else s
  | 0x010 => s.modRegs h fun g => { g with streamSel := bits w 5 0 }
  | 0x014 => streamCfg s h w
  | 0x018 => streamSrc s h w
  | _ => s

/-- SCRUB_ registers. -/
def scrubWrite (s : State) (h : HallId) (off : Nat) (w : Word) : State :=
  match off with
  | 0x000 => s.modRegs h fun g =>
    { g with scrubEn := bitAt w 0, lapLimit := if bits w 31 16 = 0 then g.lapLimit else bits w 31 16 }
  | 0x004 => s.modRegs h fun g => { g with scrubSlow := w1c g.scrubSlow w 0 }
  | _ => s

/-- A word written to a hall's block after hand-off. -/
def hallRegWrite (s : State) (h : HallId) (off : Nat) (w : Word) : State :=
  let o := off % 4096
  match off / 4096 with
  | 0 =>
    match o with
    | 0x018 => hallRst s h w
    | 0x01C => hallSwRst s h w
    | 0x020 => s.modRegs h fun g => qselWrite g w
    | _ => s
  | 1 =>
    match o with
    | 0x008 => s.modRegs h fun g => if bits w 7 0 = 0 then g else { g with ageMax := bits w 7 0 }
    | 0x00C => s.modRegs h fun g => weightWrite g w
    | _ => s
  | 2 => doorWrite s h o w
  | 3 => dmaWrite s h o w
  | 4 => vestRegWrite s h o w
  | 5 => memWrite s h o w
  | 7 => thermWrite s h o w
  | 8 => fabWrite s h o w
  | 9 =>
    match o with
    | 0x000 => s.modRegs h fun g => if bits w 1 0 = 3 then g else { g with ucieSel := bits w 1 0 }
    | _ => s
  | 10 => scrubWrite s h o w
  | _ => s

/-- Before hand-off only W1C fields act (R361); a reset asked for is refused (Table 13.9). -/
def hallEarlyWrite (s : State) (h : HallId) (off : Nat) (w : Word) : State :=
  let g := (s.hall h).regs
  match off with
  | 0x0018 => hallRst s h w
  | 0x001C => hallSwRst s h w
  | 0x2008 => doorWrite s h 0x008 w
  | 0x201C => s.setSq h g.sqSel { s.sq h g.sqSel with err := w1c (s.sq h g.sqSel).err w 7 }
  | 0x203C => s.setCq h g.cqSel { s.cq h g.cqSel with err := w1c (s.cq h g.cqSel).err w 7 }
  | 0x3004 => s.setChan h g.chSel { s.chan h g.chSel with err := w1c (s.chan h g.chSel).err w 3 }
  | 0x4004 => vestRegWrite s h 0x004 w
  | 0x5004 => s.modStair h g.laySel fun x => { x with layRefused := w1c x.layRefused w 6 }
  | 0x8014 => s.setRx h g.streamSel { s.rx h g.streamSel with err := w1c (s.rx h g.streamSel).err w 1 }
  | 0xA004 => scrubWrite s h 0x004 w
  | _ => s

/-! ### The module control space -/

/-- One word written at a 4-byte aligned offset. An offset that holds no register ignores it (R460). -/
def controlWrite (s : State) (off : Nat) (w : Word) : State :=
  match blockHall off with
  | some h =>
    if s.running then hallRegWrite s h (off % blockBytes) w else hallEarlyWrite s h (off % blockBytes) w
  | none => if off < blockBytes then porterWrite s off w else s

/-- A write of 4 or 8 bytes (R459): one of another size or alignment, or to the block of a hall whose network domain does not
answer, is an access fault. Eight bytes act as two words in rising order. -/
def writeRegister (s : State) (off size : Nat) (value : Dword) : State :=
  if !accessOk off size || blockLost s off then s.emit (.accessFault false)
  else
    let s := controlWrite s off (BitVec.ofNat 32 (value.toNat % 2 ^ 32))
    if size = 8 then controlWrite s (off + 4) (BitVec.ofNat 32 (value.toNat / 2 ^ 32)) else s

/-- Whether a core's address lies in a range that Table 8.17 reserves, counted from the start of the module control space: between
the doorbell pages, the window apertures and the near apertures (R234). -/
def reservedOffset (off : Nat) : Bool :=
  (controlBytes ≤ off && off < 0x80000000)
  || (0x80000000 ≤ off && off < 0x100000000 && !(off % 0x10000 < 0x1000 && off - 0x80000000 < 12 * 0x10000))
  || (0x160000000 ≤ off && off < 0x200000000) || 0xC200000000 ≤ off

/-- REGISTER_WRITE (R9, R234, R459, R460): an access to a reserved range is an access fault. What lies in the doorbell pages and
the apertures has commands of its own. -/
def execRegisterWrite (offset : Nat) (size : Nat) (value : Dword) (s : State) : Result :=
  .next <|
    if offset < controlBytes then writeRegister s offset size value
    else if reservedOffset offset then s.emit (.accessFault false) else s

end Sys2Proof.Machine
end

