-- ==== Sys2Proof/Machine/SpdmOps.lean ====
section
/-! DEFINITION. The SPDM responder and the MCTP packets that carry it (R443, R448 to R451). Message formats are those of DSP0274,
DSP0275 and DSP0236, which the spec names (log entry 37). -/

namespace Sys2Proof.Machine

/-! ### Transports and codes -/

def State.spdm (s : State) : Transport → Spdm
  | .i3c => s.porter.spdmI3c
  | .portA => s.porter.spdmPa

def State.modSpdm (s : State) (t : Transport) (f : Spdm → Spdm) : State :=
  s.modPorter fun p => match t with
    | .i3c => { p with spdmI3c := f p.spdmI3c }
    | .portA => { p with spdmPa := f p.spdmPa }

/-- Whether the responder serves a transport (R451). -/
def spdmUp (s : State) : Transport → Bool
  | .i3c => s.targetUp && !s.inRom && s.porter.i3c.da != 0
  | .portA => s.targetUp && !s.inRom && s.porter.host.portaWidth != 0

abbrev Spdm.getVersion : Nat := 0x84
abbrev Spdm.getCapabilities : Nat := 0xE1
abbrev Spdm.negotiate : Nat := 0xE3
abbrev Spdm.getDigests : Nat := 0x81
abbrev Spdm.getCertificate : Nat := 0x82
abbrev Spdm.challenge : Nat := 0x83
abbrev Spdm.getMeasurements : Nat := 0xE0

/-- ERROR codes. -/
abbrev SpdmErr.invalid : Nat := 0x01
abbrev SpdmErr.unexpected : Nat := 0x04
abbrev SpdmErr.unsupported : Nat := 0x07
abbrev SpdmErr.version : Nat := 0x41

def b8 (n : Nat) : Byte := BitVec.ofNat 8 n

/-- Version byte of a response: the negotiated one, 1.0 before. -/
def Spdm.verByte (x : Spdm) : Byte := b8 (if x.version = 0 then 0x10 else x.version)

/-- An ERROR response; an unsupported request is named in it. -/
def spdmError (x : Spdm) (err code : Nat) : List Byte := [x.verByte, 0x7F, b8 err, if err = SpdmErr.unsupported then b8 code else 0]

/-! ### Measurements (Table 17.10) -/

/-- Value of a measurement block. -/
def measValue (s : State) (i : Nat) : List Byte :=
  let p := s.porter
  match i with
  | 6 => leBytes 4 p.running.level.toNat ++ [b8 p.running.svnPorter, b8 p.running.svnHall, b8 p.running.svnPhy, 0]
  | 7 => leBytes 2 0x0C12 ++ [0x21] ++ leBytes 4 s.fwSvn ++ [1]
  | 2 => leBytes 48 (Config.imageDigest 2 p.running.ident).toNat
  | 9 => digestBytes (Config.userCalArea p.flash.userCal)
  | 10 => digestBytes (Config.softmapArea (p.flash.softmap.map fun b => b.image b.cause))
  | _ => leBytes 48 (Config.imageDigest i p.running.identHall).toNat

/-- A measurement block: index, DMTF specification, size, value type, value size, value. -/
def measBlock (s : State) (i : Nat) : List Byte :=
  let v := measValue s i
  [b8 i, 1] ++ leBytes 2 (v.length + 3) ++ [Config.measType i] ++ leBytes 2 v.length ++ v

def measAll (s : State) (p : Nat → Bool) : List Byte := ((List.range 11).filter fun i => 1 ≤ i && p i).flatMap fun i => measBlock s i

/-- 32 bytes of a nonce: free values (log entry 5). -/
def drawNonce (s : State) : State × List Byte :=
  ({ s with fresh := s.fresh + 32 }, tab 32 fun i => BitVec.ofNat 8 (Config.free (s.fresh + i)))

/-- The identity key's signature of a transcript. -/
def signature (s : State) (b : List Byte) : List Byte := leBytes 96 (Config.sign s.porter.fuses.serial b).toNat

/-! ### Requests (Table 17.9) -/

/-- VERSION; it begins the connection anew. -/
def spdmVersion (s : State) (t : Transport) (req : List Byte) : State × List Byte :=
  let r : List Byte := [0x10, 0x04, 0, 0, 0, 2, 0x00, 0x12, 0x00, 0x13]
  (s.modSpdm t fun x => { mctp := x.mctp, msgA := req ++ r }, r)

/-- CAPABILITIES: CERT_CAP, CHAL_CAP, MEAS_CAP with signature. -/
def spdmCapabilities (s : State) (t : Transport) (req : List Byte) : State × List Byte :=
  let x := s.spdm t
  let v := (req.headD 0).toNat
  if x.msgA.isEmpty || x.caps then (s, spdmError x SpdmErr.unexpected 0)
  else if v ≠ 0x12 ∧ v ≠ 0x13 then (s, spdmError x SpdmErr.version 0)
  else if req.length < 20 then (s, spdmError x SpdmErr.invalid 0)
  else
    let r := [b8 v, 0x61, 0, 0, 0, Config.spdmTiming, 0, 0] ++ leBytes 4 0x16 ++ leBytes 4 Config.spdmSize.toNat
      ++ leBytes 4 Config.spdmSize.toNat
    (s.modSpdm t fun x => { x with version := v, caps := true, msgA := x.msgA ++ req ++ r }, r)

/-- The vendor-defined ExtAsym entry of Table 17.9. -/
def extAsym : List Byte := [Config.yariskId, 0, 0x01, 0x00]

/-- Whether a NEGOTIATE_ALGORITHMS offers that entry, and SHA-384. -/
def offersAsym (req : List Byte) : Bool := (List.range (bodyNat req 28 1)).any fun i => slice req (32 + 4 * i) 4 0 == extAsym
def offersHash (req : List Byte) : Bool := bodyNat req 12 4 / 2 % 2 == 1

/-- ALGORITHMS. -/
def spdmAlgorithms (s : State) (t : Transport) (req : List Byte) : State × List Byte :=
  let x := s.spdm t
  if !x.caps || x.algo then (s, spdmError x SpdmErr.unexpected 0)
  else if req.length < 32 then (s, spdmError x SpdmErr.invalid 0)
  else
    let asym := offersAsym req
    let e := if asym then extAsym else []
    let r := [x.verByte, 0x63, 0, 0] ++ leBytes 2 (36 + e.length) ++ [b8 (bodyNat req 6 1 % 2), 0] ++ leBytes 4 4 ++ leBytes 4 0
      ++ leBytes 4 (if offersHash req then 2 else 0) ++ leBytes 12 0 ++ [if asym then 1 else 0, 0, 0, 0] ++ e
    (s.modSpdm t fun x => { x with algo := offersHash req, asym := asym, msgA := x.msgA ++ req ++ r }, r)

/-- DIGESTS of slot 0. -/
def spdmDigests (s : State) (t : Transport) (req : List Byte) : State × List Byte :=
  let x := s.spdm t
  let r := [x.verByte, 0x01, if x.version = 0x13 then 1 else 0, 1] ++ digestBytes s.chain
  (s.modSpdm t fun x => { x with msgB := x.msgB ++ req ++ r, msgL := [] }, r)

/-- CERTIFICATE: part of the chain of slot 0. -/
def spdmCertificate (s : State) (t : Transport) (req : List Byte) : State × List Byte :=
  let x := s.spdm t
  let off := bodyNat req 4 2
  let n := s.chain.length
  if req.length < 8 || bodyNat req 2 1 % 16 != 0 || n ≤ off then (s, spdmError x SpdmErr.invalid 0)
  else
    let m := min (bodyNat req 6 2) (n - off)
    let r := [x.verByte, 0x02, 0, 0] ++ leBytes 2 m ++ leBytes 2 (n - off - m) ++ (s.chain.drop off).take m
    (s.modSpdm t fun x => { x with msgB := x.msgB ++ req ++ r, msgL := [] }, r)

/-- Bytes of context that version 1.3 carries behind a request's fixed part. -/
def spdmContext (x : Spdm) (req : List Byte) (off : Nat) : List Byte := if x.version = 0x13 then slice req off 8 0 else []

/-- CHALLENGE_AUTH, signed. -/
def spdmChallenge (s : State) (t : Transport) (req : List Byte) : State × List Byte :=
  let x := s.spdm t
  let kind := bodyNat req 3 1
  if !x.asym then (s, spdmError x SpdmErr.unsupported Spdm.challenge)
  else if req.length < 36 || bodyNat req 2 1 != 0 || !([0, 1, 0xFF].contains kind) then (s, spdmError x SpdmErr.invalid 0)
  else
    let d := drawNonce s
    let sum := if kind = 0 then [] else digestBytes (measAll s fun i => kind == 0xFF || Config.measTcb i)
    let r := [x.verByte, 0x03, 0, 1] ++ digestBytes s.chain ++ d.2 ++ sum ++ leBytes 2 0 ++ spdmContext x req 36
    (d.1.modSpdm t fun x => { x with msgB := [], msgL := [] }, r ++ signature s (x.msgA ++ x.msgB ++ req ++ r))

/-- MEASUREMENTS: the count, one block, or all, signed when asked. -/
def spdmMeasurements (s : State) (t : Transport) (req : List Byte) : State × List Byte :=
  let x := s.spdm t
  let signed := bodyNat req 2 1 % 2 == 1
  let op := bodyNat req 3 1
  if signed && !x.asym then (s, spdmError x SpdmErr.unsupported Spdm.getMeasurements)
  else if req.length < (if signed then 37 else 4) || (10 < op && op != 0xFF) || (signed && bodyNat req 36 1 % 16 != 0) then
    (s, spdmError x SpdmErr.invalid 0)
  else
    let d := drawNonce s
    let record := if op = 0 then [] else if op = 0xFF then measAll s fun _ => true else measBlock s op
    let r := [x.verByte, 0x60, if op = 0 then 10 else 0, 0, if op = 0 then 0 else if op = 0xFF then 10 else 1]
      ++ leBytes 3 record.length ++ record ++ d.2 ++ leBytes 2 0 ++ spdmContext x req (if signed then 37 else 4)
    let l := x.msgL ++ req ++ r
    if signed then (d.1.modSpdm t fun x => { x with msgL := [] }, r ++ signature s (x.msgA ++ l))
    else (d.1.modSpdm t fun x => { x with msgL := l }, r)

/-- A request that needs the algorithms negotiated and the negotiated version. -/
def afterAlgo (s : State) (t : Transport) (req : List Byte) (k : State × List Byte) : State × List Byte :=
  let x := s.spdm t
  if !x.algo then (s, spdmError x SpdmErr.unexpected 0)
  else if (req.headD 0).toNat ≠ x.version then (s, spdmError x SpdmErr.version 0)
  else k

/-- The response to a request; one outside Table 17.9 is unsupported. -/
def spdmAnswer (s : State) (t : Transport) (req : List Byte) : State × List Byte :=
  let code := bodyNat req 1 1
  if req.length < 4 then (s, spdmError (s.spdm t) SpdmErr.invalid 0)
  else if code = Spdm.getVersion then spdmVersion s t req
  else if code = Spdm.getCapabilities then spdmCapabilities s t req
  else if code = Spdm.negotiate then spdmAlgorithms s t req
  else if code = Spdm.getDigests then afterAlgo s t req (spdmDigests s t req)
  else if code = Spdm.getCertificate then afterAlgo s t req (spdmCertificate s t req)
  else if code = Spdm.challenge then afterAlgo s t req (spdmChallenge s t req)
  else if code = Spdm.getMeasurements then afterAlgo s t req (spdmMeasurements s t req)
  else (s, spdmError (s.spdm t) SpdmErr.unsupported code)

/-- MCTP bytes sent: over I3C they wait for a private read (R443). -/
def mctpSend (s : State) (t : Transport) (b : List Byte) : State :=
  match t with
  | .i3c => s.modI3c fun i => { i with ready := i.ready ++ [(false, b)] }
  | .portA => s.emit (.mctp .portA b)

/-- A request taken as one message: its response is one message, behind its MCTP message type. -/
def spdmRequest (s : State) (t : Transport) (code : Nat) (req : List Byte) : State :=
  if spdmUp s t && bodyNat req 1 1 == code && 2 ≤ req.length then
    let r := spdmAnswer s t req
    mctpSend r.1 t (0x05 :: r.2)
  else s

/-- GET_VERSION. -/
def execGetVersion (t : Transport) (req : List Byte) (s : State) : Result := .next (spdmRequest s t Spdm.getVersion req)
/-- GET_CAPABILITIES. -/
def execGetCapabilities (t : Transport) (req : List Byte) (s : State) : Result := .next (spdmRequest s t Spdm.getCapabilities req)
/-- NEGOTIATE_ALGORITHMS. -/
def execNegotiateAlgorithms (t : Transport) (req : List Byte) (s : State) : Result := .next (spdmRequest s t Spdm.negotiate req)
/-- GET_DIGESTS. -/
def execGetDigests (t : Transport) (req : List Byte) (s : State) : Result := .next (spdmRequest s t Spdm.getDigests req)
/-- GET_CERTIFICATE (R448). -/
def execGetCertificate (t : Transport) (req : List Byte) (s : State) : Result := .next (spdmRequest s t Spdm.getCertificate req)
/-- CHALLENGE. -/
def execChallenge (t : Transport) (req : List Byte) (s : State) : Result := .next (spdmRequest s t Spdm.challenge req)
/-- GET_MEASUREMENTS (R450). -/
def execGetMeasurements (t : Transport) (req : List Byte) (s : State) : Result := .next (spdmRequest s t Spdm.getMeasurements req)

/-! ### MCTP packets (R443) -/

/-- Packets of a response: 64 bytes of the message each, from the request's destination to its source, with its tag. -/
def mctpPackets (eids tag : Nat) (msg : List Byte) : List (List Byte) :=
  let n := ceilDiv msg.length 64
  tab n fun i =>
    [0x01, b8 (eids % 256), b8 (eids / 256), b8 ((if i = 0 then 128 else 0) + (if i + 1 = n then 64 else 0) + i % 4 * 16 + tag)]
      ++ (msg.drop (64 * i)).take 64

/-- A whole message: SPDM's are answered. -/
def mctpMessage (s : State) (t : Transport) (eids tag : Nat) (msg : List Byte) : State :=
  match msg with
  | 0x05#8 :: req =>
    let r := spdmAnswer s t req
    (mctpPackets eids tag (0x05 :: r.2)).foldl (fun (s : State) (b : List Byte) => mctpSend s t b) r.1
  | _ => s

/-- MCTP_PACKET (R443): a packet of a message; its last packet gives the message to the responder. -/
def execMctpPacket (t : Transport) (bytes : List Byte) (s : State) : Result :=
  .next <|
    if !spdmUp s t || bytes.length < 5 || bytes.headD 0 == 0xC5 then s
    else
      let f := bodyNat bytes 3 1
      let eids := bodyNat bytes 1 1 * 256 + bodyNat bytes 2 1
      let tag := f % 8
      let sq := f / 16 % 4
      let body := bytes.drop 4
      let had := if 128 ≤ f then some body
        else match (s.spdm t).mctp with
          | some (e, g, q, b) => if e = eids ∧ g = tag ∧ (q + 1) % 4 = sq then some (b ++ body) else none
          | none => none
      match had with
      | none => s.modSpdm t fun x => { x with mctp := none }
      | some b =>
        if f / 64 % 2 = 1 then mctpMessage (s.modSpdm t fun x => { x with mctp := none }) t eids tag b
        else s.modSpdm t fun x => { x with mctp := some (eids, tag, sq, b) }

end Sys2Proof.Machine
end

