-- ==== Sys2Proof/Machine/Dispatch.lean ====
section
/-! DEFINITION. One arm for each command: a direct call of its meaning. -/

namespace Sys2Proof.Machine

/-- What a command does to everything but the queue of waiting commands. -/
def exec (i : Instr) (s : State) : Host.Outcome State Fault Refusal :=
  match i with
  | .planLoad c => Sys2Proof.Machine.execPlanLoad c s
  | .planUnload c => Sys2Proof.Machine.execPlanUnload c s
  | .volOpen c => Sys2Proof.Machine.execVolOpen c s
  | .volClose c => Sys2Proof.Machine.execVolClose c s
  | .volQuery c => Sys2Proof.Machine.execVolQuery c s
  | .fmSeal c => Sys2Proof.Machine.execFmSeal c s
  | .checkpoint c => Sys2Proof.Machine.execCheckpoint c s
  | .park c => Sys2Proof.Machine.execPark c s
  | .shelve c => Sys2Proof.Machine.execShelve c s
  | .resume c => Sys2Proof.Machine.execResume c s
  | .recover c => Sys2Proof.Machine.execRecover c s
  | .volRehome c => Sys2Proof.Machine.execVolRehome c s
  | .hintQuery c => Sys2Proof.Machine.execHintQuery c s
  | .stepDecode c => Sys2Proof.Machine.execStepDecode c s
  | .stepVerify c => Sys2Proof.Machine.execStepVerify c s
  | .stepPrefill c => Sys2Proof.Machine.execStepPrefill c s
  | .stepAbort c => Sys2Proof.Machine.execStepAbort c s
  | .bind c => Sys2Proof.Machine.execBind c s
  | .bindForward b => Sys2Proof.Machine.execBindForward b s
  | .claspOp c => Sys2Proof.Machine.execClaspOp c s
  | .nop c => Sys2Proof.Machine.execNop c s
  | .dmaStart c => Sys2Proof.Machine.execDmaStart c s
  | .dmaStop c => Sys2Proof.Machine.execDmaStop c s
  | .fenceUnitFence c => Sys2Proof.Machine.execFenceUnitFence c s
  | .fenceUnitWatch c => Sys2Proof.Machine.execFenceUnitWatch c s
  | .sqTailWrite h ring aligned8 value => Sys2Proof.Machine.execSqTailWrite h ring aligned8 value s
  | .cqHeadWrite h ring aligned8 value => Sys2Proof.Machine.execCqHeadWrite h ring aligned8 value s
  | .claimDescriptor h => Sys2Proof.Machine.execClaimDescriptor h s
  | .irqDelayExpire h ring => Sys2Proof.Machine.execIrqDelayExpire h ring s
  | .opHandout h sw q => Sys2Proof.Machine.execOpHandout h sw q s
  | .opReady h sw q idx => Sys2Proof.Machine.execOpReady h sw q idx s
  | .opRetire h sw q => Sys2Proof.Machine.execOpRetire h sw q s
  | .tile h sw => Sys2Proof.Machine.execTile h sw s
  | .splitPartialAdd h sw set => Sys2Proof.Machine.execSplitPartialAdd h sw set s
  | .fetch h sw q => Sys2Proof.Machine.execFetch h sw q s
  | .store h sw q => Sys2Proof.Machine.execStore h sw q s
  | .smMax h sw => Sys2Proof.Machine.execSmMax h sw s
  | .smExp h sw => Sys2Proof.Machine.execSmExp h sw s
  | .smMerge h sw => Sys2Proof.Machine.execSmMerge h sw s
  | .smNorm h sw => Sys2Proof.Machine.execSmNorm h sw s
  | .rmsnorm h sw => Sys2Proof.Machine.execRmsnorm h sw s
  | .layernorm h sw => Sys2Proof.Machine.execLayernorm h sw s
  | .silu h sw => Sys2Proof.Machine.execSilu h sw s
  | .geluTanh h sw => Sys2Proof.Machine.execGeluTanh h sw s
  | .swiglu h sw => Sys2Proof.Machine.execSwiglu h sw s
  | .relu h sw => Sys2Proof.Machine.execRelu h sw s
  | .rope h sw => Sys2Proof.Machine.execRope h sw s
  | .scale h sw => Sys2Proof.Machine.execScale h sw s
  | .ewAdd h sw => Sys2Proof.Machine.execEwAdd h sw s
  | .ewMul h sw => Sys2Proof.Machine.execEwMul h sw s
  | .topk h sw => Sys2Proof.Machine.execTopk h sw s
  | .convert h sw => Sys2Proof.Machine.execConvert h sw s
  | .psumAdd h sw => Sys2Proof.Machine.execPsumAdd h sw s
  | .psumPair h sw => Sys2Proof.Machine.execPsumPair h sw s
  | .ctrInit rq k v => Sys2Proof.Machine.execCtrInit rq k v s
  | .flagInit rq k v => Sys2Proof.Machine.execFlagInit rq k v s
  | .lockInit rq k v => Sys2Proof.Machine.execLockInit rq k v s
  | .drop rq k v => Sys2Proof.Machine.execDrop rq k v s
  | .ctrAdd rq k v => Sys2Proof.Machine.execCtrAdd rq k v s
  | .ctrArrive rq k v => Sys2Proof.Machine.execCtrArrive rq k v s
  | .ctrWait rq k v => Sys2Proof.Machine.execCtrWait rq k v s
  | .ctrSet rq k v => Sys2Proof.Machine.execCtrSet rq k v s
  | .flagSet rq k v => Sys2Proof.Machine.execFlagSet rq k v s
  | .flagClear rq k v => Sys2Proof.Machine.execFlagClear rq k v s
  | .flagWait rq k v => Sys2Proof.Machine.execFlagWait rq k v s
  | .lockTry rq k v => Sys2Proof.Machine.execLockTry rq k v s
  | .lockTake rq k v => Sys2Proof.Machine.execLockTake rq k v s
  | .lockRelease rq k v => Sys2Proof.Machine.execLockRelease rq k v s
  | .lockBreak rq k v => Sys2Proof.Machine.execLockBreak rq k v s
  | .claspRepresent idx => Sys2Proof.Machine.execClaspRepresent idx s
  | .resetBackoffRetry t => Sys2Proof.Machine.execResetBackoffRetry t s
  | .bindPrepare b => Sys2Proof.Machine.execBindPrepare b s
  | .bindPrepared b => Sys2Proof.Machine.execBindPrepared b s
  | .bindCommit b h => Sys2Proof.Machine.execBindCommit b h s
  | .bindDone b => Sys2Proof.Machine.execBindDone b s
  | .bindAbort b => Sys2Proof.Machine.execBindAbort b s
  | .bindPrepareTimeout b h => Sys2Proof.Machine.execBindPrepareTimeout b h s
  | .bindFinishFromLog b => Sys2Proof.Machine.execBindFinishFromLog b s
  | .laneLockRetry st => Sys2Proof.Machine.execLaneLockRetry st s
  | .walkItemEmit st => Sys2Proof.Machine.execWalkItemEmit st s
  | .leafAttend h sw => Sys2Proof.Machine.execLeafAttend h sw s
  | .leafAppend h sw => Sys2Proof.Machine.execLeafAppend h sw s
  | .leafMove h sw => Sys2Proof.Machine.execLeafMove h sw s
  | .leafGather h sw => Sys2Proof.Machine.execLeafGather h sw s
  | .boardSendRows st => Sys2Proof.Machine.execBoardSendRows st s
  | .partialArrive st idx => Sys2Proof.Machine.execPartialArrive st idx s
  | .mergeForward st h sw => Sys2Proof.Machine.execMergeForward st h sw s
  | .stepDecide st => Sys2Proof.Machine.execStepDecide st s
  | .stepRunVoid st => Sys2Proof.Machine.execStepRunVoid st s
  | .stepTimeout st => Sys2Proof.Machine.execStepTimeout st s
  | .pinRequest st up => Sys2Proof.Machine.execPinRequest st up s
  | .writebackCopiesDone v => Sys2Proof.Machine.execWritebackCopiesDone v s
  | .leafStaged v idx => Sys2Proof.Machine.execLeafStaged v idx s
  | .resumeEligible v => Sys2Proof.Machine.execResumeEligible v s
  | .parkNearReleased v => Sys2Proof.Machine.execParkNearReleased v s
  | .shelveLeavesCommitted v pair => Sys2Proof.Machine.execShelveLeavesCommitted v pair s
  | .volSend slot => Sys2Proof.Machine.execVolSend slot s
  | .volAccept slot => Sys2Proof.Machine.execVolAccept slot s
  | .volAcceptTimeout slot => Sys2Proof.Machine.execVolAcceptTimeout slot s
  | .volTransferPreamble p => Sys2Proof.Machine.execVolTransferPreamble p s
  | .volTransferLeaf v idx fill bytes poison => Sys2Proof.Machine.execVolTransferLeaf v idx fill bytes poison s
  | .mgmtSend slot => Sys2Proof.Machine.execMgmtSend slot s
  | .mgmtSendTimeout slot => Sys2Proof.Machine.execMgmtSendTimeout slot s
  | .dmaMove h ch => Sys2Proof.Machine.execDmaMove h ch s
  | .dmaLoop h ch => Sys2Proof.Machine.execDmaLoop h ch s
  | .dmaWait h ch => Sys2Proof.Machine.execDmaWait h ch s
  | .dmaSignal h ch => Sys2Proof.Machine.execDmaSignal h ch s
  | .dmaEnd h ch => Sys2Proof.Machine.execDmaEnd h ch s
  | .dmaBurst h => Sys2Proof.Machine.execDmaBurst h s
  | .dmaWritesAnswered h ch => Sys2Proof.Machine.execDmaWritesAnswered h ch s
  | .vestAccess h r => Sys2Proof.Machine.execVestAccess h r s
  | .vestRecall space unit by_ write whole => Sys2Proof.Machine.execVestRecall space unit by_ write whole s
  | .evict h => Sys2Proof.Machine.execEvict h s
  | .unkeep h => Sys2Proof.Machine.execUnkeep h s
  | .modeWrite h sw page w => Sys2Proof.Machine.execModeWrite h sw page w s
  | .bankAccessesDrained h sw l b => Sys2Proof.Machine.execBankAccessesDrained h sw l b s
  | .landingCmdWrite h sw page slot off bytes => Sys2Proof.Machine.execLandingCmdWrite h sw page slot off bytes s
  | .windowWrite h sw page off bytes => Sys2Proof.Machine.execWindowWrite h sw page off bytes s
  | .windowWriteApply h sw l => Sys2Proof.Machine.execWindowWriteApply h sw l s
  | .score h sw l => Sys2Proof.Machine.execScore h sw l s
  | .valueAcc h sw l => Sys2Proof.Machine.execValueAcc h sw l s
  | .attend h sw l => Sys2Proof.Machine.execAttend h sw l s
  | .accClear h sw l => Sys2Proof.Machine.execAccClear h sw l s
  | .readout h sw l => Sys2Proof.Machine.execReadout h sw l s
  | .fill h sw l => Sys2Proof.Machine.execFill h sw l s
  | .copy h sw l => Sys2Proof.Machine.execCopy h sw l s
  | .pack h sw l => Sys2Proof.Machine.execPack h sw l s
  | .unpack h sw l => Sys2Proof.Machine.execUnpack h sw l s
  | .chunkBoundary h sw l => Sys2Proof.Machine.execChunkBoundary h sw l s
  | .refreshDue h sw l b => Sys2Proof.Machine.execRefreshDue h sw l b s
  | .nearLineRequest h sw r => Sys2Proof.Machine.execNearLineRequest h sw r s
  | .layoutApply h w => Sys2Proof.Machine.execLayoutApply h w s
  | .layoutReinitDone h sw => Sys2Proof.Machine.execLayoutReinitDone h sw s
  | .scrubStep h sw => Sys2Proof.Machine.execScrubStep h sw s
  | .parkScrubStep ctl => Sys2Proof.Machine.execParkScrubStep ctl s
  | .layerLost h l => Sys2Proof.Machine.execLayerLost h l s
  | .errorEvent e => Sys2Proof.Machine.execErrorEvent e s
  | .parkPkgFail p retrained => Sys2Proof.Machine.execParkPkgFail p retrained s
  | .unitFence t => Sys2Proof.Machine.execUnitFence t s
  | .adoptionComplete h sw => Sys2Proof.Machine.execAdoptionComplete h sw s
  | .resdescPublish => Sys2Proof.Machine.execResdescPublish s
  | .housekeepingRound r => Sys2Proof.Machine.execHousekeepingRound r s
  | .dStepSlot => Sys2Proof.Machine.execDStepSlot s
  | .coolantWindow => Sys2Proof.Machine.execCoolantWindow s
  | .inputSample mv ma => Sys2Proof.Machine.execInputSample mv ma s
  | .startGateOpen => Sys2Proof.Machine.execStartGateOpen s
  | .railPgoodTimeout r => Sys2Proof.Machine.execRailPgoodTimeout r s
  | .porterRelease r slotStraps => Sys2Proof.Machine.execPorterRelease r slotStraps s
  | .handOff => Sys2Proof.Machine.execHandOff s
  | .enableFall => Sys2Proof.Machine.execEnableFall s
  | .inputLoss => Sys2Proof.Machine.execInputLoss s
  | .railPgoodLoss r => Sys2Proof.Machine.execRailPgoodLoss r s
  | .pllLockLoss h => Sys2Proof.Machine.execPllLockLoss h s
  | .refLost => Sys2Proof.Machine.execRefLost s
  | .warmResetRequest w => Sys2Proof.Machine.execWarmResetRequest w s
  | .hallComputeReset h w => Sys2Proof.Machine.execHallComputeReset h w s
  | .usherHeartbeatMiss h u => Sys2Proof.Machine.execUsherHeartbeatMiss h u s
  | .computeFaultReport h => Sys2Proof.Machine.execComputeFaultReport h s
  | .stairwellReset h w => Sys2Proof.Machine.execStairwellReset h w s
  | .meshPacket h e => Sys2Proof.Machine.execMeshPacket h e s
  | .ringPacket h cw => Sys2Proof.Machine.execRingPacket h cw s
  | .meshBroadcast h p => Sys2Proof.Machine.execMeshBroadcast h p s
  | .ringBroadcast h mask p => Sys2Proof.Machine.execRingBroadcast h mask p s
  | .ageTick => Sys2Proof.Machine.execAgeTick s
  | .ringReroute => Sys2Proof.Machine.execRingReroute s
  | .ucieFlitResend h link o => Sys2Proof.Machine.execUcieFlitResend h link o s
  | .fabPortEnable h en => Sys2Proof.Machine.execFabPortEnable h en s
  | .fabPortRetrain h => Sys2Proof.Machine.execFabPortRetrain h s
  | .fabDownRetry h => Sys2Proof.Machine.execFabDownRetry h s
  | .fecLock h lanes => Sys2Proof.Machine.execFecLock h lanes s
  | .trainTimeout h => Sys2Proof.Machine.execTrainTimeout h s
  | .helloTimeout h => Sys2Proof.Machine.execHelloTimeout h s
  | .helloSend h => Sys2Proof.Machine.execHelloSend h s
  | .hello h p => Sys2Proof.Machine.execHello h p s
  | .portFault h c => Sys2Proof.Machine.execPortFault h c s
  | .linkReplay h linkSeq => Sys2Proof.Machine.execLinkReplay h linkSeq s
  | .data h p => Sys2Proof.Machine.execData h p s
  | .ack h p => Sys2Proof.Machine.execAck h p s
  | .ackTimer h strm => Sys2Proof.Machine.execAckTimer h strm s
  | .retransmitTimer h dst strm seq => Sys2Proof.Machine.execRetransmitTimer h dst strm seq s
  | .fabricForward h p => Sys2Proof.Machine.execFabricForward h p s
  | .mgmtForward h p => Sys2Proof.Machine.execMgmtForward h p s
  | .claimSend => Sys2Proof.Machine.execClaimSend s
  | .claim h p => Sys2Proof.Machine.execClaim h p s
  | .managerElected => Sys2Proof.Machine.execManagerElected s
  | .heartbeatSend => Sys2Proof.Machine.execHeartbeatSend s
  | .heartbeat h p => Sys2Proof.Machine.execHeartbeat h p s
  | .heartbeatLoss => Sys2Proof.Machine.execHeartbeatLoss s
  | .query h link p => Sys2Proof.Machine.execQuery h link p s
  | .assignId h link p => Sys2Proof.Machine.execAssignId h link p s
  | .routeWrite h link p => Sys2Proof.Machine.execRouteWrite h link p s
  | .wclSet h link p => Sys2Proof.Machine.execWclSet h link p s
  | .report a => Sys2Proof.Machine.execReport a s
  | .fabStreamCfgWrite h w => Sys2Proof.Machine.execFabStreamCfgWrite h w s
  | .ringCfgWrite h r w => Sys2Proof.Machine.execRingCfgWrite h r w s
  | .dmaChCfgWrite h w => Sys2Proof.Machine.execDmaChCfgWrite h w s
  | .tierCfgWrite r w => Sys2Proof.Machine.execTierCfgWrite r w s
  | .fardecWrite r w => Sys2Proof.Machine.execFardecWrite r w s
  | .portaWinWrite r w => Sys2Proof.Machine.execPortaWinWrite r w s
  | .errlogCfgWrite r w => Sys2Proof.Machine.execErrlogCfgWrite r w s
  | .errlogHeadWrite w => Sys2Proof.Machine.execErrlogHeadWrite w s
  | .peakClear w => Sys2Proof.Machine.execPeakClear w s
  | .portaIrq w => Sys2Proof.Machine.execPortaIrq w s
  | .mailboxWrite off size value => Sys2Proof.Machine.execMailboxWrite off size value s
  | .portaLinkChange perst width gen => Sys2Proof.Machine.execPortaLinkChange perst width gen s
  | .portbLinkLoss => Sys2Proof.Machine.execPortbLinkLoss s
  | .pbPerstRelease => Sys2Proof.Machine.execPbPerstRelease s
  | .cableInsert h watts => Sys2Proof.Machine.execCableInsert h watts s
  | .calOpRead => Sys2Proof.Machine.execCalOpRead s
  | .calOpWrite => Sys2Proof.Machine.execCalOpWrite s
  | .calOpClear => Sys2Proof.Machine.execCalOpClear s
  | .calRestoreFactory => Sys2Proof.Machine.execCalRestoreFactory s
  | .fwupdStage => Sys2Proof.Machine.execFwupdStage s
  | .fwupdCommit classes => Sys2Proof.Machine.execFwupdCommit classes s
  | .entdaa word addr => Sys2Proof.Machine.execEntdaa word addr s
  | .rstdaa => Sys2Proof.Machine.execRstdaa s
  | .enec events => Sys2Proof.Machine.execEnec events s
  | .disec events => Sys2Proof.Machine.execDisec events s
  | .setmwl n => Sys2Proof.Machine.execSetmwl n s
  | .getmwl => Sys2Proof.Machine.execGetmwl s
  | .setmrl n => Sys2Proof.Machine.execSetmrl n s
  | .getmrl => Sys2Proof.Machine.execGetmrl s
  | .getpid => Sys2Proof.Machine.execGetpid s
  | .getbcr => Sys2Proof.Machine.execGetbcr s
  | .getdcr => Sys2Proof.Machine.execGetdcr s
  | .getstatus => Sys2Proof.Machine.execGetstatus s
  | .responseRead => Sys2Proof.Machine.execResponseRead s
  | .mctpPacket t bytes => Sys2Proof.Machine.execMctpPacket t bytes s
  | .readPage args => Sys2Proof.Machine.execReadPage args s
  | .alertAck args => Sys2Proof.Machine.execAlertAck args s
  | .calRead args => Sys2Proof.Machine.execCalRead args s
  | .calWrite args => Sys2Proof.Machine.execCalWrite args s
  | .calClear args => Sys2Proof.Machine.execCalClear args s
  | .restoreFactory args => Sys2Proof.Machine.execRestoreFactory args s
  | .warmReset args => Sys2Proof.Machine.execWarmReset args s
  | .fwCommit args => Sys2Proof.Machine.execFwCommit args s
  | .ibiRequest acked => Sys2Proof.Machine.execIbiRequest acked s
  | .getVersion t req => Sys2Proof.Machine.execGetVersion t req s
  | .getCapabilities t req => Sys2Proof.Machine.execGetCapabilities t req s
  | .negotiateAlgorithms t req => Sys2Proof.Machine.execNegotiateAlgorithms t req s
  | .getDigests t req => Sys2Proof.Machine.execGetDigests t req s
  | .getCertificate t req => Sys2Proof.Machine.execGetCertificate t req s
  | .challenge t req => Sys2Proof.Machine.execChallenge t req s
  | .getMeasurements t req => Sys2Proof.Machine.execGetMeasurements t req s
  | .registerWrite offset size value => Sys2Proof.Machine.execRegisterWrite offset size value s
  | .computeResetRelease h e => Sys2Proof.Machine.execComputeResetRelease h e s
  | .vestMaintDone h => Sys2Proof.Machine.execVestMaintDone h s
  | .calCommandDone flashOk => Sys2Proof.Machine.execCalCommandDone flashOk s
  | .fwupdDone flashOk => Sys2Proof.Machine.execFwupdDone flashOk s
  | .mgmtReply h p => Sys2Proof.Machine.execMgmtReply h p s
  | .portbLinkUp width gen cxl => Sys2Proof.Machine.execPortbLinkUp width gen cxl s
  | .linkControlWord h ackedSeq credits => Sys2Proof.Machine.execLinkControlWord h ackedSeq credits s
  | .commandFrameRefused frame => Sys2Proof.Machine.execCommandFrameRefused frame s

end Sys2Proof.Machine
end

