-- ==== Sys2Proof/Safety.lean ====
section
/-! DEFINITION. What the claims about every command speak of: a step that goes on, the bound of a submission ring, and
what one state keeps of another. -/

namespace Sys2Proof.Machine

/-- The step answers a next state. -/
def Runs (r : Host.Outcome State Fault Refusal) : Prop := ∃ t, r = .next t

/-- The command answers a next state, of which `P` holds. -/
def Gives (c : Instr) (s : State) (P : State → Prop) : Prop := ∃ t, exec c s = .next t ∧ P t

/-- `b` is `a` with hall `h` changed to `x`: no other hall and nothing else differs. -/
structure HallBecomes (a b : State) (h : Nat) (x : Hall) : Prop where
  rest   : b = { a with halls := b.halls }
  this   : b.hall h = x
  others : ∀ k, k ≠ h → b.hall k = a.hall k

/-- `b` is `a` with the fabric port of hall `h` changed to `p`. -/
def PortBecomes (a b : State) (h : Nat) (p : Port) : Prop := HallBecomes a b h { a.hall h with port := p }

/-- `b` is `a` with stairwell `w` of hall `h` changed to `x`. -/
structure StairBecomes (a b : State) (h w : Nat) (x : Stairwell) : Prop where
  rest   : b = { a with stairs := b.stairs }
  this   : b.stair h w = x
  others : ∀ k v, swKey k v ≠ swKey h w → b.stair k v = a.stair k v

/-- Hall `h` is handed a packet: over the ring, or as the next whole packet of its own port's link (R321). -/
structure Handed (s : State) (h : HallId) (p : FabPacket) : Prop where
  net  : s.hallNet h = true
  link : ∀ t, p.link = some t → (s.port h).state ∉ [PortState.down, .training, .retrain] ∧ t.ok = true ∧
    t.seq = (s.port h).rxNext

/-- The module when the link has handed on a packet: the next one is awaited and its buffers are free again (R321, R322). -/
def linkTaken (s : State) (h : HallId) (p : FabPacket) : State :=
  match p.link with
  | none => s
  | some _ => s.modPort h fun y => { y with
      rxNext := y.rxNext + 1, rxAsked := false, rxFree := smod y.rxFree 0 (vcOf p.hdr) fun n => n + pktUnits p }

/-- Hall `h` is handed a packet whose CRC is right (R317). -/
structure Arrives (s : State) (h : HallId) (p : FabPacket) : Prop extends Handed s h p where
  crc : p.crc = packetCrc p.hdr p.payload

/-- A clasp operation that its requester may ask for and that its home performs now: the home in service, the cell not
lost and not locked by a binding, and a record waiter free for a waiting CLASP_OP (R207, R214, R218, R219, R228). -/
structure ClaspReady (s : State) (rq : Requester) (cop : Nat) (k : ClaspId) (v : Word) : Prop where
  asked   : asks s rq cop k v = true
  allowed : copStatus (requesterIssuer rq) cop v.toNat = none
  home    : (s.hall (claspHome k.toNat)).state = .enabled
  free    : claspLocked s k = false
  kept    : (s.clasp k.toNat).lost = false
  room    : ∀ c x, rq = .host c → s.claim? c = some x → recordWaiters s x.hall < 256

/-- The operation performed on its cell, which becomes `c`: waiters tested, the requester told. -/
def performed (s : State) (rq : Requester) (k : ClaspId) (c : Clasp) : State :=
  settle (claspDone (storeCell s k.toNat c) rq k.toNat (s.clasp k.toNat).val (s.clasp k.toNat).typ)

/-- The vector engine of a stairwell takes the KERNEL op `t`, the `i`-th in flight of queue `q`, next: the stairwell runs
and no split partials are still to be added (R49, R61). -/
structure KernelTaken (s : State) (h sw q i : Nat) (t : Strand) : Prop where
  runs  : s.swRuns h sw = true
  added : addsDue s h sw = false
  pick  : unitPick s h sw (s.stair h sw).vecLast 0x02 = some (q, i)
  op    : (s.queue h sw q).strands[i]? = some t

/-- The kernel op done: its rows written to DST and AUX, poison carried, the op DONE (R40, R51, R61). -/
def kernelDone (s : State) (h sw q i : Nat) (t : Strand) (rows : KernelRun → State → Nat → List Byte × List Byte) :
    State :=
  let k : KernelRun := { h := h, sw := sw, q := q, t := t }
  k.finish (k.store s (k.poison s) (tab (kRows t.op) (rows k s))) i (k.poison s)

/-- The command at the head of a landing's queue runs now: its column served, its fields and ranges good, its banks all
LANDING or LEAVING (R114, R115, R121). -/
structure LandReady (s : State) (h sw l : Nat) (d : Rec64) (kv : Nat) : Prop where
  head   : ∃ rest, (s.landing h sw l).queue = .cmd d kv true :: rest
  served : s.colServed h sw = true
  whole  : (s.landing h sw l).failed = false
  good   : landStatus s h sw l d kv true = none
  banks  : ∀ b ∈ landBanks d kv, (s.landing h sw l).bank b = .landing ∨ (s.landing h sw l).bank b = .leaving

/-- The command at the head of a landing's queue DONE with OK (R113, R120). -/
def landDone (s : State) (h sw l : Nat) (d : Rec64) : State :=
  skipUnknown 8 (s.modLanding h sw l fun x => x.doneWith d Status.ok) h sw l

/-- Claim `c` is `k`, not begun or waiting, of a descriptor with opcode `op` (R137, R243, R246). -/
structure Begins (s : State) (c op : Nat) (k : Claim) : Prop where
  held  : s.claim? c = some k
  stage : k.stage = .claimed ∨ k.stage = .waiting
  code  : descOpcode k.desc = op

/-- A volume descriptor of opcode `op` runs now: its body good, its volume free for it, and its root and spine pages
readable (R134 to R137, R385). -/
structure VolReady (s : State) (c op : Nat) (k : Claim) (bad : State → Rec64 → Option Nat) : Prop
    extends Begins s c op k where
  body : bad s k.desc = none
  gate : volGate s c k (descVol k.desc) ((s.vol (descVol k.desc)).home == k.hall.val) (op == 0x11) = .go
  read : spinePoisoned s (descVol k.desc) = false

/-- A step descriptor of opcode `code` may be claimed: its volume LIVE and no front matter, a write-back not awaited, its records
and the place of its rows good, no unit of the plan out of service (R185, R258). -/
structure StepFits (s : State) (c code : Nat) (k : Claim) (op : StepOp) : Prop extends VolReady s c code k (stepBad op) where
  live  : (s.vol (descVol k.desc)).state = .live
  own   : (s.vol (descVol k.desc)).fm = false
  kept  : (s.vol (descVol k.desc)).dirty < 64
  head  : op = .verify → (s.planOf (descVol k.desc)).head = true
  input : inputStatus op (tab (sdRows k.desc) fun r => inputRec s k.desc r) = none
  place : placeBad s (descVol k.desc) (sdRows k.desc) = false
  units : fencedUnit s (s.planOf (descVol k.desc)) = none

/-- The module once that step is claimed: its volume RUNNING, the lock of its lane tried. -/
def stepClaimed (s : State) (c : Nat) (k : Claim) (op : StepOp) : State :=
  let n := s.nextStep
  let x := newStep s c k op (tab (sdRows k.desc) fun r => inputRec s k.desc r)
  settle (tryLane (({ (s.setStep n x) with nextStep := n + 1 }.setStage c .running).setVolState (descVol k.desc) .running) n)

/-- Stairwell `sw` takes its `n`-th current item `i` next, of step `x` with board `b`: the first that `sel` picks
(R189). -/
structure ItemTaken (s : State) (h sw : Nat) (sel : State → List WorkItem → WorkItem → Bool) (n : Nat) (i : WorkItem)
    (x : Step) (b : Board) : Prop where
  runs  : s.swRuns h sw = true
  first : ((dropStale s h sw).stair h sw).items.findIdx? (sel (dropStale s h sw) ((dropStale s h sw).stair h sw).items) =
    some n
  item  : ((dropStale s h sw).stair h sw).items[n]? = some i
  step  : (dropStale s h sw).step? i.step = some x
  board : boardOf (dropStale s h sw) x = some b

/-- The state in which that item has been taken. -/
def itemGone (s : State) (h sw n : Nat) : State := takeItem (dropStale s h sw) h sw n

/-- The command changes the porter, draws free values and sends, and nothing else. -/
def PorterOnly (i : Instr) (s : State) : Prop :=
  ∀ t, exec i s = .next t → t = { s with porter := t.porter, out := t.out, fresh := t.fresh }

/-- The command changes the halls and the porter and sends, and nothing else: no memory, no stairwell, no landing, no
volume, no step, no claim. -/
def HallsOnly (i : Instr) (s : State) : Prop :=
  ∀ t, exec i s = .next t → t = { s with halls := t.halls, porter := t.porter, out := t.out }

/-- The command changes landings and what they write to memory, and sends, and nothing else. -/
def LandingsOnly (i : Instr) (s : State) : Prop :=
  ∀ t, exec i s = .next t → t = { s with landings := t.landings, mem := t.mem, poison := t.poison, out := t.out }

/-- An enabled submission ring holds no more unclaimed descriptors than its size (R239). -/
def SubRing.ok (r : SubRing) : Prop := r.en = true → (r.tail - r.claimed).toNat ≤ r.size

/-- Every submission ring of a hall is within its bound. -/
def Hall.ringsOk (x : Hall) : Prop := ∀ i, (sget x.sq {} i).ok

/-- Every submission ring of the module is within its bound. -/
def State.ringsOk (s : State) : Prop := ∀ h, (s.hall h).ringsOk

/-- `b` has risen from `a`, counter by counter, and is the same device (R439, R453). -/
structure Fuses.Onward (a b : Fuses) : Prop where
  badMap    : b.badMap = a.badMap
  stepCode  : b.stepCode = a.stepCode
  serial    : b.serial = a.serial
  mfr       : b.mfr = a.mfr
  svnPorter : a.svnPorter ≤ b.svnPorter
  svnHall   : a.svnHall ≤ b.svnHall
  svnPhy    : a.svnPhy ≤ b.svnPhy

/-- What `b` keeps of `a`: the clock and the queue stand, what was sent stays sent, free values are only drawn, the fuses
stand, and the form of the memory and the bound of every submission ring are kept. -/
structure Keeps (a b : State) : Prop where
  now     : b.now = a.now
  pending : b.pending = a.pending
  out     : a.out <+: b.out
  fresh   : a.fresh ≤ b.fresh
  fuses   : b.porter.fuses = a.porter.fuses
  mem     : Memory.wf a.mem = true → Memory.wf b.mem = true
  rings   : a.ringsOk → b.ringsOk

end Sys2Proof.Machine
end

