-- ==== Sys2Proof/WellFormed.lean ====
section
/-! DEFINITION. Which commands are well formed: their operands are of a size that the event can have. `exec` has a meaning
for ill-formed commands as well. -/

namespace Sys2Proof

/-- Bytes that an access writes. -/
def LineReq.carried (r : LineReq) : Nat := (r.write.getD []).length
def VestReq.carried (r : VestReq) : Nat := (r.write.getD []).length

/-- A write brings as many bytes as it names; an access is at most one line of 256 bytes long (R101). -/
def LineReq.wf (r : LineReq) : Bool := r.len ≤ 256 && (r.write.all fun b => b.length == r.len)

/-- A write brings as many bytes as it names; an access is at most one burst of 2 KiB long (R270). -/
def VestReq.wf (r : VestReq) : Bool := r.len ≤ 2048 && (r.write.all fun b => b.length == r.len)

/-- Bytes that a packet carries. -/
def PktBody.carried : PktBody → Nat
  | .write _ b _ => b.length
  | .answer b _ => b.length
  | _ => 0

/-- A package packet carries at most 256 bytes (R287). -/
def PktBody.wf (b : PktBody) : Bool := b.carried ≤ 256

def MeshEvent.carried : MeshEvent → Nat
  | .inject p _ => p.body.carried
  | .grant _ => 0

def MeshEvent.wf : MeshEvent → Bool
  | .inject p _ => p.body.wf
  | .grant _ => true

/-- A payload is at most 2,048 bytes long (R317). -/
def FabPacket.wf (p : FabPacket) : Bool := p.payload.length ≤ 2048

/-- The query window or the mask window holds the bytes (Table 4.6). -/
def inWindow (off n : Nat) : Bool :=
  (0x1000 ≤ off && off + n ≤ 0x1080) || (0x2000 ≤ off && off + n ≤ 0x4000)

/-- Widths of a PCIe link. -/
def linkWidth (n : Nat) : Bool := n == 0 || n == 1 || n == 2 || n == 4 || n == 8 || n == 16

/-- A UCIe module has 64 lanes (Table 10.5). -/
def UcieOutcome.wf : UcieOutcome → Bool
  | .narrowed n => n ≤ 64
  | _ => true

/-- Whether a command is well formed. -/
def Instr.wf : Instr → Bool
  | .planLoad _ => true
  | .planUnload _ => true
  | .volOpen _ => true
  | .volClose _ => true
  | .volQuery _ => true
  | .fmSeal _ => true
  | .checkpoint _ => true
  | .park _ => true
  | .shelve _ => true
  | .resume _ => true
  | .recover _ => true
  | .volRehome _ => true
  | .hintQuery _ => true
  | .stepDecode _ => true
  | .stepVerify _ => true
  | .stepPrefill _ => true
  | .stepAbort _ => true
  | .bind _ => true
  | .bindForward _ => true
  | .claspOp _ => true
  | .nop _ => true
  | .dmaStart _ => true
  | .dmaStop _ => true
  | .fenceUnitFence _ => true
  | .fenceUnitWatch _ => true
  | .sqTailWrite _ _ _ _ => true
  | .cqHeadWrite _ _ _ _ => true
  | .claimDescriptor _ => true
  | .irqDelayExpire _ _ => true
  | .opHandout _ _ _ => true
  | .opReady _ _ _ _ => true
  | .opRetire _ _ _ => true
  | .tile _ _ => true
  | .splitPartialAdd _ _ _ => true
  | .fetch _ _ _ => true
  | .store _ _ _ => true
  | .smMax _ _ => true
  | .smExp _ _ => true
  | .smMerge _ _ => true
  | .smNorm _ _ => true
  | .rmsnorm _ _ => true
  | .layernorm _ _ => true
  | .silu _ _ => true
  | .geluTanh _ _ => true
  | .swiglu _ _ => true
  | .relu _ _ => true
  | .rope _ _ => true
  | .scale _ _ => true
  | .ewAdd _ _ => true
  | .ewMul _ _ => true
  | .topk _ _ => true
  | .convert _ _ => true
  | .psumAdd _ _ => true
  | .psumPair _ _ => true
  | .ctrInit _ _ _ => true
  | .flagInit _ _ _ => true
  | .lockInit _ _ _ => true
  | .drop _ _ _ => true
  | .ctrAdd _ _ _ => true
  | .ctrArrive _ _ _ => true
  | .ctrWait _ _ _ => true
  | .ctrSet _ _ _ => true
  | .flagSet _ _ _ => true
  | .flagClear _ _ _ => true
  | .flagWait _ _ _ => true
  | .lockTry _ _ _ => true
  | .lockTake _ _ _ => true
  | .lockRelease _ _ _ => true
  | .lockBreak _ _ _ => true
  | .claspRepresent _ => true
  | .resetBackoffRetry _ => true
  | .bindPrepare _ => true
  | .bindPrepared _ => true
  | .bindCommit _ _ => true
  | .bindDone _ => true
  | .bindAbort _ => true
  | .bindPrepareTimeout _ _ => true
  | .bindFinishFromLog _ => true
  | .laneLockRetry _ => true
  | .walkItemEmit _ => true
  | .leafAttend _ _ => true
  | .leafAppend _ _ => true
  | .leafMove _ _ => true
  | .leafGather _ _ => true
  | .boardSendRows _ => true
  | .partialArrive _ _ => true
  | .mergeForward _ _ _ => true
  | .stepDecide _ => true
  | .stepRunVoid _ => true
  | .stepTimeout _ => true
  | .pinRequest _ _ => true
  | .writebackCopiesDone _ => true
  | .leafStaged _ _ => true
  | .resumeEligible _ => true
  | .parkNearReleased _ => true
  | .shelveLeavesCommitted _ _ => true
  | .volSend _ => true
  | .volAccept _ => true
  | .volAcceptTimeout _ => true
  | .volTransferPreamble _ => true
  | .volTransferLeaf _ _ n bytes _ => n ≤ 2048 && bytes.length ≤ 65536
  | .mgmtSend _ => true
  | .mgmtSendTimeout _ => true
  | .dmaMove _ _ => true
  | .dmaLoop _ _ => true
  | .dmaWait _ _ => true
  | .dmaSignal _ _ => true
  | .dmaEnd _ _ => true
  | .dmaBurst _ => true
  | .dmaWritesAnswered _ _ => true
  | .vestAccess _ r => r.wf
  | .vestRecall _ _ _ _ _ => true
  | .evict _ => true
  | .unkeep _ => true
  | .modeWrite _ _ _ _ => true
  | .bankAccessesDrained _ _ _ _ => true
  | .landingCmdWrite _ _ _ _ off bytes => off.val + bytes.length ≤ 64
  | .windowWrite _ _ _ off bytes => inWindow off bytes.length
  | .windowWriteApply _ _ _ => true
  | .score _ _ _ => true
  | .valueAcc _ _ _ => true
  | .attend _ _ _ => true
  | .accClear _ _ _ => true
  | .readout _ _ _ => true
  | .fill _ _ _ => true
  | .copy _ _ _ => true
  | .pack _ _ _ => true
  | .unpack _ _ _ => true
  | .chunkBoundary _ _ _ => true
  | .refreshDue _ _ _ _ => true
  | .nearLineRequest _ _ r => r.wf
  | .layoutApply _ _ => true
  | .layoutReinitDone _ _ => true
  | .scrubStep _ _ => true
  | .parkScrubStep _ => true
  | .layerLost _ _ => true
  | .errorEvent e => e.layer < 12
  | .parkPkgFail _ _ => true
  | .unitFence _ => true
  | .adoptionComplete _ _ => true
  | .resdescPublish => true
  | .housekeepingRound r => r.halls.length == 12
  | .dStepSlot => true
  | .coolantWindow => true
  | .inputSample _ _ => true
  | .startGateOpen => true
  | .railPgoodTimeout _ => true
  | .porterRelease _ _ => true
  | .handOff => true
  | .enableFall => true
  | .inputLoss => true
  | .railPgoodLoss _ => true
  | .pllLockLoss _ => true
  | .refLost => true
  | .warmResetRequest _ => true
  | .hallComputeReset _ _ => true
  | .usherHeartbeatMiss _ _ => true
  | .computeFaultReport _ => true
  | .stairwellReset _ _ => true
  | .meshPacket _ e => e.wf
  | .ringPacket _ _ => true
  | .meshBroadcast _ p => p.body.wf
  | .ringBroadcast _ _ p => p.body.wf
  | .ageTick => true
  | .ringReroute => true
  | .ucieFlitResend _ _ o => o.wf
  | .fabPortEnable _ _ => true
  | .fabPortRetrain _ => true
  | .fabDownRetry _ => true
  | .fecLock _ lanes => lanes == 1 || lanes == 2 || lanes == 4
  | .trainTimeout _ => true
  | .helloTimeout _ => true
  | .helloSend _ => true
  | .hello _ p => p.wf
  | .portFault _ _ => true
  | .linkReplay _ _ => true
  | .data _ p => p.wf
  | .ack _ p => p.wf
  | .ackTimer _ _ => true
  | .retransmitTimer _ _ _ _ => true
  | .fabricForward _ p => p.wf
  | .mgmtForward _ p => p.wf
  | .claimSend => true
  | .claim _ p => p.wf
  | .managerElected => true
  | .heartbeatSend => true
  | .heartbeat _ p => p.wf
  | .heartbeatLoss => true
  | .query _ _ p => p.wf
  | .assignId _ _ p => p.wf
  | .routeWrite _ _ p => p.wf
  | .wclSet _ _ p => p.wf
  | .report (_, p) => p.wf
  | .fabStreamCfgWrite _ _ => true
  | .ringCfgWrite _ _ _ => true
  | .dmaChCfgWrite _ _ => true
  | .tierCfgWrite _ _ => true
  | .fardecWrite _ _ => true
  | .portaWinWrite _ _ => true
  | .errlogCfgWrite _ _ => true
  | .errlogHeadWrite _ => true
  | .peakClear _ => true
  | .portaIrq _ => true
  | .mailboxWrite off size _ => size ≤ 8 && off + size ≤ 4096
  | .portaLinkChange _ width gen => linkWidth width && gen ≤ 6
  | .portbLinkLoss => true
  | .pbPerstRelease => true
  | .cableInsert _ _ => true
  | .calOpRead => true
  | .calOpWrite => true
  | .calOpClear => true
  | .calRestoreFactory => true
  | .fwupdStage => true
  | .fwupdCommit _ => true
  | .entdaa _ _ => true
  | .rstdaa => true
  | .enec _ => true
  | .disec _ => true
  | .setmwl _ => true
  | .getmwl => true
  | .setmrl _ => true
  | .getmrl => true
  | .getpid => true
  | .getbcr => true
  | .getdcr => true
  | .getstatus => true
  | .responseRead => true
  | .mctpPacket _ _ => true
  | .readPage _ => true
  | .alertAck _ => true
  | .calRead _ => true
  | .calWrite _ => true
  | .calClear _ => true
  | .restoreFactory _ => true
  | .warmReset _ => true
  | .fwCommit _ => true
  | .ibiRequest _ => true
  | .getVersion _ _ => true
  | .getCapabilities _ _ => true
  | .negotiateAlgorithms _ _ => true
  | .getDigests _ _ => true
  | .getCertificate _ _ => true
  | .challenge _ _ => true
  | .getMeasurements _ _ => true
  | .registerWrite offset size _ => (size == 4 || size == 8) && offset + size ≤ 0x1000000
  | .computeResetRelease _ _ => true
  | .vestMaintDone _ => true
  | .calCommandDone _ => true
  | .fwupdDone _ => true
  | .mgmtReply _ p => p.wf
  | .portbLinkUp width gen _ => linkWidth width && gen ≤ 6
  | .linkControlWord _ _ credits => credits.all fun q => q.2 ≤ 4096
  | .commandFrameRefused _ => true

/-- Bytes that a command brings to a memory, a window, a buffer or a link. -/
def Instr.carried : Instr → Nat
  | .planLoad _ => 0
  | .planUnload _ => 0
  | .volOpen _ => 0
  | .volClose _ => 0
  | .volQuery _ => 0
  | .fmSeal _ => 0
  | .checkpoint _ => 0
  | .park _ => 0
  | .shelve _ => 0
  | .resume _ => 0
  | .recover _ => 0
  | .volRehome _ => 0
  | .hintQuery _ => 0
  | .stepDecode _ => 0
  | .stepVerify _ => 0
  | .stepPrefill _ => 0
  | .stepAbort _ => 0
  | .bind _ => 0
  | .bindForward _ => 0
  | .claspOp _ => 0
  | .nop _ => 0
  | .dmaStart _ => 0
  | .dmaStop _ => 0
  | .fenceUnitFence _ => 0
  | .fenceUnitWatch _ => 0
  | .sqTailWrite _ _ _ _ => 0
  | .cqHeadWrite _ _ _ _ => 0
  | .claimDescriptor _ => 0
  | .irqDelayExpire _ _ => 0
  | .opHandout _ _ _ => 0
  | .opReady _ _ _ _ => 0
  | .opRetire _ _ _ => 0
  | .tile _ _ => 0
  | .splitPartialAdd _ _ _ => 0
  | .fetch _ _ _ => 0
  | .store _ _ _ => 0
  | .smMax _ _ => 0
  | .smExp _ _ => 0
  | .smMerge _ _ => 0
  | .smNorm _ _ => 0
  | .rmsnorm _ _ => 0
  | .layernorm _ _ => 0
  | .silu _ _ => 0
  | .geluTanh _ _ => 0
  | .swiglu _ _ => 0
  | .relu _ _ => 0
  | .rope _ _ => 0
  | .scale _ _ => 0
  | .ewAdd _ _ => 0
  | .ewMul _ _ => 0
  | .topk _ _ => 0
  | .convert _ _ => 0
  | .psumAdd _ _ => 0
  | .psumPair _ _ => 0
  | .ctrInit _ _ _ => 0
  | .flagInit _ _ _ => 0
  | .lockInit _ _ _ => 0
  | .drop _ _ _ => 0
  | .ctrAdd _ _ _ => 0
  | .ctrArrive _ _ _ => 0
  | .ctrWait _ _ _ => 0
  | .ctrSet _ _ _ => 0
  | .flagSet _ _ _ => 0
  | .flagClear _ _ _ => 0
  | .flagWait _ _ _ => 0
  | .lockTry _ _ _ => 0
  | .lockTake _ _ _ => 0
  | .lockRelease _ _ _ => 0
  | .lockBreak _ _ _ => 0
  | .claspRepresent _ => 0
  | .resetBackoffRetry _ => 0
  | .bindPrepare _ => 0
  | .bindPrepared _ => 0
  | .bindCommit _ _ => 0
  | .bindDone _ => 0
  | .bindAbort _ => 0
  | .bindPrepareTimeout _ _ => 0
  | .bindFinishFromLog _ => 0
  | .laneLockRetry _ => 0
  | .walkItemEmit _ => 0
  | .leafAttend _ _ => 0
  | .leafAppend _ _ => 0
  | .leafMove _ _ => 0
  | .leafGather _ _ => 0
  | .boardSendRows _ => 0
  | .partialArrive _ _ => 0
  | .mergeForward _ _ _ => 0
  | .stepDecide _ => 0
  | .stepRunVoid _ => 0
  | .stepTimeout _ => 0
  | .pinRequest _ _ => 0
  | .writebackCopiesDone _ => 0
  | .leafStaged _ _ => 0
  | .resumeEligible _ => 0
  | .parkNearReleased _ => 0
  | .shelveLeavesCommitted _ _ => 0
  | .volSend _ => 0
  | .volAccept _ => 0
  | .volAcceptTimeout _ => 0
  | .volTransferPreamble _ => 0
  | .volTransferLeaf _ _ _ bytes _ => bytes.length
  | .mgmtSend _ => 0
  | .mgmtSendTimeout _ => 0
  | .dmaMove _ _ => 0
  | .dmaLoop _ _ => 0
  | .dmaWait _ _ => 0
  | .dmaSignal _ _ => 0
  | .dmaEnd _ _ => 0
  | .dmaBurst _ => 0
  | .dmaWritesAnswered _ _ => 0
  | .vestAccess _ r => r.carried
  | .vestRecall _ _ _ _ _ => 0
  | .evict _ => 0
  | .unkeep _ => 0
  | .modeWrite _ _ _ _ => 0
  | .bankAccessesDrained _ _ _ _ => 0
  | .landingCmdWrite _ _ _ _ _ bytes => bytes.length
  | .windowWrite _ _ _ _ bytes => bytes.length
  | .windowWriteApply _ _ _ => 0
  | .score _ _ _ => 0
  | .valueAcc _ _ _ => 0
  | .attend _ _ _ => 0
  | .accClear _ _ _ => 0
  | .readout _ _ _ => 0
  | .fill _ _ _ => 0
  | .copy _ _ _ => 0
  | .pack _ _ _ => 0
  | .unpack _ _ _ => 0
  | .chunkBoundary _ _ _ => 0
  | .refreshDue _ _ _ _ => 0
  | .nearLineRequest _ _ r => r.carried
  | .layoutApply _ _ => 0
  | .layoutReinitDone _ _ => 0
  | .scrubStep _ _ => 0
  | .parkScrubStep _ => 0
  | .layerLost _ _ => 0
  | .errorEvent _ => 0
  | .parkPkgFail _ _ => 0
  | .unitFence _ => 0
  | .adoptionComplete _ _ => 0
  | .resdescPublish => 0
  | .housekeepingRound _ => 0
  | .dStepSlot => 0
  | .coolantWindow => 0
  | .inputSample _ _ => 0
  | .startGateOpen => 0
  | .railPgoodTimeout _ => 0
  | .porterRelease _ _ => 0
  | .handOff => 0
  | .enableFall => 0
  | .inputLoss => 0
  | .railPgoodLoss _ => 0
  | .pllLockLoss _ => 0
  | .refLost => 0
  | .warmResetRequest _ => 0
  | .hallComputeReset _ _ => 0
  | .usherHeartbeatMiss _ _ => 0
  | .computeFaultReport _ => 0
  | .stairwellReset _ _ => 0
  | .meshPacket _ e => e.carried
  | .ringPacket _ _ => 0
  | .meshBroadcast _ p => p.body.carried
  | .ringBroadcast _ _ p => p.body.carried
  | .ageTick => 0
  | .ringReroute => 0
  | .ucieFlitResend _ _ _ => 0
  | .fabPortEnable _ _ => 0
  | .fabPortRetrain _ => 0
  | .fabDownRetry _ => 0
  | .fecLock _ _ => 0
  | .trainTimeout _ => 0
  | .helloTimeout _ => 0
  | .helloSend _ => 0
  | .hello _ p => p.payload.length
  | .portFault _ _ => 0
  | .linkReplay _ _ => 0
  | .data _ p => p.payload.length
  | .ack _ p => p.payload.length
  | .ackTimer _ _ => 0
  | .retransmitTimer _ _ _ _ => 0
  | .fabricForward _ p => p.payload.length
  | .mgmtForward _ p => p.payload.length
  | .claimSend => 0
  | .claim _ p => p.payload.length
  | .managerElected => 0
  | .heartbeatSend => 0
  | .heartbeat _ p => p.payload.length
  | .heartbeatLoss => 0
  | .query _ _ p => p.payload.length
  | .assignId _ _ p => p.payload.length
  | .routeWrite _ _ p => p.payload.length
  | .wclSet _ _ p => p.payload.length
  | .report (_, p) => p.payload.length
  | .fabStreamCfgWrite _ _ => 0
  | .ringCfgWrite _ _ _ => 0
  | .dmaChCfgWrite _ _ => 0
  | .tierCfgWrite _ _ => 0
  | .fardecWrite _ _ => 0
  | .portaWinWrite _ _ => 0
  | .errlogCfgWrite _ _ => 0
  | .errlogHeadWrite _ => 0
  | .peakClear _ => 0
  | .portaIrq _ => 0
  | .mailboxWrite _ size _ => size
  | .portaLinkChange _ _ _ => 0
  | .portbLinkLoss => 0
  | .pbPerstRelease => 0
  | .cableInsert _ _ => 0
  | .calOpRead => 0
  | .calOpWrite => 0
  | .calOpClear => 0
  | .calRestoreFactory => 0
  | .fwupdStage => 0
  | .fwupdCommit _ => 0
  | .entdaa _ _ => 0
  | .rstdaa => 0
  | .enec _ => 0
  | .disec _ => 0
  | .setmwl _ => 0
  | .getmwl => 0
  | .setmrl _ => 0
  | .getmrl => 0
  | .getpid => 0
  | .getbcr => 0
  | .getdcr => 0
  | .getstatus => 0
  | .responseRead => 0
  | .mctpPacket _ _ => 0
  | .readPage _ => 0
  | .alertAck _ => 0
  | .calRead _ => 0
  | .calWrite _ => 0
  | .calClear _ => 0
  | .restoreFactory _ => 0
  | .warmReset _ => 0
  | .fwCommit _ => 0
  | .ibiRequest _ => 0
  | .getVersion _ _ => 0
  | .getCapabilities _ _ => 0
  | .negotiateAlgorithms _ _ => 0
  | .getDigests _ _ => 0
  | .getCertificate _ _ => 0
  | .challenge _ _ => 0
  | .getMeasurements _ _ => 0
  | .registerWrite _ size _ => size
  | .computeResetRelease _ _ => 0
  | .vestMaintDone _ => 0
  | .calCommandDone _ => 0
  | .fwupdDone _ => 0
  | .mgmtReply _ p => p.payload.length
  | .portbLinkUp _ _ _ => 0
  | .linkControlWord _ _ _ => 0
  | .commandFrameRefused _ => 0

end Sys2Proof
end

