-- ==== Sys2Proof/Certificates/Slice0/Obligations.lean ====
section
/-! DEFINITION. The statements about this model, from the rules of the spec. -/

open Sys2Proof Sys2Proof.Machine

/-- A fabric port trains, locks or fails to, and an ACTIVE port that is lost enters RETRAIN (R318, R326). -/
def Obligations.FabricPortTrains : Prop :=
  (∀ (h : HallId) (s : State), s.hallNet h = true →
    ((s.port h).state = .down → (s.port h).attempt = none → (s.port h).cable = none → s.running = true →
      Gives (.fabPortEnable h true) s fun t => PortBecomes s t h
        { (s.port h).cleared .training s.now with en := true, attempt := some s.now, reason := 0 }) ∧
    ((s.port h).state = .down → (s.port h).en = true → (s.port h).cable = none →
      (∀ a, (s.port h).attempt = some a → a + 1000000000 ≤ s.now) →
      Gives (.fabDownRetry h) s fun t => PortBecomes s t h
        { (s.port h).cleared .training s.now with attempt := some s.now, reason := 0 }) ∧
    (∀ lanes : Nat, lanes = 1 ∨ lanes = 2 ∨ lanes = 4 →
      ((s.port h).state = .training ∧ s.now ≤ (s.port h).since + 150000000) ∨
        ((s.port h).state = .retrain ∧ s.now ≤ (s.port h).since + 200000000) →
      Gives (.fecLock h lanes) s fun t => PortBecomes s t h
        { (s.port h).cleared .hello s.now with width := lanes, reason := 0, helloAt := none, peerHello := none }) ∧
    (((s.port h).state = .training ∧ (s.port h).since + 150000000 ≤ s.now) ∨
        ((s.port h).state = .retrain ∧ (s.port h).since + 200000000 ≤ s.now) →
      Gives (.trainTimeout h) s fun t => PortBecomes s t h
        { (s.port h).cleared .down s.now with
            reason := 4, peerPid := 0, peerNode := 0, peerLevel := 0, peerWcl := 0, peerEpoch := 0, peerMgr := 0,
            peerHello := none }) ∧
    ((s.port h).state = .hello → (s.port h).since + 10000000 ≤ s.now →
      Gives (.helloTimeout h) s fun t => PortBecomes s t h
        { (s.port h).cleared .down s.now with
            reason := 4, peerPid := 0, peerNode := 0, peerLevel := 0, peerWcl := 0, peerEpoch := 0, peerMgr := 0,
            peerHello := none })) ∧
  (∀ (h : HallId) (c : PortFaultCause) (s : State), s.hallNet h = true → s.running = true →
    ((s.port h).state = .active → (s.port h).replay = [] → (s.port h).waitq = [] → s.porter.fab.elected = false →
      s.porter.fab.mgrPid = none →
      (Gives (.fabPortRetrain h) s fun t => PortBecomes s.publishDue t h
        { (s.port h).cleared .retrain s.now with attempt := some s.now }) ∧
      (Gives (.portFault h c) s fun t => PortBecomes s.publishDue t h
        { (s.port h).cleared .retrain s.now with attempt := some s.now }) ∧
      (Gives (.fabPortEnable h false) s fun t => PortBecomes s.publishDue t h
        { (s.port h).cleared .down s.now with
            en := false, peerPid := 0, peerNode := 0, peerLevel := 0, peerWcl := 0, peerEpoch := 0, peerMgr := 0,
            peerHello := none })) ∧
    ((s.port h).state ≠ .active → exec (.fabPortRetrain h) s = .next s ∧ exec (.portFault h c) s = .next s))

/-- A HELLO is sent when due, and a good one of a fit peer takes the port to ACTIVE (R318, R319, R320, R333). -/
def Obligations.HelloExchange : Prop :=
  ∀ (h : HallId) (s : State), s.porterUp = true → s.hallNet h = true →
    (((s.port h).state = .hello ∨ (s.port h).state = .check ∨ (s.port h).state = .active) →
      (∀ a, (s.port h).helloAt = some a → a + 100000 ≤ s.now) →
      exec (.helloSend h) s = .next (sendLink (s.modPort h fun p => { p with helloAt := some s.now }) h (helloMsg s h))) ∧
    ((s.port h).state = .refused → (∀ a, (s.port h).helloAt = some a → a + 100000000 ≤ s.now) →
      exec (.helloSend h) s = .next (sendLink (s.modPort h fun p => { p with helloAt := some s.now }) h (helloMsg s h))) ∧
    (∀ p : FabPacket, Arrives s h p → mgmtPktBad s p = false → helloOk (msgOf p) = true →
      s.porter.fab.elected = false → s.porter.fab.mgrPid = none →
      let u := linkTaken s h p
      let x := (u.port h).withPeer (msgOf p)
      ((s.port h).state = .active → exec (.hello h p) s = .next (u.modPort h fun y => y.withPeer (msgOf p))) ∧
      ((s.port h).state = .hello → levelMajor s.fwLevel ≤ levelMajor x.peerLevel + 1 →
        levelMajor x.peerLevel ≤ levelMajor s.fwLevel + 1 → x.peerWcl ≤ levelMajor s.fwLevel → x.peerPid ≠ s.pid →
        Gives (.hello h p) s fun t =>
          t.port h = { x with
            state := .active, since := s.now, reason := 0, jpv := min (levelMajor s.fwLevel) (levelMajor x.peerLevel) } ∧
          t.porter.flash.wcl = max s.porter.flash.wcl x.peerWcl ∧
          t.porter.res.due = true ∧ t.mem = s.mem ∧ ∀ k, k ≠ h.val → t.hall k = s.hall k))

/-- A HELLO of a peer outside R319 leaves the port REFUSED with its reason; of two modules of which one is below the other's
WCL, that one refuses (R319, log entry 92). -/
def Obligations.PeerOutsideTheRulesIsRefused : Prop :=
  ∀ (h : HallId) (p : FabPacket) (s : State), Arrives s h p → mgmtPktBad s p = false → helloOk (msgOf p) = true →
    s.porterUp = true → (s.port h).state = .hello → s.porter.fab.elected = false → s.porter.fab.mgrPid = none →
    let u := linkTaken s h p
    let x := (u.port h).withPeer (msgOf p)
    let gap := levelMajor x.peerLevel + 1 < levelMajor s.fwLevel ∨ levelMajor s.fwLevel + 1 < levelMajor x.peerLevel
    let ahead := levelMajor s.fwLevel < x.peerWcl
    (gap →
      Gives (.hello h p) s fun t => PortBecomes u t h { x with state := .refused, since := s.now, reason := 1, jpv := 0 }) ∧
    (¬ gap → ahead →
      Gives (.hello h p) s fun t => PortBecomes u t h { x with state := .refused, since := s.now, reason := 2, jpv := 0 }) ∧
    (¬ gap → ¬ ahead → x.peerPid = s.pid →
      Gives (.hello h p) s fun t => PortBecomes u t h { x with state := .refused, since := s.now, reason := 3, jpv := 0 })

/-- LINK_REPLAY resends, in order, every packet from the link sequence number on, and changes nothing else; a control word frees
what the peer has and returns credits, and the port's own goes out (R321, R322, log entry 118). -/
def Obligations.ReplaySendsWhatThePeerLacks : Prop :=
  ∀ (h : HallId) (s : State), s.hallNet h = true →
    (∀ n : Nat, exec (.linkReplay h n) s = .next
      { s with out := s.out ++ ((s.port h).replay.filter (fun q => n ≤ q.linkSeq)).map (fun q =>
        Output.fab h { q.pkt with link := some { seq := q.linkSeq, ok := true } }) }) ∧
    (∀ (n : Nat) (credits : List (Fin 24 × Nat)),
      (s.port h).state = .hello ∨ (s.port h).state = .check ∨ (s.port h).state = .active ∨ (s.port h).state = .refused →
      (s.port h).waitq = [] →
      Gives (.linkControlWord h n credits) s fun t =>
        PortBecomes (s.emit (.linkWord h ((s.port h).rxNext - 1) (s.port h).rxFree)) t h
        { s.port h with
            replay := ((s.port h).replay.filter fun q => n < q.linkSeq),
            used := (credits.foldl (fun c q => sset c q.1 (sget c 0 q.1 - q.2)) (s.port h).used), rxFree := [] })

/-- FAB_STREAM_CFG_WRITE sets a stream or refuses the write (R313). -/
def Obligations.ReceiveStreamIsSetUpAsStated : Prop :=
  ∀ (h : HallId) (w : Word) (s : State), s.hallNet h = true → s.running = true →
    let i := (s.hall h).regs.streamSel
    let r := s.rx h i
    let n := bits w 13 2
    let bad := 48 ≤ i ∨ 2048 < n ∨ (bitAt w 0 = true ∧ 2048 < n + otherCredits s h i)
    (bad → exec (.fabStreamCfgWrite h w) s = .next (s.setRx h i { r with err := true })) ∧
    (¬ bad → bitAt w 0 = r.en →
      exec (.fabStreamCfgWrite h w) s = .next (s.setRx h i { r with err := r.err && !bitAt w 1, credits := n })) ∧
    (¬ bad → bitAt w 0 ≠ r.en →
      exec (.fabStreamCfgWrite h w) s = .next
        (s.setRx h i { en := bitAt w 0, err := r.err && !bitAt w 1, credits := n, src := r.src }))

/-- A good DATA packet within the window is buffered and counted toward the next ACK; another is dropped and counted, and one with
a bad CRC logged (R313, R314, R315, R317, R321). -/
def Obligations.DataPacketReachesItsStream : Prop :=
  ∀ (h : HallId) (p : FabPacket) (s : State), Handed s h p → packetBad s h p 1 = false → pkStream p.hdr < 48 →
    let u := linkTaken s h p
    let i := pkStream p.hdr
    let r := s.rx h i
    let r' := { r.take p with unacked := (r.take p).unacked + 1, unackAt := some ((r.take p).unackAt.getD s.now) }
    (p.crc = packetCrc p.hdr p.payload → r.en = true → r.src.toNat = pkSrc p.hdr → r.admits p = true →
      ((r.take p).unacked + 1 < 4 → exec (.data h p) s = .next (u.setRx h i r')) ∧
      (4 ≤ (r.take p).unacked + 1 → exec (.data h p) s = .next (sendAck (u.setRx h i r') h i))) ∧
    (p.crc = packetCrc p.hdr p.payload → r.en = true → r.src.toNat ≠ pkSrc p.hdr →
      exec (.data h p) s = .next (u.modPort h fun x => { x with drops := x.drops + 1 })) ∧
    (p.crc ≠ packetCrc p.hdr p.payload →
      exec (.data h p) s = .next ((u.modPort h fun x => { x with crcErr := x.crcErr + 1 }).logError
        { source := .fabCrc, class_ := Class.uncorrectable, hall := h }))

/-- ACK frees packets and moves the window; timers acknowledge and resend (R315, R316, R269). -/
def Obligations.AcknowledgementAndRetransmission : Prop :=
  ∀ (h : HallId) (s : State), s.hallNet h = true →
    (∀ (p : FabPacket) (x : TxStream), Arrives s h p → packetBad s h p 2 = false →
      sfind (s.hall h).tx (txKey (pkSrc p.hdr) (pkStream p.hdr)) = some x →
      (x.next - 1 - pkAckseq p.hdr).toNat < 2 ^ 31 →
      exec (.ack h p) s = .next (pumpSends (endStops ((linkTaken s h p).setTx h (txKey (pkSrc p.hdr) (pkStream p.hdr))
        { x with
            pkts := (x.pkts.filter fun q => 2 ^ 31 ≤ (pkAckseq p.hdr - q.seq).toNat),
            limit := some (match x.limit with
              | some o => if (pkLimit p.hdr - o).toNat < 2 ^ 31 then pkLimit p.hdr else o
              | none => pkLimit p.hdr) }) h) h)) ∧
    (∀ (i : StreamId) (a : Nat), i.val < 48 → (s.rx h i).unackAt = some a → a + 200 ≤ s.now →
      exec (.ackTimer h i) s = .next (sendAck s h i)) ∧
    (∀ (dst : NodeId) (i : StreamId) (seq : Word) (q : TxPkt),
      let k := txKey dst.toNat i
      (s.tx h k).pkts.find? (fun q => q.seq == seq) = some q →
      q.sent + 100 * 2 ^ (q.sends - 1) * 100 ≤ s.now →
      (q.sends < 7 →
        let q' := { q with sent := s.now, sends := q.sends + 1 }
        let s1 := s.setTx h k { s.tx h k with pkts := (s.tx h k).pkts.map fun x => if x.seq == seq then q' else x }
        exec (.retransmitTimer h dst i seq) s = .next
          (fabSend (s1.modPort h fun x => { x with retx := x.retx + 1 }) h (dataPacket s1 h k q'))) ∧
      (7 ≤ q.sends → exec (.retransmitTimer h dst i seq) s = .next (giveUp s h k q)))

/-- A packet for this hall or the porter is delivered, one for another hall goes over the ring, and one at LEVEL 7 that needs a
further link is dropped; a routed message is steered by its first nibble (R310, R321, R323, R325, R329). -/
def Obligations.PacketsThatPassThrough : Prop :=
  ∀ (h : HallId) (p : FabPacket) (s : State), Handed s h p →
    let u := linkTaken s h p
    (nodeModule (pkDst p.hdr) ≠ 0xFFFF → (nodeHall (pkDst p.hdr) < 12 ∨ nodeHall (pkDst p.hdr) = 15) →
      (nodeModule (pkDst p.hdr) = s.porter.fab.moduleId →
        (nodeHall (pkDst p.hdr) = h.val ∨ nodeHall (pkDst p.hdr) = 15 → exec (.fabricForward h p) s =
          .next (u.emit (.fabLocal (nodeHall (pkDst p.hdr)) { p with link := none }))) ∧
        (∀ g : HallId, nodeHall (pkDst p.hdr) = g.val → g ≠ h →
          exec (.fabricForward h p) s = .next (fabRing u h g p false))) ∧
      (nodeModule (pkDst p.hdr) ≠ s.porter.fab.moduleId → pkLevel p.hdr = 7 →
        exec (.fabricForward h p) s = .next (u.modPort h fun x => { x with drops := x.drops + 1 }))) ∧
    (32 ≤ p.payload.length →
      let q := withRoute p (bodyNat p.payload 0x10 4) (bodyNat p.payload 0x14 4 * 16 % 2 ^ 32 + h.val)
      let r := bodyNat q.payload 0x10 4
      let on := withRoute q (r / 16 + 0xF0000000) (bodyNat q.payload 0x14 4)
      (r % 16 = 15 → exec (.mgmtForward h p) s = .next (u.emit (.fabLocal 15 { q with link := none }))) ∧
      (12 ≤ r % 16 → r % 16 ≤ 14 →
        exec (.mgmtForward h p) s = .next (u.modPort h fun x => { x with drops := x.drops + 1 })) ∧
      (r % 16 = h.val → exec (.mgmtForward h p) s = .next (fabOut u h on)) ∧
      (∀ g : HallId, r % 16 = g.val → g ≠ h → exec (.mgmtForward h p) s = .next (fabRing u h g on true)))

/-- Claims, the election of the manager and its heartbeats (R328, R330, R338). -/
def Obligations.ElectionAndHeartbeats : Prop :=
  ∀ (s : State), s.porterUp = true →
    ((∀ a, s.porter.fab.lastClaim = some a → a + 10000000 ≤ s.now) →
      exec .claimSend s = .next (sendLinks (s.modFab fun f => { f with lastClaim := some s.now })
        (mkMgmt s 0x01 false 0 0 0 (leBytes 4 s.porter.fab.prio)) none)) ∧
    (∀ (h : HallId) (p : FabPacket), Arrives s h p → mgmtPktBad s p = false → (s.port h).active = true →
      let m := msgOf p
      let u := linkTaken s h p
      mgType m = 0x01 → mgRouted m = false → bodyOk m.body 4 [(0, 8, 24)] = true →
      let c := (bodyNat m.body 0 1, mgOrigin m)
      (s.porter.fab.elected = true → claimBetter c s.ownClaim = true →
        Gives (.claim h p) s fun t =>
          t.porter.fab.elected = false ∧ t.porter.fab.changed = true ∧ t.porter.fab.mgrPid = none ∧
          t.out = s.out ++ [.msi s.porter.fab.vec] ∧ t.halls = u.halls ∧ t.mem = s.mem) ∧
      (s.porter.fab.elected = false →
        Gives (.claim h p) s fun t =>
          (c.1, c.2, s.now) ∈ t.porter.fab.claims ∧ s.porter.fab.heard.toNat ≤ t.porter.fab.heard.toNat ∧
          t.porter.fab.elected = false ∧ t.out = s.out ∧ t.halls = u.halls ∧ t.mem = s.mem)) ∧
    (s.porter.fab.elected = false → ownBestLong s = true →
      Gives .managerElected s fun t =>
        let e := (if s.porter.fab.heard.toNat < s.porter.fab.epoch.toNat then s.porter.fab.epoch else s.porter.fab.heard) + 1
        t = (s.modFab fun f => { f with
          elected := true, changed := true, epoch := e, heard := e, mgrPid := some s.pid,
          mgrNode := BitVec.ofNat 20 s.porterNode, lastHbSend := none }).fabIrq) ∧
    (s.porter.fab.elected = true → (∀ a, s.porter.fab.lastHbSend = some a → a + 10000000 ≤ s.now) →
      exec .heartbeatSend s = .next
        (sendLinks (s.modFab fun f => { f with hbCount := s.porter.fab.hbCount + 1, lastHbSend := some s.now })
          (mkMgmt s 0x02 false 0 0 0 (leBytes 4 s.porterNode ++ leBytes 4 (s.porter.fab.hbCount + 1).toNat)) none)) ∧
    (∀ (h : HallId) (p : FabPacket), Arrives s h p → mgmtPktBad s p = false → (s.port h).active = true →
      let m := msgOf p
      mgType m = 0x02 → mgRouted m = false → bodyOk m.body 8 [(0, 20, 12)] = true → hbNew s m = true →
      exec (.heartbeat h p) s = .next (sendLinks (holdManager (takeEpoch ((linkTaken s h p).modFab fun f => { f with
        hbSeen := (mgOrigin m, mgEpoch m, BitVec.ofNat 32 (bodyNat m.body 4 4)) ::
          f.hbSeen.filter fun q => q.1 != mgOrigin m }) (mgEpoch m)) m) m (some h))) ∧
    (∀ (p : Pid) (a : Nat), s.porter.fab.elected = false → s.porter.fab.mgrPid = some p → s.porter.fab.lastHb = some a →
      a + 100000000 ≤ s.now →
      exec .heartbeatLoss s = .next (s.modFab fun f => { f with mgrPid := none, changed := true }).fabIrq)

/-- QUERY, ASSIGN_ID, ROUTE_WRITE, WCL_SET and REPORT do what the manager asks (R330, R331, R333, R338). -/
def Obligations.ManagerRequestsAreAnswered : Prop :=
  ∀ (h : HallId) (l : Option LinkTag) (p : FabPacket) (s : State), s.porterUp = true →
    let q := arrived p l
    let u := linkTaken s h q
    let m := msgOf p
    let src := pkSrc p.hdr
    Arrives s h q → mgmtPktBad s q = false →
    (mgType m = 0x03 → m.body = [] → exec (.query h l p) s = .next (sendReply u h src m (queryBody u))) ∧
    (mgType m = 0x03 → m.body ≠ [] → exec (.query h l p) s = .next (sendReply u h src m (leBytes 4 0x01))) ∧
    (mgEpoch m = s.porter.fab.epoch → s.porter.fab.mgrPid = some (mgOrigin m) →
      (mgType m = 0x04 → bodyOk m.body 4 [(0, 16, 16)] = true → bodyNat m.body 0 2 ≠ 0xFFFF →
        exec (.assignId h l p) s = .next (sendReply (u.modFab fun f => { f with moduleId := bodyNat m.body 0 2 })
          h src m (leBytes 4 0))) ∧
      (mgType m = 0x05 → routeBodyOk m.body = true →
        exec (.routeWrite h l p) s = .next (sendReply (u.modFab fun f => { f with
            routes := (List.range (bodyNat m.body 2 1)).foldl (fun t i =>
              sset t (bodyNat m.body 0 2 + i) (BitVec.ofNat 32 (bodyNat m.body (4 + 4 * i) 4))) f.routes })
          h src m (leBytes 4 0))) ∧
      (mgType m = 0x06 → bodyOk m.body 4 [(0, 16, 16)] = true →
        (bodyNat m.body 0 2 ≤ levelMajor s.fwLevel →
          exec (.wclSet h l p) s = .next (sendReply (u.modPorter fun p => { p with
            flash := { p.flash with wcl := max p.flash.wcl (bodyNat m.body 0 2) } }) h src m (leBytes 4 0))) ∧
        (levelMajor s.fwLevel < bodyNat m.body 0 2 →
          exec (.wclSet h l p) s = .next (sendReply u h src m (leBytes 4 0x05))))) ∧
    (mgType m = 0x04 → bodyOk m.body 4 [(0, 16, 16)] = true → bodyNat m.body 0 2 ≠ 0xFFFF →
      mgEpoch m ≠ s.porter.fab.epoch ∨ s.porter.fab.mgrPid ≠ some (mgOrigin m) →
      exec (.assignId h l p) s = .next (sendReply u h src m (leBytes 4 0x04))) ∧
    (mgType m = 0x07 → s.porter.fab.elected = true → bodyOk m.body 8 [(0, 28, 4), (4, 16, 16)] = true →
      let w := bodyNat m.body 0 4
      exec (.report (h, q)) s = .next
        (recordReport u (w % 2 ^ 20) (w / 2 ^ 20 % 16) (w / 2 ^ 24) (bodyNat m.body 4 2)))

/-- A step takes the command at the front of the queue and runs it on the rest (The block as a queue of commands (log entry 4)). -/
def Obligations.StepRunsTheFrontCommand : Prop :=
  ∀ (c : Instr) (rest : List Instr) (s : State), s.pending = c :: rest → step s = exec c { s with pending := rest }

/-- With an empty queue the reference clock ticks once: every running elapsed counter rises by 1 and nothing else moves (R348, log entry 4). -/
def Obligations.IdleStepIsAReferenceEdge : Prop :=
  ∀ (s : State), s.pending = [] → ∃ t, step s = .next t ∧ t.now = s.now + 1 ∧
    (∀ h, t.hall h = if (s.hall h).elapsedOn then { s.hall h with elapsed := (s.hall h).elapsed + 1 } else s.hall h) ∧
    t.porter = (if s.porter.elapsedOn then { s.porter with elapsed := s.porter.elapsed + 1 } else s.porter) ∧
    t = { s with now := t.now, halls := t.halls, porter := t.porter }

/-- Every step keeps the canonical form of the memory (R39, R98, R383, log entry 7). -/
def Obligations.MemoryFormIsKept : Prop :=
  ∀ (s t : State), Memory.wf s.mem = true → step s = .next t → Memory.wf t.mem = true

/-- No step lets an enabled submission ring hold more unclaimed descriptors than its size (R239, R241, R243). -/
def Obligations.SubmissionRingsStayWithinTheirSize : Prop :=
  ∀ (s t : State), s.ringsOk → step s = .next t → t.ringsOk

/-- Reset has a memory in canonical form, rings within their size, no command waiting and nothing claimed or sent (R239, R348, log entry 7). -/
def Obligations.ResetMeetsTheInvariants : Prop :=
  Memory.wf State.reset.mem = true ∧ State.reset.ringsOk ∧ State.reset.pending = [] ∧ State.reset.claims = [] ∧
    State.reset.steps = [] ∧ State.reset.binds = [] ∧ State.reset.out = [] ∧ State.reset.porter.stage = .rom

/-- No command but a firmware update that ends changes a fuse, and that one only raises the SVN counters (R453, R439, R374). -/
def Obligations.FusesStandButForFirmwareCommit : Prop :=
  (∀ (c : Instr) (s : State), (∀ b, c ≠ .fwupdDone b) → Gives c s fun t => t.porter.fuses = s.porter.fuses) ∧
    ∀ (b : Bool) (s : State), Gives (.fwupdDone b) s fun t => s.porter.fuses.Onward t.porter.fuses

/-- No command takes back what the module has sent, moves the clock, touches the queue or returns a free value (R31, R250, R260, R337, log entry 4). -/
def Obligations.CommandsOnlyAddToWhatWasSent : Prop :=
  ∀ (c : Instr) (s : State),
    Gives c s fun t => s.out <+: t.out ∧ t.now = s.now ∧ t.pending = s.pending ∧ s.fresh ≤ t.fresh

/-- A TAIL write is accepted when it stays within the ring and moves forward, and is otherwise refused with ERR (R239). -/
def Obligations.TailDoorbell : Prop :=
  ∀ (h : HallId) (i : SqId) (v : Dword) (s : State), s.hallNet h = true → s.running = true → v.toNat < 2 ^ 32 →
    let r := s.sq h i
    let t : Word := v.truncate 32
    let x := s.hall h
    ((t - r.claimed).toNat ≤ r.size ∧ (t - r.tail).toNat < 2 ^ 31 →
      Gives (.sqTailWrite h i true v) s fun u => HallBecomes s u h { x with sq := sset x.sq i { r with tail := t } }) ∧
    (¬ ((t - r.claimed).toNat ≤ r.size ∧ (t - r.tail).toNat < 2 ^ 31) →
      Gives (.sqTailWrite h i true v) s fun u => HallBecomes s u h { x with sq := sset x.sq i { r with err := true } }) ∧
    (t = r.tail → (r.tail - r.claimed).toNat ≤ r.size →
      Gives (.sqTailWrite h i true v) s fun u => ∀ (k : HallId) (j : SqId), u.sq k j = s.sq k j)

/-- A HEAD write is accepted when it does not pass the records written, and is otherwise refused with ERR (R240). -/
def Obligations.HeadDoorbell : Prop :=
  ∀ (h : HallId) (i : CqId) (v : Dword) (s : State), s.hallNet h = true → s.running = true → v.toNat < 2 ^ 32 →
    let r := s.cq h i
    let t : Word := v.truncate 32
    let x := s.hall h
    ((t - r.head).toNat ≤ (r.tail - r.head).toNat →
      Gives (.cqHeadWrite h i true v) s fun u => HallBecomes s u h { x with cq := sset x.cq i { r with head := t } }) ∧
    (¬ (t - r.head).toNat ≤ (r.tail - r.head).toNat →
      Gives (.cqHeadWrite h i true v) s fun u => HallBecomes s u h { x with cq := sset x.cq i { r with err := true } })

/-- A doorbell takes effect only through one aligned 8-byte write with a zero reserved half, and reads as the last value accepted (R238). -/
def Obligations.DoorbellsTakeOneAlignedWrite : Prop :=
  ∀ (h : HallId) (i : SqId) (j : CqId) (a : Bool) (v : Dword) (s : State),
    (s.hallNet h = true → s.running = true → (a = false ∨ 2 ^ 32 ≤ v.toNat) →
      exec (.sqTailWrite h i a v) s = .next (s.modRegs h fun g => { g with badWrite := true }) ∧
      exec (.cqHeadWrite h j a v) s = .next (s.modRegs h fun g => { g with badWrite := true })) ∧
    (s.hallNet h = true → s.running = true → v.toNat < 2 ^ 32 →
      (Gives (.sqTailWrite h i true v) s fun t =>
        t.readDoorbell h (8 * i) = if sqTailOk (s.sq h i) (v.truncate 32) then v.truncate 32 else s.readDoorbell h (8 * i)) ∧
      (Gives (.cqHeadWrite h j true v) s fun t =>
        t.readDoorbell h (0x800 + 8 * j) =
          if cqHeadOk (s.cq h j) (v.truncate 32) then v.truncate 32 else s.readDoorbell h (0x800 + 8 * j))) ∧
    (s.hallNet h = true → s.running = false →
      exec (.sqTailWrite h i a v) s = .next s ∧ exec (.cqHeadWrite h j a v) s = .next s) ∧
    (s.hallNet h = false →
      exec (.sqTailWrite h i a v) s = .next (s.emit (.accessFault false)) ∧
      exec (.cqHeadWrite h j a v) s = .next (s.emit (.accessFault false)))

/-- Set-up of a ring while disabled takes effect; a base write or a new size while enabled only sets ERR (R241, R464, log entry 11). -/
def Obligations.RingSetUp : Prop :=
  ∀ (h : HallId) (w : Word) (s : State), s.hallNet h = true → s.running = true →
    let i := (s.hall h).regs.sqSel
    let j := (s.hall h).regs.cqSel
    let r := s.sq h i
    let q := s.cq h j
    let n := bits w 4 0
    (r.en = false → 4 ≤ n → n ≤ 16 → bitAt w 6 = true →
      exec (.ringCfgWrite h .sqCfg w) s = .next (s.setSq h i
        { r with log2 := n, prio := bitAt w 5, en := true, err := r.err && !bitAt w 7, tail := 0, claimed := 0 })) ∧
    ((n < 4 ∨ 16 < n) ∨ (r.en = true ∧ bitAt w 6 = true ∧ n ≠ r.log2) →
      exec (.ringCfgWrite h .sqCfg w) s = .next (s.setSq h i { r with err := true })) ∧
    (r.en = true →
      exec (.ringCfgWrite h .sqBaseLo w) s = .next (s.setSq h i { r with err := true }) ∧
      exec (.ringCfgWrite h .sqBaseHi w) s = .next (s.setSq h i { r with err := true })) ∧
    (r.en = false →
      exec (.ringCfgWrite h .sqBaseLo w) s = .next (s.setSq h i { r with base := baseLo r.base w }) ∧
      exec (.ringCfgWrite h .sqBaseHi w) s = .next (s.setSq h i { r with base := baseHi r.base w })) ∧
    (q.en = false → 4 ≤ n → n ≤ 16 → bitAt w 6 = true →
      exec (.ringCfgWrite h .cqCfg w) s = .next (s.setCq h j
        { q with log2 := n, en := true, err := q.err && !bitAt w 7, irqCount := bits w 15 8, irqDelay := bits w 31 16,
                 tail := 0, head := 0, unsig := 0, oldest := none })) ∧
    exec (.ringCfgWrite h .cqVec w) s = .next (s.setCq h j { q with vector := bits w 15 0 })

/-- A claim takes the head descriptor of the ring chosen, counts it and reserves a record (R243, R244, R246, R242, R415, R430). -/
def Obligations.DescriptorIsClaimed : Prop :=
  ∀ (h : HallId) (i : SqId) (s : State), s.running = true → s.claimsStopped = false → s.hallNet h = true →
    s.hallUp h = true →
    (s.claimRing h = none → exec (.claimDescriptor h) s = .next s) ∧
    (s.claimRing h = some i.val →
      let r := s.sq h i
      let d := s.headDesc h i
      let q := descCq d
      (s.cq h q).en = true → fld d 0 16 16 = 0 → knownOpcode (descOpcode d) = true →
      Gives (.claimDescriptor h) s fun t =>
        t.claim? s.nextClaim = some
          { hall := h, sq := i, sqHead := r.claimed + 1, desc := d
            found := if descOpcode d = 0x41 then (s.chan h (fld d 8 0 5)).state.code else 0
            image := if descOpcode d = 0x12 then volImage (s.vol (descVol d)) else 0 } ∧
        t.nextClaim = s.nextClaim + 1 ∧ (∀ c, c ≠ s.nextClaim → t.claim? c = s.claim? c) ∧
        t.sq h i = { r with claimed := r.claimed + 1 } ∧ (∀ j, j ≠ i.val → t.sq h j = s.sq h j) ∧
        t.cq h q = { s.cq h q with res := (s.cq h q).res + 1 } ∧ (∀ j, j ≠ q → t.cq h j = s.cq h j) ∧
        (∀ k, k ≠ h.val → t.hall k = s.hall k) ∧
        t = { s with halls := t.halls, claims := t.claims, nextClaim := t.nextClaim })

/-- A NOP completes with OK: its record is written, its claim ends, and the interrupt follows when IRQ_COUNT is reached; it waits
while its hall is in compute reset (R242, R246, R249, R250). -/
def Obligations.CompletionRecordIsWritten : Prop :=
  ∀ (c : Nat) (x : Claim) (s : State), s.claim? c = some x →
    let q := descCq x.desc
    let r := s.cq x.hall q
    let a := r.base + r.tail.toNat % r.size * 32
    (descOpcode x.desc = 0x3F → x.stage = .claimed → (s.hall x.hall).state = .computeReset → exec (.nop c) s = .next s) ∧
    (descOpcode x.desc = 0x3F → x.stage = .claimed → (s.hall x.hall).state ≠ .computeReset → zeroFrom x.desc 8 0 = true →
      s.porter.host.parkDead = 0 → Gives (.nop c) s fun t =>
        t.read .park a 32 = leBytes 32 (recordOf s x x.hall 0 r.phase 0).toNat ∧
        (∀ (g : Region) (b : Nat), g.number < 8192 → ¬ (g = .park ∧ a ≤ b ∧ b < a + 32) → t.byte g b = s.byte g b) ∧
        t.cq x.hall q = (r.counted (descSilent x.desc) s.now).1 ∧
        t.claim? c = none ∧ (∀ d, d ≠ c → t.claim? d = s.claim? d) ∧
        t.out = (if (r.counted (descSilent x.desc) s.now).2 then s.out ++ [.msi r.vector] else s.out)) ∧
    (∀ (h : HallId) (i : CqId) (o : Nat), (s.cq h i).oldest = some o → (s.cq h i).irqDelay ≠ 0 →
      o + (s.cq h i).irqDelay * 100 ≤ s.now →
      exec (.irqDelayExpire h i) s = .next
        ((s.setCq h i { s.cq h i with unsig := 0, oldest := none }).emit (.msi (s.cq h i).vector)))

/-- CTR_INIT, FLAG_INIT, LOCK_INIT and DROP set the type and value of a cell without waiters, and fail with CLASP_BUSY on one with waiters (R207, R206, R219). -/
def Obligations.ClaspsAreInitialisedAndDropped : Prop :=
  ∀ (rq : Requester) (k : ClaspId) (v : Word) (s : State),
    ((s.clasp k.toNat).waiters = [] →
      (ClaspReady s rq 0x01 k v → exec (.ctrInit rq k v) s = .next (performed s rq k { typ := .counter, val := v })) ∧
      (ClaspReady s rq 0x02 k v → exec (.flagInit rq k v) s = .next (performed s rq k { typ := .flag, val := v &&& 1 })) ∧
      (ClaspReady s rq 0x03 k v → exec (.lockInit rq k v) s = .next (performed s rq k { typ := .lock })) ∧
      (ClaspReady s rq 0x04 k v → exec (.drop rq k v) s = .next (performed s rq k {}))) ∧
    ((s.clasp k.toNat).waiters ≠ [] →
      (ClaspReady s rq 0x01 k v → exec (.ctrInit rq k v) s = .next (settle (claspFail s rq k.toNat Status.claspBusy (s.clasp k.toNat).typ))) ∧
      (ClaspReady s rq 0x02 k v → exec (.flagInit rq k v) s = .next (settle (claspFail s rq k.toNat Status.claspBusy (s.clasp k.toNat).typ))) ∧
      (ClaspReady s rq 0x03 k v → exec (.lockInit rq k v) s = .next (settle (claspFail s rq k.toNat Status.claspBusy (s.clasp k.toNat).typ))) ∧
      (ClaspReady s rq 0x04 k v → exec (.drop rq k v) s = .next (settle (claspFail s rq k.toNat Status.claspBusy (s.clasp k.toNat).typ))))

/-- CTR_ADD, CTR_SET, CTR_ARRIVE and CTR_WAIT on a counter (R207, R208, R214). -/
def Obligations.CounterOperations : Prop :=
  ∀ (rq : Requester) (k : ClaspId) (v : Word) (s : State),
    let c := s.clasp k.toNat
    (c.typ = .counter →
      (ClaspReady s rq 0x10 k v → exec (.ctrAdd rq k v) s = .next (performed s rq k { c with val := c.val + v })) ∧
      (ClaspReady s rq 0x13 k v → exec (.ctrSet rq k v) s = .next (performed s rq k { c with val := v })) ∧
      (ClaspReady s rq 0x12 k v → (c.val - v).toNat < 2 ^ 31 → exec (.ctrWait rq k v) s = .next (performed s rq k c)) ∧
      (ClaspReady s rq 0x12 k v → 2 ^ 31 ≤ (c.val - v).toNat →
        exec (.ctrWait rq k v) s = .next (settle (registerWait s rq 0x12 k v c (.reach v) c))) ∧
      (ClaspReady s rq 0x11 k v → (c.val + 1 - v).toNat < 2 ^ 31 →
        exec (.ctrArrive rq k v) s = .next (performed s rq k { c with val := c.val + 1 })) ∧
      (ClaspReady s rq 0x11 k v → 2 ^ 31 ≤ (c.val + 1 - v).toNat →
        exec (.ctrArrive rq k v) s = .next (settle (registerWait s rq 0x11 k v { c with val := c.val + 1 } (.reach v) c)))) ∧
    (c.typ ≠ .counter →
      (ClaspReady s rq 0x10 k v → exec (.ctrAdd rq k v) s = .next (settle (claspFail s rq k.toNat Status.claspType c.typ))) ∧
      (ClaspReady s rq 0x13 k v → exec (.ctrSet rq k v) s = .next (settle (claspFail s rq k.toNat Status.claspType c.typ))) ∧
      (ClaspReady s rq 0x12 k v → exec (.ctrWait rq k v) s = .next (settle (claspFail s rq k.toNat Status.claspType c.typ))) ∧
      (ClaspReady s rq 0x11 k v → exec (.ctrArrive rq k v) s = .next (settle (claspFail s rq k.toNat Status.claspType c.typ))))

/-- Flag and lock operations: set, clear, wait, take, release only by the owner of a lock that is no orphan, break (R207, R211,
R214, R218, log entry 114). -/
def Obligations.FlagAndLockOperations : Prop :=
  ∀ (rq : Requester) (k : ClaspId) (v : Word) (s : State),
    let c := s.clasp k.toNat
    let own := lockTaken (requesterHall rq) v.toNat
    (c.typ = .flag →
      (ClaspReady s rq 0x20 k v → exec (.flagSet rq k v) s = .next (performed s rq k { c with val := 1 })) ∧
      (ClaspReady s rq 0x21 k v → exec (.flagClear rq k v) s = .next (performed s rq k { c with val := 0 })) ∧
      (ClaspReady s rq 0x22 k v → bitAt c.val 0 = bitAt v 0 → exec (.flagWait rq k v) s = .next (performed s rq k c)) ∧
      (ClaspReady s rq 0x22 k v → bitAt c.val 0 ≠ bitAt v 0 →
        exec (.flagWait rq k v) s = .next (settle (registerWait s rq 0x22 k v c (.flagIs (bitAt v 0)) c)))) ∧
    (c.typ = .lock →
      (ClaspReady s rq 0x30 k v → lockHeld c.val = false →
        exec (.lockTry rq k v) s = .next (performed s rq k { c with val := own })) ∧
      (ClaspReady s rq 0x30 k v → lockHeld c.val = true → exec (.lockTry rq k v) s = .next (settle (claspFail s rq k.toNat
        (if lockOrphan c.val then Status.lockOrphaned else Status.lockBusy) .lock))) ∧
      (ClaspReady s rq 0x31 k v → lockHeld c.val = false →
        exec (.lockTake rq k v) s = .next (performed s rq k { c with val := own })) ∧
      (ClaspReady s rq 0x31 k v → lockHeld c.val = true →
        exec (.lockTake rq k v) s = .next (settle (registerWait s rq 0x31 k v c (.take own.toNat) c))) ∧
      (ClaspReady s rq 0x32 k v → lockHeld c.val = true → lockOrphan c.val = false → lockOwner c.val = v.toNat % 2 ^ 24 →
        lockHall c.val = requesterHall rq → exec (.lockRelease rq k v) s = .next (performed s rq k { c with val := 0 })) ∧
      (ClaspReady s rq 0x32 k v → lockHeld c.val = false ∨ lockOrphan c.val = true ∨ lockOwner c.val ≠ v.toNat % 2 ^ 24 ∨
        lockHall c.val ≠ requesterHall rq →
        exec (.lockRelease rq k v) s = .next (settle (claspFail s rq k.toNat Status.notOwner .lock))) ∧
      (ClaspReady s rq 0x33 k v → exec (.lockBreak rq k v) s = .next (performed s rq k { c with val := 0 })))

/-- After an operation every waiter whose condition holds is woken, in order; a lock passes to the oldest taker alone (R213, R211). -/
def Obligations.WaitersWakeInOrder : Prop :=
  ∀ (c : Clasp) (l : List Waiter),
    ((∀ w ∈ l, ∀ o, w.cond ≠ .take o) →
      (testWaiters c l).2 = l.filter (fun w => condHolds c w.cond) ∧
      (testWaiters c l).1 = { c with waiters := l.filter fun w => !condHolds c w.cond }) ∧
    (∀ (w : Waiter) (o : Nat), w.cond = .take o → 2 ^ 31 ≤ o → o < 2 ^ 32 → (∀ x ∈ l, ∃ p, x.cond = .take p) →
      (lockHeld c.val = true → testWaiters c (w :: l) = ({ c with waiters := w :: l }, [])) ∧
      (lockHeld c.val = false →
        testWaiters c (w :: l) = ({ c with val := BitVec.ofNat 32 o, waiters := l }, [w])))

/-- CLASP_OP presents its operation; one met by a reset or set aside is presented again when due, and so are a packet, a DMA
channel's request and a step's leaf work that a reset answered (R207, R209, R214, R218, R228, R303, log entry 117). -/
def Obligations.ClaspOpAndPresentationsAgain : Prop :=
  ∀ (s : State),
    (∀ (c : Nat) (x : Claim), s.claim? c = some x → descOpcode x.desc = 0x31 → x.stage = .claimed →
      s.hallUp x.hall = true → anySet x.desc [(8, 8, 24), (0x0C, 16, 16), (0x14, 0, 352)] = false →
      exec (.claspOp c) s = .next (settle (claspRequest s (.host c) (fld x.desc 8 0 8)
        (BitVec.ofNat 16 (fld x.desc 0x0C 0 16)) (BitVec.ofNat 32 (fld x.desc 0x10 0 32))))) ∧
    (∀ (rq : Requester) (cop : Nat) (k : ClaspId) (v : Word),
      (s.hall (claspHome k.toNat)).state = .computeReset →
        present s rq cop k v 0 true = setAside (s.noteReset (claspHome k.toNat)) rq cop k v 1 2 true) ∧
    (∀ (i : Nat) (r : Retry), s.retries[i]? = some r →
      let t := { s with retries := s.retries.eraseIdx i }
      let first := ∀ q ∈ s.retries.take i, q.who ≠ r.who ∨ q.clasp ≠ r.clasp
      (r.due ≤ s.now → first → r.interval = 0 →
        exec (.claspRepresent i) s = .next (settle (present t r.who r.cop r.clasp r.opnd 0 r.first))) ∧
      (r.due ≤ s.now → first → 0 < r.interval → exec (.resetBackoffRetry (.clasp i)) s =
        .next (settle (present t r.who r.cop r.clasp r.opnd r.interval r.first))) ∧
      (s.now < r.due ∨ ¬ first →
        exec (.claspRepresent i) s = .next (settle s) ∧ exec (.resetBackoffRetry (.clasp i)) s = .next (settle s))) ∧
    (∀ (h : HallId) (i : Nat) (e : NetSent) (b : Backoff), (s.hall h).netSent[i]? = some e → e.back = some b →
      (s.hallNet h = true → netSends s h e.pkt.src = true → b.ready s.now = true →
        exec (.resetBackoffRetry (.packet h i)) s = .next (netPlace (s.modHall h fun x =>
          { x with netSent := x.netSent.set i { e with back := some { b with due := none } } }) h e.pkt e.inp)) ∧
      (b.ready s.now = false → exec (.resetBackoffRetry (.packet h i)) s = .next s)) ∧
    (∀ (h : HallId) (ch : ChId) (b : Backoff), (s.chan h ch).back = some b →
      let t := s.setChan h ch { s.chan h ch with back := some { b with due := none } }
      (s.hallUp h = true → b.ready s.now = true → (s.chan h ch).move = none →
        exec (.resetBackoffRetry (.dma h ch)) s = .next (nextMove t h ch)) ∧
      (s.hallUp h = true → b.ready s.now = true → (s.chan h ch).move.isSome = true → burstOk t h ch = true →
        exec (.resetBackoffRetry (.dma h ch)) s = .next (burstOne t h ch)) ∧
      (b.ready s.now = false → exec (.resetBackoffRetry (.dma h ch)) s = .next s)) ∧
    (∀ (st : Nat) (x : Step) (h : HallId) (b : Backoff), s.step? st = some x → sfind x.backs h = some b →
      (s.hallUp x.home = true → x.lost = false → b.ready s.now = true →
        exec (.resetBackoffRetry (.item st h)) s = .next (emitItem s st x (some h))) ∧
      (b.ready s.now = false → exec (.resetBackoffRetry (.item st h)) s = .next s))

/-- A BIND is forwarded, fetched, prepared at each hall in rising order, committed, applied and recorded (R221, R225, R226, R227, R230). -/
def Obligations.BindingsArePreparedAndCommitted : Prop :=
  ∀ (s : State),
    (∀ (c : Nat) (x : Claim), s.claim? c = some x → descOpcode x.desc = 0x30 → x.stage = .claimed → s.hallUp x.hall = true →
      (∀ st, bindBodyStatus s x.desc = some st → exec (.bind c) s = .next (s.finish c st)) ∧
      (bindBodyStatus s x.desc = none →
        Gives (.bind c) s fun t => t.nextBind = s.nextBind + 1 ∧ t.mem = s.mem ∧ t.out = s.out ∧
          ∃ b, sfind t.binds s.nextBind = some b ∧ b.claim = c ∧ b.phase = .fetch ∧ b.nact = fld x.desc 8 0 5 ∧
            b.atHall = Fin.ofNat 12 (bindCoord (bindHalls s (readActs s b.list b.nact)) x.hall))) ∧
    (∀ (n : Nat) (b : Binding), sfind s.binds n = some b →
      (b.phase = .fetch → s.hallUp b.atHall = true → bindSlots s b.atHall < bindSlotLimit →
        exec (.bindForward n) s = .next (bindFetch s n b)) ∧
      (∀ h : HallId, b.phase = .prepare → b.nextHall = some h → s.hallUp h = true →
        h = b.coord ∨ bindSlots s h < bindSlotLimit →
        (∀ i st, prepareFails s n b h = some (i, st) →
          exec (.bindPrepare n) s = .next (s.setBind n
            { b with phase := .aborting, status := st, failAct := some i, failHall := h })) ∧
        (prepareFails s n b h = none →
          let y := { b with
            prepared := b.prepared ++ [h], prepAt := sset b.prepAt h s.now,
            locks := b.locks ++ (b.keys s h).map (fun (k : Nat × LockKey) => (h, k.2)) }
          exec (.bindPrepare n) s = .next (s.setBind n
            (if y.nextHall.isNone then { y with phase := .prepared, drops := y.refDrops s } else y)))) ∧
      (b.phase = .prepared → s.hallUp b.coord = true →
        exec (.bindPrepared n) s = .next (s.setBind n { b with phase := .apply })) ∧
      (∀ h : HallId, b.phase = .apply → b.halls.elem h = true → b.applied.elem h = false → s.hallUp h = true →
        memwHeld s b h = false → exec (.bindCommit n h) s = .next (settle ((applyHall s b h (b.still h)).setBind n
          (if (b.doneAt h).halls.all fun g => (b.doneAt h).applied.elem g then { b.doneAt h with phase := .applied }
            else b.doneAt h)))) ∧
      (b.phase = .applied → s.hallUp b.coord = true →
        exec (.bindDone n) s = .next ({ s with binds := sdel s.binds n }.complete b.claim b.coord Status.ok
          ({ b with status := Status.ok }).part)) ∧
      (b.phase = .aborting →
        exec (.bindAbort n) s = .next ({ s with binds := sdel s.binds n }.complete b.claim b.coord b.status b.part)))

/-- A hall lost before the commit point aborts a binding; after it a hall in service finishes it from the log (R229, R385). -/
def Obligations.BindingsAfterAFault : Prop :=
  ∀ (n : Nat) (b : Binding) (s : State), sfind s.binds n = some b →
    (b.phase = .fetch → s.hallUp b.atHall = false →
      exec (.bindForward n) s = .next (s.setBind n { b with
        halls := [b.atHall], phase := .aborting, status := Status.bindAborted, failAct := none, failHall := b.atHall })) ∧
    (∀ h : HallId, b.phase = .prepare → b.nextHall = some h → s.hallUp h = false →
      exec (.bindPrepare n) s = .next (s.setBind n { b with
        phase := .aborting, status := Status.bindAborted, failAct := none, failHall := h })) ∧
    (∀ (h : HallId) (a : Nat), b.phase = .prepare ∨ b.phase = .prepared → sfind b.prepAt h = some a →
      a + 5000 ≤ s.now →
      exec (.bindPrepareTimeout n h) s = .next (s.setBind n { b with
        phase := .aborting, status := Status.bindAborted, failAct := none, failHall := h })) ∧
    (∀ h : HallId, finisher s b = some h → s.hallUp b.coord = false →
      (b.phase = .applied →
        exec (.bindFinishFromLog n) s = .next ({ s with binds := sdel s.binds n }.complete b.claim h Status.ok
          ({ b with status := Status.ok }).part)) ∧
      (b.phase = .apply → (b.logA && b.logB) = false →
        exec (.bindFinishFromLog n) s = .next (settle ((finishRemote s b).1.setBind n
          (if (finishRemote s b).2.halls.all fun g => (finishRemote s b).2.applied.elem g then
            { (finishRemote s b).2 with phase := .applied } else (finishRemote s b).2)))))

/-- Ops leave their queue when a strand is free, become READY when nothing holds them, and retire in order once DONE (R43, R58, R59, R62). -/
def Obligations.SequencerMovesOps : Prop :=
  ∀ (h : HallId) (sw : SwId) (q : QueueId) (s : State), s.swRuns h sw = true →
    let x := s.queue h sw q
    (∀ (o : QueuedOp) (rest : List QueuedOp), x.ops = o :: rest → x.state = .running → x.strands.length < 32 →
      (handoutStatus s h sw q o = none →
        exec (.opHandout h sw q) s = .next (s.setQueue h sw q { x with
          ops := rest, strands := x.strands ++ [{ op := o.op, idx := o.idx, poison := o.poison, state := .waiting }] })) ∧
      (∀ st, handoutStatus s h sw q o = some st →
        exec (.opHandout h sw q) s = .next (haltQueue (s.setQueue h sw q { x with
          ops := rest, strands := x.strands ++ [{ op := o.op, idx := o.idx, poison := o.poison, state := .halted }] })
          h sw q st o.idx))) ∧
    (∀ (i : Fin 32) (t : Strand), x.strands[i.val]? = some t → canReady s h sw q i = true →
      let s1 := s.setQueue h sw q { x with strands := x.strands.set i.val { t with state := .ready, count := x.retired } }
      (¬ (opKind t.op = 0x01 ∧ tAcc t.op = 0) → exec (.opReady h sw q i) s = .next s1) ∧
      (opKind t.op = 0x01 ∧ tAcc t.op = 0 →
        exec (.opReady h sw q i) s = .next (s1.setAcc h sw (tSet t.op) (reserveSet q t.op (chainCuts s1 h sw q i t))))) ∧
    (∀ (t : Strand) (rest : List Strand), x.strands = t :: rest →
      (t.state = .done → exec (.opRetire h sw q) s = .next (s.setQueue h sw q
        { x with strands := rest, retired := x.retired + 1 })) ∧
      (t.state ≠ .done → exec (.opRetire h sw q) s = .next s))

/-- The press runs the TILE op that its arbitration picks; partials of a split chain are added in pairs (R45, R49, R61). -/
def Obligations.PressRunsTiles : Prop :=
  ∀ (h : HallId) (sw : SwId) (s : State), s.swRuns h sw = true →
    (∀ (q i : Nat) (t : Strand), unitPick s h sw (s.stair h sw).pressLast 0x01 = some (q, i) →
      (s.queue h sw q).strands[i]? = some t →
      (splitBlocked s h sw t.op = false → exec (.tile h sw) s = .next (runTile s h sw q i t)) ∧
      (splitBlocked s h sw t.op = true → exec (.tile h sw) s = .next s)) ∧
    (∀ (a : AccId) (base l i j : Nat), (s.accSet h sw a).split = some base → (s.accSet h sw a).pairAt = some (l, i, j) →
      let r := Region.sram h sw
      let p := s.poisonedAt r (splitSlot base i) 8192 || s.poisonedAt r (splitSlot base j) 8192
      let w := ((s.words r (splitSlot base i) 2048).zip (s.words r (splitSlot base j) 2048)).map fun q =>
        (fadd (f32 q.1) (f32 q.2)).toF32
      let x := s.accSet h sw a
      exec (.splitPartialAdd h sw a) s = .next ((s.write r (splitSlot base i) (wordBytes w) p).setAcc h sw a { x with
        partials := (x.partials.filter fun q => q.2 != i && q.2 != j) ++ [(l + 1, i)], poison := x.poison || p }))

/-- Each kernel of the vector engine writes its rows and marks its op DONE (R51, R52, R61, R71, R88, Table 2.8). -/
def Obligations.KernelsRun : Prop :=
  ∀ (h : HallId) (sw : SwId) (q i : Nat) (t : Strand) (s : State), KernelTaken s h sw q i t →
    (kOp t.op = 0x01 → exec (.smMax h sw) s = .next (kernelDone s h sw q i t (rowKernel smMaxRow))) ∧
    (kOp t.op = 0x02 → exec (.smExp h sw) s = .next (kernelDone s h sw q i t (rowKernel smExpRow))) ∧
    (kOp t.op = 0x03 → exec (.smMerge h sw) s = .next (kernelDone s h sw q i t (rowKernel fun k s i =>
      { dst := smMerge (k.src0 s i (kInCols k.op)) (k.src1 s i (kInCols k.op)) }))) ∧
    (kOp t.op = 0x04 → exec (.smNorm h sw) s = .next (kernelDone s h sw q i t (rowKernel fun k s i =>
      { dst := smNorm (k.src0 s i (kInCols k.op)) }))) ∧
    (kOp t.op = 0x10 → exec (.rmsnorm h sw) s = .next (kernelDone s h sw q i t (rowKernel rmsnormRow))) ∧
    (kOp t.op = 0x11 → exec (.layernorm h sw) s = .next (kernelDone s h sw q i t (rowKernel layernormRow))) ∧
    (kOp t.op = 0x20 → exec (.silu h sw) s = .next (kernelDone s h sw q i t (mapKernel fun _ x =>
      fmul x (frecip (fadd numOne (fexp x.neg)))))) ∧
    (kOp t.op = 0x21 → exec (.geluTanh h sw) s = .next (kernelDone s h sw q i t (mapKernel fun _ => geluOf))) ∧
    (kOp t.op = 0x22 → exec (.swiglu h sw) s = .next (kernelDone s h sw q i t (zipKernel fun x y => fmul (siluOf x) y))) ∧
    (kOp t.op = 0x23 → exec (.relu h sw) s = .next (kernelDone s h sw q i t (mapKernel fun _ x =>
      if x.isNan then .nan else if numZero.lt x then x else numZero))) ∧
    (kOp t.op = 0x30 → exec (.rope h sw) s = .next (kernelDone s h sw q i t (rowKernel ropeRow))) ∧
    (kOp t.op = 0x40 → exec (.scale h sw) s = .next (kernelDone s h sw q i t (mapKernel fun d x =>
      fma (f32 (kP0 d)) x (f32 (kP1 d))))) ∧
    (kOp t.op = 0x41 → exec (.ewAdd h sw) s = .next (kernelDone s h sw q i t (zipKernel fadd))) ∧
    (kOp t.op = 0x42 → exec (.ewMul h sw) s = .next (kernelDone s h sw q i t (zipKernel fmul))) ∧
    (kOp t.op = 0x50 → exec (.topk h sw) s = .next (kernelDone s h sw q i t (rowKernel topkRow))) ∧
    (kOp t.op = 0x60 → exec (.convert h sw) s = .next (kernelDone s h sw q i t convertRow)) ∧
    (kOp t.op = 0x70 → exec (.psumAdd h sw) s = .next (kernelDone s h sw q i t (zipKernel fadd))) ∧
    (kOp t.op = 0x71 → exec (.psumPair h sw) s = .next (kernelDone s h sw q i t (rowKernel psumPairRow)))

/-- A kernel or a press op changes only its stairwell, the step that it works for, and bytes of its own SRAM (R40, R51, R61, Table 2.8). -/
def Obligations.StairwellFrame : Prop :=
  ∀ (h : HallId) (sw : SwId) (c : Instr) (s : State),
    ((c ∈ [.smMax h sw, .smExp h sw, .smMerge h sw, .smNorm h sw, .rmsnorm h sw, .layernorm h sw, .silu h sw,
        .geluTanh h sw, .swiglu h sw, .relu h sw, .rope h sw, .scale h sw, .ewAdd h sw, .ewMul h sw, .topk h sw,
        .convert h sw, .psumAdd h sw, .psumPair h sw, .tile h sw] ∨ ∃ a, c = .splitPartialAdd h sw a) →
      Gives c s fun t =>
        (∀ (g : Region) (b : Nat), g.number < 8192 → g.number ≠ (Region.sram h sw).number → t.byte g b = s.byte g b) ∧
        (∀ k v, swKey k v ≠ swKey h sw → t.stair k v = s.stair k v) ∧
        t = { s with stairs := t.stairs, steps := t.steps, mem := t.mem, poison := t.poison }) ∧
    (∀ (q : QueueId) (i : Fin 32),
      (Gives (.opReady h sw q i) s fun t => StairBecomes s t h sw (t.stair h sw)) ∧
      (Gives (.opRetire h sw q) s fun t => StairBecomes s t h sw (t.stair h sw)))

/-- Each landing command at the head of its queue does its work and is DONE with OK (R113, R114, R115, R116, R117, R118, R120, R163). -/
def Obligations.LandingCommandsRun : Prop :=
  ∀ (h : HallId) (sw : SwId) (l : LayerId) (d : Rec64) (kv : Nat) (s : State),
    (LandReady s h sw l d kv →
      (lOp d = 0x01 → exec (.score h sw l) s = .next (landDone (runScore s h sw l d kv) h sw l d)) ∧
      (lOp d = 0x02 → exec (.valueAcc h sw l) s = .next (landDone (runValueAcc s h sw l d kv) h sw l d)) ∧
      (lOp d = 0x03 → exec (.attend h sw l) s = .next (landDone (runAttend s h sw l d kv) h sw l d)) ∧
      (lOp d = 0x04 → exec (.accClear h sw l) s = .next (landDone (s.modLanding h sw l fun x =>
        { x with acc := (lRows d).foldl (fun t i => sset t i { m := 0xFF800000, s := 0, o := [], poison := false }) x.acc })
        h sw l d)) ∧
      (lOp d = 0x05 → exec (.readout h sw l) s = .next (landDone (runReadout s h sw l d) h sw l d)) ∧
      (lOp d = 0x08 → exec (.fill h sw l) s = .next (landDone (s.write (.column h sw) (lDst d)
        (tab (lCount d) fun i => BitVec.ofNat 8 (lPattern d / 2 ^ (8 * (i % 4)))) false) h sw l d)) ∧
      (lOp d = 0x09 → exec (.copy h sw l) s = .next (landDone (runCopy s h sw l d) h sw l d)) ∧
      (lOp d = 0x0A → exec (.pack h sw l) s = .next (landDone (runPack s h sw l d kv) h sw l d)) ∧
      (lOp d = 0x0B → exec (.unpack h sw l) s = .next (landDone (runUnpack s h sw l d kv) h sw l d))) ∧
    (∀ (ok : Bool) (rest : List LandItem) (st : Nat), (s.landing h sw l).queue = .cmd d kv ok :: rest →
      s.colServed h sw = true → (s.landing h sw l).failed = false → landStatus s h sw l d kv ok = some st →
      lOp d = 0x08 →
      exec (.fill h sw l) s = .next (skipUnknown 8 (s.modLanding h sw l fun x => x.doneWith d st) h sw l))

/-- Mode, command, query and mask windows of a landing, chunk boundaries and refreshes (R105, R109, R110, R111, R112, R114, R120, R122, R123, R124). -/
def Obligations.LandingWindows : Prop :=
  ∀ (h : HallId) (sw : SwId) (l : LayerId) (s : State), s.colServed h sw = true →
    let x := s.landing h sw l
    (∀ (page : Fin 16) (w : Rec64), page.val = l.val → modeStatus w = none → x.retired = false →
      exec (.modeWrite h sw page w) s = .next (s.setLanding h sw l (x.modeSet w))) ∧
    (∀ (w : Rec64), exec (.modeWrite h sw 15 w) s = .next ((List.range 12).foldl (fun t k => t.modLanding h sw k fun y =>
      if y.retired then y.refuse Status.layerLost
      else match modeStatus w with
        | some st => y.refuse st
        | none => y.modeSet w) s)) ∧
    (∀ (b : BankId) (out : Bool), x.bank b = .entering out → exec (.bankAccessesDrained h sw l b) s =
      .next (s.setLanding h sw l (x.setBank b (if out then .leaving else .landing)).leave)) ∧
    (∀ (page : Fin 16) (k : Fin 4) (off : Fin 64) (bytes : List Byte), page.val = l.val → off.val + bytes.length ≤ 64 →
      let c := (sget x.slots {} k).fill off bytes
      (bytes.length < 8 → exec (.landingCmdWrite h sw page k off bytes) s =
        .next (s.setLanding h sw l { x with refused := true })) ∧
      (8 ≤ bytes.length → c.mask ≠ BitVec.allOnes 64 → exec (.landingCmdWrite h sw page k off bytes) s =
        .next (s.setLanding h sw l { x with slots := sset x.slots k c })) ∧
      (8 ≤ bytes.length → c.mask = BitVec.allOnes 64 → exec (.landingCmdWrite h sw page k off bytes) s =
        .next (offerCommand (s.setLanding h sw l { x with slots := sset x.slots k {} }) h sw l c.bytes))) ∧
    (∀ (page : Fin 16) (off : Nat) (bytes : List Byte), page.val = l.val → windowRange off bytes.length = true →
      x.buffered + bytes.length ≤ 16384 → exec (.windowWrite h sw page off bytes) s =
        .next (s.setLanding h sw l { x with queue := x.queue ++ [.win off bytes] })) ∧
    (∀ (off : Nat) (bytes : List Byte) (rest : List LandItem), x.queue = .win off bytes :: rest →
      exec (.windowWriteApply h sw l) s =
        .next (skipUnknown 8 (s.setLanding h sw l { x.applyWin off bytes with queue := rest }) h sw l)) ∧
    (∀ (d : Rec64) (kv : Nat) (ok : Bool) (rest : List LandItem), x.queue = .cmd d kv ok :: rest →
      (∀ b ∈ landBanks d kv, x.bank b = .landing ∨ x.bank b = .leaving) →
      exec (.chunkBoundary h sw l) s = .next (s.setLanding h sw l { x with
        chunks := x.chunks + 1, postponed := (landBanks d kv).foldl (fun t b => sset t b 0) x.postponed }) ∧
      ∀ b : BankId, b.val ∈ landBanks d kv → sget x.postponed 0 b < 4 →
        exec (.refreshDue h sw l b) s = .next ((s.setLanding h sw l
          { x with postponed := sset x.postponed b (sget x.postponed 0 b + 1) }).modStair h sw fun y =>
            { y with deferMax := max y.deferMax (sget x.postponed 0 b + 1) })) ∧
    (∀ b : BankId, x.queue = [] →
      exec (.refreshDue h sw l b) s = .next (s.setLanding h sw l { x with postponed := sset x.postponed b 0 }))

/-- FETCH, STORE, core accesses, layouts and scrubbing of a column (R54, R55, R91, R95, R104, R121, R386, R388). -/
def Obligations.NearMemoryAccesses : Prop :=
  ∀ (h : HallId) (sw : SwId) (s : State),
    (∀ (q : QueueId) (i : Nat) (t : Strand), s.swRuns h sw = true → (s.queue h sw q).strands[i]? = some t →
      let c := (s.queue h sw q).col.getD sw
      let n := (fRows t.op - 1) * fColStride t.op + fBytes t.op
      ((s.queue h sw q).col = none ∨ s.colServed h c = true) → s.colRange h c (fCol t.op) n = true →
      ((s.queue h sw q).find (fun t => t.state == .ready && opKind t.op == 0x03) = some i →
        s.colHeld h c (fCol t.op) n false = false →
        let r := moveRows s (.column h c) (fCol t.op) (fColStride t.op) (.sram h sw) (fSram t.op) (fSramStride t.op)
          (fRows t.op) (fBytes t.op)
        let u := touchBanks r.1 h c (fCol t.op) n
        exec (.fetch h sw q) s =
          .next (strandDone (if r.2 then notePoison u (s.queue h sw q).step 0x3FFFF else u) h sw q i)) ∧
      ((s.queue h sw q).find (fun t => t.state == .ready && opKind t.op == 0x04) = some i →
        s.colHeld h c (fCol t.op) n true = false →
        let r := moveRows s (.sram h sw) (fSram t.op) (fSramStride t.op) (.column h c) (fCol t.op) (fColStride t.op)
          (fRows t.op) (fBytes t.op)
        let u := touchBanks r.1 h c (fCol t.op) n
        exec (.store h sw q) s =
          .next (strandDone (if r.2 then notePoison u (s.queue h sw q).step 0x3FFFF else u) h sw q i))) ∧
    (∀ (r : LineReq),
      (s.colServed h sw = false → exec (.nearLineRequest h sw r) s = .next (s.emit (.accessFault false))) ∧
      (s.colServed h sw = true → s.colRange h sw r.addr r.len = true →
        s.colHeld h sw r.addr r.len r.write.isSome = false →
        (∀ b, r.write = some b → b.length = r.len → exec (.nearLineRequest h sw r) s =
          .next ((touchBanks s h sw r.addr r.len).write (.column h sw) r.addr b r.poison)) ∧
        (r.write = none → (touchBanks s h sw r.addr r.len).poisonedAt (.column h sw) r.addr r.len = false →
          exec (.nearLineRequest h sw r) s = .next ((touchBanks s h sw r.addr r.len).emit
            (.readData ((touchBanks s h sw r.addr r.len).read (.column h sw) r.addr r.len)))))) ∧
    (∀ (w : Word), s.hallNet h = true → s.running = true → exec (.layoutApply h w) s = .next (layoutWrite s h w)) ∧
    ((s.stair h sw).layBusy = true →
      let n := (Region.column h sw).number
      let hit := fun (k : Nat) => k % 8192 == n && inChange (s.stair h sw).layChange (k / 8192)
      exec (.layoutReinitDone h sw) s = .next ({ s with
        mem := s.mem.filter fun c => !hit c.1, poison := s.poison.filter fun c => !hit c.1 }.setStair h sw { s.stair h sw with
          layBusy := false, layChange := 0, landed := (s.stair h sw).landed ^^^ (s.stair h sw).layChange })) ∧
    (scrubReady s h sw = true → (s.stair h sw).scrubAddr + 256 < columnEnd → (s.stair h sw).lastScrub.isSome = true →
      s.poisonedAt (.column h sw) (s.stair h sw).scrubAddr 256 = false →
      exec (.scrubStep h sw) s = .next (scrubRegs (s.setStair h sw { s.stair h sw with
        scrubAddr := (s.stair h sw).scrubAddr + 256, lastScrub := some s.now }) h)) ∧
    (∀ (c : Fin 12) (a : Nat), s.porter.host.pscrubEn = true → sfind s.porter.host.pscrubLast c = some a →
      a + 100 ≤ s.now → sget s.porter.host.pscrubAt 0 c + 1 < parkLapUnits →
      Gives (.parkScrubStep c) s fun t => t = { s with porter := t.porter } ∧
        sget t.porter.host.pscrubAt 0 c = sget s.porter.host.pscrubAt 0 c + 1)

/-- Accesses through a vestibule reach the tier; recalls and maintenance take lines out of it (R274, R276, R278). -/
def Obligations.VestibuleAccessesAndMaintenance : Prop :=
  ∀ (h : HallId) (s : State), s.hallNet h = true →
    (∀ (r : VestReq), tierRange s r.space r.addr r.len = true →
      (r.write = none → exec (.vestAccess h r) s = .next
        ((tierPass s h r.space r.addr r.len r.hint false).emit (.readData (tierRead s r.space r.addr r.len)))) ∧
      (∀ b, r.write = some b → b.length = r.len → exec (.vestAccess h r) s = .next
        (tierWrite (tierPass s h r.space r.addr r.len r.hint true) r.space r.addr b r.poison))) ∧
    (∀ (sp : TierSpace) (unit : Nat) (whole : Bool),
      (Gives (.vestRecall sp unit (some h) true whole) s fun t => ∀ g : HallId, g ≠ h →
        sfind (t.hall g).vest (vestKey sp unit) = none) ∧
      (Gives (.vestRecall sp unit (some h) false whole) s fun t => ∀ g : HallId,
        (g = h → (t.hall g).vest = (s.hall g).vest) ∧
        ∀ l, g ≠ h → sfind (s.hall g).vest (vestKey sp unit) = some l →
          sfind (t.hall g).vest (vestKey sp unit) = some { l with dirty := false })) ∧
    (s.running = true →
      ((s.hall h).regs.vestBusy = false →
        (Gives (.evict h) s fun t => (t.hall h).regs.vestBusy = true ∧ (t.hall h).regs.maintOp = 1 ∧
          ∀ k, inMaint (s.hall h).regs k = true → sfind (t.hall h).vest k = none) ∧
        exec (.unkeep h) s = .next ((s.modRegs h fun g => { g with vestBusy := true, maintOp := 2 }).modHall h fun x =>
          { x with vest := x.vest.map fun p =>
              if p.2.keep && inMaint x.regs p.1 then (p.1, { p.2 with keep := false, first := true }) else p })) ∧
      ((s.hall h).regs.vestBusy = true →
        exec (.evict h) s = .next (s.modRegs h fun g => { g with vestErr := true }) ∧
        exec (.unkeep h) s = .next (s.modRegs h fun g => { g with vestErr := true }))) ∧
    exec (.vestMaintDone h) s = .next (s.modRegs h fun g => { g with vestBusy := false, maintOp := 0 })

/-- DMA_START loads a program or a register set or is refused; DMA_STOP stops a channel and answers its state; set-up writes (R261, R262, R265, R268, R272, Table 9.7). -/
def Obligations.DmaTransfersStartAndStop : Prop :=
  ∀ (c : Nat) (k : Claim) (s : State), s.claim? c = some k → k.stage = .claimed → s.hallUp k.hall = true →
    let n := fld k.desc 8 0 5
    let ch : ChId := Fin.ofNat 32 n
    let x := s.chan k.hall ch
    (descOpcode k.desc = 0x40 →
      (∀ st, startStatus s x k.desc = some st →
        exec (.dmaStart c) s = .next (s.complete c k.hall st (dmaPart 0 0 n false 0 0))) ∧
      (startStatus s x k.desc = none → x.mode = false →
        let l := tab (startCount k.desc) fun i => s.record32 .park (startAddr k.desc + 32 * i)
        (∀ i st, programFail l = some (i, st) →
          exec (.dmaStart c) s = .next (s.complete c k.hall st (dmaPart 0 i n false 0 0))) ∧
        (programFail l = none → exec (.dmaStart c) s = .next
          ((s.setChan k.hall ch { x.idle with state := .running, prog := l, claim := some c }).setStage c .running))) ∧
      (startStatus s x k.desc = none → x.mode = true → olderWaits s k.hall n c = false →
        (∀ y, loadSet x (startMove k.desc) c = some y →
          exec (.dmaStart c) s = .next ((s.setChan k.hall ch y).setStage c .running)) ∧
        (loadSet x (startMove k.desc) c = none → exec (.dmaStart c) s = .next (s.setStage c .waiting)))) ∧
    (descOpcode k.desc = 0x41 → zeroFrom k.desc 8 5 = true → n < 24 →
      (x.stop = none → x.state = .idle →
        exec (.dmaStop c) s = .next (s.complete c k.hall Status.ok (stopPart n k.found))) ∧
      (x.stop = none → x.state ≠ .idle → exec (.dmaStop c) s = .next (stopChannel (s.setStage c .running) k.hall ch
        { status := Status.dmaStopped, other := Status.dmaStopped, stops := [(c, k.found)] })) ∧
      (∀ e, x.stop = some e → exec (.dmaStop c) s = .next ((s.setStage c .running).setChan k.hall ch
        { x with stop := some { e with stops := e.stops ++ [(c, k.found)] } }))) ∧
    (∀ (h : HallId) (w : Word), s.hallNet h = true → s.running = true → (s.hall h).regs.chSel < 24 →
      let j := (s.hall h).regs.chSel
      let y := s.chan h j
      (y.state = .idle → exec (.dmaChCfgWrite h w) s = .next (s.setChan h j
        { y with mode := bitAt w 0, prio := bitAt w 1, en := bitAt w 2, err := y.err && !bitAt w 3 })) ∧
      (y.state ≠ .idle → bitAt w 0 ≠ y.mode ∨ bitAt w 1 ≠ y.prio →
        exec (.dmaChCfgWrite h w) s = .next (s.setChan h j { y with err := true })))

/-- MOVE, LOOP, WAIT, SIGNAL and END of a channel, its bursts and the answers to its writes (R263, R264, R266, R267, R269, R271). -/
def Obligations.DmaInstructionsRun : Prop :=
  ∀ (h : HallId) (ch : ChId) (s : State), s.hallUp h = true →
    let x := s.chan h ch
    (x.mode = false → ∀ d : Rec32, x.instr = some d → x.state = .running → x.move = none →
      (iCode d = 0x01 → x.presents = true →
        let k := { x with prog := x.prog.set x.pc (bumped d), move := some { instr := d } }
        ((moveCheck s h d (mvSrc d) (mvDst d) (mvLen d)).1 = .ok →
          exec (.dmaMove h ch) s = .next (s.setChan h ch { k with back := none })) ∧
        (∀ st sp side, moveCheck s h d (mvSrc d) (mvDst d) (mvLen d) = (.bad st, sp, side) →
          exec (.dmaMove h ch) s = .next (stopChannel (s.setChan h ch k) h ch (moveError k st sp side true)))) ∧
      (iCode d = 0x02 → sget x.loops 0 x.pc < lpCount d → exec (.dmaLoop h ch) s = .next (s.setChan h ch
        { x with loops := sset x.loops x.pc (sget x.loops 0 x.pc + 1), pc := x.pc - lpBack d })) ∧
      (iCode d = 0x02 → lpCount d ≤ sget x.loops 0 x.pc → exec (.dmaLoop h ch) s = .next (s.setChan h ch
        { x with loops := sset x.loops x.pc 0, pc := x.pc + 1 })) ∧
      (iCode d = 0x03 → wtLineKind d = true → lineHolds s h x (wtLine d) = true →
        exec (.dmaWait h ch) s = .next (s.setChan h ch { x with state := .running, pc := x.pc + 1 })) ∧
      (iCode d = 0x03 → wtLineKind d = true → lineHolds s h x (wtLine d) = false →
        exec (.dmaWait h ch) s = .next (s.setChan h ch { x with state := .waiting })) ∧
      (iCode d = 0x03 → wtLineKind d = false → exec (.dmaWait h ch) s = .next (settle (claspRequest s (.dma h ch) (wtCop d)
        (BitVec.ofNat 16 (wtClasp d)) (BitVec.ofNat 32 (wtOperand d))))) ∧
      (iCode d = 0x04 → chanUnanswered s h ch = false → exec (.dmaSignal h ch) s = .next (settle (claspRequest
        (s.setChan h ch { x with state := .draining }) (.dma h ch) (wtCop d)
        (BitVec.ofNat 16 (wtClasp d)) (BitVec.ofNat 32 (wtOperand d))))) ∧
      (iCode d = 0x0F → chanUnanswered s h ch = false →
        let u := s.setChan h ch { x with state := .draining }
        exec (.dmaEnd h ch) s = .next ((dmaRecord u h ch x.claim Status.ok x.bytes x.pc false 0 0).setChan h ch x.idle)) ∧
      (chanUnanswered s h ch = true →
        (iCode d = 0x04 → exec (.dmaSignal h ch) s = .next (s.setChan h ch { x with state := .draining })) ∧
        (iCode d = 0x0F → exec (.dmaEnd h ch) s = .next (s.setChan h ch { x with state := .draining })))) ∧
    (∀ (d : Rec32) (c : Nat), x.mode = true → x.state = .running → x.move = none → x.presents = true →
      x.nextB = false → x.setA = some (d, c) → (moveCheck s h d (mvSrc d) (mvDst d) (mvLen d)).1 = .ok →
      exec (.dmaMove h ch) s = .next (s.setChan h ch
        { x with setA := none, nextB := true, move := some { instr := d, claim := some c }, back := none })) ∧
    (∀ r : MoveRun, burstPick s h = some ch.val → x.move = some r →
      let d := r.instr
      let n := burstLen s h r
      let src := if mvSrcSpace d = 4 then mvSrc d else mvSrc d + r.issued
      let dst := if mvDstSpace d = 4 then mvDst d else mvDst d + r.issued
      let u := s.modHall h fun y => if x.prio then { y with dmaLastHi := ch.val } else { y with dmaLast := ch.val }
      (moveCheck u h d src dst n).1 = .ok →
      exec (.dmaBurst h) s = .next ((burstMove u h ch r src dst n).setChan h ch (burstDone x r dst n))) ∧
    (x.mode = true →
      (∀ r : MoveRun, x.tailMv = some r → txBytes s h (fun q => q.ch == some ch && q.claim == r.claim) = 0 →
        exec (.dmaWritesAnswered h ch) s = .next (shadowDone s h ch x r)) ∧
      (x.tailMv = none → exec (.dmaWritesAnswered h ch) s = .next (s.setChan h ch { x with wrote := [] }))) ∧
    (x.mode = false →
      exec (.dmaWritesAnswered h ch) s = .next (drained (s.setChan h ch { x with wrote := [] }) h ch))

/-- PLAN_LOAD loads the lowest free plan number or loads nothing; PLAN_UNLOAD removes a plan no volume uses (R256, R257, Table 8.13). -/
def Obligations.PlansAreLoadedAndUnloaded : Prop :=
  ∀ (c : Nat) (k : Claim) (s : State),
    (Begins s c 0x01 k →
      let bad := anySet k.desc [(0x0C, 8, 24), (0x10, 0, 384)]
      let g := readImage s (fld k.desc 8 0 40)
      let p := g.loaded s
      let n := s.freePlan
      (bad = true → exec (.planLoad c) s = .next (s.complete c 15 Status.badReserved (planPart 0 { status := 0 }))) ∧
      (∀ f, bad = false → planCheck s (fld k.desc 8 0 40) = some f →
        exec (.planLoad c) s = .next (s.complete c 15 f.status (planPart 0 f))) ∧
      (bad = false → planCheck s (fld k.desc 8 0 40) = none → exec (.planLoad c) s = .next
        ((copyPlan (applyClasps { s with plans := sset s.plans n p } p) g).complete c 15 Status.ok
          (planPart n { status := 0 })))) ∧
    (Begins s c 0x02 k → anySet k.desc [(8, 16, 16), (0x0C, 0, 416)] = false →
      let n := fld k.desc 8 0 16
      let used := s.vols.any fun v => v.2.plan == n && v.2.state != .free
      (sfind s.plans n = none →
        exec (.planUnload c) s = .next (s.complete c 15 Status.noPlan (planPart 0 { status := 0 }))) ∧
      (∀ p, sfind s.plans n = some p → used = true →
        exec (.planUnload c) s = .next (s.complete c 15 Status.planInUse (planPart 0 { status := 0 }))) ∧
      (∀ p, sfind s.plans n = some p → used = false → exec (.planUnload c) s = .next
        ((releaseQueues { s with plans := sdel s.plans n } p).complete c 15 Status.ok (planPart n { status := 0 }))))

/-- VOL_OPEN opens a FREE volume or refuses in the order of Table 5.2; VOL_QUERY and HINT_QUERY write what they read (R133, R134, R140, R154, R160, R161, R174, Table 5.2). -/
def Obligations.VolumesOpenAndAreQueried : Prop :=
  ∀ (c : Nat) (k : Claim) (s : State),
    let v := descVol k.desc
    let a := fld k.desc 0x10 0 32 + fld k.desc 0x14 0 8 * 2 ^ 32
    (Begins s c 0x10 k → openBad s k.desc = none → (s.vol v).state = .free →
      volGate s c k v (openHome s k.hall v) false = .go →
      (∀ st, openStatus s k.desc = some st → exec (.volOpen c) s = .next (volDone s c v st 0)) ∧
      (∀ st, openStatus s k.desc = none → openVolume s k.hall v k.desc = .error st →
        exec (.volOpen c) s = .next (volDone s c v st 0)) ∧
      (∀ t, openStatus s k.desc = none → openVolume s k.hall v k.desc = .ok t → exec (.volOpen c) s = .next
        (volDone t c v Status.ok (if (t.vol v).linked then (t.spine v).length else 0)))) ∧
    (Begins s c 0x12 k → s.hallUp k.hall = true → queryBad s k.desc = none →
      let g := volGate s c k v ((s.vol v).home == k.hall.val) true
      (g = .go → exec (.volQuery c) s = .next
        (volDone (s.write .park a (leBytes 128 k.image.toNat) false) c v Status.ok 0)) ∧
      (g = .wait → exec (.volQuery c) s = .next (s.setStage c .waiting)) ∧
      (∀ st, g = .fail st → exec (.volQuery c) s = .next (volDone s c v st 0))) ∧
    (Begins s c 0x1A k → s.hallUp k.hall = true → hintBad s k.desc = none →
      let l := (hintOrder s k.hall).take (fld k.desc 8 0 9)
      exec (.hintQuery c) s = .next ((s.write .park a
        (l.flatMap fun q => leBytes 8 (hintEntry s k.hall q).toNat) false).complete c k.hall Status.ok
        (put 256 0x18 0 32 l.length)))

/-- VOL_CLOSE, FM_SEAL, CHECKPOINT, PARK and SHELVE act in the states Table 5.2 gives, else complete with BAD_STATE (R137, R140, R151, R156, R157, R158, R166, R167, R170, Table 5.2). -/
def Obligations.VolumesMoveBetweenTheirStates : Prop :=
  ∀ (c : Nat) (k : Claim) (s : State),
    let v := descVol k.desc
    let x := s.vol v
    (VolReady s c 0x11 k plainBad →
      (x.state ∈ [VolState.live, .parked, .shelved, .faulted] → exec (.volClose c) s = .next
        (volDone (closeVolume s v) c v Status.ok 0)) ∧
      (x.state ∉ [VolState.live, .parked, .shelved, .faulted] → (s.job v).poisoned = false →
        exec (.volClose c) s = .next (volDone s c v Status.badState 0))) ∧
    (VolReady s c 0x13 k plainBad →
      (x.state ≠ .live → exec (.fmSeal c) s = .next (volDone s c v Status.badState 0)) ∧
      (x.state = .live → (x.linked = true ∨ x.window ≠ 0 ∨ x.fm = true) →
        exec (.fmSeal c) s = .next (volDone s c v Status.fmInvalid 0)) ∧
      (∀ t, x.state = .live → x.linked = false → x.window = 0 → x.fm = false → sealVolume s v = .ok t →
        exec (.fmSeal c) s = .next (volDone t c v Status.ok 0))) ∧
    (VolReady s c 0x14 k plainBad →
      (x.state ≠ .live → exec (.checkpoint c) s = .next (volDone s c v Status.badState 0)) ∧
      (x.state = .live → (s.job v).wb.isSome = true → exec (.checkpoint c) s = .next (s.setStage c .waiting)) ∧
      (x.state = .live → (s.job v).wb = none →
        exec (.checkpoint c) s = .next ((startWriteBack s v (some c) false).setStage c .running))) ∧
    (VolReady s c 0x15 k parkBad →
      (x.state ≠ .live → exec (.park c) s = .next (volDone s c v Status.badState 0)) ∧
      (x.state = .live → x.fm = true → 0 < x.liveLinks → fld k.desc 8 20 1 = 0 →
        exec (.park c) s = .next (volDone s c v Status.fmInUse 0)) ∧
      (x.state = .live → x.fm = false ∨ x.liveLinks = 0 ∨ fld k.desc 8 20 1 ≠ 0 → exec (.park c) s = .next
        ((startWriteBack ((cancelStaging s v).setVolState v .parking) v (some c) true).setStage c .running))) ∧
    (VolReady s c 0x16 k plainBad →
      let l := ((s.spine v).filter fun q => shelves q.2).map fun q => q.1
      (x.state ≠ .parked → exec (.shelve c) s = .next (volDone s c v Status.badState 0)) ∧
      (x.state = .parked → reserveFar (farGranules (s.planOf v) x.parkFmt) l [] s = none →
        exec (.shelve c) s = .next (volDone s c v Status.noFarSpace 0)) ∧
      (∀ far t, x.state = .parked → reserveFar (farGranules (s.planOf v) x.parkFmt) l [] s = some (far, t) →
        exec (.shelve c) s = .next (shelveDone ((((cancelStaging t v).modJob v fun j =>
          { j with shelve := some (c, pairsOf l, far) }).setVolState v .shelving).setStage c .running) v)))

/-- RESUME reserves and stages, RECOVER rolls a FAULTED volume back, VOL_REHOME moves a volume from a fenced home (R140, R168, R172, R173, R332, Table 5.2). -/
def Obligations.VolumesResumeRecoverAndMoveHome : Prop :=
  ∀ (c : Nat) (k : Claim) (s : State),
    let v := descVol k.desc
    let x := s.vol v
    (VolReady s c 0x17 k resumeBad →
      let r := resumeVolume s v (BitVec.ofNat 12 (fld k.desc 0x0C 0 12)) c
      (x.state ≠ .parked → x.state ≠ .shelved → exec (.resume c) s = .next (volDone s c v Status.badState 0)) ∧
      (x.state = .parked ∨ x.state = .shelved →
        (sfind s.plans x.plan = none → exec (.resume c) s = .next (volDone s c v Status.noPlan 0)) ∧
        ((sfind s.plans x.plan).isSome = true →
          (∀ st, r = .error st → exec (.resume c) s = .next (volDone s c v st 0)) ∧
          (∀ t, r = .ok t →
            (pfvKnown s.fwMajor < x.pfv ∨ x.pfv = 0 → exec (.resume c) s = .next (volDone s c v Status.pfvUnknown 0)) ∧
            (x.pfv ≤ pfvKnown s.fwMajor → x.pfv ≠ 0 → exec (.resume c) s = .next (t.setStage c .running)))))) ∧
    (VolReady s c 0x18 k plainBad →
      (x.state = .faulted → exec (.recover c) s = .next
        (volDone (recoverVolume s v) c v Status.ok (x.tokens - x.ckpt).toNat)) ∧
      (x.state ≠ .faulted → exec (.recover c) s = .next (volDone s c v Status.badState 0))) ∧
    (Begins s c 0x19 k → s.hallUp k.hall = true → plainBad s k.desc = none → (s.job v).poisoned = false →
      heldEntries s k.hall < 16384 →
      (x.state = .free → exec (.volRehome c) s = .next (volDone s c v Status.badState 0)) ∧
      (x.state ≠ .free → s.hallFenced x.home = false →
        exec (.volRehome c) s = .next (volDone s c v Status.homeInService 0)) ∧
      (x.state ≠ .free → s.hallFenced x.home = true → volLocked s v = false →
        exec (.volRehome c) s = .next (volDone (settleLost (settleVolume (s.modVol v fun y =>
          { y with home := k.hall.val, lastElapsed := (s.hall k.hall).elapsed, lastPuc := s.porter.powerup }) v) v)
          c v Status.ok 0)))

/-- The events of a write-back, a park, a shelve and a staging do what they finish, for a volume whose home usher runs (R159, R161, R165, R166, R167, R168, R170, R177, Table 5.2). -/
def Obligations.TierMovementsFinish : Prop :=
  ∀ (v : VolId) (s : State),
    let j := s.job v.toNat
    let x := s.vol v.toNat
    (j.wb = none → exec (.writebackCopiesDone v) s = .next s) ∧
    (j.parkClaim = none → exec (.parkNearReleased v) s = .next s) ∧
    (j.staging = none → exec (.resumeEligible v) s = .next s ∧ ∀ i, exec (.leafStaged v i) s = .next s) ∧
    (j.shelve = none → ∀ pair, exec (.shelveLeavesCommitted v pair) s = .next s) ∧
    (volRuns s v.toNat = true → spinePoisoned s v.toNat = false →
      (∀ w, j.wb = some w → (w.copied.all fun q => leafReady s v.toNat q.1) = true →
        let t := commitWriteBack (w.copied.foldl (fun s q => writeBackLeaf s v.toNat q.1) s) v.toNat w
        (w.claim = none → exec (.writebackCopiesDone v) s = .next (dueWriteBack t v.toNat)) ∧
        (∀ c, w.claim = some c → w.park = false → exec (.writebackCopiesDone v) s = .next
          (dueWriteBack (volDone t c v.toNat Status.ok w.copied.length) v.toNat)) ∧
        (∀ c, w.claim = some c → w.park = true → exec (.writebackCopiesDone v) s = .next
          (t.modJob v.toNat fun y => { y with parkClaim := some c, parked := w.copied.length }))) ∧
      (∀ c, j.parkClaim = some c → x.state = .parking → j.wb = none →
        let t := dropReserves (nearToPark s v.toNat fun _ _ => true) v.toNat
        exec (.parkNearReleased v) s = .next (volDone ((t.modJob v.toNat fun y =>
          { y with parkClaim := none }).setVolState v.toNat .parked) c v.toNat Status.ok j.parked)) ∧
      (∀ (g : Staging) (c : Nat), j.staging = some g → g.claim = some c → x.state = .resuming → g.elig = [] →
        let n := parkedFor s v.toNat
        exec (.resumeEligible v) s = .next (volDone (((((s.modJob v.toNat fun y =>
          { y with staging := some { g with claim := none } }).modVol v.toNat fun y =>
          { y with ewma := if y.resumes = 0 then n else (3 * y.ewma + n) / 4, resumes := min (y.resumes + 1) 65535 }).modHost
          fun d => { d with resumeCount := min (d.resumeCount + 1) (2 ^ 32 - 1) }).setVolState v.toNat .live))
          c v.toNat Status.ok g.staged)) ∧
      (∀ (g : Staging) (i : Nat) (r : Reserve), j.staging = some g → g.todo.find? (fun q => q.1 == i) = some (i, r) →
        leV (s.leaf v.toNat i) = true → leTier (s.leaf v.toNat i) = 1 ∨ leTier (s.leaf v.toNat i) = 2 →
        slotReady s r.hall r.sw r.slot true = true →
        exec (.leafStaged v i) s = .next ((stageLeaf s v.toNat i r).modJob v.toNat fun y =>
          { y with staging := some { g with todo := g.todo.filter fun t => t.1 != i,
                                            elig := g.elig.filter fun t => t != i, staged := g.staged + 1 } })) ∧
      (∀ (c : Nat) (l : List Nat) (far : Sparse Nat) (pair : Nat), j.shelve = some (c, l, far) → pair ∈ l →
        s.porter.host.portbCxl = true →
        let gen := s.editGen v.toNat
        let t := ((s.spine v.toNat).filter fun q => shelves q.2 && q.1 / 512 == pair).foldl (fun t q =>
          match sfind far q.1 with
          | some g => shelveLeaf t v.toNat q.1 g gen
          | none => t) s
        exec (.shelveLeavesCommitted v pair) s = .next (shelveDone (((t.sgenUp v.toNat true).recount v.toNat).modJob v.toNat
          fun y => { y with shelve := some (c, l.erase pair, far) }) v.toNat)))

/-- STEP_DECODE, STEP_VERIFY and STEP_PREFILL claim a LIVE volume and try its lane, or are refused; LANE_LOCK_RETRY, PIN_REQUEST,
WALK_ITEM_EMIT, STEP_TIMEOUT and STEP_ABORT take a step on or end it (R155, R183, R184, R185, R186, R188, R189, R204, R247, R258). -/
def Obligations.StepsAreClaimedWalkedAndEnded : Prop :=
  (∀ (c : Nat) (k : Claim) (s : State),
    (StepFits s c 0x20 k .decode → exec (.stepDecode c) s = .next (stepClaimed s c k .decode)) ∧
    (StepFits s c 0x21 k .verify → exec (.stepVerify c) s = .next (stepClaimed s c k .verify)) ∧
    (StepFits s c 0x22 k .prefill → exec (.stepPrefill c) s = .next (stepClaimed s c k .prefill)) ∧
    (∀ (op : StepOp) (code : Nat) (i : Instr),
      (op, code, i) ∈ [(StepOp.decode, 0x20, Instr.stepDecode c), (.verify, 0x21, .stepVerify c),
        (.prefill, 0x22, .stepPrefill c)] → VolReady s c code k (stepBad op) →
      let v := descVol k.desc
      let x := s.vol v
      ((x.state ≠ .live ∨ x.fm = true) → exec i s = .next (refuseStep s c v Status.badState (0, 0, false))) ∧
      (x.state = .live → x.fm = false → 64 ≤ x.dirty → exec i s = .next (dueWriteBack (s.setStage c .waiting) v)) ∧
      (x.state = .live → x.fm = false → x.dirty < 64 → (op = .verify → (s.planOf v).head = true) →
        (∀ st, inputStatus op (tab (sdRows k.desc) fun r => inputRec s k.desc r) = some st →
          exec i s = .next (refuseStep s c v st (0, 0, false))) ∧
        (∀ u, inputStatus op (tab (sdRows k.desc) fun r => inputRec s k.desc r) = none →
          placeBad s v (sdRows k.desc) = false → fencedUnit s (s.planOf v) = some u →
          exec i s = .next (refuseStep s c v Status.unitFenced u))))) ∧
  (∀ (st : Nat) (x : Step) (s : State), s.step? st = some x → s.hallUp x.home = true →
    let v := x.vol.toNat
    let f := (s.vol v).fmLink.toNat
    let k := laneClasp (s.planOf v) x.lane 0
    (x.phase = .lane → (s.hall (claspHome k)).state = .enabled → claspLocked s (BitVec.ofNat 16 k) = false →
      (∀ y, cellOp (s.clasp k) x.home 0x30 (BitVec.ofNat 32 (usherOwner x.usher)) true = .ok y →
        exec (.laneLockRetry st) s = .next (settle (beginStep (storeCell s k y) st))) ∧
      (cellOp (s.clasp k) x.home 0x30 (BitVec.ofNat 32 (usherOwner x.usher)) true = .fail Status.lockBusy →
        exec (.laneLockRetry st) s = .next (settle s))) ∧
    (∀ d, x.phase = .run ∨ x.phase = .claim → x.deadline = some d → d ≤ s.now →
      exec (.stepTimeout st) s = .next (endStep s st Status.timeout (0, 0, false))) ∧
    (x.phase ≠ .lane → x.pinsDone = false → (s.vol v).linked = true → volRuns s f = true →
      ((sharedRead s v).any fun i => 65535 ≤ (s.ref f i).pin) = false →
      exec (.pinRequest st true) s = .next (settle (endClaim (((sharedRead s v).foldl (fun s i =>
        s.setRef f i { s.ref f i with pin := (s.ref f i).pin + 1 }) s).modStep st fun y =>
        { y with pinned := sharedRead s v, pinsDone := true }) st))) ∧
    (x.phase = .claim → exec (.walkItemEmit st) s = .next (settle (endClaim s st))) ∧
    (∀ (h : HallId) (sw : SwId) (i : WorkItem) (rest : List (HallId × SwId × WorkItem)), x.phase = .run →
      x.todo = (h, sw, i) :: rest → x.backs = [] → x.lost = false → volLocked s v = false → pinsReady s x = true →
      s.swRuns h sw = true → (s.stair h sw).items.length < 64 →
      exec (.walkItemEmit st) s = .next ((s.modStair h sw fun y => { y with items := y.items ++ [i] }).setStep st
        { x with todo := rest }))) ∧
  (∀ (st : Nat) (f : Nat) (l : List Nat) (s : State), sfind s.unpins st = some (f, l) → volRuns s f = true →
    exec (.pinRequest st false) s = .next ((lowerPins { s with unpins := sdel s.unpins st } f l).unkeep st)) ∧
  (∀ (c : Nat) (k : Claim) (s : State), Begins s c 0x23 k → s.hallUp k.hall = true →
    let v := descVol k.desc
    let x := s.vol v
    zeroFrom k.desc 8 26 = true → x.state = .running → sdLane k.desc < (s.planOf v).lanes → x.home = k.hall.val →
    (s.job v).poisoned = false →
    let waits := s.claims.find? fun p => [0x20, 0x21, 0x22].contains (descOpcode p.2.desc) && p.2.stage == .waiting
      && descVol p.2.desc == v && sdLane p.2.desc == sdLane k.desc
    (∀ p, waits = some p → exec (.stepAbort c) s = .next
      (volDone (refuseStep s p.1 v Status.aborted (0, 0, false)) c v Status.ok 0)) ∧
    (waits = none →
      ∀ (n : Nat) (y : Step), (s.steps.find? fun p => p.2.vol.toNat == v && p.2.lane == sdLane k.desc) = some (n, y) →
        (y.endable = true → exec (.stepAbort c) s = .next
          (volDone (endStep s n Status.aborted (0, 0, false)) c v Status.ok 0)) ∧
        (y.endable = false → exec (.stepAbort c) s = .next (volDone s c v Status.badState 0))))

/-- LEAF_APPEND, LEAF_ATTEND, LEAF_MOVE and LEAF_GATHER run their item, BOARD_SEND_ROWS broadcasts a layer's rows, MERGE_FORWARD and
PARTIAL_ARRIVE carry merged rows on, STEP_DECIDE commits or ends a step, STEP_RUN_VOID voids a run (R190, R192, R193, R195, R196,
R197, R198, R199, R200, R201, R202, R394). -/
def Obligations.LeafWorkAndDecisions : Prop :=
  (∀ (h : HallId) (sw : SwId) (n : Nat) (i : WorkItem) (x : Step) (b : Board) (s : State),
    let u := itemGone s h sw n
    let v := x.vol.toNat
    let p := u.planOf v
    let col := Region.column h i.owner
    (ItemTaken s h sw (fun s _ i => i.kind == .append && (rowsFor s h sw i).isSome) n i x b →
      ∀ t, rowsFor u h sw i = some t →
      ((List.range i.newCount).any fun j => u.colHeld h i.owner (keyAt p i.slot (i.rowTo + j)) p.rowLen true
        || u.colHeld h i.owner (valueAt p i.slot (i.rowTo + j)) p.rowLen true) = false →
      u.colServed h i.owner = true → volLocked u v = false →
      ((List.range i.newCount).any fun j =>
        beatPoison (t.keys.getD (i.newBase + j) []) || beatPoison (t.values.getD (i.newBase + j) [])) = false →
      let z := (List.range i.newCount).foldl (fun s j => appendRow s p t col i.slot (i.newBase + j) (i.rowTo + j)) u
      exec (.leafAppend h sw) s = .next (if x.blocks.any fun k => k.idx == i.index then z else setDt z v i.index)) ∧
    (ItemTaken s h sw (attendReady h sw) n i x b → ∀ t, rowsFor u h sw i = some t →
      (i.press = true → (u.accSet h sw 6).isOpen = false → (u.accSet h sw 7).isOpen = false →
        u.colHeld h i.owner (i.slot * 65536) 65536 false = false →
        let r := pressAttend u h i x p t
        (r.any fun q => q.poison) = false → exec (.leafAttend h sw) s = .next (u.modStep i.step fun y =>
          { y with hops := hopMod y.hops i.layer h sw (fun k => k.own r), press := true })) ∧
      (i.press = false → landingServes u h i = true → (u.landing h i.owner (i.slot % 12)).queue = [] →
        let r := landAttend u h i x p t
        (r.2.any fun q => q.poison) = false → exec (.leafAttend h sw) s = .next (r.1.modStep i.step fun y =>
          { y with hops := hopMod y.hops i.layer h sw (fun k => k.own r.2) }))) ∧
    (ItemTaken s h sw (fun s _ i => i.kind == .move && moveFirst s i) n i x b →
      ∀ t, runMove u h i x = some t → exec (.leafMove h sw) s = .next t) ∧
    (ItemTaken s h sw (fun _ _ i => i.kind == .gather) n i x b → exec (.leafGather h sw) s = .next
      (u.modStep i.step fun y => { y with gathers := y.gathers ++ [(i.layer, i.inCount, i.halls)] }))) ∧
  (∀ (st : Nat) (x : Step) (b : Board) (s : State), s.step? st = some x → boardOf s x = some b →
    (s.swRuns b.hall b.sw = true →
      (∀ g, x.gathers.find? (fun g => g.1 == x.sentTo) = some g → x.phase = .run → x.lost = false →
        x.layersDone = x.sentTo → laneFlag s x 1 = true → exec (.boardSendRows st) s = .next (laneOp
          ((sendRows s g.2.2 (boardRowsOf s st x b x.sentTo)).setStep st
            { x with sentTo := x.sentTo + 1, boardRows := [], boardGot := [], boardNeed := g.2.1 }) x 1 0x21 0)) ∧
      (∀ (i : Nat) (m : PartMsg), x.msgs[i]? = some m → m.toBoard = true → m.layer = x.layersDone → m.layer < x.sentTo →
        exec (.partialArrive st i) s = .next (boardTake s st { x with msgs := x.msgs.eraseIdx i } b m)) ∧
      (s.hallUp x.home = true → x.halt = none → x.poison = false → runVoid s x = false → volLocked s x.vol.toNat = false →
        x.phase = .decide → x.movesLeft = 0 → x.todo = [] → exec (.stepDecide st) s = .next (commitStep s st x b)) ∧
      (∀ a, s.hallUp x.home = true → x.phase = .run → boardLost s b = none → x.lost = true →
        recoverAll s x (laneRuns (s.planOf x.vol.toNat) x) [] = .ok a → exec (.stepRunVoid st) s = .next
          (voidRun (s.modStep st fun y => { y with standby := y.standby ++ a }) st))) ∧
    (s.hallUp x.home = true → x.phase = .run → x.halt.isSome = true →
      exec (.stepDecide st) s = .next (endStep s st Status.queueHalted (0, 0, false))) ∧
    (∀ w, s.hallUp x.home = true → x.phase = .run → boardLost s b = some w →
      exec (.stepRunVoid st) s = .next (endStep s st Status.unitFenced w)) ∧
    (∀ (i : Nat) (m : PartMsg), x.msgs[i]? = some m → m.toBoard = false → s.swRuns m.hall m.sw = true →
      exec (.partialArrive st i) s = .next (s.setStep st { x with
        msgs := (x.msgs.eraseIdx i), hops := hopMod x.hops m.layer m.hall m.sw (fun k => k.take m.row m.part) })) ∧
    (∀ (h : HallId) (sw : SwId) (k : Hop) (r : Nat) (p : PartRow), s.swRuns h sw = true →
      (x.hops.find? fun k => k.hall == h && k.sw == sw && k.ready.isSome) = some k → k.ready = some (r, p) →
      exec (.mergeForward st h sw) s = .next (s.setStep st { x with
        msgs := x.msgs ++ [{ layer := k.layer, toBoard := k.nextBoard, hall := k.nextHall, sw := k.nextSw, fromHall := h,
                             row := r, part := p }],
        hops := x.hops.map (fun q => if q = k then { q with fwd := q.fwd ++ [r] } else q) })))

/-- Fabric command slots start VOL_SEND, VOL_ACCEPT and MGMT_SEND; MGMT_REPLY, the time-outs, VOL_TRANSFER_PREAMBLE and
VOL_TRANSFER_LEAF carry them on or complete them (R335, R336, R337, Table 11.8, Table 11.9). -/
def Obligations.FabricCommandsAndTransfers : Prop :=
  (∀ (n : FabSlot) (s : State), s.running = true → s.fabCmd? n = none → s.porter.fab.cmds.length < 16 →
    let d := slotRec s n
    let v := fcLocal d
    slotBad d = false →
    (s.porter.fab.moduleId ≠ 0xFFFF → volBusyFor s v = false → spinePoisoned s v = false →
      (fcCode d = 2 → volUnfit s v true = false → exec (.volSend n) s = .next (startSend s n d)) ∧
      (fcCode d = 3 → volUnfit s v false = false → exec (.volAccept n) s = .next (startAccept s n d)) ∧
      (fcCode d = 2 → volUnfit s v true = true → exec (.volSend n) s = .next (fabDone s n FabStatus.badState 0)) ∧
      (fcCode d = 3 → volUnfit s v false = true → exec (.volAccept n) s = .next (fabDone s n FabStatus.badState 0))) ∧
    (s.porter.fab.moduleId ≠ 0xFFFF → volBusyFor s v = true →
      (fcCode d = 2 → exec (.volSend n) s = .next (s.setFabCmd n { kind := FabKind.waiting 2, start := s.now })) ∧
      (fcCode d = 3 → exec (.volAccept n) s = .next (s.setFabCmd n { kind := FabKind.waiting 3, start := s.now }))) ∧
    (s.porter.fab.moduleId = 0xFFFF →
      (fcCode d = 2 → exec (.volSend n) s = .next (fabDone s n FabStatus.noId 0)) ∧
      (fcCode d = 3 → exec (.volAccept n) s = .next (fabDone s n FabStatus.noId 0))) ∧
    (fcCode d = 1 →
      let b := s.read .park (fcReq d) (fcReqLen d)
      let mtype := (b.headD 0).toNat
      let t := s.porter.fab.token + 1
      let u := (s.modFab fun f => { f with token := t }).setFabCmd n { kind := FabKind.mgmt, start := s.now, token := t }
      1 ≤ fcReqLen d → fcReqLen d ≤ 225 → 3 ≤ mtype → mtype ≤ 6 →
      (fcRouted d = true → exec (.mgmtSend n) s = .next (steer u 0 false (mgPacket u.porterNode linkLocalNode 0 0
        (mkMgmt u mtype true (fcRoute d) 0xFFFFFFFF t (b.drop 1))))) ∧
      (fcRouted d = false → nodeHall (fcNode d) = 15 → s.porter.fab.moduleId ≠ 0xFFFF →
        exec (.mgmtSend n) s = .next (sendTable u (fcNode d) (mkMgmt u mtype false 0 0 t (b.drop 1)))))) ∧
  (∀ (n : FabSlot) (c : FabCmd) (s : State), s.fabCmd? n = some c →
    (c.kind = FabKind.mgmt → s.passed c.start 10000 = true →
      exec (.mgmtSendTimeout n) s = .next (fabDone s n FabStatus.unreachable 0)) ∧
    (c.kind = FabKind.accept → c.pre = none → s.passed c.start 10000000 = true →
      exec (.volAcceptTimeout n) s = .next (failAccept s n c FabStatus.timeout false)) ∧
    (c.kind = FabKind.accept → c.pre.isSome = true → s.passed c.start 12700 = true →
      exec (.volAcceptTimeout n) s = .next (failAccept s n c FabStatus.unreachable true))) ∧
  (∀ (h : HallId) (p : FabPacket) (n : Nat) (c : FabCmd) (s : State), s.porterUp = true → Arrives s h p →
    mgmtPktBad s p = false →
    let m := msgOf p
    let u := linkTaken s h p
    0x80 ≤ mgType m → m.body.length ≤ 224 →
    (s.porter.fab.cmds.find? fun q => q.2.kind == FabKind.mgmt && q.2.token == mgToken m) = some (n, c) →
    let st := if mgType m = 0x83 ∧ m.body.length = 208 then FabStatus.ok else (m.body.headD 0).toNat
    exec (.mgmtReply h p) s = .next (fabDone (u.write .park (fcRep (slotRec u n))
      (BitVec.ofNat 8 (mgType m) :: m.body) false) n st (m.body.length + 1))) ∧
  (∀ (p : XferPreamble) (s : State), s.porterUp = true →
    let v := p.dstVol.toNat
    let h := homeOf s v
    let armed := s.porter.fab.cmds.find? fun q => q.2.kind == FabKind.accept && q.2.pre.isNone && q.2.local_ == p.dstVol
      && q.2.peerVol == p.srcVol && q.2.node == p.srcNode
    let pre := (p.tokens, p.ckpt, p.pfv, p.leaves)
    s.hallUp h = true →
    (armed = none → exec (.volTransferPreamble p) s = .next
      (sendAnswer s h p.srcNode.toNat FabStatus.notArmed p.srcVol.toNat v 0)) ∧
    (∀ n c, armed = some (n, c) →
      (shapeDiffers s v p = true → exec (.volTransferPreamble p) s = .next (failAccept s n c FabStatus.volShape true)) ∧
      (∀ t l, shapeDiffers s v p = false → p.pfv ≤ pfvKnown s.fwMajor → p.leaves ≠ 0 →
        reserveRuns (parkGranules (s.planOf v) p.parkFmt) p.leaves s [] = some (t, l) →
        exec (.volTransferPreamble p) s = .next
          (t.setFabCmd n { c with pre := some pre, grans := l, left := p.leaves, start := s.now })))) ∧
  (∀ (v : VolId) (idx fill n g : Nat) (bytes : List Byte) (poison : Bool) (c : FabCmd) (l : List Nat)
      (pre : Word × Word × Nat × Nat) (s t : State),
    let p := s.planOf v.toNat
    (s.porter.fab.cmds.find? fun q => q.2.kind == FabKind.accept && q.2.local_ == v && q.2.pre.isSome) = some (n, c) →
    c.pre = some pre → c.grans = g :: l → s.hallUp (homeOf s v.toNat) = true → idx < p.layers * p.span →
    leV (s.leaf v.toNat idx) = false → fill ≤ p.tpl → bytes.length = parkSize p (s.vol v.toNat).parkFmt →
    s.ensurePair v.toNat idx = some t →
    let u := placeLeaf t v.toNat idx fill g bytes poison
    let d := { c with grans := l, left := c.left - 1, moved := c.moved + 1, start := s.now }
    exec (.volTransferLeaf v idx fill bytes poison) s =
      .next (if l.isEmpty then finishAccept u n d pre else u.setFabCmd n d))

/-- Errors are logged and poison what they reach; a lost layer retires its landings; a dead package raises a replace request (R99, R379, R380, R383, R385, Table 14.1, Table 14.4). -/
def Obligations.ErrorsAreLoggedAndContained : Prop :=
  ∀ (s : State),
    (s.porterUp = true → ∀ e : ErrEvent,
      let u := logEvent s e
      let c := u.clasp e.addr
      (e.correctable = true → e.source ∈ [ErrSource.vest, .clasp, .portb, .parkLink, .fabFec] →
        exec (.errorEvent e) s = .next u) ∧
      (e.source ∈ [ErrSource.parkPkg, .ucie, .fabCrc, .fabGiveup, .fence] → exec (.errorEvent e) s = .next u) ∧
      (e.correctable = false →
        (e.source = .sram → exec (.errorEvent e) s =
          .next (u.setPoison (.sram e.hall (e.unit % 256)) (e.addr / 64 * 64) true)) ∧
        (e.source = .portb → exec (.errorEvent e) s = .next (u.setPoison .far (farHpa u (e.addr / 64 * 64)) true)) ∧
        (e.source = .fabFec → exec (.errorEvent e) s =
          .next (u.modPort e.hall fun x => { x with fecUncorr := x.fecUncorr + 1 })) ∧
        (e.source = .nearStriped ∨ e.source = .nearLanded → exec (.errorEvent e) s =
          .next ((u.modRegs e.hall fun g => { g with errUe := g.errUe + 1 }).setPoison (.column e.hall (e.unit % 256))
            (e.addr / 256 * 256) true)) ∧
        (e.source = .clasp → exec (.errorEvent e) s = .next (settle (c.waiters.foldl (fun t w =>
          claspFail t w.who e.addr Status.claspLost w.oldType) (u.setClasp e.addr { c with lost := true, waiters := [] })))))) ∧
    (∀ (h : HallId) (l : LayerId), s.hallNet h = true →
      ((s.hall h).layerLost.getLsbD l = true → exec (.layerLost h l) s = .next s) ∧
      ((s.hall h).layerLost.getLsbD l = false →
        let t := s.modHall h fun x => { x with layerLost := x.layerLost ||| BitVec.ofNat 12 (2 ^ l.val) }
        exec (.layerLost h l) s = .next (((softEnter ((retireLayer t h l).logError
          { source := .layer, class_ := Class.uncorrectable, hall := h, layer := l }) 4 h l).replaceCause 2).publishDue))) ∧
    (∀ (p : Fin 24),
      exec (.parkPkgFail p true) s = .next s ∧
      (s.porter.host.parkDead.getLsbD p = true → exec (.parkPkgFail p false) s = .next s) ∧
      (s.porter.host.parkDead.getLsbD p = false → exec (.parkPkgFail p false) s = .next
        (((s.modHost fun d => { d with parkDead := d.parkDead ||| BitVec.ofNat 24 (2 ^ p.val) }).logError
          { source := .parkPkg, class_ := Class.uncorrectable, unit := p }).replaceCause 7)))

/-- Units are fenced by the device or by FENCE_UNIT, adoptions complete, and what changed is published (R29, R31, R33, R125, R127, R389, R391, R392, Table 14.4, Table 14.5). -/
def Obligations.FencesAndPublication : Prop :=
  ∀ (s : State),
    (s.porterUp = true →
      (∀ h sw, exec (.unitFence (.stairwell h sw)) s = .next (settle (fenceStair s h sw false))) ∧
      (∀ h sw l, exec (.unitFence (.landing h sw l)) s = .next (settle
        (fenceStair (s.modLanding h sw l fun x => { x with failed := true }) h sw false))) ∧
      (∀ h u, exec (.unitFence (.usher h u)) s = .next (fenceUsher s h u false)) ∧
      (∀ h i, exec (.unitFence (.slice h i)) s = .next (retireSlice s h i)) ∧
      (∀ h cause, cause ∈ [1, 2, 3, 5, 6, 7] → exec (.unitFence (.hall h cause)) s = .next (fenceHall s h cause)) ∧
      (∀ c, exec (.unitFence (.core c)) s = .next (fenceCore s c))) ∧
    (∀ (h : HallId) (sw a : SwId), (s.stair h sw).adopter = some a → (s.stair h sw).fenced = true →
      (s.stair h sw).adopted = false → s.swRuns h a = true → exec (.adoptionComplete h sw) s = .next
        (s.setStair h sw { s.stair h sw with adopted := true, adoptPub := false, selfRef := false }).publishDue) ∧
    (s.running = true → s.porter.res.due = true → exec .resdescPublish s = .next (publish s)) ∧
    (s.porter.res.due = false → exec .resdescPublish s = .next s) ∧
    (∀ (c : Nat) (k : Claim), Begins s c 0x50 k → fenceBody k.desc = none →
      (fuOp k.desc = 1 →
        (fenceFound s k.desc = true →
          exec (.fenceUnitFence c) s = .next (s.complete c 15 Status.ok (fencePart s true))) ∧
        (fenceFound s k.desc = false → fuKind k.desc = 2 → ushersLeft s (fuHall k.desc) = 1 →
          exec (.fenceUnitFence c) s = .next (s.complete c 15 Status.fenceLast (fencePart s false))) ∧
        (fenceFound s k.desc = false → fuKind k.desc ≠ 2 ∨ ushersLeft s (fuHall k.desc) ≠ 1 →
          exec (.fenceUnitFence c) s = .next (fenceApply (s.setStage c (.fencing false)) k.desc))) ∧
      (fuOp k.desc = 2 →
        let q := fld k.desc 0x0C 0 32
        (BitVec.ofNat 32 q ≠ s.porter.res.seq →
          exec (.fenceUnitWatch c) s = .next (s.complete c 15 Status.ok (fencePart s false))) ∧
        (BitVec.ofNat 32 q = s.porter.res.seq → watchers s < 16 →
          exec (.fenceUnitWatch c) s = .next (s.setStage c (.watch q))) ∧
        (BitVec.ofNat 32 q = s.porter.res.seq → 16 ≤ watchers s →
          exec (.fenceUnitWatch c) s = .next (s.complete c 15 Status.watchFull (fencePart s false)))))

/-- A housekeeping round reads and decides for every hall, D moves one step a slot, and the windows and monitors add up (R399, R400, R403, R408, R410, R411, R412, R414, R416, R417, R421, R437). -/
def Obligations.RoundsStepsAndWindows : Prop :=
  ∀ (s : State),
    (s.porterUp = true → s.porter.power.phase = .on → s.porter.host.refLost = false → ∀ r : RoundInput,
      let z : HallRound := { temps := [], rails := [], busy := [], want := 0 }
      let u := inputRound ((List.finRange 12).foldl (fun (t : State) (h : HallId) =>
        if t.hallNet h then readHall t h (r.halls.getD h z) else t) (readPorter s r)) r.unsched
      let w := (List.finRange 12).foldl (fun (t : State) (h : HallId) =>
        if t.hallNet h then hallRound t h (r.halls.getD h z).busy else t) u
      let hot := (List.range 12).any fun h => (w.hall h).drams.any fun q => q.2.2.any fun v => decide (920 ≤ v)
      let x := sumRound (pelaitikRound (coolRound (if hot then loseDram w else w)))
      (u.porter.stage ≠ .coldWait → exec (.housekeepingRound r) s =
        .next (settle (if 4 < failedPairs x ∨ 16 < failedDram x then x.replaceCause 5 else x))) ∧
      (∀ b, u.porter.stage = .coldWait → u.porter.boot = some b → exec (.housekeepingRound r) s =
        .next (if anyCold u then u else bootRest (bootLinks u b) { b with coldSensor := false }))) ∧
    (s.porter.power.phase = .on ∨ s.porter.power.phase = .powerDown →
      let w := s.porter.power
      let use := fun (h : Nat) => s.modPorter fun p =>
        { p with power := { p.power with lastStep := some s.now, slotsNow := p.power.slotsNow + 1, lastHall := h } }
      let forced := rrNext 12 w.lastHall fun h => capOf s h < (s.hall h).therm.d
      let asked := rrNext 12 w.lastHall fun h => (s.hall h).therm.step != 0
      (∀ t, w.lastStep = some t → s.now < t + 1670 → exec .dStepSlot s = .next s) ∧
      (w.lastStep = none ∨ (∃ t, w.lastStep = some t ∧ t + 1670 ≤ s.now) →
        (∀ h, forced = some h → exec .dStepSlot s = .next (stepD (use h) (Fin.ofNat 12 h) false)) ∧
        (∀ h, forced = none → asked = some h → exec .dStepSlot s =
          .next (stepD (use h) (Fin.ofNat 12 h) ((s.hall h).therm.step == 1))) ∧
        (forced = none → asked = none → removesLoads s = false → exec .dStepSlot s = .next s))) ∧
    (s.porterUp = true → s.porter.power.phase = .on →
      let u := { (s.modPorter fun p => { p with cool := p.cool.window s.fresh }) with fresh := s.fresh + 2 }
      let c := u.porter.cool
      let v := if c.state = .normal ∧ c.isDegraded = true then enterCool u .degraded
        else if c.state = .degraded ∧ c.isDegraded = false then enterCool u .normal else u
      exec .coolantWindow s = .next (if 86400 ≤ c.degTime then v.replaceCause 6 else v)) ∧
    (∀ mv ma : Nat, Gives (.inputSample mv ma) s fun t =>
      t.porter.power.mv = mv ∧ t.porter.power.ma = ma ∧ t.porter.power.vSum = s.porter.power.vSum + mv ∧
      t.porter.power.iSum = s.porter.power.iSum + ma ∧ t.porter.power.pSum = s.porter.power.pSum + mv * ma ∧
      t.porter.power.nSum = s.porter.power.nSum + 1 ∧ t = { s with porter := t.porter }) ∧
    (∀ w : Word, s.porterUp = true → Gives (.peakClear w) s fun t =>
      t.porter.power.peak = (if bitAt w 16 then 0 else s.porter.power.peak) ∧
      t.porter.power = { s.porter.power with peak := t.porter.power.peak } ∧ t = { s with porter := t.porter })

/-- Power comes up through the start gate and the porter release, and losses of input, rails and clocks act as stated (R346, R347, R358, R362, R421, R429, R430, R431, R432, R433). -/
def Obligations.PowerComesAndGoes : Prop :=
  ∀ (s : State),
    (s.porter.power.phase = .unpowered ∨ (s.porter.power.phase = .bleeding ∧ s.passed s.porter.power.since 2000000 = true) →
      Gives .startGateOpen s fun t => t.porter.power.phase = .sequencing ∧ t.porter.power.en = true ∧
        t.porter.flash = s.porter.flash ∧ t.porter.fuses = s.porter.fuses) ∧
    (s.porter.power.phase = .on → exec .startGateOpen s = .next s) ∧
    (s.porter.power.phase = .sequencing →
      (∀ h : HallId, ∀ r ∈ [Rail.hallCore h, .hallSram h, .hallDram h, .hallNetwork h],
        exec (.railPgoodTimeout r) s = .next (s.modHall h fun x => { x with railFail := true })) ∧
      (∀ r, (∀ h : HallId, r ∉ [Rail.hallCore h, .hallSram h, .hallDram h, .hallNetwork h]) →
        exec (.railPgoodTimeout r) s = .next (powerOff s .bleeding)) ∧
      (∀ (r : BringupReport) (straps : Fin 8),
        let u := s.modPorter fun p =>
          { p with power := { p.power with phase := .on, since := s.now, pwrgd := true }, elapsed := 0, elapsedOn := true,
                   i3c := { slot := straps } }
        let b := u.firstSlot
        (porterVerifies u r b = true → exec (.porterRelease r straps) s = .next (bootPorterUp u r b)) ∧
        (porterVerifies u r b = false → porterVerifies u r (!b) = true →
          exec (.porterRelease r straps) s = .next (bootPorterUp u r (!b))) ∧
        (porterVerifies u r b = false → porterVerifies u r (!b) = false →
          exec (.porterRelease r straps) s = .next (u.modPorter fun p => { p with fail := 1 })))) ∧
    (s.porter.power.phase ∈ [PowerPhase.on, .sequencing, .powerDown] → Gives .inputLoss s fun t =>
      t.porter.power.phase = .bleeding ∧ t.porter.flash = s.porter.flash ∧ t.porter.fuses = s.porter.fuses ∧
      t.claims = [] ∧ t.steps = [] ∧ t.vols = [] ∧ t.clasps = [] ∧ t.halls = [] ∧
      t.mem = s.mem.filter fun c => c.1 % 8192 == Region.far.number) ∧
    (s.porter.power.phase = .on →
      (∀ h : HallId, ∀ r ∈ [Rail.hallCore h, .hallSram h, .hallDram h],
        exec (.railPgoodLoss r) s = .next (loseCompute s h)) ∧
      (∀ h : HallId, exec (.railPgoodLoss (.hallNetwork h)) s = .next (loseNetRail s h)) ∧
      (∀ r, (∀ h : HallId, r ∉ [Rail.hallCore h, .hallSram h, .hallDram h, .hallNetwork h]) →
        exec (.railPgoodLoss r) s = .next (powerOff s .bleeding)) ∧
      exec .enableFall s = .next (settle ((List.finRange 12).foldl (fun (t : State) (h : HallId) => holdLost (followDiv t h) h)
        (((setEn s false).modPorter fun p => { p with power := { p.power with phase := .powerDown, since := s.now } }).modHost
          fun d => { d with pbPerst := false })))) ∧
    (∀ h : HallId, s.hallNet h = true → (s.hall h).pllLocked = true → exec (.pllLockLoss h) s = .next
      ((loseNetwork (s.modHall h fun x => { x with pllLocked := false }) h).replaceCause 9)) ∧
    (s.porterUp = true → s.porter.host.refLost = false →
      let u := (List.finRange 12).foldl holdHall s
      exec .refLost s = .next ((({ u with
        halls := u.halls.map fun (q : Nat × Hall) => (q.1, { q.2 with elapsedOn := false }) } : State).modPorter fun p =>
        { p with elapsedOn := false, host := { p.host with refLost := true, coresRun := false, parkSelfRef := 0xFFFFFF } }).replaceCause 9)) ∧
    (s.porter.host.refLost = true → exec .refLost s = .next s)

/-- Warm resets, compute resets of halls and stairwells, their end, and the hand-off (R361, R368, R370, R371, R372, R373, R389, R418, Table 13.9). -/
def Obligations.ResetsAndHandOff : Prop :=
  ∀ (s : State),
    (∀ w : Word, bitAt w 0 = true →
      let u := s.modPorter fun p => { p with rstErr := p.rstErr && !bitAt w 1 }
      (bits w 31 16 = 0x5752 → u.resetsIgnored = false →
        (u.flashBusy = false → exec (.warmResetRequest w) s = .next (warmReset u 0)) ∧
        (u.flashBusy = true → exec (.warmResetRequest w) s =
          .next (u.modPorter fun p => { p with warmWait := some (p.warmWait.getD 0) }))) ∧
      (bits w 31 16 ≠ 0x5752 ∨ u.resetsIgnored = true →
        exec (.warmResetRequest w) s = .next (u.modPorter fun p => { p with rstErr := true }))) ∧
    (∀ (h : HallId) (w : Word), s.hallNet h = true → s.running = true →
      let u := (s.modRegs h fun g => { g with rstErr := g.rstErr && !bitAt w 2 }).modRegs h fun g =>
        { g with rstReload := bitAt w 1 }
      (bitAt w 0 = false → exec (.hallComputeReset h w) s = .next u) ∧
      (bitAt w 0 = true → u.resetsIgnored = false → u.hallFenced h = false →
        exec (.hallComputeReset h w) s = .next (settle (startHallReset u h (bitAt w 1)))) ∧
      (bitAt w 0 = true → u.resetsIgnored = true ∨ u.hallFenced h = true →
        exec (.hallComputeReset h w) s = .next (u.modRegs h fun g => { g with rstErr := true }))) ∧
    (∀ (h : HallId) (w : Word), s.hallNet h = true → s.running = true →
      let sw := bits w 7 0
      let u := s.modRegs h fun g => { g with swRstSw := sw }
      (bitAt w 8 = false → exec (.stairwellReset h w) s = .next u) ∧
      (bitAt w 8 = true → u.resetsIgnored = false → u.hallUp h = true → (u.stair h sw).fenced = false →
        (u.stair h sw).resetting = false → exec (.stairwellReset h w) s =
          .next (settle ((stopStair u h sw false true).modStair h sw fun x => { x with resetting := true })))) ∧
    (∀ (h : HallId), s.hallNet h = false → ∀ w,
      exec (.hallComputeReset h w) s = .next (s.emit (.accessFault false)) ∧
      exec (.stairwellReset h w) s = .next (s.emit (.accessFault false))) ∧
    (∀ (h : HallId), s.running = true →
      (∀ r : LoadReport, (s.hall h).state = .computeReset → (s.hall h).heldLost = false →
        ((s.hall h).reloading = false →
          exec (.computeResetRelease h { load := r }) s = .next (releaseHall s h)) ∧
        ((s.hall h).reloading = true →
          let u := loadHall s r h
          exec (.computeResetRelease h { load := r }) s =
            .next (if (u.hall h).state = .computeReset then releaseHall u h else settle u))) ∧
      ((s.hall h).state = .enabled → exec (.computeFaultReport h) s = .next (settle (porterReset s h))) ∧
      (∀ sw : SwId, (s.stair h sw).resetting = true → (s.hall h).state = .enabled →
        exec (.computeResetRelease h { sw := some sw }) s =
          .next (s.modStair h sw fun x => { x with resetting := false, selfRef := false })) ∧
      (∀ u : UsherId, (s.hall h).state = .enabled → (s.hall h).ushersEn.getLsbD u = true →
        (sget (s.hall h).missReset none u = none → exec (.usherHeartbeatMiss h u) s =
          .next (settle ((porterReset s h).modHall h fun x => { x with missReset := sset x.missReset u none }))) ∧
        (∀ t, sget (s.hall h).missReset none u = some t → s.now ≤ t + 60000000000 →
          exec (.usherHeartbeatMiss h u) s = .next (settle (fenceUsher s h u false))) ∧
        (∀ t, sget (s.hall h).missReset none u = some t → t + 60000000000 < s.now →
          exec (.usherHeartbeatMiss h u) s =
            .next (settle ((porterReset s h).modHall h fun x => { x with missReset := sset x.missReset u none }))))) ∧
    (s.porter.host.refLost = false →
      let handed := fun (u : State) =>
        publish ((u.modPorter fun p => { p with stage := .running, res := { p.res with seq := 0 } }).raiseAlert 3)
      (s.porter.stage = .init → exec .handOff s = .next (handed s)) ∧
      (s.porter.stage = .warm → exec .handOff s = .next (handed (warmRest s)))) ∧
    ((s.porter.stage ≠ .init ∧ s.porter.stage ≠ .warm) ∨ s.porter.host.refLost = true → exec .handOff s = .next s)

/-- Packets are sent and granted on mesh and ring, broadcasts reach every stairwell, AGE rises, routes are set, flits are resent (R290, R292, R293, R294, R295, R296, R297, R298, R304). -/
def Obligations.PackageNetworkMovesPackets : Prop :=
  ∀ (s : State),
    (∀ h : HallId, s.hallNet h = true →
      (∀ (p : Packet) (inp : Fin 3) (sw : SwId), p.body.len ≤ 256 → p.srcHall = h → netHeld s p = false →
        p.src = .stairwell sw → s.swRuns h sw = true → exec (.meshPacket h (.inject p inp)) s =
          .next (netPush (netNote s h p inp) h (NetOut.injection sw).number
            { pkt := p, weight := if p.cls = .request then unitWeight (s.hall h).regs p.src else 0, inp := inp })) ∧
      (∀ (out : NetOut), (sget (s.hall h).mesh {} out.number).queue = [] → exec (.meshPacket h (.grant out)) s = .next s) ∧
      (∀ (out : NetOut) (i : Nat) (a : Arbiter) (p : NetPkt),
        (sget (s.hall h).mesh {} out.number).pick (s.hall h).regs.ageMax s.now = some (i, a) → a.queue[i]? = some p →
        exec (.meshPacket h (.grant out)) s = .next (netHop (s.modHall h fun y =>
          { y with mesh := sset y.mesh out.number (a.take i s.now p) }) h out p)) ∧
      (∀ (cw : Bool) (i : Nat) (a : Arbiter) (p : NetPkt), s.hallNet (ringNext h cw) = true → ringUp s h cw = true →
        (sget (s.hall h).mesh {} (ringOut cw)).pick (s.hall h).regs.ageMax s.now = some (i, a) → a.queue[i]? = some p →
        let g := ringNext h cw
        let u := s.modHall h fun y => { y with mesh := sset y.mesh (ringOut cw) (a.take i s.now p) }
        let q := if crossesSeam h cw = true ∧ p.fab = none then { p with vc := 1 } else p
        exec (.ringPacket h cw) s = .next (if q.pkt.dstHall = g then gateArrive u g inRing q
          else netPush u g (ringOut (ringDir u g q.pkt)) { q with inp := 1 })) ∧
      (∀ (p : Packet), p.body.len ≤ 256 → p.srcHall = h →
        ((s.hall h).state = .enabled → exec (.meshBroadcast h p) s = .next ((s.enabledSws h).foldl (fun t sw =>
          if (t.stair h sw).resetting then gateQueue (countReset t h .targetResetting) h inHallBlock
            (answerOf h { p with dst := .stairwell (Fin.ofNat 256 sw), dstHall := h } .targetResetting)
          else t.emit (.delivered h { p with dstHall := h, dst := .stairwell (Fin.ofNat 256 sw) })) s)) ∧
        (∀ mask, exec (.ringBroadcast h mask p) s = .next ((List.finRange 12).foldl (fun t d =>
          if mask.getLsbD d.val && (d == h || ringReaches t h d) then hallBroadcast t d p else t) s))) ∧
      (∀ l : UcieLink,
        ((getLink (s.hall h) l).width = 0 → ∀ o, exec (.ucieFlitResend h l o) s = .next s) ∧
        ((getLink (s.hall h) l).width ≠ 0 →
          exec (.ucieFlitResend h l .resent) s = .next (ucieResent s h l) ∧
          exec (.ucieFlitResend h l .retrained) s = .next (ucieRetrained (ucieResent s h l) h l) ∧
          (∀ n, exec (.ucieFlitResend h l (.narrowed n)) s = .next
            (ucieNarrow (ucieRetrained (ucieResent s h l) h l) h l n)) ∧
          (∀ n, let t := (ucieRetrained (ucieResent s h l) h l).modHall h fun x =>
              setLink x l { getLink x l with spares := min 15 n }
            exec (.ucieFlitResend h l (.repaired n)) s = .next
              (if l = .host ∧ Config.ucieSpares ≤ min 15 n then t.replaceCause 3 else t))))) ∧
    (∀ h : HallId, s.hallNet h = false → (∀ e, exec (.meshPacket h e) s = .next s) ∧
      (∀ cw, exec (.ringPacket h cw) s = .next s) ∧ (∀ p, exec (.meshBroadcast h p) s = .next s)) ∧
    Gives .ageTick s (fun t => t = { s with halls := t.halls } ∧ ∀ h out,
      (sget (t.hall h).mesh {} out).queue = (sget (s.hall h).mesh {} out).queue.map NetPkt.older) ∧
    (s.porter.stage ≠ .rom → exec .ringReroute s = .next (reroute s))

/-- Tier, decoder, window, error-log and register writes act as their fields say; ports A and B and the cages follow their pins (R178, R259, R260, R283, R284, R285, R381, R398, R459, R463, R476, R477). -/
def Obligations.SetUpWritesTakeEffect : Prop :=
  ∀ (s : State),
    (s.porterUp = true →
      (s.porter.host.tierLock = true →
        (∀ r w, exec (.tierCfgWrite r w) s = .next (s.modHost fun d => { d with tierRefused := true })) ∧
        (∀ r w, exec (.fardecWrite r w) s = .next (s.modHost fun d => { d with tierRefused := true }))) ∧
      (s.porter.host.tierLock = false →
        (∀ w : Word, 8 ≤ bits w 8 0 → bits w 8 0 ≤ 256 → exec (.tierCfgWrite .tierCfg w) s = .next
          (s.modHost fun d => { d with spineGib := bits w 8 0, tierRefused := d.tierRefused && !bitAt w 10 })) ∧
        (∀ w : Word, farAreaOk s w.toNat s.porter.host.farSize = true →
          exec (.tierCfgWrite .farBase w) s = .next (s.modHost fun d => { d with farBase := w.toNat })) ∧
        (∀ w : Word, let d := { s.porter.host with fardecBase := sset s.porter.host.fardecBase s.porter.host.fardecSel w }
          fardecOk d = true → exec (.fardecWrite .base w) s = .next (s.modHost fun _ => d))) ∧
      (∀ w : Word, exec (.portaWinWrite .winLo w) s = .next (s.modHost fun d => { d with winLo := w &&& 0xFF000000 })) ∧
      (∀ w : Word, exec (.portaIrq w) s = .next (s.emit (.msix (bits w 5 0)))) ∧
      (∀ off v, s.porter.host.portaWidth ≠ 0 → off % 8 = 0 → off < 512 → exec (.mailboxWrite off 8 v) s = .next
        ((s.modHost fun d => { d with mbx := sset d.mbx (off / 8) v }).emit (.msi (s.porter.host.mbxVec + off / 8)))) ∧
      (∀ off n v, n ≠ 8 ∨ off % 8 ≠ 0 ∨ 512 ≤ off → exec (.mailboxWrite off n v) s = .next s) ∧
      (∀ w : Word, s.porter.errlog.en = false → exec (.errlogCfgWrite .baseLo w) s = .next
        (s.setErrLog { s.porter.errlog with base := baseLo s.porter.errlog.base w })) ∧
      (∀ w : Word, exec (.errlogHeadWrite w) s = .next (s.setErrLog
        { s.porter.errlog with head := w, armed := s.porter.errlog.armed || w == s.porter.errlog.tail })) ∧
      (∀ n g cxl, s.porter.host.pbPerst = true → (if cxl then portbOk n g else linkOk [1, 2, 4, 8, 16] n g) = true →
        exec (.portbLinkUp n g cxl) s = .next
          (s.modHost fun d => { d with portbWidth := n, portbGen := g, portbCxl := cxl }).publishDue) ∧
      (∀ t, s.porter.host.pbRefclk = some t → s.porter.power.phase = .on → s.passed t 100 = true →
        exec .pbPerstRelease s = .next (s.modHost fun d => { d with pbPerst := true })) ∧
      (∀ (h : HallId) (watts : Nat), let u := s.modPort h fun p => { p with cable := some watts, cableOn := watts ≤ 16 }
        (16 < watts → exec (.cableInsert h watts) s = .next (portDown u h Reason.trainFail)) ∧
        (watts ≤ 16 → exec (.cableInsert h watts) s = .next
          (if u.hallNet h && downReady u h then startTraining u h else u)))) ∧
    (∀ n g, Gives (.portaLinkChange false n g) s fun t => t.porter.host.portaPerst = false ∧
      t.porter.host.portaWidth = 0 ∧ t.porter.host.portaGen = 0) ∧
    (∀ n g, s.porter.stage ≠ .rom → s.porter.host.pbRefclk.isSome = true → linkOk [1, 2, 4, 8, 16] n g = true →
      Gives (.portaLinkChange true n g) s fun t => t.porter.host.portaPerst = true ∧
        t.porter.host.portaWidth = n ∧ t.porter.host.portaGen = g) ∧
    (s.porter.host.portbWidth ≠ 0 → exec .portbLinkLoss s = .next ((stopFarBursts s).modHost fun d =>
      { d with portbWidth := 0, portbGen := 0, portbCxl := false }).publishDue) ∧
    (∀ off n v, off < controlBytes →
      ((accessOk off n = false ∨ blockLost s off = true) →
        exec (.registerWrite off n v) s = .next (s.emit (.accessFault false))) ∧
      (accessOk off 4 = true → blockLost s off = false → v.toNat < 2 ^ 32 →
        (∀ h, blockHall off = some h → s.running = true → off % blockBytes = 0x018 →
          exec (.registerWrite off 4 v) s = exec (.hallComputeReset h (BitVec.ofNat 32 v.toNat)) s) ∧
        (off = 0x218 → exec (.registerWrite off 4 v) s = exec (.portaIrq (BitVec.ofNat 32 v.toNat)) s)) ∧
      (accessOk off 8 = true → blockLost s off = false → exec (.registerWrite off 8 v) s = .next (controlWrite
        (controlWrite s off (BitVec.ofNat 32 (v.toNat % 2 ^ 32))) (off + 4) (BitVec.ofNat 32 (v.toNat / 2 ^ 32)))))

/-- Calibration commands queue and end with their values; firmware is staged, committed and its counters only rise (R376, R377, R452, R453, R454, Table 13.12, Table 17.11). -/
def Obligations.CalibrationAndFirmwareCommands : Prop :=
  ∀ (s : State), s.porterUp = true →
    let add := fun (op : CalOp) => s.modCal fun c =>
      { c with busy := true, queue := c.queue ++ [{ op := op, i3c := false, id := c.id, index := c.index, value := c.val }] }
    (s.porter.cal.busy = false →
        exec .calOpRead s = .next (add .read) ∧ exec .calOpWrite s = .next (add .write) ∧
        exec .calOpClear s = .next (add .clear) ∧ exec .calRestoreFactory s = .next (add .restore)) ∧
    (s.porter.cal.busy = true → ∀ i ∈ [Instr.calOpRead, .calOpWrite, .calOpClear, .calRestoreFactory],
      exec i s = .next (s.modCal fun c => { c with err := true })) ∧
    (∀ (c : CalCmd) (l : List CalCmd) (ok : Bool), s.porter.cal.queue = c :: l → c.i3c = false → s.running = true →
      s.porter.warmWait = none →
      let k := calKey c.id c.index
      let t := s.porter.flash.userCal
      (c.index < calIndexes c.id →
        (c.op = .read → Gives (.calCommandDone ok) s fun u => u.porter.cal =
          { s.porter.cal with busy := false, status := 0, queue := l, val := (s.calValue c.id c.index).1
                              user := (s.calValue c.id c.index).2 } ∧
          u.porter.flash = s.porter.flash) ∧
        (c.op = .write → calRange c.id c.value = true → (sfind t k).isSome = true ∨ t.length < 1024 →
          Gives (.calCommandDone true) s fun u => u.porter.cal.status = 0 ∧
            u.porter.flash = { s.porter.flash with userCal := sset t k c.value }) ∧
        (c.op = .clear → (sfind t k).isSome = true → Gives (.calCommandDone true) s fun u => u.porter.cal.status = 0 ∧
          u.porter.flash = { s.porter.flash with userCal := sdel t k })) ∧
      (c.op ≠ .restore → calIndexes c.id = 0 → Gives (.calCommandDone ok) s fun u =>
        u.porter.cal.status = CalStatus.badId ∧ u.porter.flash = s.porter.flash)) ∧
    (s.porter.fw.busy = false →
      exec .fwupdStage s = .next (s.modFw fun f =>
        { f with busy := true, running := 1, result := stageCheck s (stageBytes s), i3c := false
                 target := if s.stageSlot then 1 else 0, bundle := bundleOf (stageBytes s) }) ∧
      (∀ m : BitVec 3, exec (.fwupdCommit m) s = .next (s.modFw fun f =>
        { f with busy := true, running := 2, classes := m.toNat, i3c := false
                 result := if s.running then FwStatus.ok else FwStatus.notReady })) ∧
      exec (.fwupdDone true) s = .next s) ∧
    (s.porter.fw.busy = true →
      exec .fwupdStage s = .next s ∧ (∀ m, exec (.fwupdCommit m) s = .next s) ∧
      (s.porter.fw.running = 1 → s.porter.fw.result = FwStatus.ok →
        let b := s.porter.fw.target == 1
        exec (.fwupdDone true) s = .next ((fwEnd (s.setBundle b s.porter.fw.bundle) FwStatus.ok).logEvent 0x0D 0 0 0) ∧
        exec (.fwupdDone false) s = .next ((fwEnd (s.setBundle b { s.porter.fw.bundle with verifies := false })
          FwStatus.flashFail).logEvent 0x0D 0 0 FwStatus.flashFail)) ∧
      (∀ ok, s.porter.fw.running = 2 → s.porter.fw.result = FwStatus.ok → s.porter.fw.i3c = false →
        let m := s.porter.fw.classes
        exec (.fwupdDone ok) s = .next (fwEnd ((raiseCounters s m).logEvent 0x0E 0 0 m) FwStatus.ok) ∧
        (raiseCounters s m).porter.fuses.svnPorter =
          if bitAt (BitVec.ofNat 3 m) 0 then max s.porter.fuses.svnPorter s.porter.running.svnPorter
          else s.porter.fuses.svnPorter))

/-- The I3C target takes an address, answers its common command codes and command frames, and requests interrupts (R438, R439, R440, R441, R442, R444, R446, R447, Table 17.2, Table 17.3, Table 17.4). -/
def Obligations.I3cTargetAnswers : Prop :=
  ∀ (s : State), s.targetUp = true →
    (∀ (w : BitVec 64) (a : BitVec 7), s.porter.i3c.da = 0 →
      let u := s.emit (.i3c (beBytes 8 s.daaWord))
      (s.daaWord ≤ w.toNat → exec (.entdaa (some w) a) s = .next (u.modI3c fun i => { dropResponses i with da := a })) ∧
      (w.toNat < s.daaWord → exec (.entdaa (some w) a) s = .next u)) ∧
    (exec .rstdaa s = .next (s.modI3c fun i => { dropResponses i with da := 0 })) ∧
    (∀ b : Byte, bitAt b 0 = true → exec (.enec b) s = .next (s.modI3c fun i => { i with enint := true }) ∧
      exec (.disec b) s = .next (s.modI3c fun i => { i with enint := false })) ∧
    (s.porter.i3c.da = 0 → ∀ i ∈ [Instr.getmwl, .getmrl, .getpid, .getbcr, .getdcr, .getstatus, .responseRead],
      exec i s = .next (s.emit .i3cNack)) ∧
    (s.porter.i3c.da ≠ 0 →
      exec .getbcr s = .next (s.emit (.i3c [0x06])) ∧ exec .getdcr s = .next (s.emit (.i3c [BitVec.ofNat 8 s.dcr])) ∧
      exec .getpid s = .next (s.emit (.i3c (beBytes 6 s.pid.toNat))) ∧
      exec .getmwl s = .next (s.emit (.i3c (beBytes 2 s.porter.i3c.mwl))) ∧
      exec .getmrl s = .next (s.emit (.i3c (beBytes 2 s.porter.i3c.mrl ++ [1]))) ∧
      exec .getstatus s = .next (s.emit (.i3c (beBytes 2 (min 15 (popcount s.porter.alert))))) ∧
      (∀ n : BitVec 16, 16 ≤ n.toNat → (n.toNat ≤ 64 →
        exec (.setmwl n) s = .next (s.modI3c fun i => { i with mwl := n.toNat })) ∧ (n.toNat ≤ 256 →
        exec (.setmrl n) s = .next (s.modI3c fun i => { i with mrl := n.toNat }))) ∧
      (∀ b l, s.porter.i3c.ready = (true, b) :: l → b.length ≤ s.porter.i3c.mrl →
        exec .responseRead s = .next ((s.modI3c fun i => { i with ready := l }).emit (.i3c b))) ∧
      (s.porter.i3c.ready = [] → s.porter.i3c.busyCmd = none →
        exec .responseRead s = .next (s.emit (.i3c (respFrame 0 Frame.noCmd [])))) ∧
      (s.porter.i3c.busyCmd = none → s.inRom = false → 15 ≤ s.porter.i3c.mwl →
        (∀ (x b : Byte) (q : List Byte), pageBytes s x.toNat b.toNat = some q →
          exec (.readPage [x, b, 0]) s = .next (respReady s 0x01 Frame.ok q)) ∧
        (∀ (x b : Byte), let u := s.modPorter fun p => { p with alert := p.alert &&& ~~~(BitVec.ofNat 6 (bodyNat [x, b] 0 2)) }
          exec (.alertAck [x, b]) s = .next (respReady u 0x02 Frame.ok (leBytes 2 u.porter.alert.toNat))) ∧
        (∀ a, a.length = 3 → exec (.calRead a) s = .next (calFrame s 0x03 .read a) ∧
          exec (.calClear a) s = .next (calFrame s 0x05 .clear a)) ∧
        (∀ a, a.length = 11 → exec (.calWrite a) s = .next (calFrame s 0x04 .write a)) ∧
        (exec (.restoreFactory []) s = .next (calFrame s 0x06 .restore [])) ∧
        (s.resetsIgnored = false → s.flashBusy = false →
          exec (.warmReset [0x52, 0x57]) s = .next (respReady (warmReset s 1) 0x07 Frame.ok [])) ∧
        (s.resetsIgnored = true → exec (.warmReset [0x52, 0x57]) s = .next
          (respReady (s.modPorter fun p => { p with rstErr := true }) 0x07 Frame.refused [])) ∧
        (∀ c : Byte, c.toNat ≤ 7 → s.porter.fw.busy = false → exec (.fwCommit [c]) s = .next
          (fwCommitStart (s.modI3c fun i => { i with busyCmd := some (0x08, true) }) c.toNat true)) ∧
        (∀ c : Byte, (c = 0 ∨ 8 < c.toNat) → let b := [0xC5, c, 0]
          exec (.commandFrameRefused (b ++ [crc8 b])) s = .next (respReady s c.toNat
            Frame.badCmd []))) ∧
      (∀ (bit n : Nat) (l : List (Nat × Nat)) (acked : Bool), s.porter.i3c.enint = true → s.porter.i3c.lastIbi = none →
        s.porter.i3c.ibi = (bit, n) :: l → exec (.ibiRequest acked) s = .next ((s.modI3c fun i =>
          { i with ibi := if acked || 3 ≤ n then l else (bit, n + 1) :: l, lastIbi := some s.now }).emit (.ibi (bit + 1)))))

/-- Each SPDM request on a transport that is served has one response, sent behind its message type, in the order of R451 (R443, R448, R449, R450, R451, Table 17.9, Table 17.10). -/
def Obligations.SpdmRequestsAreAnswered : Prop :=
  ∀ (t : Transport) (s : State),
    let x := s.spdm t
    let sent := fun (r : State × List Byte) => mctpSend r.1 t (0x05 :: r.2)
    (spdmUp s t = true → ∀ req : List Byte, 4 ≤ req.length →
      (bodyNat req 1 1 = 0x84 → exec (.getVersion t req) s = .next (sent (s.modSpdm t fun x =>
        { mctp := x.mctp, msgA := req ++ [0x10, 0x04, 0, 0, 0, 2, 0x00, 0x12, 0x00, 0x13] },
        [0x10, 0x04, 0, 0, 0, 2, 0x00, 0x12, 0x00, 0x13]))) ∧
      (bodyNat req 1 1 = 0xE1 →
        (x.msgA = [] ∨ x.caps = true → exec (.getCapabilities t req) s =
          .next (sent (s, spdmError x SpdmErr.unexpected 0))) ∧
        (x.msgA ≠ [] → x.caps = false → exec (.getCapabilities t req) s = .next (sent (spdmCapabilities s t req)))) ∧
      (bodyNat req 1 1 = 0xE3 →
        (x.caps = false ∨ x.algo = true → exec (.negotiateAlgorithms t req) s =
          .next (sent (s, spdmError x SpdmErr.unexpected 0))) ∧
        (x.caps = true → x.algo = false → 32 ≤ req.length →
          exec (.negotiateAlgorithms t req) s = .next (sent (spdmAlgorithms s t req)))) ∧
      (x.algo = false →
        (bodyNat req 1 1 = 0x81 → exec (.getDigests t req) s = .next (sent (s, spdmError x SpdmErr.unexpected 0))) ∧
        (bodyNat req 1 1 = 0x82 → exec (.getCertificate t req) s = .next (sent (s, spdmError x SpdmErr.unexpected 0))) ∧
        (bodyNat req 1 1 = 0x83 → exec (.challenge t req) s = .next (sent (s, spdmError x SpdmErr.unexpected 0))) ∧
        (bodyNat req 1 1 = 0xE0 →
          exec (.getMeasurements t req) s = .next (sent (s, spdmError x SpdmErr.unexpected 0)))) ∧
      (x.algo = true → (req.headD 0).toNat = x.version →
        (bodyNat req 1 1 = 0x81 → exec (.getDigests t req) s = .next (sent (spdmDigests s t req))) ∧
        (bodyNat req 1 1 = 0x82 → exec (.getCertificate t req) s = .next (sent (spdmCertificate s t req))) ∧
        (bodyNat req 1 1 = 0x83 → exec (.challenge t req) s = .next (sent (spdmChallenge s t req))) ∧
        (bodyNat req 1 1 = 0xE0 → exec (.getMeasurements t req) s = .next (sent (spdmMeasurements s t req)))) ∧
      (∀ (src dst flags : Byte), 192 ≤ flags.toNat →
        exec (.mctpPacket t ([0x01, dst, src, flags, 0x05] ++ req)) s = .next (mctpMessage
          (s.modSpdm t fun x => { x with mctp := none }) t (dst.toNat * 256 + src.toNat) (flags.toNat % 8) (0x05 :: req)))) ∧
    (spdmUp s t = false → ∀ req : List Byte, ∀ i ∈ [Instr.getVersion t req, .getCapabilities t req,
      .negotiateAlgorithms t req, .getDigests t req, .getCertificate t req, .challenge t req, .getMeasurements t req,
      .mctpPacket t req], exec i s = .next s)

/-- Management, attestation, calibration, firmware and set-up commands of the porter change nothing outside the porter (Table 13.1, R9, R438, R443, R464). -/
def Obligations.PorterCommandsTouchNothingElse : Prop :=
  ∀ (u : State),
    PorterOnly .getbcr u ∧ PorterOnly .getdcr u ∧ PorterOnly .getmrl u ∧ PorterOnly .getmwl u ∧
    PorterOnly .getpid u ∧ PorterOnly .getstatus u ∧
    (∀ (h : HallId) (linkSeq : Nat), PorterOnly (.linkReplay h linkSeq) u) ∧
    (∀ (w : Word), PorterOnly (.portaIrq w) u) ∧ PorterOnly .calOpClear u ∧ PorterOnly .calOpRead u ∧
    PorterOnly .calOpWrite u ∧ PorterOnly .calRestoreFactory u ∧ (∀ (events : Byte), PorterOnly (.disec events) u) ∧
    (∀ (events : Byte), PorterOnly (.enec events) u) ∧
    (∀ (r : ErrlogReg) (w : Word), PorterOnly (.errlogCfgWrite r w) u) ∧
    (∀ (w : Word), PorterOnly (.errlogHeadWrite w) u) ∧
    (∀ (r : FardecReg) (w : Word), PorterOnly (.fardecWrite r w) u) ∧
    (∀ (classes : BitVec 3), PorterOnly (.fwupdCommit classes) u) ∧
    (∀ (flashOk : Bool), PorterOnly (.fwupdDone flashOk) u) ∧ PorterOnly .fwupdStage u ∧
    (∀ (mv : Nat) (ma : Nat), PorterOnly (.inputSample mv ma) u) ∧
    (∀ (ctl : Fin 12), PorterOnly (.parkScrubStep ctl) u) ∧ PorterOnly .pbPerstRelease u ∧
    (∀ (w : Word), PorterOnly (.peakClear w) u) ∧
    (∀ (perst : Bool) (width : Nat) (gen : Nat), PorterOnly (.portaLinkChange perst width gen) u) ∧
    (∀ (r : PortaReg) (w : Word), PorterOnly (.portaWinWrite r w) u) ∧
    (∀ (width : Nat) (gen : Nat) (cxl : Bool), PorterOnly (.portbLinkUp width gen cxl) u) ∧ PorterOnly .rstdaa u ∧
    (∀ (r : TierReg) (w : Word), PorterOnly (.tierCfgWrite r w) u) ∧ PorterOnly .coolantWindow u ∧
    (∀ (args : List Byte), PorterOnly (.alertAck args) u) ∧ (∀ (args : List Byte), PorterOnly (.calClear args) u) ∧
    (∀ (args : List Byte), PorterOnly (.calRead args) u) ∧ (∀ (args : List Byte), PorterOnly (.calWrite args) u) ∧
    (∀ (frame : List Byte), PorterOnly (.commandFrameRefused frame) u) ∧
    (∀ (word : Option (BitVec 64)) (addr : BitVec 7), PorterOnly (.entdaa word addr) u) ∧
    (∀ (args : List Byte), PorterOnly (.fwCommit args) u) ∧ PorterOnly .heartbeatLoss u ∧
    (∀ (acked : Bool), PorterOnly (.ibiRequest acked) u) ∧
    (∀ (off : Nat) (size : Nat) (value : Dword), PorterOnly (.mailboxWrite off size value) u) ∧
    PorterOnly .managerElected u ∧ (∀ (args : List Byte), PorterOnly (.readPage args) u) ∧
    PorterOnly .responseRead u ∧ (∀ (args : List Byte), PorterOnly (.restoreFactory args) u) ∧
    (∀ (n : BitVec 16), PorterOnly (.setmrl n) u) ∧ (∀ (n : BitVec 16), PorterOnly (.setmwl n) u) ∧
    (∀ (t : Transport) (req : List Byte), PorterOnly (.getVersion t req) u) ∧
    (∀ (t : Transport) (req : List Byte), PorterOnly (.getCapabilities t req) u) ∧
    (∀ (t : Transport) (req : List Byte), PorterOnly (.negotiateAlgorithms t req) u) ∧
    (∀ (t : Transport) (req : List Byte), PorterOnly (.getDigests t req) u) ∧
    (∀ (t : Transport) (req : List Byte), PorterOnly (.getCertificate t req) u) ∧
    (∀ (t : Transport) (req : List Byte), PorterOnly (.challenge t req) u) ∧
    (∀ (t : Transport) (req : List Byte), PorterOnly (.getMeasurements t req) u) ∧
    (∀ (t : Transport) (bytes : List Byte), PorterOnly (.mctpPacket t bytes) u)

/-- Commands of the network, the ports, the rings and the set-up of a hall keep memory and work; landing commands keep the rest (Table 13.1, R115, R207, R293, R306). -/
def Obligations.HallAndLandingCommandsTouchNothingElse : Prop :=
  ∀ (u : State),
    (HallsOnly .ageTick u ∧ (∀ (h : HallId) (ch : ChId), HallsOnly (.dmaLoop h ch) u) ∧
    (∀ (h : HallId), HallsOnly (.fabDownRetry h) u) ∧
    (∀ (h : HallId) (lanes : Nat), HallsOnly (.fecLock h lanes) u) ∧
    (∀ (h : HallId) (cw : Bool), HallsOnly (.ringPacket h cw) u) ∧ HallsOnly .ringReroute u ∧
    (∀ (h : HallId), HallsOnly (.vestMaintDone h) u) ∧ (∀ (h : HallId) (s : StreamId), HallsOnly (.ackTimer h s) u) ∧
    (∀ (h : HallId) (ring : CqId) (aligned8 : Bool) (value : Dword), HallsOnly (.cqHeadWrite h ring aligned8 value) u) ∧
    (∀ (h : HallId) (w : Word), HallsOnly (.dmaChCfgWrite h w) u) ∧
    (∀ (h : HallId) (w : Word), HallsOnly (.fabStreamCfgWrite h w) u) ∧
    (∀ (h : HallId) (p : FabPacket), HallsOnly (.fabricForward h p) u) ∧
    (∀ (h : HallId), HallsOnly (.helloSend h) u) ∧
    (∀ (h : HallId) (ring : CqId), HallsOnly (.irqDelayExpire h ring) u) ∧
    (∀ (h : HallId) (ackedSeq : Nat) (credits : List (Fin 24 × Nat)), HallsOnly (.linkControlWord h ackedSeq credits) u) ∧
    (∀ (h : HallId) (p : Packet), HallsOnly (.meshBroadcast h p) u) ∧
    (∀ (h : HallId) (e : MeshEvent), HallsOnly (.meshPacket h e) u) ∧
    (∀ (h : HallId) (p : FabPacket), HallsOnly (.mgmtForward h p) u) ∧
    (∀ (h : HallId) (l : Option LinkTag) (p : FabPacket), p.crc = packetCrc p.hdr p.payload → HallsOnly (.query h l p) u) ∧
    (∀ (h : HallId) (mask : BitVec 12) (p : Packet), HallsOnly (.ringBroadcast h mask p) u) ∧
    (∀ (h : HallId) (r : RingReg) (w : Word), HallsOnly (.ringCfgWrite h r w) u) ∧
    (∀ (h : HallId) (ring : SqId) (aligned8 : Bool) (value : Dword), HallsOnly (.sqTailWrite h ring aligned8 value) u) ∧
    (∀ (h : HallId), HallsOnly (.unkeep h) u) ∧
    (∀ (space : TierSpace) (unit : Nat) (by_ : Option HallId) (write : Bool) (whole : Bool), HallsOnly (.vestRecall space unit by_ write whole) u) ∧
    (∀ (h : HallId) (l : Option LinkTag) (p : FabPacket), p.crc = packetCrc p.hdr p.payload → HallsOnly (.assignId h l p) u) ∧
    HallsOnly .claimSend u ∧ (∀ (h : HallId) (p : FabPacket), p.crc = packetCrc p.hdr p.payload → HallsOnly (.claim h p) u) ∧
    (∀ (h : HallId), HallsOnly (.evict h) u) ∧ 
    (∀ (h : HallId) (p : FabPacket), p.crc = packetCrc p.hdr p.payload → HallsOnly (.heartbeat h p) u) ∧
    HallsOnly .heartbeatSend u ∧
    (∀ (h : HallId) (l : Option LinkTag) (p : FabPacket), p.crc = packetCrc p.hdr p.payload → HallsOnly (.routeWrite h l p) u) ∧
    (∀ (h : HallId) (l : Option LinkTag) (p : FabPacket), p.crc = packetCrc p.hdr p.payload → HallsOnly (.wclSet h l p) u)) ∧
    ((∀ (h : HallId) (sw : SwId) (l : LayerId), LandingsOnly (.accClear h sw l) u) ∧
    (∀ (h : HallId) (sw : SwId) (l : LayerId), LandingsOnly (.attend h sw l) u) ∧
    (∀ (h : HallId) (sw : SwId) (l : LayerId) (b : BankId), LandingsOnly (.bankAccessesDrained h sw l b) u) ∧
    (∀ (h : HallId) (sw : SwId) (l : LayerId), LandingsOnly (.chunkBoundary h sw l) u) ∧
    (∀ (h : HallId) (sw : SwId) (l : LayerId), LandingsOnly (.readout h sw l) u) ∧
    (∀ (h : HallId) (sw : SwId) (l : LayerId), LandingsOnly (.score h sw l) u) ∧
    (∀ (h : HallId) (sw : SwId) (l : LayerId), LandingsOnly (.valueAcc h sw l) u) ∧
    (∀ (h : HallId) (sw : SwId) (l : LayerId), LandingsOnly (.windowWriteApply h sw l) u) ∧
    (∀ (h : HallId) (sw : SwId) (page : Fin 16) (slot : Fin 4) (off : Fin 64) (bytes : List Byte), LandingsOnly (.landingCmdWrite h sw page slot off bytes) u) ∧
    (∀ (h : HallId) (sw : SwId) (page : Fin 16) (w : Rec64), LandingsOnly (.modeWrite h sw page w) u) ∧
    (∀ (h : HallId) (sw : SwId) (page : Fin 16) (off : Nat) (bytes : List Byte), LandingsOnly (.windowWrite h sw page off bytes) u) ∧
    (∀ (h : HallId) (sw : SwId) (l : LayerId), LandingsOnly (.copy h sw l) u) ∧
    (∀ (h : HallId) (sw : SwId) (l : LayerId), LandingsOnly (.fill h sw l) u) ∧
    (∀ (h : HallId) (sw : SwId) (l : LayerId), LandingsOnly (.pack h sw l) u) ∧
    (∀ (h : HallId) (sw : SwId) (l : LayerId), LandingsOnly (.unpack h sw l) u)) ∧
    (∀ (i : Instr) (t : State), (∃ b h, i = .bindPrepare b ∨ i = .bindPrepared b ∨ i = .bindPrepareTimeout b h) →
      exec i u = .next t → t = { u with binds := t.binds })
end

