-- ==== Sys2Proof/Laws/Sparse.lean ====
section
/-! SUPPORT. Tables by number: what is read after a change, and that every change keeps the canonical form of the memory. -/

namespace Sys2Proof.Machine

/-! ### Read after write -/

theorem sfind_sset {β : Type} (t : Sparse β) (k j : Nat) (v : β) :
    sfind (sset t k v) j = if k = j then some v else sfind t j := by
  induction t with
  | nil => simp [sset, sfind]
  | cons p t ih =>
    obtain ⟨i, w⟩ := p
    unfold sset
    by_cases h1 : k < i
    · simp only [if_pos h1, sfind]
    · by_cases h2 : i = k
      · subst h2
        by_cases h3 : i = j <;> simp [sfind, h3]
      · simp only [if_neg h1, if_neg h2, sfind]
        by_cases h3 : i = j
        · subst h3
          simp [Ne.symm h2]
        · simp [h3, ih]

theorem sfind_sset_same {β : Type} (t : Sparse β) (k : Nat) (v : β) : sfind (sset t k v) k = some v := by
  simp [sfind_sset]

theorem sget_sset {β : Type} (t : Sparse β) (d : β) (k j : Nat) (v : β) :
    sget (sset t k v) d j = if k = j then v else sget t d j := by
  unfold sget
  rw [sfind_sset]
  split <;> rfl

@[simp] theorem sget_sset_same {β : Type} (t : Sparse β) (d : β) (k : Nat) (v : β) : sget (sset t k v) d k = v := by
  simp [sget_sset]

theorem sget_sset_ne {β : Type} (t : Sparse β) (d : β) {k j : Nat} (v : β) (h : k ≠ j) :
    sget (sset t k v) d j = sget t d j := by simp [sget_sset, h]

@[simp] theorem sfind_nil {β : Type} (k : Nat) : sfind ([] : Sparse β) k = none := rfl
@[simp] theorem sget_nil {β : Type} (d : β) (k : Nat) : sget ([] : Sparse β) d k = d := rfl

theorem sfind_filter {β : Type} (t : Sparse β) (p : Nat → Bool) (j : Nat) :
    sfind (t.filter fun q => p q.1) j = if p j then sfind t j else none := by
  induction t with
  | nil => simp
  | cons q t ih =>
    obtain ⟨i, w⟩ := q
    by_cases hp : p i
    · rw [List.filter_cons_of_pos (by simpa using hp)]
      by_cases h : i = j
      · subst h; simp [sfind, hp]
      · simp [sfind, h, ih]
    · rw [List.filter_cons_of_neg (by simpa using hp), ih]
      by_cases h : i = j
      · subst h; simp [hp]
      · simp [sfind, h]

theorem sfind_sdel {β : Type} (t : Sparse β) (k j : Nat) : sfind (sdel t k) j = if j = k then none else sfind t j := by
  have h := sfind_filter t (fun i => !(i == k)) j
  unfold sdel
  rw [h]
  by_cases hj : j = k <;> simp [hj]

/-! ### The canonical form of the memory -/

theorem memWf_iff (m : List Host.Cell) :
    Memory.wf m = true ↔ m.Pairwise (fun p q => p.1 < q.1) ∧ ∀ p ∈ m, p.2 ≠ 0 := by
  simp [Memory.wf]

theorem mem_sset {β : Type} {t : Sparse β} {k : Nat} {v : β} {p : Nat × β} (h : p ∈ sset t k v) :
    p = (k, v) ∨ p ∈ t := by
  induction t with
  | nil => simpa [sset] using h
  | cons q t ih =>
    obtain ⟨i, w⟩ := q
    unfold sset at h
    split at h
    · simpa using h
    · split at h
      · rcases List.mem_cons.1 h with h | h
        · exact .inl h
        · exact .inr (List.mem_cons_of_mem _ h)
      · rcases List.mem_cons.1 h with h | h
        · exact .inr (by simp [h])
        · exact (ih h).imp id (List.mem_cons_of_mem _)

theorem sset_sorted {β : Type} (t : Sparse β) (k : Nat) (v : β) (h : t.Pairwise fun p q => p.1 < q.1) :
    (sset t k v).Pairwise fun p q => p.1 < q.1 := by
  induction t with
  | nil => simp [sset]
  | cons q t ih =>
    obtain ⟨i, w⟩ := q
    obtain ⟨h1, h2⟩ := List.pairwise_cons.1 h
    unfold sset
    split
    · rename_i hk
      refine List.pairwise_cons.2 ⟨fun p hp => ?_, h⟩
      rcases List.mem_cons.1 hp with rfl | hp
      · exact hk
      · exact lt_trans hk (h1 p hp)
    · split
      · rename_i hk
        subst hk
        exact List.pairwise_cons.2 ⟨h1, h2⟩
      · refine List.pairwise_cons.2 ⟨fun p hp => ?_, ih h2⟩
        rcases mem_sset hp with rfl | hp
        · simp only; omega
        · exact h1 p hp

theorem memWf_filter (m : List Host.Cell) (p : Host.Cell → Bool) (h : Memory.wf m = true) :
    Memory.wf (m.filter p) = true := by
  rw [memWf_iff] at h ⊢
  exact ⟨h.1.filter p, fun q hq => h.2 q (List.mem_filter.1 hq).1⟩

theorem memWf_set (m : List Host.Cell) (k : Nat) (b : Byte) (h : Memory.wf m = true) :
    Memory.wf (memSet m k b) = true := by
  unfold memSet
  split
  · exact memWf_filter m _ h
  · rename_i hb
    rw [memWf_iff] at h ⊢
    refine ⟨sset_sorted m k b h.1, fun p hp => ?_⟩
    rcases mem_sset hp with rfl | hp
    · exact hb
    · exact h.2 p hp

theorem memWf_writeAll (r : Region) (skip : Nat → Bool) (l : List Byte) :
    ∀ (m : List Host.Cell) (a : Nat), Memory.wf m = true → Memory.wf (memWriteAll m r skip a l) = true := by
  induction l with
  | nil => intro m a h; simpa [memWriteAll] using h
  | cons b l ih =>
    intro m a h
    unfold memWriteAll
    apply ih
    split
    · exact h
    · exact memWf_set m _ b h

theorem memGet_set (m : List Host.Cell) (k j : Nat) (b : Byte) :
    memGet (memSet m k b) j = if k = j then b else memGet m j := by
  unfold memGet memSet
  split
  · rename_i hb
    rw [sfind_sdel]
    by_cases h : j = k
    · simp [h, hb]
    · simp [h, Ne.symm h]
  · rw [sfind_sset]
    split <;> rfl

end Sys2Proof.Machine
end

