-- ==== Sys2Proof/Laws/State.lean ====
section
/-! SUPPORT. What each update of the state leaves and changes: one lemma per field per update, true by unfolding, so that no
proof unfolds an update. -/

namespace Sys2Proof.Machine

/-! ### setHall -/

@[simp] theorem State.setHall_now (s : State) (n : Nat) (x : Hall) : (s.setHall n x).now = s.now := rfl
@[simp] theorem State.setHall_fresh (s : State) (n : Nat) (x : Hall) : (s.setHall n x).fresh = s.fresh := rfl
@[simp] theorem State.setHall_porter (s : State) (n : Nat) (x : Hall) : (s.setHall n x).porter = s.porter := rfl
@[simp] theorem State.setHall_halls (s : State) (n : Nat) (x : Hall) : (s.setHall n x).halls = sset s.halls n x := rfl
@[simp] theorem State.setHall_stairs (s : State) (n : Nat) (x : Hall) : (s.setHall n x).stairs = s.stairs := rfl
@[simp] theorem State.setHall_landings (s : State) (n : Nat) (x : Hall) : (s.setHall n x).landings = s.landings := rfl
@[simp] theorem State.setHall_mem (s : State) (n : Nat) (x : Hall) : (s.setHall n x).mem = s.mem := rfl
@[simp] theorem State.setHall_poison (s : State) (n : Nat) (x : Hall) : (s.setHall n x).poison = s.poison := rfl
@[simp] theorem State.setHall_claims (s : State) (n : Nat) (x : Hall) : (s.setHall n x).claims = s.claims := rfl
@[simp] theorem State.setHall_nextClaim (s : State) (n : Nat) (x : Hall) : (s.setHall n x).nextClaim = s.nextClaim := rfl
@[simp] theorem State.setHall_vols (s : State) (n : Nat) (x : Hall) : (s.setHall n x).vols = s.vols := rfl
@[simp] theorem State.setHall_jobs (s : State) (n : Nat) (x : Hall) : (s.setHall n x).jobs = s.jobs := rfl
@[simp] theorem State.setHall_leaves (s : State) (n : Nat) (x : Hall) : (s.setHall n x).leaves = s.leaves := rfl
@[simp] theorem State.setHall_shadows (s : State) (n : Nat) (x : Hall) : (s.setHall n x).shadows = s.shadows := rfl
@[simp] theorem State.setHall_pairs (s : State) (n : Nat) (x : Hall) : (s.setHall n x).pairs = s.pairs := rfl
@[simp] theorem State.setHall_refs (s : State) (n : Nat) (x : Hall) : (s.setHall n x).refs = s.refs := rfl
@[simp] theorem State.setHall_slots (s : State) (n : Nat) (x : Hall) : (s.setHall n x).slots = s.slots := rfl
@[simp] theorem State.setHall_parkUsed (s : State) (n : Nat) (x : Hall) : (s.setHall n x).parkUsed = s.parkUsed := rfl
@[simp] theorem State.setHall_farUsed (s : State) (n : Nat) (x : Hall) : (s.setHall n x).farUsed = s.farUsed := rfl
@[simp] theorem State.setHall_spineUsed (s : State) (n : Nat) (x : Hall) : (s.setHall n x).spineUsed = s.spineUsed := rfl
@[simp] theorem State.setHall_plans (s : State) (n : Nat) (x : Hall) : (s.setHall n x).plans = s.plans := rfl
@[simp] theorem State.setHall_steps (s : State) (n : Nat) (x : Hall) : (s.setHall n x).steps = s.steps := rfl
@[simp] theorem State.setHall_nextStep (s : State) (n : Nat) (x : Hall) : (s.setHall n x).nextStep = s.nextStep := rfl
@[simp] theorem State.setHall_unpins (s : State) (n : Nat) (x : Hall) : (s.setHall n x).unpins = s.unpins := rfl
@[simp] theorem State.setHall_kept (s : State) (n : Nat) (x : Hall) : (s.setHall n x).kept = s.kept := rfl
@[simp] theorem State.setHall_clasps (s : State) (n : Nat) (x : Hall) : (s.setHall n x).clasps = s.clasps := rfl
@[simp] theorem State.setHall_retries (s : State) (n : Nat) (x : Hall) : (s.setHall n x).retries = s.retries := rfl
@[simp] theorem State.setHall_binds (s : State) (n : Nat) (x : Hall) : (s.setHall n x).binds = s.binds := rfl
@[simp] theorem State.setHall_nextBind (s : State) (n : Nat) (x : Hall) : (s.setHall n x).nextBind = s.nextBind := rfl
@[simp] theorem State.setHall_out (s : State) (n : Nat) (x : Hall) : (s.setHall n x).out = s.out := rfl
@[simp] theorem State.setHall_pending (s : State) (n : Nat) (x : Hall) : (s.setHall n x).pending = s.pending := rfl
@[simp] theorem State.setHall_stair (s : State) (n : Nat) (x : Hall) (k j : Nat) : (s.setHall n x).stair k j = s.stair k j := rfl
@[simp] theorem State.setHall_landing (s : State) (n : Nat) (x : Hall) (k j i : Nat) : (s.setHall n x).landing k j i = s.landing k j i := rfl
@[simp] theorem State.setHall_vol (s : State) (n : Nat) (x : Hall) (k : Nat) : (s.setHall n x).vol k = s.vol k := rfl
@[simp] theorem State.setHall_job (s : State) (n : Nat) (x : Hall) (k : Nat) : (s.setHall n x).job k = s.job k := rfl
@[simp] theorem State.setHall_clasp (s : State) (n : Nat) (x : Hall) (k : Nat) : (s.setHall n x).clasp k = s.clasp k := rfl
@[simp] theorem State.setHall_claim (s : State) (n : Nat) (x : Hall) (k : Nat) : (s.setHall n x).claim? k = s.claim? k := rfl
@[simp] theorem State.setHall_byte (s : State) (n : Nat) (x : Hall) (q : Region) (k : Nat) : (s.setHall n x).byte q k = s.byte q k := rfl
@[simp] theorem State.setHall_running (s : State) (n : Nat) (x : Hall) : (s.setHall n x).running = s.running := rfl

/-! ### modHall -/

@[simp] theorem State.modHall_now (s : State) (n : Nat) (f : Hall → Hall) : (s.modHall n f).now = s.now := rfl
@[simp] theorem State.modHall_fresh (s : State) (n : Nat) (f : Hall → Hall) : (s.modHall n f).fresh = s.fresh := rfl
@[simp] theorem State.modHall_porter (s : State) (n : Nat) (f : Hall → Hall) : (s.modHall n f).porter = s.porter := rfl
@[simp] theorem State.modHall_halls (s : State) (n : Nat) (f : Hall → Hall) : (s.modHall n f).halls = sset s.halls n (f (s.hall n)) := rfl
@[simp] theorem State.modHall_stairs (s : State) (n : Nat) (f : Hall → Hall) : (s.modHall n f).stairs = s.stairs := rfl
@[simp] theorem State.modHall_landings (s : State) (n : Nat) (f : Hall → Hall) : (s.modHall n f).landings = s.landings := rfl
@[simp] theorem State.modHall_mem (s : State) (n : Nat) (f : Hall → Hall) : (s.modHall n f).mem = s.mem := rfl
@[simp] theorem State.modHall_poison (s : State) (n : Nat) (f : Hall → Hall) : (s.modHall n f).poison = s.poison := rfl
@[simp] theorem State.modHall_claims (s : State) (n : Nat) (f : Hall → Hall) : (s.modHall n f).claims = s.claims := rfl
@[simp] theorem State.modHall_nextClaim (s : State) (n : Nat) (f : Hall → Hall) : (s.modHall n f).nextClaim = s.nextClaim := rfl
@[simp] theorem State.modHall_vols (s : State) (n : Nat) (f : Hall → Hall) : (s.modHall n f).vols = s.vols := rfl
@[simp] theorem State.modHall_jobs (s : State) (n : Nat) (f : Hall → Hall) : (s.modHall n f).jobs = s.jobs := rfl
@[simp] theorem State.modHall_leaves (s : State) (n : Nat) (f : Hall → Hall) : (s.modHall n f).leaves = s.leaves := rfl
@[simp] theorem State.modHall_shadows (s : State) (n : Nat) (f : Hall → Hall) : (s.modHall n f).shadows = s.shadows := rfl
@[simp] theorem State.modHall_pairs (s : State) (n : Nat) (f : Hall → Hall) : (s.modHall n f).pairs = s.pairs := rfl
@[simp] theorem State.modHall_refs (s : State) (n : Nat) (f : Hall → Hall) : (s.modHall n f).refs = s.refs := rfl
@[simp] theorem State.modHall_slots (s : State) (n : Nat) (f : Hall → Hall) : (s.modHall n f).slots = s.slots := rfl
@[simp] theorem State.modHall_parkUsed (s : State) (n : Nat) (f : Hall → Hall) : (s.modHall n f).parkUsed = s.parkUsed := rfl
@[simp] theorem State.modHall_farUsed (s : State) (n : Nat) (f : Hall → Hall) : (s.modHall n f).farUsed = s.farUsed := rfl
@[simp] theorem State.modHall_spineUsed (s : State) (n : Nat) (f : Hall → Hall) : (s.modHall n f).spineUsed = s.spineUsed := rfl
@[simp] theorem State.modHall_plans (s : State) (n : Nat) (f : Hall → Hall) : (s.modHall n f).plans = s.plans := rfl
@[simp] theorem State.modHall_steps (s : State) (n : Nat) (f : Hall → Hall) : (s.modHall n f).steps = s.steps := rfl
@[simp] theorem State.modHall_nextStep (s : State) (n : Nat) (f : Hall → Hall) : (s.modHall n f).nextStep = s.nextStep := rfl
@[simp] theorem State.modHall_unpins (s : State) (n : Nat) (f : Hall → Hall) : (s.modHall n f).unpins = s.unpins := rfl
@[simp] theorem State.modHall_kept (s : State) (n : Nat) (f : Hall → Hall) : (s.modHall n f).kept = s.kept := rfl
@[simp] theorem State.modHall_clasps (s : State) (n : Nat) (f : Hall → Hall) : (s.modHall n f).clasps = s.clasps := rfl
@[simp] theorem State.modHall_retries (s : State) (n : Nat) (f : Hall → Hall) : (s.modHall n f).retries = s.retries := rfl
@[simp] theorem State.modHall_binds (s : State) (n : Nat) (f : Hall → Hall) : (s.modHall n f).binds = s.binds := rfl
@[simp] theorem State.modHall_nextBind (s : State) (n : Nat) (f : Hall → Hall) : (s.modHall n f).nextBind = s.nextBind := rfl
@[simp] theorem State.modHall_out (s : State) (n : Nat) (f : Hall → Hall) : (s.modHall n f).out = s.out := rfl
@[simp] theorem State.modHall_pending (s : State) (n : Nat) (f : Hall → Hall) : (s.modHall n f).pending = s.pending := rfl
@[simp] theorem State.modHall_stair (s : State) (n : Nat) (f : Hall → Hall) (k j : Nat) : (s.modHall n f).stair k j = s.stair k j := rfl
@[simp] theorem State.modHall_landing (s : State) (n : Nat) (f : Hall → Hall) (k j i : Nat) : (s.modHall n f).landing k j i = s.landing k j i := rfl
@[simp] theorem State.modHall_vol (s : State) (n : Nat) (f : Hall → Hall) (k : Nat) : (s.modHall n f).vol k = s.vol k := rfl
@[simp] theorem State.modHall_job (s : State) (n : Nat) (f : Hall → Hall) (k : Nat) : (s.modHall n f).job k = s.job k := rfl
@[simp] theorem State.modHall_clasp (s : State) (n : Nat) (f : Hall → Hall) (k : Nat) : (s.modHall n f).clasp k = s.clasp k := rfl
@[simp] theorem State.modHall_claim (s : State) (n : Nat) (f : Hall → Hall) (k : Nat) : (s.modHall n f).claim? k = s.claim? k := rfl
@[simp] theorem State.modHall_byte (s : State) (n : Nat) (f : Hall → Hall) (q : Region) (k : Nat) : (s.modHall n f).byte q k = s.byte q k := rfl
@[simp] theorem State.modHall_running (s : State) (n : Nat) (f : Hall → Hall) : (s.modHall n f).running = s.running := rfl

/-! ### modRegs -/

@[simp] theorem State.modRegs_now (s : State) (n : Nat) (f : HallRegs → HallRegs) : (s.modRegs n f).now = s.now := rfl
@[simp] theorem State.modRegs_fresh (s : State) (n : Nat) (f : HallRegs → HallRegs) : (s.modRegs n f).fresh = s.fresh := rfl
@[simp] theorem State.modRegs_porter (s : State) (n : Nat) (f : HallRegs → HallRegs) : (s.modRegs n f).porter = s.porter := rfl
@[simp] theorem State.modRegs_halls (s : State) (n : Nat) (f : HallRegs → HallRegs) : (s.modRegs n f).halls = sset s.halls n { s.hall n with regs := f (s.hall n).regs } := rfl
@[simp] theorem State.modRegs_stairs (s : State) (n : Nat) (f : HallRegs → HallRegs) : (s.modRegs n f).stairs = s.stairs := rfl
@[simp] theorem State.modRegs_landings (s : State) (n : Nat) (f : HallRegs → HallRegs) : (s.modRegs n f).landings = s.landings := rfl
@[simp] theorem State.modRegs_mem (s : State) (n : Nat) (f : HallRegs → HallRegs) : (s.modRegs n f).mem = s.mem := rfl
@[simp] theorem State.modRegs_poison (s : State) (n : Nat) (f : HallRegs → HallRegs) : (s.modRegs n f).poison = s.poison := rfl
@[simp] theorem State.modRegs_claims (s : State) (n : Nat) (f : HallRegs → HallRegs) : (s.modRegs n f).claims = s.claims := rfl
@[simp] theorem State.modRegs_nextClaim (s : State) (n : Nat) (f : HallRegs → HallRegs) : (s.modRegs n f).nextClaim = s.nextClaim := rfl
@[simp] theorem State.modRegs_vols (s : State) (n : Nat) (f : HallRegs → HallRegs) : (s.modRegs n f).vols = s.vols := rfl
@[simp] theorem State.modRegs_jobs (s : State) (n : Nat) (f : HallRegs → HallRegs) : (s.modRegs n f).jobs = s.jobs := rfl
@[simp] theorem State.modRegs_leaves (s : State) (n : Nat) (f : HallRegs → HallRegs) : (s.modRegs n f).leaves = s.leaves := rfl
@[simp] theorem State.modRegs_shadows (s : State) (n : Nat) (f : HallRegs → HallRegs) : (s.modRegs n f).shadows = s.shadows := rfl
@[simp] theorem State.modRegs_pairs (s : State) (n : Nat) (f : HallRegs → HallRegs) : (s.modRegs n f).pairs = s.pairs := rfl
@[simp] theorem State.modRegs_refs (s : State) (n : Nat) (f : HallRegs → HallRegs) : (s.modRegs n f).refs = s.refs := rfl
@[simp] theorem State.modRegs_slots (s : State) (n : Nat) (f : HallRegs → HallRegs) : (s.modRegs n f).slots = s.slots := rfl
@[simp] theorem State.modRegs_parkUsed (s : State) (n : Nat) (f : HallRegs → HallRegs) : (s.modRegs n f).parkUsed = s.parkUsed := rfl
@[simp] theorem State.modRegs_farUsed (s : State) (n : Nat) (f : HallRegs → HallRegs) : (s.modRegs n f).farUsed = s.farUsed := rfl
@[simp] theorem State.modRegs_spineUsed (s : State) (n : Nat) (f : HallRegs → HallRegs) : (s.modRegs n f).spineUsed = s.spineUsed := rfl
@[simp] theorem State.modRegs_plans (s : State) (n : Nat) (f : HallRegs → HallRegs) : (s.modRegs n f).plans = s.plans := rfl
@[simp] theorem State.modRegs_steps (s : State) (n : Nat) (f : HallRegs → HallRegs) : (s.modRegs n f).steps = s.steps := rfl
@[simp] theorem State.modRegs_nextStep (s : State) (n : Nat) (f : HallRegs → HallRegs) : (s.modRegs n f).nextStep = s.nextStep := rfl
@[simp] theorem State.modRegs_unpins (s : State) (n : Nat) (f : HallRegs → HallRegs) : (s.modRegs n f).unpins = s.unpins := rfl
@[simp] theorem State.modRegs_kept (s : State) (n : Nat) (f : HallRegs → HallRegs) : (s.modRegs n f).kept = s.kept := rfl
@[simp] theorem State.modRegs_clasps (s : State) (n : Nat) (f : HallRegs → HallRegs) : (s.modRegs n f).clasps = s.clasps := rfl
@[simp] theorem State.modRegs_retries (s : State) (n : Nat) (f : HallRegs → HallRegs) : (s.modRegs n f).retries = s.retries := rfl
@[simp] theorem State.modRegs_binds (s : State) (n : Nat) (f : HallRegs → HallRegs) : (s.modRegs n f).binds = s.binds := rfl
@[simp] theorem State.modRegs_nextBind (s : State) (n : Nat) (f : HallRegs → HallRegs) : (s.modRegs n f).nextBind = s.nextBind := rfl
@[simp] theorem State.modRegs_out (s : State) (n : Nat) (f : HallRegs → HallRegs) : (s.modRegs n f).out = s.out := rfl
@[simp] theorem State.modRegs_pending (s : State) (n : Nat) (f : HallRegs → HallRegs) : (s.modRegs n f).pending = s.pending := rfl
@[simp] theorem State.modRegs_stair (s : State) (n : Nat) (f : HallRegs → HallRegs) (k j : Nat) : (s.modRegs n f).stair k j = s.stair k j := rfl
@[simp] theorem State.modRegs_landing (s : State) (n : Nat) (f : HallRegs → HallRegs) (k j i : Nat) : (s.modRegs n f).landing k j i = s.landing k j i := rfl
@[simp] theorem State.modRegs_vol (s : State) (n : Nat) (f : HallRegs → HallRegs) (k : Nat) : (s.modRegs n f).vol k = s.vol k := rfl
@[simp] theorem State.modRegs_job (s : State) (n : Nat) (f : HallRegs → HallRegs) (k : Nat) : (s.modRegs n f).job k = s.job k := rfl
@[simp] theorem State.modRegs_clasp (s : State) (n : Nat) (f : HallRegs → HallRegs) (k : Nat) : (s.modRegs n f).clasp k = s.clasp k := rfl
@[simp] theorem State.modRegs_claim (s : State) (n : Nat) (f : HallRegs → HallRegs) (k : Nat) : (s.modRegs n f).claim? k = s.claim? k := rfl
@[simp] theorem State.modRegs_byte (s : State) (n : Nat) (f : HallRegs → HallRegs) (q : Region) (k : Nat) : (s.modRegs n f).byte q k = s.byte q k := rfl
@[simp] theorem State.modRegs_running (s : State) (n : Nat) (f : HallRegs → HallRegs) : (s.modRegs n f).running = s.running := rfl

/-! ### setStair -/

@[simp] theorem State.setStair_now (s : State) (n w : Nat) (x : Stairwell) : (s.setStair n w x).now = s.now := rfl
@[simp] theorem State.setStair_fresh (s : State) (n w : Nat) (x : Stairwell) : (s.setStair n w x).fresh = s.fresh := rfl
@[simp] theorem State.setStair_porter (s : State) (n w : Nat) (x : Stairwell) : (s.setStair n w x).porter = s.porter := rfl
@[simp] theorem State.setStair_halls (s : State) (n w : Nat) (x : Stairwell) : (s.setStair n w x).halls = s.halls := rfl
@[simp] theorem State.setStair_stairs (s : State) (n w : Nat) (x : Stairwell) : (s.setStair n w x).stairs = sset s.stairs (swKey n w) x := rfl
@[simp] theorem State.setStair_landings (s : State) (n w : Nat) (x : Stairwell) : (s.setStair n w x).landings = s.landings := rfl
@[simp] theorem State.setStair_mem (s : State) (n w : Nat) (x : Stairwell) : (s.setStair n w x).mem = s.mem := rfl
@[simp] theorem State.setStair_poison (s : State) (n w : Nat) (x : Stairwell) : (s.setStair n w x).poison = s.poison := rfl
@[simp] theorem State.setStair_claims (s : State) (n w : Nat) (x : Stairwell) : (s.setStair n w x).claims = s.claims := rfl
@[simp] theorem State.setStair_nextClaim (s : State) (n w : Nat) (x : Stairwell) : (s.setStair n w x).nextClaim = s.nextClaim := rfl
@[simp] theorem State.setStair_vols (s : State) (n w : Nat) (x : Stairwell) : (s.setStair n w x).vols = s.vols := rfl
@[simp] theorem State.setStair_jobs (s : State) (n w : Nat) (x : Stairwell) : (s.setStair n w x).jobs = s.jobs := rfl
@[simp] theorem State.setStair_leaves (s : State) (n w : Nat) (x : Stairwell) : (s.setStair n w x).leaves = s.leaves := rfl
@[simp] theorem State.setStair_shadows (s : State) (n w : Nat) (x : Stairwell) : (s.setStair n w x).shadows = s.shadows := rfl
@[simp] theorem State.setStair_pairs (s : State) (n w : Nat) (x : Stairwell) : (s.setStair n w x).pairs = s.pairs := rfl
@[simp] theorem State.setStair_refs (s : State) (n w : Nat) (x : Stairwell) : (s.setStair n w x).refs = s.refs := rfl
@[simp] theorem State.setStair_slots (s : State) (n w : Nat) (x : Stairwell) : (s.setStair n w x).slots = s.slots := rfl
@[simp] theorem State.setStair_parkUsed (s : State) (n w : Nat) (x : Stairwell) : (s.setStair n w x).parkUsed = s.parkUsed := rfl
@[simp] theorem State.setStair_farUsed (s : State) (n w : Nat) (x : Stairwell) : (s.setStair n w x).farUsed = s.farUsed := rfl
@[simp] theorem State.setStair_spineUsed (s : State) (n w : Nat) (x : Stairwell) : (s.setStair n w x).spineUsed = s.spineUsed := rfl
@[simp] theorem State.setStair_plans (s : State) (n w : Nat) (x : Stairwell) : (s.setStair n w x).plans = s.plans := rfl
@[simp] theorem State.setStair_steps (s : State) (n w : Nat) (x : Stairwell) : (s.setStair n w x).steps = s.steps := rfl
@[simp] theorem State.setStair_nextStep (s : State) (n w : Nat) (x : Stairwell) : (s.setStair n w x).nextStep = s.nextStep := rfl
@[simp] theorem State.setStair_unpins (s : State) (n w : Nat) (x : Stairwell) : (s.setStair n w x).unpins = s.unpins := rfl
@[simp] theorem State.setStair_kept (s : State) (n w : Nat) (x : Stairwell) : (s.setStair n w x).kept = s.kept := rfl
@[simp] theorem State.setStair_clasps (s : State) (n w : Nat) (x : Stairwell) : (s.setStair n w x).clasps = s.clasps := rfl
@[simp] theorem State.setStair_retries (s : State) (n w : Nat) (x : Stairwell) : (s.setStair n w x).retries = s.retries := rfl
@[simp] theorem State.setStair_binds (s : State) (n w : Nat) (x : Stairwell) : (s.setStair n w x).binds = s.binds := rfl
@[simp] theorem State.setStair_nextBind (s : State) (n w : Nat) (x : Stairwell) : (s.setStair n w x).nextBind = s.nextBind := rfl
@[simp] theorem State.setStair_out (s : State) (n w : Nat) (x : Stairwell) : (s.setStair n w x).out = s.out := rfl
@[simp] theorem State.setStair_pending (s : State) (n w : Nat) (x : Stairwell) : (s.setStair n w x).pending = s.pending := rfl
@[simp] theorem State.setStair_hall (s : State) (n w : Nat) (x : Stairwell) (k : Nat) : (s.setStair n w x).hall k = s.hall k := rfl
@[simp] theorem State.setStair_landing (s : State) (n w : Nat) (x : Stairwell) (k j i : Nat) : (s.setStair n w x).landing k j i = s.landing k j i := rfl
@[simp] theorem State.setStair_vol (s : State) (n w : Nat) (x : Stairwell) (k : Nat) : (s.setStair n w x).vol k = s.vol k := rfl
@[simp] theorem State.setStair_job (s : State) (n w : Nat) (x : Stairwell) (k : Nat) : (s.setStair n w x).job k = s.job k := rfl
@[simp] theorem State.setStair_clasp (s : State) (n w : Nat) (x : Stairwell) (k : Nat) : (s.setStair n w x).clasp k = s.clasp k := rfl
@[simp] theorem State.setStair_claim (s : State) (n w : Nat) (x : Stairwell) (k : Nat) : (s.setStair n w x).claim? k = s.claim? k := rfl
@[simp] theorem State.setStair_byte (s : State) (n w : Nat) (x : Stairwell) (q : Region) (k : Nat) : (s.setStair n w x).byte q k = s.byte q k := rfl
@[simp] theorem State.setStair_hallNet (s : State) (n w : Nat) (x : Stairwell) (k : Nat) : (s.setStair n w x).hallNet k = s.hallNet k := rfl
@[simp] theorem State.setStair_hallUp (s : State) (n w : Nat) (x : Stairwell) (k : Nat) : (s.setStair n w x).hallUp k = s.hallUp k := rfl
@[simp] theorem State.setStair_running (s : State) (n w : Nat) (x : Stairwell) : (s.setStair n w x).running = s.running := rfl

/-! ### modStair -/

@[simp] theorem State.modStair_now (s : State) (n w : Nat) (f : Stairwell → Stairwell) : (s.modStair n w f).now = s.now := rfl
@[simp] theorem State.modStair_fresh (s : State) (n w : Nat) (f : Stairwell → Stairwell) : (s.modStair n w f).fresh = s.fresh := rfl
@[simp] theorem State.modStair_porter (s : State) (n w : Nat) (f : Stairwell → Stairwell) : (s.modStair n w f).porter = s.porter := rfl
@[simp] theorem State.modStair_halls (s : State) (n w : Nat) (f : Stairwell → Stairwell) : (s.modStair n w f).halls = s.halls := rfl
@[simp] theorem State.modStair_stairs (s : State) (n w : Nat) (f : Stairwell → Stairwell) : (s.modStair n w f).stairs = sset s.stairs (swKey n w) (f (s.stair n w)) := rfl
@[simp] theorem State.modStair_landings (s : State) (n w : Nat) (f : Stairwell → Stairwell) : (s.modStair n w f).landings = s.landings := rfl
@[simp] theorem State.modStair_mem (s : State) (n w : Nat) (f : Stairwell → Stairwell) : (s.modStair n w f).mem = s.mem := rfl
@[simp] theorem State.modStair_poison (s : State) (n w : Nat) (f : Stairwell → Stairwell) : (s.modStair n w f).poison = s.poison := rfl
@[simp] theorem State.modStair_claims (s : State) (n w : Nat) (f : Stairwell → Stairwell) : (s.modStair n w f).claims = s.claims := rfl
@[simp] theorem State.modStair_nextClaim (s : State) (n w : Nat) (f : Stairwell → Stairwell) : (s.modStair n w f).nextClaim = s.nextClaim := rfl
@[simp] theorem State.modStair_vols (s : State) (n w : Nat) (f : Stairwell → Stairwell) : (s.modStair n w f).vols = s.vols := rfl
@[simp] theorem State.modStair_jobs (s : State) (n w : Nat) (f : Stairwell → Stairwell) : (s.modStair n w f).jobs = s.jobs := rfl
@[simp] theorem State.modStair_leaves (s : State) (n w : Nat) (f : Stairwell → Stairwell) : (s.modStair n w f).leaves = s.leaves := rfl
@[simp] theorem State.modStair_shadows (s : State) (n w : Nat) (f : Stairwell → Stairwell) : (s.modStair n w f).shadows = s.shadows := rfl
@[simp] theorem State.modStair_pairs (s : State) (n w : Nat) (f : Stairwell → Stairwell) : (s.modStair n w f).pairs = s.pairs := rfl
@[simp] theorem State.modStair_refs (s : State) (n w : Nat) (f : Stairwell → Stairwell) : (s.modStair n w f).refs = s.refs := rfl
@[simp] theorem State.modStair_slots (s : State) (n w : Nat) (f : Stairwell → Stairwell) : (s.modStair n w f).slots = s.slots := rfl
@[simp] theorem State.modStair_parkUsed (s : State) (n w : Nat) (f : Stairwell → Stairwell) : (s.modStair n w f).parkUsed = s.parkUsed := rfl
@[simp] theorem State.modStair_farUsed (s : State) (n w : Nat) (f : Stairwell → Stairwell) : (s.modStair n w f).farUsed = s.farUsed := rfl
@[simp] theorem State.modStair_spineUsed (s : State) (n w : Nat) (f : Stairwell → Stairwell) : (s.modStair n w f).spineUsed = s.spineUsed := rfl
@[simp] theorem State.modStair_plans (s : State) (n w : Nat) (f : Stairwell → Stairwell) : (s.modStair n w f).plans = s.plans := rfl
@[simp] theorem State.modStair_steps (s : State) (n w : Nat) (f : Stairwell → Stairwell) : (s.modStair n w f).steps = s.steps := rfl
@[simp] theorem State.modStair_nextStep (s : State) (n w : Nat) (f : Stairwell → Stairwell) : (s.modStair n w f).nextStep = s.nextStep := rfl
@[simp] theorem State.modStair_unpins (s : State) (n w : Nat) (f : Stairwell → Stairwell) : (s.modStair n w f).unpins = s.unpins := rfl
@[simp] theorem State.modStair_kept (s : State) (n w : Nat) (f : Stairwell → Stairwell) : (s.modStair n w f).kept = s.kept := rfl
@[simp] theorem State.modStair_clasps (s : State) (n w : Nat) (f : Stairwell → Stairwell) : (s.modStair n w f).clasps = s.clasps := rfl
@[simp] theorem State.modStair_retries (s : State) (n w : Nat) (f : Stairwell → Stairwell) : (s.modStair n w f).retries = s.retries := rfl
@[simp] theorem State.modStair_binds (s : State) (n w : Nat) (f : Stairwell → Stairwell) : (s.modStair n w f).binds = s.binds := rfl
@[simp] theorem State.modStair_nextBind (s : State) (n w : Nat) (f : Stairwell → Stairwell) : (s.modStair n w f).nextBind = s.nextBind := rfl
@[simp] theorem State.modStair_out (s : State) (n w : Nat) (f : Stairwell → Stairwell) : (s.modStair n w f).out = s.out := rfl
@[simp] theorem State.modStair_pending (s : State) (n w : Nat) (f : Stairwell → Stairwell) : (s.modStair n w f).pending = s.pending := rfl
@[simp] theorem State.modStair_hall (s : State) (n w : Nat) (f : Stairwell → Stairwell) (k : Nat) : (s.modStair n w f).hall k = s.hall k := rfl
@[simp] theorem State.modStair_landing (s : State) (n w : Nat) (f : Stairwell → Stairwell) (k j i : Nat) : (s.modStair n w f).landing k j i = s.landing k j i := rfl
@[simp] theorem State.modStair_vol (s : State) (n w : Nat) (f : Stairwell → Stairwell) (k : Nat) : (s.modStair n w f).vol k = s.vol k := rfl
@[simp] theorem State.modStair_job (s : State) (n w : Nat) (f : Stairwell → Stairwell) (k : Nat) : (s.modStair n w f).job k = s.job k := rfl
@[simp] theorem State.modStair_clasp (s : State) (n w : Nat) (f : Stairwell → Stairwell) (k : Nat) : (s.modStair n w f).clasp k = s.clasp k := rfl
@[simp] theorem State.modStair_claim (s : State) (n w : Nat) (f : Stairwell → Stairwell) (k : Nat) : (s.modStair n w f).claim? k = s.claim? k := rfl
@[simp] theorem State.modStair_byte (s : State) (n w : Nat) (f : Stairwell → Stairwell) (q : Region) (k : Nat) : (s.modStair n w f).byte q k = s.byte q k := rfl
@[simp] theorem State.modStair_hallNet (s : State) (n w : Nat) (f : Stairwell → Stairwell) (k : Nat) : (s.modStair n w f).hallNet k = s.hallNet k := rfl
@[simp] theorem State.modStair_hallUp (s : State) (n w : Nat) (f : Stairwell → Stairwell) (k : Nat) : (s.modStair n w f).hallUp k = s.hallUp k := rfl
@[simp] theorem State.modStair_running (s : State) (n w : Nat) (f : Stairwell → Stairwell) : (s.modStair n w f).running = s.running := rfl

/-! ### setLanding -/

@[simp] theorem State.setLanding_now (s : State) (n w l : Nat) (x : Landing) : (s.setLanding n w l x).now = s.now := rfl
@[simp] theorem State.setLanding_fresh (s : State) (n w l : Nat) (x : Landing) : (s.setLanding n w l x).fresh = s.fresh := rfl
@[simp] theorem State.setLanding_porter (s : State) (n w l : Nat) (x : Landing) : (s.setLanding n w l x).porter = s.porter := rfl
@[simp] theorem State.setLanding_halls (s : State) (n w l : Nat) (x : Landing) : (s.setLanding n w l x).halls = s.halls := rfl
@[simp] theorem State.setLanding_stairs (s : State) (n w l : Nat) (x : Landing) : (s.setLanding n w l x).stairs = s.stairs := rfl
@[simp] theorem State.setLanding_landings (s : State) (n w l : Nat) (x : Landing) : (s.setLanding n w l x).landings = sset s.landings (landKey n w l) x := rfl
@[simp] theorem State.setLanding_mem (s : State) (n w l : Nat) (x : Landing) : (s.setLanding n w l x).mem = s.mem := rfl
@[simp] theorem State.setLanding_poison (s : State) (n w l : Nat) (x : Landing) : (s.setLanding n w l x).poison = s.poison := rfl
@[simp] theorem State.setLanding_claims (s : State) (n w l : Nat) (x : Landing) : (s.setLanding n w l x).claims = s.claims := rfl
@[simp] theorem State.setLanding_nextClaim (s : State) (n w l : Nat) (x : Landing) : (s.setLanding n w l x).nextClaim = s.nextClaim := rfl
@[simp] theorem State.setLanding_vols (s : State) (n w l : Nat) (x : Landing) : (s.setLanding n w l x).vols = s.vols := rfl
@[simp] theorem State.setLanding_jobs (s : State) (n w l : Nat) (x : Landing) : (s.setLanding n w l x).jobs = s.jobs := rfl
@[simp] theorem State.setLanding_leaves (s : State) (n w l : Nat) (x : Landing) : (s.setLanding n w l x).leaves = s.leaves := rfl
@[simp] theorem State.setLanding_shadows (s : State) (n w l : Nat) (x : Landing) : (s.setLanding n w l x).shadows = s.shadows := rfl
@[simp] theorem State.setLanding_pairs (s : State) (n w l : Nat) (x : Landing) : (s.setLanding n w l x).pairs = s.pairs := rfl
@[simp] theorem State.setLanding_refs (s : State) (n w l : Nat) (x : Landing) : (s.setLanding n w l x).refs = s.refs := rfl
@[simp] theorem State.setLanding_slots (s : State) (n w l : Nat) (x : Landing) : (s.setLanding n w l x).slots = s.slots := rfl
@[simp] theorem State.setLanding_parkUsed (s : State) (n w l : Nat) (x : Landing) : (s.setLanding n w l x).parkUsed = s.parkUsed := rfl
@[simp] theorem State.setLanding_farUsed (s : State) (n w l : Nat) (x : Landing) : (s.setLanding n w l x).farUsed = s.farUsed := rfl
@[simp] theorem State.setLanding_spineUsed (s : State) (n w l : Nat) (x : Landing) : (s.setLanding n w l x).spineUsed = s.spineUsed := rfl
@[simp] theorem State.setLanding_plans (s : State) (n w l : Nat) (x : Landing) : (s.setLanding n w l x).plans = s.plans := rfl
@[simp] theorem State.setLanding_steps (s : State) (n w l : Nat) (x : Landing) : (s.setLanding n w l x).steps = s.steps := rfl
@[simp] theorem State.setLanding_nextStep (s : State) (n w l : Nat) (x : Landing) : (s.setLanding n w l x).nextStep = s.nextStep := rfl
@[simp] theorem State.setLanding_unpins (s : State) (n w l : Nat) (x : Landing) : (s.setLanding n w l x).unpins = s.unpins := rfl
@[simp] theorem State.setLanding_kept (s : State) (n w l : Nat) (x : Landing) : (s.setLanding n w l x).kept = s.kept := rfl
@[simp] theorem State.setLanding_clasps (s : State) (n w l : Nat) (x : Landing) : (s.setLanding n w l x).clasps = s.clasps := rfl
@[simp] theorem State.setLanding_retries (s : State) (n w l : Nat) (x : Landing) : (s.setLanding n w l x).retries = s.retries := rfl
@[simp] theorem State.setLanding_binds (s : State) (n w l : Nat) (x : Landing) : (s.setLanding n w l x).binds = s.binds := rfl
@[simp] theorem State.setLanding_nextBind (s : State) (n w l : Nat) (x : Landing) : (s.setLanding n w l x).nextBind = s.nextBind := rfl
@[simp] theorem State.setLanding_out (s : State) (n w l : Nat) (x : Landing) : (s.setLanding n w l x).out = s.out := rfl
@[simp] theorem State.setLanding_pending (s : State) (n w l : Nat) (x : Landing) : (s.setLanding n w l x).pending = s.pending := rfl
@[simp] theorem State.setLanding_hall (s : State) (n w l : Nat) (x : Landing) (k : Nat) : (s.setLanding n w l x).hall k = s.hall k := rfl
@[simp] theorem State.setLanding_stair (s : State) (n w l : Nat) (x : Landing) (k j : Nat) : (s.setLanding n w l x).stair k j = s.stair k j := rfl
@[simp] theorem State.setLanding_vol (s : State) (n w l : Nat) (x : Landing) (k : Nat) : (s.setLanding n w l x).vol k = s.vol k := rfl
@[simp] theorem State.setLanding_job (s : State) (n w l : Nat) (x : Landing) (k : Nat) : (s.setLanding n w l x).job k = s.job k := rfl
@[simp] theorem State.setLanding_clasp (s : State) (n w l : Nat) (x : Landing) (k : Nat) : (s.setLanding n w l x).clasp k = s.clasp k := rfl
@[simp] theorem State.setLanding_claim (s : State) (n w l : Nat) (x : Landing) (k : Nat) : (s.setLanding n w l x).claim? k = s.claim? k := rfl
@[simp] theorem State.setLanding_byte (s : State) (n w l : Nat) (x : Landing) (q : Region) (k : Nat) : (s.setLanding n w l x).byte q k = s.byte q k := rfl
@[simp] theorem State.setLanding_hallNet (s : State) (n w l : Nat) (x : Landing) (k : Nat) : (s.setLanding n w l x).hallNet k = s.hallNet k := rfl
@[simp] theorem State.setLanding_hallUp (s : State) (n w l : Nat) (x : Landing) (k : Nat) : (s.setLanding n w l x).hallUp k = s.hallUp k := rfl
@[simp] theorem State.setLanding_running (s : State) (n w l : Nat) (x : Landing) : (s.setLanding n w l x).running = s.running := rfl

/-! ### modLanding -/

@[simp] theorem State.modLanding_now (s : State) (n w l : Nat) (f : Landing → Landing) : (s.modLanding n w l f).now = s.now := rfl
@[simp] theorem State.modLanding_fresh (s : State) (n w l : Nat) (f : Landing → Landing) : (s.modLanding n w l f).fresh = s.fresh := rfl
@[simp] theorem State.modLanding_porter (s : State) (n w l : Nat) (f : Landing → Landing) : (s.modLanding n w l f).porter = s.porter := rfl
@[simp] theorem State.modLanding_halls (s : State) (n w l : Nat) (f : Landing → Landing) : (s.modLanding n w l f).halls = s.halls := rfl
@[simp] theorem State.modLanding_stairs (s : State) (n w l : Nat) (f : Landing → Landing) : (s.modLanding n w l f).stairs = s.stairs := rfl
@[simp] theorem State.modLanding_landings (s : State) (n w l : Nat) (f : Landing → Landing) : (s.modLanding n w l f).landings = sset s.landings (landKey n w l) (f (s.landing n w l)) := rfl
@[simp] theorem State.modLanding_mem (s : State) (n w l : Nat) (f : Landing → Landing) : (s.modLanding n w l f).mem = s.mem := rfl
@[simp] theorem State.modLanding_poison (s : State) (n w l : Nat) (f : Landing → Landing) : (s.modLanding n w l f).poison = s.poison := rfl
@[simp] theorem State.modLanding_claims (s : State) (n w l : Nat) (f : Landing → Landing) : (s.modLanding n w l f).claims = s.claims := rfl
@[simp] theorem State.modLanding_nextClaim (s : State) (n w l : Nat) (f : Landing → Landing) : (s.modLanding n w l f).nextClaim = s.nextClaim := rfl
@[simp] theorem State.modLanding_vols (s : State) (n w l : Nat) (f : Landing → Landing) : (s.modLanding n w l f).vols = s.vols := rfl
@[simp] theorem State.modLanding_jobs (s : State) (n w l : Nat) (f : Landing → Landing) : (s.modLanding n w l f).jobs = s.jobs := rfl
@[simp] theorem State.modLanding_leaves (s : State) (n w l : Nat) (f : Landing → Landing) : (s.modLanding n w l f).leaves = s.leaves := rfl
@[simp] theorem State.modLanding_shadows (s : State) (n w l : Nat) (f : Landing → Landing) : (s.modLanding n w l f).shadows = s.shadows := rfl
@[simp] theorem State.modLanding_pairs (s : State) (n w l : Nat) (f : Landing → Landing) : (s.modLanding n w l f).pairs = s.pairs := rfl
@[simp] theorem State.modLanding_refs (s : State) (n w l : Nat) (f : Landing → Landing) : (s.modLanding n w l f).refs = s.refs := rfl
@[simp] theorem State.modLanding_slots (s : State) (n w l : Nat) (f : Landing → Landing) : (s.modLanding n w l f).slots = s.slots := rfl
@[simp] theorem State.modLanding_parkUsed (s : State) (n w l : Nat) (f : Landing → Landing) : (s.modLanding n w l f).parkUsed = s.parkUsed := rfl
@[simp] theorem State.modLanding_farUsed (s : State) (n w l : Nat) (f : Landing → Landing) : (s.modLanding n w l f).farUsed = s.farUsed := rfl
@[simp] theorem State.modLanding_spineUsed (s : State) (n w l : Nat) (f : Landing → Landing) : (s.modLanding n w l f).spineUsed = s.spineUsed := rfl
@[simp] theorem State.modLanding_plans (s : State) (n w l : Nat) (f : Landing → Landing) : (s.modLanding n w l f).plans = s.plans := rfl
@[simp] theorem State.modLanding_steps (s : State) (n w l : Nat) (f : Landing → Landing) : (s.modLanding n w l f).steps = s.steps := rfl
@[simp] theorem State.modLanding_nextStep (s : State) (n w l : Nat) (f : Landing → Landing) : (s.modLanding n w l f).nextStep = s.nextStep := rfl
@[simp] theorem State.modLanding_unpins (s : State) (n w l : Nat) (f : Landing → Landing) : (s.modLanding n w l f).unpins = s.unpins := rfl
@[simp] theorem State.modLanding_kept (s : State) (n w l : Nat) (f : Landing → Landing) : (s.modLanding n w l f).kept = s.kept := rfl
@[simp] theorem State.modLanding_clasps (s : State) (n w l : Nat) (f : Landing → Landing) : (s.modLanding n w l f).clasps = s.clasps := rfl
@[simp] theorem State.modLanding_retries (s : State) (n w l : Nat) (f : Landing → Landing) : (s.modLanding n w l f).retries = s.retries := rfl
@[simp] theorem State.modLanding_binds (s : State) (n w l : Nat) (f : Landing → Landing) : (s.modLanding n w l f).binds = s.binds := rfl
@[simp] theorem State.modLanding_nextBind (s : State) (n w l : Nat) (f : Landing → Landing) : (s.modLanding n w l f).nextBind = s.nextBind := rfl
@[simp] theorem State.modLanding_out (s : State) (n w l : Nat) (f : Landing → Landing) : (s.modLanding n w l f).out = s.out := rfl
@[simp] theorem State.modLanding_pending (s : State) (n w l : Nat) (f : Landing → Landing) : (s.modLanding n w l f).pending = s.pending := rfl
@[simp] theorem State.modLanding_hall (s : State) (n w l : Nat) (f : Landing → Landing) (k : Nat) : (s.modLanding n w l f).hall k = s.hall k := rfl
@[simp] theorem State.modLanding_stair (s : State) (n w l : Nat) (f : Landing → Landing) (k j : Nat) : (s.modLanding n w l f).stair k j = s.stair k j := rfl
@[simp] theorem State.modLanding_vol (s : State) (n w l : Nat) (f : Landing → Landing) (k : Nat) : (s.modLanding n w l f).vol k = s.vol k := rfl
@[simp] theorem State.modLanding_job (s : State) (n w l : Nat) (f : Landing → Landing) (k : Nat) : (s.modLanding n w l f).job k = s.job k := rfl
@[simp] theorem State.modLanding_clasp (s : State) (n w l : Nat) (f : Landing → Landing) (k : Nat) : (s.modLanding n w l f).clasp k = s.clasp k := rfl
@[simp] theorem State.modLanding_claim (s : State) (n w l : Nat) (f : Landing → Landing) (k : Nat) : (s.modLanding n w l f).claim? k = s.claim? k := rfl
@[simp] theorem State.modLanding_byte (s : State) (n w l : Nat) (f : Landing → Landing) (q : Region) (k : Nat) : (s.modLanding n w l f).byte q k = s.byte q k := rfl
@[simp] theorem State.modLanding_hallNet (s : State) (n w l : Nat) (f : Landing → Landing) (k : Nat) : (s.modLanding n w l f).hallNet k = s.hallNet k := rfl
@[simp] theorem State.modLanding_hallUp (s : State) (n w l : Nat) (f : Landing → Landing) (k : Nat) : (s.modLanding n w l f).hallUp k = s.hallUp k := rfl
@[simp] theorem State.modLanding_running (s : State) (n w l : Nat) (f : Landing → Landing) : (s.modLanding n w l f).running = s.running := rfl

/-! ### setVol -/

@[simp] theorem State.setVol_now (s : State) (v : Nat) (x : Vol) : (s.setVol v x).now = s.now := rfl
@[simp] theorem State.setVol_fresh (s : State) (v : Nat) (x : Vol) : (s.setVol v x).fresh = s.fresh := rfl
@[simp] theorem State.setVol_porter (s : State) (v : Nat) (x : Vol) : (s.setVol v x).porter = s.porter := rfl
@[simp] theorem State.setVol_halls (s : State) (v : Nat) (x : Vol) : (s.setVol v x).halls = s.halls := rfl
@[simp] theorem State.setVol_stairs (s : State) (v : Nat) (x : Vol) : (s.setVol v x).stairs = s.stairs := rfl
@[simp] theorem State.setVol_landings (s : State) (v : Nat) (x : Vol) : (s.setVol v x).landings = s.landings := rfl
@[simp] theorem State.setVol_mem (s : State) (v : Nat) (x : Vol) : (s.setVol v x).mem = s.mem := rfl
@[simp] theorem State.setVol_poison (s : State) (v : Nat) (x : Vol) : (s.setVol v x).poison = s.poison := rfl
@[simp] theorem State.setVol_claims (s : State) (v : Nat) (x : Vol) : (s.setVol v x).claims = s.claims := rfl
@[simp] theorem State.setVol_nextClaim (s : State) (v : Nat) (x : Vol) : (s.setVol v x).nextClaim = s.nextClaim := rfl
@[simp] theorem State.setVol_vols (s : State) (v : Nat) (x : Vol) : (s.setVol v x).vols = sset s.vols v x := rfl
@[simp] theorem State.setVol_jobs (s : State) (v : Nat) (x : Vol) : (s.setVol v x).jobs = s.jobs := rfl
@[simp] theorem State.setVol_leaves (s : State) (v : Nat) (x : Vol) : (s.setVol v x).leaves = s.leaves := rfl
@[simp] theorem State.setVol_shadows (s : State) (v : Nat) (x : Vol) : (s.setVol v x).shadows = s.shadows := rfl
@[simp] theorem State.setVol_pairs (s : State) (v : Nat) (x : Vol) : (s.setVol v x).pairs = s.pairs := rfl
@[simp] theorem State.setVol_refs (s : State) (v : Nat) (x : Vol) : (s.setVol v x).refs = s.refs := rfl
@[simp] theorem State.setVol_slots (s : State) (v : Nat) (x : Vol) : (s.setVol v x).slots = s.slots := rfl
@[simp] theorem State.setVol_parkUsed (s : State) (v : Nat) (x : Vol) : (s.setVol v x).parkUsed = s.parkUsed := rfl
@[simp] theorem State.setVol_farUsed (s : State) (v : Nat) (x : Vol) : (s.setVol v x).farUsed = s.farUsed := rfl
@[simp] theorem State.setVol_spineUsed (s : State) (v : Nat) (x : Vol) : (s.setVol v x).spineUsed = s.spineUsed := rfl
@[simp] theorem State.setVol_plans (s : State) (v : Nat) (x : Vol) : (s.setVol v x).plans = s.plans := rfl
@[simp] theorem State.setVol_steps (s : State) (v : Nat) (x : Vol) : (s.setVol v x).steps = s.steps := rfl
@[simp] theorem State.setVol_nextStep (s : State) (v : Nat) (x : Vol) : (s.setVol v x).nextStep = s.nextStep := rfl
@[simp] theorem State.setVol_unpins (s : State) (v : Nat) (x : Vol) : (s.setVol v x).unpins = s.unpins := rfl
@[simp] theorem State.setVol_kept (s : State) (v : Nat) (x : Vol) : (s.setVol v x).kept = s.kept := rfl
@[simp] theorem State.setVol_clasps (s : State) (v : Nat) (x : Vol) : (s.setVol v x).clasps = s.clasps := rfl
@[simp] theorem State.setVol_retries (s : State) (v : Nat) (x : Vol) : (s.setVol v x).retries = s.retries := rfl
@[simp] theorem State.setVol_binds (s : State) (v : Nat) (x : Vol) : (s.setVol v x).binds = s.binds := rfl
@[simp] theorem State.setVol_nextBind (s : State) (v : Nat) (x : Vol) : (s.setVol v x).nextBind = s.nextBind := rfl
@[simp] theorem State.setVol_out (s : State) (v : Nat) (x : Vol) : (s.setVol v x).out = s.out := rfl
@[simp] theorem State.setVol_pending (s : State) (v : Nat) (x : Vol) : (s.setVol v x).pending = s.pending := rfl
@[simp] theorem State.setVol_hall (s : State) (v : Nat) (x : Vol) (k : Nat) : (s.setVol v x).hall k = s.hall k := rfl
@[simp] theorem State.setVol_stair (s : State) (v : Nat) (x : Vol) (k j : Nat) : (s.setVol v x).stair k j = s.stair k j := rfl
@[simp] theorem State.setVol_landing (s : State) (v : Nat) (x : Vol) (k j i : Nat) : (s.setVol v x).landing k j i = s.landing k j i := rfl
@[simp] theorem State.setVol_job (s : State) (v : Nat) (x : Vol) (k : Nat) : (s.setVol v x).job k = s.job k := rfl
@[simp] theorem State.setVol_clasp (s : State) (v : Nat) (x : Vol) (k : Nat) : (s.setVol v x).clasp k = s.clasp k := rfl
@[simp] theorem State.setVol_claim (s : State) (v : Nat) (x : Vol) (k : Nat) : (s.setVol v x).claim? k = s.claim? k := rfl
@[simp] theorem State.setVol_byte (s : State) (v : Nat) (x : Vol) (q : Region) (k : Nat) : (s.setVol v x).byte q k = s.byte q k := rfl
@[simp] theorem State.setVol_hallNet (s : State) (v : Nat) (x : Vol) (k : Nat) : (s.setVol v x).hallNet k = s.hallNet k := rfl
@[simp] theorem State.setVol_hallUp (s : State) (v : Nat) (x : Vol) (k : Nat) : (s.setVol v x).hallUp k = s.hallUp k := rfl
@[simp] theorem State.setVol_running (s : State) (v : Nat) (x : Vol) : (s.setVol v x).running = s.running := rfl

/-! ### modVol -/

@[simp] theorem State.modVol_now (s : State) (v : Nat) (f : Vol → Vol) : (s.modVol v f).now = s.now := rfl
@[simp] theorem State.modVol_fresh (s : State) (v : Nat) (f : Vol → Vol) : (s.modVol v f).fresh = s.fresh := rfl
@[simp] theorem State.modVol_porter (s : State) (v : Nat) (f : Vol → Vol) : (s.modVol v f).porter = s.porter := rfl
@[simp] theorem State.modVol_halls (s : State) (v : Nat) (f : Vol → Vol) : (s.modVol v f).halls = s.halls := rfl
@[simp] theorem State.modVol_stairs (s : State) (v : Nat) (f : Vol → Vol) : (s.modVol v f).stairs = s.stairs := rfl
@[simp] theorem State.modVol_landings (s : State) (v : Nat) (f : Vol → Vol) : (s.modVol v f).landings = s.landings := rfl
@[simp] theorem State.modVol_mem (s : State) (v : Nat) (f : Vol → Vol) : (s.modVol v f).mem = s.mem := rfl
@[simp] theorem State.modVol_poison (s : State) (v : Nat) (f : Vol → Vol) : (s.modVol v f).poison = s.poison := rfl
@[simp] theorem State.modVol_claims (s : State) (v : Nat) (f : Vol → Vol) : (s.modVol v f).claims = s.claims := rfl
@[simp] theorem State.modVol_nextClaim (s : State) (v : Nat) (f : Vol → Vol) : (s.modVol v f).nextClaim = s.nextClaim := rfl
@[simp] theorem State.modVol_vols (s : State) (v : Nat) (f : Vol → Vol) : (s.modVol v f).vols = sset s.vols v (f (s.vol v)) := rfl
@[simp] theorem State.modVol_jobs (s : State) (v : Nat) (f : Vol → Vol) : (s.modVol v f).jobs = s.jobs := rfl
@[simp] theorem State.modVol_leaves (s : State) (v : Nat) (f : Vol → Vol) : (s.modVol v f).leaves = s.leaves := rfl
@[simp] theorem State.modVol_shadows (s : State) (v : Nat) (f : Vol → Vol) : (s.modVol v f).shadows = s.shadows := rfl
@[simp] theorem State.modVol_pairs (s : State) (v : Nat) (f : Vol → Vol) : (s.modVol v f).pairs = s.pairs := rfl
@[simp] theorem State.modVol_refs (s : State) (v : Nat) (f : Vol → Vol) : (s.modVol v f).refs = s.refs := rfl
@[simp] theorem State.modVol_slots (s : State) (v : Nat) (f : Vol → Vol) : (s.modVol v f).slots = s.slots := rfl
@[simp] theorem State.modVol_parkUsed (s : State) (v : Nat) (f : Vol → Vol) : (s.modVol v f).parkUsed = s.parkUsed := rfl
@[simp] theorem State.modVol_farUsed (s : State) (v : Nat) (f : Vol → Vol) : (s.modVol v f).farUsed = s.farUsed := rfl
@[simp] theorem State.modVol_spineUsed (s : State) (v : Nat) (f : Vol → Vol) : (s.modVol v f).spineUsed = s.spineUsed := rfl
@[simp] theorem State.modVol_plans (s : State) (v : Nat) (f : Vol → Vol) : (s.modVol v f).plans = s.plans := rfl
@[simp] theorem State.modVol_steps (s : State) (v : Nat) (f : Vol → Vol) : (s.modVol v f).steps = s.steps := rfl
@[simp] theorem State.modVol_nextStep (s : State) (v : Nat) (f : Vol → Vol) : (s.modVol v f).nextStep = s.nextStep := rfl
@[simp] theorem State.modVol_unpins (s : State) (v : Nat) (f : Vol → Vol) : (s.modVol v f).unpins = s.unpins := rfl
@[simp] theorem State.modVol_kept (s : State) (v : Nat) (f : Vol → Vol) : (s.modVol v f).kept = s.kept := rfl
@[simp] theorem State.modVol_clasps (s : State) (v : Nat) (f : Vol → Vol) : (s.modVol v f).clasps = s.clasps := rfl
@[simp] theorem State.modVol_retries (s : State) (v : Nat) (f : Vol → Vol) : (s.modVol v f).retries = s.retries := rfl
@[simp] theorem State.modVol_binds (s : State) (v : Nat) (f : Vol → Vol) : (s.modVol v f).binds = s.binds := rfl
@[simp] theorem State.modVol_nextBind (s : State) (v : Nat) (f : Vol → Vol) : (s.modVol v f).nextBind = s.nextBind := rfl
@[simp] theorem State.modVol_out (s : State) (v : Nat) (f : Vol → Vol) : (s.modVol v f).out = s.out := rfl
@[simp] theorem State.modVol_pending (s : State) (v : Nat) (f : Vol → Vol) : (s.modVol v f).pending = s.pending := rfl
@[simp] theorem State.modVol_hall (s : State) (v : Nat) (f : Vol → Vol) (k : Nat) : (s.modVol v f).hall k = s.hall k := rfl
@[simp] theorem State.modVol_stair (s : State) (v : Nat) (f : Vol → Vol) (k j : Nat) : (s.modVol v f).stair k j = s.stair k j := rfl
@[simp] theorem State.modVol_landing (s : State) (v : Nat) (f : Vol → Vol) (k j i : Nat) : (s.modVol v f).landing k j i = s.landing k j i := rfl
@[simp] theorem State.modVol_job (s : State) (v : Nat) (f : Vol → Vol) (k : Nat) : (s.modVol v f).job k = s.job k := rfl
@[simp] theorem State.modVol_clasp (s : State) (v : Nat) (f : Vol → Vol) (k : Nat) : (s.modVol v f).clasp k = s.clasp k := rfl
@[simp] theorem State.modVol_claim (s : State) (v : Nat) (f : Vol → Vol) (k : Nat) : (s.modVol v f).claim? k = s.claim? k := rfl
@[simp] theorem State.modVol_byte (s : State) (v : Nat) (f : Vol → Vol) (q : Region) (k : Nat) : (s.modVol v f).byte q k = s.byte q k := rfl
@[simp] theorem State.modVol_hallNet (s : State) (v : Nat) (f : Vol → Vol) (k : Nat) : (s.modVol v f).hallNet k = s.hallNet k := rfl
@[simp] theorem State.modVol_hallUp (s : State) (v : Nat) (f : Vol → Vol) (k : Nat) : (s.modVol v f).hallUp k = s.hallUp k := rfl
@[simp] theorem State.modVol_running (s : State) (v : Nat) (f : Vol → Vol) : (s.modVol v f).running = s.running := rfl

/-! ### setJob -/

@[simp] theorem State.setJob_now (s : State) (v : Nat) (x : VolJob) : (s.setJob v x).now = s.now := rfl
@[simp] theorem State.setJob_fresh (s : State) (v : Nat) (x : VolJob) : (s.setJob v x).fresh = s.fresh := rfl
@[simp] theorem State.setJob_porter (s : State) (v : Nat) (x : VolJob) : (s.setJob v x).porter = s.porter := rfl
@[simp] theorem State.setJob_halls (s : State) (v : Nat) (x : VolJob) : (s.setJob v x).halls = s.halls := rfl
@[simp] theorem State.setJob_stairs (s : State) (v : Nat) (x : VolJob) : (s.setJob v x).stairs = s.stairs := rfl
@[simp] theorem State.setJob_landings (s : State) (v : Nat) (x : VolJob) : (s.setJob v x).landings = s.landings := rfl
@[simp] theorem State.setJob_mem (s : State) (v : Nat) (x : VolJob) : (s.setJob v x).mem = s.mem := rfl
@[simp] theorem State.setJob_poison (s : State) (v : Nat) (x : VolJob) : (s.setJob v x).poison = s.poison := rfl
@[simp] theorem State.setJob_claims (s : State) (v : Nat) (x : VolJob) : (s.setJob v x).claims = s.claims := rfl
@[simp] theorem State.setJob_nextClaim (s : State) (v : Nat) (x : VolJob) : (s.setJob v x).nextClaim = s.nextClaim := rfl
@[simp] theorem State.setJob_vols (s : State) (v : Nat) (x : VolJob) : (s.setJob v x).vols = s.vols := rfl
@[simp] theorem State.setJob_jobs (s : State) (v : Nat) (x : VolJob) : (s.setJob v x).jobs = sset s.jobs v x := rfl
@[simp] theorem State.setJob_leaves (s : State) (v : Nat) (x : VolJob) : (s.setJob v x).leaves = s.leaves := rfl
@[simp] theorem State.setJob_shadows (s : State) (v : Nat) (x : VolJob) : (s.setJob v x).shadows = s.shadows := rfl
@[simp] theorem State.setJob_pairs (s : State) (v : Nat) (x : VolJob) : (s.setJob v x).pairs = s.pairs := rfl
@[simp] theorem State.setJob_refs (s : State) (v : Nat) (x : VolJob) : (s.setJob v x).refs = s.refs := rfl
@[simp] theorem State.setJob_slots (s : State) (v : Nat) (x : VolJob) : (s.setJob v x).slots = s.slots := rfl
@[simp] theorem State.setJob_parkUsed (s : State) (v : Nat) (x : VolJob) : (s.setJob v x).parkUsed = s.parkUsed := rfl
@[simp] theorem State.setJob_farUsed (s : State) (v : Nat) (x : VolJob) : (s.setJob v x).farUsed = s.farUsed := rfl
@[simp] theorem State.setJob_spineUsed (s : State) (v : Nat) (x : VolJob) : (s.setJob v x).spineUsed = s.spineUsed := rfl
@[simp] theorem State.setJob_plans (s : State) (v : Nat) (x : VolJob) : (s.setJob v x).plans = s.plans := rfl
@[simp] theorem State.setJob_steps (s : State) (v : Nat) (x : VolJob) : (s.setJob v x).steps = s.steps := rfl
@[simp] theorem State.setJob_nextStep (s : State) (v : Nat) (x : VolJob) : (s.setJob v x).nextStep = s.nextStep := rfl
@[simp] theorem State.setJob_unpins (s : State) (v : Nat) (x : VolJob) : (s.setJob v x).unpins = s.unpins := rfl
@[simp] theorem State.setJob_kept (s : State) (v : Nat) (x : VolJob) : (s.setJob v x).kept = s.kept := rfl
@[simp] theorem State.setJob_clasps (s : State) (v : Nat) (x : VolJob) : (s.setJob v x).clasps = s.clasps := rfl
@[simp] theorem State.setJob_retries (s : State) (v : Nat) (x : VolJob) : (s.setJob v x).retries = s.retries := rfl
@[simp] theorem State.setJob_binds (s : State) (v : Nat) (x : VolJob) : (s.setJob v x).binds = s.binds := rfl
@[simp] theorem State.setJob_nextBind (s : State) (v : Nat) (x : VolJob) : (s.setJob v x).nextBind = s.nextBind := rfl
@[simp] theorem State.setJob_out (s : State) (v : Nat) (x : VolJob) : (s.setJob v x).out = s.out := rfl
@[simp] theorem State.setJob_pending (s : State) (v : Nat) (x : VolJob) : (s.setJob v x).pending = s.pending := rfl
@[simp] theorem State.setJob_hall (s : State) (v : Nat) (x : VolJob) (k : Nat) : (s.setJob v x).hall k = s.hall k := rfl
@[simp] theorem State.setJob_stair (s : State) (v : Nat) (x : VolJob) (k j : Nat) : (s.setJob v x).stair k j = s.stair k j := rfl
@[simp] theorem State.setJob_landing (s : State) (v : Nat) (x : VolJob) (k j i : Nat) : (s.setJob v x).landing k j i = s.landing k j i := rfl
@[simp] theorem State.setJob_vol (s : State) (v : Nat) (x : VolJob) (k : Nat) : (s.setJob v x).vol k = s.vol k := rfl
@[simp] theorem State.setJob_clasp (s : State) (v : Nat) (x : VolJob) (k : Nat) : (s.setJob v x).clasp k = s.clasp k := rfl
@[simp] theorem State.setJob_claim (s : State) (v : Nat) (x : VolJob) (k : Nat) : (s.setJob v x).claim? k = s.claim? k := rfl
@[simp] theorem State.setJob_byte (s : State) (v : Nat) (x : VolJob) (q : Region) (k : Nat) : (s.setJob v x).byte q k = s.byte q k := rfl
@[simp] theorem State.setJob_hallNet (s : State) (v : Nat) (x : VolJob) (k : Nat) : (s.setJob v x).hallNet k = s.hallNet k := rfl
@[simp] theorem State.setJob_hallUp (s : State) (v : Nat) (x : VolJob) (k : Nat) : (s.setJob v x).hallUp k = s.hallUp k := rfl
@[simp] theorem State.setJob_running (s : State) (v : Nat) (x : VolJob) : (s.setJob v x).running = s.running := rfl

/-! ### modJob -/

@[simp] theorem State.modJob_now (s : State) (v : Nat) (f : VolJob → VolJob) : (s.modJob v f).now = s.now := rfl
@[simp] theorem State.modJob_fresh (s : State) (v : Nat) (f : VolJob → VolJob) : (s.modJob v f).fresh = s.fresh := rfl
@[simp] theorem State.modJob_porter (s : State) (v : Nat) (f : VolJob → VolJob) : (s.modJob v f).porter = s.porter := rfl
@[simp] theorem State.modJob_halls (s : State) (v : Nat) (f : VolJob → VolJob) : (s.modJob v f).halls = s.halls := rfl
@[simp] theorem State.modJob_stairs (s : State) (v : Nat) (f : VolJob → VolJob) : (s.modJob v f).stairs = s.stairs := rfl
@[simp] theorem State.modJob_landings (s : State) (v : Nat) (f : VolJob → VolJob) : (s.modJob v f).landings = s.landings := rfl
@[simp] theorem State.modJob_mem (s : State) (v : Nat) (f : VolJob → VolJob) : (s.modJob v f).mem = s.mem := rfl
@[simp] theorem State.modJob_poison (s : State) (v : Nat) (f : VolJob → VolJob) : (s.modJob v f).poison = s.poison := rfl
@[simp] theorem State.modJob_claims (s : State) (v : Nat) (f : VolJob → VolJob) : (s.modJob v f).claims = s.claims := rfl
@[simp] theorem State.modJob_nextClaim (s : State) (v : Nat) (f : VolJob → VolJob) : (s.modJob v f).nextClaim = s.nextClaim := rfl
@[simp] theorem State.modJob_vols (s : State) (v : Nat) (f : VolJob → VolJob) : (s.modJob v f).vols = s.vols := rfl
@[simp] theorem State.modJob_jobs (s : State) (v : Nat) (f : VolJob → VolJob) : (s.modJob v f).jobs = sset s.jobs v (f (s.job v)) := rfl
@[simp] theorem State.modJob_leaves (s : State) (v : Nat) (f : VolJob → VolJob) : (s.modJob v f).leaves = s.leaves := rfl
@[simp] theorem State.modJob_shadows (s : State) (v : Nat) (f : VolJob → VolJob) : (s.modJob v f).shadows = s.shadows := rfl
@[simp] theorem State.modJob_pairs (s : State) (v : Nat) (f : VolJob → VolJob) : (s.modJob v f).pairs = s.pairs := rfl
@[simp] theorem State.modJob_refs (s : State) (v : Nat) (f : VolJob → VolJob) : (s.modJob v f).refs = s.refs := rfl
@[simp] theorem State.modJob_slots (s : State) (v : Nat) (f : VolJob → VolJob) : (s.modJob v f).slots = s.slots := rfl
@[simp] theorem State.modJob_parkUsed (s : State) (v : Nat) (f : VolJob → VolJob) : (s.modJob v f).parkUsed = s.parkUsed := rfl
@[simp] theorem State.modJob_farUsed (s : State) (v : Nat) (f : VolJob → VolJob) : (s.modJob v f).farUsed = s.farUsed := rfl
@[simp] theorem State.modJob_spineUsed (s : State) (v : Nat) (f : VolJob → VolJob) : (s.modJob v f).spineUsed = s.spineUsed := rfl
@[simp] theorem State.modJob_plans (s : State) (v : Nat) (f : VolJob → VolJob) : (s.modJob v f).plans = s.plans := rfl
@[simp] theorem State.modJob_steps (s : State) (v : Nat) (f : VolJob → VolJob) : (s.modJob v f).steps = s.steps := rfl
@[simp] theorem State.modJob_nextStep (s : State) (v : Nat) (f : VolJob → VolJob) : (s.modJob v f).nextStep = s.nextStep := rfl
@[simp] theorem State.modJob_unpins (s : State) (v : Nat) (f : VolJob → VolJob) : (s.modJob v f).unpins = s.unpins := rfl
@[simp] theorem State.modJob_kept (s : State) (v : Nat) (f : VolJob → VolJob) : (s.modJob v f).kept = s.kept := rfl
@[simp] theorem State.modJob_clasps (s : State) (v : Nat) (f : VolJob → VolJob) : (s.modJob v f).clasps = s.clasps := rfl
@[simp] theorem State.modJob_retries (s : State) (v : Nat) (f : VolJob → VolJob) : (s.modJob v f).retries = s.retries := rfl
@[simp] theorem State.modJob_binds (s : State) (v : Nat) (f : VolJob → VolJob) : (s.modJob v f).binds = s.binds := rfl
@[simp] theorem State.modJob_nextBind (s : State) (v : Nat) (f : VolJob → VolJob) : (s.modJob v f).nextBind = s.nextBind := rfl
@[simp] theorem State.modJob_out (s : State) (v : Nat) (f : VolJob → VolJob) : (s.modJob v f).out = s.out := rfl
@[simp] theorem State.modJob_pending (s : State) (v : Nat) (f : VolJob → VolJob) : (s.modJob v f).pending = s.pending := rfl
@[simp] theorem State.modJob_hall (s : State) (v : Nat) (f : VolJob → VolJob) (k : Nat) : (s.modJob v f).hall k = s.hall k := rfl
@[simp] theorem State.modJob_stair (s : State) (v : Nat) (f : VolJob → VolJob) (k j : Nat) : (s.modJob v f).stair k j = s.stair k j := rfl
@[simp] theorem State.modJob_landing (s : State) (v : Nat) (f : VolJob → VolJob) (k j i : Nat) : (s.modJob v f).landing k j i = s.landing k j i := rfl
@[simp] theorem State.modJob_vol (s : State) (v : Nat) (f : VolJob → VolJob) (k : Nat) : (s.modJob v f).vol k = s.vol k := rfl
@[simp] theorem State.modJob_clasp (s : State) (v : Nat) (f : VolJob → VolJob) (k : Nat) : (s.modJob v f).clasp k = s.clasp k := rfl
@[simp] theorem State.modJob_claim (s : State) (v : Nat) (f : VolJob → VolJob) (k : Nat) : (s.modJob v f).claim? k = s.claim? k := rfl
@[simp] theorem State.modJob_byte (s : State) (v : Nat) (f : VolJob → VolJob) (q : Region) (k : Nat) : (s.modJob v f).byte q k = s.byte q k := rfl
@[simp] theorem State.modJob_hallNet (s : State) (v : Nat) (f : VolJob → VolJob) (k : Nat) : (s.modJob v f).hallNet k = s.hallNet k := rfl
@[simp] theorem State.modJob_hallUp (s : State) (v : Nat) (f : VolJob → VolJob) (k : Nat) : (s.modJob v f).hallUp k = s.hallUp k := rfl
@[simp] theorem State.modJob_running (s : State) (v : Nat) (f : VolJob → VolJob) : (s.modJob v f).running = s.running := rfl

/-! ### setClasp -/

@[simp] theorem State.setClasp_now (s : State) (n : Nat) (x : Clasp) : (s.setClasp n x).now = s.now := rfl
@[simp] theorem State.setClasp_fresh (s : State) (n : Nat) (x : Clasp) : (s.setClasp n x).fresh = s.fresh := rfl
@[simp] theorem State.setClasp_porter (s : State) (n : Nat) (x : Clasp) : (s.setClasp n x).porter = s.porter := rfl
@[simp] theorem State.setClasp_halls (s : State) (n : Nat) (x : Clasp) : (s.setClasp n x).halls = s.halls := rfl
@[simp] theorem State.setClasp_stairs (s : State) (n : Nat) (x : Clasp) : (s.setClasp n x).stairs = s.stairs := rfl
@[simp] theorem State.setClasp_landings (s : State) (n : Nat) (x : Clasp) : (s.setClasp n x).landings = s.landings := rfl
@[simp] theorem State.setClasp_mem (s : State) (n : Nat) (x : Clasp) : (s.setClasp n x).mem = s.mem := rfl
@[simp] theorem State.setClasp_poison (s : State) (n : Nat) (x : Clasp) : (s.setClasp n x).poison = s.poison := rfl
@[simp] theorem State.setClasp_claims (s : State) (n : Nat) (x : Clasp) : (s.setClasp n x).claims = s.claims := rfl
@[simp] theorem State.setClasp_nextClaim (s : State) (n : Nat) (x : Clasp) : (s.setClasp n x).nextClaim = s.nextClaim := rfl
@[simp] theorem State.setClasp_vols (s : State) (n : Nat) (x : Clasp) : (s.setClasp n x).vols = s.vols := rfl
@[simp] theorem State.setClasp_jobs (s : State) (n : Nat) (x : Clasp) : (s.setClasp n x).jobs = s.jobs := rfl
@[simp] theorem State.setClasp_leaves (s : State) (n : Nat) (x : Clasp) : (s.setClasp n x).leaves = s.leaves := rfl
@[simp] theorem State.setClasp_shadows (s : State) (n : Nat) (x : Clasp) : (s.setClasp n x).shadows = s.shadows := rfl
@[simp] theorem State.setClasp_pairs (s : State) (n : Nat) (x : Clasp) : (s.setClasp n x).pairs = s.pairs := rfl
@[simp] theorem State.setClasp_refs (s : State) (n : Nat) (x : Clasp) : (s.setClasp n x).refs = s.refs := rfl
@[simp] theorem State.setClasp_slots (s : State) (n : Nat) (x : Clasp) : (s.setClasp n x).slots = s.slots := rfl
@[simp] theorem State.setClasp_parkUsed (s : State) (n : Nat) (x : Clasp) : (s.setClasp n x).parkUsed = s.parkUsed := rfl
@[simp] theorem State.setClasp_farUsed (s : State) (n : Nat) (x : Clasp) : (s.setClasp n x).farUsed = s.farUsed := rfl
@[simp] theorem State.setClasp_spineUsed (s : State) (n : Nat) (x : Clasp) : (s.setClasp n x).spineUsed = s.spineUsed := rfl
@[simp] theorem State.setClasp_plans (s : State) (n : Nat) (x : Clasp) : (s.setClasp n x).plans = s.plans := rfl
@[simp] theorem State.setClasp_steps (s : State) (n : Nat) (x : Clasp) : (s.setClasp n x).steps = s.steps := rfl
@[simp] theorem State.setClasp_nextStep (s : State) (n : Nat) (x : Clasp) : (s.setClasp n x).nextStep = s.nextStep := rfl
@[simp] theorem State.setClasp_unpins (s : State) (n : Nat) (x : Clasp) : (s.setClasp n x).unpins = s.unpins := rfl
@[simp] theorem State.setClasp_kept (s : State) (n : Nat) (x : Clasp) : (s.setClasp n x).kept = s.kept := rfl
@[simp] theorem State.setClasp_clasps (s : State) (n : Nat) (x : Clasp) : (s.setClasp n x).clasps = sset s.clasps n x := rfl
@[simp] theorem State.setClasp_retries (s : State) (n : Nat) (x : Clasp) : (s.setClasp n x).retries = s.retries := rfl
@[simp] theorem State.setClasp_binds (s : State) (n : Nat) (x : Clasp) : (s.setClasp n x).binds = s.binds := rfl
@[simp] theorem State.setClasp_nextBind (s : State) (n : Nat) (x : Clasp) : (s.setClasp n x).nextBind = s.nextBind := rfl
@[simp] theorem State.setClasp_out (s : State) (n : Nat) (x : Clasp) : (s.setClasp n x).out = s.out := rfl
@[simp] theorem State.setClasp_pending (s : State) (n : Nat) (x : Clasp) : (s.setClasp n x).pending = s.pending := rfl
@[simp] theorem State.setClasp_hall (s : State) (n : Nat) (x : Clasp) (k : Nat) : (s.setClasp n x).hall k = s.hall k := rfl
@[simp] theorem State.setClasp_stair (s : State) (n : Nat) (x : Clasp) (k j : Nat) : (s.setClasp n x).stair k j = s.stair k j := rfl
@[simp] theorem State.setClasp_landing (s : State) (n : Nat) (x : Clasp) (k j i : Nat) : (s.setClasp n x).landing k j i = s.landing k j i := rfl
@[simp] theorem State.setClasp_vol (s : State) (n : Nat) (x : Clasp) (k : Nat) : (s.setClasp n x).vol k = s.vol k := rfl
@[simp] theorem State.setClasp_job (s : State) (n : Nat) (x : Clasp) (k : Nat) : (s.setClasp n x).job k = s.job k := rfl
@[simp] theorem State.setClasp_claim (s : State) (n : Nat) (x : Clasp) (k : Nat) : (s.setClasp n x).claim? k = s.claim? k := rfl
@[simp] theorem State.setClasp_byte (s : State) (n : Nat) (x : Clasp) (q : Region) (k : Nat) : (s.setClasp n x).byte q k = s.byte q k := rfl
@[simp] theorem State.setClasp_hallNet (s : State) (n : Nat) (x : Clasp) (k : Nat) : (s.setClasp n x).hallNet k = s.hallNet k := rfl
@[simp] theorem State.setClasp_hallUp (s : State) (n : Nat) (x : Clasp) (k : Nat) : (s.setClasp n x).hallUp k = s.hallUp k := rfl
@[simp] theorem State.setClasp_running (s : State) (n : Nat) (x : Clasp) : (s.setClasp n x).running = s.running := rfl

/-! ### setClaim -/

@[simp] theorem State.setClaim_now (s : State) (n : Nat) (x : Claim) : (s.setClaim n x).now = s.now := rfl
@[simp] theorem State.setClaim_fresh (s : State) (n : Nat) (x : Claim) : (s.setClaim n x).fresh = s.fresh := rfl
@[simp] theorem State.setClaim_porter (s : State) (n : Nat) (x : Claim) : (s.setClaim n x).porter = s.porter := rfl
@[simp] theorem State.setClaim_halls (s : State) (n : Nat) (x : Claim) : (s.setClaim n x).halls = s.halls := rfl
@[simp] theorem State.setClaim_stairs (s : State) (n : Nat) (x : Claim) : (s.setClaim n x).stairs = s.stairs := rfl
@[simp] theorem State.setClaim_landings (s : State) (n : Nat) (x : Claim) : (s.setClaim n x).landings = s.landings := rfl
@[simp] theorem State.setClaim_mem (s : State) (n : Nat) (x : Claim) : (s.setClaim n x).mem = s.mem := rfl
@[simp] theorem State.setClaim_poison (s : State) (n : Nat) (x : Claim) : (s.setClaim n x).poison = s.poison := rfl
@[simp] theorem State.setClaim_claims (s : State) (n : Nat) (x : Claim) : (s.setClaim n x).claims = sset s.claims n x := rfl
@[simp] theorem State.setClaim_nextClaim (s : State) (n : Nat) (x : Claim) : (s.setClaim n x).nextClaim = s.nextClaim := rfl
@[simp] theorem State.setClaim_vols (s : State) (n : Nat) (x : Claim) : (s.setClaim n x).vols = s.vols := rfl
@[simp] theorem State.setClaim_jobs (s : State) (n : Nat) (x : Claim) : (s.setClaim n x).jobs = s.jobs := rfl
@[simp] theorem State.setClaim_leaves (s : State) (n : Nat) (x : Claim) : (s.setClaim n x).leaves = s.leaves := rfl
@[simp] theorem State.setClaim_shadows (s : State) (n : Nat) (x : Claim) : (s.setClaim n x).shadows = s.shadows := rfl
@[simp] theorem State.setClaim_pairs (s : State) (n : Nat) (x : Claim) : (s.setClaim n x).pairs = s.pairs := rfl
@[simp] theorem State.setClaim_refs (s : State) (n : Nat) (x : Claim) : (s.setClaim n x).refs = s.refs := rfl
@[simp] theorem State.setClaim_slots (s : State) (n : Nat) (x : Claim) : (s.setClaim n x).slots = s.slots := rfl
@[simp] theorem State.setClaim_parkUsed (s : State) (n : Nat) (x : Claim) : (s.setClaim n x).parkUsed = s.parkUsed := rfl
@[simp] theorem State.setClaim_farUsed (s : State) (n : Nat) (x : Claim) : (s.setClaim n x).farUsed = s.farUsed := rfl
@[simp] theorem State.setClaim_spineUsed (s : State) (n : Nat) (x : Claim) : (s.setClaim n x).spineUsed = s.spineUsed := rfl
@[simp] theorem State.setClaim_plans (s : State) (n : Nat) (x : Claim) : (s.setClaim n x).plans = s.plans := rfl
@[simp] theorem State.setClaim_steps (s : State) (n : Nat) (x : Claim) : (s.setClaim n x).steps = s.steps := rfl
@[simp] theorem State.setClaim_nextStep (s : State) (n : Nat) (x : Claim) : (s.setClaim n x).nextStep = s.nextStep := rfl
@[simp] theorem State.setClaim_unpins (s : State) (n : Nat) (x : Claim) : (s.setClaim n x).unpins = s.unpins := rfl
@[simp] theorem State.setClaim_kept (s : State) (n : Nat) (x : Claim) : (s.setClaim n x).kept = s.kept := rfl
@[simp] theorem State.setClaim_clasps (s : State) (n : Nat) (x : Claim) : (s.setClaim n x).clasps = s.clasps := rfl
@[simp] theorem State.setClaim_retries (s : State) (n : Nat) (x : Claim) : (s.setClaim n x).retries = s.retries := rfl
@[simp] theorem State.setClaim_binds (s : State) (n : Nat) (x : Claim) : (s.setClaim n x).binds = s.binds := rfl
@[simp] theorem State.setClaim_nextBind (s : State) (n : Nat) (x : Claim) : (s.setClaim n x).nextBind = s.nextBind := rfl
@[simp] theorem State.setClaim_out (s : State) (n : Nat) (x : Claim) : (s.setClaim n x).out = s.out := rfl
@[simp] theorem State.setClaim_pending (s : State) (n : Nat) (x : Claim) : (s.setClaim n x).pending = s.pending := rfl
@[simp] theorem State.setClaim_hall (s : State) (n : Nat) (x : Claim) (k : Nat) : (s.setClaim n x).hall k = s.hall k := rfl
@[simp] theorem State.setClaim_stair (s : State) (n : Nat) (x : Claim) (k j : Nat) : (s.setClaim n x).stair k j = s.stair k j := rfl
@[simp] theorem State.setClaim_landing (s : State) (n : Nat) (x : Claim) (k j i : Nat) : (s.setClaim n x).landing k j i = s.landing k j i := rfl
@[simp] theorem State.setClaim_vol (s : State) (n : Nat) (x : Claim) (k : Nat) : (s.setClaim n x).vol k = s.vol k := rfl
@[simp] theorem State.setClaim_job (s : State) (n : Nat) (x : Claim) (k : Nat) : (s.setClaim n x).job k = s.job k := rfl
@[simp] theorem State.setClaim_clasp (s : State) (n : Nat) (x : Claim) (k : Nat) : (s.setClaim n x).clasp k = s.clasp k := rfl
@[simp] theorem State.setClaim_byte (s : State) (n : Nat) (x : Claim) (q : Region) (k : Nat) : (s.setClaim n x).byte q k = s.byte q k := rfl
@[simp] theorem State.setClaim_hallNet (s : State) (n : Nat) (x : Claim) (k : Nat) : (s.setClaim n x).hallNet k = s.hallNet k := rfl
@[simp] theorem State.setClaim_hallUp (s : State) (n : Nat) (x : Claim) (k : Nat) : (s.setClaim n x).hallUp k = s.hallUp k := rfl
@[simp] theorem State.setClaim_running (s : State) (n : Nat) (x : Claim) : (s.setClaim n x).running = s.running := rfl

/-! ### setPoison -/

@[simp] theorem State.setPoison_now (s : State) (r : Region) (u : Nat) (p : Bool) : (s.setPoison r u p).now = s.now := rfl
@[simp] theorem State.setPoison_fresh (s : State) (r : Region) (u : Nat) (p : Bool) : (s.setPoison r u p).fresh = s.fresh := rfl
@[simp] theorem State.setPoison_porter (s : State) (r : Region) (u : Nat) (p : Bool) : (s.setPoison r u p).porter = s.porter := rfl
@[simp] theorem State.setPoison_halls (s : State) (r : Region) (u : Nat) (p : Bool) : (s.setPoison r u p).halls = s.halls := rfl
@[simp] theorem State.setPoison_stairs (s : State) (r : Region) (u : Nat) (p : Bool) : (s.setPoison r u p).stairs = s.stairs := rfl
@[simp] theorem State.setPoison_landings (s : State) (r : Region) (u : Nat) (p : Bool) : (s.setPoison r u p).landings = s.landings := rfl
@[simp] theorem State.setPoison_mem (s : State) (r : Region) (u : Nat) (p : Bool) : (s.setPoison r u p).mem = s.mem := rfl
@[simp] theorem State.setPoison_poison (s : State) (r : Region) (u : Nat) (p : Bool) : (s.setPoison r u p).poison = sset s.poison (memKey r u) p := rfl
@[simp] theorem State.setPoison_claims (s : State) (r : Region) (u : Nat) (p : Bool) : (s.setPoison r u p).claims = s.claims := rfl
@[simp] theorem State.setPoison_nextClaim (s : State) (r : Region) (u : Nat) (p : Bool) : (s.setPoison r u p).nextClaim = s.nextClaim := rfl
@[simp] theorem State.setPoison_vols (s : State) (r : Region) (u : Nat) (p : Bool) : (s.setPoison r u p).vols = s.vols := rfl
@[simp] theorem State.setPoison_jobs (s : State) (r : Region) (u : Nat) (p : Bool) : (s.setPoison r u p).jobs = s.jobs := rfl
@[simp] theorem State.setPoison_leaves (s : State) (r : Region) (u : Nat) (p : Bool) : (s.setPoison r u p).leaves = s.leaves := rfl
@[simp] theorem State.setPoison_shadows (s : State) (r : Region) (u : Nat) (p : Bool) : (s.setPoison r u p).shadows = s.shadows := rfl
@[simp] theorem State.setPoison_pairs (s : State) (r : Region) (u : Nat) (p : Bool) : (s.setPoison r u p).pairs = s.pairs := rfl
@[simp] theorem State.setPoison_refs (s : State) (r : Region) (u : Nat) (p : Bool) : (s.setPoison r u p).refs = s.refs := rfl
@[simp] theorem State.setPoison_slots (s : State) (r : Region) (u : Nat) (p : Bool) : (s.setPoison r u p).slots = s.slots := rfl
@[simp] theorem State.setPoison_parkUsed (s : State) (r : Region) (u : Nat) (p : Bool) : (s.setPoison r u p).parkUsed = s.parkUsed := rfl
@[simp] theorem State.setPoison_farUsed (s : State) (r : Region) (u : Nat) (p : Bool) : (s.setPoison r u p).farUsed = s.farUsed := rfl
@[simp] theorem State.setPoison_spineUsed (s : State) (r : Region) (u : Nat) (p : Bool) : (s.setPoison r u p).spineUsed = s.spineUsed := rfl
@[simp] theorem State.setPoison_plans (s : State) (r : Region) (u : Nat) (p : Bool) : (s.setPoison r u p).plans = s.plans := rfl
@[simp] theorem State.setPoison_steps (s : State) (r : Region) (u : Nat) (p : Bool) : (s.setPoison r u p).steps = s.steps := rfl
@[simp] theorem State.setPoison_nextStep (s : State) (r : Region) (u : Nat) (p : Bool) : (s.setPoison r u p).nextStep = s.nextStep := rfl
@[simp] theorem State.setPoison_unpins (s : State) (r : Region) (u : Nat) (p : Bool) : (s.setPoison r u p).unpins = s.unpins := rfl
@[simp] theorem State.setPoison_kept (s : State) (r : Region) (u : Nat) (p : Bool) : (s.setPoison r u p).kept = s.kept := rfl
@[simp] theorem State.setPoison_clasps (s : State) (r : Region) (u : Nat) (p : Bool) : (s.setPoison r u p).clasps = s.clasps := rfl
@[simp] theorem State.setPoison_retries (s : State) (r : Region) (u : Nat) (p : Bool) : (s.setPoison r u p).retries = s.retries := rfl
@[simp] theorem State.setPoison_binds (s : State) (r : Region) (u : Nat) (p : Bool) : (s.setPoison r u p).binds = s.binds := rfl
@[simp] theorem State.setPoison_nextBind (s : State) (r : Region) (u : Nat) (p : Bool) : (s.setPoison r u p).nextBind = s.nextBind := rfl
@[simp] theorem State.setPoison_out (s : State) (r : Region) (u : Nat) (p : Bool) : (s.setPoison r u p).out = s.out := rfl
@[simp] theorem State.setPoison_pending (s : State) (r : Region) (u : Nat) (p : Bool) : (s.setPoison r u p).pending = s.pending := rfl
@[simp] theorem State.setPoison_hall (s : State) (r : Region) (u : Nat) (p : Bool) (k : Nat) : (s.setPoison r u p).hall k = s.hall k := rfl
@[simp] theorem State.setPoison_stair (s : State) (r : Region) (u : Nat) (p : Bool) (k j : Nat) : (s.setPoison r u p).stair k j = s.stair k j := rfl
@[simp] theorem State.setPoison_landing (s : State) (r : Region) (u : Nat) (p : Bool) (k j i : Nat) : (s.setPoison r u p).landing k j i = s.landing k j i := rfl
@[simp] theorem State.setPoison_vol (s : State) (r : Region) (u : Nat) (p : Bool) (k : Nat) : (s.setPoison r u p).vol k = s.vol k := rfl
@[simp] theorem State.setPoison_job (s : State) (r : Region) (u : Nat) (p : Bool) (k : Nat) : (s.setPoison r u p).job k = s.job k := rfl
@[simp] theorem State.setPoison_clasp (s : State) (r : Region) (u : Nat) (p : Bool) (k : Nat) : (s.setPoison r u p).clasp k = s.clasp k := rfl
@[simp] theorem State.setPoison_claim (s : State) (r : Region) (u : Nat) (p : Bool) (k : Nat) : (s.setPoison r u p).claim? k = s.claim? k := rfl
@[simp] theorem State.setPoison_byte (s : State) (r : Region) (u : Nat) (p : Bool) (q : Region) (k : Nat) : (s.setPoison r u p).byte q k = s.byte q k := rfl
@[simp] theorem State.setPoison_hallNet (s : State) (r : Region) (u : Nat) (p : Bool) (k : Nat) : (s.setPoison r u p).hallNet k = s.hallNet k := rfl
@[simp] theorem State.setPoison_hallUp (s : State) (r : Region) (u : Nat) (p : Bool) (k : Nat) : (s.setPoison r u p).hallUp k = s.hallUp k := rfl
@[simp] theorem State.setPoison_running (s : State) (r : Region) (u : Nat) (p : Bool) : (s.setPoison r u p).running = s.running := rfl

/-! ### modPorter -/

@[simp] theorem State.modPorter_now (s : State) (f : Porter → Porter) : (s.modPorter f).now = s.now := rfl
@[simp] theorem State.modPorter_fresh (s : State) (f : Porter → Porter) : (s.modPorter f).fresh = s.fresh := rfl
@[simp] theorem State.modPorter_porter (s : State) (f : Porter → Porter) : (s.modPorter f).porter = f s.porter := rfl
@[simp] theorem State.modPorter_halls (s : State) (f : Porter → Porter) : (s.modPorter f).halls = s.halls := rfl
@[simp] theorem State.modPorter_stairs (s : State) (f : Porter → Porter) : (s.modPorter f).stairs = s.stairs := rfl
@[simp] theorem State.modPorter_landings (s : State) (f : Porter → Porter) : (s.modPorter f).landings = s.landings := rfl
@[simp] theorem State.modPorter_mem (s : State) (f : Porter → Porter) : (s.modPorter f).mem = s.mem := rfl
@[simp] theorem State.modPorter_poison (s : State) (f : Porter → Porter) : (s.modPorter f).poison = s.poison := rfl
@[simp] theorem State.modPorter_claims (s : State) (f : Porter → Porter) : (s.modPorter f).claims = s.claims := rfl
@[simp] theorem State.modPorter_nextClaim (s : State) (f : Porter → Porter) : (s.modPorter f).nextClaim = s.nextClaim := rfl
@[simp] theorem State.modPorter_vols (s : State) (f : Porter → Porter) : (s.modPorter f).vols = s.vols := rfl
@[simp] theorem State.modPorter_jobs (s : State) (f : Porter → Porter) : (s.modPorter f).jobs = s.jobs := rfl
@[simp] theorem State.modPorter_leaves (s : State) (f : Porter → Porter) : (s.modPorter f).leaves = s.leaves := rfl
@[simp] theorem State.modPorter_shadows (s : State) (f : Porter → Porter) : (s.modPorter f).shadows = s.shadows := rfl
@[simp] theorem State.modPorter_pairs (s : State) (f : Porter → Porter) : (s.modPorter f).pairs = s.pairs := rfl
@[simp] theorem State.modPorter_refs (s : State) (f : Porter → Porter) : (s.modPorter f).refs = s.refs := rfl
@[simp] theorem State.modPorter_slots (s : State) (f : Porter → Porter) : (s.modPorter f).slots = s.slots := rfl
@[simp] theorem State.modPorter_parkUsed (s : State) (f : Porter → Porter) : (s.modPorter f).parkUsed = s.parkUsed := rfl
@[simp] theorem State.modPorter_farUsed (s : State) (f : Porter → Porter) : (s.modPorter f).farUsed = s.farUsed := rfl
@[simp] theorem State.modPorter_spineUsed (s : State) (f : Porter → Porter) : (s.modPorter f).spineUsed = s.spineUsed := rfl
@[simp] theorem State.modPorter_plans (s : State) (f : Porter → Porter) : (s.modPorter f).plans = s.plans := rfl
@[simp] theorem State.modPorter_steps (s : State) (f : Porter → Porter) : (s.modPorter f).steps = s.steps := rfl
@[simp] theorem State.modPorter_nextStep (s : State) (f : Porter → Porter) : (s.modPorter f).nextStep = s.nextStep := rfl
@[simp] theorem State.modPorter_unpins (s : State) (f : Porter → Porter) : (s.modPorter f).unpins = s.unpins := rfl
@[simp] theorem State.modPorter_kept (s : State) (f : Porter → Porter) : (s.modPorter f).kept = s.kept := rfl
@[simp] theorem State.modPorter_clasps (s : State) (f : Porter → Porter) : (s.modPorter f).clasps = s.clasps := rfl
@[simp] theorem State.modPorter_retries (s : State) (f : Porter → Porter) : (s.modPorter f).retries = s.retries := rfl
@[simp] theorem State.modPorter_binds (s : State) (f : Porter → Porter) : (s.modPorter f).binds = s.binds := rfl
@[simp] theorem State.modPorter_nextBind (s : State) (f : Porter → Porter) : (s.modPorter f).nextBind = s.nextBind := rfl
@[simp] theorem State.modPorter_out (s : State) (f : Porter → Porter) : (s.modPorter f).out = s.out := rfl
@[simp] theorem State.modPorter_pending (s : State) (f : Porter → Porter) : (s.modPorter f).pending = s.pending := rfl
@[simp] theorem State.modPorter_hall (s : State) (f : Porter → Porter) (k : Nat) : (s.modPorter f).hall k = s.hall k := rfl
@[simp] theorem State.modPorter_stair (s : State) (f : Porter → Porter) (k j : Nat) : (s.modPorter f).stair k j = s.stair k j := rfl
@[simp] theorem State.modPorter_landing (s : State) (f : Porter → Porter) (k j i : Nat) : (s.modPorter f).landing k j i = s.landing k j i := rfl
@[simp] theorem State.modPorter_vol (s : State) (f : Porter → Porter) (k : Nat) : (s.modPorter f).vol k = s.vol k := rfl
@[simp] theorem State.modPorter_job (s : State) (f : Porter → Porter) (k : Nat) : (s.modPorter f).job k = s.job k := rfl
@[simp] theorem State.modPorter_clasp (s : State) (f : Porter → Porter) (k : Nat) : (s.modPorter f).clasp k = s.clasp k := rfl
@[simp] theorem State.modPorter_claim (s : State) (f : Porter → Porter) (k : Nat) : (s.modPorter f).claim? k = s.claim? k := rfl
@[simp] theorem State.modPorter_byte (s : State) (f : Porter → Porter) (q : Region) (k : Nat) : (s.modPorter f).byte q k = s.byte q k := rfl
@[simp] theorem State.modPorter_hallNet (s : State) (f : Porter → Porter) (k : Nat) : (s.modPorter f).hallNet k = s.hallNet k := rfl
@[simp] theorem State.modPorter_hallUp (s : State) (f : Porter → Porter) (k : Nat) : (s.modPorter f).hallUp k = s.hallUp k := rfl

/-! ### modHost -/

@[simp] theorem State.modHost_now (s : State) (f : HostDie → HostDie) : (s.modHost f).now = s.now := rfl
@[simp] theorem State.modHost_fresh (s : State) (f : HostDie → HostDie) : (s.modHost f).fresh = s.fresh := rfl
@[simp] theorem State.modHost_porter (s : State) (f : HostDie → HostDie) : (s.modHost f).porter = { s.porter with host := f s.porter.host } := rfl
@[simp] theorem State.modHost_halls (s : State) (f : HostDie → HostDie) : (s.modHost f).halls = s.halls := rfl
@[simp] theorem State.modHost_stairs (s : State) (f : HostDie → HostDie) : (s.modHost f).stairs = s.stairs := rfl
@[simp] theorem State.modHost_landings (s : State) (f : HostDie → HostDie) : (s.modHost f).landings = s.landings := rfl
@[simp] theorem State.modHost_mem (s : State) (f : HostDie → HostDie) : (s.modHost f).mem = s.mem := rfl
@[simp] theorem State.modHost_poison (s : State) (f : HostDie → HostDie) : (s.modHost f).poison = s.poison := rfl
@[simp] theorem State.modHost_claims (s : State) (f : HostDie → HostDie) : (s.modHost f).claims = s.claims := rfl
@[simp] theorem State.modHost_nextClaim (s : State) (f : HostDie → HostDie) : (s.modHost f).nextClaim = s.nextClaim := rfl
@[simp] theorem State.modHost_vols (s : State) (f : HostDie → HostDie) : (s.modHost f).vols = s.vols := rfl
@[simp] theorem State.modHost_jobs (s : State) (f : HostDie → HostDie) : (s.modHost f).jobs = s.jobs := rfl
@[simp] theorem State.modHost_leaves (s : State) (f : HostDie → HostDie) : (s.modHost f).leaves = s.leaves := rfl
@[simp] theorem State.modHost_shadows (s : State) (f : HostDie → HostDie) : (s.modHost f).shadows = s.shadows := rfl
@[simp] theorem State.modHost_pairs (s : State) (f : HostDie → HostDie) : (s.modHost f).pairs = s.pairs := rfl
@[simp] theorem State.modHost_refs (s : State) (f : HostDie → HostDie) : (s.modHost f).refs = s.refs := rfl
@[simp] theorem State.modHost_slots (s : State) (f : HostDie → HostDie) : (s.modHost f).slots = s.slots := rfl
@[simp] theorem State.modHost_parkUsed (s : State) (f : HostDie → HostDie) : (s.modHost f).parkUsed = s.parkUsed := rfl
@[simp] theorem State.modHost_farUsed (s : State) (f : HostDie → HostDie) : (s.modHost f).farUsed = s.farUsed := rfl
@[simp] theorem State.modHost_spineUsed (s : State) (f : HostDie → HostDie) : (s.modHost f).spineUsed = s.spineUsed := rfl
@[simp] theorem State.modHost_plans (s : State) (f : HostDie → HostDie) : (s.modHost f).plans = s.plans := rfl
@[simp] theorem State.modHost_steps (s : State) (f : HostDie → HostDie) : (s.modHost f).steps = s.steps := rfl
@[simp] theorem State.modHost_nextStep (s : State) (f : HostDie → HostDie) : (s.modHost f).nextStep = s.nextStep := rfl
@[simp] theorem State.modHost_unpins (s : State) (f : HostDie → HostDie) : (s.modHost f).unpins = s.unpins := rfl
@[simp] theorem State.modHost_kept (s : State) (f : HostDie → HostDie) : (s.modHost f).kept = s.kept := rfl
@[simp] theorem State.modHost_clasps (s : State) (f : HostDie → HostDie) : (s.modHost f).clasps = s.clasps := rfl
@[simp] theorem State.modHost_retries (s : State) (f : HostDie → HostDie) : (s.modHost f).retries = s.retries := rfl
@[simp] theorem State.modHost_binds (s : State) (f : HostDie → HostDie) : (s.modHost f).binds = s.binds := rfl
@[simp] theorem State.modHost_nextBind (s : State) (f : HostDie → HostDie) : (s.modHost f).nextBind = s.nextBind := rfl
@[simp] theorem State.modHost_out (s : State) (f : HostDie → HostDie) : (s.modHost f).out = s.out := rfl
@[simp] theorem State.modHost_pending (s : State) (f : HostDie → HostDie) : (s.modHost f).pending = s.pending := rfl
@[simp] theorem State.modHost_hall (s : State) (f : HostDie → HostDie) (k : Nat) : (s.modHost f).hall k = s.hall k := rfl
@[simp] theorem State.modHost_stair (s : State) (f : HostDie → HostDie) (k j : Nat) : (s.modHost f).stair k j = s.stair k j := rfl
@[simp] theorem State.modHost_landing (s : State) (f : HostDie → HostDie) (k j i : Nat) : (s.modHost f).landing k j i = s.landing k j i := rfl
@[simp] theorem State.modHost_vol (s : State) (f : HostDie → HostDie) (k : Nat) : (s.modHost f).vol k = s.vol k := rfl
@[simp] theorem State.modHost_job (s : State) (f : HostDie → HostDie) (k : Nat) : (s.modHost f).job k = s.job k := rfl
@[simp] theorem State.modHost_clasp (s : State) (f : HostDie → HostDie) (k : Nat) : (s.modHost f).clasp k = s.clasp k := rfl
@[simp] theorem State.modHost_claim (s : State) (f : HostDie → HostDie) (k : Nat) : (s.modHost f).claim? k = s.claim? k := rfl
@[simp] theorem State.modHost_byte (s : State) (f : HostDie → HostDie) (q : Region) (k : Nat) : (s.modHost f).byte q k = s.byte q k := rfl
@[simp] theorem State.modHost_hallNet (s : State) (f : HostDie → HostDie) (k : Nat) : (s.modHost f).hallNet k = s.hallNet k := rfl
@[simp] theorem State.modHost_hallUp (s : State) (f : HostDie → HostDie) (k : Nat) : (s.modHost f).hallUp k = s.hallUp k := rfl

/-! ### emit -/

@[simp] theorem State.emit_now (s : State) (o : Output) : (s.emit o).now = s.now := rfl
@[simp] theorem State.emit_fresh (s : State) (o : Output) : (s.emit o).fresh = s.fresh := rfl
@[simp] theorem State.emit_porter (s : State) (o : Output) : (s.emit o).porter = s.porter := rfl
@[simp] theorem State.emit_halls (s : State) (o : Output) : (s.emit o).halls = s.halls := rfl
@[simp] theorem State.emit_stairs (s : State) (o : Output) : (s.emit o).stairs = s.stairs := rfl
@[simp] theorem State.emit_landings (s : State) (o : Output) : (s.emit o).landings = s.landings := rfl
@[simp] theorem State.emit_mem (s : State) (o : Output) : (s.emit o).mem = s.mem := rfl
@[simp] theorem State.emit_poison (s : State) (o : Output) : (s.emit o).poison = s.poison := rfl
@[simp] theorem State.emit_claims (s : State) (o : Output) : (s.emit o).claims = s.claims := rfl
@[simp] theorem State.emit_nextClaim (s : State) (o : Output) : (s.emit o).nextClaim = s.nextClaim := rfl
@[simp] theorem State.emit_vols (s : State) (o : Output) : (s.emit o).vols = s.vols := rfl
@[simp] theorem State.emit_jobs (s : State) (o : Output) : (s.emit o).jobs = s.jobs := rfl
@[simp] theorem State.emit_leaves (s : State) (o : Output) : (s.emit o).leaves = s.leaves := rfl
@[simp] theorem State.emit_shadows (s : State) (o : Output) : (s.emit o).shadows = s.shadows := rfl
@[simp] theorem State.emit_pairs (s : State) (o : Output) : (s.emit o).pairs = s.pairs := rfl
@[simp] theorem State.emit_refs (s : State) (o : Output) : (s.emit o).refs = s.refs := rfl
@[simp] theorem State.emit_slots (s : State) (o : Output) : (s.emit o).slots = s.slots := rfl
@[simp] theorem State.emit_parkUsed (s : State) (o : Output) : (s.emit o).parkUsed = s.parkUsed := rfl
@[simp] theorem State.emit_farUsed (s : State) (o : Output) : (s.emit o).farUsed = s.farUsed := rfl
@[simp] theorem State.emit_spineUsed (s : State) (o : Output) : (s.emit o).spineUsed = s.spineUsed := rfl
@[simp] theorem State.emit_plans (s : State) (o : Output) : (s.emit o).plans = s.plans := rfl
@[simp] theorem State.emit_steps (s : State) (o : Output) : (s.emit o).steps = s.steps := rfl
@[simp] theorem State.emit_nextStep (s : State) (o : Output) : (s.emit o).nextStep = s.nextStep := rfl
@[simp] theorem State.emit_unpins (s : State) (o : Output) : (s.emit o).unpins = s.unpins := rfl
@[simp] theorem State.emit_kept (s : State) (o : Output) : (s.emit o).kept = s.kept := rfl
@[simp] theorem State.emit_clasps (s : State) (o : Output) : (s.emit o).clasps = s.clasps := rfl
@[simp] theorem State.emit_retries (s : State) (o : Output) : (s.emit o).retries = s.retries := rfl
@[simp] theorem State.emit_binds (s : State) (o : Output) : (s.emit o).binds = s.binds := rfl
@[simp] theorem State.emit_nextBind (s : State) (o : Output) : (s.emit o).nextBind = s.nextBind := rfl
@[simp] theorem State.emit_out (s : State) (o : Output) : (s.emit o).out = s.out ++ [o] := rfl
@[simp] theorem State.emit_pending (s : State) (o : Output) : (s.emit o).pending = s.pending := rfl
@[simp] theorem State.emit_hall (s : State) (o : Output) (k : Nat) : (s.emit o).hall k = s.hall k := rfl
@[simp] theorem State.emit_stair (s : State) (o : Output) (k j : Nat) : (s.emit o).stair k j = s.stair k j := rfl
@[simp] theorem State.emit_landing (s : State) (o : Output) (k j i : Nat) : (s.emit o).landing k j i = s.landing k j i := rfl
@[simp] theorem State.emit_vol (s : State) (o : Output) (k : Nat) : (s.emit o).vol k = s.vol k := rfl
@[simp] theorem State.emit_job (s : State) (o : Output) (k : Nat) : (s.emit o).job k = s.job k := rfl
@[simp] theorem State.emit_clasp (s : State) (o : Output) (k : Nat) : (s.emit o).clasp k = s.clasp k := rfl
@[simp] theorem State.emit_claim (s : State) (o : Output) (k : Nat) : (s.emit o).claim? k = s.claim? k := rfl
@[simp] theorem State.emit_byte (s : State) (o : Output) (q : Region) (k : Nat) : (s.emit o).byte q k = s.byte q k := rfl
@[simp] theorem State.emit_hallNet (s : State) (o : Output) (k : Nat) : (s.emit o).hallNet k = s.hallNet k := rfl
@[simp] theorem State.emit_hallUp (s : State) (o : Output) (k : Nat) : (s.emit o).hallUp k = s.hallUp k := rfl
@[simp] theorem State.emit_running (s : State) (o : Output) : (s.emit o).running = s.running := rfl

/-! ### write -/

@[simp] theorem State.write_now (s : State) (r : Region) (a : Nat) (l : List Byte) (p : Bool) : (s.write r a l p).now = s.now := rfl
@[simp] theorem State.write_fresh (s : State) (r : Region) (a : Nat) (l : List Byte) (p : Bool) : (s.write r a l p).fresh = s.fresh := rfl
@[simp] theorem State.write_porter (s : State) (r : Region) (a : Nat) (l : List Byte) (p : Bool) : (s.write r a l p).porter = s.porter := rfl
@[simp] theorem State.write_halls (s : State) (r : Region) (a : Nat) (l : List Byte) (p : Bool) : (s.write r a l p).halls = s.halls := rfl
@[simp] theorem State.write_stairs (s : State) (r : Region) (a : Nat) (l : List Byte) (p : Bool) : (s.write r a l p).stairs = s.stairs := rfl
@[simp] theorem State.write_landings (s : State) (r : Region) (a : Nat) (l : List Byte) (p : Bool) : (s.write r a l p).landings = s.landings := rfl
@[simp] theorem State.write_mem (s : State) (r : Region) (a : Nat) (l : List Byte) (p : Bool) : (s.write r a l p).mem = memWriteAll s.mem r (s.parkGone r) a l := rfl
@[simp] theorem State.write_poison (s : State) (r : Region) (a : Nat) (l : List Byte) (p : Bool) : (s.write r a l p).poison = markWrite s.poison r a l.length p := rfl
@[simp] theorem State.write_claims (s : State) (r : Region) (a : Nat) (l : List Byte) (p : Bool) : (s.write r a l p).claims = s.claims := rfl
@[simp] theorem State.write_nextClaim (s : State) (r : Region) (a : Nat) (l : List Byte) (p : Bool) : (s.write r a l p).nextClaim = s.nextClaim := rfl
@[simp] theorem State.write_vols (s : State) (r : Region) (a : Nat) (l : List Byte) (p : Bool) : (s.write r a l p).vols = s.vols := rfl
@[simp] theorem State.write_jobs (s : State) (r : Region) (a : Nat) (l : List Byte) (p : Bool) : (s.write r a l p).jobs = s.jobs := rfl
@[simp] theorem State.write_leaves (s : State) (r : Region) (a : Nat) (l : List Byte) (p : Bool) : (s.write r a l p).leaves = s.leaves := rfl
@[simp] theorem State.write_shadows (s : State) (r : Region) (a : Nat) (l : List Byte) (p : Bool) : (s.write r a l p).shadows = s.shadows := rfl
@[simp] theorem State.write_pairs (s : State) (r : Region) (a : Nat) (l : List Byte) (p : Bool) : (s.write r a l p).pairs = s.pairs := rfl
@[simp] theorem State.write_refs (s : State) (r : Region) (a : Nat) (l : List Byte) (p : Bool) : (s.write r a l p).refs = s.refs := rfl
@[simp] theorem State.write_slots (s : State) (r : Region) (a : Nat) (l : List Byte) (p : Bool) : (s.write r a l p).slots = s.slots := rfl
@[simp] theorem State.write_parkUsed (s : State) (r : Region) (a : Nat) (l : List Byte) (p : Bool) : (s.write r a l p).parkUsed = s.parkUsed := rfl
@[simp] theorem State.write_farUsed (s : State) (r : Region) (a : Nat) (l : List Byte) (p : Bool) : (s.write r a l p).farUsed = s.farUsed := rfl
@[simp] theorem State.write_spineUsed (s : State) (r : Region) (a : Nat) (l : List Byte) (p : Bool) : (s.write r a l p).spineUsed = s.spineUsed := rfl
@[simp] theorem State.write_plans (s : State) (r : Region) (a : Nat) (l : List Byte) (p : Bool) : (s.write r a l p).plans = s.plans := rfl
@[simp] theorem State.write_steps (s : State) (r : Region) (a : Nat) (l : List Byte) (p : Bool) : (s.write r a l p).steps = s.steps := rfl
@[simp] theorem State.write_nextStep (s : State) (r : Region) (a : Nat) (l : List Byte) (p : Bool) : (s.write r a l p).nextStep = s.nextStep := rfl
@[simp] theorem State.write_unpins (s : State) (r : Region) (a : Nat) (l : List Byte) (p : Bool) : (s.write r a l p).unpins = s.unpins := rfl
@[simp] theorem State.write_kept (s : State) (r : Region) (a : Nat) (l : List Byte) (p : Bool) : (s.write r a l p).kept = s.kept := rfl
@[simp] theorem State.write_clasps (s : State) (r : Region) (a : Nat) (l : List Byte) (p : Bool) : (s.write r a l p).clasps = s.clasps := rfl
@[simp] theorem State.write_retries (s : State) (r : Region) (a : Nat) (l : List Byte) (p : Bool) : (s.write r a l p).retries = s.retries := rfl
@[simp] theorem State.write_binds (s : State) (r : Region) (a : Nat) (l : List Byte) (p : Bool) : (s.write r a l p).binds = s.binds := rfl
@[simp] theorem State.write_nextBind (s : State) (r : Region) (a : Nat) (l : List Byte) (p : Bool) : (s.write r a l p).nextBind = s.nextBind := rfl
@[simp] theorem State.write_out (s : State) (r : Region) (a : Nat) (l : List Byte) (p : Bool) : (s.write r a l p).out = s.out := rfl
@[simp] theorem State.write_pending (s : State) (r : Region) (a : Nat) (l : List Byte) (p : Bool) : (s.write r a l p).pending = s.pending := rfl
@[simp] theorem State.write_hall (s : State) (r : Region) (a : Nat) (l : List Byte) (p : Bool) (k : Nat) : (s.write r a l p).hall k = s.hall k := rfl
@[simp] theorem State.write_stair (s : State) (r : Region) (a : Nat) (l : List Byte) (p : Bool) (k j : Nat) : (s.write r a l p).stair k j = s.stair k j := rfl
@[simp] theorem State.write_landing (s : State) (r : Region) (a : Nat) (l : List Byte) (p : Bool) (k j i : Nat) : (s.write r a l p).landing k j i = s.landing k j i := rfl
@[simp] theorem State.write_vol (s : State) (r : Region) (a : Nat) (l : List Byte) (p : Bool) (k : Nat) : (s.write r a l p).vol k = s.vol k := rfl
@[simp] theorem State.write_job (s : State) (r : Region) (a : Nat) (l : List Byte) (p : Bool) (k : Nat) : (s.write r a l p).job k = s.job k := rfl
@[simp] theorem State.write_clasp (s : State) (r : Region) (a : Nat) (l : List Byte) (p : Bool) (k : Nat) : (s.write r a l p).clasp k = s.clasp k := rfl
@[simp] theorem State.write_claim (s : State) (r : Region) (a : Nat) (l : List Byte) (p : Bool) (k : Nat) : (s.write r a l p).claim? k = s.claim? k := rfl
@[simp] theorem State.write_hallNet (s : State) (r : Region) (a : Nat) (l : List Byte) (p : Bool) (k : Nat) : (s.write r a l p).hallNet k = s.hallNet k := rfl
@[simp] theorem State.write_hallUp (s : State) (r : Region) (a : Nat) (l : List Byte) (p : Bool) (k : Nat) : (s.write r a l p).hallUp k = s.hallUp k := rfl
@[simp] theorem State.write_running (s : State) (r : Region) (a : Nat) (l : List Byte) (p : Bool) : (s.write r a l p).running = s.running := rfl

/-! ### freeBytes -/

@[simp] theorem State.freeBytes_now (s : State) (r : Region) (a n : Nat) : (s.freeBytes r a n).now = s.now := rfl
@[simp] theorem State.freeBytes_fresh (s : State) (r : Region) (a n : Nat) : (s.freeBytes r a n).fresh = s.fresh + n := rfl
@[simp] theorem State.freeBytes_porter (s : State) (r : Region) (a n : Nat) : (s.freeBytes r a n).porter = s.porter := rfl
@[simp] theorem State.freeBytes_halls (s : State) (r : Region) (a n : Nat) : (s.freeBytes r a n).halls = s.halls := rfl
@[simp] theorem State.freeBytes_stairs (s : State) (r : Region) (a n : Nat) : (s.freeBytes r a n).stairs = s.stairs := rfl
@[simp] theorem State.freeBytes_landings (s : State) (r : Region) (a n : Nat) : (s.freeBytes r a n).landings = s.landings := rfl
@[simp] theorem State.freeBytes_poison (s : State) (r : Region) (a n : Nat) : (s.freeBytes r a n).poison = s.poison := rfl
@[simp] theorem State.freeBytes_claims (s : State) (r : Region) (a n : Nat) : (s.freeBytes r a n).claims = s.claims := rfl
@[simp] theorem State.freeBytes_nextClaim (s : State) (r : Region) (a n : Nat) : (s.freeBytes r a n).nextClaim = s.nextClaim := rfl
@[simp] theorem State.freeBytes_vols (s : State) (r : Region) (a n : Nat) : (s.freeBytes r a n).vols = s.vols := rfl
@[simp] theorem State.freeBytes_jobs (s : State) (r : Region) (a n : Nat) : (s.freeBytes r a n).jobs = s.jobs := rfl
@[simp] theorem State.freeBytes_leaves (s : State) (r : Region) (a n : Nat) : (s.freeBytes r a n).leaves = s.leaves := rfl
@[simp] theorem State.freeBytes_shadows (s : State) (r : Region) (a n : Nat) : (s.freeBytes r a n).shadows = s.shadows := rfl
@[simp] theorem State.freeBytes_pairs (s : State) (r : Region) (a n : Nat) : (s.freeBytes r a n).pairs = s.pairs := rfl
@[simp] theorem State.freeBytes_refs (s : State) (r : Region) (a n : Nat) : (s.freeBytes r a n).refs = s.refs := rfl
@[simp] theorem State.freeBytes_slots (s : State) (r : Region) (a n : Nat) : (s.freeBytes r a n).slots = s.slots := rfl
@[simp] theorem State.freeBytes_parkUsed (s : State) (r : Region) (a n : Nat) : (s.freeBytes r a n).parkUsed = s.parkUsed := rfl
@[simp] theorem State.freeBytes_farUsed (s : State) (r : Region) (a n : Nat) : (s.freeBytes r a n).farUsed = s.farUsed := rfl
@[simp] theorem State.freeBytes_spineUsed (s : State) (r : Region) (a n : Nat) : (s.freeBytes r a n).spineUsed = s.spineUsed := rfl
@[simp] theorem State.freeBytes_plans (s : State) (r : Region) (a n : Nat) : (s.freeBytes r a n).plans = s.plans := rfl
@[simp] theorem State.freeBytes_steps (s : State) (r : Region) (a n : Nat) : (s.freeBytes r a n).steps = s.steps := rfl
@[simp] theorem State.freeBytes_nextStep (s : State) (r : Region) (a n : Nat) : (s.freeBytes r a n).nextStep = s.nextStep := rfl
@[simp] theorem State.freeBytes_unpins (s : State) (r : Region) (a n : Nat) : (s.freeBytes r a n).unpins = s.unpins := rfl
@[simp] theorem State.freeBytes_kept (s : State) (r : Region) (a n : Nat) : (s.freeBytes r a n).kept = s.kept := rfl
@[simp] theorem State.freeBytes_clasps (s : State) (r : Region) (a n : Nat) : (s.freeBytes r a n).clasps = s.clasps := rfl
@[simp] theorem State.freeBytes_retries (s : State) (r : Region) (a n : Nat) : (s.freeBytes r a n).retries = s.retries := rfl
@[simp] theorem State.freeBytes_binds (s : State) (r : Region) (a n : Nat) : (s.freeBytes r a n).binds = s.binds := rfl
@[simp] theorem State.freeBytes_nextBind (s : State) (r : Region) (a n : Nat) : (s.freeBytes r a n).nextBind = s.nextBind := rfl
@[simp] theorem State.freeBytes_out (s : State) (r : Region) (a n : Nat) : (s.freeBytes r a n).out = s.out := rfl
@[simp] theorem State.freeBytes_pending (s : State) (r : Region) (a n : Nat) : (s.freeBytes r a n).pending = s.pending := rfl
@[simp] theorem State.freeBytes_hall (s : State) (r : Region) (a n : Nat) (k : Nat) : (s.freeBytes r a n).hall k = s.hall k := rfl
@[simp] theorem State.freeBytes_stair (s : State) (r : Region) (a n : Nat) (k j : Nat) : (s.freeBytes r a n).stair k j = s.stair k j := rfl
@[simp] theorem State.freeBytes_landing (s : State) (r : Region) (a n : Nat) (k j i : Nat) : (s.freeBytes r a n).landing k j i = s.landing k j i := rfl
@[simp] theorem State.freeBytes_vol (s : State) (r : Region) (a n : Nat) (k : Nat) : (s.freeBytes r a n).vol k = s.vol k := rfl
@[simp] theorem State.freeBytes_job (s : State) (r : Region) (a n : Nat) (k : Nat) : (s.freeBytes r a n).job k = s.job k := rfl
@[simp] theorem State.freeBytes_clasp (s : State) (r : Region) (a n : Nat) (k : Nat) : (s.freeBytes r a n).clasp k = s.clasp k := rfl
@[simp] theorem State.freeBytes_claim (s : State) (r : Region) (a n : Nat) (k : Nat) : (s.freeBytes r a n).claim? k = s.claim? k := rfl
@[simp] theorem State.freeBytes_hallNet (s : State) (r : Region) (a n : Nat) (k : Nat) : (s.freeBytes r a n).hallNet k = s.hallNet k := rfl
@[simp] theorem State.freeBytes_hallUp (s : State) (r : Region) (a n : Nat) (k : Nat) : (s.freeBytes r a n).hallUp k = s.hallUp k := rfl
@[simp] theorem State.freeBytes_running (s : State) (r : Region) (a n : Nat) : (s.freeBytes r a n).running = s.running := rfl

/-! ### Read after write -/

theorem State.hall_setHall (s : State) (n k : Nat) (x : Hall) :
    (s.setHall n x).hall k = if n = k then x else s.hall k := sget_sset _ _ _ _ _
@[simp] theorem State.hall_setHall_same (s : State) (n : Nat) (x : Hall) : (s.setHall n x).hall n = x :=
  sget_sset_same _ _ _ _
theorem State.hall_setHall_ne (s : State) {n k : Nat} (x : Hall) (h : n ≠ k) : (s.setHall n x).hall k = s.hall k :=
  sget_sset_ne _ _ _ h
@[simp] theorem State.hall_modHall_same (s : State) (n : Nat) (f : Hall → Hall) : (s.modHall n f).hall n = f (s.hall n) :=
  sget_sset_same _ _ _ _
theorem State.hall_modHall_ne (s : State) {n k : Nat} (f : Hall → Hall) (h : n ≠ k) : (s.modHall n f).hall k = s.hall k :=
  sget_sset_ne _ _ _ h
@[simp] theorem State.hall_modRegs_same (s : State) (n : Nat) (f : HallRegs → HallRegs) :
    (s.modRegs n f).hall n = { s.hall n with regs := f (s.hall n).regs } := sget_sset_same _ _ _ _

@[simp] theorem State.stair_setStair_same (s : State) (n w : Nat) (x : Stairwell) : (s.setStair n w x).stair n w = x :=
  sget_sset_same _ _ _ _
theorem State.stair_setStair_ne (s : State) {n w m v : Nat} (x : Stairwell) (h : swKey n w ≠ swKey m v) :
    (s.setStair n w x).stair m v = s.stair m v := sget_sset_ne _ _ _ h
@[simp] theorem State.stair_modStair_same (s : State) (n w : Nat) (f : Stairwell → Stairwell) :
    (s.modStair n w f).stair n w = f (s.stair n w) := sget_sset_same _ _ _ _

@[simp] theorem State.landing_setLanding_same (s : State) (n w l : Nat) (x : Landing) :
    (s.setLanding n w l x).landing n w l = x := sget_sset_same _ _ _ _
theorem State.landing_setLanding_ne (s : State) {n w l m v k : Nat} (x : Landing) (h : landKey n w l ≠ landKey m v k) :
    (s.setLanding n w l x).landing m v k = s.landing m v k := sget_sset_ne _ _ _ h
@[simp] theorem State.landing_modLanding_same (s : State) (n w l : Nat) (f : Landing → Landing) :
    (s.modLanding n w l f).landing n w l = f (s.landing n w l) := sget_sset_same _ _ _ _

@[simp] theorem State.vol_setVol_same (s : State) (v : Nat) (x : Vol) : (s.setVol v x).vol v = x := sget_sset_same _ _ _ _
theorem State.vol_setVol_ne (s : State) {v w : Nat} (x : Vol) (h : v ≠ w) : (s.setVol v x).vol w = s.vol w :=
  sget_sset_ne _ _ _ h
@[simp] theorem State.vol_modVol_same (s : State) (v : Nat) (f : Vol → Vol) : (s.modVol v f).vol v = f (s.vol v) :=
  sget_sset_same _ _ _ _
@[simp] theorem State.job_setJob_same (s : State) (v : Nat) (x : VolJob) : (s.setJob v x).job v = x := sget_sset_same _ _ _ _
@[simp] theorem State.job_modJob_same (s : State) (v : Nat) (f : VolJob → VolJob) : (s.modJob v f).job v = f (s.job v) :=
  sget_sset_same _ _ _ _
@[simp] theorem State.clasp_setClasp_same (s : State) (n : Nat) (x : Clasp) : (s.setClasp n x).clasp n = x :=
  sget_sset_same _ _ _ _
theorem State.clasp_setClasp_ne (s : State) {n k : Nat} (x : Clasp) (h : n ≠ k) : (s.setClasp n x).clasp k = s.clasp k :=
  sget_sset_ne _ _ _ h
@[simp] theorem State.claim_setClaim_same (s : State) (n : Nat) (x : Claim) : (s.setClaim n x).claim? n = some x :=
  sfind_sset_same _ _ _
theorem State.claim_setClaim_ne (s : State) {n k : Nat} (x : Claim) (h : n ≠ k) :
    (s.setClaim n x).claim? k = s.claim? k := by
  unfold State.claim? State.setClaim
  rw [sfind_sset, if_neg h]

/-! ### Memory: a byte read after a write -/

theorem Region.number_lt {h w : Nat} (hh : h < 12) (hw : w < 256) : (Region.sram h w).number < 8192 := by
  simp only [Region.number, swKey]
  omega

/-- The cells that a write at a rising address does not name stand. -/
theorem memGet_writeAll_ne (r : Region) (skip : Nat → Bool) (l : List Byte) :
    ∀ (m : List Host.Cell) (a k : Nat), (∀ i < l.length, memKey r (a + i) ≠ k) →
      memGet (memWriteAll m r skip a l) k = memGet m k := by
  induction l with
  | nil => intro m a k _; rfl
  | cons b l ih =>
    intro m a k h
    have h0 : memKey r a ≠ k := by simpa using h 0 (by simp)
    unfold memWriteAll
    rw [ih]
    · split
      · rfl
      · rw [memGet_set, if_neg h0]
    · intro i hi
      have := h (i + 1) (by simpa using hi)
      rwa [Nat.add_assoc, Nat.add_comm 1 i]

/-- The byte at a place that a write names is the byte written, unless it is discarded. -/
theorem memGet_writeAll (r : Region) (skip : Nat → Bool) (l : List Byte) :
    ∀ (m : List Host.Cell) (a i : Nat) (b : Byte), l[i]? = some b → skip (a + i) = false →
      memGet (memWriteAll m r skip a l) (memKey r (a + i)) = b := by
  induction l with
  | nil => intro m a i b h; simp at h
  | cons c l ih =>
    intro m a i b h hs
    unfold memWriteAll
    cases i with
    | zero =>
      simp only [List.getElem?_cons_zero, Option.some.injEq] at h
      subst h
      rw [memGet_writeAll_ne]
      · simp only [Nat.add_zero] at hs
        simp [hs, memGet_set]
      · intro j _
        simp only [memKey]
        omega
    | succ i =>
      simp only [List.getElem?_cons_succ] at h
      have e : a + (i + 1) = a + 1 + i := by omega
      rw [e] at hs ⊢
      exact ih _ _ _ _ h hs

/-- A write leaves every byte that it does not name. -/
theorem State.write_byte_ne (s : State) (r q : Region) (a k : Nat) (l : List Byte) (p : Bool)
    (h : ∀ i < l.length, memKey r (a + i) ≠ memKey q k) : (s.write r a l p).byte q k = s.byte q k :=
  memGet_writeAll_ne r _ l _ _ _ h

/-- A write stores its bytes. -/
theorem State.write_byte (s : State) (r : Region) (a i : Nat) (l : List Byte) (p : Bool) (b : Byte)
    (h : l[i]? = some b) (hs : s.parkGone r (a + i) = false) : (s.write r a l p).byte r (a + i) = b :=
  memGet_writeAll r _ l _ _ _ _ h hs

end Sys2Proof.Machine
end

