-- ==== Sys2Proof/Laws/Becomes.lean ====
section
/-! SUPPORT. How `HallBecomes`, `PortBecomes` and `StairBecomes` go through the updates of halls and stairwells. -/

namespace Sys2Proof.Machine

theorem HallBecomes.refl (a : State) (h : Nat) : HallBecomes a a h (a.hall h) := ⟨rfl, rfl, fun _ _ => rfl⟩

theorem HallBecomes.set {a b : State} {h : Nat} {x : Hall} (k : HallBecomes a b h x) (y : Hall) :
    HallBecomes a (b.setHall h y) h y := by
  refine ⟨?_, by simp, fun j hj => ?_⟩
  · rw [k.rest]; rfl
  · rw [State.hall_setHall_ne _ _ (Ne.symm hj)]
    exact k.others j hj

theorem HallBecomes.mod {a b : State} {h : Nat} {x : Hall} (k : HallBecomes a b h x) (f : Hall → Hall) :
    HallBecomes a (b.modHall h f) h (f x) := by
  have := k.set (f (b.hall h))
  rw [k.this] at this
  unfold State.modHall
  rwa [k.this]

theorem HallBecomes.of_mod (a : State) (h : Nat) (f : Hall → Hall) : HallBecomes a (a.modHall h f) h (f (a.hall h)) :=
  (HallBecomes.refl a h).mod f

theorem PortBecomes.of_mod (a : State) (h : Nat) (f : Port → Port) : PortBecomes a (a.modPort h f) h (f (a.port h)) :=
  HallBecomes.of_mod a h _

theorem PortBecomes.mod {a b : State} {h : Nat} {p : Port} (k : PortBecomes a b h p) (f : Port → Port) :
    PortBecomes a (b.modPort h f) h (f p) := HallBecomes.mod k _

theorem PortBecomes.port {a b : State} {h : Nat} {p : Port} (k : PortBecomes a b h p) : b.port h = p := by
  unfold State.port
  rw [k.this]

theorem StairBecomes.refl (a : State) (h w : Nat) : StairBecomes a a h w (a.stair h w) := ⟨rfl, rfl, fun _ _ _ => rfl⟩

theorem StairBecomes.set {a b : State} {h w : Nat} {x : Stairwell} (k : StairBecomes a b h w x) (y : Stairwell) :
    StairBecomes a (b.setStair h w y) h w y := by
  refine ⟨?_, by simp, fun i j hj => ?_⟩
  · rw [k.rest]; rfl
  · rw [State.stair_setStair_ne _ _ (Ne.symm hj)]
    exact k.others i j hj

theorem StairBecomes.mod {a b : State} {h w : Nat} {x : Stairwell} (k : StairBecomes a b h w x)
    (f : Stairwell → Stairwell) : StairBecomes a (b.modStair h w f) h w (f x) := by
  have := k.set (f (b.stair h w))
  rw [k.this] at this
  unfold State.modStair
  rwa [k.this]

end Sys2Proof.Machine
end

