-- ==== Sys2Proof/Laws/Claims.lean ====
section
/-! SUPPORT. What a descriptor's command does once its claim is known to begin. -/

namespace Sys2Proof.Machine

theorem withClaim_begins {s : State} {c op : Nat} {k : Claim} (h : Begins s c op k) (f : Claim → State) :
    withClaim s c op f = f k := by
  unfold withClaim
  rw [h.held]
  dsimp only
  rw [if_pos]
  rcases h.stage with e | e <;> simp [h.code, e]

theorem withVol_ready {s : State} {c op : Nat} {k : Claim} {bad : State → Rec64 → Option Nat}
    (h : VolReady s c op k bad) (f : State → Claim → Nat → State) : withVol s c op bad f = f s k (descVol k.desc) := by
  have up : s.hallUp k.hall = true := by
    by_contra hn
    have g := h.gate
    unfold volGate at g
    rw [if_pos (by simp [hn])] at g
    cases g
  unfold withVol
  rw [withClaim_begins h.toBegins]
  dsimp only
  rw [if_neg (by simp [up]), h.body, h.gate]
  unfold gated spineRead
  dsimp only
  rw [h.read]
  simp

end Sys2Proof.Machine
end

