-- ==== Sys2Proof/Laws/Keeps.lean ====
section
/-! SUPPORT. What the shared operations keep of a state (`Keeps`), and how it goes through tables, folds and updates. -/

namespace Sys2Proof.Machine

@[simp] theorem Keeps.refl (s : State) : Keeps s s :=
  ⟨rfl, rfl, List.prefix_refl _, le_refl _, rfl, id, id⟩

theorem Keeps.trans {a b c : State} (h : Keeps a b) (k : Keeps b c) : Keeps a c :=
  ⟨k.now.trans h.now, k.pending.trans h.pending, h.out.trans k.out, h.fresh.trans k.fresh, k.fuses.trans h.fuses,
    k.mem ∘ h.mem, k.rings ∘ h.rings⟩

/-- An update of fields that `Keeps` does not speak of. -/
theorem other_keeps {a s : State}
    {u0 : Sparse Stairwell} {u1 : Sparse Landing} {u2 u12 u13 u14 : Sparse Bool} {u3 : Sparse Claim} {u4 u17
    u22 : Nat} {u5 : Sparse Vol} {u6 : Sparse VolJob} {u7 u8 : Sparse Dword} {u9 : Sparse Nat} {u10 : Sparse
    RefCount} {u11 : Sparse SlotUse} {u15 : Sparse Plan} {u16 : Sparse Step} {u18 : Sparse (Nat × List Nat)}
    {u19 : Sparse Clasp} {u20 : List Retry} {u21 : Sparse Binding} {u23 : List KeptLeaf}
    (h : Keeps a s) :
    Keeps a { s with
        stairs := u0, landings := u1, poison := u2, claims := u3, nextClaim := u4, vols := u5, jobs := u6,
        leaves := u7, shadows := u8, pairs := u9, refs := u10, slots := u11, parkUsed := u12, farUsed :=
        u13, spineUsed := u14, plans := u15, steps := u16, nextStep := u17, unpins := u18, kept := u23, clasps := u19,
        retries := u20, binds := u21, nextBind := u22 } :=
  h.trans ⟨rfl, rfl, List.prefix_refl _, le_refl _, rfl, id, id⟩

/-- An update that filters the memory and its marks. -/
theorem memFilter_keeps {a s : State} {p : Host.Cell → Bool} {q : Sparse Bool} (h : Keeps a s) :
    Keeps a { s with mem := s.mem.filter p, poison := q } :=
  h.trans ⟨rfl, rfl, List.prefix_refl _, le_refl _, rfl, fun h => memWf_filter _ p h, id⟩

/-- Free values drawn. -/
theorem fresh_keeps {a s : State} {n : Nat} (h : Keeps a s) : Keeps a { s with fresh := s.fresh + n } :=
  h.trans ⟨rfl, rfl, List.prefix_refl _, Nat.le_add_right _ _, rfl, id, id⟩

/-- A change of a hall that keeps its rings within their bound. -/
def KeepsRings (f : Hall → Hall) : Prop := ∀ x, x.ringsOk → (f x).ringsOk

/-- A change of the porter that leaves the fuses. -/
def KeepsFuses (f : Porter → Porter) : Prop := ∀ p, (f p).fuses = p.fuses

theorem setHall_keeps {a s : State} {n : Nat} {x : Hall} (h : Keeps a s) (hx : (s.hall n).ringsOk → x.ringsOk) :
    Keeps a (s.setHall n x) := by
  refine h.trans ⟨rfl, rfl, List.prefix_refl _, le_refl _, rfl, id, fun h k => ?_⟩
  rw [State.hall_setHall]
  split
  · exact hx (h n)
  · exact h k

theorem modHall_keeps {a s : State} {n : Nat} {f : Hall → Hall} (h : Keeps a s) (hf : KeepsRings f) :
    Keeps a (s.modHall n f) := setHall_keeps h (hf _)

/-- The same change made to every hall. -/
theorem hallsMap_keeps {a s : State} {f : Nat × Hall → Nat × Hall} (h : Keeps a s) (h1 : ∀ q, (f q).1 = q.1)
    (h2 : ∀ q : Nat × Hall, q.2.ringsOk → (f q).2.ringsOk) : Keeps a { s with halls := s.halls.map f } := by
  refine h.trans ⟨rfl, rfl, List.prefix_refl _, le_refl _, rfl, id, fun h k => ?_⟩
  have e : ∀ (t : Sparse Hall), (sget t {} k).ringsOk → (sget (t.map f) {} k).ringsOk := by
    intro t
    induction t with
    | nil => exact id
    | cons q t ih =>
      intro hq
      obtain ⟨i, x⟩ := q
      have hi := h1 (i, x)
      have hx := h2 (i, x)
      by_cases hk : i = k
      · subst hk
        simp only [sget, List.map_cons, sfind, hi, if_true, Option.getD_some] at hq ⊢
        exact hx hq
      · simp only [sget, List.map_cons, sfind, hi, if_neg hk] at hq ⊢
        exact ih hq
  exact e _ (h k)

theorem modRegs_keeps {a s : State} {n : Nat} {f : HallRegs → HallRegs} (h : Keeps a s) : Keeps a (s.modRegs n f) :=
  modHall_keeps h fun _ hx => hx

theorem setStair_keeps {a s : State} {n w : Nat} {x : Stairwell} (h : Keeps a s) : Keeps a (s.setStair n w x) :=
  other_keeps h
theorem modStair_keeps {a s : State} {n w : Nat} {f : Stairwell → Stairwell} (h : Keeps a s) :
    Keeps a (s.modStair n w f) := other_keeps h
theorem setLanding_keeps {a s : State} {n w l : Nat} {x : Landing} (h : Keeps a s) : Keeps a (s.setLanding n w l x) :=
  other_keeps h
theorem modLanding_keeps {a s : State} {n w l : Nat} {f : Landing → Landing} (h : Keeps a s) :
    Keeps a (s.modLanding n w l f) := other_keeps h
theorem setVol_keeps {a s : State} {v : Nat} {x : Vol} (h : Keeps a s) : Keeps a (s.setVol v x) :=
  other_keeps h
theorem modVol_keeps {a s : State} {v : Nat} {f : Vol → Vol} (h : Keeps a s) : Keeps a (s.modVol v f) :=
  other_keeps h
theorem setJob_keeps {a s : State} {v : Nat} {x : VolJob} (h : Keeps a s) : Keeps a (s.setJob v x) :=
  other_keeps h
theorem modJob_keeps {a s : State} {v : Nat} {f : VolJob → VolJob} (h : Keeps a s) : Keeps a (s.modJob v f) :=
  other_keeps h
theorem setClasp_keeps {a s : State} {k : Nat} {x : Clasp} (h : Keeps a s) : Keeps a (s.setClasp k x) :=
  other_keeps h
theorem setClaim_keeps {a s : State} {k : Nat} {x : Claim} (h : Keeps a s) : Keeps a (s.setClaim k x) :=
  other_keeps h
theorem setPoison_keeps {a s : State} {r : Region} {u : Nat} {p : Bool} (h : Keeps a s) : Keeps a (s.setPoison r u p) :=
  other_keeps h

theorem setStage_keeps {a s : State} {c : Nat} {g : ClaimStage} (h : Keeps a s) : Keeps a (s.setStage c g) := by
  unfold State.setStage
  split
  · exact setClaim_keeps h
  · exact h

theorem modPorter_keeps {a s : State} {f : Porter → Porter} (h : Keeps a s) (hf : KeepsFuses f) :
    Keeps a (s.modPorter f) := h.trans ⟨rfl, rfl, List.prefix_refl _, le_refl _, hf _, id, id⟩
theorem modHost_keeps {a s : State} {f : HostDie → HostDie} (h : Keeps a s) : Keeps a (s.modHost f) :=
  modPorter_keeps h fun _ => rfl

theorem emit_keeps {a s : State} {o : Output} (h : Keeps a s) : Keeps a (s.emit o) :=
  h.trans ⟨rfl, rfl, List.prefix_append _ _, le_refl _, rfl, id, id⟩

theorem write_keeps {a s : State} {r : Region} {n : Nat} {l : List Byte} {p : Bool} (h : Keeps a s) :
    Keeps a (s.write r n l p) :=
  h.trans ⟨rfl, rfl, List.prefix_refl _, le_refl _, rfl, fun h => memWf_writeAll r _ l _ n h, id⟩

theorem freeBytes_keeps {a s : State} {r : Region} {n m : Nat} (h : Keeps a s) : Keeps a (s.freeBytes r n m) :=
  h.trans ⟨rfl, rfl, List.prefix_refl _, Nat.le_add_right _ _, rfl, fun h => memWf_writeAll r _ _ _ n h, id⟩

theorem ite_keeps {a s t : State} {c : Prop} [Decidable c] (h : Keeps a s) (k : Keeps a t) :
    Keeps a (if c then s else t) := by
  split
  · exact h
  · exact k

/-! ### Folds -/

theorem foldl_keeps {α : Type} {a s : State} {f : State → α → State} {l : List α} (h : Keeps a s)
    (hf : ∀ s x, Keeps a s → Keeps a (f s x)) : Keeps a (l.foldl f s) := by
  induction l generalizing s with
  | nil => exact h
  | cons x l ih => exact ih (hf s x h)

theorem foldl_fst_keeps {α β : Type} {a : State} {q : State × β} {f : State × β → α → State × β} {l : List α}
    (h : Keeps a q.1) (hf : ∀ q x, Keeps a q.1 → Keeps a (f q x).1) : Keeps a (l.foldl f q).1 := by
  induction l generalizing q with
  | nil => exact h
  | cons x l ih => exact ih (hf q x h)

theorem foldr_keeps {α : Type} {a s : State} {f : α → State → State} {l : List α} (h : Keeps a s)
    (hf : ∀ s x, Keeps a s → Keeps a (f x s)) : Keeps a (l.foldr f s) := by
  induction l with
  | nil => exact h
  | cons x l ih => exact hf _ x ih

theorem foldlM_keeps {α : Type} {a s t : State} {f : State → α → Except Nat State} {l : List α}
    (e : l.foldlM f s = .ok t) (h : Keeps a s) (hf : ∀ s x t, f s x = .ok t → Keeps a s → Keeps a t) : Keeps a t := by
  induction l generalizing s with
  | nil => cases e; exact h
  | cons x l ih =>
    cases k : f s x with
    | error st =>
      rw [List.foldlM_cons, k] at e
      cases e
    | ok u =>
      rw [List.foldlM_cons, k] at e
      exact ih e (hf s x u k h)

theorem writeUnits_keeps {a s : State} {r : Region} {n : Nat} {l : List Byte} {p : Nat → Nat → Bool} (h : Keeps a s) :
    Keeps a (s.writeUnits r n l p) := foldl_keeps h fun _ _ h => write_keeps h

theorem copyBeats_keeps {a s : State} {r r' : Region} {x y n : Nat} (h : Keeps a s) :
    Keeps a (s.copyBeats r x r' y n) := writeUnits_keeps h

theorem writeBeats_keeps {a s : State} {r : Region} {n : Nat} {l : List (List Byte × Bool)} (h : Keeps a s) :
    Keeps a (s.writeBeats r n l) := writeUnits_keeps h

/-! ### Reports -/

theorem publishDue_keeps {a s : State} (h : Keeps a s) : Keeps a s.publishDue := modPorter_keeps h fun _ => rfl
theorem logEvent_keeps {a s : State} {c n u g : Nat} (h : Keeps a s) : Keeps a (s.logEvent c n u g) :=
  modPorter_keeps h fun _ => rfl
theorem raiseAlert_keeps {a s : State} {b : Nat} (h : Keeps a s) : Keeps a (s.raiseAlert b) :=
  modPorter_keeps h fun p => by dsimp only; split <;> rfl

theorem replaceCause_keeps {a s : State} {b : Nat} (h : Keeps a s) : Keeps a (s.replaceCause b) := by
  unfold State.replaceCause
  split
  · exact h
  · exact raiseAlert_keeps (logEvent_keeps (publishDue_keeps (modPorter_keeps h fun _ => rfl)))

theorem hallWrite_keeps {a s : State} {n : Nat} {k : State → State} (h : Keeps a s)
    (hk : ∀ s, Keeps a s → Keeps a (k s)) : Keeps a (s.hallWrite n k) := by
  unfold State.hallWrite
  split
  · exact emit_keeps h
  · split
    · exact h
    · exact hk s h

theorem endWaits_keeps {a s : State} {c : Nat} (h : Keeps a s) : Keeps a (s.endWaits c) := other_keeps h

theorem noteReset_keeps {a s : State} {n : Nat} (h : Keeps a s) : Keeps a (s.noteReset n) := modRegs_keeps h

theorem complete_keeps {a s : State} {c w st : Nat} {p : Rec32} (h : Keeps a s) : Keeps a (s.complete c w st p) := by
  unfold State.complete
  split
  · exact h
  · dsimp only
    split
    · apply emit_keeps
      apply endWaits_keeps
      apply other_keeps
      exact modHall_keeps (write_keeps h) fun _ hx => hx
    · apply endWaits_keeps
      apply other_keeps
      exact modHall_keeps (write_keeps h) fun _ hx => hx

theorem finish_keeps {a s : State} {c st : Nat} (h : Keeps a s) : Keeps a (s.finish c st) := by
  unfold State.finish
  split
  · exact h
  · exact complete_keeps h

end Sys2Proof.Machine
end

