-- ==== Sys2Proof/Laws/KeepsClock.lean ====
section
/-! SUPPORT. What the operations of Machine/Clock.lean keep of a state. -/

namespace Sys2Proof.Machine

theorem referenceEdge_rings {s : State} (h : s.ringsOk) : (referenceEdge s).ringsOk := by
  refine (hallsMap_keeps (Keeps.refl s) (f := fun p => if p.2.elapsedOn then (p.1, { p.2 with elapsed := p.2.elapsed + 1 }) else p)
    (fun q => ?_) fun q hq => ?_).rings h
  · dsimp only; split <;> rfl
  · dsimp only; split <;> exact hq

end Sys2Proof.Machine
end

