-- ==== Sys2Proof/Laws/KeepsRings.lean ====
section
/-! SUPPORT. What the operations of Machine/Rings.lean keep of a state. -/

namespace Sys2Proof.Machine

theorem setSq_keeps {a s : State} {n i : Nat} {r : SubRing} (h : Keeps a s) (hr : (s.sq n i).ok → r.ok) :
    Keeps a (s.setSq n i r) := by
  refine setHall_keeps h fun hx k => ?_
  dsimp only
  rw [sget_sset]
  split
  · exact hr (hx i)
  · exact hx k

theorem setCq_keeps {a s : State} {h1 : Nat} {i : Nat} {r : CompRing} (h : Keeps a s) : Keeps a (State.setCq s h1 i r)
    := by
  unfold State.setCq
  try dsimp only
  repeat' first
    | (with_reducible first | assumption | exact Keeps.refl _ | apply modHall_keeps)
    | exact (fun _ hx i => hx i : KeepsRings _)

theorem execSqTailWrite_keeps (n : HallId) (i : SqId) (al : Bool) (v : Dword) (s : State) :
    ∃ t, execSqTailWrite n i al v s = .next t ∧ Keeps s t := by
  refine ⟨_, rfl, hallWrite_keeps (Keeps.refl s) fun s h => ?_⟩
  split
  · exact modRegs_keeps h
  · dsimp only
    split
    · rename_i hk
      refine setSq_keeps h fun _ _ => ?_
      simp only [sqTailOk, Bool.and_eq_true, decide_eq_true_eq] at hk
      exact hk.1
    · exact setSq_keeps h id

theorem execCqHeadWrite_keeps (h0 : HallId) (ring : CqId) (aligned8 : Bool) (value : Dword) (s : State) : ∃ t,
    execCqHeadWrite h0 ring aligned8 value s = .next t ∧ Keeps s t := by
  unfold execCqHeadWrite
  refine ⟨_, rfl, ?_⟩
  try dsimp only
  repeat' first
    | (with_reducible first
        | assumption | exact Keeps.refl _ | apply hallWrite_keeps | apply modRegs_keeps | apply setCq_keeps)
    | intro _
    | (with_reducible first | apply ite_keeps)

theorem sqCfg_ok (r : SubRing) (w : Word) (h : r.ok) : (r.cfg w).ok := by
  unfold SubRing.cfg SubRing.ok SubRing.size at *
  dsimp only
  split
  · exact h
  · rename_i hc
    simp only [Bool.or_eq_true, Bool.and_eq_true, decide_eq_true_eq, bne_iff_ne, not_or, not_and, ne_eq,
      Decidable.not_not] at hc
    split
    · intro _
      simp
    · rename_i hd
      intro he
      simp only at he ⊢
      simp only [he, Bool.true_and, Bool.not_eq_true'] at hd
      have hr : r.en = true := by simpa using hd
      rw [hc.2 ⟨hr, he⟩]
      exact h hr

theorem ringCfg_keeps {a s : State} {n : Nat} {g : RingReg} {w : Word} (h : Keeps a s) : Keeps a (ringCfg s n g w)
    := by
  unfold ringCfg
  cases g
  case sqBaseLo | sqBaseHi =>
    dsimp only
    refine setSq_keeps h fun hr => ?_
    split <;> exact hr
  case sqCfg => exact setSq_keeps h fun hr => sqCfg_ok _ _ hr
  all_goals exact setCq_keeps h

theorem execRingCfgWrite_keeps (h0 : HallId) (r : RingReg) (w : Word) (s : State) : ∃ t, execRingCfgWrite h0 r w s =
    .next t ∧ Keeps s t := by
  unfold execRingCfgWrite
  refine ⟨_, rfl, ?_⟩
  try dsimp only
  repeat' first
    | (with_reducible first | assumption | exact Keeps.refl _ | apply hallWrite_keeps | apply ringCfg_keeps)
    | intro _

theorem takeDesc_keeps {a s : State} {n : HallId} {i : SqId} {r : SubRing} {d : Rec64} (h : Keeps a s)
    (hr : (s.sq n i).ok → { r with claimed := r.claimed + 1 }.ok) : Keeps a (takeDesc s n i r d) := by
  have h1 : Keeps a (s.setSq n i { r with claimed := r.claimed + 1 }) := setSq_keeps h hr
  have h2 : Keeps a (s.setSq n i { r with claimed := r.claimed + 1, err := true }) := setSq_keeps h hr
  unfold takeDesc
  dsimp only
  repeat' first
    | (with_reducible first
        | assumption | apply complete_keeps | apply finish_keeps | apply setCq_keeps | apply modRegs_keeps)
    | split
    | (with_reducible first | apply other_keeps)

theorem claimed_ok (r : SubRing) (hn : r.tail ≠ r.claimed) (hk : r.ok) : { r with claimed := r.claimed + 1 }.ok := by
  intro he
  have hk := hk he
  simp only [SubRing.size] at hk ⊢
  have hz : r.tail - r.claimed ≠ 0 := fun hz => hn (by bv_omega)
  have hx : (r.tail - (r.claimed + 1)).toNat < (r.tail - r.claimed).toNat := by bv_omega
  omega

theorem takeHead_keeps {a s : State} {n : HallId} {i : SqId} (h : Keeps a s)
    (hr : (s.sq n i).tail ≠ (s.sq n i).claimed) : Keeps a (takeHead s n i) := by
  refine takeDesc_keeps (modHall_keeps h fun x hx => ?_) fun hk => ?_
  · split <;> exact hx
  · refine claimed_ok _ hr ?_
    have e : ∀ (f : Hall → Hall), (∀ x, (f x).sq = x.sq) → (s.modHall n f).sq n i = s.sq n i := by
      intro f hf
      unfold State.sq State.modHall
      rw [State.hall_setHall, if_pos rfl, hf]
    rwa [e _ (by intro x; split <;> rfl)] at hk

theorem claimRing_claimable {s : State} {n i : Nat} (h : s.claimRing n = some i) : i < 256 ∧ s.claimable n i = true
    := by
  have rr : ∀ (last : Nat) (p : Nat → Bool), rrNext 256 last p = some i → i < 256 ∧ p i = true := by
    intro last p hp
    unfold rrNext at hp
    refine ⟨?_, List.find?_some hp⟩
    obtain ⟨j, -, rfl⟩ := List.mem_map.1 (List.mem_of_find?_eq_some hp)
    exact Nat.mod_lt _ (by norm_num)
  unfold State.claimRing at h
  dsimp only at h
  split at h
  · cases h
    have k := rr _ _ (by assumption)
    simp only [Bool.and_eq_true] at k
    exact ⟨k.1, k.2.2⟩
  · have k := rr _ _ h
    simp only [Bool.and_eq_true] at k
    exact ⟨k.1, k.2.2⟩

theorem execClaimDescriptor_keeps (n : HallId) (s : State) : ∃ t, execClaimDescriptor n s = .next t ∧ Keeps s t := by
  refine ⟨_, rfl, ?_⟩
  split
  · split
    · rename_i i hi
      obtain ⟨h1, h2⟩ := claimRing_claimable hi
      refine takeHead_keeps (Keeps.refl s) ?_
      have e : (Fin.ofNat 256 i : SqId).val = i := by simp [Fin.ofNat, Nat.mod_eq_of_lt h1]
      simp only [e]
      unfold State.claimable at h2
      simp only [Bool.and_eq_true, bne_iff_ne] at h2
      exact h2.1.2
    · exact Keeps.refl s
  · exact Keeps.refl s

theorem execIrqDelayExpire_keeps (h0 : HallId) (ring : CqId) (s : State) : ∃ t, execIrqDelayExpire h0 ring s = .next
    t ∧ Keeps s t := by
  unfold execIrqDelayExpire
  refine ⟨_, rfl, ?_⟩
  try dsimp only
  repeat' first
    | (with_reducible first | assumption | exact Keeps.refl _ | apply emit_keeps | apply setCq_keeps)
    | intro _
    | (with_reducible first | apply ite_keeps)
    | split

theorem withClaim_keeps {a s : State} {c : Nat} {op : Nat} {k : Claim → State} (h : Keeps a s)
    (hk : ∀ u0, Keeps a (k u0)) : Keeps a (withClaim s c op k) := by
  unfold withClaim
  try dsimp only
  repeat' first
    | (with_reducible first | assumption | exact Keeps.refl _ | apply hk)
    | intro _
    | (with_reducible first | apply ite_keeps)
    | split

theorem execNop_keeps (c : Nat) (s : State) : ∃ t, execNop c s = .next t ∧ Keeps s t := by
  unfold execNop
  refine ⟨_, rfl, ?_⟩
  try dsimp only
  repeat' first
    | (with_reducible first | assumption | exact Keeps.refl _ | apply withClaim_keeps | apply finish_keeps)
    | intro _
    | (with_reducible first | apply ite_keeps)

end Sys2Proof.Machine
end

