-- ==== Sys2Proof/Laws/KeepsNetOps.lean ====
section
/-! SUPPORT. What the operations of Machine/NetOps.lean keep of a state. -/

namespace Sys2Proof.Machine

theorem netPush_keeps {a s : State} {h1 : Nat} {out : Nat} {p : NetPkt} (h : Keeps a s) : Keeps a
    (netPush s h1 out p) := by
  unfold netPush
  try dsimp only
  repeat' first
    | (with_reducible first | assumption | exact Keeps.refl _ | apply modHall_keeps)
    | exact (fun _ hx i => hx i : KeepsRings _)

end Sys2Proof.Machine
end

