-- ==== Sys2Proof/Laws/KeepsFabOps.lean ====
section
/-! SUPPORT. What the operations of Machine/FabOps.lean keep of a state. -/

namespace Sys2Proof.Machine

theorem modPort_keeps {a s : State} {h1 : Nat} {f : Port → Port} (h : Keeps a s) : Keeps a (State.modPort s h1 f) := by
  unfold State.modPort
  try dsimp only
  repeat' first
    | (with_reducible first | assumption | exact Keeps.refl _ | apply modHall_keeps)
    | exact (fun _ hx i => hx i : KeepsRings _)

theorem fabDrop_keeps {a s : State} {h1 : Nat} (h : Keeps a s) : Keeps a (fabDrop s h1) := by
  unfold fabDrop
  try dsimp only
  repeat' first
    | (with_reducible first | assumption | exact Keeps.refl _ | apply modPort_keeps)

theorem linkSend_keeps {a s : State} {h1 : HallId} {p : FabPacket} (h : Keeps a s) : Keeps a (linkSend s h1 p) := by
  unfold linkSend
  try dsimp only
  repeat' first
    | (with_reducible first | assumption | exact Keeps.refl _ | apply emit_keeps | apply modPort_keeps)

theorem linkIn_keeps {a s : State} {h1 : HallId} {p : FabPacket} {k : State → State} (h : Keeps a s) (hkk : ∀ s,
    Keeps a s → Keeps a (k s)) : Keeps a (linkIn s h1 p k) := by
  unfold linkIn
  try dsimp only
  repeat' first
    | (with_reducible first | assumption | exact Keeps.refl _ | apply modPort_keeps | apply emit_keeps | apply hkk)
    | intro _
    | (with_reducible first | apply ite_keeps)
    | split

theorem portSend_keeps {a s : State} {h1 : HallId} {p : FabPacket} (h : Keeps a s) : Keeps a (portSend s h1 p) := by
  unfold portSend
  try dsimp only
  repeat' first
    | (with_reducible first | assumption | exact Keeps.refl _ | apply linkSend_keeps | apply modPort_keeps)
    | intro _
    | (with_reducible first | apply ite_keeps)

theorem portDrain_keeps {a s : State} {n : Nat} {g : HallId} (h : Keeps a s) : Keeps a (portDrain n s g) := by
  induction n generalizing s with
  | zero => exact h
  | succ n ih =>
    unfold portDrain
    dsimp only
    split
    · exact h
    · exact ih (linkSend_keeps (modPort_keeps h))

theorem fabOut_keeps {a s : State} {h1 : HallId} {p : FabPacket} (h : Keeps a s) : Keeps a (fabOut s h1 p) := by
  unfold fabOut
  try dsimp only
  repeat' first
    | (with_reducible first | assumption | exact Keeps.refl _ | apply fabDrop_keeps | apply portSend_keeps)
    | intro _
    | (with_reducible first | apply ite_keeps)

theorem fabRing_keeps {a s : State} {h1 : HallId} {g : HallId} {p : FabPacket} {leave : Bool} (h : Keeps a s) :
    Keeps a (fabRing s h1 g p leave) := by
  unfold fabRing
  try dsimp only
  repeat' first
    | (with_reducible first | assumption | exact Keeps.refl _ | apply netPush_keeps)

theorem fabSend_keeps {a s : State} {h1 : HallId} {p : FabPacket} (h : Keeps a s) : Keeps a (fabSend s h1 p) := by
  unfold fabSend
  try dsimp only
  repeat' first
    | (with_reducible first
        | assumption | exact Keeps.refl _ | apply fabDrop_keeps | apply emit_keeps | apply fabRing_keeps
        | apply fabOut_keeps)
    | intro _
    | (with_reducible first | apply ite_keeps)
    | split

theorem setTx_keeps {a s : State} {h1 : Nat} {key : Nat} {t3 : TxStream} (h : Keeps a s) : Keeps a
    (State.setTx s h1 key t3) := by
  unfold State.setTx
  try dsimp only
  repeat' first
    | (with_reducible first | assumption | exact Keeps.refl _ | apply modHall_keeps)
    | exact (fun _ hx i => hx i : KeepsRings _)

theorem txData_keeps {a s : State} {h1 : HallId} {ch : Option ChId} {claim : Option Nat} {key : Nat} {bytes
    : List Byte} {poison : Bool} (h : Keeps a s) : Keeps a (txData s h1 ch claim key bytes poison) := by
  unfold txData
  try dsimp only
  repeat' first
    | (with_reducible first | assumption | exact Keeps.refl _ | apply setTx_keeps | apply fabSend_keeps)

theorem txRestart_keeps {a s : State} {h1 : Nat} {key : Nat} (h : Keeps a s) : Keeps a (txRestart s h1 key) := by
  unfold txRestart
  try dsimp only
  repeat' first
    | (with_reducible first | assumption | exact Keeps.refl _ | apply setTx_keeps)

theorem txStop_keeps {a s : State} {h1 : Nat} {key : Nat} (h : Keeps a s) : Keeps a (txStop s h1 key) := by
  unfold txStop
  try dsimp only
  repeat' first
    | (with_reducible first | assumption | exact Keeps.refl _ | apply setTx_keeps)

theorem txOrphan_keeps {a s : State} {h1 : Nat} {ch : ChId} (h : Keeps a s) : Keeps a (txOrphan s h1 ch) := by
  unfold txOrphan
  try dsimp only
  repeat' first
    | (with_reducible first | assumption | exact Keeps.refl _ | apply modHall_keeps)
    | exact (fun _ hx i => hx i : KeepsRings _)

theorem setRx_keeps {a s : State} {h1 : Nat} {i : Nat} {r : RxStream} (h : Keeps a s) : Keeps a (State.setRx s h1 i r)
    := by
  unfold State.setRx
  try dsimp only
  repeat' first
    | (with_reducible first | assumption | exact Keeps.refl _ | apply modHall_keeps)
    | exact (fun _ hx i => hx i : KeepsRings _)

theorem sendAck_keeps {a s : State} {h1 : HallId} {i : Nat} (h : Keeps a s) : Keeps a (sendAck s h1 i) := by
  unfold sendAck
  try dsimp only
  repeat' first
    | (with_reducible first | assumption | exact Keeps.refl _ | apply fabSend_keeps | apply setRx_keeps)

end Sys2Proof.Machine
end

