-- ==== Sys2Proof/Laws/KeepsQueues.lean ====
section
/-! SUPPORT. What the operations of Machine/Queues.lean keep of a state. -/

namespace Sys2Proof.Machine

theorem setQueue_keeps {a s : State} {h1 : Nat} {sw : Nat} {q : Nat} {x : OpQueue} (h : Keeps a s) : Keeps a
    (State.setQueue s h1 sw q x) := by
  unfold State.setQueue
  try dsimp only
  repeat' first
    | (with_reducible first | assumption | exact Keeps.refl _ | apply modStair_keeps)

theorem setAcc_keeps {a s : State} {h1 : Nat} {sw : Nat} {a3 : Nat} {x : AccSet} (h : Keeps a s) : Keeps a
    (State.setAcc s h1 sw a3 x) := by
  unfold State.setAcc
  try dsimp only
  repeat' first
    | (with_reducible first | assumption | exact Keeps.refl _ | apply modStair_keeps)

theorem freeSets_keeps {a s : State} {h1 : Nat} {sw : Nat} {q : Nat} (h : Keeps a s) : Keeps a (freeSets s h1 sw q) := by
  unfold freeSets
  try dsimp only
  repeat' first
    | (with_reducible first
        | assumption | exact Keeps.refl _ | apply setAcc_keeps | apply foldl_keeps | apply foldl_fst_keeps)
    | intro _
    | (with_reducible first | apply ite_keeps)

theorem noteHalt_keeps {a s : State} {h1 : Nat} {sw : Nat} {q : Nat} {status : Nat} {idx : Nat} (h : Keeps a s) : Keeps a
    (noteHalt s h1 sw q status idx) := by
  unfold noteHalt
  try dsimp only
  repeat' first
    | (with_reducible first | assumption | exact Keeps.refl _)
    | intro _
    | (with_reducible first | apply ite_keeps)
    | split
    | (with_reducible first | apply other_keeps)

theorem haltQueue_keeps {a s : State} {h1 : Nat} {sw : Nat} {q : Nat} {status : Nat} {idx : Nat} (h : Keeps a s) : Keeps a
    (haltQueue s h1 sw q status idx) := by
  unfold haltQueue
  try dsimp only
  repeat' first
    | (with_reducible first
        | assumption | exact Keeps.refl _ | apply setQueue_keeps | apply noteHalt_keeps | apply freeSets_keeps)

theorem resetQueue_keeps {a s : State} {h1 : Nat} {sw : Nat} {q : Nat} (h : Keeps a s) : Keeps a (resetQueue s h1 sw q) :=
    by
  unfold resetQueue
  try dsimp only
  repeat' first
    | (with_reducible first
        | assumption | exact Keeps.refl _ | apply setAcc_keeps | apply setQueue_keeps | apply foldl_keeps
        | apply foldl_fst_keeps)
    | intro _
    | (with_reducible first | apply ite_keeps)

theorem handout_keeps {a s : State} {h1 : Nat} {sw : Nat} {q : Nat} (h : Keeps a s) : Keeps a (handout s h1 sw q) := by
  unfold handout
  try dsimp only
  repeat' first
    | (with_reducible first | assumption | exact Keeps.refl _ | apply setQueue_keeps | apply haltQueue_keeps)
    | intro _
    | (with_reducible first | apply ite_keeps)
    | split

theorem makeReady_keeps {a s : State} {h1 : Nat} {sw : Nat} {q : Nat} {i : Nat} (h : Keeps a s) : Keeps a
    (makeReady s h1 sw q i) := by
  unfold makeReady
  try dsimp only
  repeat' first
    | (with_reducible first | assumption | exact Keeps.refl _ | apply setQueue_keeps | apply setAcc_keeps)
    | intro _
    | (with_reducible first | apply ite_keeps)
    | split

theorem retireOp_keeps {a s : State} {h1 : Nat} {sw : Nat} {q : Nat} (h : Keeps a s) : Keeps a (retireOp s h1 sw q) := by
  unfold retireOp
  try dsimp only
  repeat' first
    | (with_reducible first | assumption | exact Keeps.refl _ | apply setQueue_keeps)
    | intro _
    | (with_reducible first | apply ite_keeps)
    | split

theorem strandTo_keeps {a s : State} {h1 : Nat} {sw : Nat} {q : Nat} {i : Nat} {st : StrandState} (h : Keeps a s) : Keeps a
    (strandTo s h1 sw q i st) := by
  unfold strandTo
  try dsimp only
  repeat' first
    | (with_reducible first | assumption | exact Keeps.refl _ | apply setQueue_keeps)
    | intro _
    | (with_reducible first | apply ite_keeps)
    | split

theorem strandFail_keeps {a s : State} {h1 : Nat} {sw : Nat} {q : Nat} {i : Nat} {status : Nat} (h : Keeps a s) : Keeps a
    (strandFail s h1 sw q i status) := by
  unfold strandFail
  try dsimp only
  repeat' first
    | (with_reducible first | assumption | exact Keeps.refl _ | apply haltQueue_keeps | apply strandTo_keeps)
    | intro _
    | (with_reducible first | apply ite_keeps)
    | split

theorem strandDone_keeps {a s : State} {h1 : Nat} {sw : Nat} {q : Nat} {i : Nat} (h : Keeps a s) : Keeps a
    (strandDone s h1 sw q i) := by
  unfold strandDone
  try dsimp only
  repeat' first
    | (with_reducible first | assumption | exact Keeps.refl _ | apply strandTo_keeps | apply freeSets_keeps)
    | intro _
    | (with_reducible first | apply ite_keeps)

theorem notePoison_keeps {a s : State} {st : Option Nat} {idx : Nat} (h : Keeps a s) : Keeps a (notePoison s st idx) := by
  unfold notePoison
  try dsimp only
  repeat' first
    | (with_reducible first | assumption | exact Keeps.refl _)
    | intro _
    | (with_reducible first | apply ite_keeps)
    | split
    | (with_reducible first | apply other_keeps)

end Sys2Proof.Machine
end

