-- ==== Sys2Proof/Laws/KeepsVestOps.lean ====
section
/-! SUPPORT. What the operations of Machine/VestOps.lean keep of a state. -/

namespace Sys2Proof.Machine

theorem countUnits_keeps {a s : State} {sp : TierSpace} {n : Nat} (h : Keeps a s) : Keeps a (countUnits s sp n) := by
  unfold countUnits
  try dsimp only
  repeat' first
    | (with_reducible first | assumption | exact Keeps.refl _ | apply modHost_keeps)

theorem vestClean_keeps {a s : State} {h1 : Nat} {k : Nat} (h : Keeps a s) : Keeps a (vestClean s h1 k) := by
  unfold vestClean
  try dsimp only
  repeat' first
    | (with_reducible first | assumption | exact Keeps.refl _ | apply countUnits_keeps | apply modHall_keeps)
    | exact (fun _ hx i => hx i : KeepsRings _)
    | exact (fun hx i => hx i)
    | intro _
    | (with_reducible first | apply ite_keeps)
    | split

theorem vestDrop_keeps {a s : State} {h1 : Nat} {k : Nat} {back : Bool} (h : Keeps a s) : Keeps a (vestDrop s h1 k back)
    := by
  unfold vestDrop
  try dsimp only
  repeat' first
    | (with_reducible first | assumption | exact Keeps.refl _ | apply vestClean_keeps | apply modHall_keeps)
    | exact (fun _ hx i => hx i : KeepsRings _)
    | exact (fun hx i => hx i)
    | intro _
    | (with_reducible first | apply ite_keeps)

theorem vestOthers_keeps {a s : State} {h1 : Option Nat} {k : Nat} {write : Bool} {whole : Bool} (h : Keeps a s) : Keeps
    a (vestOthers s h1 k write whole) := by
  unfold vestOthers
  try dsimp only
  repeat' first
    | (with_reducible first
        | assumption | exact Keeps.refl _ | apply vestDrop_keeps | apply vestClean_keeps | apply foldl_keeps
        | apply foldl_fst_keeps)
    | intro _
    | (with_reducible first | apply ite_keeps)

theorem vestKeep_keeps {a s : State} {h1 : Nat} {k : Nat} {dirty : Bool} (h : Keeps a s) : Keeps a
    (vestKeep s h1 k dirty).1 := by
  unfold vestKeep
  try dsimp only
  repeat' first
    | (with_reducible first | assumption | exact Keeps.refl _ | apply modHall_keeps | apply vestDrop_keeps)
    | exact (fun _ hx i => hx i : KeepsRings _)
    | exact (fun hx i => hx i)
    | intro _
    | (with_reducible first | apply ite_keeps)
    | split

theorem vestKeep_keeps' {a s t : State} {h1 : Nat} {k : Nat} {dirty : Bool} {y : Bool}
    (e : vestKeep s h1 k dirty = (t, y)) (h : Keeps a s) : Keeps a t := by
  have k : Keeps a (vestKeep s h1 k dirty).1 := vestKeep_keeps h 
  rw [e] at k
  exact k

theorem vestTouch_keeps {a s : State} {n k : Nat} (h : Keeps a s) : Keeps a (vestTouch s n k) := by
  refine modHall_keeps h fun x hx => ?_
  split <;> exact hx

theorem vestHit_keeps {a s : State} {h1 : Nat} (h : Keeps a s) : Keeps a (vestHit s h1) := by
  unfold vestHit
  try dsimp only
  repeat' first
    | (with_reducible first | assumption | exact Keeps.refl _ | apply modRegs_keeps)

theorem vestMiss_keeps {a s : State} {h1 : Nat} {k : Nat} (h : Keeps a s) : Keeps a (vestMiss s h1 k) := by
  unfold vestMiss
  try dsimp only
  repeat' first
    | (with_reducible first | assumption | exact Keeps.refl _ | apply countUnits_keeps | apply modRegs_keeps)

theorem vestRead_keeps {a s : State} {h1 : Nat} {k : Nat} {hint : Hint} (h : Keeps a s) : Keeps a (vestRead s h1 k hint)
    := by
  unfold vestRead
  try dsimp only
  repeat' first
    | (with_reducible first
        | assumption | exact Keeps.refl _ | apply vestOthers_keeps | apply vestTouch_keeps | apply vestHit_keeps
        | apply vestMiss_keeps | apply vestKeep_keeps)
    | refine vestKeep_keeps' (by assumption) ?_
    | (with_reducible first | apply vestDrop_keeps)
    | intro _
    | (with_reducible first | apply ite_keeps)
    | split

theorem vestWrite_keeps {a s : State} {h1 : Nat} {k : Nat} {hint : Hint} {whole : Bool} (h : Keeps a s) : Keeps a
    (vestWrite s h1 k hint whole) := by
  unfold vestWrite
  try dsimp only
  repeat' first
    | (with_reducible first
        | assumption | exact Keeps.refl _ | apply vestOthers_keeps | apply vestMiss_keeps | apply modHall_keeps
        | apply vestTouch_keeps | apply vestDrop_keeps | apply vestKeep_keeps)
    | refine vestKeep_keeps' (by assumption) ?_
    | (with_reducible first | apply vestHit_keeps)
    | exact (fun _ hx i => hx i : KeepsRings _)
    | exact (fun hx i => hx i)
    | intro _
    | (with_reducible first | apply ite_keeps)
    | split

theorem hostPass_keeps {a s : State} {a1 : Nat} {n : Nat} (h : Keeps a s) : Keeps a (hostPass s a1 n) := by
  unfold hostPass
  try dsimp only
  repeat' first
    | (with_reducible first | assumption | exact Keeps.refl _ | apply countUnits_keeps)

theorem tierCopy_keeps {a s : State} {src : TierSpace} {a1 : Nat} {dst : TierSpace} {b : Nat} {n : Nat} (h :
    Keeps a s) : Keeps a (tierCopy s src a1 dst b n) := by
  unfold tierCopy
  try dsimp only
  repeat' first
    | (with_reducible first
        | assumption | exact Keeps.refl _ | apply copyBeats_keeps | apply foldl_keeps | apply foldl_fst_keeps)
    | intro _

theorem tierWrite_keeps {a s : State} {sp : TierSpace} {a1 : Nat} {b : List Byte} {poison : Bool} (h : Keeps a s) :
    Keeps a (tierWrite s sp a1 b poison) := by
  unfold tierWrite
  try dsimp only
  repeat' first
    | (with_reducible first
        | assumption | exact Keeps.refl _ | apply write_keeps | apply foldl_keeps | apply foldl_fst_keeps)
    | intro _

theorem tierPass_keeps {a s : State} {h1 : Nat} {sp : TierSpace} {a3 : Nat} {n : Nat} {hint : Hint} {write : Bool}
    (h : Keeps a s) : Keeps a (tierPass s h1 sp a3 n hint write) := by
  unfold tierPass
  try dsimp only
  repeat' first
    | (with_reducible first
        | assumption | exact Keeps.refl _ | apply vestWrite_keeps | apply vestRead_keeps | apply foldl_keeps
        | apply foldl_fst_keeps)
    | intro _
    | (with_reducible first | apply ite_keeps)

end Sys2Proof.Machine
end

