-- ==== Sys2Proof/Laws/KeepsDmaOps.lean ====
section
/-! SUPPORT. What the operations of Machine/DmaOps.lean keep of a state. -/

namespace Sys2Proof.Machine

theorem setChan_keeps {a s : State} {h1 : Nat} {c : Nat} {x : Chan} (h : Keeps a s) : Keeps a (State.setChan s h1 c x)
    := by
  unfold State.setChan
  try dsimp only
  repeat' first
    | (with_reducible first | assumption | exact Keeps.refl _ | apply modHall_keeps)
    | exact (fun _ hx i => hx i : KeepsRings _)

theorem freeRest_keeps {a s : State} {h1 : Nat} {ch : ChId} (h : Keeps a s) : Keeps a (freeRest s h1 ch) := by
  unfold freeRest
  try dsimp only
  repeat' first
    | (with_reducible first | assumption | exact Keeps.refl _ | apply freeBytes_keeps)
    | intro _
    | (with_reducible first | apply ite_keeps)
    | split

theorem dmaRecord_keeps {a s : State} {h1 : Nat} {ch : Nat} {claim : Option Nat} {status : Nat} {bytes : Nat} {idx : Nat}
    {setB : Bool} {space : Nat} {side : Nat} (h : Keeps a s) : Keeps a
    (dmaRecord s h1 ch claim status bytes idx setB space side) := by
  unfold dmaRecord
  try dsimp only
  repeat' first
    | (with_reducible first | assumption | exact Keeps.refl _ | apply complete_keeps)
    | intro _
    | (with_reducible first | apply ite_keeps)
    | split

theorem dmaRecords_keeps {a s : State} {h1 : Nat} {ch : ChId} {e1 : ChanStop} (h : Keeps a s) : Keeps a
    (dmaRecords s h1 ch e1) := by
  unfold dmaRecords
  try dsimp only
  repeat' first
    | (with_reducible first
        | assumption | exact Keeps.refl _ | apply dmaRecord_keeps | apply foldl_keeps | apply foldl_fst_keeps)
    | intro _
    | (with_reducible first | apply ite_keeps)

theorem endStop_keeps {a s : State} {h1 : HallId} {ch : ChId} (h : Keeps a s) : Keeps a (endStop s h1 ch) := by
  unfold endStop
  try dsimp only
  repeat' first
    | (with_reducible first
        | assumption | exact Keeps.refl _ | apply dmaRecords_keeps | apply setChan_keeps | apply complete_keeps
        | apply foldl_keeps | apply foldl_fst_keeps)
    | intro _
    | (with_reducible first | apply ite_keeps)
    | split

end Sys2Proof.Machine
end

