-- ==== Sys2Proof/Laws/KeepsClaspOps.lean ====
section
/-! SUPPORT. What the operations of Machine/ClaspOps.lean keep of a state. -/

namespace Sys2Proof.Machine

theorem claspDone_keeps {a s : State} {rq : Requester} {k : Nat} {old : Word} {t1 : ClaspType} (h : Keeps a s) :
    Keeps a (claspDone s rq k old t1) := by
  unfold claspDone
  try dsimp only
  repeat' first
    | (with_reducible first
        | assumption | exact Keeps.refl _ | apply strandDone_keeps | apply setChan_keeps | apply complete_keeps)
    | intro _
    | split

theorem wakeAll_keeps {a s : State} {k : Nat} {l : List Waiter} (h : Keeps a s) : Keeps a (wakeAll s k l) := by
  unfold wakeAll
  try dsimp only
  repeat' first
    | (with_reducible first
        | assumption | exact Keeps.refl _ | apply claspDone_keeps | apply foldl_keeps | apply foldl_fst_keeps)
    | intro _

theorem storeCell_keeps {a s : State} {k : Nat} {c : Clasp} (h : Keeps a s) : Keeps a (storeCell s k c) := by
  unfold storeCell
  try dsimp only
  repeat' first
    | (with_reducible first | assumption | exact Keeps.refl _ | apply wakeAll_keeps | apply setClasp_keeps)

theorem withdraw_keeps {a s : State} {rq : Requester} (h : Keeps a s) : Keeps a (withdraw s rq) := by
  unfold withdraw
  try dsimp only
  repeat' first
    | (with_reducible first | assumption | exact Keeps.refl _)
    | intro _
    | (with_reducible first | apply ite_keeps)
    | split
    | (with_reducible first | apply other_keeps)

theorem stopChannel_keeps {a s : State} {h1 : HallId} {ch : ChId} {e1 : ChanStop} (h : Keeps a s) : Keeps a
    (stopChannel s h1 ch e1) := by
  unfold stopChannel
  try dsimp only
  repeat' first
    | (with_reducible first
        | assumption | exact Keeps.refl _ | apply withdraw_keeps | apply freeRest_keeps | apply txStop_keeps
        | apply endStop_keeps | apply setChan_keeps | apply foldl_keeps | apply foldl_fst_keeps)
    | intro _
    | (with_reducible first | apply ite_keeps)

theorem claspFail_keeps {a s : State} {rq : Requester} {k : Nat} {status : Nat} {t1 : ClaspType} (h : Keeps a s) :
    Keeps a (claspFail s rq k status t1) := by
  unfold claspFail
  try dsimp only
  repeat' first
    | (with_reducible first
        | assumption | exact Keeps.refl _ | apply strandFail_keeps | apply stopChannel_keeps | apply finish_keeps
        | apply complete_keeps)
    | intro _
    | split
    | (with_reducible first | apply other_keeps)

theorem claspHold_keeps {a s : State} {rq : Requester} {k : Nat} (h : Keeps a s) : Keeps a (claspHold s rq k) := by
  unfold claspHold
  try dsimp only
  repeat' first
    | (with_reducible first
        | assumption | exact Keeps.refl _ | apply strandTo_keeps | apply setChan_keeps | apply setStage_keeps)
    | intro _
    | split

theorem setAside_keeps {a s : State} {rq : Requester} {cop : Nat} {k : ClaspId} {v : Word} {us : Nat} {interval
    : Nat} {first : Bool} (h : Keeps a s) : Keeps a (setAside s rq cop k v us interval first) := by
  unfold setAside
  try dsimp only
  repeat' first
    | (with_reducible first | assumption | exact Keeps.refl _ | apply claspHold_keeps)
    | (with_reducible first | apply other_keeps)

theorem registerWait_keeps {a s : State} {rq : Requester} {cop : Nat} {k : ClaspId} {v : Word} {c : Clasp} {w
    : WaitCond} {old : Clasp} (h : Keeps a s) : Keeps a (registerWait s rq cop k v c w old) := by
  unfold registerWait
  try dsimp only
  repeat' first
    | (with_reducible first
        | assumption | exact Keeps.refl _ | apply storeCell_keeps | apply claspFail_keeps | apply setAside_keeps
        | apply claspHold_keeps | apply setClasp_keeps)
    | intro _
    | (with_reducible first | apply ite_keeps)
    | split

theorem present_keeps {a s : State} {rq : Requester} {cop : Nat} {k : ClaspId} {v : Word} {interval : Nat} {first
    : Bool} (h : Keeps a s) : Keeps a (present s rq cop k v interval first) := by
  unfold present
  try dsimp only
  repeat' first
    | (with_reducible first
        | assumption | exact Keeps.refl _ | apply setAside_keeps | apply noteReset_keeps | apply claspFail_keeps
        | apply claspDone_keeps | apply storeCell_keeps | apply registerWait_keeps)
    | intro _
    | (with_reducible first | apply ite_keeps)
    | split

theorem usherOp_keeps {a s : State} {h1 : HallId} {u : UsherId} {claim : Option Nat} {cop : Nat} {k : ClaspId} {v
    : Word} (h : Keeps a s) : Keeps a (usherOp s h1 u claim cop k v) := by
  unfold usherOp
  try dsimp only
  repeat' first
    | (with_reducible first | assumption | exact Keeps.refl _ | apply setAside_keeps | apply present_keeps)
    | intro _
    | (with_reducible first | apply ite_keeps)

theorem claspRequest_keeps {a s : State} {rq : Requester} {cop : Nat} {k : ClaspId} {v : Word} (h : Keeps a s) :
    Keeps a (claspRequest s rq cop k v) := by
  unfold claspRequest
  try dsimp only
  repeat' first
    | (with_reducible first | assumption | exact Keeps.refl _ | apply claspFail_keeps | apply present_keeps)
    | intro _
    | (with_reducible first | apply ite_keeps)
    | split

theorem representAt_keeps {a s : State} {i : Nat} {backoff : Bool} (h : Keeps a s) : Keeps a (representAt s i backoff)
    := by
  unfold representAt
  try dsimp only
  repeat' first
    | (with_reducible first | assumption | exact Keeps.refl _ | apply present_keeps)
    | intro _
    | (with_reducible first | apply ite_keeps)
    | split
    | (with_reducible first | apply other_keeps)

theorem orphanLocks_keeps {a s : State} {h1 : Nat} (h : Keeps a s) : Keeps a (orphanLocks s h1) := by
  unfold orphanLocks
  try dsimp only
  repeat' first
    | (with_reducible first | assumption | exact Keeps.refl _)
    | intro _
    | (with_reducible first | apply ite_keeps)
    | split
    | (with_reducible first | apply other_keeps)

theorem loseClasps_keeps {a s : State} {h1 : Nat} (h : Keeps a s) : Keeps a (loseClasps s h1) := by
  unfold loseClasps
  try dsimp only
  repeat' first
    | (with_reducible first
        | assumption | exact Keeps.refl _ | apply claspFail_keeps | apply foldl_keeps | apply foldl_fst_keeps)
    | intro _
    | (with_reducible first | apply ite_keeps)
    | (with_reducible first | apply other_keeps)

theorem retestClasps_keeps {a s : State} {h1 : Nat} (h : Keeps a s) : Keeps a (retestClasps s h1) := by
  unfold retestClasps
  try dsimp only
  repeat' first
    | (with_reducible first
        | assumption | exact Keeps.refl _ | apply storeCell_keeps | apply foldl_keeps | apply foldl_fst_keeps)
    | intro _

end Sys2Proof.Machine
end

