-- ==== Sys2Proof/Laws/KeepsColumns.lean ====
section
/-! SUPPORT. What the operations of Machine/Columns.lean keep of a state. -/

namespace Sys2Proof.Machine

theorem writeLines_keeps {a s : State} {r : Region} {a2 : Nat} {bytes : List Byte} {p : Nat → Nat → Bool} (h : Keeps a s)
    : Keeps a (State.writeLines s r a2 bytes p) := by
  unfold State.writeLines
  try dsimp only
  repeat' first
    | (with_reducible first
        | assumption | exact Keeps.refl _ | apply write_keeps | apply foldl_keeps | apply foldl_fst_keeps)
    | intro _

end Sys2Proof.Machine
end

