-- ==== Sys2Proof/Laws/KeepsLandings.lean ====
section
/-! SUPPORT. What the operations of Machine/Landings.lean keep of a state. -/

namespace Sys2Proof.Machine

theorem windowAccess_keeps {a s : State} {h1 : Nat} {sw : Nat} {page : Nat} {k : State → Nat → State} (h : Keeps a s)
    (hk : ∀ u0 u1, Keeps a u0 → Keeps a (k u0 u1)) : Keeps a (windowAccess s h1 sw page k) := by
  unfold windowAccess
  try dsimp only
  repeat' first
    | (with_reducible first
        | assumption | exact Keeps.refl _ | apply emit_keeps | apply hk | apply foldl_keeps | apply foldl_fst_keeps)
    | intro _
    | (with_reducible first | apply ite_keeps)

theorem execModeWrite_keeps (h0 : HallId) (sw : SwId) (page : Fin 16) (w : Rec64) (s : State) : ∃ t, execModeWrite
    h0 sw page w s = .next t ∧ Keeps s t := by
  unfold execModeWrite
  refine ⟨_, rfl, ?_⟩
  try dsimp only
  repeat' first
    | (with_reducible first | assumption | exact Keeps.refl _ | apply windowAccess_keeps | apply modLanding_keeps)
    | intro _

theorem execBankAccessesDrained_keeps (h0 : HallId) (sw : SwId) (l : LayerId) (b : BankId) (s : State) : ∃ t,
    execBankAccessesDrained h0 sw l b s = .next t ∧ Keeps s t := by
  unfold execBankAccessesDrained
  refine ⟨_, rfl, ?_⟩
  try dsimp only
  repeat' first
    | (with_reducible first | assumption | exact Keeps.refl _ | apply modLanding_keeps)
    | intro _
    | (with_reducible first | apply ite_keeps)

theorem runScore_keeps {a s : State} {h1 : Nat} {sw : Nat} {l : Nat} {d : Rec64} {kv : Nat} (h : Keeps a s) : Keeps a
    (runScore s h1 sw l d kv) := by
  unfold runScore
  try dsimp only
  repeat' first
    | (with_reducible first | assumption | exact Keeps.refl _ | apply setLanding_keeps)

theorem runValueAcc_keeps {a s : State} {h1 : Nat} {sw : Nat} {l : Nat} {d : Rec64} {kv : Nat} (h : Keeps a s) : Keeps a
    (runValueAcc s h1 sw l d kv) := by
  unfold runValueAcc
  try dsimp only
  repeat' first
    | (with_reducible first | assumption | exact Keeps.refl _ | apply setLanding_keeps)

theorem runAttend_keeps {a s : State} {h1 : Nat} {sw : Nat} {l : Nat} {d : Rec64} {kv : Nat} (h : Keeps a s) : Keeps a
    (runAttend s h1 sw l d kv) := by
  unfold runAttend
  try dsimp only
  repeat' first
    | (with_reducible first | assumption | exact Keeps.refl _ | apply setLanding_keeps)

theorem runAccClear_keeps {a s : State} {h1 : Nat} {sw : Nat} {l : Nat} {d : Rec64} (h : Keeps a s) : Keeps a
    (runAccClear s h1 sw l d) := by
  unfold runAccClear
  try dsimp only
  repeat' first
    | (with_reducible first | assumption | exact Keeps.refl _ | apply modLanding_keeps)

theorem runReadout_keeps {a s : State} {h1 : Nat} {sw : Nat} {l : Nat} {d : Rec64} (h : Keeps a s) : Keeps a
    (runReadout s h1 sw l d) := by
  unfold runReadout
  try dsimp only
  repeat' first
    | (with_reducible first | assumption | exact Keeps.refl _ | apply modLanding_keeps)

theorem runFill_keeps {a s : State} {h1 : Nat} {sw : Nat} {d : Rec64} (h : Keeps a s) : Keeps a (runFill s h1 sw d) := by
  unfold runFill
  try dsimp only
  repeat' first
    | (with_reducible first | assumption | exact Keeps.refl _ | apply write_keeps)

theorem seePoison_keeps {a s : State} {h1 : Nat} {sw : Nat} {l : Nat} {p : Bool} (h : Keeps a s) : Keeps a
    (seePoison s h1 sw l p) := by
  unfold seePoison
  try dsimp only
  repeat' first
    | (with_reducible first | assumption | exact Keeps.refl _ | apply modLanding_keeps)
    | intro _
    | (with_reducible first | apply ite_keeps)

theorem runCopy_keeps {a s : State} {h1 : Nat} {sw : Nat} {l : Nat} {d : Rec64} (h : Keeps a s) : Keeps a
    (runCopy s h1 sw l d) := by
  unfold runCopy
  try dsimp only
  repeat' first
    | (with_reducible first | assumption | exact Keeps.refl _ | apply writeLines_keeps | apply seePoison_keeps)

theorem runPack_keeps {a s : State} {h1 : Nat} {sw : Nat} {l : Nat} {d : Rec64} {kv : Nat} (h : Keeps a s) : Keeps a
    (runPack s h1 sw l d kv) := by
  unfold runPack
  try dsimp only
  repeat' first
    | (with_reducible first | assumption | exact Keeps.refl _ | apply writeLines_keeps | apply seePoison_keeps)

theorem runUnpack_keeps {a s : State} {h1 : Nat} {sw : Nat} {l : Nat} {d : Rec64} {kv : Nat} (h : Keeps a s) : Keeps a
    (runUnpack s h1 sw l d kv) := by
  unfold runUnpack
  try dsimp only
  repeat' first
    | (with_reducible first | assumption | exact Keeps.refl _ | apply writeLines_keeps | apply seePoison_keeps)

theorem skipUnknown_keeps {a s : State} {n g w l : Nat} (h : Keeps a s) : Keeps a (skipUnknown n s g w l) := by
  induction n generalizing s with
  | zero => exact h
  | succ n ih =>
    unfold skipUnknown
    split
    · dsimp only
      split
      · exact h
      · exact ih (modLanding_keeps h)
    · exact h

theorem landCommand_keeps {a s : State} {h1 : Nat} {sw : Nat} {l : Nat} {op : Nat} {run : State → Rec64 → Nat → State}
    (h : Keeps a s) (hrun : ∀ u0 u1 u2, Keeps a u0 → Keeps a (run u0 u1 u2)) : Keeps a
    (landCommand s h1 sw l op run) := by
  unfold landCommand
  try dsimp only
  repeat' first
    | (with_reducible first
        | assumption | exact Keeps.refl _ | apply skipUnknown_keeps | apply modLanding_keeps | apply hrun)
    | intro _
    | (with_reducible first | apply ite_keeps)
    | split

theorem execScore_keeps (h0 : HallId) (sw : SwId) (l : LayerId) (s : State) : ∃ t, execScore h0 sw l s = .next t ∧
    Keeps s t := by
  unfold execScore
  refine ⟨_, rfl, ?_⟩
  try dsimp only
  repeat' first
    | (with_reducible first | assumption | exact Keeps.refl _ | apply landCommand_keeps | apply runScore_keeps)
    | intro _

theorem execValueAcc_keeps (h0 : HallId) (sw : SwId) (l : LayerId) (s : State) : ∃ t, execValueAcc h0 sw l s = .next
    t ∧ Keeps s t := by
  unfold execValueAcc
  refine ⟨_, rfl, ?_⟩
  try dsimp only
  repeat' first
    | (with_reducible first | assumption | exact Keeps.refl _ | apply landCommand_keeps | apply runValueAcc_keeps)
    | intro _

theorem execAttend_keeps (h0 : HallId) (sw : SwId) (l : LayerId) (s : State) : ∃ t, execAttend h0 sw l s = .next t ∧
    Keeps s t := by
  unfold execAttend
  refine ⟨_, rfl, ?_⟩
  try dsimp only
  repeat' first
    | (with_reducible first | assumption | exact Keeps.refl _ | apply landCommand_keeps | apply runAttend_keeps)
    | intro _

theorem execAccClear_keeps (h0 : HallId) (sw : SwId) (l : LayerId) (s : State) : ∃ t, execAccClear h0 sw l s = .next
    t ∧ Keeps s t := by
  unfold execAccClear
  refine ⟨_, rfl, ?_⟩
  try dsimp only
  repeat' first
    | (with_reducible first | assumption | exact Keeps.refl _ | apply landCommand_keeps | apply runAccClear_keeps)
    | intro _

theorem execReadout_keeps (h0 : HallId) (sw : SwId) (l : LayerId) (s : State) : ∃ t, execReadout h0 sw l s = .next t
    ∧ Keeps s t := by
  unfold execReadout
  refine ⟨_, rfl, ?_⟩
  try dsimp only
  repeat' first
    | (with_reducible first | assumption | exact Keeps.refl _ | apply landCommand_keeps | apply runReadout_keeps)
    | intro _

theorem execFill_keeps (h0 : HallId) (sw : SwId) (l : LayerId) (s : State) : ∃ t, execFill h0 sw l s = .next t ∧
    Keeps s t := by
  unfold execFill
  refine ⟨_, rfl, ?_⟩
  try dsimp only
  repeat' first
    | (with_reducible first | assumption | exact Keeps.refl _ | apply landCommand_keeps | apply runFill_keeps)
    | intro _

theorem execCopy_keeps (h0 : HallId) (sw : SwId) (l : LayerId) (s : State) : ∃ t, execCopy h0 sw l s = .next t ∧
    Keeps s t := by
  unfold execCopy
  refine ⟨_, rfl, ?_⟩
  try dsimp only
  repeat' first
    | (with_reducible first | assumption | exact Keeps.refl _ | apply landCommand_keeps | apply runCopy_keeps)
    | intro _

theorem execPack_keeps (h0 : HallId) (sw : SwId) (l : LayerId) (s : State) : ∃ t, execPack h0 sw l s = .next t ∧
    Keeps s t := by
  unfold execPack
  refine ⟨_, rfl, ?_⟩
  try dsimp only
  repeat' first
    | (with_reducible first | assumption | exact Keeps.refl _ | apply landCommand_keeps | apply runPack_keeps)
    | intro _

theorem execUnpack_keeps (h0 : HallId) (sw : SwId) (l : LayerId) (s : State) : ∃ t, execUnpack h0 sw l s = .next t ∧
    Keeps s t := by
  unfold execUnpack
  refine ⟨_, rfl, ?_⟩
  try dsimp only
  repeat' first
    | (with_reducible first | assumption | exact Keeps.refl _ | apply landCommand_keeps | apply runUnpack_keeps)
    | intro _

theorem offerCommand_keeps {a s : State} {h1 : Nat} {sw : Nat} {l : Nat} {d : Rec64} (h : Keeps a s) : Keeps a
    (offerCommand s h1 sw l d) := by
  unfold offerCommand
  try dsimp only
  repeat' first
    | (with_reducible first | assumption | exact Keeps.refl _ | apply setLanding_keeps | apply skipUnknown_keeps)
    | intro _
    | (with_reducible first | apply ite_keeps)

theorem slotWrite_keeps {a s : State} {h1 : Nat} {sw : Nat} {l : Nat} {slot : Nat} {off : Nat} {bytes : List Byte}
    (h : Keeps a s) : Keeps a (slotWrite s h1 sw l slot off bytes) := by
  unfold slotWrite
  try dsimp only
  repeat' first
    | (with_reducible first | assumption | exact Keeps.refl _ | apply setLanding_keeps | apply offerCommand_keeps)
    | intro _
    | (with_reducible first | apply ite_keeps)

theorem execLandingCmdWrite_keeps (h0 : HallId) (sw : SwId) (page : Fin 16) (slot : Fin 4) (off : Fin 64)
    (bytes : List Byte) (s : State) : ∃ t, execLandingCmdWrite h0 sw page slot off bytes s = .next t ∧ Keeps s t :=
    by
  unfold execLandingCmdWrite
  refine ⟨_, rfl, ?_⟩
  try dsimp only
  repeat' first
    | (with_reducible first | assumption | exact Keeps.refl _ | apply windowAccess_keeps | apply slotWrite_keeps)
    | intro _
    | (with_reducible first | apply ite_keeps)

theorem execWindowWrite_keeps (h0 : HallId) (sw : SwId) (page : Fin 16) (off : Nat) (bytes : List Byte) (s : State) :
    ∃ t, execWindowWrite h0 sw page off bytes s = .next t ∧ Keeps s t := by
  unfold execWindowWrite
  refine ⟨_, rfl, ?_⟩
  try dsimp only
  repeat' first
    | (with_reducible first | assumption | exact Keeps.refl _ | apply windowAccess_keeps | apply modLanding_keeps)
    | intro _
    | (with_reducible first | apply ite_keeps)

theorem execWindowWriteApply_keeps (h0 : HallId) (sw : SwId) (l : LayerId) (s : State) : ∃ t, execWindowWriteApply
    h0 sw l s = .next t ∧ Keeps s t := by
  unfold execWindowWriteApply
  refine ⟨_, rfl, ?_⟩
  try dsimp only
  repeat' first
    | (with_reducible first | assumption | exact Keeps.refl _ | apply skipUnknown_keeps | apply setLanding_keeps)
    | intro _
    | (with_reducible first | apply ite_keeps)
    | split

theorem execChunkBoundary_keeps (h0 : HallId) (sw : SwId) (l : LayerId) (s : State) : ∃ t, execChunkBoundary h0 sw l
    s = .next t ∧ Keeps s t := by
  unfold execChunkBoundary
  refine ⟨_, rfl, ?_⟩
  try dsimp only
  repeat' first
    | (with_reducible first
        | assumption | exact Keeps.refl _ | apply setLanding_keeps | apply foldl_keeps | apply foldl_fst_keeps)
    | intro _
    | (with_reducible first | apply ite_keeps)
    | split

theorem execRefreshDue_keeps (h0 : HallId) (sw : SwId) (l : LayerId) (b : BankId) (s : State) : ∃ t, execRefreshDue
    h0 sw l b s = .next t ∧ Keeps s t := by
  unfold execRefreshDue
  refine ⟨_, rfl, ?_⟩
  try dsimp only
  repeat' first
    | (with_reducible first | assumption | exact Keeps.refl _ | apply modStair_keeps | apply setLanding_keeps)
    | intro _
    | (with_reducible first | apply ite_keeps)

end Sys2Proof.Machine
end

