-- ==== Sys2Proof/Laws/KeepsVolOps.lean ====
section
/-! SUPPORT. What the operations of Machine/VolOps.lean keep of a state. -/

namespace Sys2Proof.Machine

theorem setLeaf_keeps {a s : State} {v : Nat} {i : Nat} {e3 : Dword} (h : Keeps a s) : Keeps a (State.setLeaf s v i e3)
    := by
  unfold State.setLeaf
  try dsimp only
  repeat' first
    | (with_reducible first | assumption | exact Keeps.refl _)
    | intro _
    | (with_reducible first | apply ite_keeps)
    | split
    | (with_reducible first | apply other_keeps)

theorem setShadow_keeps {a s : State} {v : Nat} {i : Nat} {e3 : Dword} (h : Keeps a s) : Keeps a
    (State.setShadow s v i e3) := by
  unfold State.setShadow
  try dsimp only
  repeat' first
    | (with_reducible first | assumption | exact Keeps.refl _)
    | intro _
    | (with_reducible first | apply ite_keeps)
    | split
    | (with_reducible first | apply other_keeps)

theorem setSlot_keeps {a s : State} {h1 : Nat} {sw : Nat} {slot : Nat} {u : SlotUse} (h : Keeps a s) : Keeps a
    (State.setSlot s h1 sw slot u) := by
  unfold State.setSlot
  try dsimp only
  repeat' first
    | (with_reducible first | assumption | exact Keeps.refl _)
    | intro _
    | (with_reducible first | apply ite_keeps)
    | split
    | (with_reducible first | apply other_keeps)

theorem takeSlot_keeps {a s : State} {h1 : Nat} {sw : Nat} {slot : Nat} {u : SlotUse} (h : Keeps a s) : Keeps a
    (State.takeSlot s h1 sw slot u) := by
  unfold State.takeSlot
  try dsimp only
  repeat' first
    | (with_reducible first | assumption | exact Keeps.refl _ | apply modStair_keeps | apply setSlot_keeps)

theorem reserveSlot_keeps {a s t : State} {v : Nat} {mask : BitVec 12} {k : Nat} {u : SlotUse} {park : Nat} {y : Reserve}
    (e : State.reserveSlot s v mask k u park = .ok (y, t)) (h : Keeps a s) : Keeps a t := by
  unfold State.reserveSlot at e
  try dsimp only at e
  repeat' split at e
  all_goals try cases e
  all_goals
    repeat' first
      | (with_reducible first | assumption | exact Keeps.refl _ | apply takeSlot_keeps)

theorem reserveLeaf_keeps {a s t : State} {v : Nat} {mask : BitVec 12} {k : Nat} {u : SlotUse} {y : Reserve}
    (e : State.reserveLeaf s v mask k u = .ok (y, t)) (h : Keeps a s) : Keeps a t := by
  unfold State.reserveLeaf at e
  try dsimp only at e
  repeat' split at e
  all_goals try cases e
  all_goals
    repeat' first
      | (with_reducible first | assumption | exact Keeps.refl _ | apply takeSlot_keeps)
      | intro _
      | (with_reducible first | apply ite_keeps)
      | split
      | (with_reducible first | apply other_keeps)

theorem dropReserve_keeps {a s : State} {v : Nat} {r : Reserve} (h : Keeps a s) : Keeps a (State.dropReserve s v r) :=
    by
  unfold State.dropReserve
  try dsimp only
  repeat' first
    | (with_reducible first | assumption | exact Keeps.refl _ | apply setSlot_keeps)
    | intro _
    | (with_reducible first | apply ite_keeps)
    | split
    | (with_reducible first | apply other_keeps)

theorem ensurePair_keeps {a s t : State} {v : Nat} {i : Nat} (e : State.ensurePair s v i = some t) (h : Keeps a s) :
    Keeps a t := by
  unfold State.ensurePair at e
  try dsimp only at e
  repeat' split at e
  all_goals try cases e
  all_goals
    repeat' first
      | (with_reducible first | assumption | exact Keeps.refl _)
      | intro _
      | (with_reducible first | apply ite_keeps)
      | split
      | (with_reducible first | apply other_keeps)

theorem recount_keeps {a s : State} {v : Nat} (h : Keeps a s) : Keeps a (State.recount s v) := by
  unfold State.recount
  try dsimp only
  repeat' first
    | (with_reducible first | assumption | exact Keeps.refl _ | apply modVol_keeps)

theorem sgenUp_keeps {a s : State} {v : Nat} {rewrites : Bool} (h : Keeps a s) : Keeps a (State.sgenUp s v rewrites)
    := by
  unfold State.sgenUp
  try dsimp only
  repeat' first
    | (with_reducible first | assumption | exact Keeps.refl _ | apply modVol_keeps)

theorem relink_keeps {a s : State} {f : Nat} (h : Keeps a s) : Keeps a (State.relink s f) := by
  unfold State.relink
  try dsimp only
  repeat' first
    | (with_reducible first | assumption | exact Keeps.refl _ | apply modVol_keeps)

theorem setVolState_keeps {a s : State} {v : Nat} {st : VolState} (h : Keeps a s) : Keeps a (State.setVolState s v st)
    := by
  unfold State.setVolState
  try dsimp only
  repeat' first
    | (with_reducible first | assumption | exact Keeps.refl _ | apply setVol_keeps | apply relink_keeps)
    | intro _
    | (with_reducible first | apply ite_keeps)

theorem byPair_keeps {a s : State} {v : Nat} {idxs : List Nat} {rewrites : Bool} {f : State → Nat → Nat → State} (h
    : Keeps a s) (hkf : ∀ s x0 x1, Keeps a s → Keeps a (f s x0 x1)) : Keeps a (State.byPair s v idxs rewrites f)
    := by
  unfold State.byPair
  try dsimp only
  repeat' first
    | (with_reducible first
        | assumption | exact Keeps.refl _ | apply sgenUp_keeps | apply hkf | apply foldl_keeps
        | apply foldl_fst_keeps)
    | intro _

theorem freePlaces_keeps {a s : State} {e1 : Dword} {sh : Dword} {n : Nat} {m : Nat} (h : Keeps a s) : Keeps a
    (State.freePlaces s e1 sh n m) := by
  unfold State.freePlaces
  try dsimp only
  repeat' first
    | (with_reducible first | assumption | exact Keeps.refl _ | apply setSlot_keeps)
    | intro _
    | (with_reducible first | apply ite_keeps)
    | split
    | (with_reducible first | apply other_keeps)

theorem freeEntry_keeps {a s : State} {v : Nat} {e1 : Dword} {sh : Dword} (h : Keeps a s) : Keeps a
    (State.freeEntry s v e1 sh) := by
  unfold State.freeEntry
  try dsimp only
  repeat' first
    | (with_reducible first | assumption | exact Keeps.refl _ | apply freePlaces_keeps)

theorem setRef_keeps {a s : State} {f : Nat} {i : Nat} {r : RefCount} (h : Keeps a s) : Keeps a (State.setRef s f i r)
    := by
  unfold State.setRef
  try dsimp only
  repeat' first
    | (with_reducible first | assumption | exact Keeps.refl _)
    | intro _
    | (with_reducible first | apply ite_keeps)
    | split
    | (with_reducible first | apply other_keeps)

theorem keepPlaces_keeps {a s : State} {f : Nat} {i : Nat} {e1 : Dword} {sh : Dword} (h : Keeps a s) : Keeps a
    (State.keepPlaces s f i e1 sh) := by
  unfold State.keepPlaces
  try dsimp only
  repeat' first
    | (with_reducible first | assumption | exact Keeps.refl _)
    | (with_reducible first | apply other_keeps)

theorem unkeep_keeps {a s : State} {n : Nat} (h : Keeps a s) : Keeps a (State.unkeep s n) := by
  unfold State.unkeep
  try dsimp only
  repeat' first
    | (with_reducible first
        | assumption | exact Keeps.refl _ | apply freePlaces_keeps | apply foldl_keeps | apply foldl_fst_keeps)
    | intro _
    | (with_reducible first | apply other_keeps)

theorem giveBack_keeps {a s : State} {v : Nat} {i : Nat} {e1 : Dword} {sh : Dword} (h : Keeps a s) : Keeps a
    (State.giveBack s v i e1 sh) := by
  unfold State.giveBack
  try dsimp only
  repeat' first
    | (with_reducible first
        | assumption | exact Keeps.refl _ | apply keepPlaces_keeps | apply modJob_keeps | apply freeEntry_keeps)
    | intro _
    | (with_reducible first | apply ite_keeps)

theorem freeVolume_keeps {a s : State} {v : Nat} (h : Keeps a s) : Keeps a (State.freeVolume s v) := by
  unfold State.freeVolume
  try dsimp only
  repeat' first
    | (with_reducible first
        | assumption | exact Keeps.refl _ | apply keepPlaces_keeps | apply freeEntry_keeps
        | apply dropReserve_keeps | apply foldl_keeps | apply foldl_fst_keeps)
    | intro _
    | (with_reducible first | apply ite_keeps)
    | (with_reducible first | apply other_keeps)

theorem retireCheck_keeps {a s : State} {f : Nat} (h : Keeps a s) : Keeps a (State.retireCheck s f) := by
  unfold State.retireCheck
  try dsimp only
  repeat' first
    | (with_reducible first | assumption | exact Keeps.refl _ | apply freeVolume_keeps)
    | intro _
    | (with_reducible first | apply ite_keeps)

theorem reclaimShared_keeps {a s : State} {f : Nat} {i : Nat} (h : Keeps a s) : Keeps a (State.reclaimShared s f i)
    := by
  unfold State.reclaimShared
  try dsimp only
  repeat' first
    | (with_reducible first
        | assumption | exact Keeps.refl _ | apply freeEntry_keeps | apply setLeaf_keeps | apply setShadow_keeps
        | apply sgenUp_keeps | apply recount_keeps)
    | intro _
    | (with_reducible first | apply ite_keeps)

theorem dropRef_keeps {a s : State} {f : Nat} {i : Nat} (h : Keeps a s) : Keeps a (State.dropRef s f i) := by
  unfold State.dropRef
  try dsimp only
  repeat' first
    | (with_reducible first | assumption | exact Keeps.refl _ | apply reclaimShared_keeps | apply setRef_keeps)

theorem releaseEntry_keeps {a s : State} {v : Nat} {e2 : Dword} {sh : Dword} (h : Keeps a s) : Keeps a
    (State.releaseEntry s v e2 sh) := by
  unfold State.releaseEntry
  try dsimp only
  repeat' first
    | (with_reducible first
        | assumption | exact Keeps.refl _ | apply dropRef_keeps | apply modJob_keeps | apply freeEntry_keeps)
    | intro _
    | (with_reducible first | apply ite_keeps)

theorem freeDeferred_keeps {a s : State} {v : Nat} (h : Keeps a s) : Keeps a (State.freeDeferred s v) := by
  unfold State.freeDeferred
  try dsimp only
  repeat' first
    | (with_reducible first
        | assumption | exact Keeps.refl _ | apply modJob_keeps | apply freeEntry_keeps | apply foldl_keeps
        | apply foldl_fst_keeps)
    | intro _

theorem volDone_keeps {a s : State} {c : Nat} {v : Nat} {status : Nat} {count : Nat} (h : Keeps a s) : Keeps a
    (volDone s c v status count) := by
  unfold volDone
  try dsimp only
  repeat' first
    | (with_reducible first | assumption | exact Keeps.refl _ | apply complete_keeps)
    | intro _
    | (with_reducible first | apply ite_keeps)
    | split

theorem microRun_keeps {a s : State} {h1 : Nat} {sw : Nat} {l : Nat} {run : State → State} (h : Keeps a s) (hkrun
    : ∀ s, Keeps a s → Keeps a (run s)) : Keeps a (microRun s h1 sw l run) := by
  unfold microRun
  try dsimp only
  repeat' first
    | (with_reducible first | assumption | exact Keeps.refl _ | apply modLanding_keeps | apply hkrun)

theorem copyToPark_keeps {a s : State} {p : Plan} {fmt : Nat} {h1 : Nat} {sw : Nat} {slot : Nat} {park : Nat} (h :
    Keeps a s) : Keeps a (copyToPark s p fmt h1 sw slot park) := by
  unfold copyToPark
  try dsimp only
  repeat' first
    | (with_reducible first
        | assumption | exact Keeps.refl _ | apply copyBeats_keeps | apply microRun_keeps | apply runPack_keeps)
    | intro _
    | (with_reducible first | apply ite_keeps)

theorem copyToNear_keeps {a s : State} {p : Plan} {fmt : Nat} {src : Region} {a1 : Nat} {h1 : Nat} {sw : Nat} {slot
    : Nat} (h : Keeps a s) : Keeps a (copyToNear s p fmt src a1 h1 sw slot) := by
  unfold copyToNear
  try dsimp only
  repeat' first
    | (with_reducible first
        | assumption | exact Keeps.refl _ | apply copyBeats_keeps | apply microRun_keeps | apply runUnpack_keeps)
    | intro _
    | (with_reducible first | apply ite_keeps)

end Sys2Proof.Machine
end

