-- ==== Sys2Proof/Laws/KeepsPlans.lean ====
section
/-! SUPPORT. What the operations of Machine/Plans.lean keep of a state. -/

namespace Sys2Proof.Machine

theorem applyClasps_keeps {a s : State} {p : Plan} (h : Keeps a s) : Keeps a (applyClasps s p) := by
  unfold applyClasps
  try dsimp only
  repeat' first
    | (with_reducible first
        | assumption | exact Keeps.refl _ | apply setClasp_keeps | apply foldl_keeps | apply foldl_fst_keeps)
    | intro _

theorem copyPlan_keeps {a s : State} {g : Image} (h : Keeps a s) : Keeps a (copyPlan s g) := by
  unfold copyPlan
  try dsimp only
  repeat' first
    | (with_reducible first
        | assumption | exact Keeps.refl _ | apply hostPass_keeps | apply copyBeats_keeps | apply foldl_keeps
        | apply foldl_fst_keeps)
    | intro _

theorem loadPlan_keeps {a s : State} {c : Nat} {a2 : Nat} (h : Keeps a s) : Keeps a (loadPlan s c a2) := by
  unfold loadPlan
  try dsimp only
  repeat' first
    | (with_reducible first
        | assumption | exact Keeps.refl _ | apply copyPlan_keeps | apply applyClasps_keeps | apply complete_keeps)
    | intro _
    | (with_reducible first | apply ite_keeps)
    | split
    | (with_reducible first | apply other_keeps)

theorem execPlanLoad_keeps (c : Nat) (s : State) : ∃ t, execPlanLoad c s = .next t ∧ Keeps s t := by
  unfold execPlanLoad
  refine ⟨_, rfl, ?_⟩
  try dsimp only
  repeat' first
    | (with_reducible first
        | assumption | exact Keeps.refl _ | apply withClaim_keeps | apply complete_keeps | apply loadPlan_keeps)
    | intro _
    | (with_reducible first | apply ite_keeps)
    | split

theorem releaseQueues_keeps {a s : State} {p : Plan} (h : Keeps a s) : Keeps a (releaseQueues s p) := by
  unfold releaseQueues
  try dsimp only
  repeat' first
    | (with_reducible first
        | assumption | exact Keeps.refl _ | apply resetQueue_keeps | apply foldl_keeps | apply foldl_fst_keeps)
    | intro _

theorem execPlanUnload_keeps (c : Nat) (s : State) : ∃ t, execPlanUnload c s = .next t ∧ Keeps s t := by
  unfold execPlanUnload
  refine ⟨_, rfl, ?_⟩
  try dsimp only
  repeat' first
    | (with_reducible first
        | assumption | exact Keeps.refl _ | apply withClaim_keeps | apply complete_keeps
        | apply releaseQueues_keeps)
    | intro _
    | (with_reducible first | apply ite_keeps)
    | split
    | (with_reducible first | apply other_keeps)

end Sys2Proof.Machine
end

