-- ==== Sys2Proof/Laws/KeepsStepOps.lean ====
section
/-! SUPPORT. What the operations of Machine/StepOps.lean keep of a state. -/

namespace Sys2Proof.Machine

theorem setStep_keeps {a s : State} {n : Nat} {x : Step} (h : Keeps a s) : Keeps a (State.setStep s n x) := by
  unfold State.setStep
  try dsimp only
  repeat' first
    | (with_reducible first | assumption | exact Keeps.refl _)
    | intro _
    | (with_reducible first | apply ite_keeps)
    | split
    | (with_reducible first | apply other_keeps)

theorem modStep_keeps {a s : State} {n : Nat} {f : Step → Step} (h : Keeps a s) : Keeps a (State.modStep s n f) := by
  unfold State.modStep
  try dsimp only
  repeat' first
    | (with_reducible first | assumption | exact Keeps.refl _ | apply setStep_keeps)
    | intro _
    | (with_reducible first | apply ite_keeps)
    | split

theorem laneUsherOp_keeps {a s : State} {x : Step} {running : Bool} {i : Nat} {cop : Nat} {v : Nat} (h : Keeps a s)
    : Keeps a (laneUsherOp s x running i cop v) := by
  unfold laneUsherOp
  try dsimp only
  repeat' first
    | (with_reducible first | assumption | exact Keeps.refl _ | apply usherOp_keeps)

theorem releaseLane_keeps {a s : State} {x : Step} (h : Keeps a s) : Keeps a (releaseLane s x) := by
  unfold releaseLane
  try dsimp only
  repeat' first
    | (with_reducible first | assumption | exact Keeps.refl _ | apply laneUsherOp_keeps)

theorem stopQueue_keeps {a s : State} {h1 : HallId} {sw : Nat} {q : Nat} (h : Keeps a s) : Keeps a (stopQueue s h1 sw q)
    := by
  unfold stopQueue
  try dsimp only
  repeat' first
    | (with_reducible first | assumption | exact Keeps.refl _ | apply resetQueue_keeps | apply withdraw_keeps)

theorem loadPlacement_keeps {a s : State} {n : Nat} {plan : Nat} {e3 : Placement} {sw : Nat} (h : Keeps a s) : Keeps a
    (loadPlacement s n plan e3 sw) := by
  unfold loadPlacement
  try dsimp only
  repeat' first
    | (with_reducible first | assumption | exact Keeps.refl _ | apply setQueue_keeps)

theorem loadLane_keeps {a s : State} {n : Nat} {x : Step} (h : Keeps a s) : Keeps a (loadLane s n x) := by
  unfold loadLane
  try dsimp only
  repeat' first
    | (with_reducible first
        | assumption | exact Keeps.refl _ | apply loadPlacement_keeps | apply foldl_keeps | apply foldl_fst_keeps)
    | intro _

theorem stopLane_keeps {a s : State} {x : Step} (h : Keeps a s) : Keeps a (stopLane s x) := by
  unfold stopLane
  try dsimp only
  repeat' first
    | (with_reducible first
        | assumption | exact Keeps.refl _ | apply stopQueue_keeps | apply foldl_keeps | apply foldl_fst_keeps)
    | intro _

theorem dropItems_keeps {a s : State} {n : Nat} (h : Keeps a s) : Keeps a (dropItems s n) := by
  unfold dropItems
  try dsimp only
  repeat' first
    | (with_reducible first | assumption | exact Keeps.refl _)
    | intro _
    | (with_reducible first | apply ite_keeps)
    | split
    | (with_reducible first | apply other_keeps)

theorem stepRecord_keeps {a s : State} {x : Step} {status : Nat} {unit : Nat × Nat × Bool} (h : Keeps a s) : Keeps a
    (stepRecord s x status unit) := by
  unfold stepRecord
  try dsimp only
  repeat' first
    | (with_reducible first | assumption | exact Keeps.refl _ | apply complete_keeps)

theorem lowerPins_keeps {a s : State} {f : Nat} {l : List Nat} (h : Keeps a s) : Keeps a (lowerPins s f l) := by
  unfold lowerPins
  try dsimp only
  repeat' first
    | (with_reducible first
        | assumption | exact Keeps.refl _ | apply reclaimShared_keeps | apply setRef_keeps | apply foldl_keeps
        | apply foldl_fst_keeps)
    | intro _

theorem unpin_keeps {a s : State} {n : Nat} {x : Step} (h : Keeps a s) : Keeps a (unpin s n x) := by
  unfold unpin
  try dsimp only
  repeat' first
    | (with_reducible first | assumption | exact Keeps.refl _)
    | intro _
    | (with_reducible first | apply ite_keeps)
    | split
    | (with_reducible first | apply other_keeps)

theorem clearLane_keeps {a s : State} {x : Step} (h : Keeps a s) : Keeps a (clearLane s x) := by
  unfold clearLane
  try dsimp only
  repeat' first
    | (with_reducible first | assumption | exact Keeps.refl _ | apply laneUsherOp_keeps)

theorem quitLane_keeps {a s : State} {x : Step} (h : Keeps a s) : Keeps a (quitLane s x) := by
  unfold quitLane
  try dsimp only
  repeat' first
    | (with_reducible first | assumption | exact Keeps.refl _ | apply clearLane_keeps | apply stopLane_keeps)
    | intro _
    | (with_reducible first | apply ite_keeps)

theorem leaveLane_keeps {a s : State} {x : Step} (h : Keeps a s) : Keeps a (leaveLane s x) := by
  unfold leaveLane
  try dsimp only
  repeat' first
    | (with_reducible first | assumption | exact Keeps.refl _ | apply releaseLane_keeps)
    | intro _
    | (with_reducible first | apply ite_keeps)

theorem returnBlocks_keeps {a s : State} {x : Step} (h : Keeps a s) : Keeps a (returnBlocks s x) := by
  unfold returnBlocks
  try dsimp only
  repeat' first
    | (with_reducible first
        | assumption | exact Keeps.refl _ | apply dropReserve_keeps | apply foldl_keeps | apply foldl_fst_keeps)
    | intro _

theorem reserveLayers_keeps {a s t : State} {v k : Nat} {mask : BitVec 12} {l : List Nat}
    (e : reserveLayers v mask l k s = .ok t) (h : Keeps a s) : Keeps a t := by
  induction l generalizing k s with
  | nil => cases e; exact h
  | cons i l ih =>
    unfold reserveLayers at e
    split at e
    · cases e
    · exact ih e (modJob_keeps (reserveLeaf_keeps (by assumption) h))

theorem fillReserve_keeps {a s t : State} {v : Nat} {l : Nat} (e : fillReserve s v l = .ok t) (h : Keeps a s) :
    Keeps a t := by
  unfold fillReserve at e
  try dsimp only at e
  repeat' split at e
  all_goals try cases e
  all_goals
    repeat' first
      | (with_reducible first | assumption | exact Keeps.refl _)
      | refine reserveLayers_keeps (by assumption) ?_

theorem refill_keeps {a s : State} {v : Nat} (h : Keeps a s) : Keeps a (refill s v) := by
  unfold refill
  try dsimp only
  repeat' first
    | (with_reducible first | assumption | exact Keeps.refl _ | apply foldl_keeps | apply foldl_fst_keeps)
    | refine fillReserve_keeps (by assumption) ?_
    | intro _
    | (with_reducible first | apply ite_keeps)
    | split

theorem leaveRunning_keeps {a s : State} {v : Nat} (h : Keeps a s) : Keeps a (leaveRunning s v) := by
  unfold leaveRunning
  try dsimp only
  repeat' first
    | (with_reducible first
        | assumption | exact Keeps.refl _ | apply setVolState_keeps | apply refill_keeps
        | apply freeDeferred_keeps)
    | intro _
    | (with_reducible first | apply ite_keeps)

theorem endStep_keeps {a s : State} {n : Nat} {status : Nat} {unit : Nat × Nat × Bool} (h : Keeps a s) : Keeps a
    (endStep s n status unit) := by
  unfold endStep
  try dsimp only
  repeat' first
    | (with_reducible first
        | assumption | exact Keeps.refl _ | apply dropItems_keeps | apply endWaits_keeps
        | apply returnBlocks_keeps | apply quitLane_keeps | apply leaveRunning_keeps | apply stepRecord_keeps
        | apply unpin_keeps | apply leaveLane_keeps)
    | intro _
    | split
    | (with_reducible first | apply other_keeps)

theorem settle_keeps {a s : State}  (h : Keeps a s) : Keeps a (settle s) := by
  unfold settle
  try dsimp only
  repeat' first
    | (with_reducible first
        | assumption | exact Keeps.refl _ | apply endStep_keeps | apply foldl_keeps | apply foldl_fst_keeps)
    | intro _
    | (with_reducible first | apply ite_keeps)
    | split

end Sys2Proof.Machine
end

