-- ==== Sys2Proof/Laws/KeepsSequencer.lean ====
section
/-! SUPPORT. What the operations of Machine/Sequencer.lean keep of a state. -/

namespace Sys2Proof.Machine

theorem execOpHandout_keeps (h0 : HallId) (sw : SwId) (q : QueueId) (s : State) : ∃ t, execOpHandout h0 sw q s =
    .next t ∧ Keeps s t := by
  unfold execOpHandout
  refine ⟨_, rfl, ?_⟩
  try dsimp only
  repeat' first
    | (with_reducible first | assumption | exact Keeps.refl _ | apply settle_keeps | apply handout_keeps)

theorem execOpReady_keeps (h0 : HallId) (sw : SwId) (q : QueueId) (i : Fin 32) (s : State) : ∃ t, execOpReady h0 sw
    q i s = .next t ∧ Keeps s t := by
  unfold execOpReady
  refine ⟨_, rfl, ?_⟩
  try dsimp only
  repeat' first
    | (with_reducible first | assumption | exact Keeps.refl _ | apply makeReady_keeps)

theorem execOpRetire_keeps (h0 : HallId) (sw : SwId) (q : QueueId) (s : State) : ∃ t, execOpRetire h0 sw q s = .next
    t ∧ Keeps s t := by
  unfold execOpRetire
  refine ⟨_, rfl, ?_⟩
  try dsimp only
  repeat' first
    | (with_reducible first | assumption | exact Keeps.refl _ | apply retireOp_keeps)
    | intro _
    | (with_reducible first | apply ite_keeps)

end Sys2Proof.Machine
end

