-- ==== Sys2Proof/Laws/KeepsPress.lean ====
section
/-! SUPPORT. What the operations of Machine/Press.lean keep of a state. -/

namespace Sys2Proof.Machine

theorem poisonRange_keeps {a s : State} {r : Region} {lo : Nat} {hi : Nat} (h : Keeps a s) : Keeps a
    (State.poisonRange s r lo hi) := by
  unfold State.poisonRange
  try dsimp only
  repeat' first
    | (with_reducible first
        | assumption | exact Keeps.refl _ | apply setPoison_keeps | apply foldl_keeps | apply foldl_fst_keeps)
    | intro _

theorem splitDrain_keeps {a s : State} {h1 : Nat} {sw : Nat} {x : AccSet} (h : Keeps a s) : Keeps a
    (splitDrain s h1 sw x).1 := by
  unfold splitDrain
  try dsimp only
  repeat' first
    | (with_reducible first | assumption | exact Keeps.refl _ | apply write_keeps)
    | intro _
    | (with_reducible first | apply ite_keeps)
    | split

theorem splitDrain_keeps' {a s t : State} {h1 : Nat} {sw : Nat} {x : AccSet} {y : AccSet}
    (e : splitDrain s h1 sw x = (t, y)) (h : Keeps a s) : Keeps a t := by
  have k : Keeps a (splitDrain s h1 sw x).1 := splitDrain_keeps h 
  rw [e] at k
  exact k

theorem addPair_keeps {a s : State} {h1 : Nat} {sw : Nat} {a3 : Nat} (h : Keeps a s) : Keeps a (addPair s h1 sw a3) := by
  unfold addPair
  try dsimp only
  repeat' first
    | (with_reducible first | assumption | exact Keeps.refl _ | apply write_keeps | apply setAcc_keeps)
    | intro _
    | (with_reducible first | apply ite_keeps)
    | split

theorem addAll_keeps {a s : State} {n g w k : Nat} (h : Keeps a s) : Keeps a (addAll n s g w k) := by
  induction n generalizing s with
  | zero => exact h
  | succ n ih =>
    unfold addAll
    split
    · exact ih (addPair_keeps h)
    · exact h

theorem joinPieces_keeps {a s : State} {h1 : Nat} {sw : Nat} {a1 : Nat} {step : Nat} {op : Nat} (h : Keeps a s) :
    Keeps a (joinPieces s h1 sw a1 step op) := by
  unfold joinPieces
  try dsimp only
  repeat' first
    | (with_reducible first | assumption | exact Keeps.refl _ | apply setAcc_keeps)
    | intro _
    | (with_reducible first | apply ite_keeps)

theorem finalSum_keeps {a s : State} {h1 : Nat} {sw : Nat} {a3 : Nat} (h : Keeps a s) : Keeps a (finalSum s h1 sw a3) := by
  unfold finalSum
  try dsimp only
  repeat' first
    | (with_reducible first
        | assumption | exact Keeps.refl _ | apply setAcc_keeps | apply foldl_keeps | apply foldl_fst_keeps)
    | intro _
    | (with_reducible first | apply ite_keeps)
    | split

theorem writeC_keeps {a s : State} {h1 : Nat} {sw : Nat} {d : Rec64} {rows : List (List Byte)} {p : Bool}
    (h : Keeps a s) : Keeps a (writeC s h1 sw d rows p) := by
  unfold writeC
  try dsimp only
  repeat' first
    | (with_reducible first
        | assumption | exact Keeps.refl _ | apply write_keeps | apply poisonRange_keeps | apply foldl_keeps
        | apply foldl_fst_keeps)
    | intro _
    | (with_reducible first | apply ite_keeps)

theorem tileWhole_keeps {a s : State} {h1 : Nat} {sw : Nat} {q : Nat} {t4 : Strand} {p : Bool} (h : Keeps a s) : Keeps a
    (tileWhole s h1 sw q t4 p) := by
  unfold tileWhole
  try dsimp only
  repeat' first
    | (with_reducible first | assumption | exact Keeps.refl _ | apply writeC_keeps)

theorem tileDrain_keeps {a s : State} {h1 : Nat} {sw : Nat} {q : Nat} {t1 : Strand} (h : Keeps a s) : Keeps a
    (tileDrain s h1 sw q t1) := by
  unfold tileDrain
  try dsimp only
  repeat' first
    | (with_reducible first
        | assumption | exact Keeps.refl _ | apply joinPieces_keeps | apply finalSum_keeps | apply addAll_keeps
        | apply writeC_keeps)

theorem tileAcc_keeps {a s : State} {h1 : Nat} {sw : Nat} {d : Rec64} {p : Bool} (h : Keeps a s) : Keeps a
    (tileAcc s h1 sw d p) := by
  unfold tileAcc
  try dsimp only
  repeat' first
    | (with_reducible first | assumption | exact Keeps.refl _ | apply setAcc_keeps | apply splitDrain_keeps)
    | refine splitDrain_keeps' (by assumption) ?_
    | intro _
    | (with_reducible first | apply ite_keeps)
    | split

theorem runTile_keeps {a s : State} {h1 : Nat} {sw : Nat} {q : Nat} {i : Nat} {t5 : Strand} (h : Keeps a s) : Keeps a
    (runTile s h1 sw q i t5) := by
  unfold runTile
  try dsimp only
  repeat' first
    | (with_reducible first
        | assumption | exact Keeps.refl _ | apply modStair_keeps | apply tileWhole_keeps | apply tileAcc_keeps
        | apply tileDrain_keeps | apply setAcc_keeps | apply notePoison_keeps | apply strandDone_keeps)
    | intro _
    | (with_reducible first | apply ite_keeps)

theorem execTile_keeps (h0 : HallId) (sw : SwId) (s : State) : ∃ t, execTile h0 sw s = .next t ∧ Keeps s t := by
  unfold execTile
  refine ⟨_, rfl, ?_⟩
  try dsimp only
  repeat' first
    | (with_reducible first | assumption | exact Keeps.refl _ | apply runTile_keeps)
    | intro _
    | (with_reducible first | apply ite_keeps)
    | split

theorem execSplitPartialAdd_keeps (h0 : HallId) (sw : SwId) (set : AccId) (s : State) : ∃ t, execSplitPartialAdd h0
    sw set s = .next t ∧ Keeps s t := by
  unfold execSplitPartialAdd
  refine ⟨_, rfl, ?_⟩
  try dsimp only
  repeat' first
    | (with_reducible first | assumption | exact Keeps.refl _ | apply addPair_keeps)
    | intro _
    | (with_reducible first | apply ite_keeps)

end Sys2Proof.Machine
end

