-- ==== Sys2Proof/Laws/KeepsKernels.lean ====
section
/-! SUPPORT. What the operations of Machine/Kernels.lean keep of a state. -/

namespace Sys2Proof.Machine

theorem KernelRun_store_keeps {a s : State} {k : KernelRun} {p : Bool} {rows : List (List Byte × List Byte)}
    (h : Keeps a s) : Keeps a (KernelRun.store k s p rows) := by
  unfold KernelRun.store
  try dsimp only
  repeat' first
    | (with_reducible first
        | assumption | exact Keeps.refl _ | apply write_keeps | apply poisonRange_keeps | apply foldl_keeps
        | apply foldl_fst_keeps)
    | intro _
    | (with_reducible first | apply ite_keeps)

theorem KernelRun_finish_keeps {a s : State} {k : KernelRun} {i : Nat} {p : Bool} (h : Keeps a s) : Keeps a
    (KernelRun.finish k s i p) := by
  unfold KernelRun.finish
  try dsimp only
  repeat' first
    | (with_reducible first
        | assumption | exact Keeps.refl _ | apply modStair_keeps | apply notePoison_keeps | apply strandDone_keeps)
    | intro _
    | (with_reducible first | apply ite_keeps)

theorem vectorEngine_keeps {a s : State} {h1 : Nat} {sw : Nat} {kop : Nat}
    {rows : KernelRun → State → Nat → List Byte × List Byte} (h : Keeps a s) : Keeps a (vectorEngine s h1 sw kop rows)
    := by
  unfold vectorEngine
  try dsimp only
  repeat' first
    | (with_reducible first
        | assumption | exact Keeps.refl _ | apply KernelRun_finish_keeps | apply KernelRun_store_keeps)
    | intro _
    | (with_reducible first | apply ite_keeps)
    | split

theorem execSmMax_keeps (h0 : HallId) (sw : SwId) (s : State) : ∃ t, execSmMax h0 sw s = .next t ∧ Keeps s t := by
  unfold execSmMax
  refine ⟨_, rfl, ?_⟩
  try dsimp only
  repeat' first
    | (with_reducible first | assumption | exact Keeps.refl _ | apply vectorEngine_keeps)

theorem execSmExp_keeps (h0 : HallId) (sw : SwId) (s : State) : ∃ t, execSmExp h0 sw s = .next t ∧ Keeps s t := by
  unfold execSmExp
  refine ⟨_, rfl, ?_⟩
  try dsimp only
  repeat' first
    | (with_reducible first | assumption | exact Keeps.refl _ | apply vectorEngine_keeps)

theorem execSmMerge_keeps (h0 : HallId) (sw : SwId) (s : State) : ∃ t, execSmMerge h0 sw s = .next t ∧ Keeps s t := by
  unfold execSmMerge
  refine ⟨_, rfl, ?_⟩
  try dsimp only
  repeat' first
    | (with_reducible first | assumption | exact Keeps.refl _ | apply vectorEngine_keeps)

theorem execSmNorm_keeps (h0 : HallId) (sw : SwId) (s : State) : ∃ t, execSmNorm h0 sw s = .next t ∧ Keeps s t := by
  unfold execSmNorm
  refine ⟨_, rfl, ?_⟩
  try dsimp only
  repeat' first
    | (with_reducible first | assumption | exact Keeps.refl _ | apply vectorEngine_keeps)

theorem execRmsnorm_keeps (h0 : HallId) (sw : SwId) (s : State) : ∃ t, execRmsnorm h0 sw s = .next t ∧ Keeps s t := by
  unfold execRmsnorm
  refine ⟨_, rfl, ?_⟩
  try dsimp only
  repeat' first
    | (with_reducible first | assumption | exact Keeps.refl _ | apply vectorEngine_keeps)

theorem execLayernorm_keeps (h0 : HallId) (sw : SwId) (s : State) : ∃ t, execLayernorm h0 sw s = .next t ∧ Keeps s t
    := by
  unfold execLayernorm
  refine ⟨_, rfl, ?_⟩
  try dsimp only
  repeat' first
    | (with_reducible first | assumption | exact Keeps.refl _ | apply vectorEngine_keeps)

theorem execSilu_keeps (h0 : HallId) (sw : SwId) (s : State) : ∃ t, execSilu h0 sw s = .next t ∧ Keeps s t := by
  unfold execSilu
  refine ⟨_, rfl, ?_⟩
  try dsimp only
  repeat' first
    | (with_reducible first | assumption | exact Keeps.refl _ | apply vectorEngine_keeps)

theorem execGeluTanh_keeps (h0 : HallId) (sw : SwId) (s : State) : ∃ t, execGeluTanh h0 sw s = .next t ∧ Keeps s t
    := by
  unfold execGeluTanh
  refine ⟨_, rfl, ?_⟩
  try dsimp only
  repeat' first
    | (with_reducible first | assumption | exact Keeps.refl _ | apply vectorEngine_keeps)

theorem execSwiglu_keeps (h0 : HallId) (sw : SwId) (s : State) : ∃ t, execSwiglu h0 sw s = .next t ∧ Keeps s t := by
  unfold execSwiglu
  refine ⟨_, rfl, ?_⟩
  try dsimp only
  repeat' first
    | (with_reducible first | assumption | exact Keeps.refl _ | apply vectorEngine_keeps)

theorem execRelu_keeps (h0 : HallId) (sw : SwId) (s : State) : ∃ t, execRelu h0 sw s = .next t ∧ Keeps s t := by
  unfold execRelu
  refine ⟨_, rfl, ?_⟩
  try dsimp only
  repeat' first
    | (with_reducible first | assumption | exact Keeps.refl _ | apply vectorEngine_keeps)

theorem execRope_keeps (h0 : HallId) (sw : SwId) (s : State) : ∃ t, execRope h0 sw s = .next t ∧ Keeps s t := by
  unfold execRope
  refine ⟨_, rfl, ?_⟩
  try dsimp only
  repeat' first
    | (with_reducible first | assumption | exact Keeps.refl _ | apply vectorEngine_keeps)

theorem execScale_keeps (h0 : HallId) (sw : SwId) (s : State) : ∃ t, execScale h0 sw s = .next t ∧ Keeps s t := by
  unfold execScale
  refine ⟨_, rfl, ?_⟩
  try dsimp only
  repeat' first
    | (with_reducible first | assumption | exact Keeps.refl _ | apply vectorEngine_keeps)

theorem execEwAdd_keeps (h0 : HallId) (sw : SwId) (s : State) : ∃ t, execEwAdd h0 sw s = .next t ∧ Keeps s t := by
  unfold execEwAdd
  refine ⟨_, rfl, ?_⟩
  try dsimp only
  repeat' first
    | (with_reducible first | assumption | exact Keeps.refl _ | apply vectorEngine_keeps)

theorem execEwMul_keeps (h0 : HallId) (sw : SwId) (s : State) : ∃ t, execEwMul h0 sw s = .next t ∧ Keeps s t := by
  unfold execEwMul
  refine ⟨_, rfl, ?_⟩
  try dsimp only
  repeat' first
    | (with_reducible first | assumption | exact Keeps.refl _ | apply vectorEngine_keeps)

theorem execTopk_keeps (h0 : HallId) (sw : SwId) (s : State) : ∃ t, execTopk h0 sw s = .next t ∧ Keeps s t := by
  unfold execTopk
  refine ⟨_, rfl, ?_⟩
  try dsimp only
  repeat' first
    | (with_reducible first | assumption | exact Keeps.refl _ | apply vectorEngine_keeps)

theorem execConvert_keeps (h0 : HallId) (sw : SwId) (s : State) : ∃ t, execConvert h0 sw s = .next t ∧ Keeps s t := by
  unfold execConvert
  refine ⟨_, rfl, ?_⟩
  try dsimp only
  repeat' first
    | (with_reducible first | assumption | exact Keeps.refl _ | apply vectorEngine_keeps)

theorem execPsumAdd_keeps (h0 : HallId) (sw : SwId) (s : State) : ∃ t, execPsumAdd h0 sw s = .next t ∧ Keeps s t := by
  unfold execPsumAdd
  refine ⟨_, rfl, ?_⟩
  try dsimp only
  repeat' first
    | (with_reducible first | assumption | exact Keeps.refl _ | apply vectorEngine_keeps)

theorem execPsumPair_keeps (h0 : HallId) (sw : SwId) (s : State) : ∃ t, execPsumPair h0 sw s = .next t ∧ Keeps s t
    := by
  unfold execPsumPair
  refine ⟨_, rfl, ?_⟩
  try dsimp only
  repeat' first
    | (with_reducible first | assumption | exact Keeps.refl _ | apply vectorEngine_keeps)

end Sys2Proof.Machine
end

