-- ==== Sys2Proof/Laws/KeepsBlocks.lean ====
section
/-! SUPPORT. What the operations of Machine/Blocks.lean keep of a state. -/

namespace Sys2Proof.Machine

theorem cancelStaging_keeps {a s : State} {v : Nat} (h : Keeps a s) : Keeps a (cancelStaging s v) := by
  unfold cancelStaging
  try dsimp only
  repeat' first
    | (with_reducible first
        | assumption | exact Keeps.refl _ | apply dropReserve_keeps | apply setSlot_keeps | apply modJob_keeps
        | apply foldl_keeps | apply foldl_fst_keeps)
    | intro _
    | (with_reducible first | apply ite_keeps)
    | split

theorem faultVolume_keeps {a s : State} {v : Nat} {cause : Nat} (h : Keeps a s) : Keeps a (faultVolume s v cause) := by
  unfold faultVolume
  try dsimp only
  repeat' first
    | (with_reducible first
        | assumption | exact Keeps.refl _ | apply modJob_keeps | apply cancelStaging_keeps | apply setVolState_keeps
        | apply modVol_keeps | apply volDone_keeps | apply foldl_keeps | apply foldl_fst_keeps)
    | intro _

theorem endRunning_keeps {a s : State} {v : Nat} {status : Nat} {f : Step → Step} (h : Keeps a s) : Keeps a
    (endRunning s v status f) := by
  unfold endRunning
  try dsimp only
  repeat' first
    | (with_reducible first | assumption | exact Keeps.refl _ | apply endStep_keeps | apply modStep_keeps)
    | intro _
    | split

theorem faultSpine_keeps {a s : State} {v : Nat} (h : Keeps a s) : Keeps a (faultSpine s v) := by
  unfold faultSpine
  try dsimp only
  repeat' first
    | (with_reducible first | assumption | exact Keeps.refl _ | apply endRunning_keeps | apply faultVolume_keeps)

theorem spineRead_keeps {a s : State} {v : Nat} {k : State → State} (h : Keeps a s) (hkk : ∀ s, Keeps a s → Keeps a
    (k s)) : Keeps a (spineRead s v k) := by
  unfold spineRead
  try dsimp only
  repeat' first
    | (with_reducible first | assumption | exact Keeps.refl _ | apply faultSpine_keeps | apply hkk)
    | intro _
    | (with_reducible first | apply ite_keeps)

theorem gated_keeps {a s : State} {c : Nat} {g : Gate} {v : Nat} {fail : State → Nat → State} {run : State → State}
    (h : Keeps a s) (hkfail : ∀ s x0, Keeps a s → Keeps a (fail s x0)) (hkrun : ∀ s, Keeps a s → Keeps a (run s)) :
    Keeps a (gated s c g v fail run) := by
  unfold gated
  split
  · exact h
  · exact setStage_keeps h
  · exact hkfail _ _ h
  · exact hkrun _ (spineRead_keeps h fun _ => id)

theorem withVol_keeps {a s : State} {c : Nat} {op : Nat} {bad : State → Rec64 → Option Nat}
    {run : State → Claim → Nat → State} (h : Keeps a s) (hrun : ∀ u0 u1 u2, Keeps a u0 → Keeps a (run u0 u1 u2)) :
    Keeps a (withVol s c op bad run) := by
  unfold withVol
  try dsimp only
  repeat' first
    | (with_reducible first
        | assumption | exact Keeps.refl _ | apply withClaim_keeps | apply volDone_keeps | apply gated_keeps
        | apply hrun)
    | intro _
    | (with_reducible first | apply ite_keeps)
    | split

theorem writeBackLeaf_keeps {a s : State} {v : Nat} {i : Nat} (h : Keeps a s) : Keeps a (writeBackLeaf s v i) := by
  unfold writeBackLeaf
  try dsimp only
  repeat' first
    | (with_reducible first | assumption | exact Keeps.refl _ | apply tierPass_keeps | apply copyToPark_keeps)
    | intro _
    | (with_reducible first | apply ite_keeps)

theorem startWriteBack_keeps {a s : State} {v : Nat} {claim : Option Nat} {park : Bool} (h : Keeps a s) : Keeps a
    (startWriteBack s v claim park) := by
  unfold startWriteBack
  try dsimp only
  repeat' first
    | (with_reducible first | assumption | exact Keeps.refl _ | apply modJob_keeps | apply modVol_keeps)

theorem dueWriteBack_keeps {a s : State} {v : Nat} (h : Keeps a s) : Keeps a (dueWriteBack s v) := by
  unfold dueWriteBack
  try dsimp only
  repeat' first
    | (with_reducible first | assumption | exact Keeps.refl _ | apply startWriteBack_keeps)
    | intro _
    | (with_reducible first | apply ite_keeps)

theorem commitCopy_keeps {a s : State} {v : Nat} {i : Nat} {fill : Nat} (h : Keeps a s) : Keeps a (commitCopy s v i fill)
    := by
  unfold commitCopy
  try dsimp only
  repeat' first
    | (with_reducible first | assumption | exact Keeps.refl _ | apply setShadow_keeps | apply setLeaf_keeps)
    | intro _
    | (with_reducible first | apply ite_keeps)

theorem releaseHead_keeps {a s : State} {v : Nat} {q : Nat × Dword × Dword × Word} (h : Keeps a s) : Keeps a
    (releaseHead s v q) := by
  unfold releaseHead
  try dsimp only
  repeat' first
    | (with_reducible first
        | assumption | exact Keeps.refl _ | apply modJob_keeps | apply setSlot_keeps | apply freeEntry_keeps)
    | intro _
    | (with_reducible first | apply ite_keeps)

theorem commitWriteBack_keeps {a s : State} {v : Nat} {w : WriteBack} (h : Keeps a s) : Keeps a
    (commitWriteBack s v w) := by
  unfold commitWriteBack
  try dsimp only
  repeat' first
    | (with_reducible first
        | assumption | exact Keeps.refl _ | apply byPair_keeps | apply commitCopy_keeps | apply modJob_keeps
        | apply modVol_keeps | apply releaseHead_keeps | apply foldl_keeps | apply foldl_fst_keeps)
    | intro _
    | split

theorem reserveStage_keeps {a s t : State} {v : Nat} {i : Nat} {k : Nat} {y : Reserve}
    (e : reserveStage s v i k = .ok (y, t)) (h : Keeps a s) : Keeps a t := by
  unfold reserveStage at e
  try dsimp only at e
  repeat' split at e
  all_goals
    repeat' first
      | (with_reducible first | assumption | exact Keeps.refl _)
      | refine reserveLeaf_keeps (by assumption) ?_
      | refine reserveSlot_keeps (by assumption) ?_

theorem reserveAll_keeps {a s t : State} {v k : Nat} {l : List Nat} {q r : List (Nat × Reserve)}
    (e : reserveAll v l k q s = .ok (r, t)) (h : Keeps a s) : Keeps a t := by
  induction l generalizing k q s with
  | nil => cases e; exact h
  | cons i l ih =>
    unfold reserveAll at e
    split at e
    · cases e
    · exact ih e (reserveStage_keeps (by assumption) h)

theorem stageLeaf_keeps {a s : State} {v : Nat} {i : Nat} {r : Reserve} (h : Keeps a s) : Keeps a
    (stageLeaf s v i r) := by
  unfold stageLeaf
  try dsimp only
  repeat' first
    | (with_reducible first
        | assumption | exact Keeps.refl _ | apply tierPass_keeps | apply tierCopy_keeps | apply copyToNear_keeps
        | apply setShadow_keeps | apply giveBack_keeps | apply setLeaf_keeps | apply sgenUp_keeps
        | apply recount_keeps)
    | intro _
    | (with_reducible first | apply ite_keeps)

theorem stageOne_keeps {a s : State} {v : Nat} {i : Nat} (h : Keeps a s) : Keeps a (stageOne s v i) := by
  unfold stageOne
  try dsimp only
  repeat' first
    | (with_reducible first
        | assumption | exact Keeps.refl _ | apply modJob_keeps | apply dropReserve_keeps | apply stageLeaf_keeps)
    | intro _
    | (with_reducible first | apply ite_keeps)
    | split

theorem stageWanted_keeps {a s t : State} {v : Nat} {i : Nat} (e : stageWanted s v i = .ok t) (h : Keeps a s) :
    Keeps a t := by
  unfold stageWanted at e
  dsimp only at e
  split at e
  · cases e; exact h
  · split at e <;> cases e
    exact modJob_keeps (reserveStage_keeps (by assumption) h)

theorem nearToPark_keeps {a s : State} {v : Nat} {sel : Nat → Dword → Bool} (h : Keeps a s) : Keeps a
    (nearToPark s v sel) := by
  unfold nearToPark
  try dsimp only
  repeat' first
    | (with_reducible first
        | assumption | exact Keeps.refl _ | apply byPair_keeps | apply giveBack_keeps | apply setLeaf_keeps
        | apply recount_keeps)
    | intro _

theorem dropReserves_keeps {a s : State} {v : Nat} (h : Keeps a s) : Keeps a (dropReserves s v) := by
  unfold dropReserves
  try dsimp only
  repeat' first
    | (with_reducible first
        | assumption | exact Keeps.refl _ | apply dropReserve_keeps | apply freeEntry_keeps | apply modJob_keeps
        | apply foldl_keeps | apply foldl_fst_keeps)
    | intro _

theorem settleVolume_keeps {a s : State} {v : Nat} (h : Keeps a s) : Keeps a (settleVolume s v) := by
  unfold settleVolume
  try dsimp only
  repeat' first
    | (with_reducible first
        | assumption | exact Keeps.refl _ | apply setVolState_keeps | apply modVol_keeps | apply modJob_keeps
        | apply cancelStaging_keeps | apply dropReserves_keeps | apply nearToPark_keeps | apply startWriteBack_keeps
        | apply foldl_keeps | apply foldl_fst_keeps)
    | intro _
    | (with_reducible first | apply ite_keeps)
    | split
    | (with_reducible first | apply other_keeps)

theorem dropLost_keeps {a s : State} {v : Nat} (h : Keeps a s) : Keeps a (dropLost s v) := by
  unfold dropLost
  try dsimp only
  repeat' first
    | (with_reducible first
        | assumption | exact Keeps.refl _ | apply dropReserve_keeps | apply modJob_keeps | apply setSlot_keeps
        | apply foldl_keeps | apply foldl_fst_keeps)
    | intro _
    | (with_reducible first | apply ite_keeps)
    | split

theorem settleLost_keeps {a s : State} {v : Nat} (h : Keeps a s) : Keeps a (settleLost s v) := by
  unfold settleLost
  try dsimp only
  repeat' first
    | (with_reducible first
        | assumption | exact Keeps.refl _ | apply refill_keeps | apply dropLost_keeps | apply nearToPark_keeps
        | apply endRunning_keeps | apply faultVolume_keeps)
    | intro _
    | (with_reducible first | apply ite_keeps)

theorem settleAll_keeps {a s : State}  (h : Keeps a s) : Keeps a (settleAll s) := by
  unfold settleAll
  try dsimp only
  repeat' first
    | (with_reducible first | assumption | exact Keeps.refl _ | apply settleLost_keeps | apply foldl_keeps)

end Sys2Proof.Machine
end

