-- ==== Sys2Proof/Laws/KeepsVolumes.lean ====
section
/-! SUPPORT. What the operations of Machine/Volumes.lean keep of a state. -/

namespace Sys2Proof.Machine

theorem ensurePairs_keeps {a s t : State} {v : Nat} {l : List Nat} (e : ensurePairs v l s = .ok t) (h : Keeps a s) :
    Keeps a t := by
  induction l generalizing s with
  | nil => cases e; exact h
  | cons i l ih =>
    unfold ensurePairs at e
    split at e
    · cases e
    · exact ih e (ensurePair_keeps (by assumption) h)

theorem linkEntries_keeps {a s : State} {v : Nat} {f : Nat} (h : Keeps a s) : Keeps a (linkEntries s v f) := by
  unfold linkEntries
  try dsimp only
  repeat' first
    | (with_reducible first
        | assumption | exact Keeps.refl _ | apply byPair_keeps | apply setLeaf_keeps | apply setRef_keeps
        | apply relink_keeps)
    | intro _

theorem openVolume_keeps {a s t : State} {h1 : Nat} {v : Nat} {d : Rec64} (e : openVolume s h1 v d = .ok t)
    (h : Keeps a s) : Keeps a t := by
  unfold openVolume at e
  try dsimp only at e
  repeat' split at e
  all_goals try cases e
  all_goals
    repeat' first
      | (with_reducible first | assumption | exact Keeps.refl _)
      | refine reserveLayers_keeps (by assumption) ?_
      | (with_reducible first | apply setJob_keeps | apply setVol_keeps)
      | refine ensurePairs_keeps (by assumption) ?_
      | (with_reducible first | apply modVol_keeps | apply modHost_keeps | apply linkEntries_keeps)
      | intro _
      | (with_reducible first | apply ite_keeps)
      | split
      | (with_reducible first | apply other_keeps)

theorem execVolOpen_keeps (c : Nat) (s : State) : ∃ t, execVolOpen c s = .next t ∧ Keeps s t := by
  unfold execVolOpen
  refine ⟨_, rfl, ?_⟩
  try dsimp only
  repeat' first
    | (with_reducible first
        | assumption | exact Keeps.refl _ | apply withClaim_keeps | apply volDone_keeps | apply gated_keeps)
    | refine openVolume_keeps (by assumption) ?_
    | intro _
    | (with_reducible first | apply ite_keeps)
    | split

theorem closePoisoned_keeps {a s : State} {v : Nat} (h : Keeps a s) : Keeps a (closePoisoned s v) := by
  unfold closePoisoned
  try dsimp only
  repeat' first
    | (with_reducible first | assumption | exact Keeps.refl _)
    | intro _
    | (with_reducible first | apply ite_keeps)
    | split
    | (with_reducible first | apply other_keeps)

theorem closeVolume_keeps {a s : State} {v : Nat} (h : Keeps a s) : Keeps a (closeVolume s v) := by
  unfold closeVolume
  try dsimp only
  repeat' first
    | (with_reducible first
        | assumption | exact Keeps.refl _ | apply closePoisoned_keeps | apply modVol_keeps | apply dropRef_keeps
        | apply cancelStaging_keeps | apply freeEntry_keeps | apply freeVolume_keeps | apply retireCheck_keeps
        | apply relink_keeps | apply foldl_keeps | apply foldl_fst_keeps)
    | intro _
    | (with_reducible first | apply ite_keeps)

theorem execVolClose_keeps (c : Nat) (s : State) : ∃ t, execVolClose c s = .next t ∧ Keeps s t := by
  unfold execVolClose
  refine ⟨_, rfl, ?_⟩
  try dsimp only
  repeat' first
    | (with_reducible first
        | assumption | exact Keeps.refl _ | apply withVol_keeps | apply volDone_keeps | apply closeVolume_keeps)
    | intro _
    | (with_reducible first | apply ite_keeps)

theorem execVolQuery_keeps (c : Nat) (s : State) : ∃ t, execVolQuery c s = .next t ∧ Keeps s t := by
  unfold execVolQuery
  refine ⟨_, rfl, ?_⟩
  try dsimp only
  repeat' first
    | (with_reducible first
        | assumption | exact Keeps.refl _ | apply withClaim_keeps | apply volDone_keeps | apply setStage_keeps
        | apply write_keeps)
    | intro _
    | (with_reducible first | apply ite_keeps)
    | split

theorem sealVolume_keeps {a s t : State} {v : Nat} (e : sealVolume s v = .ok t) (h : Keeps a s) : Keeps a t := by
  unfold sealVolume at e
  try dsimp only at e
  repeat' split at e
  all_goals try cases e
  all_goals
    repeat' first
      | (with_reducible first
          | assumption | exact Keeps.refl _ | apply setVol_keeps | apply byPair_keeps | apply setLeaf_keeps
          | apply setRef_keeps)
      | intro _
      | split
      | (with_reducible first | apply other_keeps)

theorem execFmSeal_keeps (c : Nat) (s : State) : ∃ t, execFmSeal c s = .next t ∧ Keeps s t := by
  unfold execFmSeal
  refine ⟨_, rfl, ?_⟩
  try dsimp only
  repeat' first
    | (with_reducible first | assumption | exact Keeps.refl _ | apply withVol_keeps | apply volDone_keeps)
    | refine sealVolume_keeps (by assumption) ?_
    | intro _
    | (with_reducible first | apply ite_keeps)
    | split

theorem execCheckpoint_keeps (c : Nat) (s : State) : ∃ t, execCheckpoint c s = .next t ∧ Keeps s t := by
  unfold execCheckpoint
  refine ⟨_, rfl, ?_⟩
  try dsimp only
  repeat' first
    | (with_reducible first
        | assumption | exact Keeps.refl _ | apply withVol_keeps | apply volDone_keeps | apply setStage_keeps
        | apply startWriteBack_keeps)
    | intro _
    | (with_reducible first | apply ite_keeps)

theorem execPark_keeps (c : Nat) (s : State) : ∃ t, execPark c s = .next t ∧ Keeps s t := by
  unfold execPark
  refine ⟨_, rfl, ?_⟩
  try dsimp only
  repeat' first
    | (with_reducible first
        | assumption | exact Keeps.refl _ | apply withVol_keeps | apply volDone_keeps | apply setStage_keeps
        | apply startWriteBack_keeps | apply setVolState_keeps | apply cancelStaging_keeps)
    | intro _
    | (with_reducible first | apply ite_keeps)

theorem endWriteBack_keeps {a s : State} {v : Nat} {w : WriteBack} (h : Keeps a s) : Keeps a (endWriteBack s v w)
    := by
  unfold endWriteBack
  try dsimp only
  repeat' first
    | (with_reducible first
        | assumption | exact Keeps.refl _ | apply writeBackLeaf_keeps | apply commitWriteBack_keeps
        | apply dueWriteBack_keeps | apply modJob_keeps | apply volDone_keeps | apply foldl_keeps
        | apply foldl_fst_keeps)
    | intro _
    | (with_reducible first | apply ite_keeps)
    | split

theorem execWritebackCopiesDone_keeps (v : VolId) (s : State) : ∃ t, execWritebackCopiesDone v s = .next t ∧
    Keeps s t := by
  unfold execWritebackCopiesDone
  refine ⟨_, rfl, ?_⟩
  try dsimp only
  repeat' first
    | (with_reducible first | assumption | exact Keeps.refl _ | apply spineRead_keeps | apply endWriteBack_keeps)
    | intro _
    | (with_reducible first | apply ite_keeps)
    | split

theorem execParkNearReleased_keeps (v : VolId) (s : State) : ∃ t, execParkNearReleased v s = .next t ∧ Keeps s t := by
  unfold execParkNearReleased
  refine ⟨_, rfl, ?_⟩
  try dsimp only
  repeat' first
    | (with_reducible first
        | assumption | exact Keeps.refl _ | apply spineRead_keeps | apply dropReserves_keeps
        | apply nearToPark_keeps | apply modJob_keeps | apply setVolState_keeps | apply volDone_keeps)
    | intro _
    | (with_reducible first | apply ite_keeps)
    | split

theorem reserveFar_keeps {a s t : State} {n : Nat} {l : List Nat} {q r : Sparse Nat}
    (e : reserveFar n l q s = some (r, t)) (h : Keeps a s) : Keeps a t := by
  induction l generalizing q s with
  | nil => cases e; exact h
  | cons i l ih =>
    unfold reserveFar at e
    split at e
    · cases e
    · exact ih e (other_keeps h)

theorem shelveDone_keeps {a s : State} {v : Nat} (h : Keeps a s) : Keeps a (shelveDone s v) := by
  unfold shelveDone
  try dsimp only
  repeat' first
    | (with_reducible first
        | assumption | exact Keeps.refl _ | apply volDone_keeps | apply setVolState_keeps | apply modJob_keeps)
    | intro _
    | (with_reducible first | apply ite_keeps)
    | split

theorem execShelve_keeps (c : Nat) (s : State) : ∃ t, execShelve c s = .next t ∧ Keeps s t := by
  unfold execShelve
  refine ⟨_, rfl, withVol_keeps (Keeps.refl s) fun u k v h => ?_⟩
  dsimp only
  split
  · exact volDone_keeps h
  · split
    · exact volDone_keeps h
    · refine shelveDone_keeps (setStage_keeps (setVolState_keeps (modJob_keeps (cancelStaging_keeps ?_))))
      exact reserveFar_keeps (by assumption) h

theorem shelveLeaf_keeps {a s : State} {v : Nat} {i : Nat} {g : Nat} {gen : Nat} (h : Keeps a s) : Keeps a
    (shelveLeaf s v i g gen) := by
  unfold shelveLeaf
  try dsimp only
  repeat' first
    | (with_reducible first
        | assumption | exact Keeps.refl _ | apply tierPass_keeps | apply tierCopy_keeps | apply giveBack_keeps
        | apply setLeaf_keeps | apply setShadow_keeps)

theorem execShelveLeavesCommitted_keeps (v : VolId) (pair : Nat) (s : State) :
    ∃ t, execShelveLeavesCommitted v pair s = .next t ∧ Keeps s t := by
  unfold execShelveLeavesCommitted
  refine ⟨_, rfl, ?_⟩
  try dsimp only
  repeat' first
    | (with_reducible first
        | assumption | exact Keeps.refl _ | apply spineRead_keeps | apply shelveLeaf_keeps
        | apply shelveDone_keeps | apply sgenUp_keeps | apply recount_keeps | apply modJob_keeps
        | apply foldl_keeps | apply foldl_fst_keeps)
    | intro _
    | (with_reducible first | apply ite_keeps)
    | split

theorem stageFront_keeps {a s : State} {v : Nat} (h : Keeps a s) : Keeps a (stageFront s v) := by
  unfold stageFront
  try dsimp only
  repeat' first
    | (with_reducible first | assumption | exact Keeps.refl _ | apply foldl_keeps | apply foldl_fst_keeps)
    | refine stageWanted_keeps (by assumption) ?_
    | intro _
    | split

theorem resumeVolume_keeps {a s t : State} {v : Nat} {place : BitVec 12} {c : Nat}
    (e : resumeVolume s v place c = .ok t) (h : Keeps a s) : Keeps a t := by
  unfold resumeVolume at e
  dsimp only at e
  split at e
  · cases e
  · split at e
    · cases e
    · cases e
      have k := reserveLayers_keeps (by assumption) (reserveAll_keeps (by assumption) (modVol_keeps h))
      split
      · exact stageFront_keeps (setVolState_keeps (modJob_keeps k))
      · exact setVolState_keeps (modJob_keeps k)

theorem execResume_keeps (c : Nat) (s : State) : ∃ t, execResume c s = .next t ∧ Keeps s t := by
  unfold execResume
  refine ⟨_, rfl, ?_⟩
  try dsimp only
  repeat' first
    | (with_reducible first | assumption | exact Keeps.refl _ | apply withVol_keeps | apply volDone_keeps)
    | refine resumeVolume_keeps (by assumption) ?_
    | (with_reducible first | apply setStage_keeps)
    | intro _
    | (with_reducible first | apply ite_keeps)
    | split

theorem execLeafStaged_keeps (v : VolId) (idx : Nat) (s : State) : ∃ t, execLeafStaged v idx s = .next t ∧ Keeps s t
    := by
  unfold execLeafStaged
  refine ⟨_, rfl, ?_⟩
  try dsimp only
  repeat' first
    | (with_reducible first | assumption | exact Keeps.refl _ | apply spineRead_keeps | apply stageOne_keeps)
    | intro _
    | (with_reducible first | apply ite_keeps)

theorem execResumeEligible_keeps (v : VolId) (s : State) : ∃ t, execResumeEligible v s = .next t ∧ Keeps s t := by
  unfold execResumeEligible
  refine ⟨_, rfl, ?_⟩
  try dsimp only
  repeat' first
    | (with_reducible first
        | assumption | exact Keeps.refl _ | apply spineRead_keeps | apply modJob_keeps | apply modVol_keeps
        | apply modHost_keeps | apply volDone_keeps | apply setVolState_keeps)
    | exact (fun _ => rfl : KeepsFuses _)
    | intro _
    | (with_reducible first | apply ite_keeps)
    | split

theorem recoverEntry_keeps {a s : State} {v : Nat} {gen : Nat} {i : Nat} (h : Keeps a s) : Keeps a
    (recoverEntry s v gen i) := by
  unfold recoverEntry
  try dsimp only
  repeat' first
    | (with_reducible first
        | assumption | exact Keeps.refl _ | apply giveBack_keeps | apply setLeaf_keeps | apply setShadow_keeps)
    | intro _
    | (with_reducible first | apply ite_keeps)

theorem putBack_keeps {a s : State} {v : Nat} {q : Nat × Dword × Dword × Word} (h : Keeps a s) : Keeps a (putBack s v q)
    := by
  unfold putBack
  try dsimp only
  repeat' first
    | (with_reducible first
        | assumption | exact Keeps.refl _ | apply freeEntry_keeps | apply setShadow_keeps | apply setLeaf_keeps)

theorem recoverVolume_keeps {a s : State} {v : Nat} (h : Keeps a s) : Keeps a (recoverVolume s v) := by
  unfold recoverVolume
  try dsimp only
  repeat' first
    | (with_reducible first
        | assumption | exact Keeps.refl _ | apply dropReserve_keeps | apply putBack_keeps | apply modJob_keeps
        | apply byPair_keeps | apply recoverEntry_keeps | apply modVol_keeps | apply setPoison_keeps
        | apply recount_keeps | apply setVolState_keeps | apply foldl_keeps | apply foldl_fst_keeps)
    | intro _

theorem execRecover_keeps (c : Nat) (s : State) : ∃ t, execRecover c s = .next t ∧ Keeps s t := by
  unfold execRecover
  refine ⟨_, rfl, ?_⟩
  try dsimp only
  repeat' first
    | (with_reducible first
        | assumption | exact Keeps.refl _ | apply withVol_keeps | apply volDone_keeps | apply recoverVolume_keeps)
    | intro _
    | (with_reducible first | apply ite_keeps)

theorem execVolRehome_keeps (c : Nat) (s : State) : ∃ t, execVolRehome c s = .next t ∧ Keeps s t := by
  unfold execVolRehome
  refine ⟨_, rfl, ?_⟩
  try dsimp only
  repeat' first
    | (with_reducible first
        | assumption | exact Keeps.refl _ | apply withClaim_keeps | apply volDone_keeps | apply modVol_keeps
        | apply settleLost_keeps | apply settleVolume_keeps)
    | intro _
    | (with_reducible first | apply ite_keeps)
    | split

theorem execHintQuery_keeps (c : Nat) (s : State) : ∃ t, execHintQuery c s = .next t ∧ Keeps s t := by
  unfold execHintQuery
  refine ⟨_, rfl, ?_⟩
  try dsimp only
  repeat' first
    | (with_reducible first
        | assumption | exact Keeps.refl _ | apply withClaim_keeps | apply finish_keeps | apply complete_keeps
        | apply write_keeps)
    | intro _
    | (with_reducible first | apply ite_keeps)
    | split

end Sys2Proof.Machine
end

