-- ==== Sys2Proof/Laws/KeepsWalk.lean ====
section
/-! SUPPORT. What the operations of Machine/Walk.lean keep of a state. -/

namespace Sys2Proof.Machine

theorem refuseStep_keeps {a s : State} {c : Nat} {v : Nat} {status : Nat} {unit : Nat × Nat × Bool} (h : Keeps a s) : Keeps a
    (refuseStep s c v status unit) := by
  unfold refuseStep
  try dsimp only
  repeat' first
    | (with_reducible first | assumption | exact Keeps.refl _ | apply complete_keeps)
    | intro _
    | (with_reducible first | apply ite_keeps)
    | split

theorem giveBlock_keeps {a s : State} {n : Nat} {l : Nat} {i : Nat} {r : Reserve} (h : Keeps a s) : Keeps a
    (giveBlock s n l i r) := by
  unfold giveBlock
  try dsimp only
  repeat' first
    | (with_reducible first | assumption | exact Keeps.refl _ | apply setSlot_keeps | apply modStep_keeps)

theorem takeBlock_keeps {a s t : State} {n : Nat} {v : Nat} {l : Nat} {i : Nat} (e : takeBlock s n v l i = .ok t)
    (h : Keeps a s) : Keeps a t := by
  unfold takeBlock at e
  try dsimp only at e
  repeat' split at e
  all_goals try cases e
  all_goals
    repeat' first
      | (with_reducible first | assumption | exact Keeps.refl _)
      | refine ensurePair_keeps (by assumption) ?_
      | (with_reducible first | apply giveBlock_keeps | apply modJob_keeps)
      | refine reserveLeaf_keeps (by assumption) ?_

theorem takeBlocks_keeps {a s t : State} {n v : Nat} {l : List (Nat × Nat)} (e : takeBlocks n v l s = .ok t)
    (h : Keeps a s) : Keeps a t := by
  induction l generalizing s with
  | nil => cases e; exact h
  | cons i l ih =>
    unfold takeBlocks at e
    split at e
    · cases e
    · exact ih e (takeBlock_keeps (by assumption) h)

theorem writeInput_keeps {a s : State} {x : Step} (h : Keeps a s) : Keeps a (writeInput s x) := by
  unfold writeInput
  try dsimp only
  repeat' first
    | (with_reducible first | assumption | exact Keeps.refl _ | apply writeUnits_keeps)
    | intro _
    | (with_reducible first | apply ite_keeps)
    | split

theorem startRun_keeps {a s : State} {n : Nat} (h : Keeps a s) : Keeps a (startRun s n) := by
  unfold startRun
  try dsimp only
  repeat' first
    | (with_reducible first
        | assumption | exact Keeps.refl _ | apply modHall_keeps | apply walkLayer_keeps | apply loadLane_keeps
        | apply writeInput_keeps | apply setStep_keeps)
    | exact (fun _ hx i => hx i : KeepsRings _)
    | exact (fun hx i => hx i)
    | intro _
    | split

theorem endClaim_keeps {a s : State} {n : Nat} (h : Keeps a s) : Keeps a (endClaim s n) := by
  unfold endClaim
  try dsimp only
  repeat' first
    | (with_reducible first | assumption | exact Keeps.refl _ | apply startRun_keeps | apply setStep_keeps)
    | intro _
    | (with_reducible first | apply ite_keeps)
    | split

theorem beginStep_keeps {a s : State} {n : Nat} (h : Keeps a s) : Keeps a (beginStep s n) := by
  unfold beginStep
  try dsimp only
  repeat' first
    | (with_reducible first
        | assumption | exact Keeps.refl _ | apply setStep_keeps | apply endStep_keeps | apply endClaim_keeps
        | apply laneUsherOp_keeps)
    | refine takeBlocks_keeps (by assumption) ?_
    | intro _
    | split

theorem tryLane_keeps {a s : State} {n : Nat} (h : Keeps a s) : Keeps a (tryLane s n) := by
  unfold tryLane
  try dsimp only
  repeat' first
    | (with_reducible first
        | assumption | exact Keeps.refl _ | apply noteReset_keeps | apply beginStep_keeps | apply storeCell_keeps
        | apply endStep_keeps)
    | intro _
    | (with_reducible first | apply ite_keeps)
    | split

theorem execLaneLockRetry_keeps (st : Nat) (s : State) : ∃ t, execLaneLockRetry st s = .next t ∧ Keeps s t := by
  unfold execLaneLockRetry
  refine ⟨_, rfl, ?_⟩
  try dsimp only
  repeat' first
    | (with_reducible first | assumption | exact Keeps.refl _ | apply settle_keeps | apply tryLane_keeps)
    | intro _
    | (with_reducible first | apply ite_keeps)
    | split

theorem claimStep_keeps {a s : State} {op : StepOp} {c : Nat} {k : Claim} (h : Keeps a s) :
    Keeps a (claimStep op s c k) := by
  unfold claimStep
  dsimp only
  refine ite_keeps (refuseStep_keeps h) (ite_keeps (dueWriteBack_keeps (setStage_keeps h)) (ite_keeps (refuseStep_keeps h) ?_))
  split
  · exact refuseStep_keeps h
  · refine ite_keeps (refuseStep_keeps h) ?_
    split
    · exact refuseStep_keeps h
    · exact settle_keeps (tryLane_keeps (setVolState_keeps (setStage_keeps (other_keeps (setStep_keeps h)))))

theorem stepDescriptor_keeps {a s : State} {c : Nat} {code : Nat} {op : StepOp} (h : Keeps a s) : Keeps a
    (stepDescriptor s c code op) := by
  unfold stepDescriptor
  try dsimp only
  repeat' first
    | (with_reducible first
        | assumption | exact Keeps.refl _ | apply withClaim_keeps | apply refuseStep_keeps | apply gated_keeps
        | apply claimStep_keeps)
    | intro _
    | (with_reducible first | apply ite_keeps)
    | split

theorem execStepDecode_keeps (c : Nat) (s : State) : ∃ t, execStepDecode c s = .next t ∧ Keeps s t := by
  unfold execStepDecode
  refine ⟨_, rfl, ?_⟩
  try dsimp only
  repeat' first
    | (with_reducible first | assumption | exact Keeps.refl _ | apply stepDescriptor_keeps)

theorem execStepVerify_keeps (c : Nat) (s : State) : ∃ t, execStepVerify c s = .next t ∧ Keeps s t := by
  unfold execStepVerify
  refine ⟨_, rfl, ?_⟩
  try dsimp only
  repeat' first
    | (with_reducible first | assumption | exact Keeps.refl _ | apply stepDescriptor_keeps)

theorem execStepPrefill_keeps (c : Nat) (s : State) : ∃ t, execStepPrefill c s = .next t ∧ Keeps s t := by
  unfold execStepPrefill
  refine ⟨_, rfl, ?_⟩
  try dsimp only
  repeat' first
    | (with_reducible first | assumption | exact Keeps.refl _ | apply stepDescriptor_keeps)

theorem execStepAbort_keeps (c : Nat) (s : State) : ∃ t, execStepAbort c s = .next t ∧ Keeps s t := by
  unfold execStepAbort
  refine ⟨_, rfl, ?_⟩
  try dsimp only
  repeat' first
    | (with_reducible first
        | assumption | exact Keeps.refl _ | apply withClaim_keeps | apply volDone_keeps | apply refuseStep_keeps
        | apply endStep_keeps)
    | intro _
    | (with_reducible first | apply ite_keeps)
    | split

theorem execStepTimeout_keeps (st : Nat) (s : State) : ∃ t, execStepTimeout st s = .next t ∧ Keeps s t := by
  unfold execStepTimeout
  refine ⟨_, rfl, ?_⟩
  try dsimp only
  repeat' first
    | (with_reducible first | assumption | exact Keeps.refl _ | apply endStep_keeps)
    | intro _
    | (with_reducible first | apply ite_keeps)
    | split

theorem execPinRequest_keeps (st : Nat) (up : Bool) (s : State) : ∃ t, execPinRequest st up s = .next t ∧ Keeps s t
    := by
  unfold execPinRequest
  refine ⟨_, rfl, ?_⟩
  try dsimp only
  repeat' first
    | (with_reducible first
        | assumption | exact Keeps.refl _ | apply settle_keeps | apply endClaim_keeps | apply setRef_keeps
        | apply modStep_keeps | apply lowerPins_keeps | apply unkeep_keeps | apply foldl_keeps
        | apply foldl_fst_keeps)
    | intro _
    | (with_reducible first | apply ite_keeps)
    | split
    | (with_reducible first | apply other_keeps)

theorem copyShared_keeps {a s : State} {v : Nat} {i : Nat} {fi : Nat} (h : Keeps a s) : Keeps a
    (copyShared s v i fi) := by
  unfold copyShared
  try dsimp only
  repeat' first
    | (with_reducible first
        | assumption | exact Keeps.refl _ | apply modJob_keeps | apply copyBeats_keeps | apply setSlot_keeps
        | apply setLeaf_keeps | apply setShadow_keeps | apply refill_keeps | apply sgenUp_keeps
        | apply dropRef_keeps | apply recount_keeps)
    | intro _
    | (with_reducible first | apply ite_keeps)
    | split

theorem ringReserve_keeps {a s : State} {n : Nat} {x : Step} {l : Nat} {i : Nat} (h : Keeps a s) : Keeps a
    (ringReserve s n x l i) := by
  unfold ringReserve
  try dsimp only
  repeat' first
    | (with_reducible first | assumption | exact Keeps.refl _)
    | refine takeBlock_keeps (by assumption) ?_
    | (with_reducible first | apply startWriteBack_keeps)
    | intro _
    | (with_reducible first | apply ite_keeps)
    | split

theorem walkReserve_keeps {a s t : State} {x : Step} {l : Nat} (e : walkReserve x s l = .ok t) (h : Keeps a s) :
    Keeps a t := by
  unfold walkReserve at e
  split at e
  · cases e
  · have k := foldlM_keeps (by assumption) h fun _ _ _ => stageWanted_keeps
    split at e
    · cases e
      exact k
    · exact fillReserve_keeps e k

theorem walkLayer_keeps {a s : State} {n : Nat} {x : Step} {b : Board} (h : Keeps a s) : Keeps a (walkLayer s n x b)
    := by
  unfold walkLayer
  dsimp only
  split
  · exact endStep_keeps h
  · have k := foldlM_keeps (by assumption) h fun _ _ _ => walkReserve_keeps
    repeat' first
      | (with_reducible first
          | assumption | apply copyShared_keeps | apply ringReserve_keeps | apply setStep_keeps | apply foldl_keeps)
      | intro _
      | (with_reducible first | apply ite_keeps)

theorem emitItem_keeps {a s : State} {n : Nat} {x : Step} {only : Option HallId} (h : Keeps a s) : Keeps a
    (emitItem s n x only) := by
  unfold emitItem
  try dsimp only
  repeat' first
    | (with_reducible first
        | assumption | exact Keeps.refl _ | apply noteReset_keeps | apply setStep_keeps | apply modStair_keeps)
    | intro _
    | (with_reducible first | apply ite_keeps)
    | split

theorem frontPoisoned_keeps {a s : State} {n : Nat} {v : Nat} (h : Keeps a s) : Keeps a (frontPoisoned s n v) := by
  unfold frontPoisoned
  try dsimp only
  repeat' first
    | (with_reducible first
        | assumption | exact Keeps.refl _ | apply endStep_keeps | apply faultSpine_keeps | apply modStep_keeps)

theorem execWalkItemEmit_keeps (st : Nat) (s : State) : ∃ t, execWalkItemEmit st s = .next t ∧ Keeps s t := by
  unfold execWalkItemEmit
  refine ⟨_, rfl, ?_⟩
  try dsimp only
  repeat' first
    | (with_reducible first
        | assumption | exact Keeps.refl _ | apply settle_keeps | apply endClaim_keeps | apply emitItem_keeps
        | apply spineRead_keeps | apply frontPoisoned_keeps | apply walkLayer_keeps)
    | intro _
    | (with_reducible first | apply ite_keeps)
    | split

end Sys2Proof.Machine
end

