-- ==== Sys2Proof/Laws/KeepsAttention.lean ====
section
/-! SUPPORT. What the operations of Machine/Attention.lean keep of a state. -/

namespace Sys2Proof.Machine

theorem dropStale_keeps {a s : State} {h1 : Nat} {sw : Nat} (h : Keeps a s) : Keeps a (dropStale s h1 sw) := by
  unfold dropStale
  try dsimp only
  repeat' first
    | (with_reducible first | assumption | exact Keeps.refl _ | apply modStair_keeps)

theorem takeItem_keeps {a s : State} {h1 : Nat} {sw : Nat} {n : Nat} (h : Keeps a s) : Keeps a (takeItem s h1 sw n) := by
  unfold takeItem
  try dsimp only
  repeat' first
    | (with_reducible first | assumption | exact Keeps.refl _ | apply modStair_keeps)

theorem leafWork_keeps {a s : State} {n w : Nat} {sel : State → List WorkItem → WorkItem → Bool}
    {k : State → WorkItem → Step → Board → Option State} (h : Keeps a s)
    (hk : ∀ s i x b t, Keeps a s → k s i x b = some t → Keeps a t) : Keeps a (leafWork s n w sel k) := by
  have h1 : Keeps a (dropStale s n w) := dropStale_keeps h
  unfold leafWork
  split
  · exact h
  · dsimp only
    split
    · exact h1
    · split
      · exact h1
      · split
        · exact h1
        · split
          · exact h1
          · generalize hr : k _ _ _ _ = r
            cases r with
            | none => exact h1
            | some t => exact hk _ _ _ _ t (takeItem_keeps h1) hr

theorem setDt_keeps {a s : State} {v : Nat} {i : Nat} (h : Keeps a s) : Keeps a (setDt s v i) := by
  unfold setDt
  try dsimp only
  repeat' first
    | (with_reducible first | assumption | exact Keeps.refl _ | apply sgenUp_keeps | apply setLeaf_keeps)
    | intro _
    | (with_reducible first | apply ite_keeps)

theorem appendRow_keeps {a s : State} {p : Plan} {t1 : StepRows} {col : Region} {slot : Nat} {boardRow : Nat} {row
    : Nat} (h : Keeps a s) : Keeps a (appendRow s p t1 col slot boardRow row) := by
  unfold appendRow
  try dsimp only
  repeat' first
    | (with_reducible first | assumption | exact Keeps.refl _ | apply writeBeats_keeps)

theorem runAppend_keeps {a s t : State} {h1 : Nat} {i : WorkItem} {x : Step} {t1 : StepRows} (e
    : runAppend s h1 i x t1 = some t) (h : Keeps a s) : Keeps a t := by
  unfold runAppend at e
  try dsimp only at e
  repeat' split at e
  all_goals try cases e
  all_goals
    repeat' first
      | (with_reducible first
          | assumption | exact Keeps.refl _ | apply appendRow_keeps | apply notePoison_keeps | apply setDt_keeps
          | apply foldl_keeps | apply foldl_fst_keeps)
      | intro _

theorem execLeafAppend_keeps (h1 : HallId) (sw : SwId) (s : State) : ∃ t, execLeafAppend h1 sw s = .next t ∧ Keeps s t := by
  refine ⟨_, rfl, leafWork_keeps (Keeps.refl s) fun u i x b t h e => ?_⟩
  split at e
  · exact runAppend_keeps e h
  · cases e

theorem landGroup_keeps {a s : State} {h1 l : Nat} {i : WorkItem} {x : Step} {p : Plan} {t1 : StepRows}
    {r first heads : Nat} (h : Keeps a s) : Keeps a (landGroup s h1 l i x p t1 r first heads).1 := by
  unfold landGroup
  dsimp only
  split
  · exact h
  · dsimp only
    exact modLanding_keeps (runReadout_keeps (runAttend_keeps (runAccClear_keeps (modLanding_keeps h))))

theorem landGroup_keeps' {a s t : State} {h1 l : Nat} {i : WorkItem} {x : Step} {p : Plan} {t1 : StepRows}
    {r first heads : Nat} {y : List PartRow} (e : landGroup s h1 l i x p t1 r first heads = (t, y)) (h : Keeps a s) :
    Keeps a t := by
  have k : Keeps a (landGroup s h1 l i x p t1 r first heads).1 := landGroup_keeps h
  rw [e] at k
  exact k

theorem landAttend_keeps {a s : State} {h1 : Nat} {i : WorkItem} {x : Step} {p : Plan} {t1 : StepRows} (h :
    Keeps a s) : Keeps a (landAttend s h1 i x p t1).1 := by
  unfold landAttend
  try dsimp only
  repeat' first
    | (with_reducible first
        | assumption | exact Keeps.refl _ | apply landGroup_keeps | apply foldl_keeps | apply foldl_fst_keeps)
    | refine landGroup_keeps' (by assumption) ?_
    | intro _

theorem landAttend_keeps' {a s t : State} {h1 : Nat} {i : WorkItem} {x : Step} {p : Plan} {t1 : StepRows} {y
    : List PartRow} (e : landAttend s h1 i x p t1 = (t, y)) (h : Keeps a s) : Keeps a t := by
  have k : Keeps a (landAttend s h1 i x p t1).1 := landAttend_keeps h
  rw [e] at k
  exact k

theorem runAttendItem_keeps {a s t : State} {h1 : Nat} {sw : Nat} {i : WorkItem} {x : Step} {t1 : StepRows} (e
    : runAttendItem s h1 sw i x t1 = some t) (h : Keeps a s) : Keeps a t := by
  unfold runAttendItem at e
  try dsimp only at e
  repeat' split at e
  all_goals try cases e
  all_goals
    repeat' first
      | (with_reducible first
          | assumption | exact Keeps.refl _ | apply landAttend_keeps | apply notePoison_keeps
          | apply modStep_keeps)

theorem execLeafAttend_keeps (h1 : HallId) (sw : SwId) (s : State) : ∃ t, execLeafAttend h1 sw s = .next t ∧ Keeps s t := by
  refine ⟨_, rfl, leafWork_keeps (Keeps.refl s) fun u i x b t h e => ?_⟩
  split at e
  · exact runAttendItem_keeps e h
  · cases e

theorem runMove_keeps {a s t : State} {h1 : Nat} {i : WorkItem} {x : Step} (e : runMove s h1 i x = some t) (h :
    Keeps a s) : Keeps a t := by
  unfold runMove at e
  try dsimp only at e
  repeat' split at e
  all_goals try cases e
  all_goals
    repeat' first
      | (with_reducible first
          | assumption | exact Keeps.refl _ | apply copyBeats_keeps | apply notePoison_keeps | apply setDt_keeps
          | apply modStep_keeps)

theorem execLeafMove_keeps (h0 : HallId) (sw : SwId) (s : State) : ∃ t, execLeafMove h0 sw s = .next t ∧ Keeps s t
    := by
  unfold execLeafMove
  refine ⟨_, rfl, ?_⟩
  try dsimp only
  repeat' first
    | (with_reducible first | assumption | exact Keeps.refl _ | apply leafWork_keeps)
    | refine runMove_keeps (by assumption) ?_
    | intro _

theorem execLeafGather_keeps (h0 : HallId) (sw : SwId) (s : State) : ∃ t, execLeafGather h0 sw s = .next t ∧ Keeps s
    t := by
  refine ⟨_, rfl, leafWork_keeps (Keeps.refl s) fun s i x b t h e => ?_⟩
  cases e
  exact modStep_keeps h

theorem laneOp_keeps {a s : State} {x : Step} {i : Nat} {cop : Nat} {v : Nat} (h : Keeps a s) : Keeps a
    (laneOp s x i cop v) := by
  unfold laneOp
  try dsimp only
  repeat' first
    | (with_reducible first | assumption | exact Keeps.refl _ | apply settle_keeps | apply laneUsherOp_keeps)

theorem sendRows_keeps {a s : State} {halls : Nat} {t1 : StepRows} (h : Keeps a s) : Keeps a (sendRows s halls t1)
    := by
  unfold sendRows
  try dsimp only
  repeat' first
    | (with_reducible first | assumption | exact Keeps.refl _)
    | intro _
    | (with_reducible first | apply ite_keeps)
    | (with_reducible first | apply other_keeps)

theorem execBoardSendRows_keeps (st : Nat) (s : State) : ∃ t, execBoardSendRows st s = .next t ∧ Keeps s t := by
  unfold execBoardSendRows
  refine ⟨_, rfl, ?_⟩
  try dsimp only
  repeat' first
    | (with_reducible first
        | assumption | exact Keeps.refl _ | apply sendRows_keeps | apply setStep_keeps | apply laneOp_keeps)
    | intro _
    | (with_reducible first | apply ite_keeps)
    | split

theorem boardFinish_keeps {a s : State} {st : Nat} {x : Step} {b : Board} (h : Keeps a s) : Keeps a
    (boardFinish s st x b) := by
  unfold boardFinish
  try dsimp only
  repeat' first
    | (with_reducible first
        | assumption | exact Keeps.refl _ | apply write_keeps | apply laneOp_keeps | apply setStep_keeps
        | apply foldl_keeps | apply foldl_fst_keeps)
    | intro _

theorem boardTake_keeps {a s : State} {st : Nat} {x : Step} {b : Board} {m : PartMsg} (h : Keeps a s) : Keeps a
    (boardTake s st x b m) := by
  unfold boardTake
  try dsimp only
  repeat' first
    | (with_reducible first | assumption | exact Keeps.refl _ | apply boardFinish_keeps | apply setStep_keeps)
    | intro _
    | (with_reducible first | apply ite_keeps)

theorem execPartialArrive_keeps (st : Nat) (i : Nat) (s : State) : ∃ t, execPartialArrive st i s = .next t ∧ Keeps s t
    := by
  unfold execPartialArrive
  refine ⟨_, rfl, ?_⟩
  try dsimp only
  repeat' first
    | (with_reducible first | assumption | exact Keeps.refl _ | apply boardTake_keeps | apply setStep_keeps)
    | intro _
    | (with_reducible first | apply ite_keeps)
    | split

theorem execMergeForward_keeps (st : Nat) (h1 : HallId) (sw : SwId) (s : State) : ∃ t, execMergeForward st h1 sw s =
    .next t ∧ Keeps s t := by
  unfold execMergeForward
  refine ⟨_, rfl, ?_⟩
  try dsimp only
  repeat' first
    | (with_reducible first | assumption | exact Keeps.refl _ | apply setStep_keeps)
    | intro _
    | (with_reducible first | apply ite_keeps)
    | split

theorem clearRunState_keeps {a s : State} {n : Nat} {x : Step} (h : Keeps a s) : Keeps a (clearRunState s n x) := by
  unfold clearRunState
  try dsimp only
  repeat' first
    | (with_reducible first
        | assumption | exact Keeps.refl _ | apply laneUsherOp_keeps | apply dropItems_keeps | apply stopLane_keeps)

theorem voidRun_keeps {a s : State} {n : Nat} (h : Keeps a s) : Keeps a (voidRun s n) := by
  unfold voidRun
  try dsimp only
  repeat' first
    | (with_reducible first
        | assumption | exact Keeps.refl _ | apply endClaim_keeps | apply clearRunState_keeps | apply modStep_keeps
        | apply endStep_keeps)
    | intro _
    | (with_reducible first | apply ite_keeps)
    | split

theorem execStepRunVoid_keeps (st : Nat) (s : State) : ∃ t, execStepRunVoid st s = .next t ∧ Keeps s t := by
  unfold execStepRunVoid
  refine ⟨_, rfl, ?_⟩
  try dsimp only
  repeat' first
    | (with_reducible first
        | assumption | exact Keeps.refl _ | apply endStep_keeps | apply voidRun_keeps | apply modStep_keeps)
    | intro _
    | (with_reducible first | apply ite_keeps)
    | split

theorem enterDecide_keeps {a s : State} {n : Nat} {x : Step} {b : Board} (h : Keeps a s) : Keeps a
    (enterDecide s n x b) := by
  unfold enterDecide
  try dsimp only
  repeat' first
    | (with_reducible first
        | assumption | exact Keeps.refl _ | apply notePoison_keeps | apply modStep_keeps | apply laneOp_keeps
        | apply endStep_keeps | apply setStep_keeps)
    | intro _
    | (with_reducible first | apply ite_keeps)
    | split

theorem tidyEdit_keeps {a s : State} {v : Nat} {gen : Nat} {t0 : Word} {e4 : TidyEdit} (h : Keeps a s) : Keeps a
    (tidyEdit s v gen t0 e4).1 := by
  unfold tidyEdit
  try dsimp only
  repeat' first
    | (with_reducible first
        | assumption | exact Keeps.refl _ | apply setLeaf_keeps | apply modJob_keeps | apply setSlot_keeps
        | apply setShadow_keeps)
    | intro _
    | (with_reducible first | apply ite_keeps)
    | split

theorem tidyEdit_keeps' {a s t : State} {v : Nat} {gen : Nat} {t0 : Word} {e4 : TidyEdit} {y : Bool}
    (e : tidyEdit s v gen t0 e4 = (t, y)) (h : Keeps a s) : Keeps a t := by
  have k : Keeps a (tidyEdit s v gen t0 e4).1 := tidyEdit_keeps h 
  rw [e] at k
  exact k

theorem tidyBindings_keeps {a s : State} {v n : Nat} {t0 : Word} {l : List TidyEdit} (h : Keeps a s) :
    Keeps a (tidyBindings v t0 n l s) := by
  induction n generalizing s l with
  | zero => exact h
  | succ n ih =>
    unfold tidyBindings
    split
    · exact h
    · dsimp only
      apply ih
      apply sgenUp_keeps
      refine foldl_fst_keeps h fun q x hq => ?_
      exact tidyEdit_keeps hq

theorem returnUnkept_keeps {a s : State} {v : Nat} {b : NewBlock} (h : Keeps a s) : Keeps a (returnUnkept s v b) := by
  unfold returnUnkept
  try dsimp only
  repeat' first
    | (with_reducible first
        | assumption | exact Keeps.refl _ | apply modJob_keeps | apply setSlot_keeps | apply dropReserve_keeps)
    | intro _
    | (with_reducible first | apply ite_keeps)

theorem copyHeads_keeps {a s : State} {x : Step} {b : Board} (h : Keeps a s) : Keeps a (copyHeads s x b) := by
  unfold copyHeads
  try dsimp only
  repeat' first
    | (with_reducible first
        | assumption | exact Keeps.refl _ | apply copyBeats_keeps | apply foldl_keeps | apply foldl_fst_keeps)
    | intro _
    | (with_reducible first | apply ite_keeps)

theorem commitStep_keeps {a s : State} {n : Nat} {x : Step} {b : Board} (h : Keeps a s) : Keeps a
    (commitStep s n x b) := by
  unfold commitStep
  try dsimp only
  repeat' first
    | (with_reducible first
        | assumption | exact Keeps.refl _ | apply modVol_keeps | apply tidyBindings_keeps
        | apply returnUnkept_keeps | apply copyHeads_keeps | apply recount_keeps | apply dueWriteBack_keeps
        | apply unpin_keeps | apply releaseLane_keeps | apply leaveRunning_keeps | apply stepRecord_keeps
        | apply foldl_keeps | apply foldl_fst_keeps)
    | intro _
    | (with_reducible first | apply other_keeps)

theorem decideRest_keeps {a s : State} {n : Nat} {x : Step} {b : Board} (h : Keeps a s) : Keeps a (decideRest s n x b)
    := by
  unfold decideRest
  try dsimp only
  repeat' first
    | (with_reducible first
        | assumption | exact Keeps.refl _ | apply endStep_keeps | apply voidRun_keeps | apply setStep_keeps
        | apply commitStep_keeps)
    | intro _
    | (with_reducible first | apply ite_keeps)

theorem execStepDecide_keeps (st : Nat) (s : State) : ∃ t, execStepDecide st s = .next t ∧ Keeps s t := by
  unfold execStepDecide
  refine ⟨_, rfl, ?_⟩
  try dsimp only
  repeat' first
    | (with_reducible first
        | assumption | exact Keeps.refl _ | apply endStep_keeps | apply enterDecide_keeps | apply decideRest_keeps)
    | intro _
    | (with_reducible first | apply ite_keeps)
    | split

end Sys2Proof.Machine
end

