-- ==== Sys2Proof/Laws/KeepsBindings.lean ====
section
/-! SUPPORT. What the operations of Machine/Bindings.lean keep of a state. -/

namespace Sys2Proof.Machine

theorem setBind_keeps {a s : State} {n : Nat} {b : Binding} (h : Keeps a s) : Keeps a (State.setBind s n b) := by
  unfold State.setBind
  try dsimp only
  repeat' first
    | (with_reducible first | assumption | exact Keeps.refl _)
    | intro _
    | (with_reducible first | apply ite_keeps)
    | split
    | (with_reducible first | apply other_keeps)

theorem bindRecord_keeps {a s : State} {n : Nat} {b : Binding} {writer : Nat} {status : Nat} (h : Keeps a s) : Keeps a
    (bindRecord s n b writer status) := by
  unfold bindRecord
  try dsimp only
  repeat' first
    | (with_reducible first | assumption | exact Keeps.refl _ | apply complete_keeps)
    | intro _
    | (with_reducible first | apply ite_keeps)
    | split
    | (with_reducible first | apply other_keeps)

theorem bindFail_keeps {a s : State} {n : Nat} {b : Binding} {status : Nat} {act : Option Nat} {h5 : HallId}
    (h : Keeps a s) : Keeps a (bindFail s n b status act h5) := by
  unfold bindFail
  try dsimp only
  repeat' first
    | (with_reducible first | assumption | exact Keeps.refl _ | apply setBind_keeps)

theorem execBind_keeps (c : Nat) (s : State) : ∃ t, execBind c s = .next t ∧ Keeps s t := by
  unfold execBind
  refine ⟨_, rfl, ?_⟩
  try dsimp only
  repeat' first
    | (with_reducible first
        | assumption | exact Keeps.refl _ | apply withClaim_keeps | apply finish_keeps | apply setStage_keeps
        | apply setBind_keeps)
    | intro _
    | (with_reducible first | apply ite_keeps)
    | split
    | refine hallsMap_keeps ?_ (fun _ => rfl) (fun _ hq => hq)
    | (with_reducible first | apply other_keeps)

theorem bindFetch_keeps {a s : State} {n : Nat} {b : Binding} (h : Keeps a s) : Keeps a (bindFetch s n b) := by
  unfold bindFetch
  try dsimp only
  repeat' first
    | (with_reducible first | assumption | exact Keeps.refl _ | apply bindRecord_keeps | apply setBind_keeps)
    | intro _
    | (with_reducible first | apply ite_keeps)
    | split

theorem execBindForward_keeps (b : Nat) (s : State) : ∃ t, execBindForward b s = .next t ∧ Keeps s t := by
  unfold execBindForward
  refine ⟨_, rfl, ?_⟩
  try dsimp only
  repeat' first
    | (with_reducible first | assumption | exact Keeps.refl _ | apply bindFail_keeps | apply bindFetch_keeps)
    | intro _
    | (with_reducible first | apply ite_keeps)
    | split

theorem execBindPrepare_keeps (b : Nat) (s : State) : ∃ t, execBindPrepare b s = .next t ∧ Keeps s t := by
  unfold execBindPrepare
  refine ⟨_, rfl, ?_⟩
  try dsimp only
  repeat' first
    | (with_reducible first | assumption | exact Keeps.refl _ | apply bindFail_keeps | apply setBind_keeps)
    | intro _
    | (with_reducible first | apply ite_keeps)
    | split

theorem execBindPrepared_keeps (b : Nat) (s : State) : ∃ t, execBindPrepared b s = .next t ∧ Keeps s t := by
  unfold execBindPrepared
  refine ⟨_, rfl, ?_⟩
  try dsimp only
  repeat' first
    | (with_reducible first | assumption | exact Keeps.refl _ | apply setBind_keeps)
    | intro _
    | (with_reducible first | apply ite_keeps)
    | split

theorem editEntry_keeps {a s : State} {v : Nat} {i : Nat} {value : Dword} (h : Keeps a s) : Keeps a
    (editEntry s v i value) := by
  unfold editEntry
  try dsimp only
  repeat' first
    | (with_reducible first
        | assumption | exact Keeps.refl _ | apply setShadow_keeps | apply setLeaf_keeps | apply releaseEntry_keeps)
    | intro _
    | (with_reducible first | apply ite_keeps)

theorem applyAct_keeps {a s : State} {a1 : Rec32} {data : Rec64} (h : Keeps a s) : Keeps a (applyAct s a1 data) := by
  unfold applyAct
  try dsimp only
  repeat' first
    | (with_reducible first
        | assumption | exact Keeps.refl _ | apply editEntry_keeps | apply modVol_keeps | apply storeCell_keeps
        | apply write_keeps)
    | intro _
    | (with_reducible first | apply ite_keeps)
    | split

theorem applyHall_keeps {a s : State} {b : Binding} {h2 : Nat} {sel : Rec32 → Bool} (h : Keeps a s) : Keeps a
    (applyHall s b h2 sel) := by
  unfold applyHall
  try dsimp only
  repeat' first
    | (with_reducible first
        | assumption | exact Keeps.refl _ | apply applyAct_keeps | apply recount_keeps | apply sgenUp_keeps
        | apply dropRef_keeps | apply foldl_keeps | apply foldl_fst_keeps)
    | intro _

theorem bindApply_keeps {a s : State} {b : Nat} {h2 : HallId} (h : Keeps a s) : Keeps a (bindApply s b h2) := by
  unfold bindApply
  try dsimp only
  repeat' first
    | (with_reducible first | assumption | exact Keeps.refl _ | apply setBind_keeps | apply applyHall_keeps)
    | intro _
    | (with_reducible first | apply ite_keeps)
    | split

theorem execBindCommit_keeps (b : Nat) (h1 : HallId) (s : State) : ∃ t, execBindCommit b h1 s = .next t ∧ Keeps s t :=
    by
  unfold execBindCommit
  refine ⟨_, rfl, ?_⟩
  try dsimp only
  repeat' first
    | (with_reducible first | assumption | exact Keeps.refl _ | apply settle_keeps | apply bindApply_keeps)

theorem execBindDone_keeps (b : Nat) (s : State) : ∃ t, execBindDone b s = .next t ∧ Keeps s t := by
  unfold execBindDone
  refine ⟨_, rfl, ?_⟩
  try dsimp only
  repeat' first
    | (with_reducible first | assumption | exact Keeps.refl _ | apply bindRecord_keeps)
    | intro _
    | (with_reducible first | apply ite_keeps)
    | split

theorem execBindAbort_keeps (b : Nat) (s : State) : ∃ t, execBindAbort b s = .next t ∧ Keeps s t := by
  unfold execBindAbort
  refine ⟨_, rfl, ?_⟩
  try dsimp only
  repeat' first
    | (with_reducible first | assumption | exact Keeps.refl _ | apply bindRecord_keeps)
    | intro _
    | (with_reducible first | apply ite_keeps)
    | split

theorem execBindPrepareTimeout_keeps (b : Nat) (h1 : HallId) (s : State) : ∃ t, execBindPrepareTimeout b h1 s = .next
    t ∧ Keeps s t := by
  unfold execBindPrepareTimeout
  refine ⟨_, rfl, ?_⟩
  try dsimp only
  repeat' first
    | (with_reducible first | assumption | exact Keeps.refl _ | apply bindFail_keeps)
    | intro _
    | (with_reducible first | apply ite_keeps)
    | split

theorem markUnfinished_keeps {a s : State} {b : Binding} (h : Keeps a s) : Keeps a (markUnfinished s b) := by
  unfold markUnfinished
  try dsimp only
  repeat' first
    | (with_reducible first
        | assumption | exact Keeps.refl _ | apply setClasp_keeps | apply setPoison_keeps | apply setVolState_keeps
        | apply modVol_keeps | apply foldl_keeps | apply foldl_fst_keeps)
    | intro _
    | (with_reducible first | apply ite_keeps)
    | split

theorem finishRemote_keeps {a s : State} {b : Binding} (h : Keeps a s) : Keeps a (finishRemote s b).1 := by
  unfold finishRemote
  try dsimp only
  repeat' first
    | (with_reducible first
        | assumption | exact Keeps.refl _ | apply applyHall_keeps | apply foldl_keeps | apply foldl_fst_keeps)
    | intro _
    | (with_reducible first | apply ite_keeps)
    | split

theorem finishRemote_keeps' {a s t : State} {b : Binding} {y : Binding} (e : finishRemote s b = (t, y))
    (h : Keeps a s) : Keeps a t := by
  have k : Keeps a (finishRemote s b).1 := finishRemote_keeps h 
  rw [e] at k
  exact k

theorem finishPoisoned_keeps {a s : State} {n : Nat} {b : Binding} {h3 : HallId} (h : Keeps a s) : Keeps a
    (finishPoisoned s n b h3) := by
  unfold finishPoisoned
  try dsimp only
  repeat' first
    | (with_reducible first
        | assumption | exact Keeps.refl _ | apply bindRecord_keeps | apply setBind_keeps | apply applyHall_keeps
        | apply markUnfinished_keeps | apply foldl_keeps | apply foldl_fst_keeps)
    | intro _
    | (with_reducible first | apply ite_keeps)
    | split

theorem execBindFinishFromLog_keeps (b : Nat) (s : State) : ∃ t, execBindFinishFromLog b s = .next t ∧ Keeps s t := by
  unfold execBindFinishFromLog
  refine ⟨_, rfl, ?_⟩
  try dsimp only
  repeat' first
    | (with_reducible first
        | assumption | exact Keeps.refl _ | apply bindRecord_keeps | apply settle_keeps | apply finishPoisoned_keeps
        | apply finishRemote_keeps)
    | refine finishRemote_keeps' (by assumption) ?_
    | (with_reducible first | apply setBind_keeps)
    | intro _
    | (with_reducible first | apply ite_keeps)
    | split

end Sys2Proof.Machine
end

