-- ==== Sys2Proof/Laws/KeepsErrOps.lean ====
section
/-! SUPPORT. What the operations of Machine/ErrOps.lean keep of a state. -/

namespace Sys2Proof.Machine

theorem setErrLog_keeps {a s : State} {l : ErrLog} (h : Keeps a s) : Keeps a (State.setErrLog s l) := by
  unfold State.setErrLog
  try dsimp only
  repeat' first
    | (with_reducible first | assumption | exact Keeps.refl _ | apply modPorter_keeps)
    | exact (fun _ => rfl : KeepsFuses _)

theorem logError_keeps {a s : State} {e1 : ErrInfo} (h : Keeps a s) : Keeps a (State.logError s e1) := by
  unfold State.logError
  try dsimp only
  repeat' first
    | (with_reducible first
        | assumption | exact Keeps.refl _ | apply write_keeps | apply setErrLog_keeps | apply emit_keeps)
    | intro _
    | (with_reducible first | apply ite_keeps)
    | split

end Sys2Proof.Machine
end

