-- ==== Sys2Proof/Laws/KeepsMgmtOps.lean ====
section
/-! SUPPORT. What the operations of Machine/MgmtOps.lean keep of a state. -/

namespace Sys2Proof.Machine

theorem modFab_keeps {a s : State} {f : FabMgr → FabMgr} (h : Keeps a s) : Keeps a (State.modFab s f) := by
  unfold State.modFab
  try dsimp only
  repeat' first
    | (with_reducible first | assumption | exact Keeps.refl _ | apply modPorter_keeps)
    | exact (fun _ => rfl : KeepsFuses _)

theorem fabIrq_keeps {a s : State}  (h : Keeps a s) : Keeps a (State.fabIrq s) := by
  unfold State.fabIrq
  try dsimp only
  repeat' first
    | (with_reducible first | assumption | exact Keeps.refl _ | apply emit_keeps)

theorem checked_keeps {a s : State} {h1 : HallId} {p : FabPacket} {bad : Bool} {k : State → State} (h : Keeps a s)
    (hkk : ∀ s, Keeps a s → Keeps a (k s)) : Keeps a (checked s h1 p bad k) := by
  unfold checked
  try dsimp only
  repeat' first
    | (with_reducible first
        | assumption | exact Keeps.refl _ | apply linkIn_keeps | apply modPort_keeps | apply logError_keeps
        | apply fabDrop_keeps | apply hkk)
    | intro _
    | (with_reducible first | apply ite_keeps)

theorem mgmtIn_keeps {a s : State} {h1 : HallId} {p : FabPacket} {k : State → State} (h : Keeps a s) (hkk : ∀ s,
    Keeps a s → Keeps a (k s)) : Keeps a (mgmtIn s h1 p k) := by
  unfold mgmtIn
  try dsimp only
  repeat' first
    | (with_reducible first | assumption | exact Keeps.refl _ | apply checked_keeps | apply hkk)
    | intro _

theorem sendLink_keeps {a s : State} {h1 : HallId} {m : MgmtMsg} (h : Keeps a s) : Keeps a (sendLink s h1 m) := by
  unfold sendLink
  try dsimp only
  repeat' first
    | (with_reducible first | assumption | exact Keeps.refl _ | apply portSend_keeps)

theorem sendLinks_keeps {a s : State} {m : MgmtMsg} {but : Option HallId} (h : Keeps a s) : Keeps a
    (sendLinks s m but) := by
  unfold sendLinks
  try dsimp only
  repeat' first
    | (with_reducible first
        | assumption | exact Keeps.refl _ | apply sendLink_keeps | apply foldl_keeps | apply foldl_fst_keeps)
    | intro _
    | (with_reducible first | apply ite_keeps)

theorem sendTable_keeps {a s : State} {dst : Nat} {m : MgmtMsg} (h : Keeps a s) : Keeps a (sendTable s dst m) := by
  unfold sendTable
  try dsimp only
  repeat' first
    | (with_reducible first | assumption | exact Keeps.refl _ | apply fabSend_keeps)

theorem steer_keeps {a s : State} {h1 : HallId} {ring : Bool} {p : FabPacket} (h : Keeps a s) : Keeps a
    (steer s h1 ring p) := by
  unfold steer
  try dsimp only
  repeat' first
    | (with_reducible first
        | assumption | exact Keeps.refl _ | apply emit_keeps | apply fabDrop_keeps | apply fabRing_keeps
        | apply fabOut_keeps)
    | intro _
    | (with_reducible first | apply ite_keeps)

theorem sendReply_keeps {a s : State} {h1 : HallId} {src : Nat} {m : MgmtMsg} {body : List Byte} (h : Keeps a s) :
    Keeps a (sendReply s h1 src m body) := by
  unfold sendReply
  try dsimp only
  repeat' first
    | (with_reducible first | assumption | exact Keeps.refl _ | apply steer_keeps | apply sendTable_keeps)
    | intro _
    | (with_reducible first | apply ite_keeps)

theorem recordReport_keeps {a s : State} {node : Nat} {event : Nat} {reason : Nat} {peer : Nat} (h : Keeps a s) : Keeps a
    (recordReport s node event reason peer) := by
  unfold recordReport
  try dsimp only
  repeat' first
    | (with_reducible first
        | assumption | exact Keeps.refl _ | apply write_keeps | apply fabIrq_keeps | apply modFab_keeps)

theorem portReport_keeps {a s : State} {h1 : HallId} {event : Nat} (h : Keeps a s) : Keeps a (portReport s h1 event)
    := by
  unfold portReport
  try dsimp only
  repeat' first
    | (with_reducible first | assumption | exact Keeps.refl _ | apply recordReport_keeps | apply sendTable_keeps)
    | intro _
    | (with_reducible first | apply ite_keeps)
    | split

end Sys2Proof.Machine
end

