-- ==== Sys2Proof/Laws/KeepsNetwork.lean ====
section
/-! SUPPORT. What the operations of Machine/Network.lean keep of a state. -/

namespace Sys2Proof.Machine

theorem routerQueue_keeps {a s : State} {h1 : Nat} {at_ : SwId} {inp : Nat} {p : NetPkt} (h : Keeps a s) : Keeps a
    (routerQueue s h1 at_ inp p) := by
  unfold routerQueue
  try dsimp only
  repeat' first
    | (with_reducible first | assumption | exact Keeps.refl _ | apply netPush_keeps)

theorem gateQueue_keeps {a s : State} {h1 : Nat} {inp : Nat} {p : NetPkt} (h : Keeps a s) : Keeps a
    (gateQueue s h1 inp p) := by
  unfold gateQueue
  try dsimp only
  repeat' first
    | (with_reducible first | assumption | exact Keeps.refl _ | apply netPush_keeps)

theorem netAnswered_keeps {a s : State} {p : Packet} (h : Keeps a s) : Keeps a (netAnswered s p) := by
  unfold netAnswered
  refine modHall_keeps h fun x hx => ?_
  split <;> exact hx

theorem netDeliver_keeps {a s : State} {h1 : HallId} {p : Packet} (h : Keeps a s) : Keeps a (netDeliver s h1 p) := by
  unfold netDeliver
  try dsimp only
  repeat' first
    | (with_reducible first | assumption | exact Keeps.refl _ | apply emit_keeps | apply netAnswered_keeps)
    | intro _
    | (with_reducible first | apply ite_keeps)

theorem countReset_keeps {a s : State} {h1 : Nat} {b : PktBody} (h : Keeps a s) : Keeps a (countReset s h1 b) := by
  unfold countReset
  try dsimp only
  repeat' first
    | (with_reducible first | assumption | exact Keeps.refl _ | apply noteReset_keeps)
    | intro _
    | (with_reducible first | apply ite_keeps)

theorem gateArrive_keeps {a s : State} {h1 : HallId} {inp : Nat} {p : NetPkt} (h : Keeps a s) : Keeps a
    (gateArrive s h1 inp p) := by
  unfold gateArrive
  try dsimp only
  repeat' first
    | (with_reducible first
        | assumption | exact Keeps.refl _ | apply gateQueue_keeps | apply netAnswered_keeps
        | apply countReset_keeps)
    | intro _
    | (with_reducible first | apply ite_keeps)
    | split

theorem swArrive_keeps {a s : State} {h1 : HallId} {at_ : SwId} {sw : SwId} {p : NetPkt} (h : Keeps a s) : Keeps a
    (swArrive s h1 at_ sw p) := by
  unfold swArrive
  try dsimp only
  repeat' first
    | (with_reducible first
        | assumption | exact Keeps.refl _ | apply netDeliver_keeps | apply netAnswered_keeps
        | apply routerQueue_keeps | apply countReset_keeps)
    | intro _
    | (with_reducible first | apply ite_keeps)
    | split

theorem netGrant_keeps {a s : State} {h1 : Nat} {out : Nat} {k : State → NetPkt → State} (h : Keeps a s)
    (hk : ∀ u0 u1, Keeps a u0 → Keeps a (k u0 u1)) : Keeps a (netGrant s h1 out k) := by
  unfold netGrant
  try dsimp only
  repeat' first
    | (with_reducible first | assumption | exact Keeps.refl _ | apply modHall_keeps | apply hk)
    | exact (fun _ hx i => hx i : KeepsRings _)
    | exact (fun hx i => hx i)
    | intro _
    | (with_reducible first | apply ite_keeps)
    | split

theorem netNote_keeps {a s : State} {h1 : HallId} {p : Packet} {inp : Nat} (h : Keeps a s) : Keeps a
    (netNote s h1 p inp) := by
  unfold netNote
  try dsimp only
  repeat' first
    | (with_reducible first | assumption | exact Keeps.refl _ | apply modHall_keeps)
    | exact (fun _ hx i => hx i : KeepsRings _)
    | exact (fun hx i => hx i)
    | intro _
    | (with_reducible first | apply ite_keeps)

theorem netPlace_keeps {a s : State} {h1 : HallId} {p : Packet} {inp : Nat} (h : Keeps a s) :
    Keeps a (netPlace s h1 p inp) := by
  unfold netPlace
  dsimp only
  cases p.src <;> first
    | exact netPush_keeps h
    | exact gateArrive_keeps h

theorem netInject_keeps {a s : State} {h1 : HallId} {p : Packet} {inp : Nat} (h : Keeps a s) : Keeps a
    (netInject s h1 p inp) := by
  unfold netInject
  try dsimp only
  repeat' first
    | (with_reducible first | assumption | exact Keeps.refl _ | apply netPlace_keeps | apply netNote_keeps)
    | intro _
    | (with_reducible first | apply ite_keeps)

theorem netRepresent_keeps {a s : State} {h1 : HallId} {i : Nat} (h : Keeps a s) : Keeps a (netRepresent s h1 i) := by
  unfold netRepresent
  try dsimp only
  repeat' first
    | (with_reducible first | assumption | exact Keeps.refl _ | apply netPlace_keeps | apply modHall_keeps)
    | exact (fun _ hx i => hx i : KeepsRings _)
    | exact (fun hx i => hx i)
    | intro _
    | (with_reducible first | apply ite_keeps)
    | split

theorem netForget_keeps {a s : State} {h1 : Nat} {sel : NetUnit → Bool} (h : Keeps a s) : Keeps a
    (netForget s h1 sel) := by
  unfold netForget
  try dsimp only
  repeat' first
    | (with_reducible first | assumption | exact Keeps.refl _ | apply modHall_keeps)
    | exact (fun _ hx i => hx i : KeepsRings _)

theorem netHop_keeps {a s : State} {h1 : HallId} {out : NetOut} {p : NetPkt} (h : Keeps a s) : Keeps a
    (netHop s h1 out p) := by
  unfold netHop
  try dsimp only
  repeat' first
    | (with_reducible first
        | assumption | exact Keeps.refl _ | apply routerQueue_keeps | apply swArrive_keeps
        | apply gateArrive_keeps | apply netPush_keeps | apply netDeliver_keeps | apply netAnswered_keeps
        | apply gateQueue_keeps | apply countReset_keeps | apply fabOut_keeps | apply emit_keeps)
    | intro _
    | (with_reducible first | apply ite_keeps)
    | split

theorem execMeshPacket_keeps (h0 : HallId) (e1 : MeshEvent) (s : State) : ∃ t, execMeshPacket h0 e1 s = .next t ∧
    Keeps s t := by
  unfold execMeshPacket
  refine ⟨_, rfl, ?_⟩
  try dsimp only
  repeat' first
    | (with_reducible first
        | assumption | exact Keeps.refl _ | apply netInject_keeps | apply netGrant_keeps | apply netHop_keeps)
    | intro _
    | (with_reducible first | apply ite_keeps)
    | split

theorem execRingPacket_keeps (h0 : HallId) (cw : Bool) (s : State) : ∃ t, execRingPacket h0 cw s = .next t ∧ Keeps s
    t := by
  unfold execRingPacket
  refine ⟨_, rfl, ?_⟩
  try dsimp only
  repeat' first
    | (with_reducible first
        | assumption | exact Keeps.refl _ | apply netGrant_keeps | apply gateArrive_keeps | apply netPush_keeps)
    | intro _
    | (with_reducible first | apply ite_keeps)

theorem hallBroadcast_keeps {a s : State} {h1 : HallId} {p : Packet} (h : Keeps a s) : Keeps a
    (hallBroadcast s h1 p) := by
  unfold hallBroadcast
  try dsimp only
  repeat' first
    | (with_reducible first
        | assumption | exact Keeps.refl _ | apply gateQueue_keeps | apply countReset_keeps | apply emit_keeps
        | apply foldl_keeps | apply foldl_fst_keeps)
    | intro _
    | (with_reducible first | apply ite_keeps)
    | split

theorem execMeshBroadcast_keeps (h0 : HallId) (p : Packet) (s : State) : ∃ t, execMeshBroadcast h0 p s = .next t ∧
    Keeps s t := by
  unfold execMeshBroadcast
  refine ⟨_, rfl, ?_⟩
  try dsimp only
  repeat' first
    | (with_reducible first | assumption | exact Keeps.refl _ | apply hallBroadcast_keeps)
    | intro _
    | (with_reducible first | apply ite_keeps)

theorem execRingBroadcast_keeps (h0 : HallId) (mask : BitVec 12) (p : Packet) (s : State) : ∃ t, execRingBroadcast
    h0 mask p s = .next t ∧ Keeps s t := by
  unfold execRingBroadcast
  refine ⟨_, rfl, ?_⟩
  try dsimp only
  repeat' first
    | (with_reducible first
        | assumption | exact Keeps.refl _ | apply hallBroadcast_keeps | apply foldl_keeps | apply foldl_fst_keeps)
    | intro _
    | (with_reducible first | apply ite_keeps)

theorem execAgeTick_keeps (s : State) : ∃ t, execAgeTick s = .next t ∧ Keeps s t :=
  ⟨_, rfl, hallsMap_keeps (Keeps.refl s) (fun _ => rfl) fun _ h => h⟩

theorem moveWaiting_keeps {a s : State} {h1 : Nat} (h : Keeps a s) : Keeps a (moveWaiting s h1) := by
  unfold moveWaiting
  try dsimp only
  repeat' first
    | (with_reducible first
        | assumption | exact Keeps.refl _ | apply modHall_keeps | apply netPush_keeps | apply foldl_keeps
        | apply foldl_fst_keeps)
    | exact (fun _ hx i => hx i : KeepsRings _)
    | exact (fun hx i => hx i)
    | intro _

theorem reroute_keeps {a s : State} (h : Keeps a s) : Keeps a (reroute s) := by
  unfold reroute
  try dsimp only
  repeat' first
    | (with_reducible first
        | assumption | exact Keeps.refl _ | apply moveWaiting_keeps | apply modHall_keeps | apply foldl_keeps
        | apply foldl_fst_keeps)
    | exact (fun _ hx i => hx i : KeepsRings _)
    | exact (fun hx i => hx i)
    | intro _
    | (with_reducible first | apply ite_keeps)

theorem execRingReroute_keeps  (s : State) : ∃ t, execRingReroute s = .next t ∧ Keeps s t := by
  unfold execRingReroute
  refine ⟨_, rfl, ?_⟩
  try dsimp only
  repeat' first
    | (with_reducible first | assumption | exact Keeps.refl _ | apply reroute_keeps)
    | intro _
    | (with_reducible first | apply ite_keeps)

end Sys2Proof.Machine
end

