-- ==== Sys2Proof/Laws/KeepsPorts.lean ====
section
/-! SUPPORT. What the operations of Machine/Ports.lean keep of a state. -/

namespace Sys2Proof.Machine

theorem chooseAnew_keeps {a s : State} {h1 : HallId} {p : FabPacket} (h : Keeps a s) : Keeps a (chooseAnew s h1 p)
    := by
  unfold chooseAnew
  try dsimp only
  repeat' first
    | (with_reducible first | assumption | exact Keeps.refl _ | apply fabDrop_keeps | apply fabSend_keeps)
    | intro _
    | (with_reducible first | apply ite_keeps)

theorem leavePort_keeps {a s : State} {h1 : HallId} {st : PortState} (h : Keeps a s) : Keeps a (leavePort s h1 st)
    := by
  unfold leavePort
  try dsimp only
  repeat' first
    | (with_reducible first
        | assumption | exact Keeps.refl _ | apply modPort_keeps | apply publishDue_keeps | apply chooseAnew_keeps
        | apply portReport_keeps | apply foldl_keeps | apply foldl_fst_keeps)
    | intro _
    | (with_reducible first | apply ite_keeps)

theorem portDown_keeps {a s : State} {h1 : HallId} {reason : Nat} (h : Keeps a s) : Keeps a (portDown s h1 reason) := by
  unfold portDown
  try dsimp only
  repeat' first
    | (with_reducible first | assumption | exact Keeps.refl _ | apply modPort_keeps | apply leavePort_keeps)

theorem startTraining_keeps {a s : State} {h1 : HallId} (h : Keeps a s) : Keeps a (startTraining s h1) := by
  unfold startTraining
  try dsimp only
  repeat' first
    | (with_reducible first | assumption | exact Keeps.refl _ | apply modPort_keeps)

theorem portEnable_keeps {a s : State} {h1 : HallId} {en : Bool} (h : Keeps a s) : Keeps a (portEnable s h1 en) := by
  unfold portEnable
  try dsimp only
  repeat' first
    | (with_reducible first
        | assumption | exact Keeps.refl _ | apply modPort_keeps | apply portDown_keeps | apply startTraining_keeps)
    | intro _
    | (with_reducible first | apply ite_keeps)

theorem execFabPortEnable_keeps (h0 : HallId) (en : Bool) (s : State) : ∃ t, execFabPortEnable h0 en s = .next t ∧
    Keeps s t := by
  unfold execFabPortEnable
  refine ⟨_, rfl, ?_⟩
  try dsimp only
  repeat' first
    | (with_reducible first | assumption | exact Keeps.refl _ | apply hallWrite_keeps | apply portEnable_keeps)
    | intro _

theorem portRetrain_keeps {a s : State} {h1 : HallId} (h : Keeps a s) : Keeps a (portRetrain s h1) := by
  unfold portRetrain
  try dsimp only
  repeat' first
    | (with_reducible first | assumption | exact Keeps.refl _ | apply modPort_keeps | apply leavePort_keeps)
    | intro _
    | (with_reducible first | apply ite_keeps)

theorem execFabPortRetrain_keeps (h0 : HallId) (s : State) : ∃ t, execFabPortRetrain h0 s = .next t ∧ Keeps s t := by
  unfold execFabPortRetrain
  refine ⟨_, rfl, ?_⟩
  try dsimp only
  repeat' first
    | (with_reducible first | assumption | exact Keeps.refl _ | apply hallWrite_keeps | apply portRetrain_keeps)
    | intro _

theorem execFabDownRetry_keeps (h0 : HallId) (s : State) : ∃ t, execFabDownRetry h0 s = .next t ∧ Keeps s t := by
  unfold execFabDownRetry
  refine ⟨_, rfl, ?_⟩
  try dsimp only
  repeat' first
    | (with_reducible first | assumption | exact Keeps.refl _ | apply startTraining_keeps)
    | intro _
    | (with_reducible first | apply ite_keeps)

theorem execFecLock_keeps (h0 : HallId) (lanes : Nat) (s : State) : ∃ t, execFecLock h0 lanes s = .next t ∧ Keeps s t
    := by
  unfold execFecLock
  refine ⟨_, rfl, ?_⟩
  try dsimp only
  repeat' first
    | (with_reducible first | assumption | exact Keeps.refl _ | apply modPort_keeps)
    | intro _
    | (with_reducible first | apply ite_keeps)

theorem execTrainTimeout_keeps (h0 : HallId) (s : State) : ∃ t, execTrainTimeout h0 s = .next t ∧ Keeps s t := by
  unfold execTrainTimeout
  refine ⟨_, rfl, ?_⟩
  try dsimp only
  repeat' first
    | (with_reducible first | assumption | exact Keeps.refl _ | apply portDown_keeps)
    | intro _
    | (with_reducible first | apply ite_keeps)

theorem execHelloTimeout_keeps (h0 : HallId) (s : State) : ∃ t, execHelloTimeout h0 s = .next t ∧ Keeps s t := by
  unfold execHelloTimeout
  refine ⟨_, rfl, ?_⟩
  try dsimp only
  repeat' first
    | (with_reducible first | assumption | exact Keeps.refl _ | apply portDown_keeps)
    | intro _
    | (with_reducible first | apply ite_keeps)

theorem execHelloSend_keeps (h0 : HallId) (s : State) : ∃ t, execHelloSend h0 s = .next t ∧ Keeps s t := by
  unfold execHelloSend
  refine ⟨_, rfl, ?_⟩
  try dsimp only
  repeat' first
    | (with_reducible first | assumption | exact Keeps.refl _ | apply sendLink_keeps | apply modPort_keeps)
    | intro _
    | (with_reducible first | apply ite_keeps)
    | split

theorem takeEpoch_keeps {a s : State} {e1 : Word} (h : Keeps a s) : Keeps a (takeEpoch s e1) := by
  unfold takeEpoch
  try dsimp only
  repeat' first
    | (with_reducible first | assumption | exact Keeps.refl _ | apply fabIrq_keeps | apply modFab_keeps)
    | intro _
    | (with_reducible first | apply ite_keeps)

theorem checkPort_keeps {a s : State} {h1 : HallId} (h : Keeps a s) : Keeps a (checkPort s h1) := by
  unfold checkPort
  try dsimp only
  repeat' first
    | (with_reducible first
        | assumption | exact Keeps.refl _ | apply portReport_keeps | apply modPort_keeps | apply modPorter_keeps
        | apply publishDue_keeps | apply takeEpoch_keeps)
    | exact (fun _ => rfl : KeepsFuses _)
    | intro _
    | (with_reducible first | apply ite_keeps)
    | split

theorem execHello_keeps (h1 : HallId) (p : FabPacket) (s : State) : ∃ t, execHello h1 p s = .next t ∧ Keeps s t := by
  unfold execHello
  refine ⟨_, rfl, ?_⟩
  try dsimp only
  repeat' first
    | (with_reducible first
        | assumption | exact Keeps.refl _ | apply mgmtIn_keeps | apply checkPort_keeps | apply modPort_keeps)
    | intro _
    | (with_reducible first | apply ite_keeps)
    | split

theorem execPortFault_keeps (h0 : HallId) (_c : PortFaultCause) (s : State) : ∃ t, execPortFault h0 _c s = .next t ∧
    Keeps s t := by
  unfold execPortFault
  refine ⟨_, rfl, ?_⟩
  try dsimp only
  repeat' first
    | (with_reducible first | assumption | exact Keeps.refl _ | apply portRetrain_keeps)
    | intro _
    | (with_reducible first | apply ite_keeps)

theorem execLinkReplay_keeps (h0 : HallId) (linkSeq : Nat) (s : State) : ∃ t, execLinkReplay h0 linkSeq s = .next t ∧
    Keeps s t := by
  unfold execLinkReplay
  refine ⟨_, rfl, ?_⟩
  try dsimp only
  repeat' first
    | (with_reducible first
        | assumption | exact Keeps.refl _ | apply emit_keeps | apply foldl_keeps | apply foldl_fst_keeps)
    | intro _
    | (with_reducible first | apply ite_keeps)

theorem execLinkControlWord_keeps (h1 : HallId) (ackedSeq : Nat) (credits : List (Fin 24 × Nat)) (s : State) :
    ∃ t, execLinkControlWord h1 ackedSeq credits s = .next t ∧ Keeps s t := by
  unfold execLinkControlWord
  refine ⟨_, rfl, ?_⟩
  try dsimp only
  repeat' first
    | (with_reducible first
        | assumption | exact Keeps.refl _ | apply modPort_keeps | apply portDrain_keeps | apply emit_keeps
        | apply foldl_keeps | apply foldl_fst_keeps)
    | intro _
    | (with_reducible first | apply ite_keeps)

end Sys2Proof.Machine
end

