-- ==== Sys2Proof/Laws/KeepsTransfer.lean ====
section
/-! SUPPORT. What the operations of Machine/Transfer.lean keep of a state. -/

namespace Sys2Proof.Machine

theorem fabDone_keeps {a s : State} {n : Nat} {status : Nat} {result : Nat} (h : Keeps a s) : Keeps a
    (fabDone s n status result) := by
  unfold fabDone
  try dsimp only
  repeat' first
    | (with_reducible first
        | assumption | exact Keeps.refl _ | apply write_keeps | apply fabIrq_keeps | apply modFab_keeps)

theorem setFabCmd_keeps {a s : State} {n : Nat} {c : FabCmd} (h : Keeps a s) : Keeps a (State.setFabCmd s n c) := by
  unfold State.setFabCmd
  try dsimp only
  repeat' first
    | (with_reducible first | assumption | exact Keeps.refl _ | apply modFab_keeps)

theorem mgmtSend_keeps {a s : State} {n : Nat} {d : Rec64} (h : Keeps a s) : Keeps a (mgmtSend s n d) := by
  unfold mgmtSend
  try dsimp only
  repeat' first
    | (with_reducible first
        | assumption | exact Keeps.refl _ | apply fabDone_keeps | apply setFabCmd_keeps | apply modFab_keeps
        | apply steer_keeps | apply sendTable_keeps)
    | intro _
    | (with_reducible first | apply ite_keeps)

theorem openDevice_keeps {a s : State} {h1 : Nat} {src : Nat} {stream : Nat} (h : Keeps a s) : Keeps a
    (openDevice s h1 src stream) := by
  unfold openDevice
  try dsimp only
  repeat' first
    | (with_reducible first | assumption | exact Keeps.refl _ | apply setRx_keeps)
    | intro _
    | (with_reducible first | apply ite_keeps)

theorem closeDevice_keeps {a s : State} {h1 : Nat} {kind : Nat} {node : Nat} {stream : Nat} (h : Keeps a s) :
    Keeps a (closeDevice s h1 kind node stream) := by
  unfold closeDevice
  try dsimp only
  repeat' first
    | (with_reducible first | assumption | exact Keeps.refl _ | apply setRx_keeps)
    | intro _
    | (with_reducible first | apply ite_keeps)

theorem sendPass_keeps {a s : State} {v : Nat} {i : Nat} (h : Keeps a s) : Keeps a (sendPass s v i) := by
  unfold sendPass
  try dsimp only
  repeat' first
    | (with_reducible first | assumption | exact Keeps.refl _ | apply tierPass_keeps)
    | intro _
    | (with_reducible first | apply ite_keeps)

theorem pumpSend_keeps {a s : State} {n k : Nat} {g : HallId} (h : Keeps a s) : Keeps a (pumpSend n s g k) := by
  induction n generalizing s with
  | zero => exact h
  | succ n ih =>
    unfold pumpSend
    split
    · exact h
    · dsimp only
      split
      · exact ih (setFabCmd_keeps (txData_keeps (sendPass_keeps h)))
      · exact h

theorem pumpSends_keeps {a s : State} {h1 : HallId} (h : Keeps a s) : Keeps a (pumpSends s h1) := by
  unfold pumpSends
  try dsimp only
  repeat' first
    | (with_reducible first
        | assumption | exact Keeps.refl _ | apply pumpSend_keeps | apply foldl_keeps | apply foldl_fst_keeps)
    | intro _

theorem releaseXfer_keeps {a s : State} {v : Nat} (h : Keeps a s) : Keeps a (releaseXfer s v) := by
  unfold releaseXfer
  try dsimp only
  repeat' first
    | (with_reducible first | assumption | exact Keeps.refl _ | apply modJob_keeps)

theorem startSend_keeps {a s : State} {n : Nat} {d : Rec64} (h : Keeps a s) : Keeps a (startSend s n d) := by
  unfold startSend
  try dsimp only
  repeat' first
    | (with_reducible first
        | assumption | exact Keeps.refl _ | apply openDevice_keeps | apply modJob_keeps | apply setFabCmd_keeps
        | apply pumpSend_keeps)

theorem endSend_keeps {a s : State} {n : Nat} {c : FabCmd} {status : Nat} {result : Nat} (h : Keeps a s) : Keeps a
    (endSend s n c status result) := by
  unfold endSend
  try dsimp only
  repeat' first
    | (with_reducible first
        | assumption | exact Keeps.refl _ | apply closeDevice_keeps | apply fabDone_keeps
        | apply releaseXfer_keeps)

theorem sendGaveUp_keeps {a s : State} {h1 : HallId} {k : Nat} (h : Keeps a s) : Keeps a (sendGaveUp s h1 k) := by
  unfold sendGaveUp
  try dsimp only
  repeat' first
    | (with_reducible first
        | assumption | exact Keeps.refl _ | apply endSend_keeps | apply foldl_keeps | apply foldl_fst_keeps)
    | intro _
    | (with_reducible first | apply ite_keeps)

theorem takeAnswer_keeps {a s : State} {from_ : Nat} {b : List Byte} (h : Keeps a s) : Keeps a (takeAnswer s from_ b)
    := by
  unfold takeAnswer
  try dsimp only
  repeat' first
    | (with_reducible first | assumption | exact Keeps.refl _ | apply endSend_keeps)
    | intro _
    | (with_reducible first | apply ite_keeps)
    | split

theorem deviceData_keeps {a s : State} {h1 : Nat} {k : Nat} (h : Keeps a s) : Keeps a (deviceData s h1 k) := by
  unfold deviceData
  try dsimp only
  repeat' first
    | (with_reducible first
        | assumption | exact Keeps.refl _ | apply setRx_keeps | apply takeAnswer_keeps | apply foldl_keeps
        | apply foldl_fst_keeps)
    | intro _
    | (with_reducible first | apply ite_keeps)

theorem sendAnswer_keeps {a s : State} {h1 : HallId} {node : Nat} {status : Nat} {src : Nat} {dst : Nat} {count : Nat}
    (h : Keeps a s) : Keeps a (sendAnswer s h1 node status src dst count) := by
  unfold sendAnswer
  try dsimp only
  repeat' first
    | (with_reducible first | assumption | exact Keeps.refl _ | apply txData_keeps)

theorem startAccept_keeps {a s : State} {n : Nat} {d : Rec64} (h : Keeps a s) : Keeps a (startAccept s n d) := by
  unfold startAccept
  try dsimp only
  repeat' first
    | (with_reducible first
        | assumption | exact Keeps.refl _ | apply openDevice_keeps | apply modJob_keeps | apply setFabCmd_keeps)

theorem clearTransfer_keeps {a s : State} {c : FabCmd} (h : Keeps a s) : Keeps a (clearTransfer s c) := by
  unfold clearTransfer
  try dsimp only
  repeat' first
    | (with_reducible first
        | assumption | exact Keeps.refl _ | apply setShadow_keeps | apply setLeaf_keeps | apply freeEntry_keeps
        | apply recount_keeps | apply foldl_keeps | apply foldl_fst_keeps)
    | intro _
    | (with_reducible first | apply ite_keeps)
    | split
    | (with_reducible first | apply other_keeps)

theorem failAccept_keeps {a s : State} {n : Nat} {c : FabCmd} {status : Nat} {tell : Bool} (h : Keeps a s) : Keeps a
    (failAccept s n c status tell) := by
  unfold failAccept
  try dsimp only
  repeat' first
    | (with_reducible first
        | assumption | exact Keeps.refl _ | apply closeDevice_keeps | apply fabDone_keeps
        | apply releaseXfer_keeps | apply clearTransfer_keeps | apply sendAnswer_keeps)
    | intro _
    | (with_reducible first | apply ite_keeps)

theorem finishAccept_keeps {a s : State} {n : Nat} {c : FabCmd} {pre : Word × Word × Nat × Nat} (h : Keeps a s) :
    Keeps a (finishAccept s n c pre) := by
  unfold finishAccept
  try dsimp only
  repeat' first
    | (with_reducible first
        | assumption | exact Keeps.refl _ | apply recount_keeps | apply sgenUp_keeps | apply modVol_keeps
        | apply closeDevice_keeps | apply fabDone_keeps | apply releaseXfer_keeps | apply sendAnswer_keeps)

theorem reserveRuns_keeps {a s t : State} {n k : Nat} {l r : List Nat} (e : reserveRuns n k s l = some (t, r))
    (h : Keeps a s) : Keeps a t := by
  induction k generalizing s l with
  | zero => cases e; exact h
  | succ k ih =>
    unfold reserveRuns at e
    split at e
    · cases e
    · exact ih e (other_keeps h)

theorem execVolTransferPreamble_keeps (p : XferPreamble) (s : State) : ∃ t, execVolTransferPreamble p s = .next t ∧
    Keeps s t := by
  unfold execVolTransferPreamble
  refine ⟨_, rfl, ?_⟩
  try dsimp only
  repeat' first
    | (with_reducible first | assumption | exact Keeps.refl _ | apply sendAnswer_keeps | apply failAccept_keeps)
    | refine reserveRuns_keeps (by assumption) ?_
    | (with_reducible first | apply finishAccept_keeps | apply setFabCmd_keeps)
    | intro _
    | (with_reducible first | apply ite_keeps)
    | split

theorem placeLeaf_keeps {a s : State} {v : Nat} {idx : Nat} {fill : Nat} {g : Nat} {bytes : List Byte} {poison
    : Bool} (h : Keeps a s) : Keeps a (placeLeaf s v idx fill g bytes poison) := by
  unfold placeLeaf
  try dsimp only
  repeat' first
    | (with_reducible first
        | assumption | exact Keeps.refl _ | apply tierPass_keeps | apply write_keeps | apply setLeaf_keeps
        | apply setShadow_keeps | apply sgenUp_keeps)

theorem execVolTransferLeaf_keeps (v : VolId) (idx : Nat) (fill : Nat) (bytes : List Byte) (poison : Bool) (s : State) :
    ∃ t, execVolTransferLeaf v idx fill bytes poison s = .next t ∧ Keeps s t := by
  unfold execVolTransferLeaf
  refine ⟨_, rfl, ?_⟩
  try dsimp only
  repeat' first
    | (with_reducible first | assumption | exact Keeps.refl _)
    | refine ensurePair_keeps (by assumption) ?_
    | (with_reducible first
        | apply failAccept_keeps | apply placeLeaf_keeps | apply finishAccept_keeps | apply setFabCmd_keeps)
    | intro _
    | (with_reducible first | apply ite_keeps)
    | split

theorem execVolAcceptTimeout_keeps (slot : FabSlot) (s : State) : ∃ t, execVolAcceptTimeout slot s = .next t ∧ Keeps
    s t := by
  unfold execVolAcceptTimeout
  refine ⟨_, rfl, ?_⟩
  try dsimp only
  repeat' first
    | (with_reducible first | assumption | exact Keeps.refl _ | apply failAccept_keeps)
    | intro _
    | (with_reducible first | apply ite_keeps)
    | split

theorem volCommand_keeps {a s : State} {n : Nat} {d : Rec64} (h : Keeps a s) : Keeps a (volCommand s n d) := by
  unfold volCommand
  try dsimp only
  repeat' first
    | (with_reducible first
        | assumption | exact Keeps.refl _ | apply fabDone_keeps | apply setFabCmd_keeps | apply faultVolume_keeps
        | apply startSend_keeps | apply startAccept_keeps)
    | intro _
    | (with_reducible first | apply ite_keeps)

theorem fabDoorbell_keeps {a s : State} {n : Nat} (h : Keeps a s) : Keeps a (fabDoorbell s n) := by
  unfold fabDoorbell
  try dsimp only
  repeat' first
    | (with_reducible first
        | assumption | exact Keeps.refl _ | apply volCommand_keeps | apply modFab_keeps | apply fabDone_keeps
        | apply mgmtSend_keeps)
    | intro _
    | (with_reducible first | apply ite_keeps)
    | split

theorem fabStart_keeps {a s : State} {slot : FabSlot} {code : Nat} (h : Keeps a s) : Keeps a (fabStart s slot code) :=
    by
  unfold fabStart
  try dsimp only
  repeat' first
    | (with_reducible first | assumption | exact Keeps.refl _ | apply fabDoorbell_keeps)
    | intro _
    | (with_reducible first | apply ite_keeps)

theorem execVolSend_keeps (slot : FabSlot) (s : State) : ∃ t, execVolSend slot s = .next t ∧ Keeps s t := by
  unfold execVolSend
  refine ⟨_, rfl, ?_⟩
  try dsimp only
  repeat' first
    | (with_reducible first | assumption | exact Keeps.refl _ | apply fabStart_keeps)

theorem execVolAccept_keeps (slot : FabSlot) (s : State) : ∃ t, execVolAccept slot s = .next t ∧ Keeps s t := by
  unfold execVolAccept
  refine ⟨_, rfl, ?_⟩
  try dsimp only
  repeat' first
    | (with_reducible first | assumption | exact Keeps.refl _ | apply fabStart_keeps)

theorem execMgmtSend_keeps (slot : FabSlot) (s : State) : ∃ t, execMgmtSend slot s = .next t ∧ Keeps s t := by
  unfold execMgmtSend
  refine ⟨_, rfl, ?_⟩
  try dsimp only
  repeat' first
    | (with_reducible first | assumption | exact Keeps.refl _ | apply fabStart_keeps)

theorem execMgmtSendTimeout_keeps (slot : FabSlot) (s : State) : ∃ t, execMgmtSendTimeout slot s = .next t ∧ Keeps s
    t := by
  unfold execMgmtSendTimeout
  refine ⟨_, rfl, ?_⟩
  try dsimp only
  repeat' first
    | (with_reducible first | assumption | exact Keeps.refl _ | apply fabDone_keeps)
    | intro _
    | (with_reducible first | apply ite_keeps)
    | split

theorem execMgmtReply_keeps (h1 : HallId) (p : FabPacket) (s : State) : ∃ t, execMgmtReply h1 p s = .next t ∧
    Keeps s t := by
  unfold execMgmtReply
  refine ⟨_, rfl, ?_⟩
  try dsimp only
  repeat' first
    | (with_reducible first
        | assumption | exact Keeps.refl _ | apply mgmtIn_keeps | apply fabDone_keeps | apply write_keeps)
    | intro _
    | (with_reducible first | apply ite_keeps)
    | split

end Sys2Proof.Machine
end

