-- ==== Sys2Proof/Laws/KeepsNearMem.lean ====
section
/-! SUPPORT. What the operations of Machine/NearMem.lean keep of a state. -/

namespace Sys2Proof.Machine

theorem moveRows_keeps {a s : State} {src : Region} {sa : Nat} {sstride : Nat} {dst : Region} {da : Nat} {dstride : Nat}
    {rows : Nat} {len : Nat} (h : Keeps a s) : Keeps a (moveRows s src sa sstride dst da dstride rows len).1 := by
  unfold moveRows
  try dsimp only
  repeat' first
    | (with_reducible first
        | assumption | exact Keeps.refl _ | apply write_keeps | apply poisonRange_keeps | apply foldl_keeps
        | apply foldl_fst_keeps)
    | intro _
    | (with_reducible first | apply ite_keeps)

theorem moveRows_keeps' {a s t : State} {src : Region} {sa : Nat} {sstride : Nat} {dst : Region} {da : Nat} {dstride : Nat}
    {rows : Nat} {len : Nat} {y : Bool} (e : moveRows s src sa sstride dst da dstride rows len = (t, y)) (h : Keeps a s)
    : Keeps a t := by
  have k : Keeps a (moveRows s src sa sstride dst da dstride rows len).1 := moveRows_keeps h 
  rw [e] at k
  exact k

theorem touchBanks_keeps {a s : State} {h1 : Nat} {sw : Nat} {a3 : Nat} {n : Nat} (h : Keeps a s) : Keeps a
    (touchBanks s h1 sw a3 n) := by
  unfold touchBanks
  try dsimp only
  repeat' first
    | (with_reducible first | assumption | exact Keeps.refl _ | apply modStair_keeps)

theorem nearPath_keeps {a s : State} {h1 : Nat} {sw : Nat} {q : Nat} {kind : Nat} (h : Keeps a s) : Keeps a
    (nearPath s h1 sw q kind) := by
  unfold nearPath
  try dsimp only
  repeat' first
    | (with_reducible first
        | assumption | exact Keeps.refl _ | apply settle_keeps | apply strandFail_keeps | apply moveRows_keeps)
    | refine moveRows_keeps' (by assumption) ?_
    | (with_reducible first | apply touchBanks_keeps | apply notePoison_keeps | apply strandDone_keeps)
    | intro _
    | (with_reducible first | apply ite_keeps)
    | split

theorem execFetch_keeps (h0 : HallId) (sw : SwId) (q : QueueId) (s : State) : ∃ t, execFetch h0 sw q s = .next t ∧
    Keeps s t := by
  unfold execFetch
  refine ⟨_, rfl, ?_⟩
  try dsimp only
  repeat' first
    | (with_reducible first | assumption | exact Keeps.refl _ | apply nearPath_keeps)

theorem execStore_keeps (h0 : HallId) (sw : SwId) (q : QueueId) (s : State) : ∃ t, execStore h0 sw q s = .next t ∧
    Keeps s t := by
  unfold execStore
  refine ⟨_, rfl, ?_⟩
  try dsimp only
  repeat' first
    | (with_reducible first | assumption | exact Keeps.refl _ | apply nearPath_keeps)

theorem execNearLineRequest_keeps (h0 : HallId) (sw : SwId) (r : LineReq) (s : State) : ∃ t, execNearLineRequest h0
    sw r s = .next t ∧ Keeps s t := by
  unfold execNearLineRequest
  refine ⟨_, rfl, ?_⟩
  try dsimp only
  repeat' first
    | (with_reducible first
        | assumption | exact Keeps.refl _ | apply emit_keeps | apply touchBanks_keeps | apply write_keeps
        | apply logEvent_keeps | apply logError_keeps)
    | intro _
    | (with_reducible first | apply ite_keeps)
    | split

theorem layoutWrite_keeps {a s : State} {h1 : HallId} {w : Word} (h : Keeps a s) : Keeps a (layoutWrite s h1 w) := by
  unfold layoutWrite
  try dsimp only
  repeat' first
    | (with_reducible first | assumption | exact Keeps.refl _ | apply modStair_keeps | apply setStair_keeps)
    | intro _
    | (with_reducible first | apply ite_keeps)

theorem execLayoutApply_keeps (h0 : HallId) (w : Word) (s : State) : ∃ t, execLayoutApply h0 w s = .next t ∧ Keeps s
    t := by
  unfold execLayoutApply
  refine ⟨_, rfl, ?_⟩
  try dsimp only
  repeat' first
    | (with_reducible first | assumption | exact Keeps.refl _ | apply hallWrite_keeps | apply layoutWrite_keeps)
    | intro _

theorem execLayoutReinitDone_keeps (h0 : HallId) (sw : SwId) (s : State) : ∃ t, execLayoutReinitDone h0 sw s = .next
    t ∧ Keeps s t := by
  unfold execLayoutReinitDone
  refine ⟨_, rfl, ?_⟩
  try dsimp only
  repeat' first
    | (with_reducible first | assumption | exact Keeps.refl _ | apply setStair_keeps)
    | intro _
    | (with_reducible first | apply ite_keeps)
    | split
    | (with_reducible first | apply memFilter_keeps)

theorem scrubRegs_keeps {a s : State} {h1 : Nat} (h : Keeps a s) : Keeps a (scrubRegs s h1) := by
  unfold scrubRegs
  try dsimp only
  repeat' first
    | (with_reducible first | assumption | exact Keeps.refl _ | apply modRegs_keeps)

theorem execScrubStep_keeps (h0 : HallId) (sw : SwId) (s : State) : ∃ t, execScrubStep h0 sw s = .next t ∧ Keeps s t
    := by
  unfold execScrubStep
  refine ⟨_, rfl, ?_⟩
  try dsimp only
  repeat' first
    | (with_reducible first
        | assumption | exact Keeps.refl _ | apply setPoison_keeps | apply scrubRegs_keeps | apply setStair_keeps)
    | intro _
    | (with_reducible first | apply ite_keeps)

theorem execParkScrubStep_keeps (ctl : Fin 12) (s : State) : ∃ t, execParkScrubStep ctl s = .next t ∧ Keeps s t := by
  unfold execParkScrubStep
  refine ⟨_, rfl, ?_⟩
  try dsimp only
  repeat' first
    | (with_reducible first | assumption | exact Keeps.refl _ | apply modHost_keeps)
    | intro _
    | (with_reducible first | apply ite_keeps)

end Sys2Proof.Machine
end

