-- ==== Sys2Proof/Laws/KeepsDma.lean ====
section
/-! SUPPORT. What the operations of Machine/Dma.lean keep of a state. -/

namespace Sys2Proof.Machine

theorem execDmaStart_keeps (c : Nat) (s : State) : ∃ t, execDmaStart c s = .next t ∧ Keeps s t := by
  unfold execDmaStart
  refine ⟨_, rfl, ?_⟩
  try dsimp only
  repeat' first
    | (with_reducible first
        | assumption | exact Keeps.refl _ | apply withClaim_keeps | apply complete_keeps | apply setStage_keeps
        | apply setChan_keeps)
    | intro _
    | (with_reducible first | apply ite_keeps)
    | split

theorem execDmaStop_keeps (c : Nat) (s : State) : ∃ t, execDmaStop c s = .next t ∧ Keeps s t := by
  unfold execDmaStop
  refine ⟨_, rfl, ?_⟩
  try dsimp only
  repeat' first
    | (with_reducible first
        | assumption | exact Keeps.refl _ | apply withClaim_keeps | apply complete_keeps | apply setStage_keeps
        | apply setChan_keeps | apply stopChannel_keeps)
    | intro _
    | (with_reducible first | apply ite_keeps)
    | split

theorem dmaChCfg_keeps {a s : State} {h1 : HallId} {w : Word} (h : Keeps a s) : Keeps a (dmaChCfg s h1 w) := by
  unfold dmaChCfg
  try dsimp only
  repeat' first
    | (with_reducible first | assumption | exact Keeps.refl _ | apply setChan_keeps)
    | intro _
    | (with_reducible first | apply ite_keeps)

theorem execDmaChCfgWrite_keeps (h0 : HallId) (w : Word) (s : State) : ∃ t, execDmaChCfgWrite h0 w s = .next t ∧
    Keeps s t := by
  unfold execDmaChCfgWrite
  refine ⟨_, rfl, ?_⟩
  try dsimp only
  repeat' first
    | (with_reducible first | assumption | exact Keeps.refl _ | apply hallWrite_keeps | apply dmaChCfg_keeps)
    | intro _

theorem chanBackoff_keeps {a s : State} {h1 : HallId} {ch : ChId} {g : Nat} (h : Keeps a s) : Keeps a
    (chanBackoff s h1 ch g) := by
  unfold chanBackoff
  try dsimp only
  repeat' first
    | (with_reducible first | assumption | exact Keeps.refl _ | apply noteReset_keeps | apply setChan_keeps)

theorem beginMove_keeps {a s : State} {h1 : HallId} {ch : ChId} {d : Rec32} {k : Chan} (h : Keeps a s) : Keeps a
    (beginMove s h1 ch d k) := by
  unfold beginMove
  try dsimp only
  repeat' first
    | (with_reducible first
        | assumption | exact Keeps.refl _ | apply stopChannel_keeps | apply setChan_keeps
        | apply chanBackoff_keeps)
    | intro _
    | split

theorem beginSet_keeps {a s : State} {h1 : HallId} {ch : ChId} {x : Chan} (h : Keeps a s) : Keeps a
    (beginSet s h1 ch x) := by
  unfold beginSet
  try dsimp only
  repeat' first
    | (with_reducible first | assumption | exact Keeps.refl _ | apply beginMove_keeps)
    | intro _
    | (with_reducible first | apply ite_keeps)
    | split

theorem nextMove_keeps {a s : State} {h1 : HallId} {ch : ChId} (h : Keeps a s) : Keeps a (nextMove s h1 ch) := by
  unfold nextMove
  try dsimp only
  repeat' first
    | (with_reducible first | assumption | exact Keeps.refl _ | apply beginSet_keeps | apply beginMove_keeps)
    | intro _
    | (with_reducible first | apply ite_keeps)
    | split

theorem execDmaMove_keeps (h1 : HallId) (ch : ChId) (s : State) : ∃ t, execDmaMove h1 ch s = .next t ∧ Keeps s t := by
  unfold execDmaMove
  refine ⟨_, rfl, ?_⟩
  try dsimp only
  repeat' first
    | (with_reducible first | assumption | exact Keeps.refl _ | apply nextMove_keeps)

theorem execDmaLoop_keeps (h0 : HallId) (ch : ChId) (s : State) : ∃ t, execDmaLoop h0 ch s = .next t ∧ Keeps s t := by
  unfold execDmaLoop
  refine ⟨_, rfl, ?_⟩
  try dsimp only
  repeat' first
    | (with_reducible first | assumption | exact Keeps.refl _ | apply setChan_keeps)
    | intro _
    | (with_reducible first | apply ite_keeps)
    | split

theorem execDmaWait_keeps (h0 : HallId) (ch : ChId) (s : State) : ∃ t, execDmaWait h0 ch s = .next t ∧ Keeps s t := by
  unfold execDmaWait
  refine ⟨_, rfl, ?_⟩
  try dsimp only
  repeat' first
    | (with_reducible first
        | assumption | exact Keeps.refl _ | apply setChan_keeps | apply settle_keeps | apply claspRequest_keeps)
    | intro _
    | (with_reducible first | apply ite_keeps)
    | split

theorem drained_keeps {a s : State} {h1 : HallId} {ch : ChId} (h : Keeps a s) : Keeps a (drained s h1 ch) := by
  unfold drained
  try dsimp only
  repeat' first
    | (with_reducible first
        | assumption | exact Keeps.refl _ | apply settle_keeps | apply claspRequest_keeps | apply setChan_keeps
        | apply dmaRecord_keeps)
    | intro _
    | (with_reducible first | apply ite_keeps)
    | split

theorem startDrain_keeps {a s : State} {h1 : HallId} {ch : ChId} {code : Nat} (h : Keeps a s) : Keeps a
    (startDrain s h1 ch code) := by
  unfold startDrain
  try dsimp only
  repeat' first
    | (with_reducible first | assumption | exact Keeps.refl _ | apply drained_keeps | apply setChan_keeps)
    | intro _
    | (with_reducible first | apply ite_keeps)
    | split

theorem execDmaSignal_keeps (h0 : HallId) (ch : ChId) (s : State) : ∃ t, execDmaSignal h0 ch s = .next t ∧ Keeps s t
    := by
  unfold execDmaSignal
  refine ⟨_, rfl, ?_⟩
  try dsimp only
  repeat' first
    | (with_reducible first | assumption | exact Keeps.refl _ | apply startDrain_keeps)

theorem execDmaEnd_keeps (h0 : HallId) (ch : ChId) (s : State) : ∃ t, execDmaEnd h0 ch s = .next t ∧ Keeps s t := by
  unfold execDmaEnd
  refine ⟨_, rfl, ?_⟩
  try dsimp only
  repeat' first
    | (with_reducible first | assumption | exact Keeps.refl _ | apply startDrain_keeps)

theorem rxTake_keeps {a s : State} {h1 : Nat} {i : Nat} {n : Nat} (h : Keeps a s) : Keeps a (rxTake s h1 i n).1 := by
  unfold rxTake
  try dsimp only
  repeat' first
    | (with_reducible first | assumption | exact Keeps.refl _ | apply setRx_keeps)
    | intro _
    | (with_reducible first | apply ite_keeps)
    | split

theorem rxTake_keeps' {a s t : State} {h1 : Nat} {i : Nat} {n : Nat} {y : List Byte × Bool} (e : rxTake s h1 i n = (t, y))
    (h : Keeps a s) : Keeps a t := by
  have k : Keeps a (rxTake s h1 i n).1 := rxTake_keeps h 
  rw [e] at k
  exact k

theorem sidePass_keeps {a s : State} {h1 : Nat} {sp : Nat} {a1 : Nat} {n : Nat} {hint : Hint} {write : Bool} (h :
    Keeps a s) : Keeps a (sidePass s h1 sp a1 n hint write) := by
  unfold sidePass
  try dsimp only
  repeat' first
    | (with_reducible first | assumption | exact Keeps.refl _ | apply tierPass_keeps | apply hostPass_keeps)
    | intro _
    | (with_reducible first | apply ite_keeps)
    | split

theorem burstMove_keeps {a s : State} {h1 : HallId} {ch : ChId} {r : MoveRun} {src : Nat} {dst : Nat} {n : Nat} (h :
    Keeps a s) : Keeps a (burstMove s h1 ch r src dst n) := by
  unfold burstMove
  try dsimp only
  repeat' first
    | (with_reducible first
        | assumption | exact Keeps.refl _ | apply sidePass_keeps | apply rxTake_keeps | apply write_keeps
        | apply txData_keeps | apply copyBeats_keeps)
    | refine rxTake_keeps' (by assumption) ?_
    | intro _
    | (with_reducible first | apply ite_keeps)

theorem burstOne_keeps {a s : State} {h1 : HallId} {ch : ChId} (h : Keeps a s) : Keeps a (burstOne s h1 ch) := by
  unfold burstOne
  try dsimp only
  repeat' first
    | (with_reducible first
        | assumption | exact Keeps.refl _ | apply stopChannel_keeps | apply chanBackoff_keeps
        | apply burstMove_keeps | apply setChan_keeps)
    | intro _
    | (with_reducible first | apply ite_keeps)
    | split

theorem execDmaBurst_keeps (h1 : HallId) (s : State) : ∃ t, execDmaBurst h1 s = .next t ∧ Keeps s t := by
  unfold execDmaBurst
  refine ⟨_, rfl, ?_⟩
  split
  · exact Keeps.refl s
  · split
    · exact Keeps.refl s
    · refine burstOne_keeps (modHall_keeps (Keeps.refl s) fun x hx => ?_)
      split <;> exact hx

theorem chanRepresent_keeps {a s : State} {h1 : HallId} {ch : ChId} (h : Keeps a s) : Keeps a
    (chanRepresent s h1 ch) := by
  unfold chanRepresent
  try dsimp only
  repeat' first
    | (with_reducible first
        | assumption | exact Keeps.refl _ | apply setChan_keeps | apply nextMove_keeps | apply burstOne_keeps)
    | intro _
    | (with_reducible first | apply ite_keeps)
    | split

theorem shadowDone_keeps {a s : State} {h1 : HallId} {ch : ChId} {x : Chan} {r : MoveRun} (h : Keeps a s) : Keeps a
    (shadowDone s h1 ch x r) := by
  unfold shadowDone
  try dsimp only
  repeat' first
    | (with_reducible first | assumption | exact Keeps.refl _ | apply dmaRecord_keeps | apply setChan_keeps)
    | intro _
    | (with_reducible first | apply ite_keeps)

theorem execDmaWritesAnswered_keeps (h0 : HallId) (ch : ChId) (s : State) : ∃ t, execDmaWritesAnswered h0 ch s =
    .next t ∧ Keeps s t := by
  unfold execDmaWritesAnswered
  refine ⟨_, rfl, ?_⟩
  try dsimp only
  repeat' first
    | (with_reducible first
        | assumption | exact Keeps.refl _ | apply shadowDone_keeps | apply drained_keeps | apply setChan_keeps)
    | intro _
    | (with_reducible first | apply ite_keeps)
    | split

end Sys2Proof.Machine
end

