-- ==== Sys2Proof/Laws/KeepsVestibule.lean ====
section
/-! SUPPORT. What the operations of Machine/Vestibule.lean keep of a state. -/

namespace Sys2Proof.Machine

theorem execVestAccess_keeps (h1 : HallId) (r : VestReq) (s : State) : ∃ t, execVestAccess h1 r s = .next t ∧
    Keeps s t := by
  unfold execVestAccess
  refine ⟨_, rfl, ?_⟩
  try dsimp only
  repeat' first
    | (with_reducible first
        | assumption | exact Keeps.refl _ | apply write_keeps | apply tierPass_keeps | apply emit_keeps
        | apply tierWrite_keeps)
    | intro _
    | (with_reducible first | apply ite_keeps)
    | split

theorem execVestRecall_keeps (space : TierSpace) (unit : Nat) (by_ : Option HallId) (write : Bool) (whole : Bool)
    (s : State) : ∃ t, execVestRecall space unit by_ write whole s = .next t ∧ Keeps s t := by
  unfold execVestRecall
  refine ⟨_, rfl, ?_⟩
  try dsimp only
  repeat' first
    | (with_reducible first | assumption | exact Keeps.refl _ | apply vestOthers_keeps)

theorem vestEvict_keeps {a s : State} {h1 : Nat} {sel : Nat → Bool} (h : Keeps a s) : Keeps a (vestEvict s h1 sel) := by
  unfold vestEvict
  try dsimp only
  repeat' first
    | (with_reducible first
        | assumption | exact Keeps.refl _ | apply vestDrop_keeps | apply foldl_keeps | apply foldl_fst_keeps)
    | intro _

theorem startMaint_keeps {a s : State} {h1 : Nat} {op : Nat} {run : State → State} (h : Keeps a s)
    (hrun : ∀ u0, Keeps a u0 → Keeps a (run u0)) : Keeps a (startMaint s h1 op run) := by
  unfold startMaint
  try dsimp only
  repeat' first
    | (with_reducible first | assumption | exact Keeps.refl _ | apply modRegs_keeps | apply hrun)
    | intro _
    | (with_reducible first | apply ite_keeps)

theorem evictRange_keeps {a s : State} {h1 : Nat} (h : Keeps a s) : Keeps a (evictRange s h1) := by
  unfold evictRange
  try dsimp only
  repeat' first
    | (with_reducible first | assumption | exact Keeps.refl _ | apply startMaint_keeps | apply vestEvict_keeps)
    | intro _

theorem unkeepRange_keeps {a s : State} {h1 : Nat} (h : Keeps a s) : Keeps a (unkeepRange s h1) := by
  unfold unkeepRange
  try dsimp only
  repeat' first
    | (with_reducible first | assumption | exact Keeps.refl _ | apply startMaint_keeps | apply modHall_keeps)
    | exact (fun _ hx i => hx i : KeepsRings _)
    | exact (fun hx i => hx i)
    | intro _

theorem execEvict_keeps (h0 : HallId) (s : State) : ∃ t, execEvict h0 s = .next t ∧ Keeps s t := by
  unfold execEvict
  refine ⟨_, rfl, ?_⟩
  try dsimp only
  repeat' first
    | (with_reducible first | assumption | exact Keeps.refl _ | apply hallWrite_keeps | apply evictRange_keeps)
    | intro _

theorem execUnkeep_keeps (h0 : HallId) (s : State) : ∃ t, execUnkeep h0 s = .next t ∧ Keeps s t := by
  unfold execUnkeep
  refine ⟨_, rfl, ?_⟩
  try dsimp only
  repeat' first
    | (with_reducible first | assumption | exact Keeps.refl _ | apply hallWrite_keeps | apply unkeepRange_keeps)
    | intro _

theorem execVestMaintDone_keeps (h0 : HallId) (s : State) : ∃ t, execVestMaintDone h0 s = .next t ∧ Keeps s t := by
  unfold execVestMaintDone
  refine ⟨_, rfl, ?_⟩
  try dsimp only
  repeat' first
    | (with_reducible first | assumption | exact Keeps.refl _ | apply modRegs_keeps)
    | intro _
    | (with_reducible first | apply ite_keeps)

end Sys2Proof.Machine
end

