-- ==== Sys2Proof/Laws/KeepsFenceOps.lean ====
section
/-! SUPPORT. What the operations of Machine/FenceOps.lean keep of a state. -/

namespace Sys2Proof.Machine

theorem freeLanding_keeps {a s : State} {h1 : Nat} {sw : Nat} {l : Nat} (h : Keeps a s) : Keeps a (freeLanding s h1 sw l)
    := by
  unfold freeLanding
  try dsimp only
  repeat' first
    | (with_reducible first
        | assumption | exact Keeps.refl _ | apply freeBytes_keeps | apply foldl_keeps | apply foldl_fst_keeps)
    | intro _
    | (with_reducible first | apply ite_keeps)
    | split

theorem markLost_keeps {a s : State} {h1 : Nat} {sw : Nat} {gone : Bool} (h : Keeps a s) : Keeps a
    (markLost s h1 sw gone) := by
  unfold markLost
  try dsimp only
  repeat' first
    | (with_reducible first | assumption | exact Keeps.refl _)
    | intro _
    | (with_reducible first | apply ite_keeps)
    | split
    | (with_reducible first | apply other_keeps)

theorem zeroSram_keeps {a s : State} {h1 : Nat} {sw : Nat} (h : Keeps a s) : Keeps a (zeroSram s h1 sw) := by
  unfold zeroSram
  try dsimp only
  repeat' first
    | (with_reducible first | assumption | exact Keeps.refl _)
    | intro _
    | (with_reducible first | apply ite_keeps)
    | split
    | (with_reducible first | apply memFilter_keeps)

theorem stopStair_keeps {a s : State} {h1 : HallId} {sw : Nat} {gone : Bool} {zero : Bool} (h : Keeps a s) : Keeps a
    (stopStair s h1 sw gone zero) := by
  unfold stopStair
  try dsimp only
  repeat' first
    | (with_reducible first
        | assumption | exact Keeps.refl _ | apply markLost_keeps | apply withdraw_keeps | apply freeLanding_keeps
        | apply modLanding_keeps | apply modStair_keeps | apply netForget_keeps | apply zeroSram_keeps
        | apply foldl_keeps | apply foldl_fst_keeps)
    | intro _
    | (with_reducible first | apply ite_keeps)

theorem softAdd_keeps {a s : State} {kind : Nat} {h1 : Nat} {unit : Nat} {cause : Nat} (h : Keeps a s) : Keeps a
    (softAdd s kind h1 unit cause) := by
  unfold softAdd
  try dsimp only
  repeat' first
    | (with_reducible first | assumption | exact Keeps.refl _ | apply modPorter_keeps | apply replaceCause_keeps)
    | exact (fun _ => rfl : KeepsFuses _)
    | intro _
    | (with_reducible first | apply ite_keeps)

theorem softEnter_keeps {a s : State} {kind : Nat} {h2 : Nat} {unit : Nat} (h : Keeps a s) : Keeps a
    (softEnter s kind h2 unit) := by
  unfold softEnter
  try dsimp only
  repeat' first
    | (with_reducible first | assumption | exact Keeps.refl _ | apply softAdd_keeps)

theorem fenceRecord_keeps {a s : State} {h1 : Nat} {unit : Nat} (h : Keeps a s) : Keeps a (fenceRecord s h1 unit) := by
  unfold fenceRecord
  try dsimp only
  repeat' first
    | (with_reducible first | assumption | exact Keeps.refl _ | apply logError_keeps)

theorem searchOrphan_keeps {a s : State} {h1 : Nat} {p : Nat} (h : Keeps a s) : Keeps a (searchOrphan s h1 p) := by
  unfold searchOrphan
  try dsimp only
  repeat' first
    | (with_reducible first | assumption | exact Keeps.refl _ | apply setStair_keeps)
    | intro _
    | (with_reducible first | apply ite_keeps)
    | split

theorem releaseAdopted_keeps {a s : State} {h1 : Nat} {a2 : Nat} (h : Keeps a s) : Keeps a (releaseAdopted s h1 a2).1 :=
    by
  unfold releaseAdopted
  try dsimp only
  repeat' first
    | (with_reducible first
        | assumption | exact Keeps.refl _ | apply modLanding_keeps | apply freeLanding_keeps | apply modStair_keeps
        | apply foldl_keeps | apply foldl_fst_keeps)
    | intro _

theorem releaseAdopted_keeps' {a s t : State} {h1 : Nat} {a2 : Nat} {y : List Nat} (e : releaseAdopted s h1 a2 = (t, y))
    (h : Keeps a s) : Keeps a t := by
  have k : Keeps a (releaseAdopted s h1 a2).1 := releaseAdopted_keeps h 
  rw [e] at k
  exact k

theorem retakeBlocks_keeps {a s : State} {n : Nat} (h : Keeps a s) : Keeps a (retakeBlocks s n) := by
  unfold retakeBlocks
  try dsimp only
  repeat' first
    | (with_reducible first | assumption | exact Keeps.refl _ | apply dropReserve_keeps | apply modStep_keeps)
    | refine takeBlocks_keeps (by assumption) ?_
    | (with_reducible first | apply endStep_keeps | apply foldl_keeps | apply foldl_fst_keeps)
    | intro _
    | (with_reducible first | apply ite_keeps)
    | split

theorem settlePlaces_keeps {a s : State}  (h : Keeps a s) : Keeps a (settlePlaces s) := by
  unfold settlePlaces
  try dsimp only
  repeat' first
    | (with_reducible first
        | assumption | exact Keeps.refl _ | apply retakeBlocks_keeps | apply settleAll_keeps | apply foldl_keeps
        | apply foldl_fst_keeps)
    | intro _
    | (with_reducible first | apply ite_keeps)

theorem countStairs_keeps {a s : State} {h1 : Nat} (h : Keeps a s) : Keeps a (countStairs s h1) := by
  unfold countStairs
  try dsimp only
  repeat' first
    | (with_reducible first | assumption | exact Keeps.refl _ | apply replaceCause_keeps)
    | intro _
    | (with_reducible first | apply ite_keeps)

theorem fenceStair_keeps {a s : State} {h1 : HallId} {sw : Nat} {software : Bool} (h : Keeps a s) : Keeps a
    (fenceStair s h1 sw software) := by
  unfold fenceStair
  try dsimp only
  repeat' first
    | (with_reducible first
        | assumption | exact Keeps.refl _ | apply modStair_keeps | apply stopStair_keeps
        | apply releaseAdopted_keeps)
    | refine releaseAdopted_keeps' (by assumption) ?_
    | (with_reducible first
        | apply searchOrphan_keeps | apply softEnter_keeps | apply settlePlaces_keeps | apply countStairs_keeps
        | apply publishDue_keeps | apply fenceRecord_keeps | apply foldl_keeps | apply foldl_fst_keeps)
    | intro _
    | (with_reducible first | apply ite_keeps)

theorem stopChannels_keeps {a s : State} {h1 : HallId} (h : Keeps a s) : Keeps a (stopChannels s h1) := by
  unfold stopChannels
  try dsimp only
  repeat' first
    | (with_reducible first
        | assumption | exact Keeps.refl _ | apply txStop_keeps | apply freeRest_keeps | apply txOrphan_keeps
        | apply setChan_keeps | apply foldl_keeps | apply foldl_fst_keeps)
    | intro _
    | (with_reducible first | apply ite_keeps)

theorem bindsLose_keeps {a s : State} {h1 : HallId} (h : Keeps a s) : Keeps a (bindsLose s h1) := by
  unfold bindsLose
  try dsimp only
  repeat' first
    | (with_reducible first
        | assumption | exact Keeps.refl _ | apply bindFail_keeps | apply setBind_keeps | apply foldl_keeps
        | apply foldl_fst_keeps)
    | intro _
    | (with_reducible first | apply ite_keeps)
    | split

theorem stopHall_keeps {a s : State} {h1 : HallId} {gone : Bool} {zero : Bool} (h : Keeps a s) : Keeps a
    (stopHall s h1 gone zero) := by
  unfold stopHall
  try dsimp only
  repeat' first
    | (with_reducible first
        | assumption | exact Keeps.refl _ | apply stopStair_keeps | apply netForget_keeps | apply bindsLose_keeps
        | apply stopChannels_keeps | apply foldl_keeps | apply foldl_fst_keeps)
    | intro _

theorem loseClaim_keeps {a s : State} {c : Nat} {k : Claim} {status : Nat} (h : Keeps a s) : Keeps a
    (loseClaim s c k status) := by
  unfold loseClaim
  try dsimp only
  repeat' first
    | (with_reducible first | assumption | exact Keeps.refl _ | apply complete_keeps)

theorem loseClaims_keeps {a s : State} {h1 : Nat} {status : Nat} (h : Keeps a s) : Keeps a (loseClaims s h1 status) := by
  unfold loseClaims
  try dsimp only
  repeat' first
    | (with_reducible first
        | assumption | exact Keeps.refl _ | apply loseClaim_keeps | apply foldl_keeps | apply foldl_fst_keeps)
    | intro _

theorem fencedStep_keeps {a s : State} {n : Nat} {x : Step} (h : Keeps a s) : Keeps a (fencedStep s n x) := by
  unfold fencedStep
  try dsimp only
  repeat' first
    | (with_reducible first
        | assumption | exact Keeps.refl _ | apply dropItems_keeps | apply endWaits_keeps
        | apply returnBlocks_keeps | apply quitLane_keeps | apply unpin_keeps | apply stepRecord_keeps)
    | (with_reducible first | apply other_keeps)

theorem loseTransfers_keeps {a s : State} {h1 : HallId} (h : Keeps a s) : Keeps a (loseTransfers s h1) := by
  unfold loseTransfers
  try dsimp only
  repeat' first
    | (with_reducible first
        | assumption | exact Keeps.refl _ | apply endSend_keeps | apply failAccept_keeps | apply foldl_keeps
        | apply foldl_fst_keeps)
    | intro _
    | (with_reducible first | apply ite_keeps)

theorem refence_keeps {a s : State} {h1 : HallId} {cause : Nat} (h : Keeps a s) : Keeps a (refence s h1 cause) := by
  unfold refence
  try dsimp only
  repeat' first
    | (with_reducible first
        | assumption | exact Keeps.refl _ | apply softEnter_keeps | apply modHall_keeps | apply replaceCause_keeps
        | apply publishDue_keeps)
    | exact (fun _ hx i => hx i : KeepsRings _)
    | exact (fun hx i => hx i)
    | intro _
    | (with_reducible first | apply ite_keeps)

theorem fenceHall_keeps {a s : State} {h1 : HallId} {cause : Nat} (h : Keeps a s) : Keeps a (fenceHall s h1 cause)
    := by
  unfold fenceHall
  try dsimp only
  repeat' first
    | (with_reducible first
        | assumption | exact Keeps.refl _ | apply refence_keeps | apply modHall_keeps | apply stopHall_keeps
        | apply fencedStep_keeps | apply orphanLocks_keeps | apply loseClasps_keeps | apply loseTransfers_keeps
        | apply loseClaims_keeps | apply vestClean_keeps | apply softEnter_keeps | apply replaceCause_keeps
        | apply settle_keeps | apply settlePlaces_keeps | apply fenceRecord_keeps | apply publishDue_keeps
        | apply foldl_keeps | apply foldl_fst_keeps)
    | exact (fun _ hx i => hx i : KeepsRings _)
    | exact (fun hx i => hx i)
    | intro _
    | (with_reducible first | apply ite_keeps)

theorem fenceUsher_keeps {a s : State} {h1 : HallId} {u : UsherId} {software : Bool} (h : Keeps a s) : Keeps a
    (fenceUsher s h1 u software) := by
  unfold fenceUsher
  try dsimp only
  repeat' first
    | (with_reducible first
        | assumption | exact Keeps.refl _ | apply modHall_keeps | apply softEnter_keeps | apply publishDue_keeps
        | apply fenceRecord_keeps | apply fenceHall_keeps)
    | exact (fun _ hx i => hx i : KeepsRings _)
    | exact (fun hx i => hx i)
    | intro _
    | (with_reducible first | apply ite_keeps)

theorem retireSlice_keeps {a s : State} {h1 : HallId} {i : Nat} (h : Keeps a s) : Keeps a (retireSlice s h1 i) := by
  unfold retireSlice
  try dsimp only
  repeat' first
    | (with_reducible first
        | assumption | exact Keeps.refl _ | apply vestEvict_keeps | apply modHall_keeps | apply publishDue_keeps
        | apply fenceRecord_keeps | apply softEnter_keeps | apply replaceCause_keeps)
    | exact (fun _ hx i => hx i : KeepsRings _)
    | exact (fun hx i => hx i)
    | intro _
    | (with_reducible first | apply ite_keeps)

theorem fenceCore_keeps {a s : State} {c : Fin 24} (h : Keeps a s) : Keeps a (fenceCore s c) := by
  unfold fenceCore
  try dsimp only
  repeat' first
    | (with_reducible first
        | assumption | exact Keeps.refl _ | apply modHost_keeps | apply replaceCause_keeps | apply publishDue_keeps
        | apply fenceRecord_keeps | apply softEnter_keeps)
    | intro _
    | (with_reducible first | apply ite_keeps)

theorem fenceLanding_keeps {a s : State} {h1 : HallId} {sw : SwId} {l : LayerId} (h : Keeps a s) : Keeps a
    (fenceLanding s h1 sw l) := by
  unfold fenceLanding
  try dsimp only
  repeat' first
    | (with_reducible first | assumption | exact Keeps.refl _ | apply fenceStair_keeps | apply modLanding_keeps)

theorem retireLanding_keeps {a s : State} {h1 : Nat} {sw : Nat} {l : Nat} (h : Keeps a s) : Keeps a
    (retireLanding s h1 sw l) := by
  unfold retireLanding
  try dsimp only
  repeat' first
    | (with_reducible first | assumption | exact Keeps.refl _ | apply modLanding_keeps | apply freeLanding_keeps)

theorem retireLayer_keeps {a s : State} {h1 : Nat} {l : Nat} (h : Keeps a s) : Keeps a (retireLayer s h1 l) := by
  unfold retireLayer
  try dsimp only
  repeat' first
    | (with_reducible first
        | assumption | exact Keeps.refl _ | apply retireLanding_keeps | apply foldl_keeps | apply foldl_fst_keeps)
    | intro _

theorem loseLayer_keeps {a s : State} {h1 : HallId} {l : LayerId} (h : Keeps a s) : Keeps a (loseLayer s h1 l) := by
  unfold loseLayer
  try dsimp only
  repeat' first
    | (with_reducible first
        | assumption | exact Keeps.refl _ | apply modHall_keeps | apply retireLayer_keeps | apply logError_keeps
        | apply softEnter_keeps | apply replaceCause_keeps | apply publishDue_keeps)
    | exact (fun _ hx i => hx i : KeepsRings _)
    | exact (fun hx i => hx i)
    | intro _
    | (with_reducible first | apply ite_keeps)

theorem loseVest_keeps {a s : State} {h1 : HallId} (h : Keeps a s) : Keeps a (loseVest s h1) := by
  unfold loseVest
  try dsimp only
  repeat' first
    | (with_reducible first
        | assumption | exact Keeps.refl _ | apply setPoison_keeps | apply emit_keeps | apply logError_keeps
        | apply modHall_keeps | apply foldl_keeps | apply foldl_fst_keeps)
    | exact (fun _ hx i => hx i : KeepsRings _)
    | exact (fun hx i => hx i)
    | intro _
    | (with_reducible first | apply ite_keeps)

theorem loseNetwork_keeps {a s : State} {h1 : HallId} (h : Keeps a s) : Keeps a (loseNetwork s h1) := by
  unfold loseNetwork
  try dsimp only
  repeat' first
    | (with_reducible first
        | assumption | exact Keeps.refl _ | apply loseVest_keeps | apply modHall_keeps | apply portDown_keeps
        | apply reroute_keeps | apply fenceHall_keeps)
    | exact (fun _ hx i => hx i : KeepsRings _)
    | exact (fun hx i => hx i)
    | intro _
    | (with_reducible first | apply ite_keeps)

end Sys2Proof.Machine
end

