-- ==== Sys2Proof/Laws/KeepsPublish.lean ====
section
/-! SUPPORT. What the operations of Machine/Publish.lean keep of a state. -/

namespace Sys2Proof.Machine

theorem wake_keeps {a s : State} {c : Nat} {k : Claim} (h : Keeps a s) : Keeps a (wake s c k) := by
  unfold wake
  try dsimp only
  repeat' first
    | (with_reducible first | assumption | exact Keeps.refl _ | apply complete_keeps)
    | intro _
    | (with_reducible first | apply ite_keeps)
    | split

theorem publish_keeps {a s : State}  (h : Keeps a s) : Keeps a (publish s) := by
  unfold publish
  try dsimp only
  repeat' first
    | (with_reducible first
        | assumption | exact Keeps.refl _ | apply write_keeps | apply modPorter_keeps | apply emit_keeps
        | apply wake_keeps | apply foldl_keeps | apply foldl_fst_keeps)
    | exact (fun _ => rfl : KeepsFuses _)
    | intro _
    | (with_reducible first | apply ite_keeps)
    | split
    | (with_reducible first | apply other_keeps)

theorem execResdescPublish_keeps  (s : State) : ∃ t, execResdescPublish s = .next t ∧ Keeps s t := by
  unfold execResdescPublish
  refine ⟨_, rfl, ?_⟩
  try dsimp only
  repeat' first
    | (with_reducible first | assumption | exact Keeps.refl _ | apply publish_keeps)
    | intro _
    | (with_reducible first | apply ite_keeps)

theorem fenceApply_keeps {a s : State} {d : Rec64} (h : Keeps a s) : Keeps a (fenceApply s d) := by
  unfold fenceApply
  try dsimp only
  repeat' first
    | (with_reducible first
        | assumption | exact Keeps.refl _ | apply settle_keeps | apply fenceStair_keeps | apply fenceUsher_keeps
        | apply fenceHall_keeps)
    | intro _
    | (with_reducible first | apply ite_keeps)
    | split

theorem execFenceUnitFence_keeps (c : Nat) (s : State) : ∃ t, execFenceUnitFence c s = .next t ∧ Keeps s t := by
  unfold execFenceUnitFence
  refine ⟨_, rfl, ?_⟩
  try dsimp only
  repeat' first
    | (with_reducible first
        | assumption | exact Keeps.refl _ | apply withClaim_keeps | apply complete_keeps | apply fenceApply_keeps
        | apply setStage_keeps)
    | intro _
    | (with_reducible first | apply ite_keeps)
    | split

theorem execFenceUnitWatch_keeps (c : Nat) (s : State) : ∃ t, execFenceUnitWatch c s = .next t ∧ Keeps s t := by
  unfold execFenceUnitWatch
  refine ⟨_, rfl, ?_⟩
  try dsimp only
  repeat' first
    | (with_reducible first
        | assumption | exact Keeps.refl _ | apply withClaim_keeps | apply complete_keeps | apply setStage_keeps)
    | intro _
    | (with_reducible first | apply ite_keeps)
    | split

end Sys2Proof.Machine
end

