-- ==== Sys2Proof/Laws/KeepsFaults.lean ====
section
/-! SUPPORT. What the operations of Machine/Faults.lean keep of a state. -/

namespace Sys2Proof.Machine

theorem logEvent_fn_keeps {a s : State} {e1 : ErrEvent} (h : Keeps a s) : Keeps a (logEvent s e1) := by
  unfold logEvent
  try dsimp only
  repeat' first
    | (with_reducible first | assumption | exact Keeps.refl _ | apply logError_keeps)

theorem sramError_keeps {a s : State} {e1 : ErrEvent} (h : Keeps a s) : Keeps a (sramError s e1) := by
  unfold sramError
  try dsimp only
  repeat' first
    | (with_reducible first
        | assumption | exact Keeps.refl _ | apply modStair_keeps | apply fenceStair_keeps | apply setPoison_keeps | apply modPort_keeps)
    | intro _
    | (with_reducible first | apply ite_keeps)

theorem vestError_keeps {a s : State} {e1 : ErrEvent} (h : Keeps a s) : Keeps a (vestError s e1) := by
  unfold vestError
  try dsimp only
  repeat' first
    | (with_reducible first
        | assumption | exact Keeps.refl _ | apply vestClean_keeps | apply setPoison_keeps | apply vestMiss_keeps
        | apply modPorter_keeps | apply retireSlice_keeps)
    | exact (fun _ => rfl : KeepsFuses _)
    | intro _
    | (with_reducible first | apply ite_keeps)
    | split

theorem claspError_keeps {a s : State} {e1 : ErrEvent} (h : Keeps a s) : Keeps a (claspError s e1) := by
  unfold claspError
  try dsimp only
  repeat' first
    | (with_reducible first
        | assumption | exact Keeps.refl _ | apply setClasp_keeps | apply settle_keeps | apply claspFail_keeps
        | apply foldl_keeps | apply foldl_fst_keeps)
    | intro _
    | (with_reducible first | apply ite_keeps)

theorem nearError_keeps {a s : State} {e1 : ErrEvent} (h : Keeps a s) : Keeps a (nearError s e1) := by
  unfold nearError
  try dsimp only
  repeat' first
    | (with_reducible first
        | assumption | exact Keeps.refl _ | apply modRegs_keeps | apply modHall_keeps | apply replaceCause_keeps
        | apply loseLayer_keeps | apply setPoison_keeps | apply modPort_keeps)
    | exact (fun _ hx i => hx i : KeepsRings _)
    | exact (fun hx i => hx i)
    | intro _
    | (with_reducible first | apply ite_keeps)

theorem parkMeta_keeps {a s : State} {a1 : Nat} (h : Keeps a s) : Keeps a (parkMeta s a1) := by
  unfold parkMeta
  try dsimp only
  repeat' first
    | (with_reducible first
        | assumption | exact Keeps.refl _ | apply setPoison_keeps | apply modJob_keeps | apply setRef_keeps
        | apply setBind_keeps | apply foldl_keeps | apply foldl_fst_keeps)
    | intro _
    | (with_reducible first | apply ite_keeps)

theorem parkError_keeps {a s : State} {e1 : ErrEvent} (h : Keeps a s) : Keeps a (parkError s e1) := by
  unfold parkError
  try dsimp only
  repeat' first
    | (with_reducible first
        | assumption | exact Keeps.refl _ | apply modHost_keeps | apply modPorter_keeps | apply replaceCause_keeps
        | apply parkMeta_keeps | apply setPoison_keeps | apply modPort_keeps)
    | exact (fun _ => rfl : KeepsFuses _)
    | intro _
    | (with_reducible first | apply ite_keeps)

theorem setLink_keepsRings (l : UcieLink) (f : Hall → Ucie) : KeepsRings fun x => setLink x l (f x) := by
  intro x hx
  cases l <;> exact hx

theorem ucieResent_keeps {a s : State} {n : HallId} {l : UcieLink} (h : Keeps a s) : Keeps a (ucieResent s n l) := by
  unfold ucieResent
  dsimp only
  split
  · exact replaceCause_keeps (modPorter_keeps (logError_keeps (modHall_keeps h (setLink_keepsRings l _))) fun _ => rfl)
  · exact modPorter_keeps (logError_keeps (modHall_keeps h (setLink_keepsRings l _))) fun _ => rfl

theorem ucieRetrained_keeps {a s : State} {n : HallId} {l : UcieLink} (h : Keeps a s) : Keeps a
    (ucieRetrained s n l) := by
  unfold ucieRetrained
  exact logError_keeps (modHall_keeps h (setLink_keepsRings l _))

theorem ucieNarrow_keeps {a s : State} {n : HallId} {l : UcieLink} {lanes : Nat} (h : Keeps a s) :
    Keeps a (ucieNarrow s n l lanes) := by
  unfold ucieNarrow
  split
  · have k : ∀ w, Keeps a ((s.modHall n fun x => { x with hostLink := x.hostLink.narrow w }).publishDue) :=
      fun w => publishDue_keeps (modHall_keeps h fun _ hx i => hx i)
    dsimp only
    split
    · exact k _
    · split
      · exact replaceCause_keeps (k _)
      · exact fenceHall_keeps (k _)
  · dsimp only
    have k := fun (f g : Hall → Ucie) (m : HallId) (j : UcieLink) => publishDue_keeps
      (modHall_keeps (n := m) (modHall_keeps (n := n) h (setLink_keepsRings l f)) (setLink_keepsRings j g))
    split
    · exact replaceCause_keeps (k _ _ _ _)
    · exact k _ _ _ _

theorem execUcieFlitResend_keeps (n : HallId) (link : UcieLink) (o : UcieOutcome) (s : State) :
    ∃ t, execUcieFlitResend n link o s = .next t ∧ Keeps s t := by
  refine ⟨_, rfl, ?_⟩
  have k : Keeps s (ucieResent s n link) := ucieResent_keeps (Keeps.refl s)
  split
  · exact Keeps.refl s
  · cases o
    · exact k
    · exact ucieRetrained_keeps k
    · dsimp only
      split
      · exact replaceCause_keeps (modHall_keeps (ucieRetrained_keeps k) (setLink_keepsRings link _))
      · exact modHall_keeps (ucieRetrained_keeps k) (setLink_keepsRings link _)
    · exact ucieNarrow_keeps (ucieRetrained_keeps k)

theorem execErrorEvent_keeps (e0 : ErrEvent) (s : State) : ∃ t, execErrorEvent e0 s = .next t ∧ Keeps s t := by
  unfold execErrorEvent
  refine ⟨_, rfl, ?_⟩
  try dsimp only
  repeat' first
    | (with_reducible first
        | assumption | exact Keeps.refl _ | apply sramError_keeps | apply logEvent_fn_keeps | apply vestError_keeps
        | apply claspError_keeps | apply nearError_keeps | apply loseLayer_keeps | apply parkError_keeps
        | apply setPoison_keeps | apply modPort_keeps)
    | intro _
    | (with_reducible first | apply ite_keeps)
    | split

theorem execLayerLost_keeps (h0 : HallId) (l : LayerId) (s : State) : ∃ t, execLayerLost h0 l s = .next t ∧ Keeps s
    t := by
  unfold execLayerLost
  refine ⟨_, rfl, ?_⟩
  try dsimp only
  repeat' first
    | (with_reducible first | assumption | exact Keeps.refl _ | apply loseLayer_keeps)
    | intro _
    | (with_reducible first | apply ite_keeps)

theorem execParkPkgFail_keeps (p : Fin 24) (retrained : Bool) (s : State) : ∃ t, execParkPkgFail p retrained s =
    .next t ∧ Keeps s t := by
  unfold execParkPkgFail
  refine ⟨_, rfl, ?_⟩
  try dsimp only
  repeat' first
    | (with_reducible first
        | assumption | exact Keeps.refl _ | apply modHost_keeps | apply replaceCause_keeps | apply logError_keeps)
    | intro _
    | (with_reducible first | apply ite_keeps)

theorem execUnitFence_keeps (t0 : FenceTarget) (s : State) : ∃ t, execUnitFence t0 s = .next t ∧ Keeps s t := by
  unfold execUnitFence
  refine ⟨_, rfl, ?_⟩
  try dsimp only
  repeat' first
    | (with_reducible first
        | assumption | exact Keeps.refl _ | apply settle_keeps | apply fenceStair_keeps | apply fenceLanding_keeps
        | apply fenceUsher_keeps | apply retireSlice_keeps | apply fenceHall_keeps | apply fenceCore_keeps)
    | intro _
    | (with_reducible first | apply ite_keeps)
    | split

theorem execAdoptionComplete_keeps (h0 : HallId) (sw : SwId) (s : State) : ∃ t, execAdoptionComplete h0 sw s = .next
    t ∧ Keeps s t := by
  unfold execAdoptionComplete
  refine ⟨_, rfl, ?_⟩
  try dsimp only
  repeat' first
    | (with_reducible first | assumption | exact Keeps.refl _ | apply publishDue_keeps | apply setStair_keeps)
    | intro _
    | (with_reducible first | apply ite_keeps)
    | split

end Sys2Proof.Machine
end

