-- ==== Sys2Proof/Laws/KeepsResets.lean ====
section
/-! SUPPORT. What the operations of Machine/Resets.lean keep of a state. -/

namespace Sys2Proof.Machine

theorem startHallReset_keeps {a s : State} {h1 : HallId} {reload : Bool} (h : Keeps a s) : Keeps a
    (startHallReset s h1 reload) := by
  unfold startHallReset
  try dsimp only
  repeat' first
    | (with_reducible first
        | assumption | exact Keeps.refl _ | apply modHall_keeps | apply orphanLocks_keeps | apply stopHall_keeps)
    | exact (fun _ hx i => hx i : KeepsRings _)
    | exact (fun hx i => hx i)
    | intro _
    | (with_reducible first | apply ite_keeps)
    | split

theorem wakeColumns_keeps {a s : State} {h1 : Nat} (h : Keeps a s) : Keeps a (wakeColumns s h1) := by
  unfold wakeColumns
  try dsimp only
  repeat' first
    | (with_reducible first | assumption | exact Keeps.refl _)
    | intro _
    | (with_reducible first | apply ite_keeps)
    | (with_reducible first | apply other_keeps)

theorem settleHome_keeps {a s : State} {h1 : Nat} (h : Keeps a s) : Keeps a (settleHome s h1) := by
  unfold settleHome
  try dsimp only
  repeat' first
    | (with_reducible first
        | assumption | exact Keeps.refl _ | apply settleLost_keeps | apply settleVolume_keeps | apply foldl_keeps
        | apply foldl_fst_keeps)
    | intro _

theorem finishSingle_keeps {a s : State} {h1 : HallId} (h : Keeps a s) : Keeps a (finishSingle s h1) := by
  unfold finishSingle
  try dsimp only
  repeat' first
    | (with_reducible first
        | assumption | exact Keeps.refl _ | apply finishPoisoned_keeps | apply bindApply_keeps | apply foldl_keeps
        | apply foldl_fst_keeps)
    | intro _
    | (with_reducible first | apply ite_keeps)

theorem loadFails_keeps {a s : State} {kind : Nat} {h1 : HallId} {unit : Nat} (h : Keeps a s) : Keeps a
    (loadFails s kind h1 unit) := by
  unfold loadFails
  try dsimp only
  repeat' first
    | (with_reducible first | assumption | exact Keeps.refl _ | apply softAdd_keeps | apply logEvent_keeps)

theorem storeImages_keeps {a s : State} {h1 : HallId} (h : Keeps a s) : Keeps a (storeImages s h1) := by
  unfold storeImages
  try dsimp only
  repeat' first
    | (with_reducible first | assumption | exact Keeps.refl _ | apply modHall_keeps)
    | exact (fun _ hx i => hx i : KeepsRings _)
    | exact (fun hx i => hx i)
    | intro _
    | (with_reducible first | apply ite_keeps)
    | (with_reducible first | apply other_keeps)

theorem loadHall_keeps {a s : State} {r : LoadReport} {h1 : HallId} (h : Keeps a s) : Keeps a (loadHall s r h1) := by
  unfold loadHall
  try dsimp only
  repeat' first
    | (with_reducible first
        | assumption | exact Keeps.refl _ | apply fenceHall_keeps | apply storeImages_keeps
        | apply fenceStair_keeps | apply loadFails_keeps | apply fenceUsher_keeps | apply foldl_keeps
        | apply foldl_fst_keeps)
    | intro _
    | (with_reducible first | apply ite_keeps)

theorem releaseHall_keeps {a s : State} {h1 : HallId} (h : Keeps a s) : Keeps a (releaseHall s h1) := by
  unfold releaseHall
  try dsimp only
  repeat' first
    | (with_reducible first
        | assumption | exact Keeps.refl _ | apply modHall_keeps | apply finishSingle_keeps | apply wakeColumns_keeps
        | apply endStep_keeps | apply loseClaims_keeps | apply settle_keeps | apply settleHome_keeps
        | apply retestClasps_keeps | apply foldl_keeps | apply foldl_fst_keeps)
    | exact (fun _ hx i => hx i : KeepsRings _)
    | exact (fun hx i => hx i)
    | intro _

theorem porterReset_keeps {a s : State} {h1 : HallId} (h : Keeps a s) : Keeps a (porterReset s h1) := by
  unfold porterReset
  try dsimp only
  repeat' first
    | (with_reducible first
        | assumption | exact Keeps.refl _ | apply startHallReset_keeps | apply fenceHall_keeps
        | apply modHall_keeps)
    | exact (fun _ hx i => hx i : KeepsRings _)
    | exact (fun hx i => hx i)
    | intro _
    | (with_reducible first | apply ite_keeps)

theorem hallRst_keeps {a s : State} {h1 : HallId} {w : Word} (h : Keeps a s) : Keeps a (hallRst s h1 w) := by
  unfold hallRst
  try dsimp only
  repeat' first
    | (with_reducible first
        | assumption | exact Keeps.refl _ | apply modRegs_keeps | apply settle_keeps | apply startHallReset_keeps)
    | intro _
    | (with_reducible first | apply ite_keeps)

theorem execHallComputeReset_keeps (h0 : HallId) (w : Word) (s : State) : ∃ t, execHallComputeReset h0 w s = .next t
    ∧ Keeps s t := by
  unfold execHallComputeReset
  refine ⟨_, rfl, ?_⟩
  try dsimp only
  repeat' first
    | (with_reducible first | assumption | exact Keeps.refl _ | apply hallRst_keeps | apply emit_keeps)
    | intro _
    | (with_reducible first | apply ite_keeps)

theorem execUsherHeartbeatMiss_keeps (h0 : HallId) (u : UsherId) (s : State) : ∃ t, execUsherHeartbeatMiss h0 u s =
    .next t ∧ Keeps s t := by
  unfold execUsherHeartbeatMiss
  refine ⟨_, rfl, ?_⟩
  try dsimp only
  repeat' first
    | (with_reducible first
        | assumption | exact Keeps.refl _ | apply settle_keeps | apply fenceUsher_keeps | apply modHall_keeps
        | apply porterReset_keeps)
    | exact (fun _ hx i => hx i : KeepsRings _)
    | exact (fun hx i => hx i)
    | intro _
    | (with_reducible first | apply ite_keeps)

theorem execComputeFaultReport_keeps (h0 : HallId) (s : State) : ∃ t, execComputeFaultReport h0 s = .next t ∧ Keeps
    s t := by
  unfold execComputeFaultReport
  refine ⟨_, rfl, ?_⟩
  try dsimp only
  repeat' first
    | (with_reducible first | assumption | exact Keeps.refl _ | apply settle_keeps | apply porterReset_keeps)
    | intro _
    | (with_reducible first | apply ite_keeps)

theorem hallSwRst_keeps {a s : State} {h1 : HallId} {w : Word} (h : Keeps a s) : Keeps a (hallSwRst s h1 w) := by
  unfold hallSwRst
  try dsimp only
  repeat' first
    | (with_reducible first
        | assumption | exact Keeps.refl _ | apply modRegs_keeps | apply settle_keeps | apply modStair_keeps
        | apply stopStair_keeps)
    | intro _
    | (with_reducible first | apply ite_keeps)

theorem execStairwellReset_keeps (h0 : HallId) (w : Word) (s : State) : ∃ t, execStairwellReset h0 w s = .next t ∧
    Keeps s t := by
  unfold execStairwellReset
  refine ⟨_, rfl, ?_⟩
  try dsimp only
  repeat' first
    | (with_reducible first | assumption | exact Keeps.refl _ | apply hallSwRst_keeps | apply emit_keeps)
    | intro _
    | (with_reducible first | apply ite_keeps)

theorem endHallReset_keeps {a s : State} {h1 : HallId} {r : LoadReport} (h : Keeps a s) : Keeps a
    (endHallReset s h1 r) := by
  unfold endHallReset
  try dsimp only
  repeat' first
    | (with_reducible first
        | assumption | exact Keeps.refl _ | apply loadHall_keeps | apply releaseHall_keeps | apply settle_keeps)
    | intro _
    | (with_reducible first | apply ite_keeps)

theorem execComputeResetRelease_keeps (h1 : HallId) (e1 : ResetEnd) (s : State) :
    ∃ t, execComputeResetRelease h1 e1 s = .next t ∧ Keeps s t := by
  unfold execComputeResetRelease
  refine ⟨_, rfl, ?_⟩
  try dsimp only
  repeat' first
    | (with_reducible first | assumption | exact Keeps.refl _ | apply endHallReset_keeps | apply modStair_keeps)
    | intro _
    | (with_reducible first | apply ite_keeps)
    | split

theorem warmBinds_keeps {a s : State}  (h : Keeps a s) : Keeps a (warmBinds s) := by
  unfold warmBinds
  try dsimp only
  repeat' first
    | (with_reducible first
        | assumption | exact Keeps.refl _ | apply markUnfinished_keeps | apply applyHall_keeps | apply foldl_keeps
        | apply foldl_fst_keeps)
    | intro _
    | (with_reducible first | apply ite_keeps)
    | split
    | (with_reducible first | apply other_keeps)

theorem assignNumbers_keeps {a s : State} {h1 : Nat} (h : Keeps a s) : Keeps a (assignNumbers s h1) := by
  unfold assignNumbers
  try dsimp only
  repeat' first
    | (with_reducible first
        | assumption | exact Keeps.refl _ | apply setStair_keeps | apply foldl_keeps | apply foldl_fst_keeps)
    | intro _
    | (with_reducible first | apply ite_keeps)

theorem adoptAll_keeps {a s : State} {h1 : Nat} (h : Keeps a s) : Keeps a (adoptAll s h1) := by
  unfold adoptAll
  try dsimp only
  repeat' first
    | (with_reducible first
        | assumption | exact Keeps.refl _ | apply searchOrphan_keeps | apply foldl_keeps | apply foldl_fst_keeps)
    | intro _
    | (with_reducible first | apply ite_keeps)
    | split
    | (with_reducible first | apply other_keeps)

theorem warmLoad_keeps {a s : State} {r : LoadReport} {h1 : HallId} (h : Keeps a s) : Keeps a (warmLoad s r h1) := by
  unfold warmLoad
  try dsimp only
  repeat' first
    | (with_reducible first | assumption | exact Keeps.refl _ | apply modHall_keeps | apply loadHall_keeps)
    | exact (fun _ hx i => hx i : KeepsRings _)
    | exact (fun hx i => hx i)
    | intro _
    | (with_reducible first | apply ite_keeps)

theorem drawSeed_keeps {a s : State} {h1 : HallId} (h : Keeps a s) : Keeps a (drawSeed s h1) :=
  modHall_keeps (fresh_keeps h) fun _ hx i => hx i

theorem warmHall_keeps {a s : State} {r : LoadReport} {h1 : HallId} (h : Keeps a s) : Keeps a (warmHall r s h1) := by
  unfold warmHall
  try dsimp only
  repeat' first
    | (with_reducible first
        | assumption | exact Keeps.refl _ | apply drawSeed_keeps | apply warmLoad_keeps | apply modHall_keeps
        | apply adoptAll_keeps | apply assignNumbers_keeps | apply wakeColumns_keeps | apply foldl_keeps
        | apply foldl_fst_keeps | apply other_keeps | apply fresh_keeps)
    | exact (fun _ hx i => hx i : KeepsRings _)

theorem warmRegs_keeps {a s : State} {n : HallId} (h : Keeps a s) : Keeps a (warmRegs s n) := by
  unfold warmRegs
  refine modHall_keeps (vestEvict_keeps h) fun x _ i he => ?_
  cases he

theorem warmClasps_keeps {a s : State}  (h : Keeps a s) : Keeps a (warmClasps s) := by
  unfold warmClasps
  try dsimp only
  repeat' first
    | (with_reducible first
        | assumption | exact Keeps.refl _ | apply applyClasps_keeps | apply foldl_keeps | apply foldl_fst_keeps)
    | intro _
    | (with_reducible first | apply ite_keeps)
    | split
    | (with_reducible first | apply other_keeps)

theorem warmReset_keeps {a s : State} {src : Nat} (h : Keeps a s) : Keeps a (warmReset s src) := by
  unfold warmReset
  try dsimp only
  repeat' first
    | (with_reducible first
        | assumption | exact Keeps.refl _ | apply modPorter_keeps | apply logEvent_keeps | apply endStep_keeps
        | apply warmRegs_keeps | apply stopChannels_keeps | apply stopStair_keeps | apply warmBinds_keeps
        | apply foldl_keeps | apply foldl_fst_keeps | apply other_keeps | apply fresh_keeps)
    | exact (fun _ => rfl : KeepsFuses _)
    | intro _

theorem holdLost_keeps {a s : State} {h1 : HallId} (h : Keeps a s) : Keeps a (holdLost s h1) := by
  unfold holdLost
  try dsimp only
  repeat' first
    | (with_reducible first | assumption | exact Keeps.refl _ | apply modHall_keeps | apply startHallReset_keeps)
    | exact (fun _ hx i => hx i : KeepsRings _)
    | exact (fun hx i => hx i)
    | intro _
    | (with_reducible first | apply ite_keeps)

theorem warmRest_keeps {a s : State} (h : Keeps a s) : Keeps a (warmRest s) := by
  unfold warmRest
  try dsimp only
  repeat' first
    | (with_reducible first
        | assumption | exact Keeps.refl _ | apply warmHall_keeps | apply settleHome_keeps | apply warmClasps_keeps
        | apply publishDue_keeps | apply settle_keeps | apply holdLost_keeps | apply foldl_keeps | apply foldl_fst_keeps)
    | intro _
    | (with_reducible first | apply ite_keeps)
    | (with_reducible first | apply fresh_keeps | apply other_keeps)

theorem warmRequest_keeps {a s t : State} {src : Nat} (e : warmRequest s src = some t) (h : Keeps a s) : Keeps a t
    := by
  unfold warmRequest at e
  cases hi : s.resetsIgnored
  · cases hb : s.flashBusy
    · simp only [hi, hb, Bool.false_eq_true, if_false, Option.some.injEq] at e
      exact e ▸ warmReset_keeps h
    · simp only [hi, hb, Bool.false_eq_true, if_false, if_true, Option.some.injEq] at e
      exact e ▸ modPorter_keeps h fun _ => rfl
  · simp [hi] at e

theorem prtReset_keeps {a s : State} {w : Word} (h : Keeps a s) : Keeps a (prtReset s w) := by
  have k : Keeps a (s.modPorter fun p => { p with rstErr := p.rstErr && !bitAt w 1 }) := modPorter_keeps h fun _ => rfl
  unfold prtReset
  dsimp only
  split
  · exact k
  · by_cases hw : bits w 31 16 = 0x5752
    · simp only [if_pos hw]
      generalize hr : warmRequest _ 0 = r
      cases r with
      | none => exact modPorter_keeps k fun _ => rfl
      | some t => exact warmRequest_keeps hr k
    · simp only [if_neg hw]
      exact modPorter_keeps k fun _ => rfl

theorem execWarmResetRequest_keeps (w : Word) (s : State) : ∃ t, execWarmResetRequest w s = .next t ∧ Keeps s t := by
  unfold execWarmResetRequest
  refine ⟨_, rfl, ?_⟩
  try dsimp only
  repeat' first
    | (with_reducible first | assumption | exact Keeps.refl _ | apply prtReset_keeps)

theorem execHandOff_keeps (s : State) : ∃ t, execHandOff s = .next t ∧ Keeps s t := by
  unfold execHandOff
  refine ⟨_, rfl, ?_⟩
  try dsimp only
  repeat' first
    | (with_reducible first
        | assumption | exact Keeps.refl _ | apply warmRest_keeps | apply modPorter_keeps | apply publish_keeps
        | apply raiseAlert_keeps)
    | exact (fun _ => rfl : KeepsFuses _)
    | intro _
    | (with_reducible first | apply ite_keeps)

theorem itemRepresent_keeps {a s : State} {st : Nat} {h1 : HallId} (h : Keeps a s) : Keeps a (itemRepresent s st h1)
    := by
  unfold itemRepresent
  try dsimp only
  repeat' first
    | (with_reducible first | assumption | exact Keeps.refl _ | apply emitItem_keeps)
    | intro _
    | (with_reducible first | apply ite_keeps)
    | split

theorem execResetBackoffRetry_keeps (t1 : RetryTarget) (s : State) : ∃ t, execResetBackoffRetry t1 s = .next t ∧
    Keeps s t := by
  unfold execResetBackoffRetry
  refine ⟨_, rfl, ?_⟩
  try dsimp only
  repeat' first
    | (with_reducible first
        | assumption | exact Keeps.refl _ | apply settle_keeps | apply representAt_keeps
        | apply netRepresent_keeps | apply chanRepresent_keeps | apply itemRepresent_keeps)
    | intro _
    | split

end Sys2Proof.Machine
end

