-- ==== Sys2Proof/Laws/KeepsCalib.lean ====
section
/-! SUPPORT. What the operations of Machine/Calib.lean keep of a state. -/

namespace Sys2Proof.Machine

theorem modI3c_keeps {a s : State} {f : I3c → I3c} (h : Keeps a s) : Keeps a (State.modI3c s f) := by
  unfold State.modI3c
  try dsimp only
  repeat' first
    | (with_reducible first | assumption | exact Keeps.refl _ | apply modPorter_keeps)
    | exact (fun _ => rfl : KeepsFuses _)

theorem modCal_keeps {a s : State} {f : Calib → Calib} (h : Keeps a s) : Keeps a (State.modCal s f) := by
  unfold State.modCal
  try dsimp only
  repeat' first
    | (with_reducible first | assumption | exact Keeps.refl _ | apply modPorter_keeps)
    | exact (fun _ => rfl : KeepsFuses _)

theorem respReady_keeps {a s : State} {cmd : Nat} {status : Nat} {data : List Byte} (h : Keeps a s) : Keeps a
    (respReady s cmd status data) := by
  unfold respReady
  try dsimp only
  repeat' first
    | (with_reducible first | assumption | exact Keeps.refl _ | apply modI3c_keeps)

theorem respEnd_keeps {a s : State} {status : Nat} {data : List Byte} (h : Keeps a s) : Keeps a
    (respEnd s status data) := by
  unfold respEnd
  try dsimp only
  repeat' first
    | (with_reducible first | assumption | exact Keeps.refl _ | apply modI3c_keeps | apply respReady_keeps)
    | intro _
    | (with_reducible first | apply ite_keeps)
    | split

theorem setUserCal_keeps {a s : State} {t1 : Sparse Dword} (h : Keeps a s) : Keeps a (State.setUserCal s t1) := by
  unfold State.setUserCal
  try dsimp only
  repeat' first
    | (with_reducible first | assumption | exact Keeps.refl _ | apply modPorter_keeps)
    | exact (fun _ => rfl : KeepsFuses _)

theorem restoreFactory_keeps {a s : State}  (h : Keeps a s) : Keeps a (restoreFactory s) := by
  unfold restoreFactory
  try dsimp only
  repeat' first
    | (with_reducible first
        | assumption | exact Keeps.refl _ | apply logEvent_keeps | apply modCal_keeps | apply setUserCal_keeps
        | apply write_keeps)
    | intro _
    | (with_reducible first | apply ite_keeps)

theorem calRun_keeps {a s : State} {c : CalCmd} {flashOk : Bool} (h : Keeps a s) : Keeps a (calRun s c flashOk).1 :=
    by
  unfold calRun
  try dsimp only
  repeat' first
    | (with_reducible first | assumption | exact Keeps.refl _ | apply restoreFactory_keeps | apply setUserCal_keeps)
    | intro _
    | (with_reducible first | apply ite_keeps)
    | split

theorem calRun_keeps' {a s t : State} {c : CalCmd} {flashOk : Bool} {y : Nat × Dword × Bool}
    (e : calRun s c flashOk = (t, y)) (h : Keeps a s) : Keeps a t := by
  have k : Keeps a (calRun s c flashOk).1 := calRun_keeps h 
  rw [e] at k
  exact k

theorem calHost_keeps {a s : State} {op : CalOp} (h : Keeps a s) : Keeps a (calHost s op) := by
  unfold calHost
  try dsimp only
  repeat' first
    | (with_reducible first | assumption | exact Keeps.refl _ | apply modCal_keeps)
    | intro _
    | (with_reducible first | apply ite_keeps)

theorem execCalOpRead_keeps  (s : State) : ∃ t, execCalOpRead s = .next t ∧ Keeps s t := by
  unfold execCalOpRead
  refine ⟨_, rfl, ?_⟩
  try dsimp only
  repeat' first
    | (with_reducible first | assumption | exact Keeps.refl _ | apply calHost_keeps)
    | intro _
    | (with_reducible first | apply ite_keeps)

theorem execCalOpWrite_keeps  (s : State) : ∃ t, execCalOpWrite s = .next t ∧ Keeps s t := by
  unfold execCalOpWrite
  refine ⟨_, rfl, ?_⟩
  try dsimp only
  repeat' first
    | (with_reducible first | assumption | exact Keeps.refl _ | apply calHost_keeps)
    | intro _
    | (with_reducible first | apply ite_keeps)

theorem execCalOpClear_keeps  (s : State) : ∃ t, execCalOpClear s = .next t ∧ Keeps s t := by
  unfold execCalOpClear
  refine ⟨_, rfl, ?_⟩
  try dsimp only
  repeat' first
    | (with_reducible first | assumption | exact Keeps.refl _ | apply calHost_keeps)
    | intro _
    | (with_reducible first | apply ite_keeps)

theorem execCalRestoreFactory_keeps  (s : State) : ∃ t, execCalRestoreFactory s = .next t ∧ Keeps s t := by
  unfold execCalRestoreFactory
  refine ⟨_, rfl, ?_⟩
  try dsimp only
  repeat' first
    | (with_reducible first | assumption | exact Keeps.refl _ | apply calHost_keeps)
    | intro _
    | (with_reducible first | apply ite_keeps)

theorem calReport_keeps {a s : State} {c : CalCmd} {r : Nat × Dword × Bool} (h : Keeps a s) : Keeps a
    (calReport s c r) := by
  unfold calReport
  try dsimp only
  repeat' first
    | (with_reducible first | assumption | exact Keeps.refl _ | apply respEnd_keeps | apply modCal_keeps)
    | intro _
    | (with_reducible first | apply ite_keeps)

theorem execCalCommandDone_keeps (flashOk : Bool) (s : State) : ∃ t, execCalCommandDone flashOk s = .next t ∧ Keeps
    s t := by
  unfold execCalCommandDone
  refine ⟨_, rfl, ?_⟩
  try dsimp only
  repeat' first
    | (with_reducible first | assumption | exact Keeps.refl _ | apply calRun_keeps)
    | refine calRun_keeps' (by assumption) ?_
    | (with_reducible first
        | apply calReport_keeps | apply modCal_keeps | apply modPorter_keeps | apply warmReset_keeps)
    | exact (fun _ => rfl : KeepsFuses _)
    | intro _
    | (with_reducible first | apply ite_keeps)
    | split

end Sys2Proof.Machine
end

