-- ==== Sys2Proof/Laws/KeepsBringup.lean ====
section
/-! SUPPORT. What the operations of Machine/Bringup.lean keep of a state. -/

namespace Sys2Proof.Machine

theorem powerOff_keeps {a s : State} {phase : PowerPhase} (h : Keeps a s) : Keeps a (powerOff s phase) :=
  h.trans ⟨rfl, rfl, List.prefix_refl _, le_refl _, rfl, fun h => memWf_filter _ _ h, fun _ _ _ he => by cases he⟩

theorem bootHalt_keeps {a s : State} {code : Nat} (h : Keeps a s) : Keeps a (bootHalt s code) := by
  unfold bootHalt
  try dsimp only
  repeat' first
    | (with_reducible first
        | assumption | exact Keeps.refl _ | apply modHost_keeps | apply modPorter_keeps | apply raiseAlert_keeps
        | apply replaceCause_keeps | apply logEvent_keeps)
    | exact (fun _ => rfl : KeepsFuses _)

theorem bootFlashEvents_keeps {a s : State} {r : BringupReport} {pucLost : Bool} (h : Keeps a s) : Keeps a
    (bootFlashEvents s r pucLost) := by
  unfold bootFlashEvents
  try dsimp only
  repeat' first
    | (with_reducible first
        | assumption | exact Keeps.refl _ | apply modHost_keeps | apply logEvent_keeps | apply modCal_keeps
        | apply modPorter_keeps | apply replaceCause_keeps)
    | exact (fun _ => rfl : KeepsFuses _)
    | intro _
    | (with_reducible first | apply ite_keeps)

theorem bootPorter_keeps {a s : State} {r : BringupReport} {slotB : Bool} (h : Keeps a s) : Keeps a
    (bootPorter s r slotB) := by
  unfold bootPorter
  try dsimp only
  repeat' first
    | (with_reducible first
        | assumption | exact Keeps.refl _ | apply modPorter_keeps | apply bootFlashEvents_keeps
        | apply logEvent_keeps)
    | exact (fun _ => rfl : KeepsFuses _)
    | intro _
    | (with_reducible first | apply ite_keeps)

theorem applyCold_keeps {a s : State} {id : Nat} {idx : Nat} (h : Keeps a s) : Keeps a (applyCold s id idx) := by
  unfold applyCold
  try dsimp only
  repeat' first
    | (with_reducible first | assumption | exact Keeps.refl _ | apply modCal_keeps | apply logEvent_keeps)
    | intro _
    | (with_reducible first | apply ite_keeps)
    | split

theorem ignoredCals_keeps {a s : State}  (h : Keeps a s) : Keeps a (ignoredCals s) := by
  unfold ignoredCals
  try dsimp only
  repeat' first
    | (with_reducible first
        | assumption | exact Keeps.refl _ | apply logEvent_keeps | apply foldl_keeps | apply foldl_fst_keeps)
    | intro _

theorem bootCal_keeps {a s : State}  (h : Keeps a s) : Keeps a (bootCal s) := by
  unfold bootCal
  try dsimp only
  repeat' first
    | (with_reducible first
        | assumption | exact Keeps.refl _ | apply ignoredCals_keeps | apply applyCold_keeps | apply modHost_keeps
        | apply foldl_keeps | apply foldl_fst_keeps)
    | intro _

theorem bootHall_keeps {a s : State} {r : BringupReport} {h1 : HallId} (h : Keeps a s) : Keeps a (bootHall r s h1)
    := by
  unfold bootHall
  try dsimp only
  repeat' first
    | (with_reducible first | assumption | exact Keeps.refl _ | apply modHall_keeps)
    | exact (fun _ hx i => hx i : KeepsRings _)

theorem trainHall_keeps {a s : State} {r : BringupReport} {h1 : HallId} (h : Keeps a s) : Keeps a (trainHall r s h1)
    := by
  unfold trainHall
  try dsimp only
  repeat' first
    | (with_reducible first | assumption | exact Keeps.refl _ | apply modHall_keeps)
    | exact (fun _ hx i => hx i : KeepsRings _)

theorem bootNet_keeps {a s : State} {r : BringupReport} (h : Keeps a s) : Keeps a (bootNet s r) := by
  unfold bootNet
  try dsimp only
  repeat' first
    | (with_reducible first
        | assumption | exact Keeps.refl _ | apply bootHall_keeps | apply bootCal_keeps | apply modPorter_keeps
        | apply foldl_keeps | apply foldl_fst_keeps)
    | exact (fun _ => rfl : KeepsFuses _)
    | intro _

theorem bootLinks_keeps {a s : State} {r : BringupReport} (h : Keeps a s) : Keeps a (bootLinks s r) := by
  unfold bootLinks
  try dsimp only
  repeat' first
    | (with_reducible first
        | assumption | exact Keeps.refl _ | apply trainHall_keeps | apply reroute_keeps | apply modPorter_keeps
        | apply modHost_keeps | apply startTraining_keeps | apply replaceCause_keeps | apply foldl_keeps
        | apply foldl_fst_keeps)
    | exact (fun _ => rfl : KeepsFuses _)
    | intro _
    | (with_reducible first | apply ite_keeps)

theorem judge_keeps {a s : State} {kind : Nat} {h2 : Nat} {unit : Nat} {tested : Bool} {fails : Bool} (h : Keeps a s) :
    Keeps a (judge s kind h2 unit tested fails).1 := by
  unfold judge
  try dsimp only
  repeat' first
    | (with_reducible first | assumption | exact Keeps.refl _ | apply logEvent_keeps | apply softAdd_keeps)
    | intro _
    | (with_reducible first | apply ite_keeps)
    | split

theorem judge_keeps' {a s t : State} {kind : Nat} {h2 : Nat} {unit : Nat} {tested : Bool} {fails : Bool} {y : Bool}
    (e : judge s kind h2 unit tested fails = (t, y)) (h : Keeps a s) : Keeps a t := by
  have k : Keeps a (judge s kind h2 unit tested fails).1 := judge_keeps h 
  rw [e] at k
  exact k

theorem judgeStairs_keeps {a s : State} {r : BringupReport} {h1 : HallId} (h : Keeps a s) : Keeps a
    (judgeStairs s r h1) := by
  unfold judgeStairs
  try dsimp only
  repeat' first
    | (with_reducible first
        | assumption | exact Keeps.refl _ | apply modLanding_keeps | apply judge_keeps | apply modStair_keeps
        | apply foldl_keeps | apply foldl_fst_keeps)
    | refine judge_keeps' (by assumption) ?_
    | intro _
    | (with_reducible first | apply ite_keeps)

theorem judgeHallParts_keeps {a s : State} {r : BringupReport} {h1 : HallId} (h : Keeps a s) : Keeps a
    (judgeHallParts s r h1) := by
  unfold judgeHallParts
  try dsimp only
  repeat' first
    | (with_reducible first
        | assumption | exact Keeps.refl _ | apply judge_keeps | apply modHall_keeps | apply retireLayer_keeps
        | apply foldl_keeps | apply foldl_fst_keeps)
    | refine judge_keeps' (by assumption) ?_
    | exact (fun _ hx i => hx i : KeepsRings _)
    | exact (fun hx i => hx i)
    | intro _
    | (with_reducible first | apply ite_keeps)

theorem reconcileHall_keeps {a s : State} {r : BringupReport} {n : HallId} (h : Keeps a s) :
    Keeps a (reconcileHall s r n) := by
  have k : Keeps a (judge (judgeHallParts (judgeStairs s r n) r n) 6 n 0 true (r.pllFail.elem n)).1 :=
    judge_keeps (judgeHallParts_keeps (judgeStairs_keeps h))
  unfold reconcileHall
  apply wakeColumns_keeps
  apply adoptAll_keeps
  apply assignNumbers_keeps
  apply drawSeed_keeps
  refine modHall_keeps ?_ fun _ hx i => hx i
  exact ite_keeps (raiseAlert_keeps (logEvent_keeps k)) k

theorem bootCauses_keeps {a s : State}  (h : Keeps a s) : Keeps a (bootCauses s) := by
  unfold bootCauses
  try dsimp only
  repeat' first
    | (with_reducible first | assumption | exact Keeps.refl _ | apply replaceCause_keeps)
    | intro _
    | (with_reducible first | apply ite_keeps)

theorem reconcile_keeps {a s : State} {r : BringupReport} (h : Keeps a s) : Keeps a (reconcile s r) := by
  unfold reconcile
  try dsimp only
  repeat' first
    | (with_reducible first | assumption | exact Keeps.refl _ | apply reconcileHall_keeps | apply judge_keeps)
    | refine judge_keeps' (by assumption) ?_
    | (with_reducible first
        | apply modHost_keeps | apply bootCauses_keeps | apply foldl_keeps | apply foldl_fst_keeps)
    | intro _
    | (with_reducible first | apply ite_keeps)

theorem bootRest_keeps {a s : State} {r : BringupReport} (h : Keeps a s) : Keeps a (bootRest s r) := by
  unfold bootRest
  try dsimp only
  repeat' first
    | (with_reducible first
        | assumption | exact Keeps.refl _ | apply modPorter_keeps | apply modHost_keeps | apply bootHalt_keeps
        | apply replaceCause_keeps | apply logEvent_keeps | apply reconcile_keeps | apply foldl_keeps
        | apply foldl_fst_keeps)
    | exact (fun _ => rfl : KeepsFuses _)
    | intro _
    | (with_reducible first | apply ite_keeps)
    | split

theorem bootPorterUp_keeps {a s : State} {r : BringupReport} {slotB : Bool} (h : Keeps a s) : Keeps a
    (bootPorterUp s r slotB) := by
  unfold bootPorterUp
  try dsimp only
  repeat' first
    | (with_reducible first
        | assumption | exact Keeps.refl _ | apply bootPorter_keeps | apply bootHalt_keeps | apply bootNet_keeps
        | apply modPorter_keeps | apply bootRest_keeps | apply bootLinks_keeps)
    | exact (fun _ => rfl : KeepsFuses _)
    | intro _
    | (with_reducible first | apply ite_keeps)

theorem execPorterRelease_keeps (r : BringupReport) (slotStraps : Fin 8) (s : State) :
    ∃ t, execPorterRelease r slotStraps s = .next t ∧ Keeps s t := by
  unfold execPorterRelease
  refine ⟨_, rfl, ?_⟩
  try dsimp only
  repeat' first
    | (with_reducible first | assumption | exact Keeps.refl _ | apply modPorter_keeps | apply bootPorterUp_keeps)
    | exact (fun _ => rfl : KeepsFuses _)
    | intro _
    | (with_reducible first | apply ite_keeps)

theorem execPllLockLoss_keeps (h1 : HallId) (s : State) : ∃ t, execPllLockLoss h1 s = .next t ∧ Keeps s t := by
  unfold execPllLockLoss
  refine ⟨_, rfl, ?_⟩
  try dsimp only
  repeat' first
    | (with_reducible first
        | assumption | exact Keeps.refl _ | apply modHall_keeps | apply loseNetwork_keeps
        | apply replaceCause_keeps)
    | exact (fun _ hx i => hx i : KeepsRings _)
    | exact (fun hx i => hx i)
    | intro _
    | (with_reducible first | apply ite_keeps)

theorem holdHall_keeps {a s : State} {h1 : HallId} (h : Keeps a s) : Keeps a (holdHall s h1) := by
  unfold holdHall
  try dsimp only
  repeat' first
    | (with_reducible first
        | assumption | exact Keeps.refl _ | apply stopHall_keeps | apply modHall_keeps | apply portDown_keeps)
    | exact (fun _ hx i => hx i : KeepsRings _)

theorem execRefLost_keeps  (s : State) : ∃ t, execRefLost s = .next t ∧ Keeps s t := by
  unfold execRefLost
  refine ⟨_, rfl, ?_⟩
  try dsimp only
  repeat' first
    | (with_reducible first
        | assumption | exact Keeps.refl _ | apply holdHall_keeps | apply modPorter_keeps | apply replaceCause_keeps
        | apply foldl_keeps | apply foldl_fst_keeps)
    | exact (fun _ => rfl : KeepsFuses _)
    | intro _
    | (with_reducible first | apply ite_keeps)
    | split
    | refine hallsMap_keeps ?_ (fun _ => rfl) (fun _ hq => hq)

end Sys2Proof.Machine
end

