-- ==== Sys2Proof/Laws/KeepsClasps.lean ====
section
/-! SUPPORT. What the operations of Machine/Clasps.lean keep of a state. -/

namespace Sys2Proof.Machine

theorem execCtrInit_keeps (rq : Requester) (k : ClaspId) (v : Word) (s : State) : ∃ t, execCtrInit rq k v s = .next
    t ∧ Keeps s t := by
  unfold execCtrInit
  refine ⟨_, rfl, ?_⟩
  try dsimp only
  repeat' first
    | (with_reducible first | assumption | exact Keeps.refl _ | apply settle_keeps | apply claspRequest_keeps)

theorem execFlagInit_keeps (rq : Requester) (k : ClaspId) (v : Word) (s : State) : ∃ t, execFlagInit rq k v s =
    .next t ∧ Keeps s t := by
  unfold execFlagInit
  refine ⟨_, rfl, ?_⟩
  try dsimp only
  repeat' first
    | (with_reducible first | assumption | exact Keeps.refl _ | apply settle_keeps | apply claspRequest_keeps)

theorem execLockInit_keeps (rq : Requester) (k : ClaspId) (v : Word) (s : State) : ∃ t, execLockInit rq k v s =
    .next t ∧ Keeps s t := by
  unfold execLockInit
  refine ⟨_, rfl, ?_⟩
  try dsimp only
  repeat' first
    | (with_reducible first | assumption | exact Keeps.refl _ | apply settle_keeps | apply claspRequest_keeps)

theorem execDrop_keeps (rq : Requester) (k : ClaspId) (v : Word) (s : State) : ∃ t, execDrop rq k v s = .next t ∧
    Keeps s t := by
  unfold execDrop
  refine ⟨_, rfl, ?_⟩
  try dsimp only
  repeat' first
    | (with_reducible first | assumption | exact Keeps.refl _ | apply settle_keeps | apply claspRequest_keeps)

theorem execCtrAdd_keeps (rq : Requester) (k : ClaspId) (v : Word) (s : State) : ∃ t, execCtrAdd rq k v s = .next t
    ∧ Keeps s t := by
  unfold execCtrAdd
  refine ⟨_, rfl, ?_⟩
  try dsimp only
  repeat' first
    | (with_reducible first | assumption | exact Keeps.refl _ | apply settle_keeps | apply claspRequest_keeps)

theorem execCtrArrive_keeps (rq : Requester) (k : ClaspId) (v : Word) (s : State) : ∃ t, execCtrArrive rq k v s =
    .next t ∧ Keeps s t := by
  unfold execCtrArrive
  refine ⟨_, rfl, ?_⟩
  try dsimp only
  repeat' first
    | (with_reducible first | assumption | exact Keeps.refl _ | apply settle_keeps | apply claspRequest_keeps)

theorem execCtrWait_keeps (rq : Requester) (k : ClaspId) (v : Word) (s : State) : ∃ t, execCtrWait rq k v s = .next
    t ∧ Keeps s t := by
  unfold execCtrWait
  refine ⟨_, rfl, ?_⟩
  try dsimp only
  repeat' first
    | (with_reducible first | assumption | exact Keeps.refl _ | apply settle_keeps | apply claspRequest_keeps)

theorem execCtrSet_keeps (rq : Requester) (k : ClaspId) (v : Word) (s : State) : ∃ t, execCtrSet rq k v s = .next t
    ∧ Keeps s t := by
  unfold execCtrSet
  refine ⟨_, rfl, ?_⟩
  try dsimp only
  repeat' first
    | (with_reducible first | assumption | exact Keeps.refl _ | apply settle_keeps | apply claspRequest_keeps)

theorem execFlagSet_keeps (rq : Requester) (k : ClaspId) (v : Word) (s : State) : ∃ t, execFlagSet rq k v s = .next
    t ∧ Keeps s t := by
  unfold execFlagSet
  refine ⟨_, rfl, ?_⟩
  try dsimp only
  repeat' first
    | (with_reducible first | assumption | exact Keeps.refl _ | apply settle_keeps | apply claspRequest_keeps)

theorem execFlagClear_keeps (rq : Requester) (k : ClaspId) (v : Word) (s : State) : ∃ t, execFlagClear rq k v s =
    .next t ∧ Keeps s t := by
  unfold execFlagClear
  refine ⟨_, rfl, ?_⟩
  try dsimp only
  repeat' first
    | (with_reducible first | assumption | exact Keeps.refl _ | apply settle_keeps | apply claspRequest_keeps)

theorem execFlagWait_keeps (rq : Requester) (k : ClaspId) (v : Word) (s : State) : ∃ t, execFlagWait rq k v s =
    .next t ∧ Keeps s t := by
  unfold execFlagWait
  refine ⟨_, rfl, ?_⟩
  try dsimp only
  repeat' first
    | (with_reducible first | assumption | exact Keeps.refl _ | apply settle_keeps | apply claspRequest_keeps)

theorem execLockTry_keeps (rq : Requester) (k : ClaspId) (v : Word) (s : State) : ∃ t, execLockTry rq k v s = .next
    t ∧ Keeps s t := by
  unfold execLockTry
  refine ⟨_, rfl, ?_⟩
  try dsimp only
  repeat' first
    | (with_reducible first | assumption | exact Keeps.refl _ | apply settle_keeps | apply claspRequest_keeps)

theorem execLockTake_keeps (rq : Requester) (k : ClaspId) (v : Word) (s : State) : ∃ t, execLockTake rq k v s =
    .next t ∧ Keeps s t := by
  unfold execLockTake
  refine ⟨_, rfl, ?_⟩
  try dsimp only
  repeat' first
    | (with_reducible first | assumption | exact Keeps.refl _ | apply settle_keeps | apply claspRequest_keeps)

theorem execLockRelease_keeps (rq : Requester) (k : ClaspId) (v : Word) (s : State) : ∃ t, execLockRelease rq k v s
    = .next t ∧ Keeps s t := by
  unfold execLockRelease
  refine ⟨_, rfl, ?_⟩
  try dsimp only
  repeat' first
    | (with_reducible first | assumption | exact Keeps.refl _ | apply settle_keeps | apply claspRequest_keeps)

theorem execLockBreak_keeps (rq : Requester) (k : ClaspId) (v : Word) (s : State) : ∃ t, execLockBreak rq k v s =
    .next t ∧ Keeps s t := by
  unfold execLockBreak
  refine ⟨_, rfl, ?_⟩
  try dsimp only
  repeat' first
    | (with_reducible first | assumption | exact Keeps.refl _ | apply settle_keeps | apply claspRequest_keeps)

theorem execClaspOp_keeps (c : Nat) (s : State) : ∃ t, execClaspOp c s = .next t ∧ Keeps s t := by
  unfold execClaspOp
  refine ⟨_, rfl, ?_⟩
  try dsimp only
  repeat' first
    | (with_reducible first
        | assumption | exact Keeps.refl _ | apply withClaim_keeps | apply complete_keeps | apply settle_keeps
        | apply claspRequest_keeps)
    | intro _
    | (with_reducible first | apply ite_keeps)

theorem execClaspRepresent_keeps (i : Nat) (s : State) : ∃ t, execClaspRepresent i s = .next t ∧ Keeps s t := by
  unfold execClaspRepresent
  refine ⟨_, rfl, ?_⟩
  try dsimp only
  repeat' first
    | (with_reducible first | assumption | exact Keeps.refl _ | apply settle_keeps | apply representAt_keeps)

end Sys2Proof.Machine
end

