-- ==== Sys2Proof/Laws/KeepsPowerOps.lean ====
section
/-! SUPPORT. What the operations of Machine/PowerOps.lean keep of a state. -/

namespace Sys2Proof.Machine

theorem convertK_keeps {a s : State} {h1 : Nat} {f : Nat → Nat} (h : Keeps a s) : Keeps a (convertK s h1 f) := by
  unfold convertK
  try dsimp only
  repeat' first
    | (with_reducible first | assumption | exact Keeps.refl _)
    | intro _
    | (with_reducible first | apply ite_keeps)
    | split
    | (with_reducible first | apply other_keeps)

theorem followDiv_keeps {a s : State} {h1 : Nat} (h : Keeps a s) : Keeps a (followDiv s h1) := by
  unfold followDiv
  try dsimp only
  repeat' first
    | (with_reducible first | assumption | exact Keeps.refl _ | apply modHall_keeps | apply convertK_keeps)
    | exact (fun _ hx i => hx i : KeepsRings _)
    | exact (fun hx i => hx i)
    | intro _
    | (with_reducible first | apply ite_keeps)

theorem removeLoad_keeps {a s : State}  (h : Keeps a s) : Keeps a (removeLoad s) := by
  unfold removeLoad
  try dsimp only
  repeat' first
    | (with_reducible first
        | assumption | exact Keeps.refl _ | apply holdHall_keeps | apply modHost_keeps | apply modPorter_keeps
        | apply powerOff_keeps)
    | exact (fun _ => rfl : KeepsFuses _)
    | intro _
    | (with_reducible first | apply ite_keeps)

theorem stepD_keeps {a s : State} {h1 : HallId} {up : Bool} (h : Keeps a s) : Keeps a (stepD s h1 up) := by
  unfold stepD
  try dsimp only
  repeat' first
    | (with_reducible first
        | assumption | exact Keeps.refl _ | apply modHall_keeps | apply settle_keeps | apply holdLost_keeps
        | apply followDiv_keeps)
    | exact (fun _ hx i => hx i : KeepsRings _)

theorem execDStepSlot_keeps  (s : State) : ∃ t, execDStepSlot s = .next t ∧ Keeps s t := by
  unfold execDStepSlot
  refine ⟨_, rfl, ?_⟩
  try dsimp only
  repeat' first
    | (with_reducible first
        | assumption | exact Keeps.refl _ | apply modPorter_keeps | apply stepD_keeps | apply removeLoad_keeps)
    | exact (fun _ => rfl : KeepsFuses _)
    | intro _
    | (with_reducible first | apply ite_keeps)
    | split

theorem execStartGateOpen_keeps  (s : State) : ∃ t, execStartGateOpen s = .next t ∧ Keeps s t := by
  unfold execStartGateOpen
  refine ⟨_, rfl, ?_⟩
  try dsimp only
  repeat' first
    | (with_reducible first | assumption | exact Keeps.refl _ | apply powerOff_keeps | apply modPorter_keeps)
    | exact (fun _ => rfl : KeepsFuses _)
    | intro _
    | (with_reducible first | apply ite_keeps)

theorem setEn_keeps {a s : State} {b : Bool} (h : Keeps a s) : Keeps a (setEn s b) := by
  unfold setEn
  try dsimp only
  repeat' first
    | (with_reducible first | assumption | exact Keeps.refl _ | apply modPorter_keeps)
    | exact (fun _ => rfl : KeepsFuses _)

theorem execEnableFall_keeps  (s : State) : ∃ t, execEnableFall s = .next t ∧ Keeps s t := by
  unfold execEnableFall
  refine ⟨_, rfl, ?_⟩
  try dsimp only
  repeat' first
    | (with_reducible first
        | assumption | exact Keeps.refl _ | apply setEn_keeps | apply modHost_keeps | apply modPorter_keeps
        | apply settle_keeps | apply holdLost_keeps | apply followDiv_keeps | apply powerOff_keeps
        | apply foldl_keeps | apply foldl_fst_keeps)
    | exact (fun _ => rfl : KeepsFuses _)
    | intro _
    | (with_reducible first | apply ite_keeps)
    | split

theorem dropAll_keeps {a s : State}  (h : Keeps a s) : Keeps a (dropAll s) := by
  unfold dropAll
  try dsimp only
  repeat' first
    | (with_reducible first | assumption | exact Keeps.refl _ | apply powerOff_keeps)
    | intro _
    | (with_reducible first | apply ite_keeps)
    | split

theorem execInputLoss_keeps  (s : State) : ∃ t, execInputLoss s = .next t ∧ Keeps s t := by
  unfold execInputLoss
  refine ⟨_, rfl, ?_⟩
  try dsimp only
  repeat' first
    | (with_reducible first | assumption | exact Keeps.refl _ | apply dropAll_keeps)

theorem railFault_keeps {a s : State} {h1 : HallId} (h : Keeps a s) : Keeps a (railFault s h1) := by
  unfold railFault
  try dsimp only
  repeat' first
    | (with_reducible first | assumption | exact Keeps.refl _ | apply modPorter_keeps | apply raiseAlert_keeps)
    | exact (fun _ => rfl : KeepsFuses _)
    | intro _
    | (with_reducible first | apply ite_keeps)

theorem loseCompute_keeps {a s : State} {h1 : HallId} (h : Keeps a s) : Keeps a (loseCompute s h1) := by
  unfold loseCompute
  try dsimp only
  repeat' first
    | (with_reducible first
        | assumption | exact Keeps.refl _ | apply fenceHall_keeps | apply railFault_keeps | apply modHall_keeps)
    | exact (fun _ hx i => hx i : KeepsRings _)

theorem loseNetRail_keeps {a s : State} {h1 : HallId} (h : Keeps a s) : Keeps a (loseNetRail s h1) := by
  unfold loseNetRail
  try dsimp only
  repeat' first
    | (with_reducible first
        | assumption | exact Keeps.refl _ | apply loseNetwork_keeps | apply railFault_keeps | apply modHall_keeps
        | apply replaceCause_keeps)
    | exact (fun _ hx i => hx i : KeepsRings _)

theorem execRailPgoodTimeout_keeps (r : Rail) (s : State) : ∃ t, execRailPgoodTimeout r s = .next t ∧ Keeps s t := by
  unfold execRailPgoodTimeout
  refine ⟨_, rfl, ?_⟩
  try dsimp only
  repeat' first
    | (with_reducible first | assumption | exact Keeps.refl _ | apply modHall_keeps | apply powerOff_keeps)
    | exact (fun _ hx i => hx i : KeepsRings _)
    | exact (fun hx i => hx i)
    | intro _
    | (with_reducible first | apply ite_keeps)
    | split

theorem execRailPgoodLoss_keeps (r : Rail) (s : State) : ∃ t, execRailPgoodLoss r s = .next t ∧ Keeps s t := by
  unfold execRailPgoodLoss
  refine ⟨_, rfl, ?_⟩
  try dsimp only
  repeat' first
    | (with_reducible first
        | assumption | exact Keeps.refl _ | apply loseCompute_keeps | apply loseNetRail_keeps | apply dropAll_keeps)
    | intro _
    | (with_reducible first | apply ite_keeps)
    | split

theorem execInputSample_keeps (mv : Nat) (ma : Nat) (s : State) : ∃ t, execInputSample mv ma s = .next t ∧ Keeps s t := by
  unfold execInputSample
  refine ⟨_, rfl, ?_⟩
  try dsimp only
  repeat' first
    | (with_reducible first | assumption | exact Keeps.refl _ | apply modPorter_keeps)
    | exact (fun _ => rfl : KeepsFuses _)

theorem peakClear_keeps {a s : State} {w : Word} (h : Keeps a s) : Keeps a (peakClear s w) := by
  unfold peakClear
  try dsimp only
  repeat' first
    | (with_reducible first | assumption | exact Keeps.refl _ | apply modPorter_keeps)
    | exact (fun _ => rfl : KeepsFuses _)
    | intro _
    | (with_reducible first | apply ite_keeps)

theorem execPeakClear_keeps (w : Word) (s : State) : ∃ t, execPeakClear w s = .next t ∧ Keeps s t := by
  unfold execPeakClear
  refine ⟨_, rfl, ?_⟩
  try dsimp only
  repeat' first
    | (with_reducible first | assumption | exact Keeps.refl _ | apply peakClear_keeps)
    | intro _
    | (with_reducible first | apply ite_keeps)

end Sys2Proof.Machine
end

