-- ==== Sys2Proof/Laws/KeepsThermal.lean ====
section
/-! SUPPORT. What the operations of Machine/Thermal.lean keep of a state. -/

namespace Sys2Proof.Machine

theorem readHall_keeps {a s : State} {h1 : Nat} {r : HallRound} (h : Keeps a s) : Keeps a (readHall s h1 r) := by
  unfold readHall
  try dsimp only
  repeat' first
    | (with_reducible first
        | assumption | exact Keeps.refl _ | apply modHall_keeps | apply foldl_keeps | apply foldl_fst_keeps)
    | exact (fun _ hx i => hx i : KeepsRings _)

theorem throttle_keeps {a s : State} {h1 : Nat} {busy : List Nat} (h : Keeps a s) : Keeps a (throttle s h1 busy) := by
  unfold throttle
  try dsimp only
  repeat' first
    | (with_reducible first
        | assumption | exact Keeps.refl _ | apply setStair_keeps | apply foldl_keeps | apply foldl_fst_keeps)
    | intro _
    | (with_reducible first | apply ite_keeps)

theorem levelRound_keeps {a s : State} {h1 : Nat} (h : Keeps a s) : Keeps a (levelRound s h1) := by
  unfold levelRound
  try dsimp only
  repeat' first
    | (with_reducible first | assumption | exact Keeps.refl _ | apply modHall_keeps)
    | exact (fun _ hx i => hx i : KeepsRings _)

theorem rampHall_keeps {a s : State} {h1 : Nat} (h : Keeps a s) : Keeps a (rampHall s h1) := by
  unfold rampHall
  try dsimp only
  repeat' first
    | (with_reducible first | assumption | exact Keeps.refl _ | apply modHall_keeps)
    | exact (fun _ hx i => hx i : KeepsRings _)

theorem hallReadings_keeps {a s : State} {h1 : Nat} (h : Keeps a s) : Keeps a (hallReadings s h1) := by
  unfold hallReadings
  try dsimp only
  repeat' first
    | (with_reducible first | assumption | exact Keeps.refl _ | apply modHall_keeps)
    | exact (fun _ hx i => hx i : KeepsRings _)

theorem tripHall_keeps {a s : State} {h1 : HallId} (h : Keeps a s) : Keeps a (tripHall s h1) := by
  unfold tripHall
  try dsimp only
  repeat' first
    | (with_reducible first
        | assumption | exact Keeps.refl _ | apply modHall_keeps | apply followDiv_keeps | apply raiseAlert_keeps
        | apply logEvent_keeps | apply fenceHall_keeps)
    | exact (fun _ hx i => hx i : KeepsRings _)
    | exact (fun hx i => hx i)
    | intro _
    | (with_reducible first | apply ite_keeps)

theorem enterCool_keeps {a s : State} {st : CoolState} (h : Keeps a s) : Keeps a (enterCool s st) := by
  unfold enterCool
  try dsimp only
  repeat' first
    | (with_reducible first
        | assumption | exact Keeps.refl _ | apply modPorter_keeps | apply raiseAlert_keeps | apply logEvent_keeps
        | apply publishDue_keeps)
    | exact (fun _ => rfl : KeepsFuses _)
    | intro _
    | (with_reducible first | apply ite_keeps)

theorem loseDram_keeps {a s : State}  (h : Keeps a s) : Keeps a (loseDram s) := by
  unfold loseDram
  try dsimp only
  repeat' first
    | (with_reducible first
        | assumption | exact Keeps.refl _ | apply enterCool_keeps | apply publish_keeps | apply tripHall_keeps
        | apply foldl_keeps | apply foldl_fst_keeps)
    | intro _
    | (with_reducible first | apply ite_keeps)

theorem releaseLost_keeps {a s : State}  (h : Keeps a s) : Keeps a (releaseLost s) := by
  unfold releaseLost
  try dsimp only
  repeat' first
    | (with_reducible first
        | assumption | exact Keeps.refl _ | apply releaseHall_keeps | apply enterCool_keeps | apply foldl_keeps
        | apply foldl_fst_keeps)
    | intro _
    | (with_reducible first | apply ite_keeps)

theorem coolRound_keeps {a s : State}  (h : Keeps a s) : Keeps a (coolRound s) := by
  unfold coolRound
  try dsimp only
  repeat' first
    | (with_reducible first
        | assumption | exact Keeps.refl _ | apply modPorter_keeps | apply holdLost_keeps | apply followDiv_keeps
        | apply enterCool_keeps | apply releaseLost_keeps | apply foldl_keeps | apply foldl_fst_keeps)
    | exact (fun _ => rfl : KeepsFuses _)
    | intro _
    | (with_reducible first | apply ite_keeps)
    | split

theorem readPorter_keeps {a s : State} {r : RoundInput} (h : Keeps a s) : Keeps a (readPorter s r) := by
  unfold readPorter
  try dsimp only
  repeat' first
    | (with_reducible first | assumption | exact Keeps.refl _ | apply modPorter_keeps)
    | exact (fun _ => rfl : KeepsFuses _)

theorem pelaitikRound_keeps {a s : State}  (h : Keeps a s) : Keeps a (pelaitikRound s) := by
  unfold pelaitikRound
  try dsimp only
  repeat' first
    | (with_reducible first | assumption | exact Keeps.refl _ | apply modPorter_keeps | apply modHost_keeps)
    | exact (fun _ => rfl : KeepsFuses _)
    | intro _
    | (with_reducible first | apply ite_keeps)
    | split

theorem railRound_keeps {a s : State} {h1 : HallId} (h : Keeps a s) : Keeps a (railRound s h1) := by
  unfold railRound
  try dsimp only
  repeat' first
    | (with_reducible first
        | assumption | exact Keeps.refl _ | apply modHall_keeps | apply loseNetRail_keeps | apply loseCompute_keeps
        | apply foldl_keeps | apply foldl_fst_keeps)
    | exact (fun _ hx i => hx i : KeepsRings _)
    | exact (fun hx i => hx i)
    | intro _
    | (with_reducible first | apply ite_keeps)

theorem inputRound_keeps {a s : State} {unsched : Nat} (h : Keeps a s) : Keeps a (inputRound s unsched) := by
  unfold inputRound
  try dsimp only
  repeat' first
    | (with_reducible first
        | assumption | exact Keeps.refl _ | apply modPorter_keeps | apply raiseAlert_keeps | apply foldl_keeps
        | apply foldl_fst_keeps)
    | exact (fun _ => rfl : KeepsFuses _)
    | intro _
    | (with_reducible first | apply ite_keeps)

theorem sumRound_keeps {a s : State}  (h : Keeps a s) : Keeps a (sumRound s) := by
  unfold sumRound
  try dsimp only
  repeat' first
    | (with_reducible first | assumption | exact Keeps.refl _ | apply modPorter_keeps)
    | exact (fun _ => rfl : KeepsFuses _)

theorem hallRound_keeps {a s : State} {h1 : HallId} {busy : List Nat} (h : Keeps a s) : Keeps a (hallRound s h1 busy)
    := by
  unfold hallRound
  try dsimp only
  repeat' first
    | (with_reducible first
        | assumption | exact Keeps.refl _ | apply hallReadings_keeps | apply scrubRegs_keeps | apply tripHall_keeps
        | apply followDiv_keeps
        | apply levelRound_keeps | apply throttle_keeps | apply rampHall_keeps | apply railRound_keeps)
    | intro _
    | (with_reducible first | apply ite_keeps)

theorem execHousekeepingRound_keeps (r : RoundInput) (s : State) : ∃ t, execHousekeepingRound r s = .next t ∧
    Keeps s t := by
  unfold execHousekeepingRound
  refine ⟨_, rfl, ?_⟩
  try dsimp only
  repeat' first
    | (with_reducible first
        | assumption | exact Keeps.refl _ | apply readHall_keeps | apply readPorter_keeps | apply inputRound_keeps
        | apply bootRest_keeps | apply bootLinks_keeps | apply hallRound_keeps | apply loseDram_keeps
        | apply sumRound_keeps | apply pelaitikRound_keeps | apply coolRound_keeps | apply settle_keeps
        | apply replaceCause_keeps | apply foldl_keeps | apply foldl_fst_keeps)
    | intro _
    | (with_reducible first | apply ite_keeps)
    | split

theorem execCoolantWindow_keeps (s : State) : ∃ t, execCoolantWindow s = .next t ∧ Keeps s t := by
  have k : Keeps s { (s.modPorter fun p => { p with cool := p.cool.window s.fresh }) with fresh := s.fresh + 2 } :=
    fresh_keeps (s := s.modPorter fun p => { p with cool := p.cool.window s.fresh })
      (modPorter_keeps (Keeps.refl s) fun _ => rfl)
  have m : ∀ t : State, Keeps s t → Keeps s (match t.porter.cool.state with
      | .normal => if t.porter.cool.isDegraded then enterCool t .degraded else t
      | .degraded => if t.porter.cool.isDegraded then t else enterCool t .normal
      | _ => t) := by
    intro t h
    split
    · exact ite_keeps (enterCool_keeps h) h
    · exact ite_keeps h (enterCool_keeps h)
    · exact h
  refine ⟨_, rfl, ?_⟩
  apply ite_keeps (Keeps.refl s)
  exact ite_keeps (replaceCause_keeps (m _ k)) (m _ k)

end Sys2Proof.Machine
end

