-- ==== Sys2Proof/Laws/KeepsHostOps.lean ====
section
/-! SUPPORT. What the operations of Machine/HostOps.lean keep of a state. -/

namespace Sys2Proof.Machine

theorem tierRefuse_keeps {a s : State}  (h : Keeps a s) : Keeps a (tierRefuse s) := by
  unfold tierRefuse
  try dsimp only
  repeat' first
    | (with_reducible first | assumption | exact Keeps.refl _ | apply modHost_keeps)

theorem tierCfg_keeps {a s : State} {r : TierReg} {w : Word} (h : Keeps a s) : Keeps a (tierCfg s r w) := by
  unfold tierCfg
  try dsimp only
  repeat' first
    | (with_reducible first | assumption | exact Keeps.refl _ | apply tierRefuse_keeps | apply modHost_keeps)
    | intro _
    | (with_reducible first | apply ite_keeps)
    | split

theorem execTierCfgWrite_keeps (r : TierReg) (w : Word) (s : State) : ∃ t, execTierCfgWrite r w s = .next t ∧ Keeps
    s t := by
  unfold execTierCfgWrite
  refine ⟨_, rfl, ?_⟩
  try dsimp only
  repeat' first
    | (with_reducible first | assumption | exact Keeps.refl _ | apply tierCfg_keeps)
    | intro _
    | (with_reducible first | apply ite_keeps)

theorem fardecWrite_keeps {a s : State} {r : FardecReg} {w : Word} (h : Keeps a s) : Keeps a (fardecWrite s r w) := by
  unfold fardecWrite
  try dsimp only
  repeat' first
    | (with_reducible first | assumption | exact Keeps.refl _ | apply tierRefuse_keeps | apply modHost_keeps)
    | intro _
    | (with_reducible first | apply ite_keeps)

theorem execFardecWrite_keeps (r : FardecReg) (w : Word) (s : State) : ∃ t, execFardecWrite r w s = .next t ∧ Keeps
    s t := by
  unfold execFardecWrite
  refine ⟨_, rfl, ?_⟩
  try dsimp only
  repeat' first
    | (with_reducible first | assumption | exact Keeps.refl _ | apply fardecWrite_keeps)
    | intro _
    | (with_reducible first | apply ite_keeps)

theorem portaWin_keeps {a s : State} {r : PortaReg} {w : Word} (h : Keeps a s) : Keeps a (portaWin s r w) := by
  unfold portaWin
  try dsimp only
  repeat' first
    | (with_reducible first | assumption | exact Keeps.refl _ | apply modHost_keeps)
    | intro _
    | (with_reducible first | apply ite_keeps)
    | split

theorem execPortaWinWrite_keeps (r : PortaReg) (w : Word) (s : State) : ∃ t, execPortaWinWrite r w s = .next t ∧
    Keeps s t := by
  unfold execPortaWinWrite
  refine ⟨_, rfl, ?_⟩
  try dsimp only
  repeat' first
    | (with_reducible first | assumption | exact Keeps.refl _ | apply portaWin_keeps)
    | intro _
    | (with_reducible first | apply ite_keeps)

theorem portaIrq_keeps {a s : State} {w : Word} (h : Keeps a s) : Keeps a (portaIrq s w) := by
  unfold portaIrq
  try dsimp only
  repeat' first
    | (with_reducible first | assumption | exact Keeps.refl _ | apply emit_keeps)

theorem execPortaIrq_keeps (w : Word) (s : State) : ∃ t, execPortaIrq w s = .next t ∧ Keeps s t := by
  unfold execPortaIrq
  refine ⟨_, rfl, ?_⟩
  try dsimp only
  repeat' first
    | (with_reducible first | assumption | exact Keeps.refl _ | apply portaIrq_keeps)
    | intro _
    | (with_reducible first | apply ite_keeps)

theorem execMailboxWrite_keeps (off : Nat) (size : Nat) (value : Dword) (s : State) : ∃ t, execMailboxWrite off size
    value s = .next t ∧ Keeps s t := by
  unfold execMailboxWrite
  refine ⟨_, rfl, ?_⟩
  try dsimp only
  repeat' first
    | (with_reducible first | assumption | exact Keeps.refl _ | apply emit_keeps | apply modHost_keeps)
    | intro _
    | (with_reducible first | apply ite_keeps)

theorem execPortaLinkChange_keeps (perst : Bool) (width : Nat) (gen : Nat) (s : State) : ∃ t, execPortaLinkChange perst
    width gen s = .next t ∧ Keeps s t := by
  unfold execPortaLinkChange
  refine ⟨_, rfl, ?_⟩
  try dsimp only
  repeat' first
    | (with_reducible first | assumption | exact Keeps.refl _ | apply modHost_keeps | apply publishDue_keeps)
    | intro _
    | (with_reducible first | apply ite_keeps)

theorem stopFarBursts_keeps {a s : State}  (h : Keeps a s) : Keeps a (stopFarBursts s) := by
  unfold stopFarBursts
  try dsimp only
  repeat' first
    | (with_reducible first
        | assumption | exact Keeps.refl _ | apply stopChannel_keeps | apply foldl_keeps | apply foldl_fst_keeps)
    | intro _
    | (with_reducible first | apply ite_keeps)
    | split

theorem execPortbLinkLoss_keeps  (s : State) : ∃ t, execPortbLinkLoss s = .next t ∧ Keeps s t := by
  unfold execPortbLinkLoss
  refine ⟨_, rfl, ?_⟩
  try dsimp only
  repeat' first
    | (with_reducible first
        | assumption | exact Keeps.refl _ | apply publishDue_keeps | apply modHost_keeps
        | apply stopFarBursts_keeps)
    | intro _
    | (with_reducible first | apply ite_keeps)

theorem execPortbLinkUp_keeps (width : Nat) (gen : Nat) (cxl : Bool) (s : State) : ∃ t, execPortbLinkUp width gen cxl s
    = .next t ∧ Keeps s t := by
  unfold execPortbLinkUp
  refine ⟨_, rfl, ?_⟩
  try dsimp only
  repeat' first
    | (with_reducible first | assumption | exact Keeps.refl _ | apply publishDue_keeps | apply modHost_keeps)
    | intro _
    | (with_reducible first | apply ite_keeps)

theorem execPbPerstRelease_keeps  (s : State) : ∃ t, execPbPerstRelease s = .next t ∧ Keeps s t := by
  unfold execPbPerstRelease
  refine ⟨_, rfl, ?_⟩
  try dsimp only
  repeat' first
    | (with_reducible first | assumption | exact Keeps.refl _ | apply modHost_keeps)
    | intro _
    | (with_reducible first | apply ite_keeps)
    | split

theorem execCableInsert_keeps (h0 : HallId) (watts : Nat) (s : State) : ∃ t, execCableInsert h0 watts s = .next t ∧
    Keeps s t := by
  unfold execCableInsert
  refine ⟨_, rfl, ?_⟩
  try dsimp only
  repeat' first
    | (with_reducible first
        | assumption | exact Keeps.refl _ | apply modPort_keeps | apply startTraining_keeps | apply portDown_keeps)
    | intro _
    | (with_reducible first | apply ite_keeps)

theorem errlogCfg_keeps {a s : State} {r : ErrlogReg} {w : Word} (h : Keeps a s) : Keeps a (errlogCfg s r w) := by
  unfold errlogCfg
  try dsimp only
  repeat' first
    | (with_reducible first | assumption | exact Keeps.refl _ | apply setErrLog_keeps)
    | intro _
    | (with_reducible first | apply ite_keeps)
    | split

theorem execErrlogCfgWrite_keeps (r : ErrlogReg) (w : Word) (s : State) : ∃ t, execErrlogCfgWrite r w s = .next t ∧
    Keeps s t := by
  unfold execErrlogCfgWrite
  refine ⟨_, rfl, ?_⟩
  try dsimp only
  repeat' first
    | (with_reducible first | assumption | exact Keeps.refl _ | apply errlogCfg_keeps)
    | intro _
    | (with_reducible first | apply ite_keeps)

theorem errlogHead_keeps {a s : State} {w : Word} (h : Keeps a s) : Keeps a (errlogHead s w) := by
  unfold errlogHead
  try dsimp only
  repeat' first
    | (with_reducible first | assumption | exact Keeps.refl _ | apply setErrLog_keeps)

theorem execErrlogHeadWrite_keeps (w : Word) (s : State) : ∃ t, execErrlogHeadWrite w s = .next t ∧ Keeps s t := by
  unfold execErrlogHeadWrite
  refine ⟨_, rfl, ?_⟩
  try dsimp only
  repeat' first
    | (with_reducible first | assumption | exact Keeps.refl _ | apply errlogHead_keeps)
    | intro _
    | (with_reducible first | apply ite_keeps)

end Sys2Proof.Machine
end

