-- ==== Sys2Proof/Laws/KeepsFirmware.lean ====
section
/-! SUPPORT. What the operations of Machine/Firmware.lean keep of a state. -/

namespace Sys2Proof.Machine

theorem modFw_keeps {a s : State} {f : FwUpd → FwUpd} (h : Keeps a s) : Keeps a (State.modFw s f) := by
  unfold State.modFw
  try dsimp only
  repeat' first
    | (with_reducible first | assumption | exact Keeps.refl _ | apply modPorter_keeps)
    | exact (fun _ => rfl : KeepsFuses _)

theorem setBundle_keeps {a s : State} {slotB : Bool} {b : Bundle} (h : Keeps a s) : Keeps a
    (State.setBundle s slotB b) := by
  unfold State.setBundle
  try dsimp only
  repeat' first
    | (with_reducible first | assumption | exact Keeps.refl _ | apply modPorter_keeps)
    | exact (fun _ => rfl : KeepsFuses _)

theorem fwStage_keeps {a s : State}  (h : Keeps a s) : Keeps a (fwStage s) := by
  unfold fwStage
  try dsimp only
  repeat' first
    | (with_reducible first | assumption | exact Keeps.refl _ | apply modFw_keeps)
    | intro _
    | (with_reducible first | apply ite_keeps)

theorem execFwupdStage_keeps  (s : State) : ∃ t, execFwupdStage s = .next t ∧ Keeps s t := by
  unfold execFwupdStage
  refine ⟨_, rfl, ?_⟩
  try dsimp only
  repeat' first
    | (with_reducible first | assumption | exact Keeps.refl _ | apply fwStage_keeps)
    | intro _
    | (with_reducible first | apply ite_keeps)

theorem fwCommitStart_keeps {a s : State} {classes : Nat} {i3c : Bool} (h : Keeps a s) : Keeps a
    (fwCommitStart s classes i3c) := by
  unfold fwCommitStart
  try dsimp only
  repeat' first
    | (with_reducible first | assumption | exact Keeps.refl _ | apply modFw_keeps)

theorem fwCommit_keeps {a s : State} {classes : Nat} (h : Keeps a s) : Keeps a (fwCommit s classes) := by
  unfold fwCommit
  try dsimp only
  repeat' first
    | (with_reducible first | assumption | exact Keeps.refl _ | apply fwCommitStart_keeps)
    | intro _
    | (with_reducible first | apply ite_keeps)

theorem execFwupdCommit_keeps (classes : BitVec 3) (s : State) : ∃ t, execFwupdCommit classes s = .next t ∧ Keeps s
    t := by
  unfold execFwupdCommit
  refine ⟨_, rfl, ?_⟩
  try dsimp only
  repeat' first
    | (with_reducible first | assumption | exact Keeps.refl _ | apply fwCommit_keeps)
    | intro _
    | (with_reducible first | apply ite_keeps)

theorem raiseCounters_onward (s : State) (n : Nat) : s.porter.fuses.Onward (raiseCounters s n).porter.fuses := by
  refine ⟨rfl, rfl, rfl, rfl, ?_, ?_, ?_⟩ <;>
  · simp only [raiseCounters, State.modPorter]
    split
    · exact le_max_left _ _
    · exact le_refl _

theorem fwEnd_keeps {a s : State} {status : Nat} (h : Keeps a s) : Keeps a (fwEnd s status) := by
  unfold fwEnd
  try dsimp only
  repeat' first
    | (with_reducible first | assumption | exact Keeps.refl _ | apply raiseAlert_keeps | apply modFw_keeps)

theorem Fuses.Onward.refl (f : Fuses) : f.Onward f := ⟨rfl, rfl, rfl, rfl, le_refl _, le_refl _, le_refl _⟩

theorem kept_onward {s t : State} (h : Keeps s t) : s.porter.fuses.Onward t.porter.fuses ∧
    Keeps s { t with porter := { t.porter with fuses := s.porter.fuses } } := by
  refine ⟨?_, h.now, h.pending, h.out, h.fresh, rfl, h.mem, h.rings⟩
  rw [h.fuses]
  exact Fuses.Onward.refl _

/-- What follows the raising of the fused counters keeps all but them. -/
theorem raised_keeps {s t : State} {n : Nat} (h : Keeps (raiseCounters s n) t) :
    s.porter.fuses.Onward t.porter.fuses ∧
      Keeps s { t with porter := { t.porter with fuses := s.porter.fuses } } := by
  refine ⟨?_, h.now, h.pending, h.out, h.fresh, rfl, h.mem, h.rings⟩
  rw [h.fuses]
  exact raiseCounters_onward s n

theorem execFwupdDone_onward (ok : Bool) (s : State) : ∃ t, execFwupdDone ok s = .next t ∧
    s.porter.fuses.Onward t.porter.fuses ∧ Keeps s { t with porter := { t.porter with fuses := s.porter.fuses } } := by
  refine ⟨_, rfl, ?_⟩
  have e : ∀ {a u : State} {v : Nat} {b : List Byte} {c : Bool}, Keeps a u →
      Keeps a (if c then respEnd (fwEnd u v) Frame.ok (leBytes 4 (fwEnd u v).fwSvn) else fwEnd u v) :=
    fun h => ite_keeps (respEnd_keeps (fwEnd_keeps h)) (fwEnd_keeps h)
  dsimp only
  split
  · exact kept_onward (Keeps.refl s)
  · split
    · apply kept_onward
      apply logEvent_keeps
      apply fwEnd_keeps
      apply ite_keeps
      · exact setBundle_keeps (Keeps.refl s)
      · exact ite_keeps (setBundle_keeps (Keeps.refl s)) (Keeps.refl s)
    · by_cases hr : s.porter.fw.result = FwStatus.ok
      · simp only [hr, if_true]
        exact raised_keeps (e (b := []) (logEvent_keeps (Keeps.refl _)))
      · simp only [hr, if_false]
        exact kept_onward (e (b := []) (Keeps.refl s))

end Sys2Proof.Machine
end

