-- ==== Sys2Proof/Laws/KeepsManager.lean ====
section
/-! SUPPORT. What the operations of Machine/Manager.lean keep of a state. -/

namespace Sys2Proof.Machine

theorem execClaimSend_keeps  (s : State) : ∃ t, execClaimSend s = .next t ∧ Keeps s t := by
  unfold execClaimSend
  refine ⟨_, rfl, ?_⟩
  try dsimp only
  repeat' first
    | (with_reducible first | assumption | exact Keeps.refl _ | apply sendLinks_keeps | apply modFab_keeps)
    | intro _
    | (with_reducible first | apply ite_keeps)

theorem hearEpoch_keeps {a s : State} {e1 : Word} (h : Keeps a s) : Keeps a (hearEpoch s e1) := by
  unfold hearEpoch
  try dsimp only
  repeat' first
    | (with_reducible first | assumption | exact Keeps.refl _ | apply modFab_keeps)

theorem execClaim_keeps (h1 : HallId) (p : FabPacket) (s : State) : ∃ t, execClaim h1 p s = .next t ∧ Keeps s t := by
  unfold execClaim
  refine ⟨_, rfl, ?_⟩
  try dsimp only
  repeat' first
    | (with_reducible first
        | assumption | exact Keeps.refl _ | apply mgmtIn_keeps | apply hearEpoch_keeps | apply modFab_keeps
        | apply fabIrq_keeps)
    | intro _
    | (with_reducible first | apply ite_keeps)

theorem execManagerElected_keeps  (s : State) : ∃ t, execManagerElected s = .next t ∧ Keeps s t := by
  unfold execManagerElected
  refine ⟨_, rfl, ?_⟩
  try dsimp only
  repeat' first
    | (with_reducible first | assumption | exact Keeps.refl _ | apply fabIrq_keeps | apply modFab_keeps)
    | intro _
    | (with_reducible first | apply ite_keeps)

theorem execHeartbeatSend_keeps  (s : State) : ∃ t, execHeartbeatSend s = .next t ∧ Keeps s t := by
  unfold execHeartbeatSend
  refine ⟨_, rfl, ?_⟩
  try dsimp only
  repeat' first
    | (with_reducible first | assumption | exact Keeps.refl _ | apply modFab_keeps | apply sendLinks_keeps)
    | intro _
    | (with_reducible first | apply ite_keeps)

theorem holdManager_keeps {a s : State} {m : MgmtMsg} (h : Keeps a s) : Keeps a (holdManager s m) := by
  unfold holdManager
  try dsimp only
  repeat' first
    | (with_reducible first | assumption | exact Keeps.refl _ | apply modFab_keeps | apply fabIrq_keeps)
    | intro _
    | (with_reducible first | apply ite_keeps)

theorem execHeartbeat_keeps (h1 : HallId) (p : FabPacket) (s : State) : ∃ t, execHeartbeat h1 p s = .next t ∧
    Keeps s t := by
  unfold execHeartbeat
  refine ⟨_, rfl, ?_⟩
  try dsimp only
  repeat' first
    | (with_reducible first
        | assumption | exact Keeps.refl _ | apply mgmtIn_keeps | apply modFab_keeps | apply sendLinks_keeps
        | apply holdManager_keeps | apply takeEpoch_keeps)
    | intro _
    | (with_reducible first | apply ite_keeps)

theorem execHeartbeatLoss_keeps  (s : State) : ∃ t, execHeartbeatLoss s = .next t ∧ Keeps s t := by
  unfold execHeartbeatLoss
  refine ⟨_, rfl, ?_⟩
  try dsimp only
  repeat' first
    | (with_reducible first | assumption | exact Keeps.refl _ | apply fabIrq_keeps | apply modFab_keeps)
    | intro _
    | (with_reducible first | apply ite_keeps)
    | split

theorem request_keeps {a s : State} {h1 : HallId} {p : FabPacket} {mtype : Nat} {ok : List Byte → Bool}
    {run : MgmtMsg → State → State} (h : Keeps a s) (hrun : ∀ m s, Keeps a s → Keeps a (run m s)) :
    Keeps a (request s h1 p mtype ok run) := by
  unfold request
  refine mgmtIn_keeps h fun s hs => ?_
  repeat' first
    | (with_reducible first | assumption | apply sendReply_keeps | apply hrun)
    | (with_reducible first | apply ite_keeps)

theorem managed_keeps {a s : State} {h1 : HallId} {p : FabPacket} {mtype : Nat} {ok : List Byte → Bool}
    {run : List Byte → State → State × Nat} (h : Keeps a s) (hrun : ∀ b s, Keeps a s → Keeps a (run b s).1) :
    Keeps a (managed s h1 p mtype ok run) := by
  unfold managed
  refine request_keeps h fun m s hs => ?_
  repeat' first
    | (with_reducible first | assumption | apply sendReply_keeps | apply hrun)
    | (with_reducible first | apply ite_keeps)

theorem execQuery_keeps (h1 : HallId) (link : Option LinkTag) (p : FabPacket) (s : State) :
    ∃ t, execQuery h1 link p s = .next t ∧ Keeps s t := by
  unfold execQuery
  refine ⟨_, rfl, ?_⟩
  try dsimp only
  repeat' first
    | (with_reducible first | assumption | exact Keeps.refl _ | apply request_keeps | apply sendReply_keeps)
    | intro _

theorem assignId_keeps {a s : State} {b : List Byte} (h : Keeps a s) : Keeps a (assignId b s).1 := by
  unfold assignId
  try dsimp only
  repeat' first
    | (with_reducible first | assumption | exact Keeps.refl _ | apply modFab_keeps)

theorem assignId_keeps' {a s t : State} {b : List Byte} {y : Nat} (e : assignId b s = (t, y)) (h : Keeps a s) :
    Keeps a t := by
  have k : Keeps a (assignId b s).1 := assignId_keeps h
  rw [e] at k
  exact k

theorem execAssignId_keeps (h1 : HallId) (link : Option LinkTag) (p : FabPacket) (s : State) :
    ∃ t, execAssignId h1 link p s = .next t ∧ Keeps s t :=
  ⟨_, rfl, managed_keeps (Keeps.refl s) fun _ _ => assignId_keeps⟩

theorem routeWrite_keeps {a s : State} {b : List Byte} (h : Keeps a s) : Keeps a (routeWrite b s).1 := by
  unfold routeWrite
  dsimp only
  exact modFab_keeps h

theorem execRouteWrite_keeps (h1 : HallId) (link : Option LinkTag) (p : FabPacket) (s : State) :
    ∃ t, execRouteWrite h1 link p s = .next t ∧ Keeps s t :=
  ⟨_, rfl, managed_keeps (Keeps.refl s) fun _ _ => routeWrite_keeps⟩

theorem wclSet_keeps {a s : State} {b : List Byte} (h : Keeps a s) : Keeps a (wclSet b s).1 := by
  unfold wclSet
  dsimp only
  split
  · exact h
  · dsimp only
    refine modPorter_keeps h fun p => ?_
    rfl

theorem execWclSet_keeps (h1 : HallId) (link : Option LinkTag) (p : FabPacket) (s : State) :
    ∃ t, execWclSet h1 link p s = .next t ∧ Keeps s t :=
  ⟨_, rfl, managed_keeps (Keeps.refl s) fun _ _ => wclSet_keeps⟩

theorem execReport_keeps (a1 : HallId × FabPacket) (s : State) : ∃ t, execReport a1 s = .next t ∧ Keeps s t := by
  unfold execReport
  refine ⟨_, rfl, ?_⟩
  try dsimp only
  repeat' first
    | (with_reducible first | assumption | exact Keeps.refl _ | apply mgmtIn_keeps | apply recordReport_keeps)
    | intro _
    | (with_reducible first | apply ite_keeps)

end Sys2Proof.Machine
end

