-- ==== Sys2Proof/Laws/KeepsI3cOps.lean ====
section
/-! SUPPORT. What the operations of Machine/I3cOps.lean keep of a state. -/

namespace Sys2Proof.Machine

theorem execEntdaa_keeps (word : Option (BitVec 64)) (addr : BitVec 7) (s : State) : ∃ t, execEntdaa word addr s =
    .next t ∧ Keeps s t := by
  unfold execEntdaa
  refine ⟨_, rfl, ?_⟩
  try dsimp only
  repeat' first
    | (with_reducible first | assumption | exact Keeps.refl _ | apply emit_keeps | apply modI3c_keeps)
    | intro _
    | (with_reducible first | apply ite_keeps)

theorem execRstdaa_keeps  (s : State) : ∃ t, execRstdaa s = .next t ∧ Keeps s t := by
  unfold execRstdaa
  refine ⟨_, rfl, ?_⟩
  try dsimp only
  repeat' first
    | (with_reducible first | assumption | exact Keeps.refl _ | apply modI3c_keeps)
    | intro _
    | (with_reducible first | apply ite_keeps)

theorem execEnec_keeps (events : Byte) (s : State) : ∃ t, execEnec events s = .next t ∧ Keeps s t := by
  unfold execEnec
  refine ⟨_, rfl, ?_⟩
  try dsimp only
  repeat' first
    | (with_reducible first | assumption | exact Keeps.refl _ | apply modI3c_keeps)
    | intro _
    | (with_reducible first | apply ite_keeps)

theorem execDisec_keeps (events : Byte) (s : State) : ∃ t, execDisec events s = .next t ∧ Keeps s t := by
  unfold execDisec
  refine ⟨_, rfl, ?_⟩
  try dsimp only
  repeat' first
    | (with_reducible first | assumption | exact Keeps.refl _ | apply modI3c_keeps)
    | intro _
    | (with_reducible first | apply ite_keeps)

theorem addressed_keeps {a s : State} {k : State → State} (h : Keeps a s) (hk : ∀ u0, Keeps a u0 → Keeps a (k u0)) :
    Keeps a (addressed s k) := by
  unfold addressed
  try dsimp only
  repeat' first
    | (with_reducible first | assumption | exact Keeps.refl _ | apply emit_keeps | apply hk)
    | intro _
    | (with_reducible first | apply ite_keeps)

theorem execSetmwl_keeps (n : BitVec 16) (s : State) : ∃ t, execSetmwl n s = .next t ∧ Keeps s t := by
  unfold execSetmwl
  refine ⟨_, rfl, ?_⟩
  try dsimp only
  repeat' first
    | (with_reducible first | assumption | exact Keeps.refl _ | apply addressed_keeps | apply modI3c_keeps)
    | intro _
    | (with_reducible first | apply ite_keeps)

theorem execGetmwl_keeps  (s : State) : ∃ t, execGetmwl s = .next t ∧ Keeps s t := by
  unfold execGetmwl
  refine ⟨_, rfl, ?_⟩
  try dsimp only
  repeat' first
    | (with_reducible first | assumption | exact Keeps.refl _ | apply addressed_keeps | apply emit_keeps)
    | intro _

theorem execSetmrl_keeps (n : BitVec 16) (s : State) : ∃ t, execSetmrl n s = .next t ∧ Keeps s t := by
  unfold execSetmrl
  refine ⟨_, rfl, ?_⟩
  try dsimp only
  repeat' first
    | (with_reducible first | assumption | exact Keeps.refl _ | apply addressed_keeps | apply modI3c_keeps)
    | intro _
    | (with_reducible first | apply ite_keeps)

theorem execGetmrl_keeps  (s : State) : ∃ t, execGetmrl s = .next t ∧ Keeps s t := by
  unfold execGetmrl
  refine ⟨_, rfl, ?_⟩
  try dsimp only
  repeat' first
    | (with_reducible first | assumption | exact Keeps.refl _ | apply addressed_keeps | apply emit_keeps)
    | intro _

theorem execGetpid_keeps  (s : State) : ∃ t, execGetpid s = .next t ∧ Keeps s t := by
  unfold execGetpid
  refine ⟨_, rfl, ?_⟩
  try dsimp only
  repeat' first
    | (with_reducible first | assumption | exact Keeps.refl _ | apply addressed_keeps | apply emit_keeps)
    | intro _

theorem execGetbcr_keeps  (s : State) : ∃ t, execGetbcr s = .next t ∧ Keeps s t := by
  unfold execGetbcr
  refine ⟨_, rfl, ?_⟩
  try dsimp only
  repeat' first
    | (with_reducible first | assumption | exact Keeps.refl _ | apply addressed_keeps | apply emit_keeps)
    | intro _

theorem execGetdcr_keeps  (s : State) : ∃ t, execGetdcr s = .next t ∧ Keeps s t := by
  unfold execGetdcr
  refine ⟨_, rfl, ?_⟩
  try dsimp only
  repeat' first
    | (with_reducible first | assumption | exact Keeps.refl _ | apply addressed_keeps | apply emit_keeps)
    | intro _

theorem execGetstatus_keeps  (s : State) : ∃ t, execGetstatus s = .next t ∧ Keeps s t := by
  unfold execGetstatus
  refine ⟨_, rfl, ?_⟩
  try dsimp only
  repeat' first
    | (with_reducible first | assumption | exact Keeps.refl _ | apply addressed_keeps | apply emit_keeps)
    | intro _

theorem withFrame_keeps {a s : State} {cmd : Nat} {args : List Byte} {len : Nat} {k : State → State} (h : Keeps a s)
    (hk : ∀ u0, Keeps a u0 → Keeps a (k u0)) : Keeps a (withFrame s cmd args len k) := by
  unfold withFrame
  try dsimp only
  repeat' first
    | (with_reducible first
        | assumption | exact Keeps.refl _ | apply addressed_keeps | apply respReady_keeps | apply hk)
    | intro _
    | (with_reducible first | apply ite_keeps)

theorem execReadPage_keeps (args : List Byte) (s : State) : ∃ t, execReadPage args s = .next t ∧ Keeps s t := by
  unfold execReadPage
  refine ⟨_, rfl, ?_⟩
  try dsimp only
  repeat' first
    | (with_reducible first | assumption | exact Keeps.refl _ | apply withFrame_keeps | apply respReady_keeps)
    | intro _
    | (with_reducible first | apply ite_keeps)
    | split

theorem execAlertAck_keeps (args : List Byte) (s : State) : ∃ t, execAlertAck args s = .next t ∧ Keeps s t := by
  unfold execAlertAck
  refine ⟨_, rfl, ?_⟩
  try dsimp only
  repeat' first
    | (with_reducible first
        | assumption | exact Keeps.refl _ | apply withFrame_keeps | apply modPorter_keeps | apply respReady_keeps)
    | exact (fun _ => rfl : KeepsFuses _)
    | intro _

theorem calFrame_keeps {a s : State} {cmd : Nat} {op : CalOp} {args : List Byte} (h : Keeps a s) : Keeps a
    (calFrame s cmd op args) := by
  unfold calFrame
  try dsimp only
  repeat' first
    | (with_reducible first | assumption | exact Keeps.refl _ | apply modCal_keeps | apply modI3c_keeps)

theorem execCalRead_keeps (args : List Byte) (s : State) : ∃ t, execCalRead args s = .next t ∧ Keeps s t := by
  unfold execCalRead
  refine ⟨_, rfl, ?_⟩
  try dsimp only
  repeat' first
    | (with_reducible first | assumption | exact Keeps.refl _ | apply withFrame_keeps | apply calFrame_keeps)
    | intro _

theorem execCalWrite_keeps (args : List Byte) (s : State) : ∃ t, execCalWrite args s = .next t ∧ Keeps s t := by
  unfold execCalWrite
  refine ⟨_, rfl, ?_⟩
  try dsimp only
  repeat' first
    | (with_reducible first | assumption | exact Keeps.refl _ | apply withFrame_keeps | apply calFrame_keeps)
    | intro _

theorem execCalClear_keeps (args : List Byte) (s : State) : ∃ t, execCalClear args s = .next t ∧ Keeps s t := by
  unfold execCalClear
  refine ⟨_, rfl, ?_⟩
  try dsimp only
  repeat' first
    | (with_reducible first | assumption | exact Keeps.refl _ | apply withFrame_keeps | apply calFrame_keeps)
    | intro _

theorem execRestoreFactory_keeps (args : List Byte) (s : State) : ∃ t, execRestoreFactory args s = .next t ∧ Keeps s
    t := by
  unfold execRestoreFactory
  refine ⟨_, rfl, ?_⟩
  try dsimp only
  repeat' first
    | (with_reducible first | assumption | exact Keeps.refl _ | apply withFrame_keeps | apply calFrame_keeps)
    | intro _

theorem execWarmReset_keeps (args : List Byte) (s : State) : ∃ t, execWarmReset args s = .next t ∧ Keeps s t := by
  unfold execWarmReset
  refine ⟨_, rfl, ?_⟩
  try dsimp only
  repeat' first
    | (with_reducible first | assumption | exact Keeps.refl _ | apply withFrame_keeps | apply respReady_keeps)
    | refine warmRequest_keeps (by assumption) ?_
    | (with_reducible first | apply modPorter_keeps)
    | exact (fun _ => rfl : KeepsFuses _)
    | intro _
    | (with_reducible first | apply ite_keeps)
    | split

theorem execFwCommit_keeps (args : List Byte) (s : State) : ∃ t, execFwCommit args s = .next t ∧ Keeps s t := by
  unfold execFwCommit
  refine ⟨_, rfl, ?_⟩
  try dsimp only
  repeat' first
    | (with_reducible first
        | assumption | exact Keeps.refl _ | apply withFrame_keeps | apply respReady_keeps | apply modFw_keeps
        | apply fwCommitStart_keeps | apply modI3c_keeps)
    | intro _
    | (with_reducible first | apply ite_keeps)

theorem execCommandFrameRefused_keeps (frame : List Byte) (s : State) : ∃ t, execCommandFrameRefused frame s = .next
    t ∧ Keeps s t := by
  unfold execCommandFrameRefused
  refine ⟨_, rfl, ?_⟩
  try dsimp only
  repeat' first
    | (with_reducible first | assumption | exact Keeps.refl _ | apply addressed_keeps | apply respReady_keeps)
    | intro _
    | (with_reducible first | apply ite_keeps)

theorem execResponseRead_keeps  (s : State) : ∃ t, execResponseRead s = .next t ∧ Keeps s t := by
  unfold execResponseRead
  refine ⟨_, rfl, ?_⟩
  try dsimp only
  repeat' first
    | (with_reducible first
        | assumption | exact Keeps.refl _ | apply addressed_keeps | apply modI3c_keeps | apply emit_keeps)
    | intro _
    | (with_reducible first | apply ite_keeps)
    | split

theorem execIbiRequest_keeps (acked : Bool) (s : State) : ∃ t, execIbiRequest acked s = .next t ∧ Keeps s t := by
  unfold execIbiRequest
  refine ⟨_, rfl, ?_⟩
  try dsimp only
  repeat' first
    | (with_reducible first | assumption | exact Keeps.refl _ | apply emit_keeps | apply modI3c_keeps)
    | intro _
    | (with_reducible first | apply ite_keeps)
    | split

end Sys2Proof.Machine
end

