-- ==== Sys2Proof/Laws/KeepsStreams.lean ====
section
/-! SUPPORT. What the operations of Machine/Streams.lean keep of a state. -/

namespace Sys2Proof.Machine

theorem streamCfg_keeps {a s : State} {h1 : Nat} {w : Word} (h : Keeps a s) : Keeps a (streamCfg s h1 w) := by
  unfold streamCfg
  try dsimp only
  repeat' first
    | (with_reducible first | assumption | exact Keeps.refl _ | apply setRx_keeps)
    | intro _
    | (with_reducible first | apply ite_keeps)

theorem execFabStreamCfgWrite_keeps (h0 : HallId) (w : Word) (s : State) : ∃ t, execFabStreamCfgWrite h0 w s = .next
    t ∧ Keeps s t := by
  unfold execFabStreamCfgWrite
  refine ⟨_, rfl, ?_⟩
  try dsimp only
  repeat' first
    | (with_reducible first | assumption | exact Keeps.refl _ | apply hallWrite_keeps | apply streamCfg_keeps)
    | intro _

theorem received_keeps {a s : State} {h1 : HallId} {p : FabPacket} {ptype : Nat} {k : State → State} (h : Keeps a s)
    (hkk : ∀ s, Keeps a s → Keeps a (k s)) : Keeps a (received s h1 p ptype k) := by
  unfold received
  try dsimp only
  repeat' first
    | (with_reducible first | assumption | exact Keeps.refl _ | apply checked_keeps | apply hkk)

theorem rxData_keeps {a s : State} {h1 : HallId} {i : Nat} {r : RxStream} {p : FabPacket} (h : Keeps a s) : Keeps a
    (rxData s h1 i r p) := by
  unfold rxData
  try dsimp only
  repeat' first
    | (with_reducible first
        | assumption | exact Keeps.refl _ | apply fabDrop_keeps | apply setRx_keeps | apply sendAck_keeps)
    | intro _
    | (with_reducible first | apply ite_keeps)

theorem execData_keeps (h0 : HallId) (p : FabPacket) (s : State) : ∃ t, execData h0 p s = .next t ∧ Keeps s t := by
  unfold execData
  refine ⟨_, rfl, ?_⟩
  try dsimp only
  repeat' first
    | (with_reducible first
        | assumption | exact Keeps.refl _ | apply received_keeps | apply rxData_keeps | apply deviceData_keeps)
    | intro _
    | (with_reducible first | apply ite_keeps)

theorem endStops_keeps {a s : State} {h1 : HallId} (h : Keeps a s) : Keeps a (endStops s h1) := by
  unfold endStops
  try dsimp only
  repeat' first
    | (with_reducible first
        | assumption | exact Keeps.refl _ | apply endStop_keeps | apply foldl_keeps | apply foldl_fst_keeps)
    | intro _

theorem execAck_keeps (h1 : HallId) (p : FabPacket) (s : State) : ∃ t, execAck h1 p s = .next t ∧ Keeps s t := by
  unfold execAck
  refine ⟨_, rfl, ?_⟩
  try dsimp only
  repeat' first
    | (with_reducible first
        | assumption | exact Keeps.refl _ | apply received_keeps | apply pumpSends_keeps | apply endStops_keeps
        | apply setTx_keeps)
    | intro _
    | (with_reducible first | apply ite_keeps)
    | split

theorem execAckTimer_keeps (h0 : HallId) (strm : StreamId) (s : State) : ∃ t, execAckTimer h0 strm s = .next t ∧
    Keeps s t := by
  unfold execAckTimer
  refine ⟨_, rfl, ?_⟩
  try dsimp only
  repeat' first
    | (with_reducible first
        | assumption | exact Keeps.refl _ | apply sendAck_keeps | apply foldl_keeps | apply foldl_fst_keeps)
    | intro _
    | (with_reducible first | apply ite_keeps)

theorem giveUp_keeps {a s : State} {h1 : HallId} {k : Nat} {q : TxPkt} (h : Keeps a s) : Keeps a (giveUp s h1 k q)
    := by
  unfold giveUp
  try dsimp only
  repeat' first
    | (with_reducible first
        | assumption | exact Keeps.refl _ | apply logError_keeps | apply sendGaveUp_keeps | apply txRestart_keeps
        | apply setTx_keeps | apply stopChannel_keeps | apply endStop_keeps | apply setChan_keeps)
    | intro _
    | (with_reducible first | apply ite_keeps)
    | split

theorem execRetransmitTimer_keeps (h1 : HallId) (dst : NodeId) (strm : StreamId) (seq : Word) (s : State) :
    ∃ t, execRetransmitTimer h1 dst strm seq s = .next t ∧ Keeps s t := by
  unfold execRetransmitTimer
  refine ⟨_, rfl, ?_⟩
  try dsimp only
  repeat' first
    | (with_reducible first
        | assumption | exact Keeps.refl _ | apply giveUp_keeps | apply setTx_keeps | apply fabSend_keeps
        | apply modPort_keeps)
    | intro _
    | (with_reducible first | apply ite_keeps)
    | split

theorem execFabricForward_keeps (h1 : HallId) (p : FabPacket) (s : State) :
    ∃ t, execFabricForward h1 p s = .next t ∧ Keeps s t := by
  unfold execFabricForward
  refine ⟨_, rfl, ?_⟩
  try dsimp only
  repeat' first
    | (with_reducible first | assumption | exact Keeps.refl _ | apply linkIn_keeps | apply fabSend_keeps)
    | intro _
    | (with_reducible first | apply ite_keeps)

theorem execMgmtForward_keeps (h1 : HallId) (p : FabPacket) (s : State) : ∃ t, execMgmtForward h1 p s = .next t ∧
    Keeps s t := by
  unfold execMgmtForward
  refine ⟨_, rfl, ?_⟩
  try dsimp only
  repeat' first
    | (with_reducible first
        | assumption | exact Keeps.refl _ | apply linkIn_keeps | apply fabDrop_keeps | apply steer_keeps)
    | intro _
    | (with_reducible first | apply ite_keeps)

end Sys2Proof.Machine
end

