-- ==== Sys2Proof/Laws/KeepsRegisters.lean ====
section
/-! SUPPORT. What the operations of Machine/Registers.lean keep of a state. -/

namespace Sys2Proof.Machine

theorem fabMgrWrite_keeps {a s : State} {w : Word} (h : Keeps a s) : Keeps a (fabMgrWrite s w) := by
  unfold fabMgrWrite
  try dsimp only
  repeat' first
    | (with_reducible first | assumption | exact Keeps.refl _ | apply modFab_keeps)

theorem calCmdWrite_keeps {a s : State} {w : Word} (h : Keeps a s) : Keeps a (calCmdWrite s w) := by
  unfold calCmdWrite
  try dsimp only
  repeat' first
    | (with_reducible first | assumption | exact Keeps.refl _ | apply calHost_keeps)
    | intro _
    | (with_reducible first | apply ite_keeps)
    | split

theorem fwCmdWrite_keeps {a s : State} {w : Word} (h : Keeps a s) : Keeps a (fwCmdWrite s w) := by
  unfold fwCmdWrite
  try dsimp only
  repeat' first
    | (with_reducible first | assumption | exact Keeps.refl _ | apply fwStage_keeps | apply fwCommit_keeps)
    | intro _
    | (with_reducible first | apply ite_keeps)
    | split

theorem pwrStatWrite_keeps {a s : State} {w : Word} (h : Keeps a s) : Keeps a (pwrStatWrite s w) := by
  unfold pwrStatWrite
  try dsimp only
  repeat' first
    | (with_reducible first | assumption | exact Keeps.refl _ | apply modPorter_keeps)
    | exact (fun _ => rfl : KeepsFuses _)

theorem porterWriteA_keeps {a s : State} {off : Nat} {w : Word} (h : Keeps a s) : Keeps a (porterWriteA s off w) := by
  unfold porterWriteA
  try dsimp only
  repeat' first
    | (with_reducible first
        | assumption | exact Keeps.refl _ | apply prtReset_keeps | apply modHost_keeps | apply modPorter_keeps
        | apply tierCfg_keeps | apply fardecWrite_keeps)
    | exact (fun _ => rfl : KeepsFuses _)
    | intro _
    | (with_reducible first | apply ite_keeps)
    | split

theorem porterWriteB_keeps {a s : State} {off : Nat} {w : Word} (h : Keeps a s) : Keeps a (porterWriteB s off w) := by
  unfold porterWriteB
  try dsimp only
  repeat' first
    | (with_reducible first
        | assumption | exact Keeps.refl _ | apply portaWin_keeps | apply modHost_keeps | apply portaIrq_keeps
        | apply fabMgrWrite_keeps | apply modFab_keeps | apply fabDoorbell_keeps | apply modCal_keeps
        | apply calCmdWrite_keeps)
    | intro _
    | (with_reducible first | apply ite_keeps)
    | split

theorem porterWriteC_keeps {a s : State} {off : Nat} {w : Word} (h : Keeps a s) : Keeps a (porterWriteC s off w) := by
  unfold porterWriteC
  try dsimp only
  repeat' first
    | (with_reducible first
        | assumption | exact Keeps.refl _ | apply errlogCfg_keeps | apply errlogHead_keeps | apply setErrLog_keeps
        | apply modHost_keeps | apply peakClear_keeps | apply pwrStatWrite_keeps | apply modFw_keeps
        | apply fwCmdWrite_keeps)
    | intro _
    | (with_reducible first | apply ite_keeps)
    | split

theorem porterWrite_keeps {a s : State} {off : Nat} {w : Word} (h : Keeps a s) : Keeps a (porterWrite s off w) := by
  unfold porterWrite
  try dsimp only
  repeat' first
    | (with_reducible first
        | assumption | exact Keeps.refl _ | apply porterWriteA_keeps | apply porterWriteB_keeps
        | apply porterWriteC_keeps)
    | intro _
    | (with_reducible first | apply ite_keeps)

theorem doorWrite_keeps {a s : State} {h1 : HallId} {off : Nat} {w : Word} (h : Keeps a s) : Keeps a
    (doorWrite s h1 off w) := by
  unfold doorWrite
  try dsimp only
  repeat' first
    | (with_reducible first | assumption | exact Keeps.refl _ | apply modRegs_keeps | apply ringCfg_keeps)
    | intro _
    | (with_reducible first | apply ite_keeps)
    | split

theorem dmaWrite_keeps {a s : State} {h1 : HallId} {off : Nat} {w : Word} (h : Keeps a s) : Keeps a
    (dmaWrite s h1 off w) := by
  unfold dmaWrite
  try dsimp only
  repeat' first
    | (with_reducible first | assumption | exact Keeps.refl _ | apply modRegs_keeps | apply dmaChCfg_keeps)
    | intro _
    | (with_reducible first | apply ite_keeps)
    | split

theorem vestRegWrite_keeps {a s : State} {h1 : HallId} {off : Nat} {w : Word} (h : Keeps a s) : Keeps a
    (vestRegWrite s h1 off w) := by
  unfold vestRegWrite
  try dsimp only
  repeat' first
    | (with_reducible first
        | assumption | exact Keeps.refl _ | apply modRegs_keeps | apply evictRange_keeps | apply unkeepRange_keeps)
    | intro _
    | (with_reducible first | apply ite_keeps)
    | split

theorem memWrite_keeps {a s : State} {h1 : HallId} {off : Nat} {w : Word} (h : Keeps a s) : Keeps a
    (memWrite s h1 off w) := by
  unfold memWrite
  try dsimp only
  repeat' first
    | (with_reducible first | assumption | exact Keeps.refl _ | apply modRegs_keeps | apply layoutWrite_keeps)
    | intro _
    | (with_reducible first | apply ite_keeps)
    | split

theorem modTherm_keeps {a s : State} {h1 : Nat} {f : HallTherm → HallTherm} (h : Keeps a s) : Keeps a
    (State.modTherm s h1 f) := by
  unfold State.modTherm
  try dsimp only
  repeat' first
    | (with_reducible first | assumption | exact Keeps.refl _ | apply modHall_keeps)
    | exact (fun _ hx i => hx i : KeepsRings _)

theorem thermWrite_keeps {a s : State} {h1 : HallId} {off : Nat} {w : Word} (h : Keeps a s) : Keeps a
    (thermWrite s h1 off w) := by
  unfold thermWrite
  try dsimp only
  repeat' first
    | (with_reducible first | assumption | exact Keeps.refl _ | apply modTherm_keeps)
    | intro _
    | (with_reducible first | apply ite_keeps)
    | split

theorem streamSrc_keeps {a s : State} {h1 : Nat} {w : Word} (h : Keeps a s) : Keeps a (streamSrc s h1 w) := by
  unfold streamSrc
  try dsimp only
  repeat' first
    | (with_reducible first | assumption | exact Keeps.refl _ | apply setRx_keeps)

theorem fabWrite_keeps {a s : State} {h1 : HallId} {off : Nat} {w : Word} (h : Keeps a s) : Keeps a
    (fabWrite s h1 off w) := by
  unfold fabWrite
  try dsimp only
  repeat' first
    | (with_reducible first
        | assumption | exact Keeps.refl _ | apply portEnable_keeps | apply portRetrain_keeps | apply modRegs_keeps
        | apply streamCfg_keeps | apply streamSrc_keeps)
    | intro _
    | (with_reducible first | apply ite_keeps)
    | split

theorem scrubWrite_keeps {a s : State} {h1 : HallId} {off : Nat} {w : Word} (h : Keeps a s) : Keeps a
    (scrubWrite s h1 off w) := by
  unfold scrubWrite
  try dsimp only
  repeat' first
    | (with_reducible first | assumption | exact Keeps.refl _ | apply modRegs_keeps)
    | intro _
    | (with_reducible first | apply ite_keeps)
    | split

theorem hallRegWrite_keeps {a s : State} {h1 : HallId} {off : Nat} {w : Word} (h : Keeps a s) : Keeps a
    (hallRegWrite s h1 off w) := by
  unfold hallRegWrite
  try dsimp only
  repeat' first
    | (with_reducible first
        | assumption | exact Keeps.refl _ | apply hallRst_keeps | apply hallSwRst_keeps | apply modRegs_keeps
        | apply doorWrite_keeps | apply dmaWrite_keeps | apply vestRegWrite_keeps | apply memWrite_keeps
        | apply thermWrite_keeps | apply fabWrite_keeps | apply scrubWrite_keeps)
    | intro _
    | (with_reducible first | apply ite_keeps)
    | split

theorem hallEarlyWrite_keeps {a s : State} {h1 : HallId} {off : Nat} {w : Word} (h : Keeps a s) : Keeps a
    (hallEarlyWrite s h1 off w) := by
  unfold hallEarlyWrite
  try dsimp only
  repeat' first
    | (with_reducible first
        | assumption | exact Keeps.refl _ | apply hallRst_keeps | apply hallSwRst_keeps | apply doorWrite_keeps
        | apply setSq_keeps | apply setCq_keeps | apply setChan_keeps | apply vestRegWrite_keeps
        | apply modStair_keeps | apply setRx_keeps | apply scrubWrite_keeps)
    | exact (fun hr => hr)
    | intro _
    | (with_reducible first | apply ite_keeps)
    | split

theorem controlWrite_keeps {a s : State} {off : Nat} {w : Word} (h : Keeps a s) : Keeps a (controlWrite s off w) := by
  unfold controlWrite
  try dsimp only
  repeat' first
    | (with_reducible first
        | assumption | exact Keeps.refl _ | apply hallRegWrite_keeps | apply hallEarlyWrite_keeps
        | apply porterWrite_keeps)
    | intro _
    | (with_reducible first | apply ite_keeps)
    | split

theorem writeRegister_keeps {a s : State} {off : Nat} {size : Nat} {value : Dword} (h : Keeps a s) : Keeps a
    (writeRegister s off size value) := by
  unfold writeRegister
  try dsimp only
  repeat' first
    | (with_reducible first | assumption | exact Keeps.refl _ | apply emit_keeps | apply controlWrite_keeps)
    | intro _
    | (with_reducible first | apply ite_keeps)

theorem execRegisterWrite_keeps (offset : Nat) (size : Nat) (value : Dword) (s : State) :
    ∃ t, execRegisterWrite offset size value s = .next t ∧ Keeps s t := by
  unfold execRegisterWrite
  refine ⟨_, rfl, ?_⟩
  try dsimp only
  repeat' first
    | (with_reducible first | assumption | exact Keeps.refl _ | apply writeRegister_keeps | apply emit_keeps)
    | intro _
    | (with_reducible first | apply ite_keeps)

end Sys2Proof.Machine
end

