-- ==== Sys2Proof/Laws/KeepsSpdmOps.lean ====
section
/-! SUPPORT. What the operations of Machine/SpdmOps.lean keep of a state. -/

namespace Sys2Proof.Machine

theorem modSpdm_keeps {a s : State} {t : Transport} {f : Spdm → Spdm} (h : Keeps a s) : Keeps a (s.modSpdm t f) := by
  refine modPorter_keeps h fun p => ?_
  cases t <;> rfl

theorem drawNonce_keeps {a s : State}  (h : Keeps a s) : Keeps a (drawNonce s).1 := by
  unfold drawNonce
  try dsimp only
  repeat' first
    | (with_reducible first | assumption | exact Keeps.refl _)
    | intro _
    | (with_reducible first | apply ite_keeps)
    | split
    | (with_reducible first | apply fresh_keeps)

theorem drawNonce_keeps' {a s t : State}  {y : List Byte} (e : drawNonce s = (t, y)) (h : Keeps a s) : Keeps a t := by
  have k : Keeps a (drawNonce s).1 := drawNonce_keeps h 
  rw [e] at k
  exact k

theorem spdmVersion_keeps {a s : State} {t1 : Transport} {req : List Byte} (h : Keeps a s) : Keeps a
    (spdmVersion s t1 req).1 := by
  unfold spdmVersion
  try dsimp only
  repeat' first
    | (with_reducible first | assumption | exact Keeps.refl _ | apply modSpdm_keeps)

theorem spdmVersion_keeps' {a s t : State} {t1 : Transport} {req : List Byte} {y : List Byte}
    (e : spdmVersion s t1 req = (t, y)) (h : Keeps a s) : Keeps a t := by
  have k : Keeps a (spdmVersion s t1 req).1 := spdmVersion_keeps h 
  rw [e] at k
  exact k

theorem spdmCapabilities_keeps {a s : State} {t1 : Transport} {req : List Byte} (h : Keeps a s) : Keeps a
    (spdmCapabilities s t1 req).1 := by
  unfold spdmCapabilities
  try dsimp only
  repeat' first
    | (with_reducible first | assumption | exact Keeps.refl _ | apply modSpdm_keeps)
    | intro _
    | (with_reducible first | apply ite_keeps)
    | split

theorem spdmCapabilities_keeps' {a s t : State} {t1 : Transport} {req : List Byte} {y : List Byte}
    (e : spdmCapabilities s t1 req = (t, y)) (h : Keeps a s) : Keeps a t := by
  have k : Keeps a (spdmCapabilities s t1 req).1 := spdmCapabilities_keeps h 
  rw [e] at k
  exact k

theorem spdmAlgorithms_keeps {a s : State} {t1 : Transport} {req : List Byte} (h : Keeps a s) : Keeps a
    (spdmAlgorithms s t1 req).1 := by
  unfold spdmAlgorithms
  try dsimp only
  repeat' first
    | (with_reducible first | assumption | exact Keeps.refl _ | apply modSpdm_keeps)
    | intro _
    | (with_reducible first | apply ite_keeps)
    | split

theorem spdmAlgorithms_keeps' {a s t : State} {t1 : Transport} {req : List Byte} {y : List Byte}
    (e : spdmAlgorithms s t1 req = (t, y)) (h : Keeps a s) : Keeps a t := by
  have k : Keeps a (spdmAlgorithms s t1 req).1 := spdmAlgorithms_keeps h 
  rw [e] at k
  exact k

theorem spdmDigests_keeps {a s : State} {t1 : Transport} {req : List Byte} (h : Keeps a s) : Keeps a
    (spdmDigests s t1 req).1 := by
  unfold spdmDigests
  try dsimp only
  repeat' first
    | (with_reducible first | assumption | exact Keeps.refl _ | apply modSpdm_keeps)

theorem spdmDigests_keeps' {a s t : State} {t1 : Transport} {req : List Byte} {y : List Byte}
    (e : spdmDigests s t1 req = (t, y)) (h : Keeps a s) : Keeps a t := by
  have k : Keeps a (spdmDigests s t1 req).1 := spdmDigests_keeps h 
  rw [e] at k
  exact k

theorem spdmCertificate_keeps {a s : State} {t1 : Transport} {req : List Byte} (h : Keeps a s) : Keeps a
    (spdmCertificate s t1 req).1 := by
  unfold spdmCertificate
  try dsimp only
  repeat' first
    | (with_reducible first | assumption | exact Keeps.refl _ | apply modSpdm_keeps)
    | intro _
    | (with_reducible first | apply ite_keeps)
    | split

theorem spdmCertificate_keeps' {a s t : State} {t1 : Transport} {req : List Byte} {y : List Byte}
    (e : spdmCertificate s t1 req = (t, y)) (h : Keeps a s) : Keeps a t := by
  have k : Keeps a (spdmCertificate s t1 req).1 := spdmCertificate_keeps h 
  rw [e] at k
  exact k

theorem spdmChallenge_keeps {a s : State} {t1 : Transport} {req : List Byte} (h : Keeps a s) : Keeps a
    (spdmChallenge s t1 req).1 := by
  unfold spdmChallenge
  try dsimp only
  repeat' first
    | (with_reducible first | assumption | exact Keeps.refl _ | apply drawNonce_keeps)
    | refine drawNonce_keeps' (by assumption) ?_
    | (with_reducible first | apply modSpdm_keeps)
    | intro _
    | (with_reducible first | apply ite_keeps)
    | split

theorem spdmChallenge_keeps' {a s t : State} {t1 : Transport} {req : List Byte} {y : List Byte}
    (e : spdmChallenge s t1 req = (t, y)) (h : Keeps a s) : Keeps a t := by
  have k : Keeps a (spdmChallenge s t1 req).1 := spdmChallenge_keeps h 
  rw [e] at k
  exact k

theorem spdmMeasurements_keeps {a s : State} {t1 : Transport} {req : List Byte} (h : Keeps a s) : Keeps a
    (spdmMeasurements s t1 req).1 := by
  unfold spdmMeasurements
  try dsimp only
  repeat' first
    | (with_reducible first | assumption | exact Keeps.refl _ | apply drawNonce_keeps)
    | refine drawNonce_keeps' (by assumption) ?_
    | (with_reducible first | apply modSpdm_keeps)
    | intro _
    | (with_reducible first | apply ite_keeps)
    | split

theorem spdmMeasurements_keeps' {a s t : State} {t1 : Transport} {req : List Byte} {y : List Byte}
    (e : spdmMeasurements s t1 req = (t, y)) (h : Keeps a s) : Keeps a t := by
  have k : Keeps a (spdmMeasurements s t1 req).1 := spdmMeasurements_keeps h 
  rw [e] at k
  exact k

theorem afterAlgo_keeps {a s : State} {t : Transport} {req : List Byte} {k : State × List Byte} (h : Keeps a s)
    (hk : Keeps a k.1) : Keeps a (afterAlgo s t req k).1 := by
  unfold afterAlgo
  dsimp only
  split
  · exact h
  · split
    · exact h
    · exact hk

theorem spdmAnswer_keeps {a s : State} {t1 : Transport} {req : List Byte} (h : Keeps a s) : Keeps a
    (spdmAnswer s t1 req).1 := by
  unfold spdmAnswer
  try dsimp only
  repeat' first
    | (with_reducible first | assumption | exact Keeps.refl _ | apply spdmVersion_keeps)
    | refine spdmVersion_keeps' (by assumption) ?_
    | (with_reducible first | apply spdmCapabilities_keeps)
    | refine spdmCapabilities_keeps' (by assumption) ?_
    | (with_reducible first | apply spdmAlgorithms_keeps)
    | refine spdmAlgorithms_keeps' (by assumption) ?_
    | (with_reducible first | apply afterAlgo_keeps | apply spdmDigests_keeps)
    | refine spdmDigests_keeps' (by assumption) ?_
    | (with_reducible first | apply spdmCertificate_keeps)
    | refine spdmCertificate_keeps' (by assumption) ?_
    | (with_reducible first | apply spdmChallenge_keeps)
    | refine spdmChallenge_keeps' (by assumption) ?_
    | (with_reducible first | apply spdmMeasurements_keeps)
    | refine spdmMeasurements_keeps' (by assumption) ?_
    | intro _
    | (with_reducible first | apply ite_keeps)
    | split

theorem spdmAnswer_keeps' {a s t : State} {t1 : Transport} {req : List Byte} {y : List Byte}
    (e : spdmAnswer s t1 req = (t, y)) (h : Keeps a s) : Keeps a t := by
  have k : Keeps a (spdmAnswer s t1 req).1 := spdmAnswer_keeps h 
  rw [e] at k
  exact k

theorem mctpSend_keeps {a s : State} {t1 : Transport} {b : List Byte} (h : Keeps a s) : Keeps a (mctpSend s t1 b) :=
    by
  unfold mctpSend
  try dsimp only
  repeat' first
    | (with_reducible first | assumption | exact Keeps.refl _ | apply modI3c_keeps | apply emit_keeps)
    | intro _
    | (with_reducible first | apply ite_keeps)
    | split

theorem spdmRequest_keeps {a s : State} {t1 : Transport} {code : Nat} {req : List Byte} (h : Keeps a s) : Keeps a
    (spdmRequest s t1 code req) := by
  unfold spdmRequest
  try dsimp only
  repeat' first
    | (with_reducible first | assumption | exact Keeps.refl _ | apply spdmAnswer_keeps)
    | refine spdmAnswer_keeps' (by assumption) ?_
    | (with_reducible first | apply mctpSend_keeps)
    | intro _
    | (with_reducible first | apply ite_keeps)

theorem execGetVersion_keeps (t0 : Transport) (req : List Byte) (s : State) : ∃ t, execGetVersion t0 req s = .next t
    ∧ Keeps s t := by
  unfold execGetVersion
  refine ⟨_, rfl, ?_⟩
  try dsimp only
  repeat' first
    | (with_reducible first | assumption | exact Keeps.refl _ | apply spdmRequest_keeps)

theorem execGetCapabilities_keeps (t0 : Transport) (req : List Byte) (s : State) : ∃ t, execGetCapabilities t0 req s
    = .next t ∧ Keeps s t := by
  unfold execGetCapabilities
  refine ⟨_, rfl, ?_⟩
  try dsimp only
  repeat' first
    | (with_reducible first | assumption | exact Keeps.refl _ | apply spdmRequest_keeps)

theorem execNegotiateAlgorithms_keeps (t0 : Transport) (req : List Byte) (s : State) : ∃ t, execNegotiateAlgorithms
    t0 req s = .next t ∧ Keeps s t := by
  unfold execNegotiateAlgorithms
  refine ⟨_, rfl, ?_⟩
  try dsimp only
  repeat' first
    | (with_reducible first | assumption | exact Keeps.refl _ | apply spdmRequest_keeps)

theorem execGetDigests_keeps (t0 : Transport) (req : List Byte) (s : State) : ∃ t, execGetDigests t0 req s = .next t
    ∧ Keeps s t := by
  unfold execGetDigests
  refine ⟨_, rfl, ?_⟩
  try dsimp only
  repeat' first
    | (with_reducible first | assumption | exact Keeps.refl _ | apply spdmRequest_keeps)

theorem execGetCertificate_keeps (t0 : Transport) (req : List Byte) (s : State) : ∃ t, execGetCertificate t0 req s =
    .next t ∧ Keeps s t := by
  unfold execGetCertificate
  refine ⟨_, rfl, ?_⟩
  try dsimp only
  repeat' first
    | (with_reducible first | assumption | exact Keeps.refl _ | apply spdmRequest_keeps)

theorem execChallenge_keeps (t0 : Transport) (req : List Byte) (s : State) : ∃ t, execChallenge t0 req s = .next t ∧
    Keeps s t := by
  unfold execChallenge
  refine ⟨_, rfl, ?_⟩
  try dsimp only
  repeat' first
    | (with_reducible first | assumption | exact Keeps.refl _ | apply spdmRequest_keeps)

theorem execGetMeasurements_keeps (t0 : Transport) (req : List Byte) (s : State) : ∃ t, execGetMeasurements t0 req s
    = .next t ∧ Keeps s t := by
  unfold execGetMeasurements
  refine ⟨_, rfl, ?_⟩
  try dsimp only
  repeat' first
    | (with_reducible first | assumption | exact Keeps.refl _ | apply spdmRequest_keeps)

theorem mctpMessage_keeps {a s : State} {t1 : Transport} {eids : Nat} {tag : Nat} {msg : List Byte} (h : Keeps a s) :
    Keeps a (mctpMessage s t1 eids tag msg) := by
  unfold mctpMessage
  try dsimp only
  repeat' first
    | (with_reducible first | assumption | exact Keeps.refl _ | apply spdmAnswer_keeps)
    | refine spdmAnswer_keeps' (by assumption) ?_
    | (with_reducible first | apply mctpSend_keeps | apply foldl_keeps | apply foldl_fst_keeps)
    | intro _
    | (with_reducible first | apply ite_keeps)
    | split

theorem execMctpPacket_keeps (t0 : Transport) (bytes : List Byte) (s : State) : ∃ t, execMctpPacket t0 bytes s =
    .next t ∧ Keeps s t := by
  unfold execMctpPacket
  refine ⟨_, rfl, ?_⟩
  try dsimp only
  repeat' first
    | (with_reducible first | assumption | exact Keeps.refl _ | apply modSpdm_keeps | apply mctpMessage_keeps)
    | intro _
    | (with_reducible first | apply ite_keeps)
    | split

end Sys2Proof.Machine
end

