-- ==== Sys2Proof/Laws/PerInstr.lean ====
section
/-! SUPPORT. Per command: a well-formed command brings at most 64 KiB, the largest leaf of a volume transfer (R336). -/

namespace Sys2Proof.Laws.Wf

/-- A well-formed command brings at most 65,536 bytes. -/
def Statement (i : Instr) : Prop := i.wf = true → i.carried ≤ 65536

/-- A command that brings nothing. -/
theorem none_carried {i : Instr} (h : i.carried = 0) : Statement i := fun _ => by omega

theorem packet_carried {p : FabPacket} (h : p.wf = true) : p.payload.length ≤ 65536 := by
  have := of_decide_eq_true h
  omega

theorem body_carried {b : PktBody} (h : b.wf = true) : b.carried ≤ 65536 := by
  unfold PktBody.wf at h
  have := of_decide_eq_true h
  omega

theorem planLoad (c : Nat) : Statement (.planLoad c) := none_carried rfl
theorem planUnload (c : Nat) : Statement (.planUnload c) := none_carried rfl
theorem volOpen (c : Nat) : Statement (.volOpen c) := none_carried rfl
theorem volClose (c : Nat) : Statement (.volClose c) := none_carried rfl
theorem volQuery (c : Nat) : Statement (.volQuery c) := none_carried rfl
theorem fmSeal (c : Nat) : Statement (.fmSeal c) := none_carried rfl
theorem checkpoint (c : Nat) : Statement (.checkpoint c) := none_carried rfl
theorem park (c : Nat) : Statement (.park c) := none_carried rfl
theorem shelve (c : Nat) : Statement (.shelve c) := none_carried rfl
theorem resume (c : Nat) : Statement (.resume c) := none_carried rfl
theorem recover (c : Nat) : Statement (.recover c) := none_carried rfl
theorem volRehome (c : Nat) : Statement (.volRehome c) := none_carried rfl
theorem hintQuery (c : Nat) : Statement (.hintQuery c) := none_carried rfl
theorem stepDecode (c : Nat) : Statement (.stepDecode c) := none_carried rfl
theorem stepVerify (c : Nat) : Statement (.stepVerify c) := none_carried rfl
theorem stepPrefill (c : Nat) : Statement (.stepPrefill c) := none_carried rfl
theorem stepAbort (c : Nat) : Statement (.stepAbort c) := none_carried rfl
theorem bind (c : Nat) : Statement (.bind c) := none_carried rfl
theorem bindForward (b : Nat) : Statement (.bindForward b) := none_carried rfl
theorem claspOp (c : Nat) : Statement (.claspOp c) := none_carried rfl
theorem nop (c : Nat) : Statement (.nop c) := none_carried rfl
theorem dmaStart (c : Nat) : Statement (.dmaStart c) := none_carried rfl
theorem dmaStop (c : Nat) : Statement (.dmaStop c) := none_carried rfl
theorem fenceUnitFence (c : Nat) : Statement (.fenceUnitFence c) := none_carried rfl
theorem fenceUnitWatch (c : Nat) : Statement (.fenceUnitWatch c) := none_carried rfl
theorem sqTailWrite (h : HallId) (ring : SqId) (aligned8 : Bool) (value : Dword) : Statement (.sqTailWrite h ring aligned8 value) := none_carried rfl
theorem cqHeadWrite (h : HallId) (ring : CqId) (aligned8 : Bool) (value : Dword) : Statement (.cqHeadWrite h ring aligned8 value) := none_carried rfl
theorem claimDescriptor (h : HallId) : Statement (.claimDescriptor h) := none_carried rfl
theorem irqDelayExpire (h : HallId) (ring : CqId) : Statement (.irqDelayExpire h ring) := none_carried rfl
theorem opHandout (h : HallId) (sw : SwId) (q : QueueId) : Statement (.opHandout h sw q) := none_carried rfl
theorem opReady (h : HallId) (sw : SwId) (q : QueueId) (i : Fin 32) : Statement (.opReady h sw q i) := none_carried rfl
theorem opRetire (h : HallId) (sw : SwId) (q : QueueId) : Statement (.opRetire h sw q) := none_carried rfl
theorem tile (h : HallId) (sw : SwId) : Statement (.tile h sw) := none_carried rfl
theorem splitPartialAdd (h : HallId) (sw : SwId) (set : AccId) : Statement (.splitPartialAdd h sw set) := none_carried rfl
theorem fetch (h : HallId) (sw : SwId) (q : QueueId) : Statement (.fetch h sw q) := none_carried rfl
theorem store (h : HallId) (sw : SwId) (q : QueueId) : Statement (.store h sw q) := none_carried rfl
theorem smMax (h : HallId) (sw : SwId) : Statement (.smMax h sw) := none_carried rfl
theorem smExp (h : HallId) (sw : SwId) : Statement (.smExp h sw) := none_carried rfl
theorem smMerge (h : HallId) (sw : SwId) : Statement (.smMerge h sw) := none_carried rfl
theorem smNorm (h : HallId) (sw : SwId) : Statement (.smNorm h sw) := none_carried rfl
theorem rmsnorm (h : HallId) (sw : SwId) : Statement (.rmsnorm h sw) := none_carried rfl
theorem layernorm (h : HallId) (sw : SwId) : Statement (.layernorm h sw) := none_carried rfl
theorem silu (h : HallId) (sw : SwId) : Statement (.silu h sw) := none_carried rfl
theorem geluTanh (h : HallId) (sw : SwId) : Statement (.geluTanh h sw) := none_carried rfl
theorem swiglu (h : HallId) (sw : SwId) : Statement (.swiglu h sw) := none_carried rfl
theorem relu (h : HallId) (sw : SwId) : Statement (.relu h sw) := none_carried rfl
theorem rope (h : HallId) (sw : SwId) : Statement (.rope h sw) := none_carried rfl
theorem scale (h : HallId) (sw : SwId) : Statement (.scale h sw) := none_carried rfl
theorem ewAdd (h : HallId) (sw : SwId) : Statement (.ewAdd h sw) := none_carried rfl
theorem ewMul (h : HallId) (sw : SwId) : Statement (.ewMul h sw) := none_carried rfl
theorem topk (h : HallId) (sw : SwId) : Statement (.topk h sw) := none_carried rfl
theorem convert (h : HallId) (sw : SwId) : Statement (.convert h sw) := none_carried rfl
theorem psumAdd (h : HallId) (sw : SwId) : Statement (.psumAdd h sw) := none_carried rfl
theorem psumPair (h : HallId) (sw : SwId) : Statement (.psumPair h sw) := none_carried rfl
theorem ctrInit (rq : Requester) (k : ClaspId) (v : Word) : Statement (.ctrInit rq k v) := none_carried rfl
theorem flagInit (rq : Requester) (k : ClaspId) (v : Word) : Statement (.flagInit rq k v) := none_carried rfl
theorem lockInit (rq : Requester) (k : ClaspId) (v : Word) : Statement (.lockInit rq k v) := none_carried rfl
theorem drop (rq : Requester) (k : ClaspId) (v : Word) : Statement (.drop rq k v) := none_carried rfl
theorem ctrAdd (rq : Requester) (k : ClaspId) (v : Word) : Statement (.ctrAdd rq k v) := none_carried rfl
theorem ctrArrive (rq : Requester) (k : ClaspId) (v : Word) : Statement (.ctrArrive rq k v) := none_carried rfl
theorem ctrWait (rq : Requester) (k : ClaspId) (v : Word) : Statement (.ctrWait rq k v) := none_carried rfl
theorem ctrSet (rq : Requester) (k : ClaspId) (v : Word) : Statement (.ctrSet rq k v) := none_carried rfl
theorem flagSet (rq : Requester) (k : ClaspId) (v : Word) : Statement (.flagSet rq k v) := none_carried rfl
theorem flagClear (rq : Requester) (k : ClaspId) (v : Word) : Statement (.flagClear rq k v) := none_carried rfl
theorem flagWait (rq : Requester) (k : ClaspId) (v : Word) : Statement (.flagWait rq k v) := none_carried rfl
theorem lockTry (rq : Requester) (k : ClaspId) (v : Word) : Statement (.lockTry rq k v) := none_carried rfl
theorem lockTake (rq : Requester) (k : ClaspId) (v : Word) : Statement (.lockTake rq k v) := none_carried rfl
theorem lockRelease (rq : Requester) (k : ClaspId) (v : Word) : Statement (.lockRelease rq k v) := none_carried rfl
theorem lockBreak (rq : Requester) (k : ClaspId) (v : Word) : Statement (.lockBreak rq k v) := none_carried rfl
theorem claspRepresent (i : Nat) : Statement (.claspRepresent i) := none_carried rfl
theorem resetBackoffRetry (t : RetryTarget) : Statement (.resetBackoffRetry t) := none_carried rfl
theorem bindPrepare (b : Nat) : Statement (.bindPrepare b) := none_carried rfl
theorem bindPrepared (b : Nat) : Statement (.bindPrepared b) := none_carried rfl
theorem bindCommit (b : Nat) (h : HallId) : Statement (.bindCommit b h) := none_carried rfl
theorem bindDone (b : Nat) : Statement (.bindDone b) := none_carried rfl
theorem bindAbort (b : Nat) : Statement (.bindAbort b) := none_carried rfl
theorem bindPrepareTimeout (b : Nat) (h : HallId) : Statement (.bindPrepareTimeout b h) := none_carried rfl
theorem bindFinishFromLog (b : Nat) : Statement (.bindFinishFromLog b) := none_carried rfl
theorem laneLockRetry (st : Nat) : Statement (.laneLockRetry st) := none_carried rfl
theorem walkItemEmit (st : Nat) : Statement (.walkItemEmit st) := none_carried rfl
theorem leafAttend (h : HallId) (sw : SwId) : Statement (.leafAttend h sw) := none_carried rfl
theorem leafAppend (h : HallId) (sw : SwId) : Statement (.leafAppend h sw) := none_carried rfl
theorem leafMove (h : HallId) (sw : SwId) : Statement (.leafMove h sw) := none_carried rfl
theorem leafGather (h : HallId) (sw : SwId) : Statement (.leafGather h sw) := none_carried rfl
theorem boardSendRows (st : Nat) : Statement (.boardSendRows st) := none_carried rfl
theorem partialArrive (st : Nat) (i : Nat) : Statement (.partialArrive st i) := none_carried rfl
theorem mergeForward (st : Nat) (h : HallId) (sw : SwId) : Statement (.mergeForward st h sw) := none_carried rfl
theorem stepDecide (st : Nat) : Statement (.stepDecide st) := none_carried rfl
theorem stepRunVoid (st : Nat) : Statement (.stepRunVoid st) := none_carried rfl
theorem stepTimeout (st : Nat) : Statement (.stepTimeout st) := none_carried rfl
theorem pinRequest (st : Nat) (up : Bool) : Statement (.pinRequest st up) := none_carried rfl
theorem writebackCopiesDone (v : VolId) : Statement (.writebackCopiesDone v) := none_carried rfl
theorem leafStaged (v : VolId) (idx : Nat) : Statement (.leafStaged v idx) := none_carried rfl
theorem resumeEligible (v : VolId) : Statement (.resumeEligible v) := none_carried rfl
theorem parkNearReleased (v : VolId) : Statement (.parkNearReleased v) := none_carried rfl
theorem shelveLeavesCommitted (v : VolId) (pair : Nat) : Statement (.shelveLeavesCommitted v pair) := none_carried rfl
theorem volSend (slot : FabSlot) : Statement (.volSend slot) := none_carried rfl
theorem volAccept (slot : FabSlot) : Statement (.volAccept slot) := none_carried rfl
theorem volAcceptTimeout (slot : FabSlot) : Statement (.volAcceptTimeout slot) := none_carried rfl
theorem volTransferPreamble (p : XferPreamble) : Statement (.volTransferPreamble p) := none_carried rfl
theorem volTransferLeaf (v : VolId) (idx : Nat) (fill : Nat) (bytes : List Byte) (poison : Bool) : Statement (.volTransferLeaf v idx fill bytes poison) := by
  intro h
  simp [Instr.wf] at h
  simp only [Instr.carried]
  omega
theorem mgmtSend (slot : FabSlot) : Statement (.mgmtSend slot) := none_carried rfl
theorem mgmtSendTimeout (slot : FabSlot) : Statement (.mgmtSendTimeout slot) := none_carried rfl
theorem dmaMove (h : HallId) (ch : ChId) : Statement (.dmaMove h ch) := none_carried rfl
theorem dmaLoop (h : HallId) (ch : ChId) : Statement (.dmaLoop h ch) := none_carried rfl
theorem dmaWait (h : HallId) (ch : ChId) : Statement (.dmaWait h ch) := none_carried rfl
theorem dmaSignal (h : HallId) (ch : ChId) : Statement (.dmaSignal h ch) := none_carried rfl
theorem dmaEnd (h : HallId) (ch : ChId) : Statement (.dmaEnd h ch) := none_carried rfl
theorem dmaBurst (h : HallId) : Statement (.dmaBurst h) := none_carried rfl
theorem dmaWritesAnswered (h : HallId) (ch : ChId) : Statement (.dmaWritesAnswered h ch) := none_carried rfl
theorem vestAccess (h : HallId) (r : VestReq) : Statement (.vestAccess h r) := by
  intro h
  simp only [Instr.wf, VestReq.wf, Bool.and_eq_true, decide_eq_true_eq] at h
  simp only [Instr.carried, VestReq.carried]
  cases hw : r.write with
  | none => simp
  | some b =>
    simp only [hw, Option.all_some, beq_iff_eq] at h
    simp only [Option.getD_some]
    omega
theorem vestRecall (space : TierSpace) (unit : Nat) (by_ : Option HallId) (write : Bool) (whole : Bool) : Statement (.vestRecall space unit by_ write whole) := none_carried rfl
theorem evict (h : HallId) : Statement (.evict h) := none_carried rfl
theorem unkeep (h : HallId) : Statement (.unkeep h) := none_carried rfl
theorem modeWrite (h : HallId) (sw : SwId) (page : Fin 16) (w : Rec64) : Statement (.modeWrite h sw page w) := none_carried rfl
theorem bankAccessesDrained (h : HallId) (sw : SwId) (l : LayerId) (b : BankId) : Statement (.bankAccessesDrained h sw l b) := none_carried rfl
theorem landingCmdWrite (h : HallId) (sw : SwId) (page : Fin 16) (slot : Fin 4) (off : Fin 64) (bytes : List Byte) : Statement (.landingCmdWrite h sw page slot off bytes) := by
  intro h
  simp [Instr.wf] at h
  simp only [Instr.carried]
  omega
theorem windowWrite (h : HallId) (sw : SwId) (page : Fin 16) (off : Nat) (bytes : List Byte) : Statement (.windowWrite h sw page off bytes) := by
  intro h
  simp [Instr.wf, inWindow] at h
  simp only [Instr.carried]
  omega
theorem windowWriteApply (h : HallId) (sw : SwId) (l : LayerId) : Statement (.windowWriteApply h sw l) := none_carried rfl
theorem score (h : HallId) (sw : SwId) (l : LayerId) : Statement (.score h sw l) := none_carried rfl
theorem valueAcc (h : HallId) (sw : SwId) (l : LayerId) : Statement (.valueAcc h sw l) := none_carried rfl
theorem attend (h : HallId) (sw : SwId) (l : LayerId) : Statement (.attend h sw l) := none_carried rfl
theorem accClear (h : HallId) (sw : SwId) (l : LayerId) : Statement (.accClear h sw l) := none_carried rfl
theorem readout (h : HallId) (sw : SwId) (l : LayerId) : Statement (.readout h sw l) := none_carried rfl
theorem fill (h : HallId) (sw : SwId) (l : LayerId) : Statement (.fill h sw l) := none_carried rfl
theorem copy (h : HallId) (sw : SwId) (l : LayerId) : Statement (.copy h sw l) := none_carried rfl
theorem pack (h : HallId) (sw : SwId) (l : LayerId) : Statement (.pack h sw l) := none_carried rfl
theorem unpack (h : HallId) (sw : SwId) (l : LayerId) : Statement (.unpack h sw l) := none_carried rfl
theorem chunkBoundary (h : HallId) (sw : SwId) (l : LayerId) : Statement (.chunkBoundary h sw l) := none_carried rfl
theorem refreshDue (h : HallId) (sw : SwId) (l : LayerId) (b : BankId) : Statement (.refreshDue h sw l b) := none_carried rfl
theorem nearLineRequest (h : HallId) (sw : SwId) (r : LineReq) : Statement (.nearLineRequest h sw r) := by
  intro h
  simp only [Instr.wf, LineReq.wf, Bool.and_eq_true, decide_eq_true_eq] at h
  simp only [Instr.carried, LineReq.carried]
  cases hw : r.write with
  | none => simp
  | some b =>
    simp only [hw, Option.all_some, beq_iff_eq] at h
    simp only [Option.getD_some]
    omega
theorem layoutApply (h : HallId) (w : Word) : Statement (.layoutApply h w) := none_carried rfl
theorem layoutReinitDone (h : HallId) (sw : SwId) : Statement (.layoutReinitDone h sw) := none_carried rfl
theorem scrubStep (h : HallId) (sw : SwId) : Statement (.scrubStep h sw) := none_carried rfl
theorem parkScrubStep (ctl : Fin 12) : Statement (.parkScrubStep ctl) := none_carried rfl
theorem layerLost (h : HallId) (l : LayerId) : Statement (.layerLost h l) := none_carried rfl
theorem errorEvent (e : ErrEvent) : Statement (.errorEvent e) := none_carried rfl
theorem parkPkgFail (p : Fin 24) (retrained : Bool) : Statement (.parkPkgFail p retrained) := none_carried rfl
theorem unitFence (t : FenceTarget) : Statement (.unitFence t) := none_carried rfl
theorem adoptionComplete (h : HallId) (sw : SwId) : Statement (.adoptionComplete h sw) := none_carried rfl
theorem resdescPublish : Statement (.resdescPublish) := none_carried rfl
theorem housekeepingRound (r : RoundInput) : Statement (.housekeepingRound r) := none_carried rfl
theorem dStepSlot : Statement (.dStepSlot) := none_carried rfl
theorem coolantWindow : Statement (.coolantWindow) := none_carried rfl
theorem inputSample (mv : Nat) (ma : Nat) : Statement (.inputSample mv ma) := none_carried rfl
theorem startGateOpen : Statement (.startGateOpen) := none_carried rfl
theorem railPgoodTimeout (r : Rail) : Statement (.railPgoodTimeout r) := none_carried rfl
theorem porterRelease (r : BringupReport) (slotStraps : Fin 8) : Statement (.porterRelease r slotStraps) := none_carried rfl
theorem handOff : Statement .handOff := none_carried rfl
theorem enableFall : Statement (.enableFall) := none_carried rfl
theorem inputLoss : Statement (.inputLoss) := none_carried rfl
theorem railPgoodLoss (r : Rail) : Statement (.railPgoodLoss r) := none_carried rfl
theorem pllLockLoss (h : HallId) : Statement (.pllLockLoss h) := none_carried rfl
theorem refLost : Statement (.refLost) := none_carried rfl
theorem warmResetRequest (w : Word) : Statement (.warmResetRequest w) := none_carried rfl
theorem hallComputeReset (h : HallId) (w : Word) : Statement (.hallComputeReset h w) := none_carried rfl
theorem usherHeartbeatMiss (h : HallId) (u : UsherId) : Statement (.usherHeartbeatMiss h u) := none_carried rfl
theorem computeFaultReport (h : HallId) : Statement (.computeFaultReport h) := none_carried rfl
theorem stairwellReset (h : HallId) (w : Word) : Statement (.stairwellReset h w) := none_carried rfl
theorem meshPacket (h : HallId) (e : MeshEvent) : Statement (.meshPacket h e) := by
  cases e with
  | inject p inp => exact fun h => body_carried (b := p.body) h
  | grant out => exact none_carried rfl
theorem ringPacket (h : HallId) (cw : Bool) : Statement (.ringPacket h cw) := none_carried rfl
theorem meshBroadcast (h : HallId) (p : Packet) : Statement (.meshBroadcast h p) := body_carried
theorem ringBroadcast (h : HallId) (mask : BitVec 12) (p : Packet) : Statement (.ringBroadcast h mask p) := body_carried
theorem ageTick : Statement (.ageTick) := none_carried rfl
theorem ringReroute : Statement (.ringReroute) := none_carried rfl
theorem ucieFlitResend (h : HallId) (link : UcieLink) (o : UcieOutcome) : Statement (.ucieFlitResend h link o) := none_carried rfl
theorem fabPortEnable (h : HallId) (en : Bool) : Statement (.fabPortEnable h en) := none_carried rfl
theorem fabPortRetrain (h : HallId) : Statement (.fabPortRetrain h) := none_carried rfl
theorem fabDownRetry (h : HallId) : Statement (.fabDownRetry h) := none_carried rfl
theorem fecLock (h : HallId) (lanes : Nat) : Statement (.fecLock h lanes) := none_carried rfl
theorem trainTimeout (h : HallId) : Statement (.trainTimeout h) := none_carried rfl
theorem helloTimeout (h : HallId) : Statement (.helloTimeout h) := none_carried rfl
theorem helloSend (h : HallId) : Statement (.helloSend h) := none_carried rfl
theorem hello (h : HallId) (p : FabPacket) : Statement (.hello h p) := packet_carried (p := p)
theorem portFault (h : HallId) (c : PortFaultCause) : Statement (.portFault h c) := none_carried rfl
theorem linkReplay (h : HallId) (linkSeq : Nat) : Statement (.linkReplay h linkSeq) := none_carried rfl
theorem data (h : HallId) (p : FabPacket) : Statement (.data h p) := packet_carried (p := p)
theorem ack (h : HallId) (p : FabPacket) : Statement (.ack h p) := packet_carried (p := p)
theorem ackTimer (h : HallId) (s : StreamId) : Statement (.ackTimer h s) := none_carried rfl
theorem retransmitTimer (h : HallId) (dst : NodeId) (s : StreamId) (seq : Word) : Statement (.retransmitTimer h dst s seq) := none_carried rfl
theorem fabricForward (h : HallId) (p : FabPacket) : Statement (.fabricForward h p) := packet_carried (p := p)
theorem mgmtForward (h : HallId) (p : FabPacket) : Statement (.mgmtForward h p) := packet_carried (p := p)
theorem claimSend : Statement (.claimSend) := none_carried rfl
theorem claim (h : HallId) (p : FabPacket) : Statement (.claim h p) := packet_carried (p := p)
theorem managerElected : Statement (.managerElected) := none_carried rfl
theorem heartbeatSend : Statement (.heartbeatSend) := none_carried rfl
theorem heartbeat (h : HallId) (p : FabPacket) : Statement (.heartbeat h p) := packet_carried (p := p)
theorem heartbeatLoss : Statement (.heartbeatLoss) := none_carried rfl
theorem query (h : HallId) (l : Option LinkTag) (p : FabPacket) : Statement (.query h l p) := packet_carried (p := p)
theorem assignId (h : HallId) (l : Option LinkTag) (p : FabPacket) : Statement (.assignId h l p) := packet_carried (p := p)
theorem routeWrite (h : HallId) (l : Option LinkTag) (p : FabPacket) : Statement (.routeWrite h l p) := packet_carried (p := p)
theorem wclSet (h : HallId) (l : Option LinkTag) (p : FabPacket) : Statement (.wclSet h l p) := packet_carried (p := p)
theorem report (a : HallId × FabPacket) : Statement (.report a) := packet_carried (p := a.2)
theorem fabStreamCfgWrite (h : HallId) (w : Word) : Statement (.fabStreamCfgWrite h w) := none_carried rfl
theorem ringCfgWrite (h : HallId) (r : RingReg) (w : Word) : Statement (.ringCfgWrite h r w) := none_carried rfl
theorem dmaChCfgWrite (h : HallId) (w : Word) : Statement (.dmaChCfgWrite h w) := none_carried rfl
theorem tierCfgWrite (r : TierReg) (w : Word) : Statement (.tierCfgWrite r w) := none_carried rfl
theorem fardecWrite (r : FardecReg) (w : Word) : Statement (.fardecWrite r w) := none_carried rfl
theorem portaWinWrite (r : PortaReg) (w : Word) : Statement (.portaWinWrite r w) := none_carried rfl
theorem errlogCfgWrite (r : ErrlogReg) (w : Word) : Statement (.errlogCfgWrite r w) := none_carried rfl
theorem errlogHeadWrite (w : Word) : Statement (.errlogHeadWrite w) := none_carried rfl
theorem peakClear (w : Word) : Statement (.peakClear w) := none_carried rfl
theorem portaIrq (w : Word) : Statement (.portaIrq w) := none_carried rfl
theorem mailboxWrite (off : Nat) (size : Nat) (value : Dword) : Statement (.mailboxWrite off size value) := by
  intro h
  simp [Instr.wf] at h
  simp only [Instr.carried]
  omega
theorem portaLinkChange (perst : Bool) (width : Nat) (gen : Nat) : Statement (.portaLinkChange perst width gen) := none_carried rfl
theorem portbLinkLoss : Statement (.portbLinkLoss) := none_carried rfl
theorem pbPerstRelease : Statement (.pbPerstRelease) := none_carried rfl
theorem cableInsert (h : HallId) (watts : Nat) : Statement (.cableInsert h watts) := none_carried rfl
theorem calOpRead : Statement (.calOpRead) := none_carried rfl
theorem calOpWrite : Statement (.calOpWrite) := none_carried rfl
theorem calOpClear : Statement (.calOpClear) := none_carried rfl
theorem calRestoreFactory : Statement (.calRestoreFactory) := none_carried rfl
theorem fwupdStage : Statement (.fwupdStage) := none_carried rfl
theorem fwupdCommit (classes : BitVec 3) : Statement (.fwupdCommit classes) := none_carried rfl
theorem entdaa (word : Option (BitVec 64)) (addr : BitVec 7) : Statement (.entdaa word addr) := none_carried rfl
theorem rstdaa : Statement (.rstdaa) := none_carried rfl
theorem enec (events : Byte) : Statement (.enec events) := none_carried rfl
theorem disec (events : Byte) : Statement (.disec events) := none_carried rfl
theorem setmwl (n : BitVec 16) : Statement (.setmwl n) := none_carried rfl
theorem getmwl : Statement (.getmwl) := none_carried rfl
theorem setmrl (n : BitVec 16) : Statement (.setmrl n) := none_carried rfl
theorem getmrl : Statement (.getmrl) := none_carried rfl
theorem getpid : Statement (.getpid) := none_carried rfl
theorem getbcr : Statement (.getbcr) := none_carried rfl
theorem getdcr : Statement (.getdcr) := none_carried rfl
theorem getstatus : Statement (.getstatus) := none_carried rfl
theorem responseRead : Statement (.responseRead) := none_carried rfl
theorem mctpPacket (t : Transport) (bytes : List Byte) : Statement (.mctpPacket t bytes) := none_carried rfl
theorem readPage (args : List Byte) : Statement (.readPage args) := none_carried rfl
theorem alertAck (args : List Byte) : Statement (.alertAck args) := none_carried rfl
theorem calRead (args : List Byte) : Statement (.calRead args) := none_carried rfl
theorem calWrite (args : List Byte) : Statement (.calWrite args) := none_carried rfl
theorem calClear (args : List Byte) : Statement (.calClear args) := none_carried rfl
theorem restoreFactory (args : List Byte) : Statement (.restoreFactory args) := none_carried rfl
theorem warmReset (args : List Byte) : Statement (.warmReset args) := none_carried rfl
theorem fwCommit (args : List Byte) : Statement (.fwCommit args) := none_carried rfl
theorem ibiRequest (acked : Bool) : Statement (.ibiRequest acked) := none_carried rfl
theorem getVersion (t : Transport) (req : List Byte) : Statement (.getVersion t req) := none_carried rfl
theorem getCapabilities (t : Transport) (req : List Byte) : Statement (.getCapabilities t req) := none_carried rfl
theorem negotiateAlgorithms (t : Transport) (req : List Byte) : Statement (.negotiateAlgorithms t req) := none_carried rfl
theorem getDigests (t : Transport) (req : List Byte) : Statement (.getDigests t req) := none_carried rfl
theorem getCertificate (t : Transport) (req : List Byte) : Statement (.getCertificate t req) := none_carried rfl
theorem challenge (t : Transport) (req : List Byte) : Statement (.challenge t req) := none_carried rfl
theorem getMeasurements (t : Transport) (req : List Byte) : Statement (.getMeasurements t req) := none_carried rfl
theorem registerWrite (offset : Nat) (size : Nat) (value : Dword) : Statement (.registerWrite offset size value) := by
  intro h
  simp [Instr.wf] at h
  simp only [Instr.carried]
  omega
theorem computeResetRelease (h : HallId) (e : ResetEnd) : Statement (.computeResetRelease h e) := none_carried rfl
theorem vestMaintDone (h : HallId) : Statement (.vestMaintDone h) := none_carried rfl
theorem calCommandDone (flashOk : Bool) : Statement (.calCommandDone flashOk) := none_carried rfl
theorem fwupdDone (flashOk : Bool) : Statement (.fwupdDone flashOk) := none_carried rfl
theorem mgmtReply (h : HallId) (p : FabPacket) : Statement (.mgmtReply h p) := packet_carried (p := p)
theorem portbLinkUp (width : Nat) (gen : Nat) (cxl : Bool) : Statement (.portbLinkUp width gen cxl) := none_carried rfl
theorem linkControlWord (h : HallId) (ackedSeq : Nat) (credits : List (Fin 24 × Nat)) : Statement (.linkControlWord h ackedSeq credits) := none_carried rfl
theorem commandFrameRefused (frame : List Byte) : Statement (.commandFrameRefused frame) := none_carried rfl

end Sys2Proof.Laws.Wf
end

