-- ==== Sys2Proof/Tests/Slice0.lean ====
section
/-! SUPPORT. Witnesses of the hypotheses of the statements, tests against the spec's worked examples, and ill-formed
commands that the checks refuse. -/

namespace Sys2Proof.Tests

open Sys2Proof Sys2Proof.Machine

set_option Elab.async false

/-! ### Small states -/

/-- A hall in service. -/
def hallT : Hall := { state := .enabled, netUp := true, pllLocked := true }

/-- A module that runs, with hall 0 in service and its stairwell 0. -/
def run (f : Hall → Hall) : State :=
  { porter := { stage := .running, power := { phase := .on } }, halls := [(0, f hallT)], stairs := [(0, { assigned := true })] }

/-- The same with the fabric port of hall 0 given. -/
def onPort (p : Port) : State := run fun x => { x with port := p }

/-- The same with claim 0 of a descriptor. -/
def onClaim (d : Rec64) : State := { run id with claims := [(0, { hall := 0, sq := 0, sqHead := 1, desc := d })], nextClaim := 1 }

/-- The same with firmware of level 1. -/
def onHello (st : PortState) : State :=
  { onPort { state := st } with porter := { stage := .running, power := { phase := .on }, running := { level := 0x10000 } } }

/-- A message of another module, of serial number 7, as its packet on the link. -/
def fromPeer (mtype : Nat) (body : List Byte) : FabPacket :=
  mgPacket linkLocalNode linkLocalNode 0 0 (mkMgmt { run id with porter := { fuses := { serial := 7 } } } mtype false 0 0 0 body)

/-- Its HELLO, of a firmware level and a WCL. -/
def helloT (level wcl : Nat) : FabPacket := fromPeer 0x08 (leBytes 4 0xFFFFF ++ leBytes 4 (level * 65536) ++ leBytes 16 wcl)

/-- The hypotheses of `Handed`, as a test. -/
def handedB (s : State) (h : HallId) (p : FabPacket) : Bool :=
  s.hallNet h && p.link.all fun t =>
    !([PortState.down, .training, .retrain].contains (s.port h).state) && t.ok && t.seq == (s.port h).rxNext

theorem handedB_handed {s : State} {h : HallId} {p : FabPacket} (e : handedB s h p = true) : Handed s h p := by
  simp only [handedB, Bool.and_eq_true] at e
  refine ⟨e.1, fun t ht => ?_⟩
  have := e.2
  rw [ht, Option.all_some, Bool.and_eq_true, Bool.and_eq_true, Bool.not_eq_true', beq_iff_eq] at this
  exact ⟨fun hm => by simp [List.contains_eq_mem, hm] at this, this.1.2, this.2⟩

/-- The hypotheses of `Arrives`, as a test. -/
def arrivesB (s : State) (h : HallId) (p : FabPacket) : Bool := handedB s h p && p.crc == packetCrc p.hdr p.payload

theorem arrivesB_arrives {s : State} {h : HallId} {p : FabPacket} (e : arrivesB s h p = true) : Arrives s h p := by
  simp only [arrivesB, Bool.and_eq_true, beq_iff_eq] at e
  exact ⟨handedB_handed e.1, e.2⟩

/-- A fabric packet from node 0x20 to hall 0 of this module. -/
def packetT (ptype stream seq : Nat) (payload : List Byte) : FabPacket :=
  mkPacket (put 256 0 0 8 ptype ||| put 256 4 0 20 0xFFFF0 ||| put 256 8 0 20 0x20 ||| put 256 0x0C 0 6 stream
    ||| put 256 0x10 0 32 (if ptype = 1 then seq else 0) ||| put 256 0x14 0 12 payload.length) payload

/-- Hall 0 with receive stream 1 enabled for node 0x20. -/
def onStream (r : RxStream) : State := run fun x => { x with rx := [(1, r)] }

/-- A record of 64 bytes from its fields: byte offset, low bit, width, value. -/
def recT (l : List (Nat × Nat × Nat × Nat)) : Rec64 := l.foldl (fun d f => d ||| put 512 f.1 f.2.1 f.2.2.1 f.2.2.2) 0

/-- A record of 32 bytes. -/
def recS (l : List (Nat × Nat × Nat × Nat)) : Rec32 := l.foldl (fun d f => d ||| put 256 f.1 f.2.1 f.2.2.1 f.2.2.2) 0

/-- Stairwell 0 of hall 0 with op queue `q` given. -/
def onQueue (q : Nat) (x : OpQueue) : State := { run id with stairs := [(0, { assigned := true, queues := [(q, x)] })] }

/-! ### Witnesses: the hypotheses of each statement are met -/

theorem witness_FabricPortTrains :
    (let s := onPort {}
     s.hallNet 0 = true ∧ s.running = true ∧ (s.port 0).state = .down ∧ (s.port 0).attempt = none ∧ (s.port 0).cable = none ∧
      (s.port 0).en = true) ∧
    (let s := { onPort { attempt := some 5 } with now := 1000000005 }
     s.hallNet 0 = true ∧ (s.port 0).state = .down ∧ (s.port 0).en = true ∧ (s.port 0).cable = none ∧
      (s.port 0).attempt = some 5 ∧ 5 + 1000000000 ≤ s.now) ∧
    (let s := { onPort { state := .training } with now := 150000000 }
     (s.port 0).state = .training ∧ s.now ≤ (s.port 0).since + 150000000 ∧ (s.port 0).since + 150000000 ≤ s.now) ∧
    (let s := { onPort { state := .retrain } with now := 200000000 }
     (s.port 0).state = .retrain ∧ s.now ≤ (s.port 0).since + 200000000 ∧ (s.port 0).since + 200000000 ≤ s.now) ∧
    (let s := { onPort { state := .hello } with now := 10000000 }
     (s.port 0).state = .hello ∧ (s.port 0).since + 10000000 ≤ s.now) ∧
    (let s := onPort { state := .active }
     s.running = true ∧ (s.port 0).state = .active ∧ (s.port 0).replay = [] ∧ (s.port 0).waitq = [] ∧
      s.porter.fab.elected = false ∧ s.porter.fab.mgrPid = none) := by decide +kernel

theorem witness_HelloExchange :
    (∀ p ∈ [helloT 1 1, arrived (helloT 1 1) (some { seq := 1, ok := true })],
      let s := onHello .hello
      let x := ((linkTaken s 0 p).port 0).withPeer (msgOf p)
      s.porterUp = true ∧ s.hallNet 0 = true ∧ (s.port 0).state = .hello ∧ (s.port 0).helloAt = none ∧ arrivesB s 0 p = true ∧
        arrivesB (onHello .active) 0 p = true ∧ mgmtPktBad s p = false ∧ helloOk (msgOf p) = true ∧
        s.porter.fab.elected = false ∧ s.porter.fab.mgrPid = none ∧ levelMajor s.fwLevel ≤ levelMajor x.peerLevel + 1 ∧
        levelMajor x.peerLevel ≤ levelMajor s.fwLevel + 1 ∧ x.peerWcl ≤ levelMajor s.fwLevel ∧ x.peerPid ≠ s.pid) ∧
    ((onHello .check).port 0).state = .check ∧ ((onHello .active).port 0).state = .active ∧
    ((onHello .refused).port 0).state = .refused ∧ ((onHello .refused).port 0).helloAt = none := by decide +kernel

theorem witness_PeerOutsideTheRulesIsRefused :
    let s := onHello .hello
    let own := mgPacket linkLocalNode linkLocalNode 0 0 (mkMgmt s 0x08 false 0 0 0 (msgOf (helloT 1 1)).body)
    let peer := fun (p : FabPacket) => ((linkTaken s 0 p).port 0).withPeer (msgOf p)
    let gap := fun (x : Port) => levelMajor x.peerLevel + 1 < levelMajor s.fwLevel ∨ levelMajor s.fwLevel + 1 < levelMajor x.peerLevel
    let ahead := fun (x : Port) => levelMajor s.fwLevel < x.peerWcl
    s.porterUp = true ∧ (s.port 0).state = .hello ∧ s.porter.fab.elected = false ∧ s.porter.fab.mgrPid = none ∧
      (∀ p ∈ [helloT 3 1, helloT 2 2, own], arrivesB s 0 p = true ∧ mgmtPktBad s p = false ∧ helloOk (msgOf p) = true) ∧
      gap (peer (helloT 3 1)) ∧ (¬ gap (peer (helloT 2 2)) ∧ ahead (peer (helloT 2 2))) ∧
      (¬ gap (peer own) ∧ ¬ ahead (peer own) ∧ (peer own).peerPid = s.pid) := by decide +kernel

theorem witness_ReplaySendsWhatThePeerLacks :
    let s := onPort { state := .active, replay := [{ linkSeq := 3, pkt := packetT 1 1 0 [] }] }
    s.hallNet 0 = true ∧ (s.port 0).state = .active ∧ (s.port 0).waitq = [] ∧
      ((s.port 0).replay.filter fun q => 3 ≤ q.linkSeq).length = 1 ∧ ((s.port 0).replay.filter fun q => 3 < q.linkSeq) = [] := by
  decide +kernel

theorem witness_ReceiveStreamIsSetUpAsStated :
    (let s := run fun x => { x with regs := { streamSel := 47 } }
     s.hallNet 0 = true ∧ s.running = true ∧ (s.hall 0).regs.streamSel = 47 ∧ otherCredits s 0 47 = 0 ∧
      bits (0x2001 : Word) 13 2 = 2048 ∧ bitAt (0x2001 : Word) 0 ≠ (s.rx 0 47).en ∧ bits (0x2000 : Word) 13 2 = 2048 ∧ bitAt (0x2000 : Word) 0 = (s.rx 0 47).en ∧
      2048 < bits (0x2004 : Word) 13 2) ∧
    (let s := run fun x => { x with regs := { streamSel := 0 }, rx := [(1, { en := true, credits := 1 })] }
     bitAt (0x2001 : Word) 0 = true ∧ 2048 < bits (0x2001 : Word) 13 2 + otherCredits s 0 0) ∧
    48 ≤ ((run fun x => { x with regs := { streamSel := 48 } }).hall 0).regs.streamSel := by decide +kernel

theorem witness_DataPacketReachesItsStream :
    let p := packetT 1 1 0 [5]
    let ok : State → Prop := fun s => handedB s 0 p = true ∧ packetBad s 0 p 1 = false ∧ pkStream p.hdr < 48 ∧
      p.crc = packetCrc p.hdr p.payload ∧ (s.rx 0 1).en = true
    pkStream p.hdr = 1 ∧
    (let s := onStream { en := true, credits := 8, src := 0x20, unacked := 2 }
     ok s ∧ (s.rx 0 1).src.toNat = pkSrc p.hdr ∧ (s.rx 0 1).admits p = true ∧ ((s.rx 0 1).take p).unacked + 1 = 3) ∧
    (let s := onStream { en := true, credits := 8, src := 0x20, unacked := 3 }
     ok s ∧ (s.rx 0 1).src.toNat = pkSrc p.hdr ∧ (s.rx 0 1).admits p = true ∧ ((s.rx 0 1).take p).unacked + 1 = 4) ∧
    (let s := onStream { en := true, credits := 8, src := 0x30 }
     ok s ∧ (s.rx 0 1).src.toNat ≠ pkSrc p.hdr) ∧
    (let q := { p with crc := p.crc + 1 }
     handedB (onStream {}) 0 q = true ∧ packetBad (onStream {}) 0 q 1 = false ∧ q.crc ≠ packetCrc q.hdr q.payload) := by decide +kernel

theorem witness_AcknowledgementAndRetransmission :
    let p := packetT 2 1 0 []
    let q : TxPkt := { seq := 0, payload := [], poison := false, start := true, sent := 0, sends := 1, ch := none }
    let x : TxStream := { next := 1, pkts := [q] }
    (let s := run fun y => { y with tx := [(txKey 0x20 1, x)], rx := [(47, { unackAt := some 0 })] }
     let u := { s with now := 10000 }
     s.hallNet 0 = true ∧ arrivesB s 0 p = true ∧ packetBad s 0 p 2 = false ∧
      sfind (s.hall 0).tx (txKey (pkSrc p.hdr) (pkStream p.hdr)) = some x ∧ (x.next - 1 - pkAckseq p.hdr).toNat < 2 ^ 31 ∧
      (u.rx 0 47).unackAt = some 0 ∧ 0 + 200 ≤ u.now ∧
      (u.tx 0 (txKey 0x20 1)).pkts.find? (fun q => q.seq == 0) = some q ∧ q.sent + 100 * 2 ^ (q.sends - 1) * 100 ≤ u.now ∧
      q.sends < 7) ∧
    (let q := { q with sends := 7 }
     let s := { (run fun y => { y with tx := [(txKey 0x20 1, { x with pkts := [q] })] }) with now := 640000 }
     (s.tx 0 (txKey 0x20 1)).pkts.find? (fun q => q.seq == 0) = some q ∧ q.sent + 100 * 2 ^ (q.sends - 1) * 100 ≤ s.now ∧
      7 ≤ q.sends) := by decide +kernel

theorem witness_PacketsThatPassThrough :
    let p := fun (dst level : Nat) => mkPacket (put 256 0 0 8 1 ||| put 256 0 16 3 level ||| put 256 4 0 20 dst) []
    let q := fun (nibble : Nat) => mgPacket 0 linkLocalNode 0 0 (mkMgmt (run id) 3 true nibble 0 0 [])
    let z := fun (n : Nat) => withRoute (q n) (bodyNat (q n).payload 0x10 4) (bodyNat (q n).payload 0x14 4 * 16 % 2 ^ 32 + 0)
    (let s := (run id).modFab fun f => { f with moduleId := 2 }
     (∀ d ∈ [(0x20, 0), (0x2F, 15), (0x2B, 11)], handedB s 0 (p d.1 0) = true ∧ nodeModule (pkDst (p d.1 0).hdr) ≠ 0xFFFF ∧
      nodeHall (pkDst (p d.1 0).hdr) = d.2 ∧ nodeModule (pkDst (p d.1 0).hdr) = s.porter.fab.moduleId) ∧
      handedB s 0 (p 0x3F 7) = true ∧ nodeHall (pkDst (p 0x3F 7).hdr) = 15 ∧
      nodeModule (pkDst (p 0x3F 7).hdr) ≠ s.porter.fab.moduleId ∧ nodeModule (pkDst (p 0x3F 7).hdr) ≠ 0xFFFF ∧
      pkLevel (p 0x3F 7).hdr = 7) ∧
    (∀ n ∈ [15, 12, 14, 0, 11], handedB (run id) 0 (q n) = true ∧ (q n).payload.length = 32 ∧
      bodyNat (z n).payload 0x10 4 % 16 = n) := by decide +kernel

theorem witness_ElectionAndHeartbeats :
    let s := onHello .active
    s.porterUp = true ∧ s.porter.fab.lastClaim = none ∧ (s.port 0).active = true ∧ s.porter.fab.elected = false ∧
    (let p := fromPeer 0x01 (leBytes 4 2)
     let m := msgOf p
     arrivesB s 0 p = true ∧ mgmtPktBad s p = false ∧
      mgType m = 0x01 ∧ mgRouted m = false ∧ bodyOk m.body 4 [(0, 8, 24)] = true ∧
      (let u := s.modFab fun f => { f with elected := true, prio := 1, lastHbSend := some 0 }
       u.porterUp = true ∧ arrivesB u 0 p = true ∧ mgmtPktBad u p = false ∧ u.porter.fab.elected = true ∧
        claimBetter (bodyNat m.body 0 1, mgOrigin m) u.ownClaim = true ∧
        (let v := { u with now := 10000000 }
         v.porter.fab.lastHbSend = some 0 ∧ 0 + 10000000 ≤ v.now))) ∧
    (let u := { (s.modFab fun f => { f with prio := 1 }) with now := 200000000 }
     u.porter.fab.elected = false ∧ ownBestLong u = true) ∧
    (let p := fromPeer 0x02 (leBytes 4 0x2F ++ leBytes 4 1)
     let m := msgOf p
     arrivesB s 0 p = true ∧ mgmtPktBad s p = false ∧
      mgType m = 0x02 ∧ mgRouted m = false ∧ bodyOk m.body 8 [(0, 20, 12)] = true ∧ hbNew s m = true) ∧
    (let u := { (s.modFab fun f => { f with mgrPid := some 7, lastHb := some 0 }) with now := 100000000 }
     u.porter.fab.elected = false ∧ u.porter.fab.mgrPid = some 7 ∧ u.porter.fab.lastHb = some 0 ∧ 0 + 100000000 ≤ u.now) := by
  decide +kernel

theorem witness_ManagerRequestsAreAnswered :
    let s := onHello .active
    let u := s.modFab fun f => { f with mgrPid := some (mgOrigin (msgOf (fromPeer 3 []))) }
    let v := s.modFab fun f => { f with elected := true }
    s.porterUp = true ∧ u.porterUp = true ∧ v.porterUp = true ∧ v.porter.fab.elected = true ∧
    (∀ p ∈ [fromPeer 3 [], fromPeer 3 [1], fromPeer 4 (leBytes 4 0xFFFE), fromPeer 5 (leBytes 2 0xFFFE ++ [1, 0] ++ leBytes 4 0),
        fromPeer 6 (leBytes 4 1), fromPeer 6 (leBytes 4 2), fromPeer 7 (leBytes 4 0x0210002F ++ leBytes 4 3)],
      ∀ l ∈ [none, some { seq := 1, ok := true }], ∀ t ∈ [s, u, v],
        arrivesB t 0 (arrived p l) = true ∧ mgmtPktBad t (arrived p l) = false ∧ mgEpoch (msgOf p) = t.porter.fab.epoch) ∧
    (∀ t ∈ [3, 4, 5, 6, 7], mgType (msgOf (fromPeer t [])) = t ∧ u.porter.fab.mgrPid = some (mgOrigin (msgOf (fromPeer t []))) ∧
      s.porter.fab.mgrPid ≠ some (mgOrigin (msgOf (fromPeer t [])))) ∧
    (msgOf (fromPeer 3 [])).body = [] ∧ (msgOf (fromPeer 3 [1])).body = [1] ∧
    bodyOk (leBytes 4 0xFFFE) 4 [(0, 16, 16)] = true ∧ bodyNat (leBytes 4 0xFFFE) 0 2 ≠ 0xFFFF ∧
    routeBodyOk (leBytes 2 0xFFFE ++ [1, 0] ++ leBytes 4 0) = true ∧
    bodyNat (leBytes 4 1) 0 2 = levelMajor s.fwLevel ∧ bodyOk (leBytes 4 1) 4 [(0, 16, 16)] = true ∧
    levelMajor s.fwLevel < bodyNat (leBytes 4 2) 0 2 ∧ bodyOk (leBytes 4 2) 4 [(0, 16, 16)] = true ∧
    bodyOk (leBytes 4 0x0210002F ++ leBytes 4 3) 8 [(0, 28, 4), (4, 16, 16)] = true := by decide +kernel

theorem witness_StepRunsTheFrontCommand :
    let s := { run id with pending := [.ageTick, .claimSend] }
    s.pending = Instr.ageTick :: [.claimSend] ∧ (run id).pending = [] := by decide +kernel

theorem witness_MemoryFormIsKept :
    let s := { run id with mem := [(1, 7), (5, 9)], pending := [.sqTailWrite 0 0 true 0] }
    Memory.wf s.mem = true ∧ ∃ t, step s = .next t := ⟨by decide, _, rfl⟩

/-- A ring that holds as many descriptors as its size. -/
def onFullRing : State :=
  { (run fun x => { x with sq := [(0, { en := true, tail := 16 })] }) with pending := [.sqTailWrite 0 0 true 17] }

theorem witness_SubmissionRingsStayWithinTheirSize :
    onFullRing.ringsOk ∧ (((onFullRing.hall 0).sq.map fun q => (q.2.tail - q.2.claimed).toNat) = [16]) ∧
      ∃ t, step onFullRing = .next t := by
  refine ⟨fun h i => ?_, by decide, _, rfl⟩
  unfold State.hall onFullRing run sget sfind
  by_cases hh : (0 : Nat) = h
  · subst hh
    by_cases hi : (0 : Nat) = i
    · subst hi; simp [hallT, sfind, SubRing.ok, SubRing.size]
    · simp [hallT, sfind, SubRing.ok, hi]
  · simp [sfind, SubRing.ok, hh]

theorem witness_FusesStandButForFirmwareCommit : ∀ b, Instr.ageTick ≠ .fwupdDone b := by intro b h; cases h

theorem witness_TailDoorbell :
    let s := run fun x => { x with sq := [(0, { en := true, tail := 3, claimed := 1 })] }
    let r := s.sq 0 0
    let ok : Word → Prop := fun t => (t - r.claimed).toNat ≤ r.size ∧ (t - r.tail).toNat < 2 ^ 31
    s.hallNet 0 = true ∧ s.running = true ∧ ok 3 ∧ ok 17 ∧ ¬ ok 18 ∧ ¬ ok 2 ∧ (r.tail - r.claimed).toNat ≤ r.size := by
  decide +kernel

theorem witness_HeadDoorbell :
    let s := run fun x => { x with cq := [(0, { en := true, tail := 3, head := 1 })] }
    let r := s.cq 0 0
    let ok : Word → Prop := fun t => (t - r.head).toNat ≤ (r.tail - r.head).toNat
    s.hallNet 0 = true ∧ s.running = true ∧ ok 1 ∧ ok 3 ∧ ¬ ok 4 ∧ ¬ ok 0 := by decide +kernel

theorem witness_DoorbellsTakeOneAlignedWrite :
    (run id).hallNet 0 = true ∧ (run id).running = true ∧ 2 ^ 32 ≤ (0x100000000 : Dword).toNat ∧
    (0xFFFFFFFF : Dword).toNat < 2 ^ 32 ∧
    (let s := (run id).modPorter fun p => { p with stage := .init }
     s.hallNet 0 = true ∧ s.running = false) ∧
    (run fun x => { x with netLost := true }).hallNet 0 = false := by decide +kernel

theorem witness_RingSetUp :
    let s := run id
    let u := run fun x => { x with sq := [(0, { en := true })] }
    s.hallNet 0 = true ∧ s.running = true ∧ u.hallNet 0 = true ∧ u.running = true ∧
      (s.sq 0 (s.hall 0).regs.sqSel).en = false ∧ (s.cq 0 (s.hall 0).regs.cqSel).en = false ∧
      bits (0x44 : Word) 4 0 = 4 ∧ bitAt (0x44 : Word) 6 = true ∧ bits (0x50 : Word) 4 0 = 16 ∧ bitAt (0x50 : Word) 6 = true ∧
      bits (0x43 : Word) 4 0 < 4 ∧ 16 < bits (0x51 : Word) 4 0 ∧
      (u.sq 0 (u.hall 0).regs.sqSel).en = true ∧ bits (0x45 : Word) 4 0 ≠ (u.sq 0 (u.hall 0).regs.sqSel).log2 := by
  decide +kernel

theorem witness_DescriptorIsClaimed :
    let s := run fun x => { x with sq := [(3, { en := true, tail := 1 })], cq := [(0, { en := true })] }
    let u := s.write .park 0 [0x3F] false
    u.running = true ∧ u.claimsStopped = false ∧ u.hallNet 0 = true ∧ u.hallUp 0 = true ∧ u.claimRing 0 = some 3 ∧
      (u.cq 0 (descCq (u.headDesc 0 3))).en = true ∧ fld (u.headDesc 0 3) 0 16 16 = 0 ∧
      knownOpcode (descOpcode (u.headDesc 0 3)) = true ∧ (run id).claimRing 0 = none ∧
      (∀ o ∈ [0x12, 0x41], descOpcode ((s.write .park 0 [BitVec.ofNat 8 o] false).headDesc 0 3) = o ∧ knownOpcode o = true) := by
  decide +kernel

theorem witness_CompletionRecordIsWritten :
    (let s := onClaim 0x3F
     let u := { s with halls := [(0, { hallT with state := .computeReset })] }
     ∃ x, s.claim? 0 = some x ∧ u.claim? 0 = some x ∧ descOpcode x.desc = 0x3F ∧ x.stage = .claimed ∧ zeroFrom x.desc 8 0 = true ∧
      s.porter.host.parkDead = 0 ∧ (s.hall x.hall).state ≠ .computeReset ∧ (u.hall x.hall).state = .computeReset) ∧
    (let s := { (run fun x => { x with cq := [(63, { oldest := some 0, irqDelay := 1 })] }) with now := 100 }
     (s.cq 0 63).oldest = some 0 ∧ (s.cq 0 63).irqDelay ≠ 0 ∧ 0 + (s.cq 0 63).irqDelay * 100 ≤ s.now) :=
  ⟨⟨_, rfl, rfl, by decide +kernel⟩, by decide +kernel⟩

/-- The hypotheses of `ClaspReady`, as a test. -/
def readyB (s : State) (rq : Requester) (cop : Nat) (k : ClaspId) (v : Word) : Bool :=
  asks s rq cop k v && decide (copStatus (requesterIssuer rq) cop v.toNat = none)
    && decide ((s.hall (claspHome k.toNat)).state = .enabled) && !claspLocked s k && !(s.clasp k.toNat).lost
    && match rq with
      | .host c => (s.claim? c).all fun x => recordWaiters s x.hall < 256
      | _ => true

theorem readyB_ready (s : State) (rq : Requester) (cop : Nat) (k : ClaspId) (v : Word) (h : readyB s rq cop k v = true) :
    ClaspReady s rq cop k v := by
  simp only [readyB, Bool.and_eq_true, decide_eq_true_eq, Bool.not_eq_true'] at h
  refine ⟨h.1.1.1.1.1, h.1.1.1.1.2, h.1.1.1.2, h.1.1.2, h.1.2, ?_⟩
  rintro c x rfl hx
  have := h.2
  simp only [hx, Option.all_some, decide_eq_true_eq] at this
  exact this

/-- Clasp 0 of hall 0 holds a cell; usher 0 asks. -/
def onClasp (c : Clasp) : State := { run id with clasps := [(0, c)] }

/-- A waiter. -/
def waiterT (w : WaitCond) : Waiter := { who := .usher 0 1 none, cond := w, old := 0, oldType := .counter }

theorem witness_ClaspsAreInitialisedAndDropped :
    (∀ p ∈ [(0x01, 5), (0x02, 1), (0x03, 0), (0x04, (0 : Word))],
      (let s := onClasp {}
       (s.clasp 0).waiters = [] ∧ ClaspReady s (.usher 0 0 none) p.1 0 p.2) ∧
      (let s := onClasp { typ := .counter, waiters := [waiterT (.reach 3)] }
       (s.clasp 0).waiters ≠ [] ∧ ClaspReady s (.usher 0 0 none) p.1 0 p.2)) := by
  intro p hp
  refine ⟨⟨rfl, readyB_ready _ _ _ _ _ ?_⟩, (by intro h; cases h), readyB_ready _ _ _ _ _ ?_⟩ <;>
    revert p <;> decide +kernel

theorem witness_CounterOperations :
    (∀ cop ∈ [0x10, 0x11, 0x12, 0x13], ∀ n ∈ [5, 6, 0x80000005, 0x80000006],
      (let s := onClasp { typ := .counter, val := 5 }
       (s.clasp 0).typ = .counter ∧ ClaspReady s (.usher 0 0 none) cop 0 (BitVec.ofNat 32 n)) ∧
      (let s := onClasp { typ := .flag }
       (s.clasp 0).typ ≠ .counter ∧ ClaspReady s (.usher 0 0 none) cop 0 (BitVec.ofNat 32 n))) ∧
    ((5 : Word) - 5).toNat < 2 ^ 31 ∧ 2 ^ 31 ≤ ((5 : Word) - 6).toNat ∧ 2 ^ 31 ≤ ((5 : Word) - 0x80000005).toNat ∧
    ((5 : Word) - 0x80000006).toNat < 2 ^ 31 ∧ ((5 : Word) + 1 - 6).toNat < 2 ^ 31 ∧ 2 ^ 31 ≤ ((5 : Word) + 1 - 0x80000006).toNat := by
  have h1 : ∀ cop ∈ [0x10, 0x11, 0x12, 0x13], ∀ n ∈ [5, 6, 0x80000005, 0x80000006],
      readyB (onClasp { typ := .counter, val := 5 }) (.usher 0 0 none) cop 0 (BitVec.ofNat 32 n) = true ∧
        readyB (onClasp { typ := .flag }) (.usher 0 0 none) cop 0 (BitVec.ofNat 32 n) = true := by decide +kernel
  exact ⟨fun cop h n hn => ⟨⟨rfl, readyB_ready _ _ _ _ _ (h1 cop h n hn).1⟩, by decide, readyB_ready _ _ _ _ _ (h1 cop h n hn).2⟩,
    by decide +kernel⟩

theorem witness_FlagAndLockOperations :
    (∀ v ∈ [0, 1], ∀ b ∈ [0, 1],
      ((onClasp { typ := .flag, val := BitVec.ofNat 32 b }).clasp 0).typ = .flag ∧
      ClaspReady (onClasp { typ := .flag, val := BitVec.ofNat 32 b }) (.usher 0 0 none) 0x20 0 0 ∧
      ClaspReady (onClasp { typ := .flag, val := BitVec.ofNat 32 b }) (.usher 0 0 none) 0x21 0 0 ∧
      ClaspReady (onClasp { typ := .flag, val := BitVec.ofNat 32 b }) (.usher 0 0 none) 0x22 0 (BitVec.ofNat 32 v)) ∧
    (∀ b ∈ [0, 0x80000007, 0xC0000007, 0xC1000007], ∀ cop ∈ [0x30, 0x31, 0x32],
      ((onClasp { typ := .lock, val := BitVec.ofNat 32 b }).clasp 0).typ = .lock ∧
      ClaspReady (onClasp { typ := .lock, val := BitVec.ofNat 32 b }) (.usher 0 0 none) cop 0 7) ∧
    lockHeld 0 = false ∧ lockHeld 0x80000007 = true ∧ lockOwner 0x80000007 = (7 : Word).toNat % 2 ^ 24 ∧
    lockHall 0x80000007 = requesterHall (.usher 0 0 none) ∧ lockHall 0xC1000007 ≠ requesterHall (.usher 0 0 none) ∧
    lockOwner 0x80000007 ≠ (8 : Word).toNat % 2 ^ 24 ∧ lockOrphan 0x80000007 = false ∧ lockOrphan 0xC0000007 = true ∧
    (let s := { onClaim (put 512 0 0 8 0x31 ||| put 512 8 0 8 0x33) with clasps := [(0, { typ := .lock })] }
     (s.clasp 0).typ = .lock ∧ ClaspReady s (.host 0) 0x33 0 0) := by
  have h1 : ∀ b ∈ [0, 1], ∀ v ∈ [0, 1], ∀ q ∈ [(0x20, 0), (0x21, 0), (0x22, v)],
      readyB (onClasp { typ := .flag, val := BitVec.ofNat 32 b }) (.usher 0 0 none) q.1 0 (BitVec.ofNat 32 q.2) = true := by decide +kernel
  have h2 : ∀ b ∈ [0, 0x80000007, 0xC0000007, 0xC1000007], ∀ cop ∈ [0x30, 0x31, 0x32],
      readyB (onClasp { typ := .lock, val := BitVec.ofNat 32 b }) (.usher 0 0 none) cop 0 7 = true := by decide +kernel
  exact ⟨fun v hv b hb => ⟨rfl, readyB_ready _ _ _ _ _ (h1 b hb v hv (0x20, 0) (by simp)),
      readyB_ready _ _ _ _ _ (h1 b hb v hv (0x21, 0) (by simp)), readyB_ready _ _ _ _ _ (h1 b hb v hv (0x22, v) (by simp))⟩,
    fun b hb cop hc => ⟨rfl, readyB_ready _ _ _ _ _ (h2 b hb cop hc)⟩, by decide +kernel, by decide +kernel,
    by decide +kernel, by decide +kernel, by decide +kernel, by decide +kernel, by decide +kernel, by decide +kernel, rfl,
    readyB_ready _ _ _ _ _ (by decide +kernel)⟩

theorem witness_WaitersWakeInOrder :
    let l := [waiterT (.reach 3), waiterT (.flagIs true)]
    (∀ w ∈ l, ∀ o, w.cond ≠ .take o) ∧
    (let w := waiterT (.take 0x80000007)
     w.cond = .take 0x80000007 ∧ 2 ^ 31 ≤ 0x80000007 ∧ 0x80000007 < 2 ^ 32 ∧
      (∀ x ∈ [waiterT (.take 0x81000001)], ∃ p, x.cond = .take p)) ∧
    lockHeld 0x80000001 = true ∧ lockHeld 0 = false := by
  refine ⟨?_, ⟨rfl, by decide, by decide, ?_⟩, by decide, by decide⟩
  · intro w hw o
    simp only [List.mem_cons, List.not_mem_nil, or_false] at hw
    rcases hw with rfl | rfl <;> simp [waiterT]
  · intro x hx
    rw [List.mem_singleton] at hx
    exact ⟨_, by rw [hx]; rfl⟩

/-- A binding of one CTR_SET action on clasp 0, of claim 0. -/
def bindT (p : BindPhase) : Binding :=
  { claim := 0, post := 0, atHall := 0, nact := 1, list := 0, acts := [recS [(0, 0, 8, 4), (0, 8, 8, 0x13)]], datas := [0],
    halls := [0], coord := 0, phase := p, prepared := [], prepAt := [], applied := [], lostActs := [], locks := [],
    actAt := [0], drops := [], partly := [], logA := false, logB := false, status := 0, failAct := none, failHall := 0 }

/-- A module in which that binding is under way as binding 0, with cell 0. -/
def onBind (b : Binding) (c : Clasp) : State := { run id with binds := [(0, b)], nextBind := 1, clasps := [(0, c)] }

theorem witness_BindingsArePreparedAndCommitted :
    (let s := onClaim (recT [(0, 0, 8, 0x30), (8, 0, 5, 16)])
     ∃ x, s.claim? 0 = some x ∧ descOpcode x.desc = 0x30 ∧ x.stage = .claimed ∧ s.hallUp x.hall = true ∧ bindBodyStatus s x.desc = none) ∧
    (let s := onClaim (recT [(0, 0, 8, 0x30), (8, 0, 5, 17)])
     ∃ x, s.claim? 0 = some x ∧ descOpcode x.desc = 0x30 ∧ x.stage = .claimed ∧ s.hallUp x.hall = true ∧ (bindBodyStatus s x.desc).isSome = true) ∧
    (let b := bindT .fetch
     let s := onBind b {}
     sfind s.binds 0 = some b ∧ b.phase = .fetch ∧ s.hallUp b.atHall = true ∧ bindSlots s b.atHall < bindSlotLimit) ∧
    (let b := bindT .prepare
     let s := onBind b { typ := .counter }
     sfind s.binds 0 = some b ∧ b.nextHall = some 0 ∧ s.hallUp 0 = true ∧ (0 : HallId) = b.coord ∧ prepareFails s 0 b 0 = none ∧
      prepareFails (onBind b {}) 0 b 0 = some (0, Status.claspType)) ∧
    (bindT .prepared).phase = .prepared ∧ (onBind (bindT .prepared) {}).hallUp (bindT .prepared).coord = true ∧
    ((bindT .apply).phase = .apply ∧ (bindT .apply).halls.elem 0 = true ∧ (bindT .apply).applied.elem 0 = false ∧
      (onBind (bindT .apply) {}).hallUp 0 = true ∧ memwHeld (onBind (bindT .apply) {}) (bindT .apply) 0 = false) ∧
    (bindT .applied).phase = .applied ∧ (bindT .aborting).phase = .aborting :=
  ⟨⟨_, rfl, by decide +kernel⟩, ⟨_, rfl, by decide +kernel⟩, by decide +kernel, by decide +kernel, by decide +kernel,
    by decide +kernel, by decide +kernel, by decide +kernel, by decide +kernel⟩

theorem witness_BindingsAfterAFault :
    (let s := { onBind (bindT .fetch) {} with halls := [(0, { hallT with state := .fenced })] }
     sfind s.binds 0 = some (bindT .fetch) ∧ s.hallUp (bindT .fetch).atHall = false) ∧
    (let s := { onBind (bindT .prepare) {} with halls := [(0, { hallT with state := .computeReset })] }
     (bindT .prepare).nextHall = some 0 ∧ s.hallUp 0 = false) ∧
    (let b := { bindT .prepared with prepAt := [(0, 0)] }
     let s := { onBind b {} with now := 5000 }
     sfind s.binds 0 = some b ∧ b.phase = .prepared ∧ sfind b.prepAt 0 = some 0 ∧ 0 + 5000 ≤ s.now) ∧
    (let s := fun (p : BindPhase) =>
      { onBind (bindT p) {} with halls := [(0, { hallT with state := .fenced }), (1, hallT)] }
     (∀ p ∈ [BindPhase.apply, .applied], sfind (s p).binds 0 = some (bindT p) ∧ finisher (s p) (bindT p) = some 1 ∧
      (s p).hallUp (bindT p).coord = false ∧ (bindT p).phase = p) ∧ ((bindT .apply).logA && (bindT .apply).logB) = false) := by
  decide +kernel

/-- A CLASP op record: CTR_ADD of 1 to clasp 0. -/
def claspOpT : Rec64 := recT [(0, 0, 8, 5), (0, 8, 8, 0x10), (8, 0, 32, 1)]

/-- A TILE op record with START, FP8 of 16 × 16 × 32. -/
def tileT : Rec64 := recT [(0, 0, 8, 1), (0, 8, 8, 1), (0, 16, 8, 1), (0, 24, 8, 7), (4, 0, 13, 16), (4, 16, 13, 16), (8, 0, 17, 32),
  (8, 19, 1, 1)]

theorem witness_SequencerMovesOps :
    (let x : OpQueue := { ops := [{ op := claspOpT, idx := 0 }], strands := List.replicate 31 { op := claspOpT, idx := 9 } }
     let s := onQueue 0 x
     s.swRuns 0 0 = true ∧ s.queue 0 0 0 = x ∧ x.state = .running ∧ x.strands.length = 31 ∧
      handoutStatus s 0 0 0 { op := claspOpT, idx := 0 } = none ∧
      handoutStatus s 0 0 0 { op := claspOpT, idx := 0, poison := true } = some Status.poisoned) ∧
    (let s := onQueue 0 { strands := [{ op := claspOpT, idx := 0 }] }
     ∃ t, (s.queue 0 0 0).strands[0]? = some t ∧ canReady s 0 0 0 0 = true ∧ ¬ (opKind t.op = 0x01 ∧ tAcc t.op = 0)) ∧
    (let s := onQueue 0 { strands := [{ op := tileT, idx := 0 }] }
     ∃ t, (s.queue 0 0 0).strands[0]? = some t ∧ canReady s 0 0 0 0 = true ∧ opKind t.op = 0x01 ∧ tAcc t.op = 0) ∧
    (∀ st ∈ [StrandState.done, .executing], ∃ t rest,
      ((onQueue 0 { strands := [{ op := claspOpT, idx := 0, state := st }] }).queue 0 0 0).strands = t :: rest ∧ t.state = st) := by
  refine ⟨by decide +kernel, ⟨_, rfl, by decide +kernel⟩, ⟨_, rfl, by decide +kernel⟩, fun st _ => ⟨_, _, rfl, rfl⟩⟩

theorem witness_PressRunsTiles :
    (let t : Strand := { op := tileT, idx := 0, state := .ready }
     let s := onQueue 3 { strands := [t] }
     s.swRuns 0 0 = true ∧ unitPick s 0 0 (s.stair 0 0).pressLast 0x01 = some (3, 0) ∧ (s.queue 0 0 3).strands[0]? = some t ∧
      splitBlocked s 0 0 t.op = false) ∧
    (let t : Strand := { op := tileT ||| put 512 8 17 2 1, idx := 0, state := .ready }
     let a : AccSet := { isOpen := true, owner := 3, count := 65520, split := some 0, partials := (List.range 9).map fun i => (i, i) }
     let s := { run id with stairs := [(0, { assigned := true, queues := [(3, { strands := [t] })], acc := [(0, a)] })] }
     unitPick s 0 0 (s.stair 0 0).pressLast 0x01 = some (3, 0) ∧ (s.queue 0 0 3).strands[0]? = some t ∧
      splitBlocked s 0 0 t.op = true) ∧
    (let s := { run id with stairs := [(0, { assigned := true, acc := [(7, { isOpen := true, split := some 0, partials := [(0, 2), (0, 5)] })] })] }
     (s.accSet 0 0 7).split = some 0 ∧ (s.accSet 0 0 7).pairAt = some (0, 2, 5)) := by decide +kernel

theorem witness_KernelsRun : ∀ k ∈ [0x01, 0x02, 0x03, 0x04, 0x10, 0x11, 0x20, 0x21, 0x22, 0x23, 0x30, 0x40, 0x41, 0x42, 0x50, 0x60,
      0x70, 0x71],
    let t : Strand := { op := recT [(0, 0, 8, 2), (0, 8, 8, k)], idx := 0, state := .ready }
    KernelTaken (onQueue 9 { strands := [t] }) 0 0 9 0 t ∧ kOp t.op = k := by
  have h : ∀ k ∈ [0x01, 0x02, 0x03, 0x04, 0x10, 0x11, 0x20, 0x21, 0x22, 0x23, 0x30, 0x40, 0x41, 0x42, 0x50, 0x60, 0x70, 0x71],
      let t : Strand := { op := recT [(0, 0, 8, 2), (0, 8, 8, k)], idx := 0, state := .ready }
      let s := onQueue 9 { strands := [t] }
      (s.swRuns 0 0 = true ∧ addsDue s 0 0 = false ∧ unitPick s 0 0 (s.stair 0 0).vecLast 0x02 = some (9, 0) ∧
        (s.queue 0 0 9).strands[0]? = some t) ∧ kOp t.op = k := by decide +kernel
  exact fun k hk => ⟨⟨(h k hk).1.1, (h k hk).1.2.1, (h k hk).1.2.2.1, (h k hk).1.2.2.2⟩, (h k hk).2⟩

theorem witness_StairwellFrame : Instr.smMax 0 0 ∈ [Instr.smMax 0 0, .smExp 0 0] ∧
    ∃ a, Instr.splitPartialAdd 0 0 7 = .splitPartialAdd 0 0 a := ⟨by simp, 7, rfl⟩

/-- A landing of layer 0 with a queue, all banks LANDING. -/
def onLanding (l : List LandItem) : State :=
  { run id with landings := [(0, { bank0 := .landing, bank1 := .landing, bank2 := .landing, bank3 := .landing, kvfmt := 7, queue := l })] }

/-- A landing command on block 1032, with rows of 16 elements in key/value format 7. -/
def landCmdT : Nat → Rec64
  | 0x01 => recT [(0, 0, 8, 1), (0, 20, 5, 1), (0, 25, 5, 1), (4, 0, 28, 1032 * 65536), (0x14, 0, 16, 32), (0x18, 0, 12, 1), (0x18, 12, 9, 16)]
  | 0x02 => recT [(0, 0, 8, 2), (0, 20, 5, 1), (0, 25, 5, 1), (8, 0, 28, 1032 * 65536), (0x14, 16, 16, 32), (0x18, 0, 12, 1), (0x18, 12, 9, 16)]
  | 0x03 => recT [(0, 0, 8, 3), (0, 20, 5, 1), (0, 25, 5, 1), (4, 0, 28, 1032 * 65536), (8, 0, 28, 1032 * 65536), (0x14, 0, 16, 32),
      (0x14, 16, 16, 32), (0x18, 0, 12, 1), (0x18, 12, 9, 16)]
  | 0x04 => recT [(0, 0, 8, 4), (0, 20, 5, 1)]
  | 0x05 => recT [(0, 0, 8, 5), (0, 20, 5, 1), (0x18, 12, 9, 16)]
  | 0x08 => recT [(0, 0, 8, 8), (0x0C, 0, 28, 1032 * 65536), (0x24, 0, 25, 256)]
  | 0x09 => recT [(0, 0, 8, 9), (4, 0, 28, 1032 * 65536), (0x0C, 0, 28, 1032 * 65536 + 256), (0x24, 0, 25, 256)]
  | 0x0A => recT [(0, 0, 8, 10), (4, 0, 28, 1032 * 65536), (0x0C, 0, 28, 1032 * 65536 + 256), (0x10, 0, 28, 1032 * 65536 + 512),
      (0x24, 0, 25, 32), (0x2C, 0, 8, 5)]
  | _ => recT [(0, 0, 8, 11), (4, 0, 28, 1032 * 65536), (0x0C, 0, 28, 1032 * 65536 + 256), (0x10, 0, 28, 1032 * 65536 + 512),
      (0x24, 0, 25, 32), (0x2C, 0, 8, 5)]

theorem witness_LandingCommandsRun :
    (∀ op ∈ [0x01, 0x02, 0x03, 0x04, 0x05, 0x08, 0x09, 0x0A, 0x0B],
      LandReady (onLanding [.cmd (landCmdT op) 7 true]) 0 0 0 (landCmdT op) 7 ∧ lOp (landCmdT op) = op) ∧
    (let s := onLanding [.cmd (landCmdT 0x08) 7 false]
     s.colServed 0 0 = true ∧ (s.landing 0 0 0).failed = false ∧
      landStatus s 0 0 0 (landCmdT 0x08) 7 false = some Status.badRange ∧ lOp (landCmdT 0x08) = 0x08) := by
  have h : ∀ op ∈ [0x01, 0x02, 0x03, 0x04, 0x05, 0x08, 0x09, 0x0A, 0x0B],
      let s := onLanding [.cmd (landCmdT op) 7 true]
      (s.landing 0 0 0).queue = [.cmd (landCmdT op) 7 true] ∧ s.colServed 0 0 = true ∧ (s.landing 0 0 0).failed = false ∧
        landStatus s 0 0 0 (landCmdT op) 7 true = none ∧ lOp (landCmdT op) = op := by decide +kernel
  refine ⟨fun op ho => ⟨⟨⟨[], (h op ho).1⟩, (h op ho).2.1, (h op ho).2.2.1, (h op ho).2.2.2.1, fun b _ => .inl ?_⟩,
    (h op ho).2.2.2.2⟩, by decide +kernel⟩
  match b with
  | 0 => rfl
  | 1 => rfl
  | 2 => rfl
  | b + 3 => rfl

theorem witness_LandingWindows :
    let s := onLanding []
    s.colServed 0 0 = true ∧ modeStatus (recT [(0, 8, 8, 7)]) = none ∧ (s.landing 0 0 0).retired = false ∧
    ((s.modLanding 0 0 0 fun x => { x with bank3 := .entering true }).landing 0 0 0).bank 3 = .entering true ∧
    (let c := (sget (s.landing 0 0 0).slots {} 0).fill 56 (List.replicate 8 5)
     56 + (List.replicate 8 (5 : Byte)).length ≤ 64 ∧ c.mask ≠ BitVec.allOnes 64) ∧
    ((sget (s.landing 0 0 0).slots {} 0).fill 0 (List.replicate 64 5)).mask = BitVec.allOnes 64 ∧
    windowRange 0x1000 0x80 = true ∧ windowRange 0x3FFF 1 = true ∧ (s.landing 0 0 0).buffered + 0x80 ≤ 16384 ∧
    ((onLanding [.win 0x2000 [1]]).landing 0 0 0).queue = [.win 0x2000 [1]] ∧
    (let u := onLanding [.cmd (landCmdT 0x08) 7 true]
     (∀ b ∈ landBanks (landCmdT 0x08) 7, (u.landing 0 0 0).bank b = .landing ∨ (u.landing 0 0 0).bank b = .leaving) ∧
      2 ∈ landBanks (landCmdT 0x08) 7 ∧ sget (u.landing 0 0 0).postponed 0 2 < 4) ∧
    (s.landing 0 0 0).queue = [] := by decide +kernel

/-- A plan image of one placement, of one FETCH, at byte 0 of host memory. -/
def imageT : BitVec 8192 :=
  [(0, 0, 32, 0x4E414C50), (4, 0, 16, 1), (0x0C, 0, 10, 8), (0x10, 0, 19, 512), (0x14, 0, 12, 16), (0x14, 12, 8, 7), (0x18, 0, 17, 256),
    (0x1C, 0, 12, 32), (0x20, 25, 7, 1), (0x4C, 0, 32, 1024), (0x50, 0, 32, 1), (0x64, 0, 32, 1088), (0x68, 0, 32, 1)].foldl
    (fun d f => d ||| put 8192 f.1 f.2.1 f.2.2.1 f.2.2.2) 0

/-- A FETCH of one row of 64 bytes. -/
def fetchT : Rec64 := recT [(0, 0, 8, 3), (8, 0, 18, 64), (0x10, 0, 28, 64), (0x14, 0, 13, 1), (0x18, 0, 17, 64)]

/-- A module with that image in host memory, and a PLAN_LOAD of it as claim 0. -/
def onImage : State :=
  let s := onClaim (recT [(0, 0, 8, 1)])
  { s with mem := memWriteAll [] .park (fun _ => false) 0 (leBytes 1024 imageT.toNat
      ++ leBytes 64 (recS [(8, 0, 32, 1), (0x10, 0, 22, 64)]).toNat ++ leBytes 64 fetchT.toNat) }

theorem witness_NearMemoryAccesses :
    (let t : Strand := { op := fetchT, idx := 0, state := .ready }
     let u : Strand := { op := fetchT ^^^ 7, idx := 0, state := .ready }
     (∀ p ∈ [(t, 0x03), (u, 0x04)], ∀ c ∈ [none, some 0],
      let s := onQueue 11 { strands := [p.1], col := c }
      s.swRuns 0 0 = true ∧ (s.queue 0 0 11).strands[0]? = some p.1 ∧ (s.queue 0 0 11).col = c ∧ s.colServed 0 0 = true ∧
        s.colRange 0 0 (fCol p.1.op) ((fRows p.1.op - 1) * fColStride p.1.op + fBytes p.1.op) = true ∧
        (s.queue 0 0 11).find (fun t => t.state == .ready && opKind t.op == p.2) = some 0 ∧
        (∀ w ∈ [false, true], s.colHeld 0 0 (fCol p.1.op) ((fRows p.1.op - 1) * fColStride p.1.op + fBytes p.1.op) w = false))) ∧
    (let s := run id
     s.colServed 0 1 = false ∧ s.colServed 0 0 = true ∧ s.colRange 0 0 (0x9999600 - 8) 8 = true ∧
      (∀ w ∈ [false, true], s.colHeld 0 0 (0x9999600 - 8) 8 w = false) ∧
      (touchBanks s 0 0 (0x9999600 - 8) 8).poisonedAt (.column 0 0) (0x9999600 - 8) 8 = false ∧
      s.hallNet 0 = true ∧ s.running = true) ∧
    (({ run id with stairs := [(0, { assigned := true, layBusy := true })] } : State).stair 0 0).layBusy = true ∧
    (let s := { run id with stairs := [(0, { assigned := true, lastScrub := some 0 })], now := 200 }
     scrubReady s 0 0 = true ∧ (s.stair 0 0).scrubAddr + 256 < columnEnd ∧ (s.stair 0 0).lastScrub.isSome = true ∧
      s.poisonedAt (.column 0 0) (s.stair 0 0).scrubAddr 256 = false) ∧
    (let s := { (run id).modHost fun d => { d with pscrubLast := [(11, 0)] } with now := 100 }
     s.porter.host.pscrubEn = true ∧ sfind s.porter.host.pscrubLast 11 = some 0 ∧ 0 + 100 ≤ s.now ∧
      sget s.porter.host.pscrubAt 0 11 + 1 < parkLapUnits) := by decide +kernel

theorem witness_VestibuleAccessesAndMaintenance :
    (let s := run id
     s.hallNet 0 = true ∧ s.running = true ∧ tierRange s .park (s.deviceShare - 8) 8 = true ∧ tierRange s .far 0 1 = false ∧
      (s.hall 0).regs.vestBusy = false ∧ inMaint (s.hall 0).regs 6 = true) ∧
    (let s := (run id).modHost fun d => { d with portbCxl := true, fardecSize := [(7, 0x80000001)] }
     tierRange s .far (2 ^ 30 - 8) 8 = true) ∧
    (run fun x => { x with regs := { vestBusy := true } }).running = true ∧
    ((run fun x => { x with regs := { vestBusy := true } }).hall 0).regs.vestBusy = true ∧
    (let s := { run id with halls := [(0, hallT), (1, { hallT with vest := [(vestKey .park 3, { dirty := true })] })] }
     (1 : HallId) ≠ 0 ∧ sfind (s.hall 1).vest (vestKey .park 3) = some { dirty := true }) := by decide +kernel

/-- A MOVE of `n` bytes between two host addresses. -/
def moveT (n : Nat) : Rec32 := recS [(0, 0, 8, 1), (4, 0, 25, n), (0x10, 0, 48, 4096)]

/-- Claim 0 a DMA descriptor, and channel 23 as given. -/
def onChan (d : Rec64) (x : Chan) : State :=
  { (run fun y => { y with chans := [(23, x)], regs := { chSel := 23 } }) with
      claims := [(0, { hall := 0, sq := 0, sqHead := 1, desc := d })], nextClaim := 1 }

theorem witness_DmaTransfersStartAndStop :
    (let d := recT [(0, 0, 8, 0x40), (8, 0, 5, 23), (0x14, 0, 13, 1)]
     let e := d ||| put 512 0x20 0 256 (moveT 8).toNat
     let m := recT [(0, 0, 8, 0x40), (8, 0, 5, 23), (0x20, 0, 256, (moveT 8).toNat)]
     let s := (onChan d { en := true }).write .park 0 [0x0F] false
     s.claim? 0 = some { hall := 0, sq := 0, sqHead := 1, desc := d } ∧ s.hallUp 0 = true ∧ descOpcode d = 0x40 ∧ fld d 8 0 5 = 23 ∧
      startStatus s { en := true } d = none ∧
      programFail (tab (startCount d) fun i => s.record32 .park (startAddr d + 32 * i)) = none ∧
      startStatus s {} d = some Status.dmaMode ∧ startStatus s { en := true } e = some Status.dmaMode ∧
      descOpcode m = 0x40 ∧ startStatus (onChan m { en := true, mode := true }) { en := true, mode := true } m = none ∧
      olderWaits (onChan m { en := true, mode := true }) 0 23 0 = false ∧
      (loadSet { en := true, mode := true } (startMove m) 0).isSome = true ∧
      (let x : Chan := { en := true, mode := true, state := .running, setA := some (0, 0), setB := some (0, 0) }
       startStatus (onChan m x) x m = none ∧ loadSet x (startMove m) 0 = none)) ∧
    (∀ x ∈ [({} : Chan), { state := .running }, { state := .stopping, stop := some { status := 1, other := 1 } }],
      let d := recT [(0, 0, 8, 0x41), (8, 0, 5, 23)]
      let s := onChan d x
      s.claim? 0 = some { hall := 0, sq := 0, sqHead := 1, desc := d } ∧ s.hallUp 0 = true ∧ s.chan 0 23 = x ∧
        descOpcode d = 0x41 ∧ zeroFrom d 8 5 = true ∧ fld d 8 0 5 = 23) ∧
    (let s := onChan 0 {}
     let u := onChan 0 { state := .running }
     s.hallNet 0 = true ∧ s.running = true ∧ (s.hall 0).regs.chSel = 23 ∧ (s.chan 0 23).state = .idle ∧
      (u.chan 0 23).state ≠ .idle ∧ bitAt (1 : Word) 0 ≠ (u.chan 0 23).mode) := by decide +kernel

theorem witness_DmaInstructionsRun :
    (∀ p ∈ [(moveT 8, 0x01), (recS [(0, 0, 8, 2), (4, 0, 16, 1), (8, 0, 12, 1)], 0x02), (recS [(0, 0, 8, 3), (0, 8, 1, 1)], 0x03),
        (recS [(0, 0, 8, 3), (4, 0, 8, 0x12)], 0x03), (recS [(0, 0, 8, 4), (4, 0, 8, 0x10)], 0x04), (recS [(0, 0, 8, 0x0F)], 0x0F)],
      ∀ w ∈ [[], [{ space := 0, addr := 0, len := 8, claim := none }]],
      let s := onChan 0 { state := .running, prog := [0, p.1], pc := 1, wrote := w }
      let x := s.chan 0 23
      s.hallUp 0 = true ∧ x.instr = some p.1 ∧ x.state = .running ∧ x.move = none ∧ x.mode = false ∧ iCode p.1 = p.2 ∧
        x.presents = true ∧ chanUnanswered s 0 23 = !w.isEmpty) ∧
    (let s := onChan 0 {}
     (moveCheck s 0 (moveT 8) (mvSrc (moveT 8)) (mvDst (moveT 8)) (mvLen (moveT 8))).1 = .ok ∧
      (let d := moveT 8 ||| put 256 8 32 16 0xFFFF
       match moveCheck s 0 d (mvSrc d) (mvDst d) (mvLen d) with | (.bad _, _, _) => true | _ => false) = true) ∧
    (let d := recS [(0, 0, 8, 2), (4, 0, 16, 1), (8, 0, 12, 1)]
     sget (({ loops := [] } : Chan).loops) 0 1 < lpCount d ∧ lpCount d ≤ sget (({ loops := [(1, 1)] } : Chan).loops) 0 1) ∧
    (let s := onChan 0 {}
     ∃ l k : Nat, wtLineKind (recS [(0, 0, 8, 3), (0, 8, 1, 1), (0, 16, 6, l)]) = true ∧
      wtLineKind (recS [(0, 0, 8, 3), (0, 8, 1, 1), (0, 16, 6, k)]) = true ∧
      lineHolds s 0 (s.chan 0 23) (wtLine (recS [(0, 0, 8, 3), (0, 8, 1, 1), (0, 16, 6, l)])) = true ∧
      lineHolds s 0 (s.chan 0 23) (wtLine (recS [(0, 0, 8, 3), (0, 8, 1, 1), (0, 16, 6, k)])) = false) ∧
    wtLineKind (recS [(0, 0, 8, 3), (4, 0, 8, 0x12)]) = false ∧
    (let s := onChan 0 { mode := true, state := .running, setA := some (moveT 8, 0) }
     let x := s.chan 0 23
     x.mode = true ∧ x.state = .running ∧ x.move = none ∧ x.presents = true ∧ x.nextB = false ∧ x.setA = some (moveT 8, 0) ∧
      (moveCheck s 0 (moveT 8) (mvSrc (moveT 8)) (mvDst (moveT 8)) (mvLen (moveT 8))).1 = .ok) ∧
    (∀ hi ∈ [false, true],
     let r : MoveRun := { instr := moveT 4096, issued := 2048 }
     let s := onChan 0 { state := .running, prio := hi, move := some r }
     let d := r.instr
     burstPick s 0 = some 23 ∧ (s.chan 0 23).move = some r ∧ mvSrcSpace d ≠ 4 ∧ mvDstSpace d ≠ 4 ∧
      (moveCheck (s.modHall 0 fun y => if hi then { y with dmaLastHi := 23 } else { y with dmaLast := 23 }) 0 d (mvSrc d + r.issued)
        (mvDst d + r.issued) (burstLen s 0 r)).1 = .ok) ∧
    (let r : MoveRun := { instr := moveT 8, issued := 8 }
     let s := onChan 0 { mode := true, state := .running, tailMv := some r }
     (s.chan 0 23).mode = true ∧ (s.chan 0 23).tailMv = some r ∧ txBytes s 0 (fun q => q.ch == some 23 && q.claim == r.claim) = 0) := by
  refine ⟨by decide +kernel, by decide +kernel, by decide +kernel, ⟨0, 16, by decide +kernel⟩, by decide +kernel, by decide +kernel,
    by decide +kernel, by decide +kernel⟩

theorem witness_PlansAreLoadedAndUnloaded :
    (∃ k, Begins onImage 0 0x01 k ∧ anySet k.desc [(0x0C, 8, 24), (0x10, 0, 384)] = false ∧
      planCheck onImage (fld k.desc 8 0 40) = none) ∧
    (∃ k, Begins (onClaim (recT [(0, 0, 8, 1), (0x3F, 0, 8, 1)])) 0 0x01 k ∧ anySet k.desc [(0x0C, 8, 24), (0x10, 0, 384)] = true) ∧
    (∃ k, Begins (onClaim (recT [(0, 0, 8, 1)])) 0 0x01 k ∧
      planCheck (onClaim (recT [(0, 0, 8, 1)])) (fld k.desc 8 0 40) = some { status := Status.badEncoding }) ∧
    (let s := onClaim (recT [(0, 0, 8, 2), (8, 0, 16, 1)])
     let u := { s with plans := [(1, {})] }
     ∃ k, Begins s 0 0x02 k ∧ anySet k.desc [(8, 16, 16), (0x0C, 0, 416)] = false ∧ sfind s.plans (fld k.desc 8 0 16) = none ∧
      Begins u 0 0x02 k ∧ sfind u.plans (fld k.desc 8 0 16) = some {} ∧
      (u.vols.any fun v => v.2.plan == fld k.desc 8 0 16 && v.2.state != .free) = false ∧
      (({ u with vols := [(4, { plan := 1, state := .live })] } : State).vols.any
        fun v => v.2.plan == fld k.desc 8 0 16 && v.2.state != .free) = true) :=
  ⟨⟨_, ⟨rfl, .inl rfl, by decide +kernel⟩, by decide +kernel⟩, ⟨_, ⟨rfl, .inl rfl, by decide +kernel⟩, by decide +kernel⟩,
    ⟨_, ⟨rfl, .inl rfl, by decide +kernel⟩, by decide +kernel⟩,
    ⟨_, ⟨rfl, .inl rfl, by decide +kernel⟩, by decide +kernel, by decide +kernel, ⟨rfl, .inl rfl, by decide +kernel⟩,
      by decide +kernel⟩⟩

/-- A plan with attention on one lane. -/
def planT : Plan :=
  { layers := 8, span := 512, tpl := 16, kvfmt := 7, kvbytes := 4096, rowelems := 32, kvheads := 1, g := 1, d := 32, rows := 1,
    lanes := 1, head := true, scale := 0x3F800000, voff := 2048, stride := 64, claspCount := 4,
    placements := [{ hall := 0, sw := 0, queue := 0, lane := 0, first := 0, count := 1, lo := 0, hi := 65536, colOps := 0 }],
    boards := [{ hall := 0, sw := 0, base := 0 }] }

/-- Claim 0 a descriptor of volume 0, which runs plan 1. -/
def onVol (d : Rec64) (x : Vol) : State :=
  { onClaim d with plans := [(1, planT)], vols := [(0, { x with plan := 1, root := 32768 })] }

/-- The hypotheses of `VolReady`, by evaluation. -/
theorem ready_onVol (d : Rec64) (x : Vol) (op : Nat) (bad : State → Rec64 → Option Nat)
    (h : descOpcode d = op ∧ bad (onVol d x) d = none ∧
      volGate (onVol d x) 0 { hall := 0, sq := 0, sqHead := 1, desc := d } (descVol d)
        (((onVol d x).vol (descVol d)).home == 0) (op == 0x11) = .go ∧ spinePoisoned (onVol d x) (descVol d) = false) :
    VolReady (onVol d x) 0 op { hall := 0, sq := 0, sqHead := 1, desc := d } bad :=
  { held := rfl, stage := .inl rfl, code := h.1, body := h.2.1, gate := h.2.2.1, read := h.2.2.2 }

theorem witness_VolumesOpenAndAreQueried :
    (let d := recT [(0, 0, 8, 0x10), (0x0C, 0, 16, 1), (0x0C, 16, 12, 1)]
     let e := recT [(0, 0, 8, 0x10), (0x0C, 0, 16, 2), (0x0C, 16, 12, 1)]
     let z := recT [(0, 0, 8, 0x10), (0x0C, 0, 16, 1), (0x0C, 16, 12, 2)]
     (∀ n ∈ [0, 1, 2], let k := [d, e, z].getD n 0
      openBad (onVol k {}) k = none ∧ ((onVol k {}).vol (descVol k)).state = .free ∧ descOpcode k = 0x10 ∧
      volGate (onVol k {}) 0 { hall := 0, sq := 0, sqHead := 1, desc := k } (descVol k) (openHome (onVol k {}) 0 (descVol k)) false
        = .go) ∧
      openStatus (onVol e {}) e = some Status.noPlan ∧ openStatus (onVol d {}) d = none ∧ openStatus (onVol z {}) z = none ∧
      (match openVolume (onVol d {}) 0 (descVol d) d with | .ok _ => true | .error _ => false) = true ∧
      (match openVolume (onVol z {}) 0 (descVol z) z with | .ok _ => false | .error _ => true) = true) ∧
    (let d := recT [(0, 0, 8, 0x12)]
     let s := onVol d { state := .live }
     let gate := fun (x : Vol) => volGate (onVol d x) 0 { hall := 0, sq := 0, sqHead := 1, desc := d } 0 (x.home == 0) true
     descOpcode d = 0x12 ∧ s.hallUp 0 = true ∧ queryBad s d = none ∧ gate { state := .live } = .go ∧
      gate { state := .running } = .wait ∧ gate { home := 1 } = .fail Status.wrongHome) ∧
    (let d := recT [(0, 0, 8, 0x1A), (8, 0, 9, 256)]
     descOpcode d = 0x1A ∧ (onVol d {}).hallUp 0 = true ∧ hintBad (onVol d {}) d = none) := by decide +kernel

/-- Claim 0 of such a descriptor. -/
def claimT (d : Rec64) : Claim := { hall := 0, sq := 0, sqHead := 1, desc := d }

/-- What `VolReady` asks of claim 0, in a form that evaluates. -/
def volReadyB (s : State) (d : Rec64) (op : Nat) (bad : State → Rec64 → Option Nat) : Bool :=
  s.claim? 0 == some (claimT d) && descOpcode d == op && bad s d == none
    && volGate s 0 (claimT d) (descVol d) ((s.vol (descVol d)).home == 0) (op == 0x11) == .go
    && !spinePoisoned s (descVol d)

theorem volReadyB_ready {s : State} {d : Rec64} {op : Nat} {bad : State → Rec64 → Option Nat} (h : volReadyB s d op bad = true) :
    VolReady s 0 op (claimT d) bad := by
  simp only [volReadyB, Bool.and_eq_true, beq_iff_eq, Bool.not_eq_true'] at h
  obtain ⟨⟨⟨⟨a, b⟩, c⟩, e⟩, f⟩ := h
  exact { held := a, stage := .inl rfl, code := b, body := c, gate := e, read := f }

/-- A volume's descriptor with nothing in its body. -/
def volT (op : Nat) : Rec64 := recT [(0, 0, 8, op)]

/-- Volume 0 in a state, one leaf of a tier in its spine, claim 0 its descriptor `d`. -/
def onLeaf (d : Rec64) (x : Vol) (tier loc : Nat) : State :=
  { onVol d x with leaves := [(0, leafEntry tier false false loc 0 16)] }

theorem witness_VolumesMoveBetweenTheirStates :
    (∀ st ∈ [VolState.live, .parked, .shelved, .faulted, .free], volReadyB (onVol (volT 0x11) { state := st }) (volT 0x11) 0x11 plainBad = true ∧
      ((onVol (volT 0x11) { state := st }).job 0).poisoned = false) ∧
    (∀ st ∈ [VolState.live, .parked], volReadyB (onVol (volT 0x13) { state := st }) (volT 0x13) 0x13 plainBad = true) ∧
    (match sealVolume (onVol (volT 0x13) { state := .live }) 0 with | .ok _ => true | .error _ => false) = true ∧
    (∀ n ∈ [0, 1, 2], let x := [({ linked := true } : Vol), { window := 512 }, { fm := true }].getD n {}
      volReadyB (onVol (volT 0x13) { x with state := .live }) (volT 0x13) 0x13 plainBad = true) ∧
    (∀ st ∈ [VolState.live, .parked], volReadyB (onVol (volT 0x14) { state := st }) (volT 0x14) 0x14 plainBad = true) ∧
    (let s := (onVol (volT 0x14) { state := .live }).modJob 0 fun j => { j with wb := some ⟨0, 0, [], none, false⟩ }
     volReadyB s (volT 0x14) 0x14 plainBad = true ∧ (s.job 0).wb.isSome = true) ∧
    (∀ st ∈ [VolState.live, .parked], volReadyB (onVol (volT 0x15) { state := st }) (volT 0x15) 0x15 parkBad = true) ∧
    (let x : Vol := { state := .live, fm := true, liveLinks := 1 }
     volReadyB (onVol (volT 0x15) x) (volT 0x15) 0x15 parkBad = true ∧ fld (volT 0x15) 8 20 1 = 0) ∧
    (∀ st ∈ [VolState.live, .parked], volReadyB (onVol (volT 0x16) { state := st }) (volT 0x16) 0x16 plainBad = true) ∧
    (let s := onLeaf (volT 0x16) { state := .parked } 1 0
     volReadyB s (volT 0x16) 0x16 plainBad = true ∧ (s.spine 0).length = 1 ∧
      (reserveFar (farGranules (s.planOf 0) 0) [0] [] s).isSome = false ∧
      (reserveFar (farGranules (s.planOf 0) 0) [0] [] (s.modHost fun d => { d with farSize := 1 })).isSome = true) := by
  decide +kernel

theorem witness_VolumesResumeRecoverAndMoveHome :
    (let d := recT [(0, 0, 8, 0x17), (0x0C, 0, 12, 1)]
     (∀ st ∈ [VolState.live, .parked, .shelved], volReadyB (onVol d { state := st }) d 0x17 resumeBad = true) ∧
     (let s := { onVol d { state := .parked } with plans := [] }
      volReadyB s d 0x17 resumeBad = true ∧ sfind s.plans (s.vol 0).plan = none) ∧
     (∀ n ∈ [0, 1], let s := onVol d { state := .parked, pfv := n }
      volReadyB s d 0x17 resumeBad = true ∧ (sfind s.plans (s.vol 0).plan).isSome = true ∧ n ≤ pfvKnown s.fwMajor ∧
      (match resumeVolume s 0 1 0 with | .ok _ => true | .error _ => false) = true) ∧
     (let s := onVol (d ||| put 512 0x0C 1 1 1) { state := .parked, pfv := 1 }
      volReadyB s (d ||| put 512 0x0C 1 1 1) 0x17 resumeBad = true ∧
      (match resumeVolume (onVol d { state := .parked }) 0 2 0 with | .ok _ => true | .error _ => false) = false)) ∧
    (∀ st ∈ [VolState.live, .faulted], volReadyB (onVol (volT 0x18) { state := st }) (volT 0x18) 0x18 plainBad = true) ∧
    (let s := onVol (volT 0x19) { state := .live }
     let u := { onVol (volT 0x19) { state := .live, home := 1 } with halls := [(0, hallT), (1, { hallT with state := .fenced })] }
     s.claim? 0 = some (claimT (volT 0x19)) ∧ u.claim? 0 = some (claimT (volT 0x19)) ∧ descOpcode (volT 0x19) = 0x19 ∧
      s.hallUp 0 = true ∧ u.hallUp 0 = true ∧ plainBad s (volT 0x19) = none ∧ (s.job 0).poisoned = false ∧
      ((onVol (volT 0x19) {}).vol 0).state = .free ∧ (s.vol 0).state ≠ .free ∧ s.hallFenced (s.vol 0).home = false ∧
      (u.vol 0).state ≠ .free ∧ u.hallFenced (u.vol 0).home = true ∧ volLocked u 0 = false ∧ heldEntries u 0 < 16384) := by
  decide +kernel

theorem witness_TierMovementsFinish :
    (let s := onVol 0 { state := .live }
     (s.job 0).wb = none ∧ (s.job 0).parkClaim = none ∧ (s.job 0).staging = none ∧ (s.job 0).shelve = none ∧
      volRuns s 0 = true ∧ spinePoisoned s 0 = false) ∧
    (∀ p ∈ [(none, false), (some 0, false), (some 0, true)],
      let w : WriteBack := { cut := 0, steps := 0, copied := [(0, 0)], claim := p.1, park := p.2 }
      let s := (onLeaf 0 { state := .live } 0 0).modJob 0 fun j => { j with wb := some w }
      (s.job 0).wb = some w ∧ volRuns s 0 = true ∧ spinePoisoned s 0 = false ∧
        (w.copied.all fun q => leafReady s 0 q.1) = true) ∧
    (let s := (onLeaf 0 { state := .parking } 0 0).modJob 0 fun j => { j with parkClaim := some 0 }
     (s.job 0).parkClaim = some 0 ∧ (s.vol 0).state = .parking ∧ (s.job 0).wb = none ∧ volRuns s 0 = true ∧
      spinePoisoned s 0 = false) ∧
    (let g : Staging := { todo := [(0, { hall := 0, sw := 0, slot := 5, park := 0 })], elig := [], staged := 0, claim := some 0 }
     let s := fun n => (onLeaf 0 { state := .resuming } n 3).modJob 0 fun j => { j with staging := some g }
     ∀ n ∈ [1, 2], ((s n).job 0).staging = some g ∧ ((s n).vol 0).state = .resuming ∧ volRuns (s n) 0 = true ∧
      spinePoisoned (s n) 0 = false ∧
      g.todo.find? (fun q => q.1 == 0) = some (0, { hall := 0, sw := 0, slot := 5, park := 0 }) ∧
      leV ((s n).leaf 0 0) = true ∧ leTier ((s n).leaf 0 0) = n ∧ slotReady (s n) 0 0 5 true = true ∧ g.claim = some 0 ∧
      g.elig = []) ∧
    (let s := ((onLeaf 0 { state := .shelving } 1 0).modJob 0 fun j => { j with shelve := some (0, [0], [(0, 0)]) }).modHost
       fun d => { d with portbCxl := true }
     (s.job 0).shelve = some (0, [0], [(0, 0)]) ∧ 0 ∈ [0] ∧ s.porter.host.portbCxl = true ∧ volRuns s 0 = true ∧
      spinePoisoned s 0 = false ∧ ((s.spine 0).filter fun q => shelves q.2 && q.1 / 512 == 0).length = 1) := by
  decide +kernel

/-- A step of volume 0 in some phase, of lane 0 and claim 0. -/
def stepT (ph : StepPhase) : Step :=
  { newStep (run id) 0 (claimT (recT [(0x0C, 0, 7, 1)])) .decode [] with phase := ph }

/-- A module in which it is step 0, its volume RUNNING. -/
def onStep (x : Step) : State := { onVol (volT 0x23) { state := .running } with steps := [(0, x)], nextStep := 1 }

/-- What `StepFits` asks beside `VolReady`, in a form that evaluates. -/
def stepFitsB (s : State) (d : Rec64) (op : StepOp) : Bool :=
  (s.vol (descVol d)).state == .live && !(s.vol (descVol d)).fm && decide ((s.vol (descVol d)).dirty < 64)
    && (op != .verify || (s.planOf (descVol d)).head)
    && (inputStatus op (tab (sdRows d) fun r => inputRec s d r)).isNone && !placeBad s (descVol d) (sdRows d)
    && (fencedUnit s (s.planOf (descVol d))).isNone

theorem stepFitsB_fits {s : State} {d : Rec64} {code : Nat} {op : StepOp} (r : volReadyB s d code (stepBad op) = true)
    (h : stepFitsB s d op = true) : StepFits s 0 code (claimT d) op := by
  simp only [stepFitsB, Bool.and_eq_true, beq_iff_eq, Bool.not_eq_true', decide_eq_true_eq, Bool.or_eq_true, bne_iff_ne,
    Option.isNone_iff_eq_none] at h
  obtain ⟨⟨⟨⟨⟨⟨a, b⟩, c⟩, e⟩, f⟩, g⟩, i⟩ := h
  exact { toVolReady := volReadyB_ready r, live := a, own := b, kept := c, head := fun o => e.resolve_left fun n => n o,
          input := f, place := g, units := i }

/-- A step descriptor of one row. -/
def stepDescT (code : Nat) : Rec64 := recT [(0, 0, 8, code), (0x0C, 0, 7, 1)]

theorem witness_StepsMayBeClaimed :
    ∀ p ∈ [(StepOp.decode, 0x20), (.verify, 0x21), (.prefill, 0x22)],
      StepFits (onVol (stepDescT p.2) { state := .live }) 0 p.2 (claimT (stepDescT p.2)) p.1 := by
  have h : ∀ p ∈ [(StepOp.decode, 0x20), (.verify, 0x21), (.prefill, 0x22)],
      volReadyB (onVol (stepDescT p.2) { state := .live }) (stepDescT p.2) p.2 (stepBad p.1) = true ∧
        stepFitsB (onVol (stepDescT p.2) { state := .live }) (stepDescT p.2) p.1 = true := by decide +kernel
  exact fun p hp => stepFitsB_fits (h p hp).1 (h p hp).2

theorem witness_StepsAreClaimedWalkedAndEnded :
    (∀ p ∈ [(StepOp.decode, 0x20), (.verify, 0x21), (.prefill, 0x22)],
      let d := stepDescT p.2
      let s := onVol d { state := .live }
      volReadyB (onVol d { state := .parked }) d p.2 (stepBad p.1) = true ∧
      volReadyB (onVol d { state := .live, fm := true }) d p.2 (stepBad p.1) = true ∧
      volReadyB (onVol d { state := .live, dirty := 64 }) d p.2 (stepBad p.1) = true ∧
      (let u := s.write .park 4 [64] false
       volReadyB u d p.2 (stepBad p.1) = true ∧ (u.vol 0).state = .live ∧ (u.vol 0).fm = false ∧ (u.vol 0).dirty < 64 ∧
        (u.planOf 0).head = true ∧ inputStatus p.1 (tab (sdRows d) fun r => inputRec u d r) = some Status.badReserved) ∧
      (let u := { s with stairs := [] }
       volReadyB u d p.2 (stepBad p.1) = true ∧ inputStatus p.1 (tab (sdRows d) fun r => inputRec u d r) = none ∧
        placeBad u 0 (sdRows d) = false ∧ fencedUnit u (u.planOf 0) = some (0, 0, false))) ∧
    (∀ v ∈ [0, (lockTaken 0 5).toNat],
      let s := { onStep (stepT .lane) with clasps := [(0, { typ := .lock, val := BitVec.ofNat 32 v })] }
      let k := laneClasp (s.planOf 0) 0 0
      s.step? 0 = some (stepT .lane) ∧ s.hallUp (stepT .lane).home = true ∧ (s.hall (claspHome k)).state = .enabled ∧
        claspLocked s (BitVec.ofNat 16 k) = false ∧
        (match cellOp (s.clasp k) (stepT .lane).home 0x30 (BitVec.ofNat 32 (usherOwner (stepT .lane).usher)) true with
        | .ok _ => v == 0
        | r => v != 0 && r == .fail Status.lockBusy) = true) ∧
    (∀ ph ∈ [StepPhase.run, .claim], let x := { stepT ph with deadline := some 0 }
     (onStep x).step? 0 = some x ∧ (onStep x).hallUp x.home = true ∧ x.phase = ph ∧ 0 ≤ (onStep x).now) ∧
    (let s := { onStep (stepT .run) with vols := [(0, { state := .running, plan := 1, root := 32768, linked := true, fmLink := 5 }), (5, { fm := true })],
                                         leaves := [(0, leafEntry 3 false false 7 0 16)] }
     s.step? 0 = some (stepT .run) ∧ s.hallUp (stepT .run).home = true ∧ (stepT .run).phase ≠ .lane ∧ (stepT .run).pinsDone = false ∧
      (s.vol 0).linked = true ∧ volRuns s 5 = true ∧ sharedRead s 0 ≠ [] ∧
      ((sharedRead s 0).any fun i => 65535 ≤ (s.ref 5 i).pin) = false ∧
      sfind ({ s with unpins := [(0, 5, [7])] } : State).unpins 0 = some (5, [7])) ∧
    (let i : WorkItem :=
      { kind := .gather, step := 0, lane := 0, press := false, epoch := 0, vol := 0, layer := 0, index := 0, shared := false, slot := 0,
        owner := 0, bhall := 0, bsw := 0, rowFrom := 0, rowTo := 0, newCount := 0, newBase := 0, nextSw := 0, nextHall := 0,
        nextBoard := false, inCount := 0, localN := 0, halls := 0, newRow := 0 }
     let x := { stepT .run with todo := [(0, 0, i)] }
     let s := onStep x
     s.step? 0 = some x ∧ s.hallUp x.home = true ∧ x.phase = .run ∧ x.backs = [] ∧ x.lost = false ∧ volLocked s 0 = false ∧
      pinsReady s x = true ∧ s.swRuns 0 0 = true ∧ (s.stair 0 0).items.length < 64) ∧
    (∀ ph ∈ [StepPhase.run, .commit],
      let s := onStep (stepT ph)
      Begins s 0 0x23 (claimT (volT 0x23)) ∧ s.hallUp 0 = true ∧ zeroFrom (volT 0x23) 8 26 = true ∧ (s.vol 0).state = .running ∧
        sdLane (volT 0x23) < (s.planOf 0).lanes ∧ (s.vol 0).home = 0 ∧ (s.job 0).poisoned = false ∧
        (s.claims.find? fun p => [0x20, 0x21, 0x22].contains (descOpcode p.2.desc) && p.2.stage == .waiting
          && descVol p.2.desc == 0 && sdLane p.2.desc == sdLane (volT 0x23)) = none ∧
        (s.steps.find? fun p => p.2.vol.toNat == 0 && p.2.lane == sdLane (volT 0x23)) = some (0, stepT ph) ∧
        (stepT ph).endable = (ph == .run)) := by
  refine ⟨by decide +kernel, by decide +kernel, by decide +kernel, by decide +kernel, by decide +kernel, fun ph h => ?_⟩
  refine ⟨⟨rfl, .inl rfl, by decide +kernel⟩, ?_⟩
  revert ph
  decide +kernel

/-- A leaf-work item of step 0. -/
def itemT (k : WorkKind) (press : Bool) (n : Nat) : WorkItem :=
  { kind := k, step := 0, lane := 0, press := press, epoch := 0, vol := 0, layer := 0, index := 0, shared := false, slot := 5,
    owner := 0, bhall := 0, bsw := 0, rowFrom := 0, rowTo := 0, newCount := n, newBase := 0, nextSw := 0, nextHall := 0,
    nextBoard := true, inCount := 2, localN := 1, halls := 1, newRow := 0 }

/-- Step 0 in its run with a new block, and that item at stairwell 0. -/
def workT : Step := { stepT .run with sentTo := 1, blocks := [{ layer := 0, idx := 0, res := { hall := 0, sw := 0, slot := 5, park := 0 } }] }

/-- The rows that its board has sent there. -/
def rowsT : StepRows := boardRowsOf (onStep workT) 0 workT ⟨0, 0, 0⟩ 0

def onItem (i : WorkItem) : State := { onStep workT with stairs := [(0, { assigned := true, items := [i], rows := [rowsT] })] }

/-- What `ItemTaken` asks of the item of `onItem`. -/
theorem item_taken (sel : State → List WorkItem → WorkItem → Bool) (i : WorkItem)
    (h : (onItem i).swRuns 0 0 = true ∧
      ((dropStale (onItem i) 0 0).stair 0 0).items.findIdx? (sel (dropStale (onItem i) 0 0) ((dropStale (onItem i) 0 0).stair 0 0).items) = some 0 ∧
      ((dropStale (onItem i) 0 0).stair 0 0).items[0]? = some i ∧ (dropStale (onItem i) 0 0).step? i.step = some workT ∧
      boardOf (dropStale (onItem i) 0 0) workT = some { hall := 0, sw := 0, base := 0 }) :
    ItemTaken (onItem i) 0 0 sel 0 i workT { hall := 0, sw := 0, base := 0 } :=
  { runs := h.1, first := h.2.1, item := h.2.2.1, step := h.2.2.2.1, board := h.2.2.2.2 }

theorem witness_LeafWorkIsTaken :
    ItemTaken (onItem (itemT .append false 1)) 0 0 (fun s _ i => i.kind == .append && (rowsFor s 0 0 i).isSome) 0 (itemT .append false 1) workT ⟨0, 0, 0⟩ ∧
    ItemTaken (onItem (itemT .attend true 0)) 0 0 (attendReady 0 0) 0 (itemT .attend true 0) workT ⟨0, 0, 0⟩ ∧
    ItemTaken (onItem (itemT .attend false 0)) 0 0 (attendReady 0 0) 0 (itemT .attend false 0) workT ⟨0, 0, 0⟩ ∧
    ItemTaken (onItem (itemT .move false 1)) 0 0 (fun s _ i => i.kind == .move && moveFirst s i) 0 (itemT .move false 1) workT ⟨0, 0, 0⟩ ∧
    ItemTaken (onItem (itemT .gather false 0)) 0 0 (fun _ _ i => i.kind == .gather) 0 (itemT .gather false 0) workT ⟨0, 0, 0⟩ :=
  ⟨item_taken _ _ (by decide +kernel), item_taken _ _ (by decide +kernel), item_taken _ _ (by decide +kernel),
    item_taken _ _ (by decide +kernel), item_taken _ _ (by decide +kernel)⟩

theorem witness_LeafWorkRuns :
    (let i := itemT .append false 1
     let u := itemGone (onItem i) 0 0 0
     let p := u.planOf 0
     rowsFor u 0 0 i = some rowsT ∧
      ((List.range i.newCount).any fun j => u.colHeld 0 i.owner (keyAt p i.slot (i.rowTo + j)) p.rowLen true
        || u.colHeld 0 i.owner (valueAt p i.slot (i.rowTo + j)) p.rowLen true) = false ∧
      u.colServed 0 i.owner = true ∧ volLocked u 0 = false ∧
      ((List.range i.newCount).any fun j =>
        beatPoison (rowsT.keys.getD (i.newBase + j) []) || beatPoison (rowsT.values.getD (i.newBase + j) [])) = false ∧
      (rowsT.keys.getD i.newBase []).length = 1) ∧
    (let i := itemT .attend true 0
     let u := itemGone (onItem i) 0 0 0
     rowsFor u 0 0 i = some rowsT ∧
      (u.accSet 0 0 6).isOpen = false ∧ (u.accSet 0 0 7).isOpen = false ∧ u.colHeld 0 i.owner (i.slot * 65536) 65536 false = false ∧
      ((pressAttend u 0 i workT (u.planOf 0) rowsT).any fun q => q.poison) = false) ∧
    (let i := itemT .attend false 0
     let u := itemGone (onItem i) 0 0 0
     rowsFor u 0 0 i = some rowsT ∧
      landingServes u 0 i = true ∧ (u.landing 0 i.owner (i.slot % 12)).queue = [] ∧
      ((landAttend u 0 i workT (u.planOf 0) rowsT).2.any fun q => q.poison) = false) ∧
    (runMove (itemGone (onItem (itemT .move false 1)) 0 0 0) 0 (itemT .move false 1) workT).isSome = true := by
  decide +kernel

theorem witness_LeafWorkAndDecisions :
    (let x := { stepT .run with gathers := [(0, 2, 1)] }
     let s := { onStep x with halls := [(0, hallT), (1, hallT)], clasps := [(1, { typ := .flag, val := 1 })] }
     s.step? 0 = some x ∧ boardOf s x = some ⟨0, 0, 0⟩ ∧ s.swRuns 0 0 = true ∧
      x.gathers.find? (fun g => g.1 == x.sentTo) = some (0, 2, 1) ∧ x.phase = .run ∧ x.lost = false ∧ x.layersDone = x.sentTo ∧
      laneFlag s x 1 = true) ∧
    (∀ b ∈ [true, false],
      let m : PartMsg := { layer := 0, toBoard := b, hall := 0, sw := 0, fromHall := 0, row := 0, part := { m := 0, s := 0, o := [], poison := false } }
      let x := { workT with msgs := [m] }
      let s := onStep x
      s.step? 0 = some x ∧ boardOf s x = some ⟨0, 0, 0⟩ ∧ s.swRuns 0 0 = true ∧ x.msgs[0]? = some m ∧ m.layer = x.layersDone ∧
        m.layer < x.sentTo ∧ m.toBoard = b) ∧
    (let x := stepT .decide
     let s := onStep x
     s.step? 0 = some x ∧ boardOf s x = some ⟨0, 0, 0⟩ ∧ s.swRuns 0 0 = true ∧ s.hallUp x.home = true ∧ x.halt = none ∧
      x.poison = false ∧ runVoid s x = false ∧ volLocked s 0 = false ∧ x.movesLeft = 0 ∧ x.todo = []) ∧
    (let x := { stepT .run with lost := true }
     let s := onStep x
     s.step? 0 = some x ∧ boardOf s x = some ⟨0, 0, 0⟩ ∧ s.swRuns 0 0 = true ∧ s.hallUp x.home = true ∧ boardLost s ⟨0, 0, 0⟩ = none ∧
      (match recoverAll s x (laneRuns (s.planOf 0) x) [] with | .ok _ => true | .error _ => false) = true) ∧
    (let x := { stepT .run with halt := some (0, 0, 0, 1, 0) }
     (onStep x).step? 0 = some x ∧ boardOf (onStep x) x = some ⟨0, 0, 0⟩ ∧ (onStep x).hallUp x.home = true ∧ x.phase = .run ∧
      x.halt.isSome = true) ∧
    (let s := { onStep (stepT .run) with stairs := [(0, { assigned := true, fenced := true })] }
     s.step? 0 = some (stepT .run) ∧ boardOf s (stepT .run) = some ⟨0, 0, 0⟩ ∧ s.hallUp 0 = true ∧
      boardLost s ⟨0, 0, 0⟩ = some (0, 0, false)) ∧
    (let r : PartRow := { m := 0, s := 0, o := [], poison := false }
     let k : Hop := { layer := 0, hall := 0, sw := 0, rows := [(3, r)], localLeft := 0, ins := 0, nextBoard := true, nextHall := 0, nextSw := 0 }
     let x := { stepT .run with hops := [k] }
     (onStep x).step? 0 = some x ∧ (onStep x).swRuns 0 0 = true ∧ boardOf (onStep x) x = some ⟨0, 0, 0⟩ ∧
      (x.hops.find? fun k => k.hall == 0 && k.sw == 0 && k.ready.isSome) = some k ∧ k.ready = some (3, r)) :=
  ⟨by decide +kernel, by decide +kernel, by decide +kernel, by decide +kernel, by decide +kernel, by decide +kernel,
    by decide +kernel⟩

/-- Fabric command slot 0, of a module with an ID, for volume 0 in a state. -/
def onSlot (d : Rec64) (st : VolState) : State :=
  let s := (onVol 0 { state := st }).modFab fun f => { f with moduleId := 2 }
  (s.write .park (slotAddr s 0) (leBytes 64 d.toNat) false).write .park 0x1000 [3] false

/-- The same with a command under way. -/
def onCmd (c : FabCmd) (st : VolState) : State := (onSlot 0 st).setFabCmd 0 c

/-- A VOL_ACCEPT armed, and the preamble for it. -/
def armT : FabCmd := { kind := FabKind.accept, start := 0, local_ := 0, peerVol := 7, node := 0x20 }

def preT (layers leaves : Nat) : XferPreamble :=
  { srcVol := 7, dstVol := 0, srcNode := 0x20, layers := layers, span := 512, tpl := 16, kvfmt := 7, kvbytes := 4096, rowelems := 32,
    lead := 0, parkFmt := 0, window := 0, tokens := 16, ckpt := 16, pfv := 1, leaves := leaves }

theorem witness_FabricCommandsStart :
    (∀ code ∈ [2, 3], ∀ st ∈ [VolState.parked, .live, .running],
      let s := onSlot (recT [(0, 0, 8, code), (8, 0, 20, 0x20)]) st
      s.running = true ∧ s.fabCmd? 0 = none ∧ s.porter.fab.cmds.length < 16 ∧ slotBad (slotRec s 0) = false ∧ fcCode (slotRec s 0) = code ∧
        s.porter.fab.moduleId ≠ 0xFFFF ∧ (s.modFab fun f => { f with moduleId := 0xFFFF }).porter.fab.moduleId = 0xFFFF ∧
        volBusyFor s 0 = (st == .running) ∧ spinePoisoned s 0 = false ∧ (st = .parked → volUnfit s 0 (code == 2) = false) ∧
        (st = .live → volUnfit s 0 (code == 2) = true)) ∧
    (∀ r ∈ [0, 1],
      let s := onSlot (recT [(0, 0, 8, 1), (8, 0, 20, 0x2F), (8, 20, 1, r), (0x18, 0, 32, 0x1000), (0x1C, 8, 8, 1)]) .live
      let d := slotRec s 0
      slotBad d = false ∧ fcCode d = 1 ∧ fcReqLen d = 1 ∧ ((s.read .park (fcReq d) (fcReqLen d)).headD 0).toNat = 3 ∧
        fcRouted d = (r == 1) ∧ nodeHall (fcNode d) = 15 ∧ s.porter.fab.moduleId ≠ 0xFFFF) := by
  decide +kernel

theorem witness_FabricCommandsAndTransfers :
    (let c : FabCmd := { kind := FabKind.mgmt, start := 0, token := 9 }
     let s := { onCmd c .live with now := 20000 }
     s.fabCmd? 0 = some c ∧ s.passed c.start 10000 = false ∧ ({ s with now := 1000000 } : State).passed c.start 10000 = true ∧
      s.porterUp = true ∧
      (∀ t ∈ [0x83, 0x84], let p := mgPacket linkLocalNode linkLocalNode 0 0 (mkMgmt s t false 0 0 9 [0, 1, 2, 3])
       let m := msgOf p
       arrivesB s 0 p = true ∧ mgmtPktBad s p = false ∧ 0x80 ≤ mgType m ∧ m.body.length ≤ 224 ∧
        (s.porter.fab.cmds.find? fun q => q.2.kind == FabKind.mgmt && q.2.token == mgToken m) = some (0, c))) ∧
    (let s := { onCmd armT .parked with now := 2000000000 }
     s.fabCmd? 0 = some armT ∧ armT.pre = none ∧ s.passed armT.start 10000000 = true) ∧
    (let c := { armT with pre := some (16, 16, 1, 1) }
     let s := { onCmd c .parked with now := 2000000000 }
     s.fabCmd? 0 = some c ∧ c.kind = FabKind.accept ∧ c.pre.isSome = true ∧ s.passed c.start 12700 = true) ∧
    (let s := onCmd armT .parked
     let armed := fun (p : XferPreamble) => s.porter.fab.cmds.find? fun q => q.2.kind == FabKind.accept && q.2.pre.isNone
       && q.2.local_ == p.dstVol && q.2.peerVol == p.srcVol && q.2.node == p.srcNode
     s.porterUp = true ∧ s.hallUp (homeOf s 0) = true ∧ armed { preT 8 1 with srcVol := 6 } = none ∧
      armed (preT 8 1) = some (0, armT) ∧ shapeDiffers s 0 (preT 7 1) = true ∧ shapeDiffers s 0 (preT 8 1) = false ∧
      (preT 8 1).pfv ≤ pfvKnown s.fwMajor ∧ (reserveRuns (parkGranules (s.planOf 0) 0) 1 s []).isSome = true) ∧
    (let c := { armT with pre := some (16, 16, 1, 1), grans := [0], left := 1 }
     let s := onCmd c .parked
     let p := s.planOf 0
     (s.porter.fab.cmds.find? fun q => q.2.kind == FabKind.accept && q.2.local_ == 0 && q.2.pre.isSome) = some (0, c) ∧
      s.hallUp (homeOf s 0) = true ∧ p.layers * p.span = 4096 ∧ leV (s.leaf 0 4095) = false ∧ 16 ≤ p.tpl ∧
      parkSize p (s.vol 0).parkFmt = 65536 ∧ (s.ensurePair 0 4095).isSome = true) := by
  decide +kernel

theorem witness_ErrorsAreLoggedAndContained :
    (run id).porterUp = true ∧ (run id).hallNet 0 = true ∧ ((run id).hall 0).layerLost.getLsbD (11 : LayerId) = false ∧
    ((run fun x => { x with layerLost := 0x800 }).hall 0).layerLost.getLsbD (11 : LayerId) = true ∧
    (run id).porter.host.parkDead.getLsbD (23 : Fin 24) = false ∧
    (((run id).modHost fun d => { d with parkDead := 0x800000 }).porter.host).parkDead.getLsbD (23 : Fin 24) = true ∧
    (∀ k ∈ [ErrSource.vest, .clasp, .portb, .parkLink, .parkPkg, .ucie, .fabFec, .fabCrc, .fabGiveup, .fence, .sram, .nearStriped,
      .nearLanded], ∀ b ∈ [true, false],
      let e : ErrEvent := { source := k, correctable := b, hall := 0, unit := 0, layer := 0, addr := 0, scrub := false }
      e.correctable = b ∧ e.source = k) := by
  decide +kernel

/-- A FENCE_UNIT descriptor: operation, kind, unit of hall 0, sequence. -/
def fenceT (op kind unit seq : Nat) : Rec64 := recT [(0, 0, 8, 0x50), (8, 0, 3, op), (8, 4, 4, kind), (8, 12, 8, unit), (0x0C, 0, 32, seq)]

theorem witness_FencesAndPublication :
    (let s := { run id with stairs := [(0, { assigned := true }), (1, { fenced := true, adopter := some 0 })] }
     (s.stair 0 1).adopter = some 0 ∧ (s.stair 0 1).fenced = true ∧ (s.stair 0 1).adopted = false ∧ s.swRuns 0 0 = true) ∧
    ((run id).modPorter fun p => { p with res := { p.res with due := true } }).running = true ∧
    ((run id).modPorter fun p => { p with res := { p.res with due := true } }).porter.res.due = true ∧
    (run id).porter.res.due = false ∧ (run id).porterUp = true ∧
    (∀ d ∈ [(1, 1, 255, 0), (1, 2, 3, 0), (1, 6, 0, 0), (2, 0, 0, 0), (2, 0, 0, 5)],
      let k := fenceT d.1 d.2.1 d.2.2.1 d.2.2.2
      Begins (onClaim k) 0 0x50 { hall := 0, sq := 0, sqHead := 1, desc := k } ∧ fenceBody k = none ∧ fuOp k = d.1) ∧
    fenceFound (run id) (fenceT 1 2 3 0) = false ∧ ushersLeft (run id) 0 = 4 ∧
    fenceFound (run fun x => { x with ushersEn := 7 }) (fenceT 1 2 3 0) = true ∧
    (let s := run fun x => { x with ushersEn := 8 }
     fenceFound s (fenceT 1 2 3 0) = false ∧ ushersLeft s 0 = 1) ∧
    BitVec.ofNat 32 (fld (fenceT 2 0 0 5) 0x0C 0 32) ≠ (run id).porter.res.seq ∧
    BitVec.ofNat 32 (fld (fenceT 2 0 0 0) 0x0C 0 32) = (run id).porter.res.seq ∧ watchers (run id) = 0 ∧
    watchers { run id with claims := (List.range 16).map fun i =>
      (i, { hall := 0, sq := 0, sqHead := 1, desc := 0, stage := .watch 0 }) } = 16 := by
  refine ⟨by decide +kernel, by decide +kernel, by decide +kernel, by decide +kernel, by decide +kernel, fun d h => ?_,
    by decide +kernel, by decide +kernel, by decide +kernel, by decide +kernel, by decide +kernel, by decide +kernel,
    by decide +kernel, by decide +kernel⟩
  have h' : descOpcode (fenceT d.1 d.2.1 d.2.2.1 d.2.2.2) = 0x50 ∧ fenceBody (fenceT d.1 d.2.1 d.2.2.1 d.2.2.2) = none ∧
      fuOp (fenceT d.1 d.2.1 d.2.2.1 d.2.2.2) = d.1 := by revert d; decide +kernel
  exact ⟨⟨rfl, .inl rfl, h'.1⟩, h'.2⟩

/-- What a bring-up reports when nothing fails. -/
def bringT : BringupReport :=
  { porterOk := (true, true), imagesOk := (true, true), factoryCalOk := true, hallSteps := [], coldSensor := false, pllFail := [],
    hostTrain := [], ringTrain := [], parkFail := [], load := {}, trip := [], bondFail := [], swFail := [], landFail := [],
    colFail := [], usherFail := [], sliceFail := [], layerFail := [], coreFail := [], coldDram := [], pucOk := (true, false),
    pucWritten := true, softmapOk := (true, true), userCalOk := (true, true) }

/-- A round that reads 0 everywhere. -/
def roundT : RoundInput := { halls := List.replicate 12 ⟨[], [], [], 0⟩, inlet := [], outlet := [], pelaitik := [], unsched := 0 }

theorem witness_RoundsStepsAndWindows :
    (let s := run id
     s.porterUp = true ∧ s.porter.power.phase = .on ∧ s.porter.host.refLost = false ∧ s.porter.power.lastStep = none ∧
      (s.modPorter fun p => { p with power := { p.power with lastStep := some 0 } }).porter.power.lastStep = some 0 ∧
      s.now < 0 + 1670 ∧ 0 + 1670 ≤ ({ s with now := 1670 } : State).now ∧
      (inputRound ((List.finRange 12).foldl (fun (t : State) (h : HallId) =>
        if t.hallNet h then readHall t h (roundT.halls.getD h ⟨[], [], [], 0⟩) else t) (readPorter s roundT)) 0).porter.stage ≠
        .coldWait) ∧
    (let s : State := { porter := { stage := .coldWait, power := { phase := .on }, boot := some bringT } }
     let u := inputRound ((List.finRange 12).foldl (fun (t : State) (h : HallId) =>
       if t.hallNet h then readHall t h (roundT.halls.getD h ⟨[], [], [], 0⟩) else t) (readPorter s roundT)) 0
     s.porterUp = true ∧ s.porter.power.phase = .on ∧ u.porter.stage = .coldWait ∧ u.porter.boot = some bringT) ∧
    (∀ p ∈ [(8, 0, 16, some 0, none), (1, 1, 0, none, some 0), (0, 0, 0, none, none)],
      let s := run fun x => { x with therm := { x.therm with d := p.1, step := p.2.1, tripped := p.2.2.1 == 16 } }
      (rrNext 12 s.porter.power.lastHall fun h => capOf s h < (s.hall h).therm.d) = p.2.2.2.1 ∧
        (rrNext 12 s.porter.power.lastHall fun h => (s.hall h).therm.step != 0) = p.2.2.2.2 ∧ removesLoads s = false) := by
  decide +kernel

theorem witness_PowerComesAndGoes :
    (let s := fun (ph : PowerPhase) => ({ porter := { power := { phase := ph } } } : State)
     (∀ ph ∈ [PowerPhase.unpowered, .bleeding, .sequencing, .on, .powerDown], (s ph).porter.power.phase = ph) ∧
      ({ s .bleeding with now := 200000000 } : State).passed (s .bleeding).porter.power.since 2000000 = true) ∧
    (∀ h : HallId, Rail.bus ∉ [Rail.hallCore h, .hallSram h, .hallDram h, .hallNetwork h]) ∧
    (∀ p ∈ [(true, false), (false, true), (false, false)],
      porterVerifies (run id) { bringT with porterOk := p } (run id).firstSlot = p.1 ∧
        porterVerifies (run id) { bringT with porterOk := p } (!(run id).firstSlot) = p.2) ∧
    (run id).hallNet 0 = true ∧ ((run id).hall 0).pllLocked = true ∧ (run id).porterUp = true ∧
    (run id).porter.host.refLost = false ∧ ((run id).modHost fun d => { d with refLost := true }).porter.host.refLost = true := by
  decide +kernel

theorem witness_ResetsAndHandOff :
    (let w : Word := 0x57520001
     let u := (run id).modPorter fun p => { p with rstErr := p.rstErr && !bitAt w 1 }
     bitAt w 0 = true ∧ bits w 31 16 = 0x5752 ∧ u.resetsIgnored = false ∧ u.flashBusy = false ∧
      (u.modCal fun c => { c with queue := [{ op := .write, i3c := false, id := 1, index := 0, value := 32 }] }).flashBusy = true ∧
      bits (1 : Word) 31 16 ≠ 0x5752 ∧ (State.reset).resetsIgnored = true) ∧
    (let s := run id
     let w : Word := 0x101
     let u := (s.modRegs 0 fun g => { g with rstErr := g.rstErr && !bitAt w 2 }).modRegs 0 fun g => { g with rstReload := bitAt w 1 }
     let v := s.modRegs 0 fun g => { g with swRstSw := bits (0x100 : Word) 7 0 }
     s.hallNet 0 = true ∧ s.running = true ∧ bitAt w 0 = true ∧ bitAt (0 : Word) 0 = false ∧ bitAt (0 : Word) 8 = false ∧
      u.resetsIgnored = false ∧ u.hallFenced 0 = false ∧ bitAt (0x100 : Word) 8 = true ∧ v.resetsIgnored = false ∧ v.hallUp 0 = true ∧
      (v.stair 0 0).fenced = false ∧ (v.stair 0 0).resetting = false ∧ s.hallNet 1 = false) ∧
    (run fun x => { x with state := .fenced }).hallFenced 0 = true ∧
    (∀ b ∈ [false, true], let s := run fun x => { x with state := .computeReset, reloading := b }
     s.running = true ∧ (s.hall 0).state = .computeReset ∧ (s.hall 0).heldLost = false ∧ (s.hall 0).reloading = b) ∧
    ((run id).hall 0).state = .enabled ∧ (run id).porter.host.refLost = false ∧
    ((run id).modHost fun d => { d with refLost := true }).porter.host.refLost = true ∧
    (({ run id with stairs := [(0, { resetting := true })] } : State).stair 0 0).resetting = true ∧
    ((run id).hall 0).ushersEn.getLsbD (3 : UsherId) = true ∧
    (∀ p ∈ [(none, 0), (some 0, 0), (some 0, 60000000001)],
      let s := { run fun x => { x with missReset := [(3, p.1)] } with now := p.2 }
      sget (s.hall 0).missReset none 3 = p.1) ∧
    (∀ st ∈ [Stage.init, .warm, .running], ({ porter := { stage := st } } : State).porter.stage = st) := by
  decide +kernel

/-- A packet from stairwell 3 of hall 0. -/
def netT (dst : HallId) : Packet :=
  { id := 9, srcHall := 0, src := .stairwell 3, dstHall := dst, dst := .stairwell 5, cls := .request, body := .write 0 (List.replicate 256 1) false }

/-- Hall 0 with such a packet at an arbiter, and a ring. -/
def onNet (out : Nat) (dst : HallId) : State :=
  { run id with halls := [(0, { hallT with mesh := [(out, { queue := [{ pkt := netT dst }] })], cwLink := { width := 64 } }), (1, hallT)],
                stairs := [(3, { assigned := true })] }

theorem witness_PackageNetworkMovesPackets :
    (let s := onNet 0 1
     s.hallNet 0 = true ∧ (netT 1).body.len ≤ 256 ∧ (netT 1).srcHall = 0 ∧ netHeld s (netT 1) = false ∧
      (netT 1).src = .stairwell 3 ∧ s.swRuns 0 3 = true ∧ (sget (s.hall 0).mesh {} (NetOut.ring).number).queue = [] ∧
      (s.hall 0).state = .enabled ∧ s.hallNet 11 = false ∧ s.porter.stage ≠ .rom ∧
      (getLink (s.hall 0) .ringCcw).width = 0 ∧ (getLink (s.hall 0) .ringCw).width ≠ 0) ∧
    (∀ p ∈ [(NetOut.ring.number, false), (ringOut true, true)],
      let s := onNet p.1 1
      (match (sget (s.hall 0).mesh {} p.1).pick (s.hall 0).regs.ageMax s.now with
        | some q => q.2.queue[q.1]? == some { pkt := netT 1 }
        | none => false) = true) ∧
    (onNet 0 1).hallNet (ringNext 0 true) = true ∧ ringUp (onNet 0 1) 0 true = true := by
  decide +kernel

/-- A set-aside presentation, due at edge 100. -/
def backT : Backoff := { due := some 100, interval := 1 }

theorem witness_ClaspOpAndPresentationsAgain :
    (∃ x, (onClaim (put 512 0 0 8 0x31 ||| put 512 8 0 8 0x10)).claim? 0 = some x ∧ descOpcode x.desc = 0x31 ∧
      x.stage = .claimed ∧ (onClaim (put 512 0 0 8 0x31 ||| put 512 8 0 8 0x10)).hallUp x.hall = true ∧
      anySet x.desc [(8, 8, 24), (0x0C, 16, 16), (0x14, 0, 352)] = false) ∧
    ((run fun x => { x with state := .computeReset }).hall (claspHome 0)).state = .computeReset ∧
    (let r : Retry := { who := .usher 0 0 none, cop := 0x10, clasp := 0, opnd := 1, due := 100, interval := 0, first := true }
     let s := { run id with retries := [r, { r with interval := 1, clasp := 1 }, r] }
     s.retries[0]? = some r ∧ r.interval = 0 ∧ s.retries[1]? = some { r with interval := 1, clasp := 1 } ∧ s.retries[2]? = some r ∧
      (∀ q ∈ s.retries.take 1, q.who ≠ r.who ∨ q.clasp ≠ 1) ∧ (¬ ∀ q ∈ s.retries.take 2, q.who ≠ r.who ∨ q.clasp ≠ r.clasp) ∧
      r.due ≤ ({ s with now := 100 } : State).now ∧ ({ s with now := 99 } : State).now < r.due) ∧
    backT.ready 100 = true ∧ backT.ready 99 = false ∧
    (let s := { onNet 0 1 with halls := [(0, { hallT with netSent := [{ pkt := netT 1, inp := 0, back := some backT }] })], now := 100 }
     (s.hall 0).netSent[0]? = some { pkt := netT 1, inp := 0, back := some backT } ∧ s.hallNet 0 = true ∧
      netSends s 0 (netT 1).src = true) ∧
    (∀ m ∈ [none, some { instr := moveT 8 }], let s := onChan 0 { state := .running, move := m, back := some backT }
     (s.chan 0 23).back = some backT ∧ s.hallUp 0 = true ∧ (s.chan 0 23).move = m ∧
      burstOk (s.setChan 0 23 { s.chan 0 23 with back := some { backT with due := none } }) 0 23 = m.isSome) ∧
    (let x := { stepT .run with backs := [(0, backT)] }
     (onStep x).step? 0 = some x ∧ sfind x.backs 0 = some backT ∧ (onStep x).hallUp x.home = true ∧ x.lost = false) :=
  ⟨⟨_, rfl, by decide +kernel⟩, by decide +kernel⟩

theorem witness_SetUpWritesTakeEffect :
    (let s := run id
     s.porterUp = true ∧ s.porter.host.tierLock = false ∧ (s.modHost fun d => { d with tierLock := true }).porter.host.tierLock = true ∧
      (8 ≤ bits (8 : Word) 8 0 ∧ bits (256 : Word) 8 0 ≤ 256) ∧ farAreaOk s (5 : Word).toNat s.porter.host.farSize = true ∧
      fardecOk { s.porter.host with fardecBase := sset s.porter.host.fardecBase s.porter.host.fardecSel (7 : Word) } = true ∧
      (s.modHost fun d => { d with portaWidth := 4 }).porter.host.portaWidth ≠ 0 ∧ (0 % 8 = 0 ∧ 0 < 512) ∧ (504 % 8 = 0 ∧ 504 < 512) ∧
      s.porter.errlog.en = false ∧ (s.modHost fun d => { d with pbPerst := true }).porter.host.pbPerst = true ∧
      linkOk [1, 2, 4, 8, 16] 16 6 = true ∧ portbOk 4 5 = true ∧ s.porter.power.phase = .on ∧
      ({ s.modHost fun d => { d with pbRefclk := some 0 } with now := 10000 } : State).passed 0 100 = true ∧
      (s.modHost fun d => { d with pbRefclk := some 0 }).porter.host.pbRefclk.isSome = true ∧ s.porter.stage ≠ .rom ∧
      (s.modHost fun d => { d with portbWidth := 16 }).porter.host.portbWidth ≠ 0) ∧
    (let s := run id
     (0x218 < controlBytes ∧ accessOk 0x218 4 = true ∧ blockLost s 0x218 = false) ∧ accessOk 0x219 4 = false ∧ accessOk 0x218 8 = true ∧
      blockLost s (2 * blockBytes) = true ∧ blockHall (blockBytes + 0x018) = some 0 ∧ accessOk (blockBytes + 0x018) 4 = true ∧
      blockLost s (blockBytes + 0x018) = false ∧ s.running = true ∧ (blockBytes + 0x018) % blockBytes = 0x018 ∧
      blockBytes + 0x018 < controlBytes ∧ ((0x101 : Dword).toNat < 2 ^ 32)) := by
  decide +kernel

theorem witness_CalibrationAndFirmwareCommands :
    (let s := run id
     s.porterUp = true ∧ s.porter.cal.busy = false ∧ (s.modCal fun c => { c with busy := true }).porter.cal.busy = true ∧
      s.running = true ∧ s.porter.warmWait = none ∧ s.porter.fw.busy = false ∧ s.porter.flash.userCal.length < 1024 ∧
      calRange 3 720 = true ∧ calRange 3 800 = true ∧ 0 < calIndexes 3 ∧ calIndexes 9 = 0) ∧
    (∀ op ∈ [CalOp.read, .write, .clear], let c : CalCmd := { op := op, i3c := false, id := 3, index := 0, value := 720 }
     let s := (run id).modCal fun x => { x with busy := true, queue := [c] }
     s.porter.cal.queue = [c] ∧ c.op ≠ .restore ∧ c.index < calIndexes c.id ∧ calRange c.id c.value = true) ∧
    (sfind [(calKey 3 0, (720 : Dword))] (calKey 3 0)).isSome = true ∧
    (∀ r ∈ [1, 2], ((run id).modFw fun f => { f with busy := true, running := r, result := FwStatus.ok }).porter.fw.running = r ∧
      ((run id).modFw fun f => { f with busy := true, running := r, result := FwStatus.ok }).porter.fw.result = FwStatus.ok ∧
      (run id).porter.fw.i3c = false) := by
  decide +kernel

/-- A module with an I3C address. -/
def onI3c : State := (run id).modI3c fun i => { i with da := 9 }

theorem witness_I3cTargetAnswers :
    (let s := run id
     s.targetUp = true ∧ s.porter.i3c.da = 0 ∧ s.daaWord ≤ (0xFFFFFFFFFFFFFFFF : BitVec 64).toNat ∧
      (0 : BitVec 64).toNat < s.daaWord ∧ bitAt (1 : Byte) 0 = true) ∧
    (let s := onI3c
     s.targetUp = true ∧ s.porter.i3c.da ≠ 0 ∧ s.porter.i3c.ready = [] ∧ s.porter.i3c.busyCmd = none ∧ s.inRom = false ∧
      15 ≤ s.porter.i3c.mwl ∧ s.resetsIgnored = false ∧ s.flashBusy = false ∧ s.porter.fw.busy = false ∧
      (16 ≤ (16 : BitVec 16).toNat ∧ (64 : BitVec 16).toNat ≤ 64 ∧ (256 : BitVec 16).toNat ≤ 256) ∧
      (pageBytes s 0 0).isSome = true ∧ (pageBytes s 1 0).isSome = true ∧
      (s.modPorter fun p => { p with stage := .init }).resetsIgnored = true ∧ (7 : Byte).toNat ≤ 7 ∧ 8 < (9 : Byte).toNat ∧
      (s.modI3c fun i => { i with ready := [(true, [1])] }).porter.i3c.ready = [(true, [1])] ∧ [(1 : Byte)].length ≤ s.porter.i3c.mrl) ∧
    (let s := onI3c.modI3c fun i => { i with ibi := [(4, 3)] }
     s.porter.i3c.enint = true ∧ s.porter.i3c.lastIbi = none ∧ s.porter.i3c.ibi = [(4, 3)]) := by
  decide +kernel

theorem witness_SpdmRequestsAreAnswered :
    (∀ t ∈ [Transport.i3c, .portA], spdmUp (onI3c.modHost fun d => { d with portaWidth := 4 }) t = true ∧ spdmUp State.reset t = false) ∧
    (∀ code ∈ [0x84, 0xE1, 0xE3, 0x81, 0x82, 0x83, 0xE0],
      let req : List Byte := [0x12, BitVec.ofNat 8 code, 0, 0] ++ List.replicate 28 0
      4 ≤ req.length ∧ 32 ≤ req.length ∧ bodyNat req 1 1 = code) ∧
    (let x : Spdm := { version := 0x12, algo := true, caps := true, msgA := [1] }
     x.algo = true ∧ ([(0x12 : Byte)].headD 0).toNat = x.version ∧ x.caps = true ∧ x.msgA ≠ []) ∧
    (let x : Spdm := {}
     x.algo = false ∧ x.caps = false ∧ x.msgA = []) ∧ 192 ≤ (192 : Byte).toNat := by
  decide +kernel

theorem witness_HallAndLandingCommandsTouchNothingElse :
    (∃ b h, Instr.bindPrepare 0 = .bindPrepare b ∨ Instr.bindPrepare 0 = .bindPrepared b ∨ Instr.bindPrepare 0 = .bindPrepareTimeout b h) ∧
    (match exec (.bindPrepare 0) (run id) with | .next t => t == run id | _ => false) = true :=
  ⟨⟨0, 0, .inl rfl⟩, by decide +kernel⟩

theorem witness_PorterCommandsTouchNothingElse : ∃ t, exec .getbcr onI3c = .next t := ⟨_, rfl⟩

theorem witness_CommandsOnlyAddToWhatWasSent : ∃ t, exec .getbcr onI3c = .next t := ⟨_, rfl⟩

theorem witness_IdleStepIsAReferenceEdge : (run id).pending = [] := rfl

/-! ### Worked examples of the spec -/

/-- The E40 plan (chapters 5 and 6). -/
def planE40 : Plan :=
  { layers := 40, span := 2048, tpl := 32, kvfmt := 1, kvbytes := 61440, rowelems := 960, lead := 2, kvheads := 6, g := 5, d := 160,
    rows := 64, lanes := 1, head := true, scale := 0x3DA1E89B, voff := 0x7800, stride := 960, boards := [{ hall := 0, sw := 0, base := 0 }] }

/-- Table 5.9: leaf sizes in the park formats, and their granules. -/
theorem test_e40_leaf_sizes :
    [0, 1, 2].map (fun f => (parkSize planE40 f, parkGranules planE40 f, farGranules planE40 f)) =
      [(65536, 8, 2), (52224, 7, 2), (36864, 5, 2)] := by decide +kernel

/-- The board of E40 is 2,122,240 B (R180). -/
theorem test_e40_board : planE40.boardSize = 2122240 := by decide +kernel

/-- Granules of the park leaf area with a host reservation of 32 GiB and the default spine pool (R162). -/
theorem test_park_area : ((run id).modHost fun d => { d with hostRes := 32 * 2 ^ 30 }).parkAreaGranules = 188727296 := by decide +kernel

/-- Slot 1,123 lies on layer 7 in bank 1, at 0x463_0000 (chapter 4). -/
theorem test_slot_place : 1123 % 12 = 7 ∧ bankOf 1123 = 1 ∧ keyAt planE40 1123 0 = 0x4630000 := by decide +kernel

/-- The verify step of the example of chapter 6, with its head rows on the board. -/
def verifyT : Step :=
  { stepT .run with op := .verify, nrows := 6, parents := [0, 0, 1, 0, 3, 4], tokensIn := [4107, 118, 9022, 515, 77, 3310], tokens0 := 1000 }

def onVerify : State :=
  let s := { onStep verifyT with plans := [(1, planE40)] }
  [(0, 515), (3, 77), (4, 6402)].foldl
    (fun s q => s.write (.sram 0 0) (planE40.headIdxOff + q.1 * 256) (leBytes 4 q.2) false) s

/-- Node 3 is accepted at the root, node 4 under node 3, and node 5 is not. -/
theorem test_e40_acceptance : keptOf onVerify verifyT = [0, 3, 4] := by decide +kernel

/-- The mask bits of its rows. -/
theorem test_e40_mask : (List.range 6).map (fun r => sumN 6 fun q => if attendsNew verifyT r q then 2 ^ q else 0) =
    [0x01, 0x03, 0x07, 0x09, 0x19, 0x39] := by decide +kernel

/-- The positions of its rows. -/
theorem test_e40_positions : (List.range 6).map (rowPos verifyT) = [1000, 1001, 1002, 1001, 1002, 1003] := by decide +kernel

/-- A volume of 26,208 tokens has 819 leaves in a layer, and position 26,208 begins block 819 (chapters 0 and 6). -/
theorem test_e40_blocks : touchedBlocks planE40 26208 1 = [819] ∧ (touchedBlocks planE40 0 26208).length = 819 := by decide +kernel

/-! ### Small steps -/

/-- CTR_ADD wraps at 2^32. -/
theorem test_ctr_add_wraps : cellOp { typ := .counter, val := 0xFFFFFFFF } 0 0x10 2 true = .ok { typ := .counter, val := 1 } := by
  decide +kernel

/-- CTR_WAIT is met by a value just past its target, modulo 2^32. -/
theorem test_ctr_wait_wraps : cellOp { typ := .counter, val := 1 } 0 0x12 0xFFFFFFFF true = .ok { typ := .counter, val := 1 } := by
  decide +kernel

/-- LOCK_TRY of hall 5 records the hall and the owner. -/
theorem test_lock_try : cellOp { typ := .lock } 5 0x30 0x123456 true = .ok { typ := .lock, val := 0x85123456 } := by decide +kernel

/-- LOCK_RELEASE by its owner of a lock that a reset has marked ORPHAN is refused (R218). -/
theorem test_orphan_release : cellOp { typ := .lock, val := 0xC5123456 } 5 0x32 0x123456 true = .fail Status.notOwner ∧
    cellOp { typ := .lock, val := 0x85123456 } 5 0x32 0x123456 true = .ok { typ := .lock } := by decide +kernel

/-- The owner value of usher 3 (R211). -/
theorem test_usher_owner : usherOwner 3 = 0xFFFFF3 := by decide +kernel

/-- A packet that the link did not expect next is not handed on, and the packets from the one awaited are asked for (R321). -/
theorem test_link_gap :
    (match exec (.hello 0 (arrived (helloT 1 1) (some { seq := 2, ok := true }))) (onHello .hello) with
      | .next t => (t.port 0).state == .hello && (t.port 0).rxNext == 1 && (t.port 0).rxAsked
      | _ => false) = true := by decide +kernel

/-- The CRC of a command frame over the digits 1 to 9: the check value of the polynomial x⁸ + x² + x + 1. -/
theorem test_crc8 : crc8 [0x31, 0x32, 0x33, 0x34, 0x35, 0x36, 0x37, 0x38, 0x39] = 0xF4 := by decide +kernel

/-- GETBCR answers 0x06 (Table 17.3). -/
theorem test_getbcr : (match exec .getbcr onI3c with | .next t => t.out == [.i3c [0x06]] | _ => false) = true := by decide +kernel

/-- No word spells a command. -/
theorem test_no_word : decodeTableWord 32 0xFFFFFFFF = none ∧ (run id).withFetchWord 32 7 = run id := ⟨rfl, rfl⟩

/-- The CRC-32 of the digits 1 to 9: the check value of the IEEE 802.3 polynomial. -/
theorem test_crc32 : crc32 [0x31, 0x32, 0x33, 0x34, 0x35, 0x36, 0x37, 0x38, 0x39] = 0xCBF43926 := by decide +kernel

/-! ### Well-formedness: an ill-formed term for each check, which it refuses -/

theorem test_wf_landing_writes : (Instr.landingCmdWrite 0 0 0 0 60 (List.replicate 5 1)).wf = false ∧
    (Instr.windowWrite 0 0 0 0x107F [1, 2]).wf = false ∧ (Instr.windowWrite 0 0 0 0x107F [1]).wf = true := by decide +kernel

theorem test_wf_memory_requests :
    (Instr.nearLineRequest 0 0 { addr := 0, len := 257, write := none, poison := false, core := 0 }).wf = false ∧
    (Instr.nearLineRequest 0 0 { addr := 0, len := 2, write := some [1], poison := false, core := 0 }).wf = false ∧
    (Instr.vestAccess 0 { space := .park, addr := 0, len := 2049, hint := .stream, write := none, poison := false }).wf = false ∧
    (Instr.vestAccess 0 { space := .park, addr := 0, len := 2, hint := .stream, write := some [1], poison := false }).wf = false := by
  decide +kernel

theorem test_wf_volume_leaf : (Instr.volTransferLeaf 0 0 2049 [] false).wf = false ∧
    ∀ b : List Byte, b.length = 65537 → (Instr.volTransferLeaf 0 0 0 b false).wf = false :=
  ⟨rfl, fun b h => by simp [Instr.wf, h]⟩

theorem test_wf_package_packets :
    let p : Packet := { id := 0, srcHall := 0, src := .dma, dstHall := 1, dst := .dma, cls := .request, body := .write 0 (List.replicate 257 0) false }
    (Instr.meshPacket 0 (.inject p 0)).wf = false ∧ (Instr.meshBroadcast 0 p).wf = false ∧ (Instr.ringBroadcast 0 1 p).wf = false ∧
      (Instr.ucieFlitResend 0 .host (.narrowed 65)).wf = false := by decide +kernel

theorem test_wf_fabric_packets :
    let p : FabPacket := { hdr := 0, payload := List.replicate 2049 0, crc := 0, pad := 0 }
    (Instr.data 0 p).wf = false ∧ (Instr.ack 0 p).wf = false ∧ (Instr.fabricForward 0 p).wf = false ∧ (Instr.mgmtForward 0 p).wf = false := by
  decide +kernel

theorem test_wf_messages :
    let p : FabPacket := { hdr := 0, payload := List.replicate 2049 0, crc := 0, pad := 0 }
    ∀ i ∈ [Instr.hello 0 p, .claim 0 p, .heartbeat 0 p, .query 0 none p, .assignId 0 none p, .routeWrite 0 none p, .wclSet 0 none p,
      .report (0, p), .mgmtReply 0 p], i.wf = false := by decide +kernel

theorem test_wf_links : (Instr.fecLock 0 3).wf = false ∧ (Instr.portaLinkChange true 3 5).wf = false ∧ (Instr.portaLinkChange true 4 7).wf = false ∧
    (Instr.portbLinkUp 5 5 true).wf = false ∧ (Instr.portbLinkUp 16 7 true).wf = false ∧ (Instr.linkControlWord 0 0 [(0, 4097)]).wf = false := by
  decide +kernel

theorem test_wf_register_writes : (Instr.mailboxWrite 0 9 0).wf = false ∧ (Instr.mailboxWrite 4090 8 0).wf = false ∧
    (Instr.registerWrite 0 2 0).wf = false ∧ (Instr.registerWrite 0xFFFFFF 8 0).wf = false := by decide +kernel

theorem test_wf_events :
    (Instr.errorEvent { source := .layer, correctable := false, hall := 0, unit := 0, layer := 12, addr := 0, scrub := false }).wf = false ∧
    (Instr.housekeepingRound { halls := [], inlet := [], outlet := [], pelaitik := [], unsched := 0 }).wf = false := by decide +kernel

end Sys2Proof.Tests
end

section
/-! Commands of the porter: the relation "only the porter, what was sent and the free values drawn differ", how it goes
through the operations that those commands share, and each command (Table 13.1, R9, R438, R443, R464). -/

namespace Sys2Proof.Machine

/-- `b` differs from `a` at most in the porter, in what was sent and in the count of free values drawn. -/
def PorterDiffers (a b : State) : Prop := b = { a with porter := b.porter, out := b.out, fresh := b.fresh }

/-! ### The updates of a state -/

namespace PorterDiffers

theorem refl {s : State} : PorterDiffers s s := rfl

theorem trans {a b c : State} (h : PorterDiffers a b) (k : PorterDiffers b c) : PorterDiffers a c := by
  unfold PorterDiffers at h k ⊢
  rw [k, h]

variable {a s t : State}

theorem modPorter {f : Porter → Porter} (h : PorterDiffers a s) : PorterDiffers a (s.modPorter f) :=
  h.trans rfl

theorem modHost {f : HostDie → HostDie} (h : PorterDiffers a s) : PorterDiffers a (s.modHost f) := h.modPorter

theorem modI3c {f : I3c → I3c} (h : PorterDiffers a s) : PorterDiffers a (s.modI3c f) := h.modPorter

theorem modCal {f : Calib → Calib} (h : PorterDiffers a s) : PorterDiffers a (s.modCal f) := h.modPorter

theorem modFw {f : FwUpd → FwUpd} (h : PorterDiffers a s) : PorterDiffers a (s.modFw f) := h.modPorter

theorem modFab {f : FabMgr → FabMgr} (h : PorterDiffers a s) : PorterDiffers a (s.modFab f) := h.modPorter

theorem modSpdm {t : Transport} {f : Spdm → Spdm} (h : PorterDiffers a s) : PorterDiffers a (s.modSpdm t f) :=
  h.modPorter

theorem emit {o : Output} (h : PorterDiffers a s) : PorterDiffers a (s.emit o) := h.trans rfl

theorem drawFresh {n : Nat} (h : PorterDiffers a s) : PorterDiffers a { s with fresh := s.fresh + n } := h.trans rfl

theorem ite {c : Prop} [Decidable c] (h : PorterDiffers a s) (k : PorterDiffers a t) :
    PorterDiffers a (if c then s else t) := by
  split
  · exact h
  · exact k

theorem iteFst {β : Type} {c : Prop} [Decidable c] {p q : State × β} (h : PorterDiffers a p.1)
    (k : PorterDiffers a q.1) : PorterDiffers a (if c then p else q).1 := by
  split
  · exact h
  · exact k

/-- A further change that is made only when `c` holds. -/
theorem further {c : Prop} [Decidable c] (k : PorterDiffers s t) (h : PorterDiffers a s) :
    PorterDiffers a (if c then t else s) := .ite (h.trans k) h

theorem foldl {α : Type} {f : State → α → State} (hf : ∀ s x, PorterDiffers s (f s x)) :
    ∀ (l : List α) {s : State}, PorterDiffers a s → PorterDiffers a (l.foldl f s)
  | [], _, h => h
  | x :: l, s, h => foldl hf l (h.trans (hf s x))

/-! ### Reports of the porter -/

theorem publishDue (h : PorterDiffers a s) : PorterDiffers a s.publishDue := h.modPorter

theorem logEvent {c n u g : Nat} (h : PorterDiffers a s) : PorterDiffers a (s.logEvent c n u g) := h.modPorter

theorem raiseAlert {b : Nat} (h : PorterDiffers a s) : PorterDiffers a (s.raiseAlert b) := h.modPorter

theorem replaceCause {b : Nat} (h : PorterDiffers a s) : PorterDiffers a (s.replaceCause b) :=
  .ite h h.modPorter.publishDue.logEvent.raiseAlert

theorem fabIrq (h : PorterDiffers a s) : PorterDiffers a s.fabIrq := h.emit

theorem enterCool {c : CoolState} (h : PorterDiffers a s) : PorterDiffers a (enterCool s c) :=
  .ite h h.modPorter.publishDue.logEvent.raiseAlert

/-! ### I3C: addressed transfers, command frames and their responses (R438 to R442) -/

theorem respReady {cmd st : Nat} {d : List Byte} (h : PorterDiffers a s) : PorterDiffers a (respReady s cmd st d) :=
  h.modI3c

theorem respEnd {st : Nat} {d : List Byte} (h : PorterDiffers a s) : PorterDiffers a (respEnd s st d) := by
  unfold Machine.respEnd
  split
  · exact .ite h.modI3c.respReady h.modI3c
  · exact h

theorem addressed {k : State → State} (hk : PorterDiffers s (k s)) : PorterDiffers s (addressed s k) :=
  .ite .refl (.ite (.emit .refl) hk)

theorem withFrame {cmd len : Nat} {args : List Byte} {k : State → State} (hk : PorterDiffers s (k s)) :
    PorterDiffers s (withFrame s cmd args len k) :=
  .addressed (.ite (.respReady .refl) (.ite (.respReady .refl) (.ite (.respReady .refl) (.ite (.respReady .refl) hk))))

theorem calFrame {cmd : Nat} {op : CalOp} {args : List Byte} (h : PorterDiffers a s) :
    PorterDiffers a (calFrame s cmd op args) := by
  unfold Machine.calFrame
  exact h.modI3c.modCal

/-! ### Calibration and firmware (R374 to R377, R452 to R454) -/

theorem calHost {op : CalOp} (h : PorterDiffers a s) : PorterDiffers a (calHost s op) := .ite h.modCal h.modCal

theorem fwCommitStart {c : Nat} {i3c : Bool} (h : PorterDiffers a s) : PorterDiffers a (fwCommitStart s c i3c) :=
  h.modFw

theorem setBundle {slotB : Bool} {x : Bundle} (h : PorterDiffers a s) : PorterDiffers a (s.setBundle slotB x) :=
  h.modPorter

theorem raiseCounters {c : Nat} (h : PorterDiffers a s) : PorterDiffers a (raiseCounters s c) := by
  unfold Machine.raiseCounters
  exact h.modPorter

theorem fwEnd {st : Nat} (h : PorterDiffers a s) : PorterDiffers a (fwEnd s st) := h.modFw.raiseAlert

/-! ### Set-up writes (R178, R259, R284, R398) -/

theorem tierRefuse (h : PorterDiffers a s) : PorterDiffers a (tierRefuse s) := h.modHost

theorem tierCfg {r : TierReg} {w : Word} (h : PorterDiffers a s) : PorterDiffers a (tierCfg s r w) := by
  refine .ite h.tierRefuse ?_
  cases r with
  | tierCfg => exact .ite h.tierRefuse h.modHost
  | farBase => exact .ite h.modHost h.tierRefuse
  | farSize => exact .ite h.modHost h.tierRefuse

theorem fardecWrite {r : FardecReg} {w : Word} (h : PorterDiffers a s) : PorterDiffers a (fardecWrite s r w) :=
  .ite h.tierRefuse h.modHost

theorem portaWin {r : PortaReg} {w : Word} (h : PorterDiffers a s) : PorterDiffers a (portaWin s r w) := by
  unfold Machine.portaWin
  cases r with
  | winLo => exact h.modHost
  | winHi => exact h.modHost

theorem setErrLog {l : ErrLog} (h : PorterDiffers a s) : PorterDiffers a (s.setErrLog l) := h.modPorter

theorem errlogHead {w : Word} (h : PorterDiffers a s) : PorterDiffers a (errlogHead s w) := by
  unfold Machine.errlogHead
  exact h.setErrLog

theorem errlogCfg {r : ErrlogReg} {w : Word} (h : PorterDiffers a s) : PorterDiffers a (errlogCfg s r w) := by
  cases r with
  | baseLo => exact .ite h h.setErrLog
  | baseHi => exact .ite h h.setErrLog
  | cfg => exact .ite h (.ite (.ite h.setErrLog h.setErrLog) h.setErrLog)

/-! ### The SPDM responder (R443, R448 to R451)

A request that is answered changes the connection's record in the porter and may draw a nonce: such a branch closes by
unfolding, and an error response changes nothing. -/

theorem spdmVersion {t : Transport} {req : List Byte} : PorterDiffers s (spdmVersion s t req).1 := rfl

theorem spdmCapabilities {t : Transport} {req : List Byte} : PorterDiffers s (spdmCapabilities s t req).1 :=
  .iteFst .refl (.iteFst .refl (.iteFst .refl rfl))

theorem spdmAlgorithms {t : Transport} {req : List Byte} : PorterDiffers s (spdmAlgorithms s t req).1 :=
  .iteFst .refl (.iteFst .refl rfl)

theorem spdmDigests {t : Transport} {req : List Byte} : PorterDiffers s (spdmDigests s t req).1 := rfl

theorem spdmCertificate {t : Transport} {req : List Byte} : PorterDiffers s (spdmCertificate s t req).1 :=
  .iteFst .refl rfl

theorem spdmChallenge {t : Transport} {req : List Byte} : PorterDiffers s (spdmChallenge s t req).1 :=
  .iteFst .refl (.iteFst .refl rfl)

theorem spdmMeasurements {t : Transport} {req : List Byte} : PorterDiffers s (spdmMeasurements s t req).1 :=
  .iteFst .refl (.iteFst .refl (.iteFst rfl rfl))

theorem afterAlgo {t : Transport} {req : List Byte} {k : State × List Byte} (hk : PorterDiffers s k.1) :
    PorterDiffers s (afterAlgo s t req k).1 :=
  .iteFst .refl (.iteFst .refl hk)

theorem spdmAnswer {t : Transport} {req : List Byte} : PorterDiffers s (spdmAnswer s t req).1 :=
  .iteFst .refl <| .iteFst .spdmVersion <| .iteFst .spdmCapabilities <| .iteFst .spdmAlgorithms <|
    .iteFst (.afterAlgo .spdmDigests) <| .iteFst (.afterAlgo .spdmCertificate) <|
    .iteFst (.afterAlgo .spdmChallenge) <| .iteFst (.afterAlgo .spdmMeasurements) .refl

theorem mctpSend {t : Transport} {b : List Byte} (h : PorterDiffers a s) : PorterDiffers a (mctpSend s t b) := by
  unfold Machine.mctpSend
  cases t with
  | i3c => exact h.modI3c
  | portA => exact h.emit

theorem spdmRequest {t : Transport} {code : Nat} {req : List Byte} : PorterDiffers s (spdmRequest s t code req) :=
  .ite (.mctpSend .spdmAnswer) .refl

theorem mctpMessage {t : Transport} {eids tag : Nat} {msg : List Byte} (h : PorterDiffers a s) :
    PorterDiffers a (mctpMessage s t eids tag msg) := by
  unfold Machine.mctpMessage
  split
  · exact .foldl (fun _ _ => .mctpSend .refl) _ (h.trans .spdmAnswer)
  · exact h

end PorterDiffers

/-! ### Each command -/

/-- A command whose next state is `t` changes only the porter when `t` differs in it alone. -/
theorem PorterOnly.of_next {i : Instr} {s t : State} (e : exec i s = .next t) (h : PorterDiffers s t) :
    PorterOnly i s := by
  intro u hu
  rw [e] at hu
  cases hu
  exact h

/-- A command of the I3C target that is answered once the module holds an address (R440). -/
theorem PorterOnly.of_addressed {i : Instr} {s : State} {k : State → State} (e : exec i s = .next (addressed s k))
    (h : PorterDiffers s (k s)) : PorterOnly i s := .of_next e (.addressed h)

/-- A command frame (R441). -/
theorem PorterOnly.of_withFrame {i : Instr} {s : State} {cmd len : Nat} {args : List Byte} {k : State → State}
    (e : exec i s = .next (withFrame s cmd args len k)) (h : PorterDiffers s (k s)) : PorterOnly i s :=
  .of_next e (.withFrame h)

/-- A command that acts when `c` holds and is ignored otherwise. -/
theorem PorterOnly.of_ite {i : Instr} {s t : State} {c : Prop} [Decidable c]
    (e : exec i s = .next (if c then t else s)) (h : PorterDiffers s t) : PorterOnly i s := .of_next e (.ite h .refl)

/-- An SPDM request (R448 to R450). -/
theorem PorterOnly.of_spdmRequest {i : Instr} {s : State} {t : Transport} {code : Nat} {req : List Byte}
    (e : exec i s = .next (spdmRequest s t code req)) : PorterOnly i s := .of_next e .spdmRequest

section
variable (s : State)

theorem linkReplay_porterOnly (h : HallId) (linkSeq : Nat) : PorterOnly (.linkReplay h linkSeq) s :=
  .of_ite rfl (.foldl (fun _ _ => .emit .refl) _ .refl)

theorem fwupdStage_porterOnly : PorterOnly .fwupdStage s := .of_ite rfl (.ite .refl (.modFw .refl))

theorem fwupdCommit_porterOnly (classes : BitVec 3) : PorterOnly (.fwupdCommit classes) s :=
  .of_ite rfl (.ite .refl (.fwCommitStart .refl))

theorem fwupdDone_porterOnly (flashOk : Bool) : PorterOnly (.fwupdDone flashOk) s := by
  refine .of_next rfl (.ite .refl (.ite ?_ ?_))
  · exact .logEvent (.fwEnd (.ite (.setBundle .refl) (.ite (.setBundle .refl) .refl)))
  · exact .further (.respEnd .refl) (.fwEnd (.further (.logEvent (.raiseCounters .refl)) .refl))

theorem parkScrubStep_porterOnly (ctl : Fin 12) : PorterOnly (.parkScrubStep ctl) s := .of_ite rfl (.modHost .refl)

theorem pbPerstRelease_porterOnly : PorterOnly .pbPerstRelease s := by
  refine .of_next rfl ?_
  split
  · exact .ite (.modHost .refl) .refl
  · exact .refl

theorem portaLinkChange_porterOnly (perst : Bool) (width gen : Nat) : PorterOnly (.portaLinkChange perst width gen) s :=
  .of_next rfl (.ite (.modHost .refl) (.publishDue (.modHost .refl)))

theorem portbLinkUp_porterOnly (width gen : Nat) (cxl : Bool) : PorterOnly (.portbLinkUp width gen cxl) s :=
  .of_ite rfl (.publishDue (.modHost .refl))

theorem coolantWindow_porterOnly : PorterOnly .coolantWindow s := by
  refine .of_next rfl (.ite .refl (.further (.replaceCause .refl) ?_))
  have drawn : PorterDiffers s
      { (s.modPorter fun p => { p with cool := p.cool.window s.fresh }) with fresh := s.fresh + 2 } :=
    .drawFresh (.modPorter .refl)
  split
  · exact .ite (.enterCool drawn) drawn
  · exact .ite drawn (.enterCool drawn)
  · exact drawn

theorem mailboxWrite_porterOnly (off size : Nat) (value : Dword) : PorterOnly (.mailboxWrite off size value) s :=
  .of_next rfl (.ite .refl (.emit (.modHost .refl)))

theorem managerElected_porterOnly : PorterOnly .managerElected s :=
  .of_next rfl (.ite (.fabIrq (.modFab .refl)) .refl)

theorem heartbeatLoss_porterOnly : PorterOnly .heartbeatLoss s := by
  refine .of_next rfl ?_
  dsimp only
  split
  · exact .ite (.fabIrq (.modFab .refl)) .refl
  · exact .refl

theorem entdaa_porterOnly (word : Option (BitVec 64)) (addr : BitVec 7) : PorterOnly (.entdaa word addr) s :=
  .of_next rfl (.ite .refl (.ite (.modI3c (.emit .refl)) (.emit .refl)))

theorem ibiRequest_porterOnly (acked : Bool) : PorterOnly (.ibiRequest acked) s := by
  refine .of_next rfl (.ite .refl ?_)
  split
  · exact .refl
  · exact .emit (.modI3c .refl)

theorem responseRead_porterOnly : PorterOnly .responseRead s := by
  refine .of_addressed rfl ?_
  dsimp only
  split
  · exact .ite (.emit (.modI3c .refl)) (.emit (.modI3c .refl))
  · exact .emit (.modI3c .refl)
  · exact .emit .refl
  · exact .emit .refl

theorem commandFrameRefused_porterOnly (frame : List Byte) : PorterOnly (.commandFrameRefused frame) s :=
  .of_addressed rfl (.ite .refl (.ite (.respReady .refl) (.ite .refl (.ite (.respReady .refl) (.respReady .refl)))))

theorem readPage_porterOnly (args : List Byte) : PorterOnly (.readPage args) s := by
  refine .of_withFrame rfl (.ite (.respReady .refl) ?_)
  split
  · exact .respReady .refl
  · exact .respReady .refl

theorem alertAck_porterOnly (args : List Byte) : PorterOnly (.alertAck args) s :=
  .of_withFrame rfl (.respReady (.modPorter .refl))

theorem fwCommit_porterOnly (args : List Byte) : PorterOnly (.fwCommit args) s :=
  .of_withFrame rfl
    (.ite (.respReady .refl) (.ite (.respReady (.modFw .refl)) (.fwCommitStart (.modI3c .refl))))

theorem mctpPacket_porterOnly (t : Transport) (bytes : List Byte) : PorterOnly (.mctpPacket t bytes) s := by
  refine .of_next rfl (.ite .refl ?_)
  dsimp only
  split
  · exact .modSpdm .refl
  · exact .ite (.mctpMessage (.modSpdm .refl)) (.modSpdm .refl)

end

/-- Settles O59: each command is made of updates of the porter, of sent items and of drawn free values, so every other
field of the state stands. -/
theorem porterCommandsTouchNothingElse : Obligations.PorterCommandsTouchNothingElse := by
  intro u
  -- GETBCR, GETDCR, GETMRL, GETMWL, GETPID and GETSTATUS only send an answer.
  refine ⟨.of_addressed rfl (.emit .refl), .of_addressed rfl (.emit .refl), .of_addressed rfl (.emit .refl),
    .of_addressed rfl (.emit .refl), .of_addressed rfl (.emit .refl), .of_addressed rfl (.emit .refl),
    linkReplay_porterOnly u, fun _ => .of_ite rfl (.emit .refl), ?_⟩
  -- Calibration commands and event enables, then the set-up writes and firmware commands.
  refine ⟨.of_ite rfl (.calHost .refl), .of_ite rfl (.calHost .refl), .of_ite rfl (.calHost .refl),
    .of_ite rfl (.calHost .refl), fun _ => .of_ite rfl (.modI3c .refl), fun _ => .of_ite rfl (.modI3c .refl), ?_⟩
  refine ⟨fun _ _ => .of_ite rfl (.errlogCfg .refl), fun _ => .of_ite rfl (.errlogHead .refl),
    fun _ _ => .of_ite rfl (.fardecWrite .refl), fwupdCommit_porterOnly u, fwupdDone_porterOnly u,
    fwupdStage_porterOnly u, ?_⟩
  -- Samples, scrub and peak, the links of ports A and B, the tier and the coolant window.
  refine ⟨fun _ _ => .of_next rfl (.modPorter .refl), parkScrubStep_porterOnly u, pbPerstRelease_porterOnly u,
    fun _ => .of_ite rfl (.further (.modPorter .refl) .refl), portaLinkChange_porterOnly u,
    fun _ _ => .of_ite rfl (.portaWin .refl), portbLinkUp_porterOnly u, .of_ite rfl (.modI3c .refl),
    fun _ _ => .of_ite rfl (.tierCfg .refl), coolantWindow_porterOnly u, ?_⟩
  -- Command frames, in-band interrupts, the mailbox and the election.
  refine ⟨alertAck_porterOnly u, fun _ => .of_withFrame rfl (.calFrame .refl),
    fun _ => .of_withFrame rfl (.calFrame .refl), fun _ => .of_withFrame rfl (.calFrame .refl),
    commandFrameRefused_porterOnly u, entdaa_porterOnly u, fwCommit_porterOnly u, heartbeatLoss_porterOnly u,
    ibiRequest_porterOnly u, mailboxWrite_porterOnly u, managerElected_porterOnly u, readPage_porterOnly u,
    responseRead_porterOnly u, fun _ => .of_withFrame rfl (.calFrame .refl),
    fun _ => .of_addressed rfl (.further (.modI3c .refl) .refl),
    fun _ => .of_addressed rfl (.further (.modI3c .refl) .refl), ?_⟩
  -- SPDM requests and the MCTP packets that carry them.
  exact ⟨fun _ _ => .of_spdmRequest rfl, fun _ _ => .of_spdmRequest rfl, fun _ _ => .of_spdmRequest rfl,
    fun _ _ => .of_spdmRequest rfl, fun _ _ => .of_spdmRequest rfl, fun _ _ => .of_spdmRequest rfl,
    fun _ _ => .of_spdmRequest rfl, mctpPacket_porterOnly u⟩

end Sys2Proof.Machine
end

section
/-! What every command keeps: the rule of each command gathered over the dispatch, and what follows of the clock, the queue,
what was sent and the free values (R31, R250, R260, R337, log entry 4). -/

namespace Sys2Proof.Machine

/-- Every command but FWUPD_DONE, which may raise fused counters, keeps what `Keeps` names. -/
theorem exec_keeps : ∀ (c : Instr) (s : State), (∀ b, c ≠ .fwupdDone b) → Gives c s (Keeps s)
  | .planLoad c, s, _ => execPlanLoad_keeps c s
  | .planUnload c, s, _ => execPlanUnload_keeps c s
  | .volOpen c, s, _ => execVolOpen_keeps c s
  | .volClose c, s, _ => execVolClose_keeps c s
  | .volQuery c, s, _ => execVolQuery_keeps c s
  | .fmSeal c, s, _ => execFmSeal_keeps c s
  | .checkpoint c, s, _ => execCheckpoint_keeps c s
  | .park c, s, _ => execPark_keeps c s
  | .shelve c, s, _ => execShelve_keeps c s
  | .resume c, s, _ => execResume_keeps c s
  | .recover c, s, _ => execRecover_keeps c s
  | .volRehome c, s, _ => execVolRehome_keeps c s
  | .hintQuery c, s, _ => execHintQuery_keeps c s
  | .stepDecode c, s, _ => execStepDecode_keeps c s
  | .stepVerify c, s, _ => execStepVerify_keeps c s
  | .stepPrefill c, s, _ => execStepPrefill_keeps c s
  | .stepAbort c, s, _ => execStepAbort_keeps c s
  | .bind c, s, _ => execBind_keeps c s
  | .bindForward b, s, _ => execBindForward_keeps b s
  | .claspOp c, s, _ => execClaspOp_keeps c s
  | .nop c, s, _ => execNop_keeps c s
  | .dmaStart c, s, _ => execDmaStart_keeps c s
  | .dmaStop c, s, _ => execDmaStop_keeps c s
  | .fenceUnitFence c, s, _ => execFenceUnitFence_keeps c s
  | .fenceUnitWatch c, s, _ => execFenceUnitWatch_keeps c s
  | .sqTailWrite h ring aligned8 value, s, _ => execSqTailWrite_keeps h ring aligned8 value s
  | .cqHeadWrite h ring aligned8 value, s, _ => execCqHeadWrite_keeps h ring aligned8 value s
  | .claimDescriptor h, s, _ => execClaimDescriptor_keeps h s
  | .irqDelayExpire h ring, s, _ => execIrqDelayExpire_keeps h ring s
  | .opHandout h sw q, s, _ => execOpHandout_keeps h sw q s
  | .opReady h sw q idx, s, _ => execOpReady_keeps h sw q idx s
  | .opRetire h sw q, s, _ => execOpRetire_keeps h sw q s
  | .tile h sw, s, _ => execTile_keeps h sw s
  | .splitPartialAdd h sw set, s, _ => execSplitPartialAdd_keeps h sw set s
  | .fetch h sw q, s, _ => execFetch_keeps h sw q s
  | .store h sw q, s, _ => execStore_keeps h sw q s
  | .smMax h sw, s, _ => execSmMax_keeps h sw s
  | .smExp h sw, s, _ => execSmExp_keeps h sw s
  | .smMerge h sw, s, _ => execSmMerge_keeps h sw s
  | .smNorm h sw, s, _ => execSmNorm_keeps h sw s
  | .rmsnorm h sw, s, _ => execRmsnorm_keeps h sw s
  | .layernorm h sw, s, _ => execLayernorm_keeps h sw s
  | .silu h sw, s, _ => execSilu_keeps h sw s
  | .geluTanh h sw, s, _ => execGeluTanh_keeps h sw s
  | .swiglu h sw, s, _ => execSwiglu_keeps h sw s
  | .relu h sw, s, _ => execRelu_keeps h sw s
  | .rope h sw, s, _ => execRope_keeps h sw s
  | .scale h sw, s, _ => execScale_keeps h sw s
  | .ewAdd h sw, s, _ => execEwAdd_keeps h sw s
  | .ewMul h sw, s, _ => execEwMul_keeps h sw s
  | .topk h sw, s, _ => execTopk_keeps h sw s
  | .convert h sw, s, _ => execConvert_keeps h sw s
  | .psumAdd h sw, s, _ => execPsumAdd_keeps h sw s
  | .psumPair h sw, s, _ => execPsumPair_keeps h sw s
  | .ctrInit rq k v, s, _ => execCtrInit_keeps rq k v s
  | .flagInit rq k v, s, _ => execFlagInit_keeps rq k v s
  | .lockInit rq k v, s, _ => execLockInit_keeps rq k v s
  | .drop rq k v, s, _ => execDrop_keeps rq k v s
  | .ctrAdd rq k v, s, _ => execCtrAdd_keeps rq k v s
  | .ctrArrive rq k v, s, _ => execCtrArrive_keeps rq k v s
  | .ctrWait rq k v, s, _ => execCtrWait_keeps rq k v s
  | .ctrSet rq k v, s, _ => execCtrSet_keeps rq k v s
  | .flagSet rq k v, s, _ => execFlagSet_keeps rq k v s
  | .flagClear rq k v, s, _ => execFlagClear_keeps rq k v s
  | .flagWait rq k v, s, _ => execFlagWait_keeps rq k v s
  | .lockTry rq k v, s, _ => execLockTry_keeps rq k v s
  | .lockTake rq k v, s, _ => execLockTake_keeps rq k v s
  | .lockRelease rq k v, s, _ => execLockRelease_keeps rq k v s
  | .lockBreak rq k v, s, _ => execLockBreak_keeps rq k v s
  | .claspRepresent idx, s, _ => execClaspRepresent_keeps idx s
  | .resetBackoffRetry t, s, _ => execResetBackoffRetry_keeps t s
  | .bindPrepare b, s, _ => execBindPrepare_keeps b s
  | .bindPrepared b, s, _ => execBindPrepared_keeps b s
  | .bindCommit b h, s, _ => execBindCommit_keeps b h s
  | .bindDone b, s, _ => execBindDone_keeps b s
  | .bindAbort b, s, _ => execBindAbort_keeps b s
  | .bindPrepareTimeout b h, s, _ => execBindPrepareTimeout_keeps b h s
  | .bindFinishFromLog b, s, _ => execBindFinishFromLog_keeps b s
  | .laneLockRetry st, s, _ => execLaneLockRetry_keeps st s
  | .walkItemEmit st, s, _ => execWalkItemEmit_keeps st s
  | .leafAttend h sw, s, _ => execLeafAttend_keeps h sw s
  | .leafAppend h sw, s, _ => execLeafAppend_keeps h sw s
  | .leafMove h sw, s, _ => execLeafMove_keeps h sw s
  | .leafGather h sw, s, _ => execLeafGather_keeps h sw s
  | .boardSendRows st, s, _ => execBoardSendRows_keeps st s
  | .partialArrive st idx, s, _ => execPartialArrive_keeps st idx s
  | .mergeForward st h sw, s, _ => execMergeForward_keeps st h sw s
  | .stepDecide st, s, _ => execStepDecide_keeps st s
  | .stepRunVoid st, s, _ => execStepRunVoid_keeps st s
  | .stepTimeout st, s, _ => execStepTimeout_keeps st s
  | .pinRequest st up, s, _ => execPinRequest_keeps st up s
  | .writebackCopiesDone v, s, _ => execWritebackCopiesDone_keeps v s
  | .leafStaged v idx, s, _ => execLeafStaged_keeps v idx s
  | .resumeEligible v, s, _ => execResumeEligible_keeps v s
  | .parkNearReleased v, s, _ => execParkNearReleased_keeps v s
  | .shelveLeavesCommitted v pair, s, _ => execShelveLeavesCommitted_keeps v pair s
  | .volSend slot, s, _ => execVolSend_keeps slot s
  | .volAccept slot, s, _ => execVolAccept_keeps slot s
  | .volAcceptTimeout slot, s, _ => execVolAcceptTimeout_keeps slot s
  | .volTransferPreamble p, s, _ => execVolTransferPreamble_keeps p s
  | .volTransferLeaf v idx fill bytes poison, s, _ => execVolTransferLeaf_keeps v idx fill bytes poison s
  | .mgmtSend slot, s, _ => execMgmtSend_keeps slot s
  | .mgmtSendTimeout slot, s, _ => execMgmtSendTimeout_keeps slot s
  | .dmaMove h ch, s, _ => execDmaMove_keeps h ch s
  | .dmaLoop h ch, s, _ => execDmaLoop_keeps h ch s
  | .dmaWait h ch, s, _ => execDmaWait_keeps h ch s
  | .dmaSignal h ch, s, _ => execDmaSignal_keeps h ch s
  | .dmaEnd h ch, s, _ => execDmaEnd_keeps h ch s
  | .dmaBurst h, s, _ => execDmaBurst_keeps h s
  | .dmaWritesAnswered h ch, s, _ => execDmaWritesAnswered_keeps h ch s
  | .vestAccess h r, s, _ => execVestAccess_keeps h r s
  | .vestRecall space unit by_ write whole, s, _ => execVestRecall_keeps space unit by_ write whole s
  | .evict h, s, _ => execEvict_keeps h s
  | .unkeep h, s, _ => execUnkeep_keeps h s
  | .modeWrite h sw page w, s, _ => execModeWrite_keeps h sw page w s
  | .bankAccessesDrained h sw l b, s, _ => execBankAccessesDrained_keeps h sw l b s
  | .landingCmdWrite h sw page slot off bytes, s, _ => execLandingCmdWrite_keeps h sw page slot off bytes s
  | .windowWrite h sw page off bytes, s, _ => execWindowWrite_keeps h sw page off bytes s
  | .windowWriteApply h sw l, s, _ => execWindowWriteApply_keeps h sw l s
  | .score h sw l, s, _ => execScore_keeps h sw l s
  | .valueAcc h sw l, s, _ => execValueAcc_keeps h sw l s
  | .attend h sw l, s, _ => execAttend_keeps h sw l s
  | .accClear h sw l, s, _ => execAccClear_keeps h sw l s
  | .readout h sw l, s, _ => execReadout_keeps h sw l s
  | .fill h sw l, s, _ => execFill_keeps h sw l s
  | .copy h sw l, s, _ => execCopy_keeps h sw l s
  | .pack h sw l, s, _ => execPack_keeps h sw l s
  | .unpack h sw l, s, _ => execUnpack_keeps h sw l s
  | .chunkBoundary h sw l, s, _ => execChunkBoundary_keeps h sw l s
  | .refreshDue h sw l b, s, _ => execRefreshDue_keeps h sw l b s
  | .nearLineRequest h sw r, s, _ => execNearLineRequest_keeps h sw r s
  | .layoutApply h w, s, _ => execLayoutApply_keeps h w s
  | .layoutReinitDone h sw, s, _ => execLayoutReinitDone_keeps h sw s
  | .scrubStep h sw, s, _ => execScrubStep_keeps h sw s
  | .parkScrubStep ctl, s, _ => execParkScrubStep_keeps ctl s
  | .layerLost h l, s, _ => execLayerLost_keeps h l s
  | .errorEvent e, s, _ => execErrorEvent_keeps e s
  | .parkPkgFail p retrained, s, _ => execParkPkgFail_keeps p retrained s
  | .unitFence t, s, _ => execUnitFence_keeps t s
  | .adoptionComplete h sw, s, _ => execAdoptionComplete_keeps h sw s
  | .resdescPublish, s, _ => execResdescPublish_keeps s
  | .housekeepingRound r, s, _ => execHousekeepingRound_keeps r s
  | .dStepSlot, s, _ => execDStepSlot_keeps s
  | .coolantWindow, s, _ => execCoolantWindow_keeps s
  | .inputSample mv ma, s, _ => execInputSample_keeps mv ma s
  | .startGateOpen, s, _ => execStartGateOpen_keeps s
  | .railPgoodTimeout r, s, _ => execRailPgoodTimeout_keeps r s
  | .porterRelease r slotStraps, s, _ => execPorterRelease_keeps r slotStraps s
  | .handOff, s, _ => execHandOff_keeps s
  | .enableFall, s, _ => execEnableFall_keeps s
  | .inputLoss, s, _ => execInputLoss_keeps s
  | .railPgoodLoss r, s, _ => execRailPgoodLoss_keeps r s
  | .pllLockLoss h, s, _ => execPllLockLoss_keeps h s
  | .refLost, s, _ => execRefLost_keeps s
  | .warmResetRequest w, s, _ => execWarmResetRequest_keeps w s
  | .hallComputeReset h w, s, _ => execHallComputeReset_keeps h w s
  | .usherHeartbeatMiss h u, s, _ => execUsherHeartbeatMiss_keeps h u s
  | .computeFaultReport h, s, _ => execComputeFaultReport_keeps h s
  | .stairwellReset h w, s, _ => execStairwellReset_keeps h w s
  | .meshPacket h e, s, _ => execMeshPacket_keeps h e s
  | .ringPacket h cw, s, _ => execRingPacket_keeps h cw s
  | .meshBroadcast h p, s, _ => execMeshBroadcast_keeps h p s
  | .ringBroadcast h mask p, s, _ => execRingBroadcast_keeps h mask p s
  | .ageTick, s, _ => execAgeTick_keeps s
  | .ringReroute, s, _ => execRingReroute_keeps s
  | .ucieFlitResend h link o, s, _ => execUcieFlitResend_keeps h link o s
  | .fabPortEnable h en, s, _ => execFabPortEnable_keeps h en s
  | .fabPortRetrain h, s, _ => execFabPortRetrain_keeps h s
  | .fabDownRetry h, s, _ => execFabDownRetry_keeps h s
  | .fecLock h lanes, s, _ => execFecLock_keeps h lanes s
  | .trainTimeout h, s, _ => execTrainTimeout_keeps h s
  | .helloTimeout h, s, _ => execHelloTimeout_keeps h s
  | .helloSend h, s, _ => execHelloSend_keeps h s
  | .hello h p, s, _ => execHello_keeps h p s
  | .portFault h c, s, _ => execPortFault_keeps h c s
  | .linkReplay h linkSeq, s, _ => execLinkReplay_keeps h linkSeq s
  | .data h p, s, _ => execData_keeps h p s
  | .ack h p, s, _ => execAck_keeps h p s
  | .ackTimer h strm, s, _ => execAckTimer_keeps h strm s
  | .retransmitTimer h dst strm seq, s, _ => execRetransmitTimer_keeps h dst strm seq s
  | .fabricForward h p, s, _ => execFabricForward_keeps h p s
  | .mgmtForward h p, s, _ => execMgmtForward_keeps h p s
  | .claimSend, s, _ => execClaimSend_keeps s
  | .claim h p, s, _ => execClaim_keeps h p s
  | .managerElected, s, _ => execManagerElected_keeps s
  | .heartbeatSend, s, _ => execHeartbeatSend_keeps s
  | .heartbeat h p, s, _ => execHeartbeat_keeps h p s
  | .heartbeatLoss, s, _ => execHeartbeatLoss_keeps s
  | .query h link p, s, _ => execQuery_keeps h link p s
  | .assignId h link p, s, _ => execAssignId_keeps h link p s
  | .routeWrite h link p, s, _ => execRouteWrite_keeps h link p s
  | .wclSet h link p, s, _ => execWclSet_keeps h link p s
  | .report a, s, _ => execReport_keeps a s
  | .fabStreamCfgWrite h w, s, _ => execFabStreamCfgWrite_keeps h w s
  | .ringCfgWrite h r w, s, _ => execRingCfgWrite_keeps h r w s
  | .dmaChCfgWrite h w, s, _ => execDmaChCfgWrite_keeps h w s
  | .tierCfgWrite r w, s, _ => execTierCfgWrite_keeps r w s
  | .fardecWrite r w, s, _ => execFardecWrite_keeps r w s
  | .portaWinWrite r w, s, _ => execPortaWinWrite_keeps r w s
  | .errlogCfgWrite r w, s, _ => execErrlogCfgWrite_keeps r w s
  | .errlogHeadWrite w, s, _ => execErrlogHeadWrite_keeps w s
  | .peakClear w, s, _ => execPeakClear_keeps w s
  | .portaIrq w, s, _ => execPortaIrq_keeps w s
  | .mailboxWrite off size value, s, _ => execMailboxWrite_keeps off size value s
  | .portaLinkChange perst width gen, s, _ => execPortaLinkChange_keeps perst width gen s
  | .portbLinkLoss, s, _ => execPortbLinkLoss_keeps s
  | .pbPerstRelease, s, _ => execPbPerstRelease_keeps s
  | .cableInsert h watts, s, _ => execCableInsert_keeps h watts s
  | .calOpRead, s, _ => execCalOpRead_keeps s
  | .calOpWrite, s, _ => execCalOpWrite_keeps s
  | .calOpClear, s, _ => execCalOpClear_keeps s
  | .calRestoreFactory, s, _ => execCalRestoreFactory_keeps s
  | .fwupdStage, s, _ => execFwupdStage_keeps s
  | .fwupdCommit classes, s, _ => execFwupdCommit_keeps classes s
  | .entdaa word addr, s, _ => execEntdaa_keeps word addr s
  | .rstdaa, s, _ => execRstdaa_keeps s
  | .enec events, s, _ => execEnec_keeps events s
  | .disec events, s, _ => execDisec_keeps events s
  | .setmwl n, s, _ => execSetmwl_keeps n s
  | .getmwl, s, _ => execGetmwl_keeps s
  | .setmrl n, s, _ => execSetmrl_keeps n s
  | .getmrl, s, _ => execGetmrl_keeps s
  | .getpid, s, _ => execGetpid_keeps s
  | .getbcr, s, _ => execGetbcr_keeps s
  | .getdcr, s, _ => execGetdcr_keeps s
  | .getstatus, s, _ => execGetstatus_keeps s
  | .responseRead, s, _ => execResponseRead_keeps s
  | .mctpPacket t bytes, s, _ => execMctpPacket_keeps t bytes s
  | .readPage args, s, _ => execReadPage_keeps args s
  | .alertAck args, s, _ => execAlertAck_keeps args s
  | .calRead args, s, _ => execCalRead_keeps args s
  | .calWrite args, s, _ => execCalWrite_keeps args s
  | .calClear args, s, _ => execCalClear_keeps args s
  | .restoreFactory args, s, _ => execRestoreFactory_keeps args s
  | .warmReset args, s, _ => execWarmReset_keeps args s
  | .fwCommit args, s, _ => execFwCommit_keeps args s
  | .ibiRequest acked, s, _ => execIbiRequest_keeps acked s
  | .getVersion t req, s, _ => execGetVersion_keeps t req s
  | .getCapabilities t req, s, _ => execGetCapabilities_keeps t req s
  | .negotiateAlgorithms t req, s, _ => execNegotiateAlgorithms_keeps t req s
  | .getDigests t req, s, _ => execGetDigests_keeps t req s
  | .getCertificate t req, s, _ => execGetCertificate_keeps t req s
  | .challenge t req, s, _ => execChallenge_keeps t req s
  | .getMeasurements t req, s, _ => execGetMeasurements_keeps t req s
  | .registerWrite offset size value, s, _ => execRegisterWrite_keeps offset size value s
  | .computeResetRelease h e, s, _ => execComputeResetRelease_keeps h e s
  | .vestMaintDone h, s, _ => execVestMaintDone_keeps h s
  | .calCommandDone flashOk, s, _ => execCalCommandDone_keeps flashOk s
  | .fwupdDone flashOk, _, h => absurd rfl (h flashOk)
  | .mgmtReply h p, s, _ => execMgmtReply_keeps h p s
  | .portbLinkUp width gen cxl, s, _ => execPortbLinkUp_keeps width gen cxl s
  | .linkControlWord h ackedSeq credits, s, _ => execLinkControlWord_keeps h ackedSeq credits s
  | .commandFrameRefused frame, s, _ => execCommandFrameRefused_keeps frame s

/-- Every command keeps what `Keeps` names but for the fuses, and takes those only onward (R453). -/
theorem exec_keeps_but_fuses (c : Instr) (s : State) : Gives c s fun t =>
    s.porter.fuses.Onward t.porter.fuses ∧ Keeps s { t with porter := { t.porter with fuses := s.porter.fuses } } := by
  by_cases h : ∃ b, c = .fwupdDone b
  · obtain ⟨b, rfl⟩ := h
    exact execFwupdDone_onward b s
  · obtain ⟨t, e, k⟩ := exec_keeps c s (not_exists.mp h)
    exact ⟨t, e, kept_onward k⟩

/-- Settles O17: a command that keeps all but the fuses keeps the clock and the queue, what was sent and the free values
drawn. -/
theorem commandsOnlyAddToWhatWasSent : Obligations.CommandsOnlyAddToWhatWasSent := by
  intro c s
  obtain ⟨t, e, -, k⟩ := exec_keeps_but_fuses c s
  exact ⟨t, e, k.out, k.now, k.pending, k.fresh⟩

end Sys2Proof.Machine
end

section
/-! Fences by the device and by FENCE_UNIT: one equation per unit fenced and per operation (R389, R391, R392, Table 14.4,
Table 14.5). -/

namespace Sys2Proof.Machine

/-! ### UNIT_FENCE with the porter running -/

section
variable {s : State} (up : s.porterUp = true)
include up

/-- While the porter runs, a command that it ignores when down answers its other branch. -/
theorem next_of_porterUp (t : State) : (.next (if !s.porterUp then s else t) : Result) = .next t := by
  rw [up]
  rfl

theorem unitFence_stairwell (h : HallId) (sw : SwId) :
    exec (.unitFence (.stairwell h sw)) s = .next (settle (fenceStair s h sw false)) := next_of_porterUp up _

theorem unitFence_landing (h : HallId) (sw : SwId) (l : LayerId) :
    exec (.unitFence (.landing h sw l)) s = .next (settle (fenceLanding s h sw l)) := next_of_porterUp up _

theorem unitFence_usher (h : HallId) (u : UsherId) :
    exec (.unitFence (.usher h u)) s = .next (fenceUsher s h u false) := next_of_porterUp up _

theorem unitFence_slice (h : HallId) (i : Fin 96) :
    exec (.unitFence (.slice h i)) s = .next (retireSlice s h i) := next_of_porterUp up _

/-- The causes of Table 1.9 that the device itself gives: all but 4, which is software's. -/
theorem unitFence_hall (h : HallId) {cause : Nat} (hc : 1 ≤ cause ∧ cause ≤ 7 ∧ cause ≠ 4) :
    exec (.unitFence (.hall h cause)) s = .next (fenceHall s h cause) :=
  (next_of_porterUp up _).trans (congrArg Host.Outcome.next (if_pos hc))

theorem unitFence_core (c : Fin 24) : exec (.unitFence (.core c)) s = .next (fenceCore s c) := next_of_porterUp up _

end

/-! ### Adoption and publication -/

theorem adoptionComplete_orphan {s : State} {h : HallId} {sw a : SwId} (adopter : (s.stair h sw).adopter = some a)
    (fenced : (s.stair h sw).fenced = true) (waits : (s.stair h sw).adopted = false) (runs : s.swRuns h a = true) :
    exec (.adoptionComplete h sw) s = .next
      (s.setStair h sw { s.stair h sw with adopted := true, adoptPub := false, selfRef := false }).publishDue := by
  change execAdoptionComplete h sw s = _
  simp only [execAdoptionComplete, adopter, fenced, waits, runs, Bool.not_false, Bool.and_self, if_true]

theorem resdescPublish_due {s : State} (runs : s.running = true) (due : s.porter.res.due = true) :
    exec .resdescPublish s = .next (publish s) :=
  congrArg Host.Outcome.next (if_pos (by rw [runs, due]; rfl))

theorem resdescPublish_not_due {s : State} (due : s.porter.res.due = false) : exec .resdescPublish s = .next s :=
  congrArg Host.Outcome.next (if_neg (by simp [due]))

/-! ### FENCE_UNIT of a claim that begins with a good body -/

section
variable {s : State} {c : Nat} {k : Claim} (b : Begins s c 0x50 k) (good : fenceBody k.desc = none)
include b good

theorem fenceUnitFence_begins (op : fuOp k.desc = 1) :
    exec (.fenceUnitFence c) s = .next
      (if fenceFound s k.desc then s.complete c 15 Status.ok (fencePart s true)
       else if fuKind k.desc = 2 ∧ ushersLeft s (fuHall k.desc) = 1 then
         s.complete c 15 Status.fenceLast (fencePart s false)
       else fenceApply (s.setStage c (.fencing false)) k.desc) := by
  change execFenceUnitFence c s = _
  unfold execFenceUnitFence
  rw [withClaim_begins b]
  simp only [good, op, ne_eq, not_true, if_false]

theorem fenceUnitWatch_begins (op : fuOp k.desc = 2) :
    exec (.fenceUnitWatch c) s = .next
      (if BitVec.ofNat 32 (fld k.desc 0x0C 0 32) ≠ s.porter.res.seq then
         s.complete c 15 Status.ok (fencePart s false)
       else if 16 ≤ watchers s then s.complete c 15 Status.watchFull (fencePart s false)
       else s.setStage c (.watch (fld k.desc 0x0C 0 32))) := by
  change execFenceUnitWatch c s = _
  unfold execFenceUnitWatch
  rw [withClaim_begins b]
  simp only [good, op, ne_eq, not_true, if_false]

end

/-- Settles O50: each clause is a branch of the equation of its command. -/
theorem fencesAndPublication : Obligations.FencesAndPublication := by
  intro s
  refine ⟨fun up => ⟨unitFence_stairwell up, unitFence_landing up, unitFence_usher up, unitFence_slice up,
      fun h cause hc => unitFence_hall up h ?_, unitFence_core up⟩,
    fun h sw a => adoptionComplete_orphan, resdescPublish_due, resdescPublish_not_due,
    fun c k b good => ⟨fun op => ?_, fun op => ?_⟩⟩
  · simp only [List.mem_cons, List.not_mem_nil, or_false] at hc
    omega
  · rw [fenceUnitFence_begins b good op]
    refine ⟨fun found => by rw [if_pos found], fun lost kind last => ?_, fun lost other => ?_⟩
    · rw [if_neg (by simp [lost]), if_pos ⟨kind, last⟩]
    · rw [if_neg (by simp [lost]), if_neg (not_and_or.mpr other)]
  · rw [fenceUnitWatch_begins b good op]
    refine ⟨fun older => by rw [if_pos older], fun current room => ?_, fun current full => ?_⟩
    · rw [if_neg (not_not.mpr current), if_neg (Nat.not_le.mpr room)]
    · rw [if_neg (not_not.mpr current), if_pos full]

end Sys2Proof.Machine
end

section
/-! The form of the memory along a step (R39, R98, R383, log entry 7). -/

namespace Sys2Proof.Machine

/-- Every command keeps the canonical form of the memory. -/
theorem exec_keeps_memWf {c : Instr} {s t : State} (e : exec c s = .next t) (wf : Memory.wf s.mem = true) :
    Memory.wf t.mem = true := by
  obtain ⟨u, hu, -, k⟩ := exec_keeps_but_fuses c s
  rw [e] at hu
  cases hu
  exact k.mem wf

/-- Settles O13: a step is a reference edge, which leaves the memory, or the front command, which keeps its form. -/
theorem memoryFormIsKept : Obligations.MemoryFormIsKept := by
  intro s t wf e
  unfold step at e
  split at e
  · cases e
    exact wf
  · exact exec_keeps_memWf e wf

end Sys2Proof.Machine
end

section
/-! Work of a stairwell's press and vector engine: the relation "only the stairwell, the steps and bytes of its own SRAM
differ", and how it goes through strands, accumulator sets, split chains, the drain and the kernels' rows (R40, R49, R51,
R61, Table 2.8). -/

namespace Sys2Proof.Machine

/-- `b` differs from `a` at most in stairwell `w` of hall `h`, in the steps, in bytes of that stairwell's SRAM and in marks. -/
structure StairDiffers (h w : Nat) (a b : State) : Prop where
  rest   : b = { a with stairs := b.stairs, steps := b.steps, mem := b.mem, poison := b.poison }
  others : ∀ k v, swKey k v ≠ swKey h w → b.stair k v = a.stair k v
  bytes  : ∀ (g : Region) (i : Nat), g.number % 8192 ≠ (Region.sram h w).number % 8192 → b.byte g i = a.byte g i

/-- Cells of regions whose numbers differ modulo 8192 differ. -/
theorem memKey_ne {r g : Region} (n : g.number % 8192 ≠ r.number % 8192) (a b : Nat) : memKey r a ≠ memKey g b := by
  unfold memKey
  omega

theorem sram_number_lt (h : HallId) (sw : SwId) : (Region.sram h sw).number < 8192 := by
  simp only [Region.number, swKey]
  omega

/-! ### The updates of a state -/

namespace StairDiffers

variable {h w : Nat} {a b s t : State}

theorem refl : StairDiffers h w a a := ⟨rfl, fun _ _ _ => rfl, fun _ _ _ => rfl⟩

theorem trans {c : State} (x : StairDiffers h w a b) (y : StairDiffers h w b c) : StairDiffers h w a c :=
  ⟨by rw [y.rest, x.rest], fun k v n => (y.others k v n).trans (x.others k v n),
    fun g i n => (y.bytes g i n).trans (x.bytes g i n)⟩

theorem setStair {x : Stairwell} (d : StairDiffers h w a s) : StairDiffers h w a (s.setStair h w x) :=
  d.trans ⟨rfl, fun _ _ n => State.stair_setStair_ne s x n.symm, fun _ _ _ => rfl⟩

theorem modStair {f : Stairwell → Stairwell} (d : StairDiffers h w a s) : StairDiffers h w a (s.modStair h w f) :=
  d.setStair

theorem setQueue {q : Nat} {x : OpQueue} (d : StairDiffers h w a s) : StairDiffers h w a (s.setQueue h w q x) :=
  d.modStair

theorem setAcc {i : Nat} {x : AccSet} (d : StairDiffers h w a s) : StairDiffers h w a (s.setAcc h w i x) := d.modStair

theorem setSteps {x : Sparse Step} (d : StairDiffers h w a s) : StairDiffers h w a { s with steps := x } :=
  d.trans ⟨rfl, fun _ _ _ => rfl, fun _ _ _ => rfl⟩

theorem setPoison {r : Region} {u : Nat} {p : Bool} (d : StairDiffers h w a s) : StairDiffers h w a (s.setPoison r u p) :=
  d.trans ⟨rfl, fun _ _ _ => rfl, fun _ _ _ => rfl⟩

theorem write {n : Nat} {l : List Byte} {p : Bool} (d : StairDiffers h w a s) :
    StairDiffers h w a (s.write (.sram h w) n l p) :=
  d.trans ⟨rfl, fun _ _ _ => rfl, fun g i n => State.write_byte_ne s _ g _ i l p fun _ _ => memKey_ne n _ _⟩

theorem ite {c : Prop} [Decidable c] (d : StairDiffers h w a s) (k : StairDiffers h w a t) :
    StairDiffers h w a (if c then s else t) := by
  split
  · exact d
  · exact k

/-- A further change that is made only when `c` holds. -/
theorem further {c : Prop} [Decidable c] (d : StairDiffers h w a s) (k : StairDiffers h w s t) :
    StairDiffers h w a (if c then t else s) := .ite (d.trans k) d

theorem foldl {α : Type} {f : State → α → State} (hf : ∀ s x, StairDiffers h w s (f s x)) :
    ∀ (l : List α) {s : State}, StairDiffers h w a s → StairDiffers h w a (l.foldl f s)
  | [], _, d => d
  | x :: l, s, d => foldl hf l (d.trans (hf s x))

theorem poisonRange {r : Region} {lo hi : Nat} (d : StairDiffers h w a s) : StairDiffers h w a (s.poisonRange r lo hi) :=
  foldl (fun _ _ => refl.setPoison) _ d

/-! ### Strands and the step that they work for (Table 2.11, Table 2.12) -/

theorem freeSets {q : Nat} (d : StairDiffers h w a s) : StairDiffers h w a (freeSets s h w q) :=
  foldl (fun _ _ => .ite refl.setAcc refl) _ d

theorem strandTo {q i : Nat} {st : StrandState} (d : StairDiffers h w a s) : StairDiffers h w a (strandTo s h w q i st) := by
  unfold Machine.strandTo
  dsimp only
  split
  · exact d
  · exact d.setQueue

theorem strandDone {q i : Nat} (d : StairDiffers h w a s) : StairDiffers h w a (strandDone s h w q i) :=
  .ite d.strandTo.freeSets d.strandTo

theorem notePoison {st : Option Nat} {i : Nat} (d : StairDiffers h w a s) : StairDiffers h w a (notePoison s st i) := by
  unfold Machine.notePoison
  split
  · exact d
  · split
    · exact d
    · exact .ite d d.setSteps

/-! ### The press: split chains, the drain and TILE (R45, R48, R49) -/

theorem splitDrain {x : AccSet} (d : StairDiffers h w a s) : StairDiffers h w a (splitDrain s h w x).1 := by
  unfold Machine.splitDrain
  split
  · exact d.write
  · exact d

theorem addPair {i : Nat} (d : StairDiffers h w a s) : StairDiffers h w a (addPair s h w i) := by
  unfold Machine.addPair
  dsimp only
  split
  · exact d.write.setAcc
  · exact d

theorem addAll {i : Nat} : ∀ (n : Nat) {s : State}, StairDiffers h w a s → StairDiffers h w a (addAll n s h w i)
  | 0, _, d => d
  | n + 1, _, d => .ite (addAll n d.addPair) d

theorem joinPieces {i st op : Nat} (d : StairDiffers h w a s) : StairDiffers h w a (joinPieces s h w i st op) :=
  .ite d d.setAcc

theorem finalSum {i : Nat} (d : StairDiffers h w a s) : StairDiffers h w a (finalSum s h w i) := by
  unfold Machine.finalSum
  dsimp only
  split
  · exact d
  · exact d.setAcc

theorem writeC {op : Rec64} {rows : List (List Byte)} {p : Bool} (d : StairDiffers h w a s) :
    StairDiffers h w a (writeC s h w op rows p) :=
  .further (.foldl (fun _ _ => .write .refl) _ d) (.poisonRange .refl)

theorem tileDrain {q : Nat} {x : Strand} (d : StairDiffers h w a s) : StairDiffers h w a (tileDrain s h w q x) :=
  (addAll 16 d.joinPieces).finalSum.writeC

theorem tileAcc {op : Rec64} {p : Bool} (d : StairDiffers h w a s) : StairDiffers h w a (tileAcc s h w op p) := by
  unfold Machine.tileAcc
  dsimp only
  split
  · exact d.setAcc
  · exact d.splitDrain.setAcc

theorem runTile {q i : Nat} {x : Strand} (d : StairDiffers h w a s) : StairDiffers h w a (runTile s h w q i x) := by
  refine .strandDone (.further (.further (.ite ?whole ?inSet) (.setAcc .refl)) (.notePoison .refl))
  case whole => exact .writeC d.modStair
  case inSet => exact .further (.tileAcc d.modStair) (.tileDrain .refl)

/-! ### The vector engine (R51, R61, Table 2.8) -/

theorem kernelStore {q : Nat} {x : Strand} {p : Bool} {rows : List (List Byte × List Byte)} (d : StairDiffers h w a s) :
    StairDiffers h w a (KernelRun.store { h := h, sw := w, q := q, t := x } s p rows) :=
  .further (.foldl (fun _ _ => have dst := .ite .refl (.write .refl); .ite dst dst.write) _ d)
    (.foldl (fun _ _ => .further .refl (.poisonRange .refl)) _ .refl)

theorem kernelFinish {q i : Nat} {x : Strand} {p : Bool} (d : StairDiffers h w a s) :
    StairDiffers h w a (KernelRun.finish { h := h, sw := w, q := q, t := x } s i p) :=
  .strandDone (.further d.modStair (.notePoison .refl))

theorem vectorEngine {kop : Nat} {rows : KernelRun → State → Nat → List Byte × List Byte} (d : StairDiffers h w a s) :
    StairDiffers h w a (vectorEngine s h w kop rows) := by
  unfold Machine.vectorEngine
  dsimp only
  split
  · split
    · exact d
    · split
      · exact d
      · exact .ite d.kernelStore.kernelFinish d
  · exact d

end StairDiffers

/-! ### The commands -/

section
variable {h : HallId} {sw : SwId} {s : State}

theorem kernel_differs {c : Instr} {kop : Nat} {rows : KernelRun → State → Nat → List Byte × List Byte}
    (e : exec c s = .next (vectorEngine s h sw kop rows)) : Gives c s (StairDiffers h sw s) :=
  ⟨_, e, .vectorEngine .refl⟩

theorem tile_differs : Gives (.tile h sw) s (StairDiffers h sw s) := by
  refine ⟨_, rfl, ?_⟩
  split
  · split
    · exact .refl
    · split
      · exact .refl
      · exact .ite .refl (.runTile .refl)
  · exact .refl

theorem splitPartialAdd_differs (a : AccId) : Gives (.splitPartialAdd h sw a) s (StairDiffers h sw s) :=
  ⟨_, rfl, .further .refl (.addPair .refl)⟩

theorem StairBecomes.self {a b : State} {h w : Nat} {x : Stairwell} (k : StairBecomes a b h w x) :
    StairBecomes a b h w (b.stair h w) := by
  rw [k.this]
  exact k

theorem opReady_stairBecomes (q : QueueId) (i : Fin 32) :
    Gives (.opReady h sw q i) s fun t => StairBecomes s t h sw (t.stair h sw) := by
  refine ⟨_, rfl, ?_⟩
  have unchanged := StairBecomes.refl s h sw
  unfold makeReady
  split
  · dsimp only
    split
    · exact unchanged
    · split
      · exact ((unchanged.mod _).mod _).self
      · exact (unchanged.mod _).self
  · exact unchanged

theorem opRetire_stairBecomes (q : QueueId) :
    Gives (.opRetire h sw q) s fun t => StairBecomes s t h sw (t.stair h sw) := by
  refine ⟨_, rfl, ?_⟩
  have unchanged := StairBecomes.refl s h sw
  split
  · unfold retireOp
    dsimp only
    split
    · split
      · exact (unchanged.mod _).self
      · exact unchanged
    · exact unchanged
  · exact unchanged

end

/-- Settles O34: kernels, TILE and SPLIT_PARTIAL_ADD are made of updates of the stairwell, of the steps, of marks and of
writes to the SRAM; every memory's number is below 8192, so a cell of another memory is another cell. -/
theorem stairwellFrame : Obligations.StairwellFrame := by
  intro h sw c s
  refine ⟨fun hc => ?_, fun q i => ⟨opReady_stairBecomes q i, opRetire_stairBecomes q⟩⟩
  have works : Gives c s (StairDiffers h sw s) := by
    simp only [List.mem_cons, List.not_mem_nil, or_false] at hc
    obtain (rfl | rfl | rfl | rfl | rfl | rfl | rfl | rfl | rfl | rfl | rfl | rfl | rfl | rfl | rfl | rfl | rfl | rfl |
      rfl) | ⟨a, rfl⟩ := hc
    iterate 18 exact kernel_differs rfl
    · exact tile_differs
    · exact splitPartialAdd_differs a
  obtain ⟨t, e, d⟩ := works
  refine ⟨t, e, fun g b small other => d.bytes g b ?_, d.others, d.rest⟩
  rwa [Nat.mod_eq_of_lt small, Nat.mod_eq_of_lt (sram_number_lt h sw)]

end Sys2Proof.Machine
end

section
/-! The sequencer, the press and the vector engine: one equation per command that runs (R43, R45, R49, R58, R59, R61, R62,
Table 2.8). -/

namespace Sys2Proof.Machine

/-! ### The sequencer -/

section
variable {h : HallId} {sw : SwId} {q : QueueId} {s : State} (runs : s.swRuns h sw = true)
include runs

section
variable {o : QueuedOp} {rest : List QueuedOp} (front : (s.queue h sw q).ops = o :: rest)
  (running : (s.queue h sw q).state = .running) (room : (s.queue h sw q).strands.length < 32)
include front running room

theorem opHandout_passes (passes : handoutStatus s h sw q o = none) :
    exec (.opHandout h sw q) s = .next (s.setQueue h sw q { s.queue h sw q with
      ops := rest, strands := (s.queue h sw q).strands ++
        [{ op := o.op, idx := o.idx, poison := o.poison, state := .waiting }] }) := by
  change Host.Outcome.next (handout s h sw q) = _
  simp only [handout, front, runs, running, room, passes, beq_self_eq_true, decide_true, Bool.and_self, if_true,
    Option.isSome_none, Bool.false_eq_true, if_false]

theorem opHandout_fails {st : Nat} (fails : handoutStatus s h sw q o = some st) :
    exec (.opHandout h sw q) s = .next (haltQueue (s.setQueue h sw q { s.queue h sw q with
      ops := rest, strands := (s.queue h sw q).strands ++
        [{ op := o.op, idx := o.idx, poison := o.poison, state := .halted }] }) h sw q st o.idx) := by
  change Host.Outcome.next (handout s h sw q) = _
  simp only [handout, front, runs, running, room, fails, beq_self_eq_true, decide_true, Bool.and_self, if_true,
    Option.isSome_some]

end

theorem opReady_ready {i : Fin 32} {t : Strand} (op : (s.queue h sw q).strands[i.val]? = some t)
    (free : canReady s h sw q i = true) :
    exec (.opReady h sw q i) s = .next
      (let s1 := s.setQueue h sw q { s.queue h sw q with
        strands := (s.queue h sw q).strands.set i.val { t with state := .ready, count := (s.queue h sw q).retired } }
      if opKind t.op = 0x01 ∧ tAcc t.op = 0 then
        s1.setAcc h sw (tSet t.op) (reserveSet q t.op (chainCuts s1 h sw q i t)) else s1) := by
  change Host.Outcome.next (makeReady s h sw q i) = _
  simp only [makeReady, runs, free, op, Bool.and_self, if_true]

theorem opRetire_oldest {t : Strand} {rest : List Strand} (oldest : (s.queue h sw q).strands = t :: rest) :
    exec (.opRetire h sw q) s = .next
      (if t.state = .done then s.setQueue h sw q { s.queue h sw q with
        strands := rest, retired := (s.queue h sw q).retired + 1 } else s) := by
  change Host.Outcome.next (if s.swRuns h sw then retireOp s h sw q else s) = _
  simp only [retireOp, runs, oldest, if_true]

end

/-- Settles O31: each clause is a branch of the equation of its command. -/
theorem sequencerMovesOps : Obligations.SequencerMovesOps := by
  intro h sw q s runs
  refine ⟨fun o rest front running room => ?_, fun i t op free => ?_, fun t rest oldest => ?_⟩
  · exact ⟨opHandout_passes runs front running room, fun _ => opHandout_fails runs front running room⟩
  · rw [opReady_ready runs op free]
    exact ⟨fun other => congrArg _ (if_neg other), fun starts => congrArg _ (if_pos starts)⟩
  · rw [opRetire_oldest runs oldest]
    exact ⟨fun done => by rw [if_pos done], fun busy => by rw [if_neg busy]⟩

/-! ### The press -/

section
variable {h : HallId} {sw : SwId} {s : State} (runs : s.swRuns h sw = true)
include runs

theorem tile_picked {q i : Nat} {t : Strand} (pick : unitPick s h sw (s.stair h sw).pressLast 0x01 = some (q, i))
    (op : (s.queue h sw q).strands[i]? = some t) :
    exec (.tile h sw) s = .next (if splitBlocked s h sw t.op then s else runTile s h sw q i t) := by
  change execTile h sw s = _
  simp only [execTile, runs, pick, op, if_true]

theorem splitPartialAdd_runs (a : AccId) : exec (.splitPartialAdd h sw a) s = .next (addPair s h sw a) :=
  congrArg Host.Outcome.next (if_pos runs)

end

/-- Settles O32: TILE is the branch of its equation that the slots of the split area choose, SPLIT_PARTIAL_ADD the sum of
one pair. -/
theorem pressRunsTiles : Obligations.PressRunsTiles := by
  intro h sw s runs
  refine ⟨fun q i t pick op => ?_, fun a base l i j area pair => ?_⟩
  · rw [tile_picked runs pick op]
    exact ⟨fun free => by rw [free]; rfl, fun blocked => by rw [blocked]; rfl⟩
  · rw [splitPartialAdd_runs runs]
    simp only [addPair, area, pair]

/-! ### The vector engine -/

/-- The kernel that the vector engine takes next runs when its opcode is the command's. -/
theorem vectorEngine_taken {h sw q i kop : Nat} {t : Strand} {s : State} (k : KernelTaken s h sw q i t)
    (op : kOp t.op = kop) (rows : KernelRun → State → Nat → List Byte × List Byte) :
    vectorEngine s h sw kop rows = kernelDone s h sw q i t rows := by
  simp only [vectorEngine, k.runs, k.added, k.pick, k.op, op, Bool.not_false, Bool.and_self, if_true]
  rfl

/-- Settles O33: each kernel command is the vector engine run with that kernel's opcode and rows. -/
theorem kernelsRun : Obligations.KernelsRun := by
  intro h sw q i t s k
  have ran {kop : Nat} {rows : KernelRun → State → Nat → List Byte × List Byte} (op : kOp t.op = kop) :
      (.next (vectorEngine s h sw kop rows) : Result) = .next (kernelDone s h sw q i t rows) :=
    congrArg _ (vectorEngine_taken k op rows)
  exact ⟨ran, ran, ran, ran, ran, ran, ran, ran, ran, ran, ran, ran, ran, ran, ran, ran, ran, ran⟩

end Sys2Proof.Machine
end

section
/-! The near-memory path and controller: one equation per command and outcome (R54, R55, R91, R95, R104, R121, R386,
R388). -/

namespace Sys2Proof.Machine

/-! ### FETCH and STORE -/

/-- The rows of op `d` moved between column `c` and the SRAM of stairwell `sw`, for a FETCH (kind 3) into the SRAM. -/
def nearMove (s : State) (h sw c kind : Nat) (d : Rec64) : State × Bool :=
  if kind == 0x03 then
    moveRows s (.column h c) (fCol d) (fColStride d) (.sram h sw) (fSram d) (fSramStride d) (fRows d) (fBytes d)
  else moveRows s (.sram h sw) (fSram d) (fSramStride d) (.column h c) (fCol d) (fColStride d) (fRows d) (fBytes d)

/-- The oldest READY op of a kind, `t`, on column `c`, is done on the near-memory path when the column is served and its
range of `n` bytes is free. -/
theorem nearPath_moves {h sw q kind i c n : Nat} {t : Strand} {s : State} (runs : s.swRuns h sw = true)
    (op : (s.queue h sw q).strands[i]? = some t) (column : (s.queue h sw q).col.getD sw = c)
    (length : (fRows t.op - 1) * fColStride t.op + fBytes t.op = n)
    (served : (s.queue h sw q).col = none ∨ s.colServed h c = true) (range : s.colRange h c (fCol t.op) n = true)
    (oldest : (s.queue h sw q).find (fun t => t.state == .ready && opKind t.op == kind) = some i)
    (free : s.colHeld h c (fCol t.op) n (!(kind == 0x03)) = false) :
    nearPath s h sw q kind =
      (let r := nearMove s h sw c kind t.op
       let u := touchBanks r.1 h c (fCol t.op) n
       strandDone (if r.2 then notePoison u (s.queue h sw q).step 0x3FFFF else u) h sw q i) := by
  have reached : ((s.queue h sw q).col.isSome && !s.colServed h c) = false := by
    rcases served with own | up
    · simp [own]
    · simp [up]
  simp only [nearPath, runs, oldest, op, column, length, reached, range, free, Bool.not_true, Bool.false_eq_true,
    if_false]
  rfl

/-! ### Accesses by a core -/

section
variable {h : HallId} {sw : SwId} {r : LineReq} {s : State}

theorem nearLineRequest_unserved (served : s.colServed h sw = false) :
    exec (.nearLineRequest h sw r) s = .next (s.emit (.accessFault false)) :=
  congrArg Host.Outcome.next (if_pos (by rw [served]; rfl))

variable (served : s.colServed h sw = true) (range : s.colRange h sw r.addr r.len = true)
  (free : s.colHeld h sw r.addr r.len r.write.isSome = false)
include served range free

theorem nearLineRequest_write {b : List Byte} (data : r.write = some b) (whole : b.length = r.len) :
    exec (.nearLineRequest h sw r) s =
      .next ((touchBanks s h sw r.addr r.len).write (.column h sw) r.addr b r.poison) := by
  rw [data] at free
  change execNearLineRequest h sw r s = _
  simp only [execNearLineRequest, served, range, free, data, whole, Bool.not_true, Bool.or_self, Bool.false_eq_true,
    if_false, if_true]

theorem nearLineRequest_read (data : r.write = none)
    (clean : (touchBanks s h sw r.addr r.len).poisonedAt (.column h sw) r.addr r.len = false) :
    exec (.nearLineRequest h sw r) s = .next ((touchBanks s h sw r.addr r.len).emit
      (.readData ((touchBanks s h sw r.addr r.len).read (.column h sw) r.addr r.len))) := by
  rw [data] at free
  change execNearLineRequest h sw r s = _
  simp only [execNearLineRequest, served, range, free, data, clean, Bool.not_true, Bool.or_self, Bool.false_eq_true,
    if_false]

end

/-! ### Set-up writes -/

/-- A set-up write acts while the hall's network domain answers and the module runs. -/
theorem State.hallWrite_runs {s : State} {h : Nat} (net : s.hallNet h = true) (running : s.running = true)
    (k : State → State) : s.hallWrite h k = k s := by
  simp only [State.hallWrite, net, running, Bool.not_true, Bool.false_eq_true, if_false]

/-! ### Scrubbing of columns and of the park tier -/

theorem scrubStep_within {h : HallId} {sw : SwId} {s : State} (ready : scrubReady s h sw = true)
    (within : (s.stair h sw).scrubAddr + 256 < columnEnd) (begun : (s.stair h sw).lastScrub.isSome = true)
    (clean : s.poisonedAt (.column h sw) (s.stair h sw).scrubAddr 256 = false) :
    exec (.scrubStep h sw) s = .next (scrubRegs (s.setStair h sw { s.stair h sw with
      scrubAddr := (s.stair h sw).scrubAddr + 256, lastScrub := some s.now }) h) := by
  change execScrubStep h sw s = _
  simp only [execScrubStep, ready, clean, begun, within, Bool.false_eq_true, if_false, if_true]

/-- A table in which a controller's count of units is below a lap does not end the lap. -/
theorem parkLap_goes_on (c : Fin 12) {t : Sparse Nat} (below : sget t 0 c < parkLapUnits) :
    allN 12 (fun k => sget t 0 k == parkLapUnits) = false := by
  simp only [allN, List.all_eq_false, List.mem_range, beq_iff_eq]
  exact ⟨c, c.isLt, below.ne⟩

theorem parkScrubStep_within {c : Fin 12} {a : Nat} {s : State} (on : s.porter.host.pscrubEn = true)
    (last : sfind s.porter.host.pscrubLast c = some a) (due : a + 100 ≤ s.now)
    (within : sget s.porter.host.pscrubAt 0 c + 1 < parkLapUnits) :
    exec (.parkScrubStep c) s = .next (s.modHost fun d => { d with
      pscrubAt := sset d.pscrubAt c (sget d.pscrubAt 0 c + 1), pscrubLast := sset d.pscrubLast c s.now }) := by
  have begun : s.porter.host.pscrubLast.isEmpty = false := by
    cases e : s.porter.host.pscrubLast with
    | nil => rw [e] at last; cases last
    | cons p l => rfl
  have passed : s.passed a 1 = true := decide_eq_true due
  have unfinished := parkLap_goes_on c (t := sset s.porter.host.pscrubAt c (sget s.porter.host.pscrubAt 0 c + 1))
    (by rwa [sget_sset_same])
  change execParkScrubStep c s = _
  simp only [execParkScrubStep, last, passed, begun, unfinished, Nat.min_eq_left within.le, Bool.and_true,
    Bool.false_eq_true, if_false]
  exact congrArg Host.Outcome.next (if_pos on)

/-- Settles O37: each clause is an equation of its command, or the branch that its hypotheses choose. -/
theorem nearMemoryAccesses : Obligations.NearMemoryAccesses := by
  intro h sw s
  refine ⟨fun q i t runs op served range => ⟨fun oldest free => ?_, fun oldest free => ?_⟩,
    fun r => ⟨nearLineRequest_unserved, fun served range free =>
      ⟨fun b => nearLineRequest_write served range free, nearLineRequest_read served range free⟩⟩,
    fun w net running => ?_, fun busy => ?_, scrubStep_within, fun c a on last due within => ?_⟩
  · exact congrArg Host.Outcome.next (nearPath_moves runs op rfl rfl served range oldest free)
  · exact congrArg Host.Outcome.next (nearPath_moves runs op rfl rfl served range oldest free)
  · exact congrArg Host.Outcome.next (State.hallWrite_runs net running _)
  · exact congrArg Host.Outcome.next (if_pos busy)
  · exact ⟨_, parkScrubStep_within on last due within, rfl, sget_sset_same _ _ _ _⟩

end Sys2Proof.Machine
end

section
/-! Landings: what a write to a window page reaches, what the command at the head of a queue does, and one equation per
command of the windows, of chunks and of refreshes (R105, R109 to R124, R163). -/

namespace Sys2Proof.Machine

/-! ### Window pages (R105, R109) -/

section
variable {s : State} {h sw : Nat} (served : s.colServed h sw = true) (k : State → Nat → State)
include served

/-- The page of a landing reaches that landing alone. -/
theorem windowAccess_own {page : Fin 16} {l : LayerId} (own : page.val = l.val) :
    windowAccess s h sw page k = k s l := by
  rw [windowAccess, if_pos served, pageLayers, own, if_pos l.isLt]
  rfl

/-- The broadcast page reaches all twelve landings. -/
theorem windowAccess_broadcast : windowAccess s h sw 15 k = (List.range 12).foldl k s := by
  rw [windowAccess, if_pos served]
  rfl

end

/-! ### The command at the head of a queue (R113 to R115, R121) -/

section
variable {s : State} {h sw l op kv : Nat} {d : Rec64} (code : lOp d = op) (run : State → Rec64 → Nat → State)
include code

theorem landCommand_ready (r : LandReady s h sw l d kv) :
    landCommand s h sw l op run = landDone (run s d kv) h sw l d := by
  obtain ⟨⟨rest, front⟩, served, whole, good, banks⟩ := r
  have works : ∀ m ∈ (landBanks d kv).map (s.landing h sw l).bank, m = .landing ∨ m = .leaving :=
    List.forall_mem_map.mpr banks
  have noneOrdinary : (((landBanks d kv).map (s.landing h sw l).bank).any fun m => m == .ordinary) = false :=
    List.any_eq_false.mpr fun m hm => by rcases works m hm with rfl | rfl <;> decide
  have noneEntering : ((landBanks d kv).map (s.landing h sw l).bank).any BankMode.entering? = false :=
    List.any_eq_false.mpr fun m hm => by rcases works m hm with rfl | rfl <;> decide
  simp only [landCommand, front, code, served, whole, good, noneOrdinary, noneEntering, and_self, if_true,
    Bool.false_eq_true, false_and, if_false]
  rfl

theorem landCommand_refused {ok : Bool} {rest : List LandItem} {st : Nat}
    (front : (s.landing h sw l).queue = .cmd d kv ok :: rest) (served : s.colServed h sw = true)
    (whole : (s.landing h sw l).failed = false) (bad : landStatus s h sw l d kv ok = some st) :
    landCommand s h sw l op run = skipUnknown 8 (s.modLanding h sw l fun x => x.doneWith d st) h sw l := by
  simp only [landCommand, front, code, served, whole, bad, and_self, if_true, Bool.false_eq_true, false_and, if_false]

end

/-- Settles O35: each command is the head of the queue run with that command's work; a status of R114 or R115 is its
only effect. -/
theorem landingCommandsRun : Obligations.LandingCommandsRun := by
  intro h sw l d kv s
  refine ⟨fun ready => ?_, fun ok rest st front served whole bad op =>
    congrArg Host.Outcome.next (landCommand_refused op _ front served whole bad)⟩
  have ran {op : Nat} {run : State → Rec64 → Nat → State} (code : lOp d = op) :
      (.next (landCommand s h sw l op run) : Result) = .next (landDone (run s d kv) h sw l d) :=
    congrArg Host.Outcome.next (landCommand_ready code run ready)
  exact ⟨ran, ran, ran, ran, ran, ran, ran, ran, ran⟩

/-! ### Mode windows and banks (R105, R109, R110) -/

section
variable {s : State} {h : HallId} {sw : SwId} {l : LayerId} (served : s.colServed h sw = true)
include served

theorem modeWrite_own {page : Fin 16} {w : Rec64} (own : page.val = l.val) (good : modeStatus w = none)
    (lives : (s.landing h sw l).retired = false) :
    exec (.modeWrite h sw page w) s = .next (s.setLanding h sw l ((s.landing h sw l).modeSet w)) := by
  change Host.Outcome.next (windowAccess s h sw page _) = _
  rw [windowAccess_own served _ own]
  simp only [State.modLanding, good, lives, Bool.false_eq_true, if_false]

theorem bankAccessesDrained_entering {b : BankId} {out : Bool} (entering : (s.landing h sw l).bank b = .entering out) :
    exec (.bankAccessesDrained h sw l b) s = .next (s.setLanding h sw l
      ((s.landing h sw l).setBank b (if out then .leaving else .landing)).leave) := by
  change execBankAccessesDrained h sw l b s = _
  simp only [execBankAccessesDrained, State.modLanding, served, entering, if_true]

/-! ### Command slots, query and mask windows (R111, R112) -/

theorem landingCmdWrite_own {page : Fin 16} {k : Fin 4} {off : Fin 64} {bytes : List Byte} (own : page.val = l.val)
    (fits : off.val + bytes.length ≤ 64) :
    exec (.landingCmdWrite h sw page k off bytes) s = .next (slotWrite s h sw l k off bytes) := by
  change Host.Outcome.next (if _ then windowAccess s h sw page _ else s) = _
  rw [if_pos fits, windowAccess_own served _ own]

theorem windowWrite_own {page : Fin 16} {off : Nat} {bytes : List Byte} (own : page.val = l.val)
    (range : windowRange off bytes.length = true) (room : (s.landing h sw l).buffered + bytes.length ≤ 16384) :
    exec (.windowWrite h sw page off bytes) s = .next (s.setLanding h sw l
      { s.landing h sw l with queue := (s.landing h sw l).queue ++ [.win off bytes] }) := by
  have roomy : ((pageLayers page).all fun l => (s.landing h sw l).buffered + bytes.length ≤ 16384) = true := by
    simpa [pageLayers, own] using room
  change Host.Outcome.next (if _ then windowAccess s h sw page _ else s) = _
  rw [range, roomy, Bool.and_self, if_pos rfl, windowAccess_own served _ own]
  rfl

theorem windowWriteApply_front {off : Nat} {bytes : List Byte} {rest : List LandItem}
    (front : (s.landing h sw l).queue = .win off bytes :: rest) :
    exec (.windowWriteApply h sw l) s = .next (skipUnknown 8 (s.setLanding h sw l
      { (s.landing h sw l).applyWin off bytes with queue := rest }) h sw l) := by
  change execWindowWriteApply h sw l s = _
  simp only [execWindowWriteApply, served, front, if_true]

/-! ### Chunks and refresh (R120 to R124) -/

theorem refreshDue_idle (b : BankId) (idle : (s.landing h sw l).queue = []) :
    exec (.refreshDue h sw l b) s = .next (s.setLanding h sw l
      { s.landing h sw l with postponed := sset (s.landing h sw l).postponed b 0 }) := by
  change execRefreshDue h sw l b s = _
  simp only [execRefreshDue, served, idle, Bool.false_and, Bool.false_eq_true, if_true, if_false]

variable {d : Rec64} {kv : Nat} {ok : Bool} {rest : List LandItem}
  (front : (s.landing h sw l).queue = .cmd d kv ok :: rest)
include front

theorem chunkBoundary_running
    (works : ∀ b ∈ landBanks d kv, (s.landing h sw l).bank b = .landing ∨ (s.landing h sw l).bank b = .leaving) :
    exec (.chunkBoundary h sw l) s = .next (s.setLanding h sw l { s.landing h sw l with
      chunks := (s.landing h sw l).chunks + 1
      postponed := (landBanks d kv).foldl (fun t b => sset t b 0) (s.landing h sw l).postponed }) := by
  have running : ((landBanks d kv).all fun b =>
      (s.landing h sw l).bank b == .landing || (s.landing h sw l).bank b == .leaving) = true := by
    simpa using works
  change execChunkBoundary h sw l s = _
  simp only [execChunkBoundary, front, served, running, Bool.and_self, if_true]

theorem refreshDue_postponed {b : BankId} (touched : b.val ∈ landBanks d kv)
    (works : (s.landing h sw l).bank b = .landing ∨ (s.landing h sw l).bank b = .leaving)
    (few : sget (s.landing h sw l).postponed 0 b < 4) :
    exec (.refreshDue h sw l b) s = .next ((s.setLanding h sw l { s.landing h sw l with
        postponed := sset (s.landing h sw l).postponed b (sget (s.landing h sw l).postponed 0 b + 1) }).modStair h sw
      fun y => { y with deferMax := max y.deferMax (sget (s.landing h sw l).postponed 0 b + 1) }) := by
  have busy : ((landBanks d kv).contains b.val &&
      ((s.landing h sw l).bank b == .landing || (s.landing h sw l).bank b == .leaving)) = true := by
    simpa using ⟨touched, works⟩
  change execRefreshDue h sw l b s = _
  simp only [execRefreshDue, served, front, busy, few, decide_true, Bool.and_self, if_true]

end

/-- Settles O36: each clause is the equation of its command, or the branch that its hypotheses choose. -/
theorem landingWindows : Obligations.LandingWindows := by
  intro h sw l s served
  refine ⟨fun page w => modeWrite_own served,
    fun w => congrArg Host.Outcome.next (windowAccess_broadcast served _),
    fun b out => bankAccessesDrained_entering served,
    fun page k off bytes own fits => ?_,
    fun page off bytes => windowWrite_own served,
    fun off bytes rest => windowWriteApply_front served,
    fun d kv ok rest front works => ⟨chunkBoundary_running served front works,
      fun b touched => refreshDue_postponed served front touched (works b touched)⟩,
    refreshDue_idle served⟩
  rw [landingCmdWrite_own served own fits]
  refine ⟨fun short => ?_, fun long partly => ?_, fun long whole => ?_⟩
  · rw [slotWrite, if_pos short]
  · simp only [slotWrite, if_neg (Nat.not_lt.mpr long), if_neg partly]
  · simp only [slotWrite, if_neg (Nat.not_lt.mpr long), if_pos whole]

end Sys2Proof.Machine
end

section
/-! Errors, lost layers and failed park packages: what each source's part does with an event, and one equation per
command (R99, R379, R380, R383, R385, Table 14.1, Table 14.4). -/

namespace Sys2Proof.Machine

/-! ### What an event does once it is logged -/

section
variable {s : State} {e : ErrEvent}

theorem claspError_corrected (corrected : e.correctable = true) : claspError s e = s := if_pos corrected

theorem vestError_corrected (corrected : e.correctable = true) : vestError s e = s := if_pos corrected

variable (lost : e.correctable = false)
include lost

theorem sramError_uncorrectable :
    sramError s e = s.setPoison (.sram e.hall (e.unit % 256)) (e.addr / 64 * 64) true :=
  if_neg (Bool.eq_false_iff.mp lost)

theorem nearError_uncorrectable :
    nearError s e = (s.modRegs e.hall fun g => { g with errUe := g.errUe + 1 }).setPoison
      (.column e.hall (e.unit % 256)) (e.addr / 256 * 256) true :=
  if_neg (Bool.eq_false_iff.mp lost)

/-- A lost clasp cell tells its waiters CLASP_LOST (R385). -/
theorem claspError_uncorrectable :
    claspError s e = settle ((s.clasp e.addr).waiters.foldl
      (fun t w => claspFail t w.who e.addr Status.claspLost w.oldType)
      (s.setClasp e.addr { s.clasp e.addr with lost := true, waiters := [] })) :=
  if_neg (Bool.eq_false_iff.mp lost)

end

/-! ### ERROR_EVENT with the porter running -/

section
variable {s : State} {e : ErrEvent} (up : s.porterUp = true)
include up

theorem errorEvent_logged_only (other : e.source ∈ [ErrSource.parkPkg, .ucie, .fabCrc, .fabGiveup, .fence]) :
    exec (.errorEvent e) s = .next (logEvent s e) := by
  refine (next_of_porterUp up _).trans ?_
  simp only [List.mem_cons, List.not_mem_nil, or_false] at other
  rcases other with source | source | source | source | source <;> rw [source]

theorem errorEvent_corrected (corrected : e.correctable = true)
    (other : e.source ∈ [ErrSource.vest, .clasp, .portb, .parkLink, .fabFec]) :
    exec (.errorEvent e) s = .next (logEvent s e) := by
  refine (next_of_porterUp up _).trans (congrArg Host.Outcome.next ?_)
  simp only [List.mem_cons, List.not_mem_nil, or_false] at other
  rcases other with source | source | source | source | source <;> rw [source]
  · exact vestError_corrected corrected
  · exact claspError_corrected corrected
  · exact if_pos corrected
  · exact if_pos corrected
  · exact if_pos corrected

variable (lost : e.correctable = false)
include lost

theorem errorEvent_sram (source : e.source = .sram) : exec (.errorEvent e) s =
    .next ((logEvent s e).setPoison (.sram e.hall (e.unit % 256)) (e.addr / 64 * 64) true) := by
  refine (next_of_porterUp up _).trans (congrArg Host.Outcome.next ?_)
  rw [source]
  exact sramError_uncorrectable lost

theorem errorEvent_portb (source : e.source = .portb) : exec (.errorEvent e) s =
    .next ((logEvent s e).setPoison .far (farHpa (logEvent s e) (e.addr / 64 * 64)) true) := by
  refine (next_of_porterUp up _).trans (congrArg Host.Outcome.next ?_)
  rw [source]
  exact if_neg (Bool.eq_false_iff.mp lost)

theorem errorEvent_fabFec (source : e.source = .fabFec) : exec (.errorEvent e) s =
    .next ((logEvent s e).modPort e.hall fun x => { x with fecUncorr := x.fecUncorr + 1 }) := by
  refine (next_of_porterUp up _).trans (congrArg Host.Outcome.next ?_)
  rw [source]
  exact if_neg (Bool.eq_false_iff.mp lost)

theorem errorEvent_near (source : e.source = .nearStriped ∨ e.source = .nearLanded) : exec (.errorEvent e) s =
    .next (((logEvent s e).modRegs e.hall fun g => { g with errUe := g.errUe + 1 }).setPoison
      (.column e.hall (e.unit % 256)) (e.addr / 256 * 256) true) := by
  refine (next_of_porterUp up _).trans (congrArg Host.Outcome.next ?_)
  rcases source with source | source <;> rw [source] <;> exact nearError_uncorrectable lost

theorem errorEvent_clasp (source : e.source = .clasp) : exec (.errorEvent e) s =
    .next (settle (((logEvent s e).clasp e.addr).waiters.foldl
      (fun t w => claspFail t w.who e.addr Status.claspLost w.oldType)
      ((logEvent s e).setClasp e.addr { (logEvent s e).clasp e.addr with lost := true, waiters := [] }))) := by
  refine (next_of_porterUp up _).trans (congrArg Host.Outcome.next ?_)
  rw [source]
  exact claspError_uncorrectable lost

end

/-! ### LAYER_LOST -/

section
variable {s : State} {h : HallId} {l : LayerId} (net : s.hallNet h = true)
include net

theorem layerLost_already (lost : (s.hall h).layerLost.getLsbD l = true) : exec (.layerLost h l) s = .next s :=
  congrArg Host.Outcome.next ((if_pos net).trans (if_pos lost))

theorem layerLost_newly (whole : (s.hall h).layerLost.getLsbD l = false) :
    exec (.layerLost h l) s = .next (((softEnter ((retireLayer (s.modHall h fun x =>
      { x with layerLost := x.layerLost ||| BitVec.ofNat 12 (2 ^ l.val) }) h l).logError
        { source := .layer, class_ := Class.uncorrectable, hall := h, layer := l }) 4 h l).replaceCause
          2).publishDue) :=
  congrArg Host.Outcome.next ((if_pos net).trans (if_neg (Bool.eq_false_iff.mp whole)))

end

/-! ### PARK_PKG_FAIL -/

section
variable (s : State) (p : Fin 24)

theorem parkPkgFail_retrained : exec (.parkPkgFail p true) s = .next s := rfl

theorem parkPkgFail_dead (dead : s.porter.host.parkDead.getLsbD p = true) : exec (.parkPkgFail p false) s = .next s :=
  congrArg Host.Outcome.next (if_pos dead)

theorem parkPkgFail_alive (alive : s.porter.host.parkDead.getLsbD p = false) :
    exec (.parkPkgFail p false) s = .next
      (((s.modHost fun d => { d with parkDead := d.parkDead ||| BitVec.ofNat 24 (2 ^ p.val) }).logError
        { source := .parkPkg, class_ := Class.uncorrectable, unit := p }).replaceCause 7) :=
  congrArg Host.Outcome.next (if_neg (Bool.eq_false_iff.mp alive))

end

/-- Settles O49: each clause is the equation of its command for one source, or one state of the layer or package. -/
theorem errorsAreLoggedAndContained : Obligations.ErrorsAreLoggedAndContained := by
  intro s
  exact ⟨fun up e => ⟨errorEvent_corrected up, errorEvent_logged_only up, fun lost =>
      ⟨errorEvent_sram up lost, errorEvent_portb up lost, errorEvent_fabFec up lost, errorEvent_near up lost,
        errorEvent_clasp up lost⟩⟩,
    fun h l net => ⟨layerLost_already net, layerLost_newly net⟩,
    fun p => ⟨parkPkgFail_retrained s p, parkPkgFail_dead s p, parkPkgFail_alive s p⟩⟩

end Sys2Proof.Machine
end

section
/-! Volume descriptors that open, query and move a volume between its states: the gate, the reading of the spine, and one
equation per command and outcome (R133, R134, R137, R140, R151, R154, R156 to R158, R160, R161, R166, R167, R170, R174,
R385, Table 5.2). -/

namespace Sys2Proof.Machine

/-! ### The gate and the spine (R134 to R137, R385) -/

theorem hallUp_of_volGate_go {s : State} {c v : Nat} {k : Claim} {home closes : Bool}
    (gate : volGate s c k v home closes = .go) : s.hallUp k.hall = true := by
  by_contra down
  rw [volGate, if_pos (by simp [down])] at gate
  cases gate

theorem spineRead_free {s : State} {v : Nat} (free : (s.vol v).state = .free) (f : State → State) :
    spineRead s v f = f s := by
  simp [spineRead, free]

theorem spineRead_readable {s : State} {v : Nat} (read : spinePoisoned s v = false) (f : State → State) :
    spineRead s v f = f s := by
  simp [spineRead, read]

/-- A descriptor whose volume is ready for it does what its command says of that state. -/
theorem next_of_volReady {s t : State} {c op : Nat} {k : Claim} {bad : State → Rec64 → Option Nat}
    {f : State → Claim → Nat → State} (r : VolReady s c op k bad) (does : f s k (descVol k.desc) = t) :
    (.next (withVol s c op bad f) : Result) = .next t :=
  congrArg Host.Outcome.next ((withVol_ready r f).trans does)

/-! ### VOL_OPEN, VOL_QUERY and HINT_QUERY (R133, R134, R140, R160, R174) -/

section
variable {s : State} {c : Nat} {k : Claim}

/-- A FREE volume whose gate is open: what the two checks of VOL_OPEN answer. -/
theorem volOpen_begins (b : Begins s c 0x10 k) (good : openBad s k.desc = none)
    (free : (s.vol (descVol k.desc)).state = .free)
    (gate : volGate s c k (descVol k.desc) (openHome s k.hall (descVol k.desc)) false = .go) :
    (∀ st, openStatus s k.desc = some st → exec (.volOpen c) s = .next (volDone s c (descVol k.desc) st 0)) ∧
    (∀ st, openStatus s k.desc = none → openVolume s k.hall (descVol k.desc) k.desc = .error st →
      exec (.volOpen c) s = .next (volDone s c (descVol k.desc) st 0)) ∧
    (∀ t, openStatus s k.desc = none → openVolume s k.hall (descVol k.desc) k.desc = .ok t →
      exec (.volOpen c) s = .next (volDone t c (descVol k.desc) Status.ok
        (if (t.vol (descVol k.desc)).linked then (t.spine (descVol k.desc)).length else 0))) := by
  change (∀ st, _ → execVolOpen c s = _) ∧ (∀ st, _ → _ → execVolOpen c s = _) ∧ ∀ t, _ → _ → execVolOpen c s = _
  simp only [execVolOpen, withClaim_begins b, hallUp_of_volGate_go gate, good, if_pos free, gate, gated,
    spineRead_free free, id, Bool.not_true, Bool.false_eq_true, if_false, if_neg (not_not.mpr free)]
  exact ⟨fun st bars => by rw [bars], fun st clear lacks => by rw [clear, lacks],
    fun t clear opens => by rw [clear, opens]⟩

/-- VOL_QUERY does as its gate decides, also of a volume whose descriptor is poisoned (R385). -/
theorem volQuery_begins (b : Begins s c 0x12 k) (up : s.hallUp k.hall = true) (good : queryBad s k.desc = none) {g : Gate}
    (gate : volGate s c k (descVol k.desc) ((s.vol (descVol k.desc)).home == k.hall.val) true = g) :
    (g = .go → exec (.volQuery c) s = .next (volDone (s.write .park (fld k.desc 0x10 0 32 + fld k.desc 0x14 0 8 * 2 ^ 32)
      (leBytes 128 k.image.toNat) false) c (descVol k.desc) Status.ok 0)) ∧
    (g = .wait → exec (.volQuery c) s = .next (s.setStage c .waiting)) ∧
    (∀ st, g = .fail st → exec (.volQuery c) s = .next (volDone s c (descVol k.desc) st 0)) := by
  change (_ → execVolQuery c s = _) ∧ (_ → execVolQuery c s = _) ∧ ∀ st, _ → execVolQuery c s = _
  simp only [execVolQuery, withClaim_begins b, up, good, Bool.not_true, Bool.false_eq_true, if_false]
  exact ⟨fun go => by rw [gate, go], fun wait => by rw [gate, wait], fun st fail => by rw [gate, fail]⟩

theorem hintQuery_begins (b : Begins s c 0x1A k) (up : s.hallUp k.hall = true) (good : hintBad s k.desc = none) :
    exec (.hintQuery c) s = .next ((s.write .park (fld k.desc 0x10 0 32 + fld k.desc 0x14 0 8 * 2 ^ 32)
      (((hintOrder s k.hall).take (fld k.desc 8 0 9)).flatMap fun q => leBytes 8 (hintEntry s k.hall q).toNat)
      false).complete c k.hall Status.ok
        (put 256 0x18 0 32 ((hintOrder s k.hall).take (fld k.desc 8 0 9)).length)) := by
  change execHintQuery c s = _
  simp only [execHintQuery, withClaim_begins b, up, good, Bool.not_true, Bool.false_eq_true, if_false]

end

/-- Settles O42: each clause is what its command does of a claim that begins, for one answer of its checks or its gate. -/
theorem volumesOpenAndAreQueried : Obligations.VolumesOpenAndAreQueried := by
  intro c k s
  exact ⟨volOpen_begins, fun b up good => volQuery_begins b up good rfl, hintQuery_begins⟩

/-! ### The states of Table 5.2 -/

section
variable {s : State} {c : Nat} {k : Claim}

theorem volClose_closes (r : VolReady s c 0x11 k plainBad)
    (closable : (s.vol (descVol k.desc)).state ∈ [VolState.live, .parked, .shelved, .faulted]) :
    exec (.volClose c) s = .next (volDone (closeVolume s (descVol k.desc)) c (descVol k.desc) Status.ok 0) :=
  next_of_volReady r (if_pos (by simp only [List.elem_eq_true_of_mem closable, Bool.true_or]))

theorem volClose_badState (r : VolReady s c 0x11 k plainBad)
    (state : (s.vol (descVol k.desc)).state ∉ [VolState.live, .parked, .shelved, .faulted])
    (whole : (s.job (descVol k.desc)).poisoned = false) :
    exec (.volClose c) s = .next (volDone s c (descVol k.desc) Status.badState 0) :=
  next_of_volReady r (if_neg (by simpa [whole] using state))

section
variable (r : VolReady s c 0x13 k plainBad)
include r

theorem fmSeal_badState (state : (s.vol (descVol k.desc)).state ≠ .live) :
    exec (.fmSeal c) s = .next (volDone s c (descVol k.desc) Status.badState 0) :=
  next_of_volReady r (if_pos state)

variable (live : (s.vol (descVol k.desc)).state = .live)
include live

theorem fmSeal_fmInvalid (barred : (s.vol (descVol k.desc)).linked = true ∨ (s.vol (descVol k.desc)).window ≠ 0 ∨
    (s.vol (descVol k.desc)).fm = true) :
    exec (.fmSeal c) s = .next (volDone s c (descVol k.desc) Status.fmInvalid 0) :=
  next_of_volReady r ((if_neg (not_not.mpr live)).trans (if_pos (by simpa [or_assoc] using barred)))

theorem fmSeal_seals {t : State} (own : (s.vol (descVol k.desc)).linked = false)
    (whole : (s.vol (descVol k.desc)).window = 0) (unsealed : (s.vol (descVol k.desc)).fm = false)
    (seals : sealVolume s (descVol k.desc) = .ok t) :
    exec (.fmSeal c) s = .next (volDone t c (descVol k.desc) Status.ok 0) :=
  next_of_volReady r ((if_neg (not_not.mpr live)).trans ((if_neg (by simp [own, whole, unsealed])).trans (by rw [seals])))

end

section
variable (r : VolReady s c 0x14 k plainBad)
include r

theorem checkpoint_badState (state : (s.vol (descVol k.desc)).state ≠ .live) :
    exec (.checkpoint c) s = .next (volDone s c (descVol k.desc) Status.badState 0) :=
  next_of_volReady r (if_pos state)

variable (live : (s.vol (descVol k.desc)).state = .live)
include live

theorem checkpoint_waits (runs : (s.job (descVol k.desc)).wb.isSome = true) :
    exec (.checkpoint c) s = .next (s.setStage c .waiting) :=
  next_of_volReady r ((if_neg (not_not.mpr live)).trans (if_pos runs))

theorem checkpoint_starts (idle : (s.job (descVol k.desc)).wb = none) :
    exec (.checkpoint c) s = .next ((startWriteBack s (descVol k.desc) (some c) false).setStage c .running) :=
  next_of_volReady r ((if_neg (not_not.mpr live)).trans (if_neg (by simp [idle])))

end

section
variable (r : VolReady s c 0x15 k parkBad)
include r

theorem park_badState (state : (s.vol (descVol k.desc)).state ≠ .live) :
    exec (.park c) s = .next (volDone s c (descVol k.desc) Status.badState 0) :=
  next_of_volReady r (if_pos state)

variable (live : (s.vol (descVol k.desc)).state = .live)
include live

theorem park_fmInUse (front : (s.vol (descVol k.desc)).fm = true) (linked : 0 < (s.vol (descVol k.desc)).liveLinks)
    (unforced : fld k.desc 8 20 1 = 0) :
    exec (.park c) s = .next (volDone s c (descVol k.desc) Status.fmInUse 0) :=
  next_of_volReady r ((if_neg (not_not.mpr live)).trans (if_pos (by simp [front, linked, unforced])))

theorem park_starts (may : (s.vol (descVol k.desc)).fm = false ∨ (s.vol (descVol k.desc)).liveLinks = 0 ∨
    fld k.desc 8 20 1 ≠ 0) :
    exec (.park c) s = .next ((startWriteBack ((cancelStaging s (descVol k.desc)).setVolState (descVol k.desc) .parking)
      (descVol k.desc) (some c) true).setStage c .running) :=
  next_of_volReady r ((if_neg (not_not.mpr live)).trans (if_neg (by
    rcases may with own | unlinked | forced
    · simp [own]
    · simp [unlinked]
    · simp [forced])))

end

section
variable (r : VolReady s c 0x16 k plainBad)
include r

theorem shelve_badState (state : (s.vol (descVol k.desc)).state ≠ .parked) :
    exec (.shelve c) s = .next (volDone s c (descVol k.desc) Status.badState 0) :=
  next_of_volReady r (if_pos state)

variable (parked : (s.vol (descVol k.desc)).state = .parked) {l : List Nat}
  (leaves : ((s.spine (descVol k.desc)).filter fun q => shelves q.2).map (fun q => q.1) = l)
include parked leaves

theorem shelve_noFarSpace
    (full : reserveFar (farGranules (s.planOf (descVol k.desc)) (s.vol (descVol k.desc)).parkFmt) l [] s = none) :
    exec (.shelve c) s = .next (volDone s c (descVol k.desc) Status.noFarSpace 0) :=
  next_of_volReady r ((if_neg (not_not.mpr parked)).trans (by simp only [leaves, full]))

theorem shelve_starts {far : Sparse Nat} {t : State}
    (room : reserveFar (farGranules (s.planOf (descVol k.desc)) (s.vol (descVol k.desc)).parkFmt) l [] s = some (far, t)) :
    exec (.shelve c) s = .next (shelveDone ((((cancelStaging t (descVol k.desc)).modJob (descVol k.desc) fun j =>
      { j with shelve := some (c, pairsOf l, far) }).setVolState (descVol k.desc) .shelving).setStage c .running)
      (descVol k.desc)) :=
  next_of_volReady r ((if_neg (not_not.mpr parked)).trans (by simp only [leaves, room]))

end

end

/-- Settles O43: each clause is the equation of its command for one state of Table 5.2. -/
theorem volumesMoveBetweenTheirStates : Obligations.VolumesMoveBetweenTheirStates := by
  intro c k s
  exact ⟨fun r => ⟨volClose_closes r, volClose_badState r⟩,
    fun r => ⟨fmSeal_badState r, fmSeal_fmInvalid r, fun t live => fmSeal_seals r live⟩,
    fun r => ⟨checkpoint_badState r, checkpoint_waits r, checkpoint_starts r⟩,
    fun r => ⟨park_badState r, park_fmInUse r, park_starts r⟩,
    fun r => ⟨shelve_badState r, fun parked => shelve_noFarSpace r parked rfl,
      fun far t parked => shelve_starts r parked rfl⟩⟩

end Sys2Proof.Machine
end

section
/-! RESUME, RECOVER and VOL_REHOME: one equation per outcome (R140, R168, R172, R173, R332, Table 5.2). -/

namespace Sys2Proof.Machine

section
variable {s : State} {c : Nat} {k : Claim}

/-! ### RESUME (R168, R332) -/

section
variable (r : VolReady s c 0x17 k resumeBad)
include r

theorem resume_badState (near : (s.vol (descVol k.desc)).state ≠ .parked)
    (far : (s.vol (descVol k.desc)).state ≠ .shelved) :
    exec (.resume c) s = .next (volDone s c (descVol k.desc) Status.badState 0) :=
  next_of_volReady r (if_pos ⟨near, far⟩)

variable (rests : (s.vol (descVol k.desc)).state = .parked ∨ (s.vol (descVol k.desc)).state = .shelved)
include rests

theorem resume_noPlan (unloaded : sfind s.plans (s.vol (descVol k.desc)).plan = none) :
    exec (.resume c) s = .next (volDone s c (descVol k.desc) Status.noPlan 0) :=
  next_of_volReady r ((if_neg (by tauto)).trans (if_pos (by rw [unloaded]; rfl)))

/-- A RESUME whose plan is loaded does as its reservations and the park-format version let it. -/
theorem resume_planned (loaded : (sfind s.plans (s.vol (descVol k.desc)).plan).isSome = true) {z : Except Nat State}
    (reserves : resumeVolume s (descVol k.desc) (BitVec.ofNat 12 (fld k.desc 0x0C 0 12)) c = z) :
    (∀ st, z = .error st → exec (.resume c) s = .next (volDone s c (descVol k.desc) st 0)) ∧
    (∀ t, z = .ok t →
      (pfvKnown s.fwMajor < (s.vol (descVol k.desc)).pfv ∨ (s.vol (descVol k.desc)).pfv = 0 →
        exec (.resume c) s = .next (volDone s c (descVol k.desc) Status.pfvUnknown 0)) ∧
      ((s.vol (descVol k.desc)).pfv ≤ pfvKnown s.fwMajor → (s.vol (descVol k.desc)).pfv ≠ 0 →
        exec (.resume c) s = .next (t.setStage c .running))) := by
  have planned : (sfind s.plans (s.vol (descVol k.desc)).plan).isNone = false := by
    rw [← Option.not_isSome, loaded]; rfl
  have resting : ¬((s.vol (descVol k.desc)).state ≠ .parked ∧ (s.vol (descVol k.desc)).state ≠ .shelved) := by tauto
  refine ⟨fun st lacks => ?_, fun t fits => ⟨fun unknown => ?_, fun known set => ?_⟩⟩ <;> subst z <;>
    refine next_of_volReady r ((if_neg resting).trans ((if_neg (Bool.eq_false_iff.mp planned)).trans ?_))
  · rw [lacks]
  · rw [fits]
    exact if_pos unknown
  · rw [fits]
    exact if_neg (not_or.mpr ⟨Nat.not_lt.mpr known, set⟩)

end

/-! ### RECOVER (R173) -/

section
variable (r : VolReady s c 0x18 k plainBad)
include r

theorem recover_rolls_back (faulted : (s.vol (descVol k.desc)).state = .faulted) :
    exec (.recover c) s = .next (volDone (recoverVolume s (descVol k.desc)) c (descVol k.desc) Status.ok
      ((s.vol (descVol k.desc)).tokens - (s.vol (descVol k.desc)).ckpt).toNat) :=
  next_of_volReady r (if_neg (not_not.mpr faulted))

theorem recover_badState (state : (s.vol (descVol k.desc)).state ≠ .faulted) :
    exec (.recover c) s = .next (volDone s c (descVol k.desc) Status.badState 0) :=
  next_of_volReady r (if_pos state)

end

/-! ### VOL_REHOME (R172) -/

/-- A VOL_REHOME posted to a hall in service with an entry free does as the volume's state and its old home let it. -/
theorem volRehome_begins (b : Begins s c 0x19 k) (up : s.hallUp k.hall = true) (good : plainBad s k.desc = none)
    (whole : (s.job (descVol k.desc)).poisoned = false) (room : heldEntries s k.hall < 16384) :
    ((s.vol (descVol k.desc)).state = .free →
      exec (.volRehome c) s = .next (volDone s c (descVol k.desc) Status.badState 0)) ∧
    ((s.vol (descVol k.desc)).state ≠ .free → s.hallFenced (s.vol (descVol k.desc)).home = false →
      exec (.volRehome c) s = .next (volDone s c (descVol k.desc) Status.homeInService 0)) ∧
    ((s.vol (descVol k.desc)).state ≠ .free → s.hallFenced (s.vol (descVol k.desc)).home = true →
      volLocked s (descVol k.desc) = false →
      exec (.volRehome c) s = .next (volDone (settleLost (settleVolume (s.modVol (descVol k.desc) fun y =>
        { y with home := k.hall.val, lastElapsed := (s.hall k.hall).elapsed, lastPuc := s.porter.powerup })
        (descVol k.desc)) (descVol k.desc)) c (descVol k.desc) Status.ok 0)) := by
  change (_ → execVolRehome c s = _) ∧ (_ → _ → execVolRehome c s = _) ∧ (_ → _ → _ → execVolRehome c s = _)
  simp only [execVolRehome, withClaim_begins b, up, good, whole, if_neg (Nat.not_le.mpr room), Bool.not_true,
    Bool.false_eq_true, if_false]
  refine ⟨fun free => by rw [if_pos free], fun held serves => ?_, fun held fenced unlocked => ?_⟩
  · rw [if_neg held, if_pos (by rw [serves]; rfl)]
  · rw [if_neg held, if_neg (by simp [fenced]), if_neg (by simp [unlocked])]

end

/-- Settles O44: each clause is what its command does for one state of the volume, of its plan or of its old home. -/
theorem volumesResumeRecoverAndMoveHome : Obligations.VolumesResumeRecoverAndMoveHome := by
  intro c k s
  exact ⟨fun r => ⟨resume_badState r, fun rests => ⟨resume_noPlan r rests, fun loaded =>
      resume_planned r rests loaded rfl⟩⟩,
    fun r => ⟨recover_rolls_back r, recover_badState r⟩, volRehome_begins⟩

end Sys2Proof.Machine
end

section
/-! An event of a volume whose spine is poisoned (R385, Table 14.3): LEAF_STAGED reads the spine first. -/

namespace Sys2Proof.Machine

/-- The usher of a volume that is neither FREE nor FAULTED meets the poison of its spine when it takes up LEAF_STAGED,
whether or not a staging runs. -/
theorem leafStaged_spine_poisoned {s : State} {v : VolId} (runs : volRuns s v.toNat = true)
    (used : (s.vol v.toNat).state ≠ .free) (sound : (s.vol v.toNat).state ≠ .faulted)
    (poisoned : spinePoisoned s v.toNat = true) (i : Nat) :
    exec (.leafStaged v i) s = .next (faultSpine s v.toNat) := by
  change execLeafStaged v i s = _
  simp [execLeafStaged, spineRead, runs, used, sound, poisoned]

/-- Hall 0 in service and its volume 0 LIVE, with nothing under way and the first page of the spine pool as its root. -/
def liveVolume : State :=
  { halls := [(0, { state := .enabled })], vols := [(0, { state := .live, root := spineFirstPage })] }

/-- The same with the first unit of the root page poisoned. -/
def livePoisonedRoot : State :=
  liveVolume.setPoison .park (liveVolume.parkAddr (spineFirstPage * 4096)) true

/-- Refutes O45: with no staging under way LEAF_STAGED is to change nothing, but that clause does not ask that the spine
reads without poison. Of a LIVE volume with a poisoned root page the usher reads the spine and the volume is FAULTED. -/
theorem not_tierMovementsFinish : ¬ Obligations.TierMovementsFinish := by
  intro holds
  obtain ⟨-, -, idle, -⟩ := holds 0 livePoisonedRoot
  have unchanged : exec (.leafStaged 0 0) livePoisonedRoot = .next livePoisonedRoot := (idle rfl).2 0
  rw [leafStaged_spine_poisoned (by decide) (by decide) (by decide) (by decide) 0] at unchanged
  have same : faultSpine livePoisonedRoot 0 = livePoisonedRoot := Host.Outcome.next.inj unchanged
  have faulted : ((faultSpine livePoisonedRoot 0).vol 0).state = .faulted := by decide
  rw [same] at faulted
  cases faulted

end Sys2Proof.Machine
end

section
/-! Steps: a step descriptor of a volume that is ready for it, and one equation per event that takes a step on or ends it
(R155, R183, R185, R188, R189, R204, R247, R258). -/

namespace Sys2Proof.Machine

/-! ### The claim of a step (R185, R258) -/

section
variable {s : State} {c code : Nat} {k : Claim} {op : StepOp}

/-- The step opcodes do not pass the gate of a poisoned descriptor as VOL_CLOSE does, so their gate is that of `VolReady`. -/
theorem stepDescriptor_ready (r : VolReady s c code k (stepBad op)) (step : (code == 0x11) = false) :
    stepDescriptor s c code op = claimStep op s c k := by
  have gate := r.gate
  rw [step] at gate
  simp only [stepDescriptor, withClaim_begins r.toBegins, hallUp_of_volGate_go gate, r.body, gate, gated,
    spineRead_readable r.read, id, Bool.not_true, Bool.false_eq_true, if_false]

theorem exec_step_ready {i : Instr} (named : (op, code, i) ∈ [(StepOp.decode, 0x20, Instr.stepDecode c),
      (.verify, 0x21, .stepVerify c), (.prefill, 0x22, .stepPrefill c)])
    (r : VolReady s c code k (stepBad op)) : exec i s = .next (claimStep op s c k) := by
  simp only [List.mem_cons, List.not_mem_nil, or_false, Prod.mk.injEq] at named
  rcases named with ⟨rfl, rfl, rfl⟩ | ⟨rfl, rfl, rfl⟩ | ⟨rfl, rfl, rfl⟩ <;>
    exact congrArg Host.Outcome.next (stepDescriptor_ready r rfl)

theorem claimStep_badState (barred : (s.vol (descVol k.desc)).state ≠ .live ∨ (s.vol (descVol k.desc)).fm = true) :
    claimStep op s c k = refuseStep s c (descVol k.desc) Status.badState (0, 0, false) :=
  if_pos barred

section
variable (live : (s.vol (descVol k.desc)).state = .live) (own : (s.vol (descVol k.desc)).fm = false)
include live own

theorem claimStep_waits (full : 64 ≤ (s.vol (descVol k.desc)).dirty) :
    claimStep op s c k = dueWriteBack (s.setStage c .waiting) (descVol k.desc) :=
  (if_neg (by simp [live, own])).trans (if_pos full)

variable (kept : (s.vol (descVol k.desc)).dirty < 64) (head : op = .verify → (s.planOf (descVol k.desc)).head = true)
include kept head

/-- A step past the checks of its volume: what its records, the place of its rows and the units of its plan answer. -/
theorem claimStep_checks :
    (∀ st, inputStatus op (tab (sdRows k.desc) fun r => inputRec s k.desc r) = some st →
      claimStep op s c k = refuseStep s c (descVol k.desc) st (0, 0, false)) ∧
    (inputStatus op (tab (sdRows k.desc) fun r => inputRec s k.desc r) = none →
      placeBad s (descVol k.desc) (sdRows k.desc) = false →
      (∀ u, fencedUnit s (s.planOf (descVol k.desc)) = some u →
        claimStep op s c k = refuseStep s c (descVol k.desc) Status.unitFenced u) ∧
      (fencedUnit s (s.planOf (descVol k.desc)) = none → claimStep op s c k = stepClaimed s c k op)) := by
  have headed : ¬(op = .verify ∧ (s.planOf (descVol k.desc)).head = false) := fun lacks => by
    simp [head lacks.1] at lacks
  refine ⟨fun st bad => ?_, fun good place => ⟨fun u fenced => ?_, fun units => ?_⟩⟩ <;>
    refine (if_neg (by simp [live, own])).trans ((if_neg (Nat.not_le.mpr kept)).trans ((if_neg headed).trans ?_))
  · simp only [bad]
  · simp only [good, place, fenced, Bool.false_eq_true, if_false]
  · simp only [good, place, units, stepClaimed, Bool.false_eq_true, if_false]

end

theorem exec_step_fits {i : Instr} (named : (op, code, i) ∈ [(StepOp.decode, 0x20, Instr.stepDecode c),
      (.verify, 0x21, .stepVerify c), (.prefill, 0x22, .stepPrefill c)])
    (f : StepFits s c code k op) : exec i s = .next (stepClaimed s c k op) :=
  (exec_step_ready named f.toVolReady).trans
    (congrArg Host.Outcome.next (((claimStep_checks f.live f.own f.kept f.head).2 f.input f.place).2 f.units))

end

/-! ### The events of a step (R155, R183, R188, R204) -/

section
variable {s : State} {st : Nat} {x : Step} (found : s.step? st = some x)
include found

section
variable (up : s.hallUp x.home = true)
include up

theorem laneLockRetry_tries (phase : x.phase = .lane) : exec (.laneLockRetry st) s = .next (settle (tryLane s st)) := by
  change execLaneLockRetry st s = _
  simp only [execLaneLockRetry, found, phase, up, and_self, if_true]

theorem stepTimeout_overdue {d : Nat} (phase : x.phase = .run ∨ x.phase = .claim) (deadline : x.deadline = some d)
    (overdue : d ≤ s.now) : exec (.stepTimeout st) s = .next (endStep s st Status.timeout (0, 0, false)) := by
  change execStepTimeout st s = _
  simp only [execStepTimeout, found, deadline, phase, overdue, up, and_self, if_true]

end

section
variable (enabled : (s.hall (claspHome (laneClasp (s.planOf x.vol.toNat) x.lane 0))).state = .enabled)
  (unlocked : claspLocked s (BitVec.ofNat 16 (laneClasp (s.planOf x.vol.toNat) x.lane 0)) = false)
include enabled unlocked

theorem tryLane_got {y : Clasp} (got : cellOp (s.clasp (laneClasp (s.planOf x.vol.toNat) x.lane 0)) x.home 0x30
      (BitVec.ofNat 32 (usherOwner x.usher)) true = .ok y) :
    tryLane s st = beginStep (storeCell s (laneClasp (s.planOf x.vol.toNat) x.lane 0) y) st := by
  simp only [tryLane, found, enabled, unlocked, got, Bool.false_eq_true, if_false]

theorem tryLane_busy (busy : cellOp (s.clasp (laneClasp (s.planOf x.vol.toNat) x.lane 0)) x.home 0x30
      (BitVec.ofNat 32 (usherOwner x.usher)) true = .fail Status.lockBusy) :
    tryLane s st = s := by
  simp only [tryLane, found, enabled, unlocked, busy, Bool.false_eq_true, if_false, true_or, if_true]

end

theorem pinRequest_raises (phase : x.phase ≠ .lane) (unpinned : x.pinsDone = false)
    (linked : (s.vol x.vol.toNat).linked = true) (runs : volRuns s (s.vol x.vol.toNat).fmLink.toNat = true)
    (room : ((sharedRead s x.vol.toNat).any fun i =>
      65535 ≤ (s.ref (s.vol x.vol.toNat).fmLink.toNat i).pin) = false) :
    exec (.pinRequest st true) s = .next (settle (endClaim (((sharedRead s x.vol.toNat).foldl (fun s' i =>
      s'.setRef (s.vol x.vol.toNat).fmLink.toNat i { s'.ref (s.vol x.vol.toNat).fmLink.toNat i with
        pin := (s'.ref (s.vol x.vol.toNat).fmLink.toNat i).pin + 1 }) s).modStep st fun y =>
      { y with pinned := sharedRead s x.vol.toNat, pinsDone := true }) st)) := by
  change execPinRequest st true s = _
  simp only [execPinRequest, found, phase, unpinned, linked, runs, room, Bool.not_true, Bool.false_eq_true, or_self,
    if_true, if_false]

theorem walkItemEmit_claim (phase : x.phase = .claim) :
    exec (.walkItemEmit st) s = .next (settle (endClaim s st)) := by
  change execWalkItemEmit st s = _
  simp only [execWalkItemEmit, found, phase, if_true]

end

theorem pinRequest_lowers {s : State} {st f : Nat} {l : List Nat} (held : sfind s.unpins st = some (f, l))
    (runs : volRuns s f = true) :
    exec (.pinRequest st false) s = .next ((lowerPins { s with unpins := sdel s.unpins st } f l).unkeep st) := by
  change execPinRequest st false s = _
  simp only [execPinRequest, held, runs, Bool.false_eq_true, or_true, if_true, if_false]

/-! ### The next item of the walk (R189, R303) -/

/-- A stairwell that runs is in no compute reset, nor is its hall. -/
theorem State.swRuns_not_resetting {s : State} {h sw : Nat} (runs : s.swRuns h sw = true) :
    ¬((s.hall h).state = .computeReset ∨ (s.stair h sw).resetting = true) := by
  simp only [State.swRuns, State.swEnabled, State.hallUp, Bool.and_eq_true, beq_iff_eq, Bool.not_eq_true'] at runs
  obtain ⟨⟨⟨enabled, -⟩, -⟩, steady⟩ := runs
  simp [enabled, steady]

section
variable {s : State} {n : Nat} {x : Step} {h : HallId} {sw : SwId} {i : WorkItem}
  {rest : List (HallId × SwId × WorkItem)} (front : x.todo = (h, sw, i) :: rest) (backs : x.backs = [])
  (runs : s.swRuns h sw = true) (room : (s.stair h sw).items.length < 64)
include front backs runs room

theorem emitItem_first : emitItem s n x none =
    (s.modStair h sw fun y => { y with items := y.items ++ [i] }).setStep n { x with todo := rest } := by
  simp only [emitItem, front, backs, sfind, sdel, List.find?_cons, List.eraseP_cons, List.filter_nil, Option.isNone_none,
    if_neg (State.swRuns_not_resetting runs), runs, room, decide_true, Bool.and_self, if_true, cond_true]

theorem walkItemEmit_first (found : s.step? n = some x) (up : s.hallUp x.home = true) (phase : x.phase = .run)
    (whole : x.lost = false) (unlocked : volLocked s x.vol.toNat = false) (pinned : pinsReady s x = true) :
    exec (.walkItemEmit n) s = .next
      ((s.modStair h sw fun y => { y with items := y.items ++ [i] }).setStep n { x with todo := rest }) := by
  rw [← emitItem_first front backs runs room]
  change execWalkItemEmit n s = _
  simp [execWalkItemEmit, found, phase, up, unlocked, pinned, whole, front]

end

/-! ### STEP_ABORT (R247) -/

/-- A RUNNING volume holds its entry in its home's cache, so a STEP_ABORT of it is not refused for want of one. -/
theorem entryHeld_running {s : State} {v : Nat} (running : (s.vol v).state = .running) : entryHeld s v = true := by
  simp [entryHeld, running, VolState.transient]

/-- The unclaimed step descriptor that a STEP_ABORT of lane `lane` of volume `v` ends first. -/
def waitingStep (s : State) (v lane : Nat) : Option (Nat × Claim) :=
  s.claims.find? fun p => [0x20, 0x21, 0x22].contains (descOpcode p.2.desc) && p.2.stage == .waiting
    && descVol p.2.desc == v && sdLane p.2.desc == lane

/-- STEP_ABORT of a lane of a RUNNING volume: a descriptor that waits, the step of the lane, or one past its end. -/
theorem stepAbort_begins {s : State} {c : Nat} {k : Claim} (b : Begins s c 0x23 k) (up : s.hallUp k.hall = true)
    (zero : zeroFrom k.desc 8 26 = true) (running : (s.vol (descVol k.desc)).state = .running)
    (lane : sdLane k.desc < (s.planOf (descVol k.desc)).lanes) (home : (s.vol (descVol k.desc)).home = k.hall.val)
    (whole : (s.job (descVol k.desc)).poisoned = false) :
    (∀ p, waitingStep s (descVol k.desc) (sdLane k.desc) = some p → exec (.stepAbort c) s = .next
      (volDone (refuseStep s p.1 (descVol k.desc) Status.aborted (0, 0, false)) c (descVol k.desc) Status.ok 0)) ∧
    (waitingStep s (descVol k.desc) (sdLane k.desc) = none → ∀ (n : Nat) (y : Step),
      (s.steps.find? fun p => p.2.vol.toNat == descVol k.desc && p.2.lane == sdLane k.desc) = some (n, y) →
      (y.endable = true → exec (.stepAbort c) s = .next
        (volDone (endStep s n Status.aborted (0, 0, false)) c (descVol k.desc) Status.ok 0)) ∧
      (y.endable = false → exec (.stepAbort c) s = .next (volDone s c (descVol k.desc) Status.badState 0))) := by
  change (∀ p, _ → execStepAbort c s = _) ∧ (_ → ∀ n y, _ → (_ → execStepAbort c s = _) ∧ (_ → execStepAbort c s = _))
  have good : firstStatus (!zeroFrom k.desc 8 26) false
      ((s.vol (descVol k.desc)).state != .free && (s.planOf (descVol k.desc)).lanes ≤ sdLane k.desc) false = none := by
    simp [firstStatus, zero, Nat.not_le.mpr lane]
  simp only [waitingStep, execStepAbort, withClaim_begins b, up, good, home, whole, entryHeld_running running, Bool.not_true,
    Bool.false_eq_true, Bool.false_and, ne_eq, not_true, if_false]
  refine ⟨fun p waits => by rw [waits], fun idle n y step => ⟨fun endable => ?_, fun past => ?_⟩⟩
  · rw [idle, step]
    exact congrArg Host.Outcome.next (if_pos endable)
  · rw [idle, step]
    exact congrArg Host.Outcome.next (if_neg (Bool.eq_false_iff.mp past))

/-- Settles O46: each clause is what its command does of a step descriptor, a step in a phase, or the pins of an ended one. -/
theorem stepsAreClaimedWalkedAndEnded : Obligations.StepsAreClaimedWalkedAndEnded := by
  refine ⟨fun c k s => ⟨exec_step_fits (by simp), exec_step_fits (by simp), exec_step_fits (by simp),
      fun op code i named r => ⟨fun barred => ?_, fun live own full => ?_, fun live own kept head =>
        ⟨fun st bad => ?_, fun u good place fenced => ?_⟩⟩⟩,
    fun st x s found up => ⟨fun phase enabled unlocked => ⟨fun y got => ?_, fun busy => ?_⟩,
      fun d => stepTimeout_overdue found up, pinRequest_raises found, walkItemEmit_claim found,
      fun h sw i rest phase front backs whole unlocked pinned runs room =>
        walkItemEmit_first front backs runs room found up phase whole unlocked pinned⟩,
    fun st f l s => pinRequest_lowers, fun c k s b up zero running lane home whole =>
      stepAbort_begins b up zero running lane home whole⟩
  · rw [exec_step_ready named r, claimStep_badState barred]
  · rw [exec_step_ready named r, claimStep_waits live own full]
  · rw [exec_step_ready named r, (claimStep_checks live own kept head).1 st bad]
  · rw [exec_step_ready named r, ((claimStep_checks live own kept head).2 good place).1 u fenced]
  · rw [laneLockRetry_tries found up phase, tryLane_got found enabled unlocked got]
  · rw [laneLockRetry_tries found up phase, tryLane_busy found enabled unlocked busy]

end Sys2Proof.Machine
end

section
/-! Leaf work and the end of a step: an item that its stairwell takes, and one equation per event that carries the rows of
a step, decides it or voids its run (R190, R192, R193, R195 to R202, R394). -/

namespace Sys2Proof.Machine

/-! ### Items of a stairwell (R190, R192, R193, R195, R198, R201) -/

section
variable {s : State} {h : HallId} {sw : SwId} {sel : State → List WorkItem → WorkItem → Bool} {n : Nat} {i : WorkItem}
  {x : Step} {b : Board}

/-- The item that a stairwell takes is worked on in the state without it. -/
theorem leafWork_taken (taken : ItemTaken s h sw sel n i x b) (k : State → WorkItem → Step → Board → Option State) :
    leafWork s h sw sel k = (k (itemGone s h sw n) i x b).getD (dropStale s h sw) := by
  simp only [leafWork, itemGone, taken.runs, taken.first, taken.item, taken.step, taken.board, Bool.not_true,
    Bool.false_eq_true, if_false]

theorem leafWork_answers (taken : ItemTaken s h sw sel n i x b) {k : State → WorkItem → Step → Board → Option State}
    {t : State} (answer : k (itemGone s h sw n) i x b = some t) : leafWork s h sw sel k = t := by
  rw [leafWork_taken taken, answer, Option.getD_some]

theorem leafMove_taken (taken : ItemTaken s h sw (fun s _ i => i.kind == .move && moveFirst s i) n i x b) {t : State}
    (moved : runMove (itemGone s h sw n) h i x = some t) : exec (.leafMove h sw) s = .next t :=
  congrArg Host.Outcome.next (leafWork_answers taken moved)

theorem leafGather_taken (taken : ItemTaken s h sw (fun _ _ i => i.kind == .gather) n i x b) :
    exec (.leafGather h sw) s = .next ((itemGone s h sw n).modStep i.step fun y =>
      { y with gathers := y.gathers ++ [(i.layer, i.inCount, i.halls)] }) :=
  congrArg Host.Outcome.next (leafWork_answers taken rfl)

variable {t : StepRows} (rows : rowsFor (itemGone s h sw n) h sw i = some t)
include rows

theorem leafAppend_taken (taken : ItemTaken s h sw (fun s _ i => i.kind == .append && (rowsFor s h sw i).isSome) n i x b)
    {z : State} (appended : runAppend (itemGone s h sw n) h i x t = some z) : exec (.leafAppend h sw) s = .next z :=
  congrArg Host.Outcome.next (leafWork_answers taken (by simp only [rows, appended]))

theorem leafAttend_taken (taken : ItemTaken s h sw (attendReady h sw) n i x b) {z : State}
    (attended : runAttendItem (itemGone s h sw n) h sw i x t = some z) : exec (.leafAttend h sw) s = .next z :=
  congrArg Host.Outcome.next (leafWork_answers taken (by simp only [rows, attended]))

end

section
variable {u : State} {h : HallId} {sw : SwId} {i : WorkItem} {x : Step} {t : StepRows}

/-- Sound rows that nothing holds are written one after the other, and DT is set on a leaf that is no new block (R165). -/
theorem runAppend_writes
    (free : ((List.range i.newCount).any fun j =>
      u.colHeld h i.owner (keyAt (u.planOf x.vol.toNat) i.slot (i.rowTo + j)) (u.planOf x.vol.toNat).rowLen true
        || u.colHeld h i.owner (valueAt (u.planOf x.vol.toNat) i.slot (i.rowTo + j)) (u.planOf x.vol.toNat).rowLen true) =
      false)
    (served : u.colServed h i.owner = true) (unlocked : volLocked u x.vol.toNat = false)
    (sound : ((List.range i.newCount).any fun j =>
      beatPoison (t.keys.getD (i.newBase + j) []) || beatPoison (t.values.getD (i.newBase + j) [])) = false) :
    runAppend u h i x t =
      let z := (List.range i.newCount).foldl (fun s j =>
        appendRow s (u.planOf x.vol.toNat) t (Region.column h i.owner) i.slot (i.newBase + j) (i.rowTo + j)) u
      some (if x.blocks.any fun k => k.idx == i.index then z else setDt z x.vol.toNat i.index) := by
  simp only [runAppend, free, served, unlocked, sound, Bool.not_true, Bool.or_self, Bool.false_eq_true, if_false]

/-- The press path of an item takes accumulator sets 6 and 7 and no poison (R193). -/
theorem runAttendItem_press (press : i.press = true) (free6 : (u.accSet h sw 6).isOpen = false)
    (free7 : (u.accSet h sw 7).isOpen = false) (leaf : u.colHeld h i.owner (i.slot * 65536) 65536 false = false)
    (sound : ((pressAttend u h i x (u.planOf x.vol.toNat) t).any fun q => q.poison) = false) :
    runAttendItem u h sw i x t = some (u.modStep i.step fun y =>
      { y with hops := hopMod y.hops i.layer h sw (fun k => k.own (pressAttend u h i x (u.planOf x.vol.toNat) t))
               press := true }) := by
  simp only [runAttendItem, press, free6, free7, leaf, sound, Bool.true_or, Bool.or_true, Bool.or_self,
    Bool.false_eq_true, if_true, if_false]

/-- The landing path of an item takes an idle landing that serves and no poison (R192). -/
theorem runAttendItem_landing (landed : i.press = false) (serves : landingServes u h i = true)
    (idle : (u.landing h i.owner (i.slot % 12)).queue = [])
    (sound : ((landAttend u h i x (u.planOf x.vol.toNat) t).2.any fun q => q.poison) = false) :
    runAttendItem u h sw i x t = some ((landAttend u h i x (u.planOf x.vol.toNat) t).1.modStep i.step fun y =>
      { y with hops := hopMod y.hops i.layer h sw (fun k => k.own (landAttend u h i x (u.planOf x.vol.toNat) t).2) }) := by
  simp only [runAttendItem, landed, serves, idle, sound, Bool.not_true, Bool.or_false, List.isEmpty_nil,
    Bool.false_eq_true, if_false]

end

/-! ### Rows between the board and the hops (R196 to R198) -/

section
variable {s : State} {st : Nat} {x : Step} {b : Board} (found : s.step? st = some x)
include found

theorem mergeForward_ready {h : HallId} {sw : SwId} {k : Hop} {r : Nat} {p : PartRow} (runs : s.swRuns h sw = true)
    (hop : (x.hops.find? fun k => k.hall == h && k.sw == sw && k.ready.isSome) = some k) (ready : k.ready = some (r, p)) :
    exec (.mergeForward st h sw) s = .next (s.setStep st { x with
      msgs := x.msgs ++ [{ layer := k.layer, toBoard := k.nextBoard, hall := k.nextHall, sw := k.nextSw, fromHall := h,
                           row := r, part := p }]
      hops := x.hops.map (fun q => if q = k then { q with fwd := q.fwd ++ [r] } else q) }) := by
  change execMergeForward st h sw s = _
  simp only [execMergeForward, found, hop, ready, runs, if_true]

variable (board : boardOf s x = some b)
include board

theorem boardSendRows_sends {g : Nat × Nat × Nat} (runs : s.swRuns b.hall b.sw = true)
    (gather : x.gathers.find? (fun g => g.1 == x.sentTo) = some g) (phase : x.phase = .run) (whole : x.lost = false)
    (done : x.layersDone = x.sentTo) (go : laneFlag s x 1 = true) :
    exec (.boardSendRows st) s = .next (laneOp ((sendRows s g.2.2 (boardRowsOf s st x b x.sentTo)).setStep st
      { x with sentTo := x.sentTo + 1, boardRows := [], boardGot := [], boardNeed := g.2.1 }) x 1 0x21 0) := by
  change execBoardSendRows st s = _
  simp only [execBoardSendRows, found, board, gather, phase, whole, runs, done, go, and_self, if_true]

section
variable {i : Nat} {m : PartMsg} (message : x.msgs[i]? = some m)
include message

theorem partialArrive_board (runs : s.swRuns b.hall b.sw = true) (toBoard : m.toBoard = true)
    (layer : m.layer = x.layersDone) (sent : m.layer < x.sentTo) :
    exec (.partialArrive st i) s = .next (boardTake s st { x with msgs := x.msgs.eraseIdx i } b m) := by
  change execPartialArrive st i s = _
  rw [layer] at sent
  simp only [execPartialArrive, found, message, board, toBoard, runs, layer, sent, beq_self_eq_true, decide_true,
    Bool.and_self, if_true]

theorem partialArrive_hop (hop : m.toBoard = false) (runs : s.swRuns m.hall m.sw = true) :
    exec (.partialArrive st i) s = .next (s.setStep st { x with
      msgs := x.msgs.eraseIdx i, hops := hopMod x.hops m.layer m.hall m.sw (fun k => k.take m.row m.part) }) := by
  change execPartialArrive st i s = _
  simp only [execPartialArrive, found, message, board, hop, runs, Bool.false_eq_true, if_true, if_false]

end

end

/-! ### The end of a step or of a run (R199 to R202, R394) -/

/-- While no binding locks anything of a volume, none locks its descriptor (R228). -/
theorem not_descLocked_of_not_volLocked {s : State} {v : VolId} (unlocked : volLocked s v.toNat = false) :
    descLocked s v = false := by
  simp only [volLocked, List.any_eq_false] at unlocked
  refine List.any_eq_false.mpr fun q bind holds => unlocked q bind ?_
  obtain ⟨l, lock, desc⟩ := List.any_eq_true.mp holds
  exact List.any_eq_true.mpr ⟨l, lock, by simp only [eq_of_beq desc, beq_self_eq_true]⟩

/-- A step that holds no poison, whose moves are done and whose run stands commits (R202). -/
theorem decideRest_commits {s : State} {n : Nat} {x : Step} {b : Board} (moved : x.movesLeft = 0) (front : x.todo = [])
    (sound : x.poison = false) (stands : runVoid s x = false) (unlocked : volLocked s x.vol.toNat = false) :
    decideRest s n x b = commitStep s n x b := by
  simp [decideRest, moved, front, sound, stands, unlocked, not_descLocked_of_not_volLocked unlocked]

theorem Step.endable_run {x : Step} (phase : x.phase = .run) : x.endable = true := by
  simp [Step.endable, phase]

section
variable {s : State} {st : Nat} {x : Step} {b : Board} (found : s.step? st = some x) (board : boardOf s x = some b)
  (up : s.hallUp x.home = true)
include found board up

theorem stepDecide_commits (runs : s.swRuns b.hall b.sw = true) (going : x.halt = none) (sound : x.poison = false)
    (stands : runVoid s x = false) (unlocked : volLocked s x.vol.toNat = false) (phase : x.phase = .decide)
    (moved : x.movesLeft = 0) (front : x.todo = []) : exec (.stepDecide st) s = .next (commitStep s st x b) := by
  change execStepDecide st s = _
  rw [← decideRest_commits moved front sound stands unlocked]
  simp [execStepDecide, found, board, up, going, runs, phase]

variable (phase : x.phase = .run)
include phase

theorem stepDecide_halted (halted : x.halt.isSome = true) :
    exec (.stepDecide st) s = .next (endStep s st Status.queueHalted (0, 0, false)) := by
  change execStepDecide st s = _
  simp [execStepDecide, found, board, up, Step.endable_run phase, halted]

theorem stepRunVoid_board_lost {w : Nat × Nat × Bool} (lost : boardLost s b = some w) :
    exec (.stepRunVoid st) s = .next (endStep s st Status.unitFenced w) := by
  change execStepRunVoid st s = _
  simp [execStepRunVoid, found, board, up, phase, Step.endable_run phase, lost]

theorem stepRunVoid_recovers {a : List (Nat × Nat)} (runs : s.swRuns b.hall b.sw = true) (kept : boardLost s b = none)
    (lost : x.lost = true) (recovered : recoverAll s x (laneRuns (s.planOf x.vol.toNat) x) [] = .ok a) :
    exec (.stepRunVoid st) s = .next (voidRun (s.modStep st fun y => { y with standby := y.standby ++ a }) st) := by
  change execStepRunVoid st s = _
  simp [execStepRunVoid, found, board, up, phase, Step.endable_run phase, kept, recovered, runs, lost]

end

/-- Settles O47: each clause is the equation of its command, for the item that a stairwell takes or for a step with its
board. -/
theorem leafWorkAndDecisions : Obligations.LeafWorkAndDecisions :=
  ⟨fun _ _ _ _ _ _ _ =>
    ⟨fun taken _ rows free served unlocked sound =>
        leafAppend_taken rows taken (runAppend_writes free served unlocked sound),
      fun taken _ rows =>
        ⟨fun press free6 free7 leaf sound =>
            leafAttend_taken rows taken (runAttendItem_press press free6 free7 leaf sound),
          fun landed serves idle sound =>
            leafAttend_taken rows taken (runAttendItem_landing landed serves idle sound)⟩,
      fun taken _ moved => leafMove_taken taken moved,
      leafGather_taken⟩,
    fun _ _ _ _ found board =>
      ⟨fun runs =>
        ⟨fun _ => boardSendRows_sends found board runs,
          fun _ _ message => partialArrive_board found board message runs,
          fun up => stepDecide_commits found board up runs,
          fun _ up phase => stepRunVoid_recovers found board up phase runs⟩,
        stepDecide_halted found board,
        fun _ up phase => stepRunVoid_board_lost found board up phase,
        fun _ _ message => partialArrive_hop found board message,
        fun _ _ _ _ _ => mergeForward_ready found⟩⟩

end Sys2Proof.Machine
end

section
/-! Clasps: which waiters a test wakes, what an operation does to its cell, and what a command does that its home performs
(R206 to R208, R211, R213, R214, R218, R219, log entry 114). -/

namespace Sys2Proof.Machine

/-! ### Waiters (R211, R213) -/

/-- Waking a waiter for a value leaves the cell as it is for the waiters behind it. -/
theorem testWaiters_cons_value {c : Clasp} {w : Waiter} {l : List Waiter} (value : ∀ o, w.cond ≠ .take o) :
    testWaiters c (w :: l) = if condHolds c w.cond then ((testWaiters c l).1, w :: (testWaiters c l).2)
      else ({ (testWaiters c l).1 with waiters := w :: (testWaiters c l).1.waiters }, (testWaiters c l).2) := by
  obtain ⟨who, cond, old, typ⟩ := w
  cases cond with
  | take o => exact absurd rfl (value o)
  | reach v => rfl
  | flagIs b => rfl

theorem testWaiters_values {c : Clasp} {l : List Waiter} (values : ∀ w ∈ l, ∀ o, w.cond ≠ .take o) :
    testWaiters c l = ({ c with waiters := l.filter fun w => !condHolds c w.cond },
      l.filter fun w => condHolds c w.cond) := by
  induction l with
  | nil => rfl
  | cons w l ih =>
    rw [testWaiters_cons_value (values w List.mem_cons_self), ih fun x hx => values x (List.mem_cons_of_mem w hx)]
    cases holds : condHolds c w.cond <;> simp [holds]

theorem testWaiters_none_holds {c : Clasp} {l : List Waiter} (fails : ∀ w ∈ l, condHolds c w.cond = false) :
    testWaiters c l = ({ c with waiters := l }, []) := by
  induction l with
  | nil => rfl
  | cons w l ih =>
    simp only [testWaiters, fails w List.mem_cons_self, ih fun x hx => fails x (List.mem_cons_of_mem w hx),
      Bool.false_eq_true, if_false]

/-- A held lock keeps all who wait to take it. -/
theorem testWaiters_held {c : Clasp} {l : List Waiter} (held : lockHeld c.val = true)
    (takers : ∀ x ∈ l, ∃ p, x.cond = .take p) : testWaiters c l = ({ c with waiters := l }, []) :=
  testWaiters_none_holds fun x hx => by
    obtain ⟨p, take⟩ := takers x hx
    simp [take, condHolds, held]

/-- The value that hands a lock over has HELD set (Table 7.1). -/
theorem lockHeld_ofNat {o : Nat} (low : 2 ^ 31 ≤ o) (high : o < 2 ^ 32) : lockHeld (BitVec.ofNat 32 o) = true := by
  simp only [lockHeld, bitAt, BitVec.getLsbD_ofNat, Nat.testBit_eq_decide_div_mod_eq, Bool.and_eq_true, decide_eq_true_eq]
  omega

/-- A free lock goes to the oldest taker and is then held against the others. -/
theorem testWaiters_handed {c : Clasp} {w : Waiter} {l : List Waiter} {o : Nat} (take : w.cond = .take o)
    (low : 2 ^ 31 ≤ o) (high : o < 2 ^ 32) (takers : ∀ x ∈ l, ∃ p, x.cond = .take p) (free : lockHeld c.val = false) :
    testWaiters c (w :: l) = ({ c with val := BitVec.ofNat 32 o, waiters := l }, [w]) := by
  have others := testWaiters_held (c := { c with val := BitVec.ofNat 32 o }) (lockHeld_ofNat low high) takers
  simp [testWaiters, take, condHolds, free, others]

/-- Settles O27: waiters for a value by induction over their list; of takers the oldest is handed a free lock, which is then
held. -/
theorem waitersWakeInOrder : Obligations.WaitersWakeInOrder := fun _ _ =>
  ⟨fun values => by simp [testWaiters_values values],
    fun _ _ take low high takers =>
      ⟨fun held => testWaiters_held held (List.forall_mem_cons.2 ⟨⟨_, take⟩, takers⟩),
        testWaiters_handed take low high takers⟩⟩

/-! ### What an operation does to its cell (Table 7.2) -/

section
variable {c : Clasp} {t : ClaspType}

theorem cellInit_idle {v : Word} (idle : c.waiters = []) : cellInit c t v = .ok { typ := t, val := v } := by
  simp [cellInit, idle]

theorem cellInit_waited {v : Word} (waited : c.waiters ≠ []) : cellInit c t v = .fail Status.claspBusy := by
  simp [cellInit, waited]

theorem cellWait_reached {v : Word} {w : WaitCond} (reached : (c.val - v).toNat < 2 ^ 31) :
    cellWait c (reaches c.val v) w = .ok c := if_pos (decide_eq_true reached)

theorem cellWait_unreached {v : Word} {w : WaitCond} (short : 2 ^ 31 ≤ (c.val - v).toNat) :
    cellWait c (reaches c.val v) w = .wait c w := if_neg fun reached => Nat.not_lt.2 short (of_decide_eq_true reached)

variable (kept : c.lost = false)
include kept

theorem onType_same {k r : CellResult} (typed : c.typ = t) (result : k = r) : onType c t k = r := by
  simp [onType, kept, typed, result]

theorem onType_other {k : CellResult} (other : c.typ ≠ t) : onType c t k = .fail Status.claspType := by
  simp [onType, kept, other]

end

/-! ### A command that its home performs now (R207, R214) -/

/-- What a requester may ask of a home that performs it now is presented: even a waiting CLASP_OP finds a record waiter free
(R214). -/
theorem claspRequest_ready {s : State} {rq : Requester} {cop : Nat} {k : ClaspId} {v : Word}
    (r : ClaspReady s rq cop k v) : claspRequest s rq cop k v = present s rq cop k v 0 true := by
  obtain ⟨asked, allowed, -, -, -, room⟩ := r
  cases rq with
  | host c =>
    cases held : s.claim? c with
    | none => simp [asks, held] at asked
    | some x => simp [claspRequest, asked, allowed, held, Nat.not_le.2 (room c x rfl held)]
  | strand | dma | usher | binding => simp [claspRequest, asked, allowed]

section
variable {s : State} {rq : Requester} {cop : Nat} {k : ClaspId} {v : Word} {i : Instr} {c : Clasp}
  (e : exec i s = .next (settle (claspRequest s rq cop k v))) (r : ClaspReady s rq cop k v)
include e r

theorem exec_clasp_performed (ok : cellOp (s.clasp k.toNat) (requesterHall rq) cop v true = .ok c) :
    exec i s = .next (performed s rq k c) := by
  simp only [e, claspRequest_ready r, present, r.home, r.free, ok, performed, Bool.false_eq_true, if_false]

theorem exec_clasp_waits {w : WaitCond} (waits : cellOp (s.clasp k.toNat) (requesterHall rq) cop v true = .wait c w) :
    exec i s = .next (settle (registerWait s rq cop k v c w (s.clasp k.toNat))) := by
  simp only [e, claspRequest_ready r, present, r.home, r.free, waits, Bool.false_eq_true, if_false]

theorem exec_clasp_failed {st : Nat} (fails : cellOp (s.clasp k.toNat) (requesterHall rq) cop v true = .fail st) :
    exec i s = .next (settle (claspFail s rq k.toNat st (s.clasp k.toNat).typ)) := by
  simp only [e, claspRequest_ready r, present, r.home, r.free, fails, Bool.false_eq_true, if_false]

end

/-- Settles O24: INIT and DROP of a cell turn on whether it has waiters. -/
theorem claspsAreInitialisedAndDropped : Obligations.ClaspsAreInitialisedAndDropped := fun _ _ _ _ =>
  ⟨fun idle =>
      ⟨fun r => exec_clasp_performed rfl r (cellInit_idle idle), fun r => exec_clasp_performed rfl r (cellInit_idle idle),
        fun r => exec_clasp_performed rfl r (cellInit_idle idle),
        fun r => exec_clasp_performed rfl r ((if_neg (ne_true_of_eq_false r.kept)).trans (cellInit_idle idle))⟩,
    fun waited =>
      ⟨fun r => exec_clasp_failed rfl r (cellInit_waited waited), fun r => exec_clasp_failed rfl r (cellInit_waited waited),
        fun r => exec_clasp_failed rfl r (cellInit_waited waited),
        fun r => exec_clasp_failed rfl r ((if_neg (ne_true_of_eq_false r.kept)).trans (cellInit_waited waited))⟩⟩

/-- Settles O25: each operation is its row of Table 7.2 on a counter, and CLASP_TYPE on another cell. -/
theorem counterOperations : Obligations.CounterOperations := fun _ _ _ _ =>
  ⟨fun counter =>
      ⟨fun r => exec_clasp_performed rfl r (onType_same r.kept counter rfl),
        fun r => exec_clasp_performed rfl r (onType_same r.kept counter rfl),
        fun r reached => exec_clasp_performed rfl r (onType_same r.kept counter (cellWait_reached reached)),
        fun r short => exec_clasp_waits rfl r (onType_same r.kept counter (cellWait_unreached short)),
        fun r reached => exec_clasp_performed rfl r (onType_same r.kept counter (cellWait_reached reached)),
        fun r short => exec_clasp_waits rfl r (onType_same r.kept counter (cellWait_unreached short))⟩,
    fun other =>
      ⟨fun r => exec_clasp_failed rfl r (onType_other r.kept other),
        fun r => exec_clasp_failed rfl r (onType_other r.kept other),
        fun r => exec_clasp_failed rfl r (onType_other r.kept other),
        fun r => exec_clasp_failed rfl r (onType_other r.kept other)⟩⟩

/-- Settles O26: each operation is its row of Table 7.2 on a flag, or on a lock that is free or held. -/
theorem flagAndLockOperations : Obligations.FlagAndLockOperations := fun _ _ _ _ =>
  ⟨fun flag =>
      ⟨fun r => exec_clasp_performed rfl r (onType_same r.kept flag rfl),
        fun r => exec_clasp_performed rfl r (onType_same r.kept flag rfl),
        fun r equal => exec_clasp_performed rfl r (onType_same r.kept flag (if_pos (beq_iff_eq.2 equal))),
        fun r differs => exec_clasp_waits rfl r (onType_same r.kept flag (if_neg (mt beq_iff_eq.1 differs)))⟩,
    fun lock =>
      ⟨fun r free => exec_clasp_performed rfl r (onType_same r.kept lock (if_neg (ne_true_of_eq_false free))),
        fun r held => lock ▸ exec_clasp_failed rfl r (onType_same r.kept lock (if_pos held)),
        fun r free => exec_clasp_performed rfl r (onType_same r.kept lock (if_neg (ne_true_of_eq_false free))),
        fun r held => exec_clasp_waits rfl r (onType_same r.kept lock (if_pos held)),
        fun r held sound owner hall =>
          exec_clasp_performed rfl r (onType_same r.kept lock (if_pos (by simp [held, sound, owner, hall]))),
        fun r barred => lock ▸ exec_clasp_failed rfl r
          (onType_same r.kept lock (if_neg (by simpa [imp_iff_not_or, or_assoc] using barred))),
        fun r => exec_clasp_performed rfl r (onType_same r.kept lock rfl)⟩⟩

end Sys2Proof.Machine
end

section
/-! Presentations: CLASP_OP, an operation that meets a reset, and what is presented again once it is due (R207, R209, R214,
R218, R228, R303, log entry 117). -/

namespace Sys2Proof.Machine

/-! ### Clasp operations -/

theorem claspOp_presents {s : State} {c : Nat} {x : Claim} (b : Begins s c 0x31 x) (up : s.hallUp x.hall = true)
    (clean : anySet x.desc [(8, 8, 24), (0x0C, 16, 16), (0x14, 0, 352)] = false) :
    exec (.claspOp c) s = .next (settle (claspRequest s (.host c) (fld x.desc 8 0 8)
      (BitVec.ofNat 16 (fld x.desc 0x0C 0 16)) (BitVec.ofNat 32 (fld x.desc 0x10 0 32)))) := by
  change execClaspOp c s = _
  simp only [execClaspOp, withClaim_begins b, up, clean, Bool.not_true, Bool.false_eq_true, if_false]

/-- TARGET_RESETTING at the first presentation: 1 µs, and 2 µs for the next (R218). -/
theorem present_computeReset {s : State} {rq : Requester} {cop : Nat} {k : ClaspId} {v : Word}
    (reset : (s.hall (claspHome k.toNat)).state = .computeReset) :
    present s rq cop k v 0 true = setAside (s.noteReset (claspHome k.toNat)) rq cop k v 1 2 true := by
  simp [present, reset]

section
variable {s : State} {i : Nat} {r : Retry} (aside : s.retries[i]? = some r) {backoff : Bool}
include aside

theorem representAt_due (due : r.due ≤ s.now) (kind : 0 < r.interval ↔ backoff = true)
    (first : ∀ q ∈ s.retries.take i, q.who ≠ r.who ∨ q.clasp ≠ r.clasp) :
    representAt s i backoff =
      present { s with retries := s.retries.eraseIdx i } r.who r.cop r.clasp r.opnd r.interval r.first := by
  have none_earlier : ((s.retries.take i).any fun q => q.who == r.who && q.clasp == r.clasp) = false := by
    simpa [imp_iff_not_or] using first
  simp only [representAt, aside]
  exact if_pos ⟨due, propext kind, none_earlier⟩

theorem representAt_not_due (early : s.now < r.due ∨ ¬∀ q ∈ s.retries.take i, q.who ≠ r.who ∨ q.clasp ≠ r.clasp) :
    representAt s i backoff = s := by
  simp only [representAt, aside]
  refine if_neg fun ⟨due, _, none_earlier⟩ => ?_
  rcases early with early | early
  · exact Nat.not_le.2 early due
  · exact early (by simpa [imp_iff_not_or] using none_earlier)

end

/-! ### Packets, DMA requests and leaf work (R303) -/

section
variable {s : State} {h : HallId} {i : Nat} {e : NetSent} {b : Backoff} (sent : (s.hall h).netSent[i]? = some e)
  (back : e.back = some b)
include sent back

theorem netRepresent_due (net : s.hallNet h = true) (sends : netSends s h e.pkt.src = true) (ready : b.ready s.now = true) :
    netRepresent s h i = netPlace (s.modHall h fun x =>
      { x with netSent := x.netSent.set i { e with back := some { b with due := none } } }) h e.pkt e.inp := by
  simp only [netRepresent, sent, back, net, sends, ready, Bool.and_self, if_true]

theorem netRepresent_not_due (early : b.ready s.now = false) : netRepresent s h i = s := by
  simp only [netRepresent, sent, back, early, Bool.and_false, Bool.false_eq_true, if_false]

end

section
variable {s : State} {h : HallId} {ch : ChId} {b : Backoff} (back : (s.chan h ch).back = some b)
include back

theorem chanRepresent_due (up : s.hallUp h = true) (ready : b.ready s.now = true) :
    chanRepresent s h ch =
      let t := s.setChan h ch { s.chan h ch with back := some { b with due := none } }
      if (s.chan h ch).move.isNone then nextMove t h ch else if burstOk t h ch then burstOne t h ch else t := by
  simp only [chanRepresent, back, up, ready, Bool.and_self, if_true]

theorem chanRepresent_not_due (early : b.ready s.now = false) : chanRepresent s h ch = s := by
  simp only [chanRepresent, back, early, Bool.and_false, Bool.false_eq_true, if_false]

end

section
variable {s : State} {st : Nat} {x : Step} {h : HallId} {b : Backoff} (found : s.step? st = some x)
  (back : sfind x.backs h = some b)
include found back

theorem itemRepresent_due (up : s.hallUp x.home = true) (kept : x.lost = false) (ready : b.ready s.now = true) :
    itemRepresent s st h = emitItem s st x (some h) := by
  simp only [itemRepresent, found, back, up, kept, ready, Bool.not_false, Bool.and_self, if_true]

theorem itemRepresent_not_due (early : b.ready s.now = false) : itemRepresent s st h = s := by
  simp only [itemRepresent, found, back, early, Bool.and_false, Bool.false_eq_true, if_false]

end

/-- Settles O28: each clause is what its command presents, for one kind of request that is due or not. -/
theorem claspOpAndPresentationsAgain : Obligations.ClaspOpAndPresentationsAgain := fun _ =>
  ⟨fun _ _ held code stage up clean => claspOp_presents ⟨held, .inl stage, code⟩ up clean,
    fun _ _ _ _ => present_computeReset,
    fun _ r aside =>
      ⟨fun due first full => congrArg (Host.Outcome.next ∘ settle)
          ((representAt_due aside (backoff := false) due (by simp [full]) first).trans (by rw [full])),
        fun due first reset => congrArg (Host.Outcome.next ∘ settle) (representAt_due aside due (by simp [reset]) first),
        fun early => ⟨congrArg (Host.Outcome.next ∘ settle) (representAt_not_due aside early),
          congrArg (Host.Outcome.next ∘ settle) (representAt_not_due aside early)⟩⟩,
    fun _ _ _ _ sent back =>
      ⟨fun net sends ready => congrArg Host.Outcome.next (netRepresent_due sent back net sends ready),
        fun early => congrArg Host.Outcome.next (netRepresent_not_due sent back early)⟩,
    fun _ _ _ back =>
      ⟨fun up ready idle => congrArg Host.Outcome.next ((chanRepresent_due back up ready).trans (if_pos (by simp [idle]))),
        fun up ready moving burst => congrArg Host.Outcome.next ((chanRepresent_due back up ready).trans
          ((if_neg (by simpa [Option.isSome_iff_ne_none] using moving)).trans (if_pos burst))),
        fun early => congrArg Host.Outcome.next (chanRepresent_not_due back early)⟩,
    fun _ _ _ _ found back =>
      ⟨fun up kept ready => congrArg Host.Outcome.next (itemRepresent_due found back up kept ready),
        fun early => congrArg Host.Outcome.next (itemRepresent_not_due found back early)⟩⟩

end Sys2Proof.Machine
end

section
/-! Software's bindings: one equation per command, before the commit point, at it and after a fault (R221, R225 to R227,
R229, R230, R385, log entry 115). -/

namespace Sys2Proof.Machine

/-! ### BIND (R221) -/

theorem State.setStage_claims (s : State) (c : Nat) (g : ClaimStage) :
    s.setStage c g = { s with claims := (s.setStage c g).claims } := by
  unfold State.setStage
  split <;> rfl

/-- The binding that a BIND with a good body begins. -/
def bindForwarded (s : State) (c : Nat) (x : Claim) : Binding :=
  let n := fld x.desc 8 0 5
  let a := fld x.desc 0x0C 0 32 + fld x.desc 0x10 0 8 * 2 ^ 32
  let at_ := Fin.ofNat 12 (bindCoord (bindHalls s (readActs s a n)) x.hall)
  { claim := c, post := x.hall, atHall := at_, nact := n, list := a, acts := [], datas := [],
    halls := [], coord := at_, phase := .fetch, prepared := [], prepAt := [], applied := [],
    lostActs := [], locks := [], actAt := [], drops := [], partly := [], logA := false, logB := false, status := 0,
    failAct := none, failHall := x.hall }

section
variable {s : State} {c : Nat} {x : Claim} (b : Begins s c 0x30 x) (up : s.hallUp x.hall = true)
include b up

theorem bind_refused {st : Nat} (bad : bindBodyStatus s x.desc = some st) : exec (.bind c) s = .next (s.finish c st) := by
  change execBind c s = _
  simp only [execBind, withClaim_begins b, up, bad, Bool.not_true, Bool.false_eq_true, if_false]

theorem bind_forwards (good : bindBodyStatus s x.desc = none) :
    exec (.bind c) s = .next (State.setStage { s.setBind s.nextBind (bindForwarded s c x) with
      nextBind := s.nextBind + 1 } c .forwarded) := by
  change execBind c s = _
  simp only [execBind, withClaim_begins b, up, good, bindForwarded, Bool.not_true, Bool.false_eq_true, if_false]

end

/-! ### From the fetch to the record (R225 to R227, R230) -/

/-- A binding once a hall has prepared: its locks are taken, and the last hall makes it PREPARED. -/
def Binding.preparedAt (b : Binding) (s : State) (h : HallId) : Binding :=
  let y := { b with
    prepared := b.prepared ++ [h], prepAt := sset b.prepAt h s.now,
    locks := b.locks ++ (b.keys s h).map (fun (k : Nat × LockKey) => (h, k.2)) }
  if y.nextHall.isNone then { y with phase := .prepared, drops := y.refDrops s } else y

/-- A binding once a hall has applied: the last hall makes it applied. -/
def Binding.appliedIfAll (b : Binding) : Binding :=
  if b.halls.all fun g => b.applied.elem g then { b with phase := .applied } else b

section
variable {s : State} {n : Nat} {b : Binding} (found : sfind s.binds n = some b)
include found

section
variable (phase : b.phase = .fetch)
include phase

theorem bindForward_fetches (up : s.hallUp b.atHall = true) (slot : bindSlots s b.atHall < bindSlotLimit) :
    exec (.bindForward n) s = .next (bindFetch s n b) := by
  change execBindForward n s = _
  simp only [execBindForward, found, phase, up, Nat.not_le.2 slot, Bool.not_true, Bool.false_eq_true, if_true, if_false]

theorem bindForward_hall_lost (down : s.hallUp b.atHall = false) :
    exec (.bindForward n) s =
      .next (bindFail s n { b with halls := [b.atHall] } Status.bindAborted none b.atHall) := by
  change execBindForward n s = _
  simp only [execBindForward, found, phase, down, Bool.not_false, if_true]

end

section
variable {h : HallId} (phase : b.phase = .prepare) (turn : b.nextHall = some h)
include phase turn

theorem bindPrepare_hall_lost (down : s.hallUp h = false) :
    exec (.bindPrepare n) s = .next (bindFail s n b Status.bindAborted none h) := by
  change execBindPrepare n s = _
  simp only [execBindPrepare, found, phase, turn, down, Bool.not_false, if_true]

variable (up : s.hallUp h = true) (slot : h = b.coord ∨ bindSlots s h < bindSlotLimit)
include up slot

/-- BIND_PREPARE at a hall in service with a slot: what the hall's tests answer. -/
theorem bindPrepare_tests :
    (∀ i st, prepareFails s n b h = some (i, st) →
      exec (.bindPrepare n) s = .next (bindFail s n b st (some i) h)) ∧
    (prepareFails s n b h = none → exec (.bindPrepare n) s = .next (s.setBind n (b.preparedAt s h))) := by
  have has_slot : ¬(h ≠ b.coord ∧ bindSlotLimit ≤ bindSlots s h) := fun ⟨other, full⟩ =>
    slot.elim other (Nat.not_lt.2 full)
  refine ⟨fun i st fails => ?_, fun passes => ?_⟩ <;> change execBindPrepare n s = _
  · simp only [execBindPrepare, found, phase, turn, up, has_slot, fails, Bool.not_true, Bool.false_eq_true, if_false]
  · simp only [execBindPrepare, found, phase, turn, up, has_slot, passes, Binding.preparedAt, Bool.not_true,
      Bool.false_eq_true, if_false]

end

theorem bindPrepareTimeout_overdue {h : HallId} {a : Nat} (phase : b.phase = .prepare ∨ b.phase = .prepared)
    (since : sfind b.prepAt h = some a) (overdue : a + 5000 ≤ s.now) :
    exec (.bindPrepareTimeout n h) s = .next (bindFail s n b Status.bindAborted none h) := by
  have passed : s.passed a 50 = true := decide_eq_true overdue
  change execBindPrepareTimeout n h s = _
  simp only [execBindPrepareTimeout, found, since, phase, passed, and_self, if_true]

theorem bindPrepared_commits (phase : b.phase = .prepared) (up : s.hallUp b.coord = true) :
    exec (.bindPrepared n) s = .next (s.setBind n { b with phase := .apply }) := by
  change execBindPrepared n s = _
  simp only [execBindPrepared, found, phase, up, and_self, if_true]

theorem bindCommit_applies {h : HallId} (phase : b.phase = .apply) (part : b.halls.elem h = true)
    (owes : b.applied.elem h = false) (up : s.hallUp h = true) (free : memwHeld s b h = false) :
    exec (.bindCommit n h) s =
      .next (settle ((applyHall s b h (b.still h)).setBind n (b.doneAt h).appliedIfAll)) := by
  change execBindCommit n h s = _
  simp only [execBindCommit, bindApply, found, phase, part, owes, up, free, and_self, if_true, Binding.appliedIfAll]

theorem bindDone_records (phase : b.phase = .applied) (up : s.hallUp b.coord = true) :
    exec (.bindDone n) s = .next (bindRecord s n b b.coord Status.ok) := by
  change execBindDone n s = _
  simp only [execBindDone, found, phase, up, and_self, if_true]

theorem bindAbort_records (phase : b.phase = .aborting) :
    exec (.bindAbort n) s = .next (bindRecord s n b b.coord b.status) := by
  change execBindAbort n s = _
  simp only [execBindAbort, found, phase, if_true]

/-! ### After the commit point (R229, R385) -/

section
variable {h : HallId} (finishes : finisher s b = some h) (lost : s.hallUp b.coord = false)
include finishes lost

theorem bindFinishFromLog_records (phase : b.phase = .applied) :
    exec (.bindFinishFromLog n) s = .next (bindRecord s n b h Status.ok) := by
  change execBindFinishFromLog n s = _
  simp only [execBindFinishFromLog, found, finishes, phase, lost, Bool.false_eq_true, if_true, if_false]

theorem bindFinishFromLog_applies (phase : b.phase = .apply) (log : (b.logA && b.logB) = false) :
    exec (.bindFinishFromLog n) s =
      .next (settle ((finishRemote s b).1.setBind n (finishRemote s b).2.appliedIfAll)) := by
  change execBindFinishFromLog n s = _
  simp [execBindFinishFromLog, found, finishes, phase, lost, log, Binding.appliedIfAll]

end

end

/-- Settles O29: each clause is the equation of its command in its phase. -/
theorem bindingsArePreparedAndCommitted : Obligations.BindingsArePreparedAndCommitted := fun s =>
  ⟨fun c x held code stage up =>
      ⟨fun _ => bind_refused ⟨held, .inl stage, code⟩ up, fun good => by
        refine ⟨_, bind_forwards ⟨held, .inl stage, code⟩ up good, ?_⟩
        rw [State.setStage_claims]
        exact ⟨rfl, rfl, rfl, bindForwarded s c x, sfind_sset_same _ _ _, rfl, rfl, rfl, rfl⟩⟩,
    fun _ _ found =>
      ⟨bindForward_fetches found,
        fun _ => bindPrepare_tests found, bindPrepared_commits found, fun _ => bindCommit_applies found,
        bindDone_records found, bindAbort_records found⟩⟩

/-- Settles O30: each clause is the equation of its command when a hall of the binding is lost or late. -/
theorem bindingsAfterAFault : Obligations.BindingsAfterAFault := fun _ _ _ found =>
  ⟨bindForward_hall_lost found, fun _ => bindPrepare_hall_lost found,
    fun _ _ => bindPrepareTimeout_overdue found,
    fun _ finishes lost =>
      ⟨bindFinishFromLog_records found finishes lost, bindFinishFromLog_applies found finishes lost⟩⟩

end Sys2Proof.Machine
end

section
/-! Doorbells and ring set-up: what a write makes of its ring and what a read of the doorbell returns, the bound of every
submission ring along a step, and reset (R238 to R241, R243, R348, R361, R463). -/

namespace Sys2Proof.Machine

/-! ### Rings read after a ring is set -/

theorem State.sq_setSq (s : State) (h i k j : Nat) (r : SubRing) :
    (s.setSq h i r).sq k j = if h = k ∧ i = j then r else s.sq k j := by
  by_cases same : h = k
  · subst same
    simp [State.sq, State.setSq, sget_sset]
  · simp [State.sq, State.setSq, State.hall_modHall_ne s _ same, same]

theorem State.cq_setCq (s : State) (h i k j : Nat) (r : CompRing) :
    (s.setCq h i r).cq k j = if h = k ∧ i = j then r else s.cq k j := by
  by_cases same : h = k
  · subst same
    simp [State.cq, State.setCq, sget_sset]
  · simp [State.cq, State.setCq, State.hall_modHall_ne s _ same, same]

/-- What a change of a hall leaves of that hall it leaves of every hall. -/
theorem State.field_modHall {β : Type} (p : Hall → β) {f : Hall → Hall} (kept : ∀ x, p (f x) = p x) (s : State)
    (h k : Nat) : p ((s.modHall h f).hall k) = p (s.hall k) := by
  unfold State.modHall
  rw [State.hall_setHall]
  split
  · next same => rw [kept, same]
  · rfl

theorem State.field_setSq {β : Type} (p : Hall → β) (kept : ∀ x t, p { x with sq := t } = p x) (s : State)
    (h i k : Nat) (r : SubRing) : p ((s.setSq h i r).hall k) = p (s.hall k) :=
  State.field_modHall p (fun x => kept x _) s h k

theorem State.field_setCq {β : Type} (p : Hall → β) (kept : ∀ x t, p { x with cq := t } = p x) (s : State)
    (h i k : Nat) (r : CompRing) : p ((s.setCq h i r).hall k) = p (s.hall k) :=
  State.field_modHall p (fun x => kept x _) s h k

@[simp] theorem State.sq_setCq (s : State) (h i k j : Nat) (r : CompRing) : (s.setCq h i r).sq k j = s.sq k j :=
  congrArg (sget · ({} : SubRing) j) (State.field_setCq Hall.sq (fun _ _ => rfl) s h i k r)

@[simp] theorem State.cq_setSq (s : State) (h i k j : Nat) (r : SubRing) : (s.setSq h i r).cq k j = s.cq k j :=
  congrArg (sget · ({} : CompRing) j) (State.field_setSq Hall.cq (fun _ _ => rfl) s h i k r)

theorem readDoorbell_sq (s : State) (h : Nat) (i : SqId) : s.readDoorbell h (8 * i) = (s.sq h i).tail := by
  have place : 8 * i.val < 0x800 := by omega
  simp [State.readDoorbell, State.sq, place]

theorem readDoorbell_cq (s : State) (h : Nat) (j : CqId) : s.readDoorbell h (0x800 + 8 * j) = (s.cq h j).head := by
  have place : 0x800 + 8 * j.val < 0xA00 := by omega
  simp [State.readDoorbell, State.cq, place]

/-! ### What a doorbell makes of its ring (R239, R240) -/

/-- A submission ring after a TAIL write. -/
def SubRing.tailWritten (r : SubRing) (t : Word) : SubRing :=
  if sqTailOk r t then { r with tail := t } else { r with err := true }

/-- A completion ring after a HEAD write. -/
def CompRing.headWritten (r : CompRing) (t : Word) : CompRing :=
  if cqHeadOk r t then { r with head := t } else { r with err := true }

theorem sqTailOk_iff (r : SubRing) (t : Word) :
    sqTailOk r t = true ↔ (t - r.claimed).toNat ≤ r.size ∧ (t - r.tail).toNat < 2 ^ 31 := by
  simp [sqTailOk]

theorem cqHeadOk_iff (r : CompRing) (t : Word) :
    cqHeadOk r t = true ↔ (t - r.head).toNat ≤ (r.tail - r.head).toNat := by
  simp [cqHeadOk]

theorem SubRing.tailWritten_tail (r : SubRing) (t : Word) :
    (r.tailWritten t).tail = if sqTailOk r t then t else r.tail := by
  unfold SubRing.tailWritten
  split <;> rfl

theorem CompRing.headWritten_head (r : CompRing) (t : Word) :
    (r.headWritten t).head = if cqHeadOk r t then t else r.head := by
  unfold CompRing.headWritten
  split <;> rfl

/-- Writing the current TAIL of a ring within its bound changes nothing of it. -/
theorem SubRing.tailWritten_self {r : SubRing} (within : (r.tail - r.claimed).toNat ≤ r.size) :
    r.tailWritten r.tail = r :=
  if_pos ((sqTailOk_iff r r.tail).2 ⟨within, by simp⟩)

/-! ### Doorbell writes (R238, R361, R463) -/

theorem doorbellBad_iff (a : Bool) (v : Dword) : doorbellBad a v = true ↔ a = false ∨ 2 ^ 32 ≤ v.toNat := by
  have upper : bits v 63 32 = 0 ↔ v.toNat < 2 ^ 32 := by
    simp only [bits, Nat.shiftRight_eq_div_pow]
    omega
  simp [doorbellBad, upper]

theorem doorbellBad_aligned {v : Dword} (small : v.toNat < 2 ^ 32) : doorbellBad true v = false := by
  rw [Bool.eq_false_iff, ne_eq, doorbellBad_iff]
  simpa using small

section
variable {s : State} {h : HallId}

theorem State.hallWrite_stopped (net : s.hallNet h = true) (stopped : s.running = false) (k : State → State) :
    s.hallWrite h k = s := by
  simp [State.hallWrite, net, stopped]

theorem State.hallWrite_lost (lost : s.hallNet h = false) (k : State → State) :
    s.hallWrite h k = s.emit (.accessFault false) := by
  simp [State.hallWrite, lost]

section
variable (net : s.hallNet h = true) (running : s.running = true)
include net running

theorem sqTailWrite_bad {a : Bool} {v : Dword} (bad : a = false ∨ 2 ^ 32 ≤ v.toNat) (i : SqId) :
    exec (.sqTailWrite h i a v) s = .next (s.modRegs h fun g => { g with badWrite := true }) := by
  change execSqTailWrite h i a v s = _
  rw [execSqTailWrite, State.hallWrite_runs net running, if_pos ((doorbellBad_iff a v).2 bad)]

theorem cqHeadWrite_bad {a : Bool} {v : Dword} (bad : a = false ∨ 2 ^ 32 ≤ v.toNat) (j : CqId) :
    exec (.cqHeadWrite h j a v) s = .next (s.modRegs h fun g => { g with badWrite := true }) := by
  change execCqHeadWrite h j a v s = _
  rw [execCqHeadWrite, State.hallWrite_runs net running, if_pos ((doorbellBad_iff a v).2 bad)]

theorem sqTailWrite_aligned {v : Dword} (small : v.toNat < 2 ^ 32) (i : SqId) :
    exec (.sqTailWrite h i true v) s = .next (s.setSq h i ((s.sq h i).tailWritten (v.truncate 32))) := by
  change execSqTailWrite h i true v s = _
  rw [execSqTailWrite, State.hallWrite_runs net running, doorbellBad_aligned small]
  simp only [Bool.false_eq_true, if_false, SubRing.tailWritten, apply_ite (s.setSq h i)]

theorem cqHeadWrite_aligned {v : Dword} (small : v.toNat < 2 ^ 32) (j : CqId) :
    exec (.cqHeadWrite h j true v) s = .next (s.setCq h j ((s.cq h j).headWritten (v.truncate 32))) := by
  change execCqHeadWrite h j true v s = _
  rw [execCqHeadWrite, State.hallWrite_runs net running, doorbellBad_aligned small]
  simp only [Bool.false_eq_true, if_false, CompRing.headWritten, apply_ite (s.setCq h j)]

theorem ringCfgWrite_runs (g : RingReg) (w : Word) : exec (.ringCfgWrite h g w) s = .next (ringCfg s h g w) :=
  congrArg Host.Outcome.next (State.hallWrite_runs net running _)

end

end

/-- Settles O18: the ring becomes what the TAIL write makes of it, and no other ring is set. -/
theorem tailDoorbell : Obligations.TailDoorbell := by
  intro h i v s net running small r t x
  have wrote : exec (.sqTailWrite h i true v) s = .next (s.setSq h i (r.tailWritten t)) :=
    sqTailWrite_aligned net running small i
  refine ⟨fun fits => ⟨_, wrote, ?_⟩, fun refused => ⟨_, wrote, ?_⟩, fun current within => ⟨_, wrote, fun k j => ?_⟩⟩
  · rw [SubRing.tailWritten, if_pos ((sqTailOk_iff r t).2 fits)]
    exact HallBecomes.of_mod s h _
  · rw [SubRing.tailWritten, if_neg (mt (sqTailOk_iff r t).1 refused)]
    exact HallBecomes.of_mod s h _
  · rw [current, SubRing.tailWritten_self within, State.sq_setSq]
    split
    · next same => rw [← same.1, ← same.2]
    · rfl

/-- Settles O19: the ring becomes what the HEAD write makes of it. -/
theorem headDoorbell : Obligations.HeadDoorbell := by
  intro h i v s net running small r t x
  have wrote : exec (.cqHeadWrite h i true v) s = .next (s.setCq h i (r.headWritten t)) :=
    cqHeadWrite_aligned net running small i
  refine ⟨fun fits => ⟨_, wrote, ?_⟩, fun refused => ⟨_, wrote, ?_⟩⟩
  · rw [CompRing.headWritten, if_pos ((cqHeadOk_iff r t).2 fits)]
    exact HallBecomes.of_mod s h _
  · rw [CompRing.headWritten, if_neg (mt (cqHeadOk_iff r t).1 refused)]
    exact HallBecomes.of_mod s h _

/-- Settles O20: a bad write only sets BAD_WRITE, and the doorbell reads TAIL or HEAD of the ring that an aligned one
wrote. -/
theorem doorbellsTakeOneAlignedWrite : Obligations.DoorbellsTakeOneAlignedWrite := by
  intro h i j a v s
  refine ⟨fun net running bad => ⟨sqTailWrite_bad net running bad i, cqHeadWrite_bad net running bad j⟩,
    fun net running small =>
      ⟨⟨_, sqTailWrite_aligned net running small i, ?_⟩, ⟨_, cqHeadWrite_aligned net running small j, ?_⟩⟩,
    fun net stopped => ⟨congrArg Host.Outcome.next (State.hallWrite_stopped net stopped _),
      congrArg Host.Outcome.next (State.hallWrite_stopped net stopped _)⟩,
    fun lost => ⟨congrArg Host.Outcome.next (State.hallWrite_lost lost _),
      congrArg Host.Outcome.next (State.hallWrite_lost lost _)⟩⟩
  · simp only [readDoorbell_sq, State.sq_setSq, SubRing.tailWritten_tail, and_self, if_true]
  · simp only [readDoorbell_cq, State.cq_setCq, CompRing.headWritten_head, and_self, if_true]

/-! ### Set-up (R241) -/

section
variable {w : Word}

theorem SubRing.cfg_enables {r : SubRing} (off : r.en = false) (lo : 4 ≤ bits w 4 0) (hi : bits w 4 0 ≤ 16)
    (on : bitAt w 6 = true) : r.cfg w =
      { r with log2 := bits w 4 0, prio := bitAt w 5, en := true, err := r.err && !bitAt w 7, tail := 0,
               claimed := 0 } := by
  simp [SubRing.cfg, off, on, Nat.not_lt.2 lo, Nat.not_lt.2 hi]

theorem SubRing.cfg_refused {r : SubRing}
    (bad : (bits w 4 0 < 4 ∨ 16 < bits w 4 0) ∨ (r.en = true ∧ bitAt w 6 = true ∧ bits w 4 0 ≠ r.log2)) :
    r.cfg w = { r with err := true } :=
  if_pos (by simpa [and_assoc] using bad)

theorem CompRing.cfg_enables {r : CompRing} (off : r.en = false) (lo : 4 ≤ bits w 4 0) (hi : bits w 4 0 ≤ 16)
    (on : bitAt w 6 = true) : r.cfg w =
      { r with log2 := bits w 4 0, en := true, err := r.err && !bitAt w 7, irqCount := bits w 15 8,
               irqDelay := bits w 31 16, tail := 0, head := 0, unsig := 0, oldest := none } := by
  simp [CompRing.cfg, off, on, Nat.not_lt.2 lo, Nat.not_lt.2 hi]

end

/-- Settles O21: each clause is the case of one register, with the ring's configuration accepted or refused. -/
theorem ringSetUp : Obligations.RingSetUp := by
  intro h w s net running i j r q n
  have wrote : ∀ g, exec (.ringCfgWrite h g w) s = .next (ringCfg s h g w) := fun g => ringCfgWrite_runs net running g w
  refine ⟨fun off lo hi on => ?_, fun bad => ?_, fun on => ?_, fun off => ?_, fun off lo hi on => ?_, wrote .cqVec⟩
  · rw [wrote, ← SubRing.cfg_enables off lo hi on]
    rfl
  · rw [wrote, ← SubRing.cfg_refused bad]
    rfl
  · exact ⟨(wrote .sqBaseLo).trans (congrArg (Host.Outcome.next ∘ s.setSq h i) (if_pos on)),
      (wrote .sqBaseHi).trans (congrArg (Host.Outcome.next ∘ s.setSq h i) (if_pos on))⟩
  · have disabled : ¬ r.en = true := by simp [off]
    exact ⟨(wrote .sqBaseLo).trans (congrArg (Host.Outcome.next ∘ s.setSq h i) (if_neg disabled)),
      (wrote .sqBaseHi).trans (congrArg (Host.Outcome.next ∘ s.setSq h i) (if_neg disabled))⟩
  · rw [wrote, ← CompRing.cfg_enables off lo hi on]
    rfl

/-! ### The bound of every submission ring, along a step and at reset (R239, R243) -/

/-- Every command keeps each enabled submission ring within its size. -/
theorem exec_keeps_ringsOk {c : Instr} {s t : State} (e : exec c s = .next t) (bound : s.ringsOk) : t.ringsOk := by
  obtain ⟨u, hu, -, k⟩ := exec_keeps_but_fuses c s
  rw [e] at hu
  cases hu
  exact k.rings bound

/-- Settles O14: a step is a reference edge, which leaves the rings, or the front command, which keeps their bound. -/
theorem submissionRingsStayWithinTheirSize : Obligations.SubmissionRingsStayWithinTheirSize := by
  intro s t bound e
  unfold step at e
  split at e
  · cases e
    exact referenceEdge_rings bound
  · exact exec_keeps_ringsOk e bound

/-- Without power every ring is disabled. -/
theorem reset_ringsOk : State.reset.ringsOk := by
  intro h i enabled
  cases enabled

/-- Settles O15: every field of the module without power is at its default. -/
theorem resetMeetsTheInvariants : Obligations.ResetMeetsTheInvariants :=
  ⟨by decide, reset_ringsOk, rfl, rfl, rfl, rfl, rfl, rfl⟩

end Sys2Proof.Machine
end

section
/-! Claiming and completion: the state in which a claim is held, and the one in which its record is written (R242 to R246,
R249, R250, R415, R430). -/

namespace Sys2Proof.Machine

/-! ### A descriptor is claimed (R243, R244, R246) -/

/-- A descriptor with nothing to refuse, taken from the head of ring `i` as `r` holds it: counted, a record reserved, the
claim held. -/
def descHeld (s : State) (h : HallId) (i : SqId) (r : SubRing) (d : Rec64) : State :=
  let q := descCq d
  let u := (s.setSq h i { r with claimed := r.claimed + 1 }).setCq h q { s.cq h q with res := (s.cq h q).res + 1 }
  { u with nextClaim := s.nextClaim + 1, claims := sset s.claims s.nextClaim (claimOf u h i (r.claimed + 1) d) }

theorem State.hall_setSq_ne (s : State) {h k : Nat} (other : h ≠ k) (i : Nat) (r : SubRing) :
    (s.setSq h i r).hall k = s.hall k := State.hall_modHall_ne s _ other

theorem State.hall_setCq_ne (s : State) {h k : Nat} (other : h ≠ k) (i : Nat) (r : CompRing) :
    (s.setCq h i r).hall k = s.hall k := State.hall_modHall_ne s _ other

section
variable (s : State) (h : HallId) (i : SqId) (r : SubRing) (d : Rec64)

theorem descHeld_sq (k j : Nat) : (descHeld s h i r d).sq k j =
    if h.val = k ∧ i.val = j then { r with claimed := r.claimed + 1 } else s.sq k j :=
  (State.sq_setCq _ _ _ _ _ _).trans (State.sq_setSq _ _ _ _ _ _)

theorem descHeld_cq (k j : Nat) : (descHeld s h i r d).cq k j =
    if h.val = k ∧ descCq d = j then { s.cq h j with res := (s.cq h j).res + 1 } else s.cq k j := by
  refine (State.cq_setCq _ _ _ _ _ _).trans ?_
  split
  · next same => rw [same.2]
  · exact State.cq_setSq _ _ _ _ _ _

theorem descHeld_hall_ne {k : Nat} (other : k ≠ h.val) : (descHeld s h i r d).hall k = s.hall k :=
  (State.hall_setCq_ne (s.setSq h i _) other.symm _ _).trans (State.hall_setSq_ne s other.symm _ _)

/-- What is neither a submission nor a completion ring of a hall stands. -/
theorem descHeld_field {β : Type} (p : Hall → β) (sq : ∀ x t, p { x with sq := t } = p x)
    (cq : ∀ x t, p { x with cq := t } = p x) (k : Nat) : p ((descHeld s h i r d).hall k) = p (s.hall k) :=
  (State.field_setCq p cq _ _ _ _ _).trans (State.field_setSq p sq _ _ _ _ _)

/-- What a claim holds depends on the channels of its hall and on the volumes alone. -/
theorem claimOf_congr {s t : State} (chans : (t.hall h).chans = (s.hall h).chans) (vols : t.vols = s.vols) (head : Word) :
    claimOf t h i head d = claimOf s h i head d := by
  simp only [claimOf, State.chan, State.vol, chans, vols]

theorem descHeld_claim (c : Nat) : (descHeld s h i r d).claim? c =
    if s.nextClaim = c then some (claimOf s h i (r.claimed + 1) d) else s.claim? c := by
  refine (sfind_sset _ _ _ _).trans ?_
  congr 2
  exact claimOf_congr h i d (descHeld_field s h i r d Hall.chans (fun _ _ => rfl) (fun _ _ => rfl) h) rfl _

variable {s h d}

/-- With an enabled completion ring, a descriptor ends before its work begins only in a fenced hall, with a reserved field
set or with an unknown opcode. -/
theorem takeDesc_enabled (enabled : (s.cq h (descCq d)).en = true) : takeDesc s h i r d =
    let t := descHeld s h i r d
    if t.hallFenced h && descOpcode d != 0x3F then
      t.complete s.nextClaim (writerOf h (descOpcode d)) Status.unitFenced
        (refusedPart t h d Status.unitFenced (claimOf t h i (r.claimed + 1) d).found)
    else if fld d 0 16 16 != 0 then
      t.complete s.nextClaim (writerOf h (descOpcode d)) Status.badReserved
        (refusedPart t h d Status.badReserved (claimOf t h i (r.claimed + 1) d).found)
    else if !knownOpcode (descOpcode d) then t.finish s.nextClaim Status.badEncoding
    else t := by
  unfold takeDesc
  rw [if_neg (by simp [enabled])]
  rfl

theorem takeDesc_holds (enabled : (s.cq h (descCq d)).en = true) (up : s.hallUp h = true) (reserved : fld d 0 16 16 = 0)
    (known : knownOpcode (descOpcode d) = true) : takeDesc s h i r d = descHeld s h i r d := by
  have state : ((descHeld s h i r d).hall h).state = .enabled :=
    (descHeld_field s h i r d Hall.state (fun _ _ => rfl) (fun _ _ => rfl) h).trans (by simpa [State.hallUp] using up)
  have unfenced : (descHeld s h i r d).hallFenced h = false := by
    rw [State.hallFenced, state]
    rfl
  rw [takeDesc_enabled i r enabled]
  simp [unfenced, reserved, known]

end

theorem claimDescriptor_none {s : State} {h : HallId} (idle : s.claimRing h = none) :
    exec (.claimDescriptor h) s = .next s := by
  change execClaimDescriptor h s = _
  simp [execClaimDescriptor, idle]

theorem claimDescriptor_some {s : State} {h : HallId} {i : SqId} (running : s.running = true)
    (claims : s.claimsStopped = false) (net : s.hallNet h = true) (up : s.hallUp h = true)
    (next : s.claimRing h = some i.val) : exec (.claimDescriptor h) s = .next (takeHead s h i) := by
  change execClaimDescriptor h s = _
  simp [execClaimDescriptor, next, running, claims, net, up]

/-- The hall's round robin of a class moved on to ring `i` (R244). -/
def State.turnTo (s : State) (h : HallId) (i : SqId) : State :=
  s.modHall h fun x => if (s.sq h i).prio then { x with lastHigh := i.val } else { x with lastLow := i.val }

theorem takeHead_turnTo (s : State) (h : HallId) (i : SqId) :
    takeHead s h i = takeDesc (s.turnTo h i) h i (s.sq h i) (s.headDesc h i) := rfl

/-- What is neither mark of a hall's round robins stands. -/
theorem State.field_turnTo {β : Type} (p : Hall → β) (high : ∀ x n, p { x with lastHigh := n } = p x)
    (low : ∀ x n, p { x with lastLow := n } = p x) (s : State) (h : HallId) (i : SqId) (k : Nat) :
    p ((s.turnTo h i).hall k) = p (s.hall k) := by
  refine State.field_modHall p (fun x => ?_) s h k
  split
  · exact high x _
  · exact low x _

theorem State.sq_turnTo (s : State) (h : HallId) (i : SqId) (k j : Nat) : (s.turnTo h i).sq k j = s.sq k j :=
  congrArg (sget · ({} : SubRing) j) (State.field_turnTo Hall.sq (fun _ _ => rfl) (fun _ _ => rfl) s h i k)

theorem State.cq_turnTo (s : State) (h : HallId) (i : SqId) (k j : Nat) : (s.turnTo h i).cq k j = s.cq k j :=
  congrArg (sget · ({} : CompRing) j) (State.field_turnTo Hall.cq (fun _ _ => rfl) (fun _ _ => rfl) s h i k)

theorem State.hallUp_turnTo (s : State) (h : HallId) (i : SqId) (k : Nat) : (s.turnTo h i).hallUp k = s.hallUp k :=
  congrArg (· == HallState.enabled) (State.field_turnTo Hall.state (fun _ _ => rfl) (fun _ _ => rfl) s h i k)

/-- Settles O22: the head descriptor is held, and what holds it changes one ring of each kind of its hall. -/
theorem descriptorIsClaimed : Obligations.DescriptorIsClaimed := by
  intro h i s running claims net up
  refine ⟨claimDescriptor_none, fun next => ?_⟩
  intro r d q enabled reserved known
  have taken : exec (.claimDescriptor h) s = .next (descHeld (s.turnTo h i) h i r d) := by
    rw [claimDescriptor_some running claims net up next, takeHead_turnTo,
      takeDesc_holds i r ((congrArg CompRing.en (s.cq_turnTo h i h q)).trans enabled)
        ((s.hallUp_turnTo h i h).trans up) reserved known]
  have held : claimOf (s.turnTo h i) h i (r.claimed + 1) d = claimOf s h i (r.claimed + 1) d :=
    claimOf_congr h i d (State.field_turnTo Hall.chans (fun _ _ => rfl) (fun _ _ => rfl) s h i h) rfl _
  refine ⟨_, taken, ?_, rfl, fun c other => ?_, ?_, fun j other => ?_, ?_, fun j other => ?_, fun k other => ?_, rfl⟩
  · rw [descHeld_claim, held]
    exact if_pos rfl
  · rw [descHeld_claim]
    exact if_neg other.symm
  · rw [descHeld_sq, if_pos ⟨rfl, rfl⟩]
  · rw [descHeld_sq, if_neg (by simp [other.symm]), State.sq_turnTo]
  · rw [descHeld_cq, if_pos ⟨rfl, rfl⟩, State.cq_turnTo]
  · rw [descHeld_cq, if_neg (by simp [other.symm, q]), State.cq_turnTo]
  · rw [descHeld_hall_ne _ _ _ _ _ other]
    exact State.hall_modHall_ne s _ other.symm

/-! ### A record is written (R249, R250) -/

/-- Where the next record of a completion ring goes. -/
def CompRing.place (r : CompRing) : Nat := r.base + r.tail.toNat % r.size * 32

/-- The module once claim `c`, which is `x`, has its record and has ended, before an interrupt. -/
def State.recorded (s : State) (c : Nat) (x : Claim) (writer status : Nat) (part : Rec32) : State :=
  let r := s.cq x.hall (descCq x.desc)
  let u := s.write .park r.place (leBytes 32 (recordOf s x writer status r.phase part).toNat) false
  State.endWaits { u.setCq x.hall (descCq x.desc) (r.counted (descSilent x.desc) s.now).1 with
    claims := sdel s.claims c } c

theorem State.read_congr {s t : State} (mem : t.mem = s.mem) (g : Region) (a n : Nat) : t.read g a n = s.read g a n := by
  simp only [State.read, State.byte, mem]

theorem leBytes_length (n v : Nat) : (leBytes n v).length = n := by
  induction n generalizing v with
  | zero => rfl
  | succ n ih => rw [leBytes, List.length_cons, ih]

theorem State.parkGone_of_alive {s : State} (alive : s.porter.host.parkDead = 0) (g : Region) (a : Nat) :
    s.parkGone g a = false := by
  unfold State.parkGone
  split
  · simp [alive]
  · rfl

/-- What a write stored is what a read of the same bytes returns. -/
theorem State.read_write_same {s : State} {g : Region} {a : Nat} {l : List Byte} {p : Bool}
    (kept : ∀ b, s.parkGone g b = false) : (s.write g a l p).read g a l.length = l := by
  refine List.ext_getElem (by simp [State.read, tab]) fun i _ hi => ?_
  simp only [State.read, tab, List.getElem_map, List.getElem_range]
  exact State.write_byte s g a i l p _ (List.getElem?_eq_getElem hi) (kept _)

theorem Region.number_eq_zero {g : Region} : g.number = 0 ↔ g = .park := by
  cases g <;> simp [Region.number]

/-- A cell of another region, or of the park tier outside a range, is none of that range's. -/
theorem memKey_park_ne {g : Region} {a b i n : Nat} (small : g.number < 8192) (inside : i < n)
    (outside : ¬ (g = .park ∧ a ≤ b ∧ b < a + n)) : memKey .park (a + i) ≠ memKey g b := by
  by_cases park : g = .park
  · subst park
    have : ¬ (a ≤ b ∧ b < a + n) := fun within => outside ⟨rfl, within⟩
    unfold memKey
    omega
  · exact memKey_ne (by rw [Nat.mod_eq_of_lt small]; exact mt Region.number_eq_zero.1 park) _ _

section
variable {s : State} {c : Nat} {x : Claim} (held : s.claim? c = some x) (writer status : Nat) (part : Rec32)
include held

theorem complete_recorded : s.complete c writer status part =
    if ((s.cq x.hall (descCq x.desc)).counted (descSilent x.desc) s.now).2 then
      (s.recorded c x writer status part).emit (.msi (s.cq x.hall (descCq x.desc)).vector)
    else s.recorded c x writer status part := by
  unfold State.complete
  rw [held]
  rfl

theorem complete_mem : (s.complete c writer status part).mem =
    (s.write .park (s.cq x.hall (descCq x.desc)).place
      (leBytes 32 (recordOf s x writer status (s.cq x.hall (descCq x.desc)).phase part).toNat) false).mem := by
  rw [complete_recorded held]
  split <;> rfl

theorem complete_cq : (s.complete c writer status part).cq x.hall (descCq x.desc) =
    ((s.cq x.hall (descCq x.desc)).counted (descSilent x.desc) s.now).1 := by
  rw [complete_recorded held]
  split <;> exact (State.cq_setCq _ _ _ _ _ _).trans (if_pos ⟨rfl, rfl⟩)

theorem complete_claim (d : Nat) :
    (s.complete c writer status part).claim? d = if d = c then none else s.claim? d := by
  rw [complete_recorded held]
  split <;> exact sfind_sdel _ _ _

theorem complete_out : (s.complete c writer status part).out =
    if ((s.cq x.hall (descCq x.desc)).counted (descSilent x.desc) s.now).2 then
      s.out ++ [.msi (s.cq x.hall (descCq x.desc)).vector]
    else s.out := by
  rw [complete_recorded held]
  split <;> rfl

end

section
variable {s : State} {c : Nat} {x : Claim} (b : Begins s c 0x3F x)
include b

theorem nop_waits (reset : (s.hall x.hall).state = .computeReset) : exec (.nop c) s = .next s := by
  change execNop c s = _
  rw [execNop, withClaim_begins b, if_pos reset]

theorem nop_finishes (working : (s.hall x.hall).state ≠ .computeReset) (clean : zeroFrom x.desc 8 0 = true) :
    exec (.nop c) s = .next (s.complete c x.hall Status.ok 0) := by
  change execNop c s = _
  rw [execNop, withClaim_begins b, if_neg working, if_pos clean, State.finish, b.held]

end

theorem irqDelayExpire_signals {s : State} {h : HallId} {i : CqId} {o : Nat} (oldest : (s.cq h i).oldest = some o)
    (delay : (s.cq h i).irqDelay ≠ 0) (due : o + (s.cq h i).irqDelay * 100 ≤ s.now) :
    exec (.irqDelayExpire h i) s = .next
      ((s.setCq h i { s.cq h i with unsig := 0, oldest := none }).emit (.msi (s.cq h i).vector)) := by
  have passed : s.passed o (s.cq h i).irqDelay = true := decide_eq_true due
  change execIrqDelayExpire h i s = _
  simp [execIrqDelayExpire, oldest, delay, passed]

/-- Settles O23: a NOP that does not wait is completed with OK, and each part of the state is what a completion makes of
it. -/
theorem completionRecordIsWritten : Obligations.CompletionRecordIsWritten := by
  intro c x s held q r a
  refine ⟨fun code stage reset => nop_waits ⟨held, .inl stage, code⟩ reset,
    fun code stage working clean alive => ?_, fun h i o => irqDelayExpire_signals⟩
  have mem := complete_mem held x.hall Status.ok 0
  refine ⟨_, nop_finishes ⟨held, .inl stage, code⟩ working clean, ?_, fun g b small outside => ?_,
    complete_cq held _ _ _, ?_, fun d other => ?_, complete_out held _ _ _⟩
  · have stored := State.read_write_same (s := s) (g := .park) (a := r.place) (p := false)
      (l := leBytes 32 (recordOf s x x.hall 0 r.phase 0).toNat) (State.parkGone_of_alive alive .park)
    rw [leBytes_length] at stored
    exact (State.read_congr mem .park a 32).trans stored
  · refine (congrArg (memGet · (memKey g b)) mem).trans (State.write_byte_ne s .park g a b _ false fun i inside => ?_)
    rw [leBytes_length] at inside
    exact memKey_park_ne small inside outside
  · rw [complete_claim held, if_pos rfl]
  · rw [complete_claim held, if_neg other]

end Sys2Proof.Machine
end

section
/-! Plans: PLAN_LOAD refused or loaded, PLAN_UNLOAD refused or done (R256, R257, Table 8.13). -/

namespace Sys2Proof.Machine

section
variable {s : State} {c : Nat} {k : Claim} (b : Begins s c 0x01 k)
include b

theorem planLoad_reserved (bad : anySet k.desc [(0x0C, 8, 24), (0x10, 0, 384)] = true) :
    exec (.planLoad c) s = .next (s.complete c 15 Status.badReserved (planPart 0 { status := 0 })) := by
  change execPlanLoad c s = _
  rw [execPlanLoad, withClaim_begins b, if_pos bad]

variable (good : anySet k.desc [(0x0C, 8, 24), (0x10, 0, 384)] = false)
include good

theorem planLoad_fails {f : PlanFail} (fails : planCheck s (fld k.desc 8 0 40) = some f) :
    exec (.planLoad c) s = .next (s.complete c 15 f.status (planPart 0 f)) := by
  change execPlanLoad c s = _
  simp only [execPlanLoad, withClaim_begins b, good, fails, Bool.false_eq_true, if_false]

theorem planLoad_loads (passes : planCheck s (fld k.desc 8 0 40) = none) :
    exec (.planLoad c) s = .next (loadPlan s c (fld k.desc 8 0 40)) := by
  change execPlanLoad c s = _
  simp only [execPlanLoad, withClaim_begins b, good, passes, Bool.false_eq_true, if_false]

end

section
variable {s : State} {c : Nat} {k : Claim} (b : Begins s c 0x02 k)
  (good : anySet k.desc [(8, 16, 16), (0x0C, 0, 416)] = false)
include b good

theorem planUnload_noPlan (unloaded : sfind s.plans (fld k.desc 8 0 16) = none) :
    exec (.planUnload c) s = .next (s.complete c 15 Status.noPlan (planPart 0 { status := 0 })) := by
  change execPlanUnload c s = _
  simp only [execPlanUnload, withClaim_begins b, good, unloaded, Bool.false_eq_true, if_false]

variable {p : Plan} (loaded : sfind s.plans (fld k.desc 8 0 16) = some p)
include loaded

theorem planUnload_inUse (used : (s.vols.any fun v => v.2.plan == fld k.desc 8 0 16 && v.2.state != .free) = true) :
    exec (.planUnload c) s = .next (s.complete c 15 Status.planInUse (planPart 0 { status := 0 })) := by
  change execPlanUnload c s = _
  simp only [execPlanUnload, withClaim_begins b, good, loaded, used, Bool.false_eq_true, if_false, if_true]

theorem planUnload_unloads (unused : (s.vols.any fun v => v.2.plan == fld k.desc 8 0 16 && v.2.state != .free) = false) :
    exec (.planUnload c) s = .next ((releaseQueues { s with plans := sdel s.plans (fld k.desc 8 0 16) } p).complete c 15
      Status.ok (planPart (fld k.desc 8 0 16) { status := 0 })) := by
  change execPlanUnload c s = _
  simp only [execPlanUnload, withClaim_begins b, good, loaded, unused, Bool.false_eq_true, if_false]

end

/-- Settles O41: each clause is the equation of its command for one answer of the checks. -/
theorem plansAreLoadedAndUnloaded : Obligations.PlansAreLoadedAndUnloaded := fun _ _ _ =>
  ⟨fun b => ⟨planLoad_reserved b, fun _ good => planLoad_fails b good, planLoad_loads b⟩,
    fun b good => ⟨planUnload_noPlan b good, fun _ => planUnload_inUse b good, fun _ => planUnload_unloads b good⟩⟩

end Sys2Proof.Machine
end

section
/-! Vestibules: what writing a line back and taking it out make of the lines of its hall and leave of the others, and one
equation per command (R274, R276, R278). -/

namespace Sys2Proof.Machine

/-! ### Lines written back and taken out -/

theorem mem_of_sfind {β : Type} {t : Sparse β} {k : Nat} {v : β} (found : sfind t k = some v) : (k, v) ∈ t := by
  induction t with
  | nil => cases found
  | cons q t ih =>
    obtain ⟨i, w⟩ := q
    by_cases same : i = k <;> simp_all [sfind]

theorem mem_skeys {β : Type} {t : Sparse β} {k : Nat} {v : β} {p : Nat → β → Bool} (found : sfind t k = some v)
    (selected : p k v = true) : k ∈ skeys t p :=
  List.mem_map_of_mem (f := Prod.fst) (List.mem_filter.2 ⟨mem_of_sfind found, selected⟩)

@[simp] theorem countUnits_hall (s : State) (sp : TierSpace) (n k : Nat) : (countUnits s sp n).hall k = s.hall k := by
  cases sp <;> rfl

section
variable (s : State) (h k : Nat)

/-- What is not a hall's lines stands when one of them is written back. -/
theorem vestClean_field {β : Type} (p : Hall → β) (kept : ∀ x t, p { x with vest := t } = p x) (j : Nat) :
    p ((vestClean s h k).hall j) = p (s.hall j) := by
  unfold vestClean
  split
  · split
    · rw [countUnits_hall]
      exact State.field_modHall p (fun x => kept x _) s h j
    · rfl
  · rfl

theorem vestClean_hall_ne {j : Nat} (other : h ≠ j) : (vestClean s h k).hall j = s.hall j := by
  unfold vestClean
  split
  · split
    · rw [countUnits_hall, State.hall_modHall_ne s _ other]
    · rfl
  · rfl

theorem vestClean_line (j : Nat) : sfind ((vestClean s h k).hall h).vest j =
    (sfind (s.hall h).vest j).map fun l => if k = j then { l with dirty := false } else l := by
  unfold vestClean
  by_cases same : k = j
  · subst same
    cases found : sfind (s.hall h).vest k with
    | none => simp [found]
    | some l =>
      obtain ⟨keep, dirty, used, first⟩ := l
      cases dirty <;> simp [found, sfind_sset]
  · simp only [same, if_false, Option.map_id']
    split
    · split
      · simp [sfind_sset, same]
      · rfl
    · rfl

/-- What is not a hall's lines stands when one of them is taken out. -/
theorem vestDrop_field {β : Type} (p : Hall → β) (kept : ∀ x t, p { x with vest := t } = p x) (back : Bool) (j : Nat) :
    p ((vestDrop s h k back).hall j) = p (s.hall j) := by
  refine (State.field_modHall p (fun x => kept x _) _ h j).trans ?_
  split
  · exact vestClean_field s h k p kept j
  · rfl

theorem vestDrop_hall_ne {j : Nat} (other : h ≠ j) (back : Bool) : (vestDrop s h k back).hall j = s.hall j := by
  refine (State.hall_modHall_ne _ _ other).trans ?_
  split
  · exact vestClean_hall_ne s h k other
  · rfl

theorem vestDrop_line_same (back : Bool) : sfind ((vestDrop s h k back).hall h).vest k = none := by
  simp [vestDrop, sfind_sdel]

/-- A line that is not there stays away. -/
theorem vestDrop_line_none {j : Nat} (gone : sfind (s.hall h).vest j = none) (back : Bool) :
    sfind ((vestDrop s h k back).hall h).vest j = none := by
  have cleaned : sfind ((vestClean s h k).hall h).vest j = none := by
    rw [vestClean_line, gone]
    rfl
  cases back <;> simp [vestDrop, sfind_sdel, gone, cleaned]

end

/-! ### A recall (R276) -/

/-- A walk over the halls whose step changes its own hall alone does to each hall what that hall's step does to it. -/
theorem foldl_hall {f : State → Nat → State} (own : ∀ s g j, g ≠ j → (f s g).hall j = s.hall j) {l : List Nat}
    (once : l.Nodup) {j : Nat} (named : j ∈ l) (s : State) :
    ∃ u, u.hall j = s.hall j ∧ (l.foldl f s).hall j = (f u j).hall j := by
  have stands : ∀ {l : List Nat} (s : State), j ∉ l → (l.foldl f s).hall j = s.hall j := by
    intro l
    induction l with
    | nil => intros; rfl
    | cons g l ih =>
      intro s away
      obtain ⟨other, later⟩ := not_or.1 (mt List.mem_cons.2 away)
      exact (ih (f s g) later).trans (own s g j (Ne.symm other))
  induction l generalizing s with
  | nil => cases named
  | cons g l ih =>
    obtain ⟨first, once⟩ := List.nodup_cons.1 once
    by_cases same : g = j
    · subst same
      exact ⟨s, rfl, stands (f s g) first⟩
    · obtain ⟨u, before, after⟩ := ih once ((List.mem_cons.1 named).resolve_left (Ne.symm same)) (f s g)
      exact ⟨u, before.trans (own s g j same), after⟩

/-- What a recall of unit `k` for hall `h`, or for no hall, does at hall `g`. -/
def recallAt (h : Option Nat) (k : Nat) (write whole : Bool) (s : State) (g : Nat) : State :=
  if some g = h || (sfind (s.hall g).vest k).isNone then s
  else if write then vestDrop s g k (!whole) else vestClean s g k

theorem vestOthers_recallAt (s : State) (h : Option Nat) (k : Nat) (write whole : Bool) :
    vestOthers s h k write whole = (List.range 12).foldl (recallAt h k write whole) s := rfl

section
variable (s : State) (h k : Nat) (whole : Bool)

theorem recallAt_hall_ne (r : Option Nat) (write : Bool) {g j : Nat} (other : g ≠ j) :
    (recallAt r k write whole s g).hall j = s.hall j := by
  unfold recallAt
  split
  · rfl
  · split
    · exact vestDrop_hall_ne s g k other _
    · exact vestClean_hall_ne s g k other

theorem recallAt_self (write : Bool) : recallAt (some h) k write whole s h = s := by
  simp [recallAt]

theorem recallAt_write {g : Nat} (other : g ≠ h) :
    sfind ((recallAt (some h) k true whole s g).hall g).vest k = none := by
  cases found : sfind (s.hall g).vest k with
  | none => simp [recallAt, found]
  | some l => simpa [recallAt, found, other] using vestDrop_line_same s g k (!whole)

theorem recallAt_read {g : Nat} (other : g ≠ h) {l : VLine} (found : sfind (s.hall g).vest k = some l) :
    sfind ((recallAt (some h) k false whole s g).hall g).vest k = some { l with dirty := false } := by
  simpa [recallAt, found, other] using vestClean_line s g k k

/-- A recall does to each hall what it does there. -/
theorem vestOthers_hall (r : Option Nat) (write : Bool) (g : HallId) : ∃ u : State, u.hall g = s.hall g ∧
    (vestOthers s r k write whole).hall g = (recallAt r k write whole u g).hall g :=
  foldl_hall (fun s _ _ other => recallAt_hall_ne s k whole r write other) List.nodup_range
    (List.mem_range.2 g.isLt) s

theorem vestOthers_self (h : HallId) (write : Bool) : (vestOthers s (some h.val) k write whole).hall h = s.hall h := by
  obtain ⟨u, before, after⟩ := vestOthers_hall s k whole (some h.val) write h
  rw [after, recallAt_self, before]

theorem vestOthers_write {g : HallId} (other : g.val ≠ h) :
    sfind ((vestOthers s (some h) k true whole).hall g).vest k = none := by
  obtain ⟨u, -, after⟩ := vestOthers_hall s k whole (some h) true g
  rw [after]
  exact recallAt_write u h k whole other

theorem vestOthers_read {g : HallId} (other : g.val ≠ h) {l : VLine} (found : sfind (s.hall g).vest k = some l) :
    sfind ((vestOthers s (some h) k false whole).hall g).vest k = some { l with dirty := false } := by
  obtain ⟨u, before, after⟩ := vestOthers_hall s k whole (some h) false g
  rw [after]
  exact recallAt_read u h k whole other (before ▸ found)

end

/-! ### Accesses and maintenance (R274, R278) -/

section
variable {s : State} {h : HallId}

section
variable {r : VestReq} (net : s.hallNet h = true) (range : tierRange s r.space r.addr r.len = true)
include net range

theorem vestAccess_reads (read : r.write = none) : exec (.vestAccess h r) s = .next
    ((tierPass s h r.space r.addr r.len r.hint false).emit (.readData (tierRead s r.space r.addr r.len))) := by
  change execVestAccess h r s = _
  simp only [execVestAccess, net, range, read, Bool.and_self, if_true]

theorem vestAccess_writes {b : List Byte} (write : r.write = some b) (length : b.length = r.len) :
    exec (.vestAccess h r) s = .next
      (tierWrite (tierPass s h r.space r.addr r.len r.hint true) r.space r.addr b r.poison) := by
  change execVestAccess h r s = _
  simp only [execVestAccess, net, range, write, length, Bool.and_self, if_true]

end

theorem startMaint_idle {n op : Nat} (idle : (s.hall n).regs.vestBusy = false) (run : State → State) :
    startMaint s n op run = run (s.modRegs n fun g => { g with vestBusy := true, maintOp := op }) :=
  if_neg (by simp [idle])

theorem startMaint_busy {n op : Nat} (busy : (s.hall n).regs.vestBusy = true) (run : State → State) :
    startMaint s n op run = s.modRegs n fun g => { g with vestErr := true } := if_pos busy

theorem vestEvict_regs (s : State) (n : Nat) (sel : Nat → Bool) :
    ((vestEvict s n sel).hall n).regs = (s.hall n).regs := by
  unfold vestEvict
  generalize skeys (s.hall n).vest (fun k _ => sel k) = l
  induction l generalizing s with
  | nil => rfl
  | cons k l ih => exact (ih (vestDrop s n k true)).trans (vestDrop_field s n k Hall.regs (fun _ _ => rfl) true n)

/-- Lines taken out one by one: the line of a unit that is named, or that was not there, is not there. -/
theorem foldl_vestDrop_line {n k : Nat} (l : List Nat) {s : State} (gone : k ∈ l ∨ sfind (s.hall n).vest k = none) :
    sfind ((l.foldl (fun s j => vestDrop s n j true) s).hall n).vest k = none := by
  induction l generalizing s with
  | nil => exact gone.resolve_left List.not_mem_nil
  | cons j l ih =>
    refine ih ?_
    rcases gone with named | gone
    · rcases List.mem_cons.1 named with rfl | later
      · exact .inr (vestDrop_line_same s n k true)
      · exact .inl later
    · exact .inr (vestDrop_line_none s n j gone true)

theorem vestEvict_line (s : State) (n : Nat) {sel : Nat → Bool} {k : Nat} (selected : sel k = true) :
    sfind ((vestEvict s n sel).hall n).vest k = none := by
  refine foldl_vestDrop_line _ ?_
  cases found : sfind (s.hall n).vest k with
  | none => exact .inr rfl
  | some l => exact .inl (mem_skeys found selected)

section
variable (net : s.hallNet h = true) (running : s.running = true)
include net running

theorem evict_runs : exec (.evict h) s = .next (evictRange s h) :=
  congrArg Host.Outcome.next (State.hallWrite_runs net running _)

theorem unkeep_runs : exec (.unkeep h) s = .next (unkeepRange s h) :=
  congrArg Host.Outcome.next (State.hallWrite_runs net running _)

theorem evict_takes_out (idle : (s.hall h).regs.vestBusy = false) :
    Gives (.evict h) s fun t => (t.hall h).regs.vestBusy = true ∧ (t.hall h).regs.maintOp = 1 ∧
      ∀ k, inMaint (s.hall h).regs k = true → sfind (t.hall h).vest k = none := by
  refine ⟨_, (evict_runs net running).trans (congrArg Host.Outcome.next (startMaint_idle idle _)), ?_, ?_,
    fun k within => ?_⟩
  · rw [vestEvict_regs, State.hall_modRegs_same]
  · rw [vestEvict_regs, State.hall_modRegs_same]
  · refine vestEvict_line _ _ ?_
    rw [State.hall_modRegs_same]
    exact within

theorem unkeep_clears (idle : (s.hall h).regs.vestBusy = false) :
    exec (.unkeep h) s = .next ((s.modRegs h fun g => { g with vestBusy := true, maintOp := 2 }).modHall h fun x =>
      { x with vest := x.vest.map fun p =>
          if p.2.keep && inMaint x.regs p.1 then (p.1, { p.2 with keep := false, first := true }) else p }) :=
  (unkeep_runs net running).trans (congrArg Host.Outcome.next (startMaint_idle idle _))

variable (busy : (s.hall h).regs.vestBusy = true)
include busy

theorem evict_busy : exec (.evict h) s = .next (s.modRegs h fun g => { g with vestErr := true }) :=
  (evict_runs net running).trans (congrArg Host.Outcome.next (startMaint_busy busy _))

theorem unkeep_busy : exec (.unkeep h) s = .next (s.modRegs h fun g => { g with vestErr := true }) :=
  (unkeep_runs net running).trans (congrArg Host.Outcome.next (startMaint_busy busy _))

end

theorem vestMaintDone_ends (net : s.hallNet h = true) :
    exec (.vestMaintDone h) s = .next (s.modRegs h fun g => { g with vestBusy := false, maintOp := 0 }) :=
  congrArg Host.Outcome.next (if_pos net)

end

/-- Settles O38: accesses, and maintenance that is idle or busy, are branches of their commands; a recall does to each other
hall what it does there. -/
theorem vestibuleAccessesAndMaintenance : Obligations.VestibuleAccessesAndMaintenance := by
  intro h s net
  refine ⟨fun r range => ⟨vestAccess_reads net range, fun b => vestAccess_writes net range⟩, fun sp unit whole => ?_,
    fun running => ?_, vestMaintDone_ends net⟩
  · refine ⟨⟨_, rfl, fun g other => ?_⟩, ⟨_, rfl, fun g => ⟨?_, fun l other found => ?_⟩⟩⟩
    · exact vestOthers_write s h _ whole (Fin.val_ne_of_ne other)
    · rintro rfl
      exact congrArg Hall.vest (vestOthers_self s _ whole g false)
    · exact vestOthers_read s h _ whole (Fin.val_ne_of_ne other) found
  · exact ⟨fun idle => ⟨evict_takes_out net running idle, unkeep_clears net running idle⟩,
      fun busy => ⟨evict_busy net running busy, unkeep_busy net running busy⟩⟩

end Sys2Proof.Machine
end

section
/-! DMA transfers started and stopped, and a channel set up: one equation per outcome (R261, R262, R265, R268, R272,
Table 9.7). -/

namespace Sys2Proof.Machine

/-! ### DMA_START (R261, R265, R268) -/

/-- The channel that a DMA descriptor names. -/
abbrev Claim.dmaChan (k : Claim) : ChId := Fin.ofNat 32 (fld k.desc 8 0 5)

section
variable {s : State} {c : Nat} {k : Claim} (b : Begins s c 0x40 k) (up : s.hallUp k.hall = true) {x : Chan}
  (here : s.chan k.hall k.dmaChan = x)
include b up here

theorem dmaStart_refused {st : Nat} (bad : startStatus s x k.desc = some st) : exec (.dmaStart c) s =
    .next (s.complete c k.hall st (dmaPart 0 0 (fld k.desc 8 0 5) false 0 0)) := by
  change execDmaStart c s = _
  simp only [execDmaStart, withClaim_begins b, up, here, bad, Bool.not_true, Bool.false_eq_true, if_false]

variable (good : startStatus s x k.desc = none)
include good

section
variable (program : x.mode = false) {l : List Rec32}
  (read : tab (startCount k.desc) (fun i => s.record32 .park (startAddr k.desc + 32 * i)) = l)
include program read

theorem dmaStart_badProgram {i st : Nat} (bad : programFail l = some (i, st)) : exec (.dmaStart c) s =
    .next (s.complete c k.hall st (dmaPart 0 i (fld k.desc 8 0 5) false 0 0)) := by
  change execDmaStart c s = _
  simp only [execDmaStart, withClaim_begins b, up, here, good, program, read, bad, Bool.not_true, Bool.false_eq_true,
    if_false]

theorem dmaStart_runsProgram (clean : programFail l = none) : exec (.dmaStart c) s =
    .next ((s.setChan k.hall k.dmaChan
      { x.idle with state := .running, prog := l, claim := some c }).setStage c .running) := by
  change execDmaStart c s = _
  simp only [execDmaStart, withClaim_begins b, up, here, good, program, read, clean, Bool.not_true, Bool.false_eq_true,
    if_false]

end

section
variable (shadow : x.mode = true) (first : olderWaits s k.hall (fld k.desc 8 0 5) c = false)
include shadow first

theorem dmaStart_loads {y : Chan} (loads : loadSet x (startMove k.desc) c = some y) :
    exec (.dmaStart c) s = .next ((s.setChan k.hall k.dmaChan y).setStage c .running) := by
  change execDmaStart c s = _
  simp only [execDmaStart, withClaim_begins b, up, here, good, shadow, first, loads, Bool.not_true, Bool.false_eq_true,
    if_false, if_true]

theorem dmaStart_waits (loaded : loadSet x (startMove k.desc) c = none) :
    exec (.dmaStart c) s = .next (s.setStage c .waiting) := by
  change execDmaStart c s = _
  simp only [execDmaStart, withClaim_begins b, up, here, good, shadow, first, loaded, Bool.not_true, Bool.false_eq_true,
    if_false, if_true]

end

end

/-! ### DMA_STOP (R272) -/

section
variable {s : State} {c : Nat} {k : Claim} (b : Begins s c 0x41 k) (up : s.hallUp k.hall = true)
  (clean : zeroFrom k.desc 8 5 = true) (software : fld k.desc 8 0 5 < 24) {x : Chan} (here : s.chan k.hall k.dmaChan = x)
include b up clean software here

theorem dmaStop_joins {e : ChanStop} (stopping : x.stop = some e) : exec (.dmaStop c) s =
    .next ((s.setStage c .running).setChan k.hall k.dmaChan
      { x with stop := some { e with stops := e.stops ++ [(c, k.found)] } }) := by
  change execDmaStop c s = _
  simp only [execDmaStop, withClaim_begins b, up, clean, here, stopping, if_neg (Nat.not_le.2 software), Bool.not_true,
    Bool.false_eq_true, if_false]

variable (fresh : x.stop = none)
include fresh

theorem dmaStop_idle (idle : x.state = .idle) : exec (.dmaStop c) s =
    .next (s.complete c k.hall Status.ok (stopPart (fld k.desc 8 0 5) k.found)) := by
  change execDmaStop c s = _
  simp only [execDmaStop, withClaim_begins b, up, clean, here, fresh, idle, if_neg (Nat.not_le.2 software), Bool.not_true,
    Bool.false_eq_true, if_false, if_true]

theorem dmaStop_stops (busy : x.state ≠ .idle) : exec (.dmaStop c) s =
    .next (stopChannel (s.setStage c .running) k.hall k.dmaChan
      { status := Status.dmaStopped, other := Status.dmaStopped, stops := [(c, k.found)] }) := by
  change execDmaStop c s = _
  simp only [execDmaStop, withClaim_begins b, up, clean, here, fresh, busy, if_neg (Nat.not_le.2 software), Bool.not_true,
    Bool.false_eq_true, if_false]

end

/-! ### DMA_CH_CFG (R261, R262) -/

section
variable {s : State} {h : HallId} (w : Word) (net : s.hallNet h = true) (running : s.running = true)
  (software : (s.hall h).regs.chSel < 24) {x : Chan} (here : s.chan h (s.hall h).regs.chSel = x)
include net running software here

theorem dmaChCfgWrite_idle (idle : x.state = .idle) : exec (.dmaChCfgWrite h w) s =
    .next (s.setChan h (s.hall h).regs.chSel
      { x with mode := bitAt w 0, prio := bitAt w 1, en := bitAt w 2, err := x.err && !bitAt w 3 }) := by
  change execDmaChCfgWrite h w s = _
  simp only [execDmaChCfgWrite, State.hallWrite_runs net running, dmaChCfg, here, if_neg (Nat.not_le.2 software), idle,
    ne_eq, not_true_eq_false, false_and, if_false]

theorem dmaChCfgWrite_busy (busy : x.state ≠ .idle) (changes : bitAt w 0 ≠ x.mode ∨ bitAt w 1 ≠ x.prio) :
    exec (.dmaChCfgWrite h w) s = .next (s.setChan h (s.hall h).regs.chSel { x with err := true }) := by
  change execDmaChCfgWrite h w s = _
  simp only [execDmaChCfgWrite, State.hallWrite_runs net running, dmaChCfg, here, if_neg (Nat.not_le.2 software),
    if_pos (And.intro busy changes)]

end

/-- Settles O39: each clause is the equation of its command, for one answer of its checks or one state of the channel. -/
theorem dmaTransfersStartAndStop : Obligations.DmaTransfersStartAndStop := by
  intro c k s held claimed up n ch x
  refine ⟨fun code => ?_, fun code clean software => ?_, fun h w net running software => ?_⟩
  · have b : Begins s c 0x40 k := ⟨held, .inl claimed, code⟩
    exact ⟨fun _ => dmaStart_refused b up rfl,
      fun good program => ⟨fun _ _ => dmaStart_badProgram b up rfl good program rfl,
        dmaStart_runsProgram b up rfl good program rfl⟩,
      fun good shadow first => ⟨fun _ => dmaStart_loads b up rfl good shadow first,
        dmaStart_waits b up rfl good shadow first⟩⟩
  · have b : Begins s c 0x41 k := ⟨held, .inl claimed, code⟩
    exact ⟨dmaStop_idle b up clean software rfl, dmaStop_stops b up clean software rfl,
      fun _ => dmaStop_joins b up clean software rfl⟩
  · exact ⟨dmaChCfgWrite_idle w net running software rfl, dmaChCfgWrite_busy w net running software rfl⟩

end Sys2Proof.Machine
end

section
/-! The instructions of a DMA channel, its bursts and the answers to its writes: one equation per outcome (R263, R264, R266,
R267, R269, R271). -/

namespace Sys2Proof.Machine

/-! ### A channel after it is set -/

section
variable (s : State) (h : HallId) (ch : ChId) (x : Chan)

@[simp] theorem State.chan_setChan_same : (s.setChan h ch x).chan h ch = x := by
  simp [State.setChan, State.chan]

/-- What is not a hall's channels stands when one of them is set. -/
theorem State.field_setChan {β : Type} (p : Hall → β) (kept : ∀ y t, p { y with chans := t } = p y) (k : Nat) :
    p ((s.setChan h ch x).hall k) = p (s.hall k) := State.field_modHall p (fun y => kept y _) s h k

theorem txBytes_setChan (k : Nat) (sel : TxPkt → Bool) : txBytes (s.setChan h ch x) k sel = txBytes s k sel := by
  unfold txBytes
  rw [State.field_setChan s h ch x Hall.tx (fun _ _ => rfl)]

/-- A channel that starts to drain has the same answers to wait for. -/
theorem chanUnanswered_draining {s : State} {h : HallId} {ch : ChId} {x : Chan} (here : s.chan h ch = x) :
    chanUnanswered (s.setChan h ch { x with state := .draining }) h ch = chanUnanswered s h ch := by
  simp only [chanUnanswered, txUnacked, txBytes_setChan, State.chan_setChan_same, here]

end

/-! ### MOVE (R264, R266) -/

/-- A MOVE that passes its checks has no side to name. -/
theorem moveCheck_passes {s : State} {h : Nat} {d : Rec32} {src dst n : Nat} (passes : (moveCheck s h d src dst n).1 = .ok) :
    moveCheck s h d src dst n = (.ok, 0, 0) := by
  unfold moveCheck at passes ⊢
  dsimp only at passes ⊢
  split at passes
  case h_5 => rfl
  all_goals cases passes

section
variable {s : State} {h : HallId} {ch : ChId} {d : Rec32}

theorem beginMove_passes (passes : (moveCheck s h d (mvSrc d) (mvDst d) (mvLen d)).1 = .ok) (y : Chan) :
    beginMove s h ch d y = s.setChan h ch { y with back := none } := by
  simp only [beginMove, moveCheck_passes passes]

theorem beginMove_refused {st sp side : Nat}
    (refused : moveCheck s h d (mvSrc d) (mvDst d) (mvLen d) = (.bad st, sp, side)) (y : Chan) :
    beginMove s h ch d y = stopChannel (s.setChan h ch y) h ch (moveError y st sp side true) := by
  simp only [beginMove, refused]

variable (up : s.hallUp h = true) {x : Chan} (here : s.chan h ch = x) (runs : x.state = .running) (free : x.move = none)
  (presents : x.presents = true)
include up here runs free presents

theorem dmaMove_program (program : x.mode = false) (stands : x.instr = some d) (move : iCode d = 0x01) :
    exec (.dmaMove h ch) s = .next (beginMove s h ch d
      { x with prog := x.prog.set x.pc (bumped d), move := some { instr := d } }) := by
  change execDmaMove h ch s = _
  simp [execDmaMove, nextMove, up, here, runs, free, presents, program, stands, move]

theorem dmaMove_setA (shadow : x.mode = true) (turn : x.nextB = false) {c : Nat} (loaded : x.setA = some (d, c)) :
    exec (.dmaMove h ch) s = .next (beginMove s h ch d
      { x with setA := none, nextB := true, move := some { instr := d, claim := some c } }) := by
  change execDmaMove h ch s = _
  simp [execDmaMove, nextMove, beginSet, up, here, runs, free, presents, shadow, turn, loaded]

end

/-! ### LOOP, WAIT, SIGNAL and END (R266, R267) -/

/-- The operation that a channel's instruction names, presented to its clasp. -/
abbrev dmaClaspOp (s : State) (h : HallId) (ch : ChId) (d : Rec32) : State :=
  settle (claspRequest s (.dma h ch) (wtCop d) (BitVec.ofNat 16 (wtClasp d)) (BitVec.ofNat 32 (wtOperand d)))

section
variable {s : State} {h : HallId} {ch : ChId} {x : Chan} (here : s.chan h ch = x)
include here

theorem drained_unanswered (unanswered : chanUnanswered s h ch = true) : drained s h ch = s := by
  cases stands : x.instr <;> simp [drained, here, stands, unanswered]

section
variable {d : Rec32} (stands : x.instr = some d) (draining : x.state = .draining)
  (answered : chanUnanswered s h ch = false)
include stands draining answered

theorem drained_signal (signal : iCode d = 0x04) : drained s h ch = dmaClaspOp s h ch d := by
  simp only [drained, here, stands, draining, answered, signal, and_self, if_true]

theorem drained_end (last : iCode d ≠ 0x04) :
    drained s h ch = (dmaRecord s h ch x.claim Status.ok x.bytes x.pc false 0 0).setChan h ch x.idle := by
  simp only [drained, here, stands, draining, answered, last, and_self, if_true, if_false]

end

variable (up : s.hallUp h = true) {d : Rec32} (stands : x.instr = some d) (runs : x.state = .running)
  (free : x.move = none)
include up stands runs free

theorem dmaLoop_back (loop : iCode d = 0x02) (below : sget x.loops 0 x.pc < lpCount d) :
    exec (.dmaLoop h ch) s = .next (s.setChan h ch
      { x with loops := sset x.loops x.pc (sget x.loops 0 x.pc + 1), pc := x.pc - lpBack d }) := by
  change execDmaLoop h ch s = _
  simp [execDmaLoop, here, up, stands, runs, free, loop, below]

theorem dmaLoop_on (loop : iCode d = 0x02) (counted : lpCount d ≤ sget x.loops 0 x.pc) :
    exec (.dmaLoop h ch) s = .next (s.setChan h ch { x with loops := sset x.loops x.pc 0, pc := x.pc + 1 }) := by
  change execDmaLoop h ch s = _
  simp [execDmaLoop, here, up, stands, runs, free, loop, Nat.not_lt.2 counted]

section
variable (wait : iCode d = 0x03)
include wait

theorem dmaWait_line (line : wtLineKind d = true) : exec (.dmaWait h ch) s = .next (s.setChan h ch
    (if lineHolds s h x (wtLine d) then { x with state := .running, pc := x.pc + 1 }
     else { x with state := .waiting })) := by
  change execDmaWait h ch s = _
  cases held : lineHolds s h x (wtLine d) <;> simp [execDmaWait, here, up, stands, runs, free, wait, line, held]

theorem dmaWait_clasp (clasp : wtLineKind d = false) : exec (.dmaWait h ch) s = .next (dmaClaspOp s h ch d) := by
  change execDmaWait h ch s = _
  simp [execDmaWait, here, up, stands, runs, free, wait, clasp]

end

theorem startDrain_drains {code : Nat} (reached : iCode d = code) :
    startDrain s h ch code = drained (s.setChan h ch { x with state := .draining }) h ch := by
  simp [startDrain, here, up, stands, runs, free, reached]

/-- While a write is unanswered, SIGNAL and END drain and do no more. -/
theorem startDrain_unanswered {code : Nat} (reached : iCode d = code) (unanswered : chanUnanswered s h ch = true) :
    startDrain s h ch code = s.setChan h ch { x with state := .draining } := by
  rw [startDrain_drains here up stands runs free reached,
    drained_unanswered (State.chan_setChan_same ..) ((chanUnanswered_draining here).trans unanswered)]

section
variable (answered : chanUnanswered s h ch = false)
include answered

theorem startDrain_signal (signal : iCode d = 0x04) :
    startDrain s h ch 0x04 = dmaClaspOp (s.setChan h ch { x with state := .draining }) h ch d := by
  rw [startDrain_drains here up stands runs free signal]
  exact drained_signal (State.chan_setChan_same ..) stands rfl ((chanUnanswered_draining here).trans answered) signal

theorem startDrain_end (last : iCode d = 0x0F) :
    startDrain s h ch 0x0F = (dmaRecord (s.setChan h ch { x with state := .draining }) h ch x.claim Status.ok x.bytes x.pc
      false 0 0).setChan h ch x.idle := by
  rw [startDrain_drains here up stands runs free last]
  exact drained_end (x := { x with state := .draining }) (State.chan_setChan_same ..) stands rfl
    ((chanUnanswered_draining here).trans answered) (by simp [last])

end

end

/-! ### Bursts and their answers (R263, R269, R271) -/

/-- The hall's round robin of a channel's priority moved on to it (R271). -/
def State.grantTo (s : State) (h : HallId) (ch : ChId) : State :=
  s.modHall h fun y => if (s.chan h ch).prio then { y with dmaLastHi := ch.val } else { y with dmaLast := ch.val }

/-- What is neither mark of a hall's grants stands. -/
theorem State.field_grantTo {β : Type} (p : Hall → β) (high : ∀ y n, p { y with dmaLastHi := n } = p y)
    (low : ∀ y n, p { y with dmaLast := n } = p y) (s : State) (h : HallId) (ch : ChId) (k : Nat) :
    p ((s.grantTo h ch).hall k) = p (s.hall k) := by
  refine State.field_modHall p (fun y => ?_) s h k
  split
  · exact high y _
  · exact low y _

theorem State.chan_grantTo (s : State) (h : HallId) (ch : ChId) (k j : Nat) : (s.grantTo h ch).chan k j = s.chan k j :=
  congrArg (sget · (chanReset j) j) (State.field_grantTo Hall.chans (fun _ _ => rfl) (fun _ _ => rfl) s h ch k)

theorem State.rx_grantTo (s : State) (h : HallId) (ch : ChId) (k j : Nat) : (s.grantTo h ch).rx k j = s.rx k j :=
  congrArg (sget · ({} : RxStream) j) (State.field_grantTo Hall.rx (fun _ _ => rfl) (fun _ _ => rfl) s h ch k)

theorem burstLen_grantTo (s : State) (h : HallId) (ch : ChId) (k : Nat) (r : MoveRun) :
    burstLen (s.grantTo h ch) k r = burstLen s k r := by
  simp only [burstLen, State.rx_grantTo]

section
variable {s : State} {h : HallId} {ch : ChId} (up : s.hallUp h = true)
include up

theorem dmaBurst_grants (granted : burstPick s h = some ch.val) :
    exec (.dmaBurst h) s = .next (burstOne (s.grantTo h ch) h ch) := by
  change execDmaBurst h s = _
  simp [execDmaBurst, up, granted, State.grantTo]

variable {x : Chan} (here : s.chan h ch = x)
include here

section
variable (shadow : x.mode = true)
include shadow

theorem dmaWritesAnswered_oldest {r : MoveRun} (oldest : x.tailMv = some r)
    (covered : txBytes s h (fun q => q.ch == some ch && q.claim == r.claim) = 0) :
    exec (.dmaWritesAnswered h ch) s = .next (shadowDone s h ch x r) := by
  change execDmaWritesAnswered h ch s = _
  simp only [execDmaWritesAnswered, up, here, shadow, oldest, covered, Bool.not_true, Bool.false_eq_true, if_false, if_true]

theorem dmaWritesAnswered_noTail (none_ : x.tailMv = none) :
    exec (.dmaWritesAnswered h ch) s = .next (s.setChan h ch { x with wrote := [] }) := by
  change execDmaWritesAnswered h ch s = _
  simp only [execDmaWritesAnswered, up, here, shadow, none_, Bool.not_true, Bool.false_eq_true, if_false, if_true]

end

theorem dmaWritesAnswered_program (program : x.mode = false) :
    exec (.dmaWritesAnswered h ch) s = .next (drained (s.setChan h ch { x with wrote := [] }) h ch) := by
  change execDmaWritesAnswered h ch s = _
  simp only [execDmaWritesAnswered, up, here, program, Bool.not_true, Bool.false_eq_true, if_false]

end

/-- Where a side of a MOVE stands after its bursts so far: a FABRIC side names its sequence, and does not move. -/
abbrev burstSide (r : MoveRun) (sp a : Nat) : Nat := if sp = 4 then a else a + r.issued

theorem burstOne_passes {s : State} {h : HallId} {ch : ChId} {r : MoveRun} (moves : (s.chan h ch).move = some r)
    {n src dst : Nat} (len : burstLen s h r = n) (from_ : burstSide r (mvSrcSpace r.instr) (mvSrc r.instr) = src)
    (onto : burstSide r (mvDstSpace r.instr) (mvDst r.instr) = dst) (passes : (moveCheck s h r.instr src dst n).1 = .ok) :
    burstOne s h ch = (burstMove s h ch r src dst n).setChan h ch (burstDone (s.chan h ch) r dst n) := by
  subst len from_ onto
  simp only [burstOne, moves, moveCheck_passes passes]

/-- Settles O40: each clause is the equation of its command, for the instruction reached or for what of the channel's writes
is answered. -/
theorem dmaInstructionsRun : Obligations.DmaInstructionsRun := by
  intro h ch s up x
  refine ⟨fun program d stands runs free => ⟨fun code presents => ⟨fun passes => ?_, fun st sp side refused => ?_⟩,
      dmaLoop_back rfl up stands runs free, dmaLoop_on rfl up stands runs free, fun code line holds => ?_,
      fun code line low => ?_, dmaWait_clasp rfl up stands runs free, fun code answered => ?_, fun code answered => ?_,
      fun unanswered => ⟨fun code => ?_, fun code => ?_⟩⟩,
    fun d c shadow runs free presents turn loaded passes => ?_, fun r granted moves => ?_,
    fun shadow => ⟨fun _ => dmaWritesAnswered_oldest up rfl shadow, dmaWritesAnswered_noTail up rfl shadow⟩,
    dmaWritesAnswered_program up rfl⟩
  · rw [dmaMove_program up rfl runs free presents program stands code, beginMove_passes passes]
  · rw [dmaMove_program up rfl runs free presents program stands code, beginMove_refused refused]
  · rw [dmaWait_line rfl up stands runs free code line, if_pos holds]
  · rw [dmaWait_line rfl up stands runs free code line, if_neg (by simp [x, low])]
  · exact congrArg Host.Outcome.next (startDrain_signal rfl up stands runs free answered code)
  · exact congrArg Host.Outcome.next (startDrain_end rfl up stands runs free answered code)
  · exact congrArg Host.Outcome.next (startDrain_unanswered rfl up stands runs free code unanswered)
  · exact congrArg Host.Outcome.next (startDrain_unanswered rfl up stands runs free code unanswered)
  · rw [dmaMove_setA up rfl runs free presents shadow turn loaded, beginMove_passes passes]
  · intro d n src dst u passes
    have noted : (s.grantTo h ch).chan h ch = x := State.chan_grantTo s h ch h ch
    rw [dmaBurst_grants up granted,
      burstOne_passes (noted.symm ▸ moves) (burstLen_grantTo s h ch h r) rfl rfl passes, noted]
    rfl

end Sys2Proof.Machine
end

section
/-! Packets of mesh and ring granted, sent and broadcast, AGE, and resent flits: one equation per outcome (R290, R292 to
R298, R304). -/

namespace Sys2Proof.Machine

/-! ### AGE (R297) -/

theorem sfind_map {β : Type} (t : Sparse β) (f : β → β) (k : Nat) :
    sfind (t.map fun q => (q.1, f q.2)) k = (sfind t k).map f := by
  induction t with
  | nil => rfl
  | cons q t ih =>
    simp only [List.map_cons, sfind, ih]
    split <;> rfl

/-- Where a change of every listed entry leaves the default, it reads as a change of every entry. -/
theorem sget_map {β : Type} (t : Sparse β) {f : β → β} {d : β} (kept : f d = d) (k : Nat) :
    sget (t.map fun q => (q.1, f q.2)) d k = f (sget t d k) := by
  rw [sget, sget, sfind_map, ← Option.getD_map f, kept]

/-- An arbiter whose packets wait on. -/
def Arbiter.older (a : Arbiter) : Arbiter := { a with queue := a.queue.map NetPkt.older }

/-- A hall whose packets wait on. -/
def Hall.older (x : Hall) : Hall := { x with mesh := x.mesh.map fun q => (q.1, q.2.older) }

theorem ageTick_older (s : State) :
    exec .ageTick s = .next { s with halls := s.halls.map fun q => (q.1, q.2.older) } := rfl

theorem Hall.older_arbiter (x : Hall) (out : Nat) : sget x.older.mesh {} out = (sget x.mesh {} out).older :=
  sget_map x.mesh rfl out

theorem State.hall_older (s : State) (h : Nat) :
    ({ s with halls := s.halls.map fun q => (q.1, q.2.older) } : State).hall h = (s.hall h).older :=
  sget_map s.halls rfl h

/-! ### An output grants (R298) -/

theorem Arbiter.pick_empty {a : Arbiter} (empty : a.queue = []) (ageMax now : Nat) : a.pick ageMax now = none := by
  simp [Arbiter.pick, Arbiter.aged, empty]

section
variable {s : State} {h out : Nat}

theorem netGrant_empty (empty : (sget (s.hall h).mesh {} out).queue = []) (k : State → NetPkt → State) :
    netGrant s h out k = s := by
  simp only [netGrant, Arbiter.pick_empty empty]

theorem netGrant_picked {i : Nat} {a : Arbiter} {p : NetPkt}
    (picked : (sget (s.hall h).mesh {} out).pick (s.hall h).regs.ageMax s.now = some (i, a)) (next : a.queue[i]? = some p)
    (k : State → NetPkt → State) : netGrant s h out k =
      k (s.modHall h fun y => { y with mesh := sset y.mesh out (a.take i s.now p) }) p := by
  simp only [netGrant, picked, next]

end

section
variable {s : State} {h : HallId}

/-! ### A stairwell sends (R304) -/

theorem netNote_regs (p : Packet) (inp k : Nat) : ((netNote s h p inp).hall k).regs = (s.hall k).regs := by
  unfold netNote
  split
  · refine State.field_modHall Hall.regs (fun _ => ?_) s h k
    rfl
  · rfl

theorem netInject_stairwell {p : Packet} {sw : SwId} (fits : p.body.len ≤ 256) (own : p.srcHall = h)
    (free : netHeld s p = false) (source : p.src = .stairwell sw) (runs : s.swRuns h sw = true) (inp : Nat) :
    netInject s h p inp = netPush (netNote s h p inp) h (NetOut.injection sw).number
      { pkt := p, weight := if p.cls = .request then unitWeight (s.hall h).regs p.src else 0, inp := inp } := by
  have sends : netSends s h p.src = true := by rw [source]; exact runs
  simp only [netInject, sends, free, own, Nat.not_lt.2 fits, decide_false, bne_self_eq_false, Bool.or_self, Bool.not_true,
    Bool.false_eq_true, if_false]
  simp only [netPlace, source, netNote_regs]

/-! ### A hall's copy of a broadcast (R295) -/

/-- A stairwell in its own reset answers for itself (log entry 113), and the copies are handed over in one step (log
entry 67). -/
theorem hallBroadcast_enabled (enabled : (s.hall h).state = .enabled) (p : Packet) :
    hallBroadcast s h p = (s.enabledSws h).foldl (fun t sw =>
      if (t.stair h sw).resetting then gateQueue (countReset t h .targetResetting) h inHallBlock
        (answerOf h { p with dst := .stairwell (Fin.ofNat 256 sw), dstHall := h } .targetResetting)
      else t.emit (.delivered h { p with dstHall := h, dst := .stairwell (Fin.ofNat 256 sw) })) s := by
  simp only [hallBroadcast, enabled]

/-! ### The commands of a hall whose network answers -/

section
variable (net : s.hallNet h = true)
include net

theorem meshPacket_inject (p : Packet) (inp : Fin 3) :
    exec (.meshPacket h (.inject p inp)) s = .next (netInject s h p inp) :=
  congrArg Host.Outcome.next (if_neg (by simp [net]))

theorem meshPacket_grant (out : NetOut) : exec (.meshPacket h (.grant out)) s =
    .next (netGrant s h out.number fun t p => netHop t h out p) :=
  congrArg Host.Outcome.next (if_neg (by simp [net]))

theorem ringPacket_crosses {cw : Bool} (onward : s.hallNet (ringNext h cw) = true) (up : ringUp s h cw = true)
    {i : Nat} {a : Arbiter} {p : NetPkt}
    (picked : (sget (s.hall h).mesh {} (ringOut cw)).pick (s.hall h).regs.ageMax s.now = some (i, a))
    (next : a.queue[i]? = some p) :
    let g := ringNext h cw
    let u := s.modHall h fun y => { y with mesh := sset y.mesh (ringOut cw) (a.take i s.now p) }
    let q := if crossesSeam h cw = true ∧ p.fab = none then { p with vc := 1 } else p
    exec (.ringPacket h cw) s = .next (if q.pkt.dstHall = g then gateArrive u g inRing q
      else netPush u g (ringOut (ringDir u g q.pkt)) { q with inp := 1 }) := by
  change execRingPacket h cw s = _
  simp only [execRingPacket, net, onward, up, netGrant_picked picked next, Bool.and_true, Bool.and_eq_true,
    Option.isNone_iff_eq_none, if_true]

section
variable {p : Packet} (fits : p.body.len ≤ 256) (own : p.srcHall = h)
include fits own

theorem meshBroadcast_sends : exec (.meshBroadcast h p) s = .next (hallBroadcast s h p) :=
  congrArg Host.Outcome.next (if_pos (by simp [net, fits, own]))

theorem ringBroadcast_sends (mask : BitVec 12) : exec (.ringBroadcast h mask p) s =
    .next ((List.finRange 12).foldl (fun t d =>
      if mask.getLsbD d.val && (d == h || ringReaches t h d) then hallBroadcast t d p else t) s) :=
  congrArg Host.Outcome.next (if_pos (by simp [net, fits, own]))

end

end

/-! ### A hall whose network does not answer -/

section
variable (lost : s.hallNet h = false)
include lost

theorem meshPacket_lost (e : MeshEvent) : exec (.meshPacket h e) s = .next s :=
  congrArg Host.Outcome.next (if_pos (by simp [lost]))

theorem ringPacket_lost (cw : Bool) : exec (.ringPacket h cw) s = .next s :=
  congrArg Host.Outcome.next (if_neg (by simp [lost]))

theorem meshBroadcast_lost (p : Packet) : exec (.meshBroadcast h p) s = .next s :=
  congrArg Host.Outcome.next (if_neg (by simp [lost]))

end

/-! ### A flit resent (R290) -/

/-- A link in use after a resend: it goes on, retrains, or retrains and is repaired or narrowed (R290). -/
def ucieOutcome (s : State) (h : HallId) (l : UcieLink) : UcieOutcome → State
  | .resent => ucieResent s h l
  | .retrained => ucieRetrained (ucieResent s h l) h l
  | .repaired n =>
    let t := (ucieRetrained (ucieResent s h l) h l).modHall h fun x => setLink x l { getLink x l with spares := min 15 n }
    if l = .host ∧ Config.ucieSpares ≤ min 15 n then t.replaceCause 3 else t
  | .narrowed n => ucieNarrow (ucieRetrained (ucieResent s h l) h l) h l n

theorem ucieFlitResend_down {l : UcieLink} (down : (getLink (s.hall h) l).width = 0) (o : UcieOutcome) :
    exec (.ucieFlitResend h l o) s = .next s :=
  congrArg Host.Outcome.next (if_pos (by simp [down]))

theorem ucieFlitResend_up (net : s.hallNet h = true) {l : UcieLink} (up : (getLink (s.hall h) l).width ≠ 0)
    (o : UcieOutcome) : exec (.ucieFlitResend h l o) s = .next (ucieOutcome s h l o) := by
  refine congrArg Host.Outcome.next ((if_neg (by simp [net, up])).trans ?_)
  cases o <;> rfl

end

/-- Settles O54: each clause is the equation of its command, for one answer of the network, the arbiter, the hall or the
link; AGE_TICK changes each arbiter of each hall, listed or not. -/
theorem packageNetworkMovesPackets : Obligations.PackageNetworkMovesPackets := by
  intro s
  refine ⟨fun h net => ⟨fun p inp sw fits own free source runs => ?_, fun out empty => ?_, fun out i a p picked next => ?_,
      fun cw i a p onward up picked next => ringPacket_crosses net onward up picked next,
      fun p fits own => ⟨fun enabled => ?_, ringBroadcast_sends net fits own⟩,
      fun l => ⟨ucieFlitResend_down, fun up => ?_⟩⟩,
    fun h lost => ⟨meshPacket_lost lost, ringPacket_lost lost, meshBroadcast_lost lost⟩,
    ⟨_, ageTick_older s, rfl, fun h out => ?_⟩, fun begun => congrArg Host.Outcome.next (if_neg begun)⟩
  · rw [meshPacket_inject net, netInject_stairwell fits own free source runs]
  · rw [meshPacket_grant net, netGrant_empty empty]
  · rw [meshPacket_grant net, netGrant_picked picked next]
  · rw [meshBroadcast_sends net fits own, hallBroadcast_enabled enabled]
  · exact ⟨ucieFlitResend_up net up _, ucieFlitResend_up net up _, fun n => ucieFlitResend_up net up _,
      fun n => ucieFlitResend_up net up _⟩
  · rw [State.hall_older, Hall.older_arbiter]
    rfl

end Sys2Proof.Machine
end

section
/-! Fabric packets handed on: what the link takes, and what the checks of a packet and of a message let through (R317, R321,
R329). -/

namespace Sys2Proof.Machine

@[simp] theorem State.port_modPort_same (s : State) (h : Nat) (f : Port → Port) :
    (s.modPort h f).port h = f (s.port h) := by
  simp only [State.port, State.modPort, State.hall_modHall_same]

@[simp] theorem State.port_modPorter (s : State) (f : Porter → Porter) (h : Nat) : (s.modPorter f).port h = s.port h := rfl

/-! ### The module when the link has handed a packet on (R321) -/

section
variable (s : State) (h : HallId) (p : FabPacket)

theorem linkTaken_halls : linkTaken s h p = { s with halls := (linkTaken s h p).halls } := by
  unfold linkTaken
  split <;> rfl

variable {s h p}

/-- What does not depend on the halls is as before the packet. -/
theorem linkTaken_keeps {β : Type} (f : State → β) (own : ∀ x, f { s with halls := x } = f s) :
    f (linkTaken s h p) = f s := by
  rw [linkTaken_halls]
  exact own _

/-- What does not depend on the ports of the halls is as before the packet. -/
theorem linkTaken_field {β : Type} (f : Hall → β) (own : ∀ x y, f { x with port := y } = f x) (k : Nat) :
    f ((linkTaken s h p).hall k) = f (s.hall k) := by
  unfold linkTaken
  split
  · rfl
  · exact State.field_modHall f (fun x => own x _) s h k

@[simp] theorem linkTaken_porter : (linkTaken s h p).porter = s.porter := linkTaken_keeps State.porter fun _ => rfl
@[simp] theorem linkTaken_now : (linkTaken s h p).now = s.now := linkTaken_keeps State.now fun _ => rfl
@[simp] theorem linkTaken_out : (linkTaken s h p).out = s.out := linkTaken_keeps State.out fun _ => rfl
@[simp] theorem linkTaken_mem : (linkTaken s h p).mem = s.mem := linkTaken_keeps State.mem fun _ => rfl
@[simp] theorem linkTaken_porterUp : (linkTaken s h p).porterUp = s.porterUp := linkTaken_keeps State.porterUp fun _ => rfl
@[simp] theorem linkTaken_fwLevel : (linkTaken s h p).fwLevel = s.fwLevel := linkTaken_keeps State.fwLevel fun _ => rfl
@[simp] theorem linkTaken_ownClaim : (linkTaken s h p).ownClaim = s.ownClaim := linkTaken_keeps State.ownClaim fun _ => rfl
@[simp] theorem linkTaken_rx (k i : Nat) : (linkTaken s h p).rx k i = s.rx k i :=
  linkTaken_field (fun x => sget x.rx {} i) (fun _ _ => rfl) k

@[simp] theorem linkTaken_port_state : ((linkTaken s h p).port h).state = (s.port h).state := by
  unfold linkTaken
  split
  · rfl
  · rw [State.port_modPort_same]

@[simp] theorem linkTaken_port_active : ((linkTaken s h p).port h).active = (s.port h).active :=
  congrArg (· == PortState.active) linkTaken_port_state

theorem linkTaken_hall_ne {k : Nat} (other : k ≠ h.val) : (linkTaken s h p).hall k = s.hall k := by
  unfold linkTaken
  split
  · rfl
  · exact State.hall_modHall_ne s _ (Ne.symm other)

/-! ### The checks of a packet (R317, R321) -/

theorem linkIn_handed (a : Handed s h p) (k : State → State) : linkIn s h p k = k (linkTaken s h p) := by
  unfold linkIn linkTaken
  cases tag : p.link with
  | none => rfl
  | some t =>
    obtain ⟨up, whole, next⟩ := a.link t tag
    simp only [List.mem_cons, List.not_mem_nil, or_false, not_or] at up
    obtain ⟨down, training, retrain⟩ := up
    simp [down, training, retrain, whole, next]

section
variable {bad : Bool}

theorem checked_good (a : Handed s h p) (crc : p.crc = packetCrc p.hdr p.payload) (good : bad = false)
    (k : State → State) : checked s h p bad k = k (linkTaken s h p) := by
  simp only [checked, a.net, linkIn_handed a, crc, good, bne_self_eq_false, Bool.not_true, Bool.false_eq_true, if_false]

theorem checked_badCrc (a : Handed s h p) (crc : p.crc ≠ packetCrc p.hdr p.payload) (k : State → State) :
    checked s h p bad k = ((linkTaken s h p).modPort h fun x => { x with crcErr := x.crcErr + 1 }).logError
      { source := .fabCrc, class_ := Class.uncorrectable, hall := h } := by
  simp only [checked, a.net, linkIn_handed a, bne_iff_ne, ne_eq, crc, not_false_eq_true, Bool.not_true, Bool.false_eq_true,
    if_true, if_false]

end

theorem mgmtIn_good (a : Arrives s h p) (good : mgmtPktBad s p = false) (k : State → State) :
    mgmtIn s h p k = k (linkTaken s h p) := checked_good a.toHanded a.crc good k

theorem mgBad_of_mgmtPktBad (good : mgmtPktBad s p = false) : mgBad (msgOf p) = false := by
  simp only [mgmtPktBad, Bool.or_eq_false_iff] at good
  exact good.1.2

end

end Sys2Proof.Machine
end

section
/-! Fabric ports: HELLO sent, heard and refused, replay and the link's control word (R318 to R322). -/

namespace Sys2Proof.Machine

/-! ### Replay and control words (R321, R322) -/

theorem foldl_emit {α : Type} (o : α → Output) (l : List α) (s : State) :
    l.foldl (fun s q => s.emit (o q)) s = { s with out := s.out ++ l.map o } := by
  induction l generalizing s with
  | nil => simp only [List.foldl_nil, List.map_nil, List.append_nil]
  | cons q l ih =>
    rw [List.foldl_cons, ih]
    simp only [State.emit, List.map_cons, List.append_assoc, List.singleton_append]

section
variable {s : State} {h : HallId} (net : s.hallNet h = true)
include net

theorem linkReplay_sends (n : Nat) : exec (.linkReplay h n) s = .next
    { s with out := s.out ++ ((s.port h).replay.filter (fun q => n ≤ q.linkSeq)).map (fun q =>
      Output.fab h { q.pkt with link := some { seq := q.linkSeq, ok := true } }) } :=
  congrArg Host.Outcome.next ((if_pos net).trans (foldl_emit _ _ s))

theorem linkControlWord_frees (n : Nat) (credits : List (Fin 24 × Nat))
    (up : (s.port h).state = .hello ∨ (s.port h).state = .check ∨ (s.port h).state = .active ∨
      (s.port h).state = .refused) (idle : (s.port h).waitq = []) :
    exec (.linkControlWord h n credits) s = .next
      ((s.emit (.linkWord h ((s.port h).rxNext - 1) (s.port h).rxFree)).modPort h fun p => { p with
        replay := p.replay.filter fun q => n < q.linkSeq,
        used := credits.foldl (fun t c => sset t c.1 (sget t 0 c.1 - c.2)) p.used, rxFree := [] }) := by
  have linked : ((s.port h).state == .down || (s.port h).trains) = false := by
    rcases up with e | e | e | e <;> simp only [Port.trains, e] <;> rfl
  change execLinkControlWord h n credits s = _
  simp only [execLinkControlWord, net, Bool.or_assoc, linked, Bool.not_true, Bool.or_self, Bool.false_eq_true, if_false,
    State.port_modPort_same, idle, List.length_nil, portDrain]
  rfl

end

/-- Settles O4: a replay sends from a list by induction over it; a control word is an update of its port and one item
sent. -/
theorem replaySendsWhatThePeerLacks : Obligations.ReplaySendsWhatThePeerLacks := fun h s net =>
  ⟨linkReplay_sends net, fun n credits up idle =>
    ⟨_, linkControlWord_frees net n credits up idle, PortBecomes.of_mod (s.emit _) h _⟩⟩

/-! ### A HELLO is sent (R318) -/

theorem helloSend_due {s : State} {h : HallId} {us : Nat} (up : s.porterUp = true) (net : s.hallNet h = true)
    (every : (((s.port h).state = .hello ∨ (s.port h).state = .check ∨ (s.port h).state = .active) ∧ us = 1000) ∨
      ((s.port h).state = .refused ∧ us = 1000000))
    (passed : ∀ a, (s.port h).helloAt = some a → a + us * 100 ≤ s.now) :
    exec (.helloSend h) s =
      .next (sendLink (s.modPort h fun p => { p with helloAt := some s.now }) h (helloMsg s h)) := by
  change execHelloSend h s = _
  cases last : (s.port h).helloAt with
  | none =>
    rcases every with ⟨e | e | e, rfl⟩ | ⟨e, rfl⟩ <;>
      simp only [execHelloSend, e, last, up, net, Bool.and_self, if_true]
  | some a =>
    have due : s.passed a us = true := decide_eq_true (passed a last)
    rcases every with ⟨e | e | e, rfl⟩ | ⟨e, rfl⟩ <;>
      simp only [execHelloSend, e, last, due, up, net, Bool.and_self, if_true]

/-! ### No manager held (R328, R338) -/

/-- The porter is not the manager and holds none. -/
structure FabMgr.Unmanaged (f : FabMgr) : Prop where
  member : f.elected = false
  free   : f.mgrPid = none

section
variable {s : State} (unmanaged : s.porter.fab.Unmanaged)
include unmanaged

theorem portReport_unmanaged (h : HallId) (event : Nat) : portReport s h event = s := by
  simp only [portReport, unmanaged.member, unmanaged.free, Bool.false_eq_true, if_false, ite_self]

/-- With no manager held, an epoch heard is only noted. -/
theorem takeEpoch_unmanaged (e : Word) : ∃ f : FabMgr, takeEpoch s e = s.modFab (fun _ => f) ∧ f.Unmanaged := by
  obtain ⟨member, free⟩ := unmanaged
  by_cases heard : s.porter.fab.heard.toNat < e.toNat <;> by_cases newer : s.porter.fab.epoch.toNat < e.toNat <;>
    simp only [takeEpoch, heard, newer, free, Option.isSome_none, Bool.false_and, Bool.false_eq_true, if_true, if_false,
      ite_self] <;>
    exact ⟨_, rfl, member, by simp only [free]⟩

theorem portReport_takeEpoch_unmanaged (e : Word) (h : HallId) (event : Nat) :
    ∃ f : FabMgr, portReport (takeEpoch s e) h event = s.modFab fun _ => f := by
  obtain ⟨f, noted, after⟩ := takeEpoch_unmanaged unmanaged e
  have still : (s.modFab fun _ => f).porter.fab.Unmanaged := after
  exact ⟨f, noted ▸ portReport_unmanaged still h event⟩

end

/-! ### The check of a peer (R319) -/

section
variable {s t : State} {x : Port}

theorem checkReason_of_porter (same : t.porter = s.porter) (x : Port) : checkReason t x = checkReason s x := by
  unfold checkReason State.fwLevel State.pid
  rw [same]

theorem checkReason_gap (gap : levelMajor x.peerLevel + 1 < levelMajor s.fwLevel ∨
    levelMajor s.fwLevel + 1 < levelMajor x.peerLevel) : checkReason s x = some Reason.levelGap := if_pos gap

variable (near : ¬(levelMajor x.peerLevel + 1 < levelMajor s.fwLevel ∨ levelMajor s.fwLevel + 1 < levelMajor x.peerLevel))
include near

theorem checkReason_ahead (ahead : levelMajor s.fwLevel < x.peerWcl) : checkReason s x = some Reason.wclAhead :=
  (if_neg near).trans (if_pos ahead)

variable (level : ¬levelMajor s.fwLevel < x.peerWcl)
include level

theorem checkReason_self (self : x.peerPid = s.pid) : checkReason s x = some Reason.selfLoop :=
  (if_neg near).trans ((if_neg level).trans (if_pos self))

theorem checkReason_fit (other : x.peerPid ≠ s.pid) : checkReason s x = none :=
  (if_neg near).trans ((if_neg level).trans (if_neg other))

end

/-- A port ACTIVE at the lower of the two levels, and WCL raised to the peer's. -/
def peerAccepted (s : State) (h : HallId) : State :=
  (s.modPort h fun p => { p with
      state := .active, since := s.now, reason := 0,
      jpv := min (levelMajor s.fwLevel) (levelMajor (s.port h).peerLevel) }).modPorter fun p => { p with
    flash := { p.flash with wcl := max p.flash.wcl (s.port h).peerWcl } }

theorem peerAccepted_port (s : State) (h : HallId) : (peerAccepted s h).port h = { s.port h with
    state := .active, since := s.now, reason := 0,
    jpv := min (levelMajor s.fwLevel) (levelMajor (s.port h).peerLevel) } := by
  simp only [peerAccepted, State.port, State.modPort, State.modPorter_hall, State.hall_modHall_same]

theorem peerAccepted_hall_ne (s : State) (h : HallId) {k : Nat} (other : k ≠ h.val) :
    (peerAccepted s h).hall k = s.hall k := by
  rw [peerAccepted, State.modPorter_hall]
  exact State.hall_modHall_ne s _ (Ne.symm other)

section
variable {s : State} {h : HallId} (unmanaged : s.porter.fab.Unmanaged)
include unmanaged

theorem checkPort_refused {r : Nat} (breaks : checkReason s (s.port h) = some r) :
    checkPort s h = s.modPort h fun p => { p with state := .refused, since := s.now, reason := r, jpv := 0 } := by
  simp only [checkPort, breaks]
  exact portReport_unmanaged (s := s.modPort h _) unmanaged h 3

theorem checkPort_active (fit : checkReason s (s.port h) = none) :
    ∃ f : FabMgr, checkPort s h = ((peerAccepted s h).modFab fun _ => f).publishDue := by
  have still : (peerAccepted s h).porter.fab.Unmanaged := unmanaged
  obtain ⟨f, noted⟩ := portReport_takeEpoch_unmanaged still (s.port h).peerEpoch h 2
  refine ⟨f, ?_⟩
  simp only [checkPort, fit]
  exact congrArg State.publishDue noted

end

/-- The module when a HELLO from the link has told the port of its peer. -/
def peerHeard (s : State) (h : HallId) (p : FabPacket) : State :=
  (linkTaken s h p).modPort h fun y => y.withPeer (msgOf p)

theorem peerHeard_port (s : State) (h : HallId) (p : FabPacket) :
    (peerHeard s h p).port h = ((linkTaken s h p).port h).withPeer (msgOf p) := State.port_modPort_same _ h _

theorem peerHeard_porter (s : State) (h : HallId) (p : FabPacket) : (peerHeard s h p).porter = s.porter := linkTaken_porter

theorem peerHeard_now (s : State) (h : HallId) (p : FabPacket) : (peerHeard s h p).now = s.now := linkTaken_now

theorem peerHeard_fwLevel (s : State) (h : HallId) (p : FabPacket) : (peerHeard s h p).fwLevel = s.fwLevel :=
  linkTaken_fwLevel

theorem peerHeard_hall_ne (s : State) (h : HallId) (p : FabPacket) {k : Nat} (other : k ≠ h.val) :
    (peerHeard s h p).hall k = s.hall k :=
  (State.hall_modHall_ne _ _ (Ne.symm other)).trans (linkTaken_hall_ne other)

theorem peerHeard_checkReason (s : State) (h : HallId) (p : FabPacket) :
    checkReason (peerHeard s h p) ((peerHeard s h p).port h) =
      checkReason s (((linkTaken s h p).port h).withPeer (msgOf p)) := by
  rw [peerHeard_port, checkReason_of_porter (peerHeard_porter s h p)]

/-! ### A HELLO is heard (R318 to R320) -/

section
variable {s : State} {h : HallId} {p : FabPacket} (a : Arrives s h p) (good : mgmtPktBad s p = false)
  (ok : helloOk (msgOf p) = true) (up : s.porterUp = true)
include a good ok up

theorem hello_active (active : (s.port h).state = .active) :
    exec (.hello h p) s = .next ((linkTaken s h p).modPort h fun y => y.withPeer (msgOf p)) := by
  refine congrArg Host.Outcome.next ((mgmtIn_good a good _).trans ?_)
  simp only [linkTaken_porterUp, linkTaken_port_state, up, ok, active, Bool.not_true, Bool.or_self, Bool.false_eq_true,
    if_false]

variable (waits : (s.port h).state = .hello)
include waits

theorem hello_checks : exec (.hello h p) s = .next (checkPort (peerHeard s h p) h) := by
  refine congrArg Host.Outcome.next ((mgmtIn_good a good _).trans ?_)
  simp only [linkTaken_porterUp, linkTaken_port_state, up, ok, waits, Bool.not_true, Bool.or_self, Bool.false_eq_true,
    if_false]
  rfl

variable (unmanaged : s.porter.fab.Unmanaged)
include unmanaged

/-- A peer outside R319 leaves the port REFUSED with the reason. -/
theorem hello_refused {r : Nat} (breaks : checkReason s (((linkTaken s h p).port h).withPeer (msgOf p)) = some r) :
    Gives (.hello h p) s fun t => PortBecomes (linkTaken s h p) t h
      { ((linkTaken s h p).port h).withPeer (msgOf p) with state := .refused, since := s.now, reason := r, jpv := 0 } := by
  have still : (peerHeard s h p).porter.fab.Unmanaged := peerHeard_porter s h p ▸ unmanaged
  refine ⟨_, hello_checks a good ok up waits, ?_⟩
  rw [checkPort_refused still ((peerHeard_checkReason s h p).trans breaks), peerHeard_now]
  exact (PortBecomes.of_mod (linkTaken s h p) h _).mod _

/-- A fit peer makes the port ACTIVE and raises WCL to the peer's. -/
theorem hello_accepted (fit : checkReason s (((linkTaken s h p).port h).withPeer (msgOf p)) = none) :
    ∃ f : FabMgr, exec (.hello h p) s = .next ((peerAccepted (peerHeard s h p) h).modFab fun _ => f).publishDue := by
  have still : (peerHeard s h p).porter.fab.Unmanaged := peerHeard_porter s h p ▸ unmanaged
  obtain ⟨f, active⟩ := checkPort_active still ((peerHeard_checkReason s h p).trans fit)
  exact ⟨f, (hello_checks a good ok up waits).trans (congrArg _ active)⟩

end

/-- Settles O2: a HELLO in each state is due or heard; the fit peer breaks no rule of R319. -/
theorem helloExchange : Obligations.HelloExchange := by
  intro h s up net
  refine ⟨fun talks => helloSend_due up net (.inl ⟨talks, rfl⟩),
    fun refused => helloSend_due up net (.inr ⟨refused, rfl⟩),
    fun p a good ok member free => ⟨hello_active a good ok up, fun waits near near' level other => ?_⟩⟩
  have fit := checkReason_fit (s := s) (not_or.2 ⟨Nat.not_lt.2 near, Nat.not_lt.2 near'⟩) (Nat.not_lt.2 level) other
  obtain ⟨f, active⟩ := hello_accepted a good ok up waits ⟨member, free⟩ fit
  refine ⟨_, active, ?_, ?_, ?_, ?_, fun k other => ?_⟩
  · rw [State.publishDue, State.modFab, State.port_modPorter, State.port_modPorter, peerAccepted_port,
      peerHeard_port, peerHeard_now, peerHeard_fwLevel]
  · change max (peerHeard s h p).porter.flash.wcl ((peerHeard s h p).port h).peerWcl = _
    rw [peerHeard_port, peerHeard_porter]
  · rfl
  · rw [State.publishDue, State.modFab, State.modPorter_mem, State.modPorter_mem, peerAccepted, State.modPorter_mem]
    exact linkTaken_mem
  · rw [State.publishDue, State.modFab, State.modPorter_hall, State.modPorter_hall]
    exact (peerAccepted_hall_ne _ h other).trans (peerHeard_hall_ne s h p other)

/-- Settles O3: each clause is the rule of R319 that the peer breaks first. -/
theorem peerOutsideTheRulesIsRefused : Obligations.PeerOutsideTheRulesIsRefused :=
  fun _ _ _ a good ok up waits member free =>
  have refused {r : Nat} := hello_refused (r := r) a good ok up waits ⟨member, free⟩
  ⟨fun gap => refused (checkReason_gap gap), fun near ahead => refused (checkReason_ahead near ahead),
    fun near level self => refused (checkReason_self near level self)⟩

end Sys2Proof.Machine
end

section
/-! Receive streams, acknowledgement, retransmission and packets that pass through (R310, R313 to R317, R321, R323, R325,
R329). -/

namespace Sys2Proof.Machine

/-! ### Set-up of a stream (R313) -/

section
variable {s : State} {h : Nat} {w : Word}

/-- A write that FAB_STREAM_CFG refuses: of a stream that is not there, or of more CREDITS than there are. -/
def StreamCfgBad (s : State) (h : Nat) (w : Word) : Prop :=
  48 ≤ (s.hall h).regs.streamSel ∨ 2048 < bits w 13 2 ∨
    (bitAt w 0 = true ∧ 2048 < bits w 13 2 + otherCredits s h (s.hall h).regs.streamSel)

theorem streamCfg_refused (bad : StreamCfgBad s h w) : streamCfg s h w =
    s.setRx h (s.hall h).regs.streamSel { s.rx h (s.hall h).regs.streamSel with err := true } := if_pos bad

theorem streamCfg_credits (good : ¬StreamCfgBad s h w) (same : bitAt w 0 = (s.rx h (s.hall h).regs.streamSel).en) :
    streamCfg s h w = s.setRx h (s.hall h).regs.streamSel { s.rx h (s.hall h).regs.streamSel with
      err := (s.rx h (s.hall h).regs.streamSel).err && !bitAt w 1, credits := bits w 13 2 } :=
  (if_neg good).trans (if_pos same)

theorem streamCfg_resets (good : ¬StreamCfgBad s h w) (changes : bitAt w 0 ≠ (s.rx h (s.hall h).regs.streamSel).en) :
    streamCfg s h w = s.setRx h (s.hall h).regs.streamSel {
      en := bitAt w 0, err := (s.rx h (s.hall h).regs.streamSel).err && !bitAt w 1, credits := bits w 13 2,
      src := (s.rx h (s.hall h).regs.streamSel).src } :=
  (if_neg good).trans (if_neg changes)

end

/-- Settles O5: the write reaches the stream, which refuses it, takes it or starts anew. -/
theorem receiveStreamIsSetUpAsStated : Obligations.ReceiveStreamIsSetUpAsStated := fun h w s net running =>
  have writes : exec (.fabStreamCfgWrite h w) s = .next (streamCfg s h w) :=
    congrArg Host.Outcome.next (State.hallWrite_runs net running _)
  ⟨fun bad => writes.trans (congrArg _ (streamCfg_refused bad)),
    fun good same => writes.trans (congrArg _ (streamCfg_credits good same)),
    fun good changes => writes.trans (congrArg _ (streamCfg_resets good changes))⟩

/-! ### DATA (R313 to R317) -/

/-- A stream that has taken one more packet: unacknowledged, its oldest at `now` at the latest. -/
def RxStream.taken (r : RxStream) (p : FabPacket) (now : Nat) : RxStream :=
  { r.take p with unacked := (r.take p).unacked + 1, unackAt := some ((r.take p).unackAt.getD now) }

section
variable {s : State} {h : HallId} {r : RxStream} {p : FabPacket} (enabled : r.en = true) (i : Nat)
include enabled

theorem rxData_otherSource (other : r.src.toNat ≠ pkSrc p.hdr) : rxData s h i r p = fabDrop s h := by
  simp only [rxData, enabled, other, ne_eq, not_false_eq_true, true_or, Bool.not_true, Bool.false_eq_true, if_true, if_false]

theorem rxData_admitted (source : r.src.toNat = pkSrc p.hdr) (admits : r.admits p = true) : rxData s h i r p =
    if 4 ≤ (r.taken p s.now).unacked then sendAck (s.setRx h i (r.taken p s.now)) h i
      else s.setRx h i (r.taken p s.now) := by
  simp only [rxData, enabled, source, admits, ne_eq, not_true_eq_false, Bool.true_eq_false, or_self, Bool.not_true,
    Bool.false_eq_true, if_false]
  rfl

end

section
variable {s : State} {h : HallId} {p : FabPacket} (a : Handed s h p)
include a

theorem data_badCrc (crc : p.crc ≠ packetCrc p.hdr p.payload) : exec (.data h p) s = .next
    (((linkTaken s h p).modPort h fun x => { x with crcErr := x.crcErr + 1 }).logError
      { source := .fabCrc, class_ := Class.uncorrectable, hall := h }) :=
  congrArg Host.Outcome.next (checked_badCrc a crc _)

theorem data_received (good : packetBad s h p 1 = false) (host : pkStream p.hdr < 48)
    (crc : p.crc = packetCrc p.hdr p.payload) : exec (.data h p) s = .next
      (rxData (linkTaken s h p) h (pkStream p.hdr) (s.rx h (pkStream p.hdr)) p) := by
  refine congrArg Host.Outcome.next ((checked_good a crc good _).trans ?_)
  simp only [host, if_true, linkTaken_rx]

end

/-- Settles O6: a packet passes its check or not, and its stream takes it or drops it. -/
theorem dataPacketReachesItsStream : Obligations.DataPacketReachesItsStream := by
  intro h p s a good host
  refine ⟨fun crc enabled source admits => ?_, fun crc enabled other => ?_, data_badCrc a⟩
  · rw [data_received a good host crc, rxData_admitted enabled _ source admits, linkTaken_now]
    exact ⟨fun below => congrArg _ (if_neg (Nat.not_le.2 below)), fun fourth => congrArg _ (if_pos fourth)⟩
  · rw [data_received a good host crc, rxData_otherSource enabled _ other]
    rfl

/-! ### ACK, ACK_TIMER and RETRANSMIT_TIMER (R315, R316) -/

section
variable {s : State} {h : HallId}

theorem ack_moves {p : FabPacket} {x : TxStream} (a : Arrives s h p) (good : packetBad s h p 2 = false)
    (known : sfind (s.hall h).tx (txKey (pkSrc p.hdr) (pkStream p.hdr)) = some x)
    (sent : (x.next - 1 - pkAckseq p.hdr).toNat < 2 ^ 31) : exec (.ack h p) s = .next (pumpSends (endStops
      ((linkTaken s h p).setTx h (txKey (pkSrc p.hdr) (pkStream p.hdr)) (x.acked (pkAckseq p.hdr) (pkLimit p.hdr)))
      h) h) := by
  have kept : sfind ((linkTaken s h p).hall h).tx (txKey (pkSrc p.hdr) (pkStream p.hdr)) = some x :=
    (linkTaken_field (fun y => sfind y.tx _) (fun _ _ => rfl) h).trans known
  refine congrArg Host.Outcome.next ((checked_good a.toHanded a.crc good _).trans ?_)
  simp only [kept, sent, if_true]

variable (net : s.hallNet h = true)
include net

theorem ackTimer_due {i : StreamId} {t : Nat} (host : i.val < 48) (oldest : (s.rx h i).unackAt = some t)
    (due : t + 200 ≤ s.now) : exec (.ackTimer h i) s = .next (sendAck s h i) := by
  have passed : s.passed t 2 = true := decide_eq_true due
  change execAckTimer h i s = _
  simp only [execAckTimer, net, host, oldest, passed, Bool.not_true, Bool.false_eq_true, if_true, if_false]

variable {dst : NodeId} {i : StreamId} {seq : Word} {q : TxPkt}
  (kept : (s.tx h (txKey dst.toNat i)).pkts.find? (fun q => q.seq == seq) = some q)
  (due : q.sent + 100 * 2 ^ (q.sends - 1) * 100 ≤ s.now)
include kept due

theorem retransmitTimer_resends (more : q.sends < 7) :
    let k := txKey dst.toNat i
    let q' := { q with sent := s.now, sends := q.sends + 1 }
    let s1 := s.setTx h k { s.tx h k with pkts := (s.tx h k).pkts.map fun x => if x.seq == seq then q' else x }
    exec (.retransmitTimer h dst i seq) s = .next
      (fabSend (s1.modPort h fun x => { x with retx := x.retx + 1 }) h (dataPacket s1 h k q')) := by
  have passed : s.passed q.sent (100 * 2 ^ (q.sends - 1)) = true := decide_eq_true due
  change execRetransmitTimer h dst i seq s = _
  simp only [execRetransmitTimer, kept, net, passed, Nat.not_le.2 more, Bool.not_true, Bool.or_self, Bool.false_eq_true,
    if_false]

theorem retransmitTimer_givesUp (last : 7 ≤ q.sends) :
    exec (.retransmitTimer h dst i seq) s = .next (giveUp s h (txKey dst.toNat i) q) := by
  have passed : s.passed q.sent (100 * 2 ^ (q.sends - 1)) = true := decide_eq_true due
  change execRetransmitTimer h dst i seq s = _
  simp only [execRetransmitTimer, kept, net, passed, last, Bool.not_true, Bool.or_self, Bool.false_eq_true, if_true,
    if_false]

end

/-- Settles O7: each clause is the equation of its command for a pair or a stream with something to answer. -/
theorem acknowledgementAndRetransmission : Obligations.AcknowledgementAndRetransmission := fun _ _ net =>
  ⟨fun _ _ => ack_moves, fun _ _ => ackTimer_due net, fun _ _ _ _ kept due =>
    ⟨retransmitTimer_resends net kept due, retransmitTimer_givesUp net kept due⟩⟩

/-! ### Packets that pass through (R325, R329) -/

section
variable {s : State} {h : HallId} {p : FabPacket}

section
variable (node : nodeModule (pkDst p.hdr) ≠ 0xFFFF) (hall : nodeHall (pkDst p.hdr) < 12 ∨ nodeHall (pkDst p.hdr) = 15)
include node hall

theorem sendable_node :
    ¬(nodeModule (pkDst p.hdr) = 0xFFFF ∨ (12 ≤ nodeHall (pkDst p.hdr) ∧ nodeHall (pkDst p.hdr) ≤ 14)) := by
  omega

section
variable (own : nodeModule (pkDst p.hdr) = s.porter.fab.moduleId)
include own

theorem fabSend_here (here : nodeHall (pkDst p.hdr) = h.val ∨ nodeHall (pkDst p.hdr) = 15) :
    fabSend s h p = s.emit (.fabLocal (nodeHall (pkDst p.hdr)) { p with link := none }) :=
  (if_neg (sendable_node node hall)).trans ((if_pos own).trans (if_pos here))

theorem fabSend_hall {g : HallId} (there : nodeHall (pkDst p.hdr) = g.val) (other : g ≠ h) :
    fabSend s h p = fabRing s h g p false := by
  have away : ¬(nodeHall (pkDst p.hdr) = h.val ∨ nodeHall (pkDst p.hdr) = 15) := by
    rintro (e | e)
    · exact other (Fin.ext (there.symm.trans e))
    · omega
  refine (if_neg (sendable_node node hall)).trans ((if_pos own).trans ((if_neg away).trans ?_))
  rw [there, Fin.ofNat_val_eq_self]

end

theorem fabSend_level7 (other : nodeModule (pkDst p.hdr) ≠ s.porter.fab.moduleId) (top : pkLevel p.hdr = 7) :
    fabSend s h p = fabDrop s h :=
  (if_neg (sendable_node node hall)).trans ((if_neg other).trans (if_pos top))

end

/-- A routed packet with the first nibble of ROUTE used (R329). -/
def routedOn (p : FabPacket) : FabPacket :=
  withRoute p (bodyNat p.payload 0x10 4 / 16 + 0xF0000000) (bodyNat p.payload 0x14 4)

theorem steer_porter {ring : Bool} (last : bodyNat p.payload 0x10 4 % 16 = 15) :
    steer s h ring p = s.emit (.fabLocal 15 { p with link := none }) := if_pos last

theorem steer_discards {ring : Bool} (lo : 12 ≤ bodyNat p.payload 0x10 4 % 16)
    (hi : bodyNat p.payload 0x10 4 % 16 ≤ 14) :
    steer s h ring p = fabDrop s h := (if_neg (by omega)).trans (if_pos lo)

theorem steer_own {ring : Bool} (here : bodyNat p.payload 0x10 4 % 16 = h.val) :
    steer s h ring p = fabOut s h (routedOn p) := by
  have hall : ¬12 ≤ h.val := Nat.not_le.2 h.isLt
  have porter : h.val ≠ 15 := by omega
  simp only [steer, here, hall, porter, bne_self_eq_false, Bool.and_false, Bool.false_eq_true, if_false,
    Fin.ofNat_val_eq_self, routedOn]

theorem steer_ring {g : HallId} (there : bodyNat p.payload 0x10 4 % 16 = g.val) (other : g ≠ h) :
    steer s h true p = fabRing s h g (routedOn p) true := by
  have hall : ¬12 ≤ g.val := Nat.not_le.2 g.isLt
  have porter : g.val ≠ 15 := by omega
  have away : (g.val != h.val) = true := bne_iff_ne.2 fun e => other (Fin.ext e)
  simp only [steer, there, hall, porter, away, Bool.and_self, if_true, if_false, Fin.ofNat_val_eq_self, routedOn]

variable (a : Handed s h p)
include a

theorem fabricForward_handed : exec (.fabricForward h p) s = .next (fabSend (linkTaken s h p) h p) :=
  congrArg Host.Outcome.next ((if_pos a.net).trans (linkIn_handed a _))

theorem mgmtForward_handed (whole : 32 ≤ p.payload.length) : exec (.mgmtForward h p) s = .next
    (steer (linkTaken s h p) h true
      (withRoute p (bodyNat p.payload 0x10 4) (bodyNat p.payload 0x14 4 * 16 % 2 ^ 32 + h.val))) :=
  congrArg Host.Outcome.next ((if_neg (by simp only [a.net, Bool.not_true, Bool.false_eq_true, not_false_eq_true])).trans
    ((linkIn_handed a _).trans (if_neg (Nat.not_lt.2 whole))))

end

/-- Settles O8: a packet handed on is sent by its DST, a routed one by the first nibble of its ROUTE. -/
theorem packetsThatPassThrough : Obligations.PacketsThatPassThrough := by
  intro h p s a
  refine ⟨fun node hall => ?_, fun whole => ?_⟩
  · rw [fabricForward_handed a, ← linkTaken_porter (s := s) (h := h) (p := p)]
    exact ⟨fun own => ⟨fun here => congrArg _ (fabSend_here node hall own here),
      fun g there other => congrArg _ (fabSend_hall node hall own there other)⟩,
      fun other top => congrArg _ (fabSend_level7 node hall other top)⟩
  · rw [mgmtForward_handed a whole]
    exact ⟨fun last => congrArg _ (steer_porter last), fun lo hi => congrArg _ (steer_discards lo hi),
      fun here => congrArg _ (steer_own here), fun g there other => congrArg _ (steer_ring there other)⟩

end Sys2Proof.Machine
end

section
/-! The fabric manager: claims, election, heartbeats and what a porter does for the manager (R328, R330, R331, R333,
R338). -/

namespace Sys2Proof.Machine

/-! ### Claims and the election (R328) -/

theorem claimSend_due {s : State} (up : s.porterUp = true)
    (passed : ∀ a, s.porter.fab.lastClaim = some a → a + 10000000 ≤ s.now) : exec .claimSend s = .next
      (sendLinks (s.modFab fun f => { f with lastClaim := some s.now })
        (mkMgmt s 0x01 false 0 0 0 (leBytes 4 s.porter.fab.prio)) none) := by
  change execClaimSend s = _
  cases last : s.porter.fab.lastClaim with
  | none => simp only [execClaimSend, last, up, Bool.and_self, if_true]
  | some a =>
    have due : s.passed a 100000 = true := decide_eq_true (passed a last)
    simp only [execClaimSend, last, due, up, Bool.and_self, if_true]

/-- The PRIO and the PID that a CLAIM names. -/
def claimSaid (m : MgmtMsg) : Nat × Pid := (bodyNat m.body 0 1, mgOrigin m)

/-- A CLAIM held with its time, and its epoch heard. -/
def claimHeld (s : State) (m : MgmtMsg) : State :=
  (hearEpoch s (mgEpoch m)).modFab fun f => { f with
    claims := ((claimSaid m).1, (claimSaid m).2, s.now) :: f.claims.filter fun q => !s.passed q.2.2 3000000 }

/-- A manager that holds a better claim steps down. -/
def steppedDown (s : State) : State :=
  (s.modFab fun f => { f with elected := false, changed := true, mgrPid := none }).fabIrq

theorem steppedDown_out (s : State) : (steppedDown s).out = s.out ++ [.msi s.porter.fab.vec] := rfl

theorem steppedDown_mem (s : State) : (steppedDown s).mem = s.mem := rfl

theorem steppedDown_halls (s : State) : (steppedDown s).halls = s.halls := rfl

theorem hearEpoch_fab (s : State) (e : Word) : (hearEpoch s e).porter.fab =
    if s.porter.fab.heard.toNat < e.toNat then { s.porter.fab with heard := e } else s.porter.fab := rfl

theorem hearEpoch_field {β : Type} (f : FabMgr → β) (kept : ∀ x e, f { x with heard := e } = f x) (s : State)
    (e : Word) : f (hearEpoch s e).porter.fab = f s.porter.fab := by
  rw [hearEpoch_fab]
  split
  · exact kept _ e
  · rfl

theorem claimHeld_heard (s : State) (m : MgmtMsg) : s.porter.fab.heard.toNat ≤ (claimHeld s m).porter.fab.heard.toNat := by
  change _ ≤ (hearEpoch s (mgEpoch m)).porter.fab.heard.toNat
  rw [hearEpoch_fab]
  split
  · exact Nat.le_of_lt ‹_›
  · exact Nat.le_refl _

theorem claimHeld_halls (s : State) (m : MgmtMsg) : (claimHeld s m).halls = s.halls := rfl

theorem claimHeld_elected (s : State) (m : MgmtMsg) : (claimHeld s m).porter.fab.elected = s.porter.fab.elected :=
  hearEpoch_field FabMgr.elected (fun _ _ => rfl) s _

theorem claimHeld_vec (s : State) (m : MgmtMsg) : (claimHeld s m).porter.fab.vec = s.porter.fab.vec :=
  hearEpoch_field FabMgr.vec (fun _ _ => rfl) s _

theorem claimHeld_ownClaim (s : State) (m : MgmtMsg) : (claimHeld s m).ownClaim = s.ownClaim :=
  congrArg (·, s.pid) (hearEpoch_field FabMgr.prio (fun _ _ => rfl) s _)

section
variable {s : State} {h : HallId} {p : FabPacket} (a : Arrives s h p) (good : mgmtPktBad s p = false)
  (up : s.porterUp = true) (active : (s.port h).active = true)
include a good up active

theorem claim_held (typed : mgType (msgOf p) = 0x01) (direct : mgRouted (msgOf p) = false)
    (body : bodyOk (msgOf p).body 4 [(0, 8, 24)] = true) : exec (.claim h p) s =
      .next (if s.porter.fab.elected && claimBetter (claimSaid (msgOf p)) s.ownClaim then
        steppedDown (claimHeld (linkTaken s h p) (msgOf p)) else claimHeld (linkTaken s h p) (msgOf p)) := by
  refine congrArg Host.Outcome.next ((mgmtIn_good a good _).trans ?_)
  rw [← linkTaken_porter (s := s) (h := h) (p := p), ← linkTaken_ownClaim (s := s) (h := h) (p := p),
    ← claimHeld_elected _ (msgOf p), ← claimHeld_ownClaim _ (msgOf p)]
  simp only [linkTaken_porterUp, linkTaken_port_active, up, active, typed, direct, mgBad_of_mgmtPktBad good, body,
    bne_self_eq_false, Bool.not_true, Bool.or_self, Bool.false_eq_true, if_false]
  rfl

theorem heartbeat_new (typed : mgType (msgOf p) = 0x02) (direct : mgRouted (msgOf p) = false)
    (body : bodyOk (msgOf p).body 8 [(0, 20, 12)] = true) (new : hbNew s (msgOf p) = true) :
    exec (.heartbeat h p) s = .next (sendLinks (holdManager (takeEpoch ((linkTaken s h p).modFab fun f => { f with
      hbSeen := (mgOrigin (msgOf p), mgEpoch (msgOf p), BitVec.ofNat 32 (bodyNat (msgOf p).body 4 4)) ::
        f.hbSeen.filter fun q => q.1 != mgOrigin (msgOf p) }) (mgEpoch (msgOf p))) (msgOf p)) (msgOf p) (some h)) := by
  have still : hbNew (linkTaken s h p) (msgOf p) = true :=
    (linkTaken_keeps (fun t => hbNew t (msgOf p)) fun _ => rfl).trans new
  refine congrArg Host.Outcome.next ((mgmtIn_good a good _).trans ?_)
  simp only [linkTaken_porterUp, linkTaken_port_active, up, active, typed, direct, mgBad_of_mgmtPktBad good, body, still,
    bne_self_eq_false, Bool.not_true, Bool.or_self, Bool.false_eq_true, if_false]

end

section
variable {s : State} (up : s.porterUp = true)
include up

theorem managerElected_best (member : s.porter.fab.elected = false) (best : ownBestLong s = true) :
    let e := (if s.porter.fab.heard.toNat < s.porter.fab.epoch.toNat then s.porter.fab.epoch else s.porter.fab.heard) + 1
    exec .managerElected s = .next (s.modFab fun f => { f with
      elected := true, changed := true, epoch := e, heard := e, mgrPid := some s.pid,
      mgrNode := BitVec.ofNat 20 s.porterNode, lastHbSend := none }).fabIrq :=
  congrArg Host.Outcome.next (if_pos (by simp only [up, member, best, Bool.not_false, Bool.and_self]))

theorem heartbeatSend_due (manager : s.porter.fab.elected = true)
    (passed : ∀ a, s.porter.fab.lastHbSend = some a → a + 10000000 ≤ s.now) : exec .heartbeatSend s = .next
      (sendLinks (s.modFab fun f => { f with hbCount := s.porter.fab.hbCount + 1, lastHbSend := some s.now })
        (mkMgmt s 0x02 false 0 0 0 (leBytes 4 s.porterNode ++ leBytes 4 (s.porter.fab.hbCount + 1).toNat)) none) := by
  change execHeartbeatSend s = _
  cases last : s.porter.fab.lastHbSend with
  | none =>
    simp only [execHeartbeatSend, last, up, manager, Bool.and_self, if_true]
    rfl
  | some a =>
    have due : s.passed a 100000 = true := decide_eq_true (passed a last)
    simp only [execHeartbeatSend, last, due, up, manager, Bool.and_self, if_true]
    rfl

theorem heartbeatLoss_overdue {p : Pid} {t : Nat} (member : s.porter.fab.elected = false)
    (held : s.porter.fab.mgrPid = some p) (last : s.porter.fab.lastHb = some t) (overdue : t + 100000000 ≤ s.now) :
    exec .heartbeatLoss s = .next (s.modFab fun f => { f with mgrPid := none, changed := true }).fabIrq := by
  have passed : s.passed t 1000000 = true := decide_eq_true overdue
  change execHeartbeatLoss s = _
  simp only [execHeartbeatLoss, held, last, up, member, passed, Bool.not_false, Bool.and_self, if_true]

end

/-- Settles O9: each clause is the equation of its command for what is due or for a good message. -/
theorem electionAndHeartbeats : Obligations.ElectionAndHeartbeats := by
  intro s up
  refine ⟨claimSend_due up, fun h p a good active => ?_,
    fun member best => ⟨_, managerElected_best up member best, ?_⟩,
    heartbeatSend_due up, fun h p a good active => ?_, fun p t => heartbeatLoss_overdue up⟩
  rotate_left
  · rfl
  · exact heartbeat_new a good up active
  intro m u typed direct body c
  have held := claim_held a good up active typed direct body
  have out : (claimHeld u m).out = s.out := linkTaken_out (s := s) (h := h) (p := p)
  have vec : (claimHeld u m).porter.fab.vec = s.porter.fab.vec := by rw [claimHeld_vec, linkTaken_porter]
  have heard : s.porter.fab.heard.toNat ≤ (claimHeld u m).porter.fab.heard.toNat := by
    rw [← linkTaken_porter (s := s) (h := h) (p := p)]
    exact claimHeld_heard u m
  have mem : (claimHeld u m).mem = s.mem := linkTaken_mem (s := s) (h := h) (p := p)
  refine ⟨fun manager better => ⟨steppedDown (claimHeld u m), ?_, rfl, rfl, rfl, ?_,
      (steppedDown_halls _).trans (claimHeld_halls u m), (steppedDown_mem _).trans mem⟩,
    fun member => ⟨claimHeld u m, ?_, ?_, heard, ?_, out, claimHeld_halls u m, mem⟩⟩
  · exact held.trans (congrArg _ (if_pos (Bool.and_eq_true_iff.2 ⟨manager, better⟩)))
  · rw [steppedDown_out, out, vec]
  · exact held.trans (congrArg _ (if_neg (by simp only [member, Bool.false_and, Bool.false_eq_true, not_false_eq_true])))
  · rw [← linkTaken_now (s := s) (h := h) (p := p)]
    exact List.mem_cons_self
  · rw [claimHeld_elected, linkTaken_porter]
    exact member

/-! ### Requests of the manager (R330, R331, R333) -/

section
variable {s : State} {h : HallId} {l : Option LinkTag} {p : FabPacket}

section
variable (a : Arrives s h (arrived p l)) (good : mgmtPktBad s (arrived p l) = false) (up : s.porterUp = true) {mtype : Nat}
  (typed : mgType (msgOf p) = mtype) {ok : List Byte → Bool}
include a good up typed

theorem request_badBody (bad : ok (msgOf p).body = false) (run : MgmtMsg → State → State) :
    request s h (arrived p l) mtype ok run =
      sendReply (linkTaken s h (arrived p l)) h (pkSrc p.hdr) (msgOf p) (leBytes 4 0x01) := by
  have here : mgType (msgOf (arrived p l)) = mtype := typed
  have other : ok (msgOf (arrived p l)).body = false := bad
  refine (mgmtIn_good a good _).trans ?_
  simp only [linkTaken_porterUp, up, here, other, bne_self_eq_false, Bool.not_true, Bool.or_self, Bool.false_eq_true,
    if_false]
  rfl

theorem request_runs (body : ok (msgOf p).body = true) (run : MgmtMsg → State → State) :
    request s h (arrived p l) mtype ok run = run (msgOf p) (linkTaken s h (arrived p l)) := by
  have here : mgType (msgOf (arrived p l)) = mtype := typed
  have formed : ok (msgOf (arrived p l)).body = true := body
  refine (mgmtIn_good a good _).trans ?_
  simp only [linkTaken_porterUp, up, here, formed, bne_self_eq_false, Bool.not_true, Bool.or_self, Bool.false_eq_true,
    if_true, if_false]
  rfl

variable (body : ok (msgOf p).body = true)
include body

theorem managed_runs (epoch : mgEpoch (msgOf p) = s.porter.fab.epoch)
    (manager : s.porter.fab.mgrPid = some (mgOrigin (msgOf p))) (run : List Byte → State → State × Nat) :
    managed s h (arrived p l) mtype ok run = sendReply (run (msgOf p).body (linkTaken s h (arrived p l))).1 h (pkSrc p.hdr)
      (msgOf p) (leBytes 4 (run (msgOf p).body (linkTaken s h (arrived p l))).2) := by
  refine (request_runs a good up typed body _).trans (if_pos ?_)
  rw [linkTaken_porter]
  exact ⟨epoch, manager⟩

theorem managed_refused (other : mgEpoch (msgOf p) ≠ s.porter.fab.epoch ∨
      s.porter.fab.mgrPid ≠ some (mgOrigin (msgOf p))) (run : List Byte → State → State × Nat) :
    managed s h (arrived p l) mtype ok run =
      sendReply (linkTaken s h (arrived p l)) h (pkSrc p.hdr) (msgOf p) (leBytes 4 0x04) := by
  refine (request_runs a good up typed body _).trans (if_neg ?_)
  rw [linkTaken_porter]
  exact fun both => other.elim (· both.1) (· both.2)

end

theorem assignBodyOk_iff {b : List Byte} :
    assignBodyOk b = true ↔ bodyOk b 4 [(0, 16, 16)] = true ∧ bodyNat b 0 2 ≠ 0xFFFF := by
  rw [assignBodyOk, Bool.and_eq_true, bne_iff_ne]

theorem wclSet_known {b : List Byte} (known : bodyNat b 0 2 ≤ levelMajor s.fwLevel) : wclSet b s =
    (s.modPorter fun p => { p with flash := { p.flash with wcl := max p.flash.wcl (bodyNat b 0 2) } }, 0) :=
  if_neg (Nat.not_lt.2 known)

theorem wclSet_ahead {b : List Byte} (ahead : levelMajor s.fwLevel < bodyNat b 0 2) : wclSet b s = (s, 0x05) := if_pos ahead

theorem report_recorded {p : FabPacket} (a : Arrives s h p) (good : mgmtPktBad s p = false) (up : s.porterUp = true)
    (manager : s.porter.fab.elected = true) (typed : mgType (msgOf p) = 0x07)
    (body : bodyOk (msgOf p).body 8 [(0, 28, 4), (4, 16, 16)] = true) :
    let w := bodyNat (msgOf p).body 0 4
    exec (.report (h, p)) s = .next (recordReport (linkTaken s h p) (w % 2 ^ 20) (w / 2 ^ 20 % 16) (w / 2 ^ 24)
      (bodyNat (msgOf p).body 4 2)) := by
  refine congrArg Host.Outcome.next ((mgmtIn_good a good _).trans (if_pos ?_))
  simp only [linkTaken_porterUp, linkTaken_porter, up, manager, typed, body, beq_self_eq_true, Bool.and_self]

end

/-- Settles O10: each request is answered by what it does when its body and its sender are right. -/
theorem managerRequestsAreAnswered : Obligations.ManagerRequestsAreAnswered := by
  intro h l p s up q u m src a good
  refine ⟨fun typed empty => ?_, fun typed other => ?_,
    fun epoch manager => ⟨fun typed body id => ?_, fun typed body => ?_,
      fun typed body => ⟨fun known => ?_, fun ahead => ?_⟩⟩,
    fun typed body id other => ?_,
    fun typed manager body => report_recorded a good up manager typed body⟩
  · exact congrArg _ (request_runs a good up typed (List.isEmpty_iff.2 empty) _)
  · exact congrArg _ (request_badBody a good up typed (List.isEmpty_eq_false_iff.2 other) _)
  · exact congrArg _ (managed_runs a good up typed (assignBodyOk_iff.2 ⟨body, id⟩) epoch manager _)
  · exact congrArg _ (managed_runs a good up typed body epoch manager _)
  · refine congrArg _ ((managed_runs a good up typed body epoch manager wclSet).trans ?_)
    rw [wclSet_known (known.trans_eq (congrArg levelMajor linkTaken_fwLevel.symm))]
  · refine congrArg _ ((managed_runs a good up typed body epoch manager wclSet).trans ?_)
    rw [wclSet_ahead ((congrArg levelMajor linkTaken_fwLevel).trans_lt ahead)]
  · exact congrArg _ (managed_refused a good up typed (assignBodyOk_iff.2 ⟨body, id⟩) other _)

end Sys2Proof.Machine
end

section
/-! Fabric commands and the transfer of a volume: slots started, replies, time-outs, and the destination of a transfer (R335
to R337, Tables 11.8 and 11.9). -/

namespace Sys2Proof.Machine

/-! ### Commands of the slots start (R335, R337) -/

section
variable {s : State} {n : FabSlot} (running : s.running = true) (unused : s.fabCmd? n = none)
  (room : s.porter.fab.cmds.length < 16) (good : slotBad (slotRec s n) = false)
include running unused room good

theorem fabStart_mgmt (code : fcCode (slotRec s n) = 1) : fabStart s n FabKind.mgmt = mgmtSend s n (slotRec s n) := by
  simp only [fabStart, fabDoorbell, running, unused, good, code, Nat.not_le.2 room, BEq.rfl, Bool.and_self,
    Bool.false_eq_true, if_true, if_false]

theorem fabStart_volume {k : Nat} (code : fcCode (slotRec s n) = k) (volume : k ≠ FabKind.mgmt) :
    fabStart s n k = volCommand s n (slotRec s n) := by
  simp only [fabStart, fabDoorbell, running, unused, good, code, volume, Nat.not_le.2 room, BEq.rfl, Bool.and_self,
    Bool.false_eq_true, if_true, if_false]

theorem volSend_starts (code : fcCode (slotRec s n) = 2) : exec (.volSend n) s = .next (volCommand s n (slotRec s n)) :=
  congrArg _ (fabStart_volume running unused room good code (by decide))

theorem volAccept_starts (code : fcCode (slotRec s n) = 3) :
    exec (.volAccept n) s = .next (volCommand s n (slotRec s n)) :=
  congrArg _ (fabStart_volume running unused room good code (by decide))

end

section
variable {s : State} {n : Nat} {d : Rec64}

theorem volCommand_noId (none_ : s.porter.fab.moduleId = 0xFFFF) : volCommand s n d = fabDone s n FabStatus.noId 0 :=
  if_pos none_

variable (named : s.porter.fab.moduleId ≠ 0xFFFF)
include named

theorem volCommand_waits (busy : volBusyFor s (fcLocal d) = true) :
    volCommand s n d = s.setFabCmd n { kind := FabKind.waiting (fcCode d), start := s.now } :=
  (if_neg named).trans (if_pos busy)

section
variable (free : volBusyFor s (fcLocal d) = false) (read : spinePoisoned s (fcLocal d) = false)
include free read

theorem volCommand_checks : volCommand s n d =
    if volUnfit s (fcLocal d) (fcCode d == FabKind.send) then fabDone s n FabStatus.badState 0
    else if fcCode d == FabKind.send then startSend s n d else startAccept s n d := by
  simp only [volCommand, named, free, read, Bool.and_false, Bool.false_eq_true, if_false]

theorem volCommand_send (code : fcCode d = 2) : volCommand s n d =
    if volUnfit s (fcLocal d) true then fabDone s n FabStatus.badState 0 else startSend s n d := by
  rw [volCommand_checks named free read, code]
  rfl

theorem volCommand_accept (code : fcCode d = 3) : volCommand s n d =
    if volUnfit s (fcLocal d) false then fabDone s n FabStatus.badState 0 else startAccept s n d := by
  rw [volCommand_checks named free read, code]
  rfl

end

end

/-! ### MGMT_SEND (R329, R337) -/

/-- A request of slot `n` under way, with the next token. -/
def mgmtWaits (s : State) (n : Nat) : State :=
  (s.modFab fun f => { f with token := s.porter.fab.token + 1 }).setFabCmd n
    { kind := FabKind.mgmt, start := s.now, token := s.porter.fab.token + 1 }

section
variable {s : State} {n : Nat} {d : Rec64} (lo : 1 ≤ fcReqLen d) (hi : fcReqLen d ≤ 225)
  (least : 3 ≤ ((s.read .park (fcReq d) (fcReqLen d)).headD 0).toNat)
  (most : ((s.read .park (fcReq d) (fcReqLen d)).headD 0).toNat ≤ 6)
include lo hi least most

theorem mgmtSend_formed (right : ¬(fcRouted d = false ∧ nodeHall (fcNode d) ≠ 15)) :
    ¬(fcReqLen d = 0 ∨ 225 < fcReqLen d ∨ ((s.read .park (fcReq d) (fcReqLen d)).headD 0).toNat < 3 ∨
      6 < ((s.read .park (fcReq d) (fcReqLen d)).headD 0).toNat ∨ (fcRouted d = false ∧ nodeHall (fcNode d) ≠ 15)) :=
  not_or.2 ⟨Nat.one_le_iff_ne_zero.1 lo, not_or.2 ⟨Nat.not_lt.2 hi, not_or.2 ⟨Nat.not_lt.2 least,
    not_or.2 ⟨Nat.not_lt.2 most, right⟩⟩⟩⟩

theorem mgmtSend_routed (routed : fcRouted d = true) : mgmtSend s n d =
    steer (mgmtWaits s n) 0 false (mgPacket (mgmtWaits s n).porterNode linkLocalNode 0 0
      (mkMgmt (mgmtWaits s n) ((s.read .park (fcReq d) (fcReqLen d)).headD 0).toNat true (fcRoute d) 0xFFFFFFFF
        (s.porter.fab.token + 1) ((s.read .park (fcReq d) (fcReqLen d)).drop 1))) := by
  refine (if_neg ?_).trans ((if_neg ?_).trans (if_pos routed))
  · exact mgmtSend_formed lo hi least most fun both => Bool.false_ne_true (both.1.symm.trans routed)
  · simp only [routed, Bool.true_eq_false, false_and, not_false_eq_true]

theorem mgmtSend_table (direct : fcRouted d = false) (porter : nodeHall (fcNode d) = 15)
    (named : s.porter.fab.moduleId ≠ 0xFFFF) : mgmtSend s n d =
    sendTable (mgmtWaits s n) (fcNode d)
      (mkMgmt (mgmtWaits s n) ((s.read .park (fcReq d) (fcReqLen d)).headD 0).toNat false 0 0
        (s.porter.fab.token + 1) ((s.read .park (fcReq d) (fcReqLen d)).drop 1)) := by
  refine (if_neg ?_).trans ((if_neg ?_).trans (if_neg ?_))
  · exact mgmtSend_formed lo hi least most fun both => both.2 porter
  · exact fun both => named both.2
  · simp only [direct, Bool.false_eq_true, not_false_eq_true]

end

/-! ### Time-outs (R335, R337) -/

section
variable {s : State} {n : FabSlot} {c : FabCmd} (held : s.fabCmd? n = some c)
include held

theorem mgmtSendTimeout_overdue (kind : c.kind = FabKind.mgmt) (passed : s.passed c.start 10000 = true) :
    exec (.mgmtSendTimeout n) s = .next (fabDone s n FabStatus.unreachable 0) := by
  change execMgmtSendTimeout n s = _
  simp only [execMgmtSendTimeout, held, kind, passed, and_self, if_true]

variable (kind : c.kind = FabKind.accept)
include kind

theorem volAcceptTimeout_armed (armed : c.pre = none) (passed : s.passed c.start 10000000 = true) :
    exec (.volAcceptTimeout n) s = .next (failAccept s n c FabStatus.timeout false) := by
  change execVolAcceptTimeout n s = _
  simp only [execVolAcceptTimeout, held, kind, armed, passed, Option.isNone_none, ne_eq, not_true_eq_false, if_true,
    if_false]

theorem volAcceptTimeout_silent (begun : c.pre.isSome = true) (passed : s.passed c.start 12700 = true) :
    exec (.volAcceptTimeout n) s = .next (failAccept s n c FabStatus.unreachable true) := by
  have answered : c.pre.isNone = false := Option.isNone_eq_false_iff.2 begun
  change execVolAcceptTimeout n s = _
  simp only [execVolAcceptTimeout, held, kind, answered, passed, ne_eq, not_true_eq_false, Bool.false_eq_true, if_true,
    if_false]

end

/-! ### MGMT_REPLY (R329, R337) -/

theorem mgmtReply_completes {s : State} {h : HallId} {p : FabPacket} {n : Nat} {c : FabCmd} (up : s.porterUp = true)
    (a : Arrives s h p) (good : mgmtPktBad s p = false) (reply : 0x80 ≤ mgType (msgOf p))
    (fits : (msgOf p).body.length ≤ 224)
    (waits : (s.porter.fab.cmds.find? fun q => q.2.kind == FabKind.mgmt && q.2.token == mgToken (msgOf p)) = some (n, c)) :
    let m := msgOf p
    let u := linkTaken s h p
    exec (.mgmtReply h p) s = .next (fabDone
      (u.write .park (fcRep (slotRec u n)) (BitVec.ofNat 8 (mgType m) :: m.body) false) n
      (if mgType m = 0x83 ∧ m.body.length = 208 then FabStatus.ok else (m.body.headD 0).toNat) (m.body.length + 1)) := by
  refine congrArg Host.Outcome.next ((mgmtIn_good a good _).trans ?_)
  simp only [linkTaken_porter, linkTaken_porterUp, waits, up, mgBad_of_mgmtPktBad good, Nat.not_lt.2 reply,
    Nat.not_lt.2 fits, decide_false, Bool.not_true, Bool.or_self, Bool.false_eq_true, if_false, List.length_cons]

/-! ### The destination of a transfer (R335, R336) -/

/-- The VOL_ACCEPT that a preamble finds armed. -/
def armedFor (s : State) (p : XferPreamble) : Option (Nat × FabCmd) :=
  s.porter.fab.cmds.find? fun q => q.2.kind == FabKind.accept && q.2.pre.isNone && q.2.local_ == p.dstVol
    && q.2.peerVol == p.srcVol && q.2.node == p.srcNode

section
variable {s : State} {p : XferPreamble} (up : s.porterUp = true) (home : s.hallUp (homeOf s p.dstVol.toNat) = true)
include up home

theorem volTransferPreamble_notArmed (unarmed : armedFor s p = none) : exec (.volTransferPreamble p) s = .next
    (sendAnswer s (homeOf s p.dstVol.toNat) p.srcNode.toNat FabStatus.notArmed p.srcVol.toNat p.dstVol.toNat 0) := by
  unfold armedFor at unarmed
  change execVolTransferPreamble p s = _
  simp only [execVolTransferPreamble, up, home, unarmed, Bool.not_true, Bool.or_self, Bool.false_eq_true, if_false]

section
variable {n : Nat} {c : FabCmd} (armed : armedFor s p = some (n, c))
include armed

theorem volTransferPreamble_otherShape (differs : shapeDiffers s p.dstVol.toNat p = true) :
    exec (.volTransferPreamble p) s = .next (failAccept s n c FabStatus.volShape true) := by
  unfold armedFor at armed
  change execVolTransferPreamble p s = _
  simp only [execVolTransferPreamble, up, home, armed, differs, Bool.not_true, Bool.or_self, Bool.false_eq_true, if_true,
    if_false]

theorem volTransferPreamble_reserves {t : State} {l : List Nat} (same : shapeDiffers s p.dstVol.toNat p = false)
    (known : p.pfv ≤ pfvKnown s.fwMajor) (leaves : p.leaves ≠ 0)
    (reserved : reserveRuns (parkGranules (s.planOf p.dstVol.toNat) p.parkFmt) p.leaves s [] = some (t, l)) :
    exec (.volTransferPreamble p) s = .next (t.setFabCmd n { c with
      pre := some (p.tokens, p.ckpt, p.pfv, p.leaves), grans := l, left := p.leaves, start := s.now }) := by
  unfold armedFor at armed
  change execVolTransferPreamble p s = _
  simp only [execVolTransferPreamble, up, home, armed, same, Nat.not_lt.2 known, leaves, reserved, Bool.not_true,
    Bool.or_self, Bool.false_eq_true, if_false]

end

end

/-- The transfer that a leaf of volume `v` belongs to. -/
def transferOf (s : State) (v : VolId) : Option (Nat × FabCmd) :=
  s.porter.fab.cmds.find? fun q => q.2.kind == FabKind.accept && q.2.local_ == v && q.2.pre.isSome

theorem volTransferLeaf_placed {s t : State} {v : VolId} {idx fill n g : Nat} {bytes : List Byte} {poison : Bool}
    {c : FabCmd} {l : List Nat} {pre : Word × Word × Nat × Nat} (begun : transferOf s v = some (n, c))
    (preamble : c.pre = some pre) (next : c.grans = g :: l) (home : s.hallUp (homeOf s v.toNat) = true)
    (inside : idx < (s.planOf v.toNat).layers * (s.planOf v.toNat).span) (new : leV (s.leaf v.toNat idx) = false)
    (filled : fill ≤ (s.planOf v.toNat).tpl) (whole : bytes.length = parkSize (s.planOf v.toNat) (s.vol v.toNat).parkFmt)
    (pair : s.ensurePair v.toNat idx = some t) :
    let u := placeLeaf t v.toNat idx fill g bytes poison
    let d := { c with grans := l, left := c.left - 1, moved := c.moved + 1, start := s.now }
    exec (.volTransferLeaf v idx fill bytes poison) s =
      .next (if l.isEmpty then finishAccept u n d pre else u.setFabCmd n d) := by
  unfold transferOf at begun
  change execVolTransferLeaf v idx fill bytes poison s = _
  simp only [execVolTransferLeaf, begun, preamble, next, home, new, pair, whole, Nat.not_le.2 inside, Nat.not_lt.2 filled,
    decide_false, bne_self_eq_false, Bool.not_true, Bool.or_self, Bool.false_eq_true, if_false]

/-- Settles O48: a slot starts its command by code and volume, and a reply, a time-out, a preamble or a leaf finds the
command that it belongs to. -/
theorem fabricCommandsAndTransfers : Obligations.FabricCommandsAndTransfers := by
  refine ⟨fun n s running unused room => ?_,
    fun n c s held => ⟨mgmtSendTimeout_overdue held, volAcceptTimeout_armed held, volAcceptTimeout_silent held⟩, ?_,
    fun p s up => ?_, ?_⟩
  · intro d v good
    have send := volSend_starts running unused room good
    have accept := volAccept_starts running unused room good
    refine ⟨fun named free read => ?_, fun named busy => ?_, fun none_ => ?_, ?_⟩
    · refine ⟨fun code fit => ?_, fun code fit => ?_, fun code unfit => ?_, fun code unfit => ?_⟩
      · rw [send code, volCommand_send named free read code, fit]
        rfl
      · rw [accept code, volCommand_accept named free read code, fit]
        rfl
      · rw [send code, volCommand_send named free read code, unfit]
        rfl
      · rw [accept code, volCommand_accept named free read code, unfit]
        rfl
    · refine ⟨fun code => ?_, fun code => ?_⟩
      · rw [send code, volCommand_waits named busy, code]
      · rw [accept code, volCommand_waits named busy, code]
    · exact ⟨fun code => (send code).trans (congrArg _ (volCommand_noId none_)),
        fun code => (accept code).trans (congrArg _ (volCommand_noId none_))⟩
    · intro code b mtype t u lo hi least most
      have starts := fabStart_mgmt running unused room good code
      exact ⟨fun routed => congrArg _ (starts.trans (mgmtSend_routed lo hi least most routed)),
        fun direct porter named => congrArg _ (starts.trans (mgmtSend_table lo hi least most direct porter named))⟩
  · intro h p n c s up a good m u reply fits waits
    exact (mgmtReply_completes up a good reply fits waits :)
  · intro v h armed pre home
    exact ⟨volTransferPreamble_notArmed up home, fun n c found =>
      ⟨volTransferPreamble_otherShape up home found, fun t l => volTransferPreamble_reserves up home found⟩⟩
  · intro v idx fill n g bytes poison c l pre s t p begun preamble next home inside new filled whole pair
    exact volTransferLeaf_placed begun preamble next home inside new filled whole pair

end Sys2Proof.Machine
end

section
/-! One step: the front command or an edge of the reference (R348, log entry 4), and the fuses along a command (R374, R439,
R453). -/

namespace Sys2Proof.Machine

/-! ### Fuses -/

/-- Settles O16: every command but FWUPD_DONE keeps the fuses, and FWUPD_DONE takes them onward. -/
theorem fusesStandButForFirmwareCommit : Obligations.FusesStandButForFirmwareCommit := by
  refine ⟨fun c s other => ?_, fun b s => ?_⟩
  · obtain ⟨t, next, keeps⟩ := exec_keeps c s other
    exact ⟨t, next, keeps.fuses⟩
  · obtain ⟨t, next, onward, -⟩ := exec_keeps_but_fuses (.fwupdDone b) s
    exact ⟨t, next, onward⟩

/-! ### The queue -/

theorem step_front {s : State} {c : Instr} {rest : List Instr} (front : s.pending = c :: rest) :
    step s = exec c { s with pending := rest } := by
  unfold step
  rw [front]

theorem step_idle {s : State} (idle : s.pending = []) : step s = .next (referenceEdge s) := by
  unfold step
  rw [idle]

/-- Settles O11: the equation of a step on a queue that holds a command. -/
theorem stepRunsTheFrontCommand : Obligations.StepRunsTheFrontCommand := fun _ _ _ => step_front

/-! ### An edge of the reference -/

/-- A hall after one edge of the reference. -/
def Hall.edge (x : Hall) : Hall := if x.elapsedOn then { x with elapsed := x.elapsed + 1 } else x

/-- A hall that is not listed has not started its counter, so the edge changes every hall alike. -/
theorem referenceEdge_hall (s : State) (h : Nat) : (referenceEdge s).hall h = (s.hall h).edge := by
  have listed : (referenceEdge s).halls = s.halls.map fun q => (q.1, q.2.edge) := by
    refine List.map_congr_left fun q _ => ?_
    unfold Hall.edge
    split <;> rfl
  unfold State.hall
  rw [listed]
  exact sget_map s.halls rfl h

/-- Settles O12: an idle step is an edge of the reference, and the edge acts on each hall and on the porter. -/
theorem idleStepIsAReferenceEdge : Obligations.IdleStepIsAReferenceEdge := fun s idle =>
  ⟨referenceEdge s, step_idle idle, rfl, referenceEdge_hall s, rfl, rfl⟩

end Sys2Proof.Machine
end

section
/-! The SPDM responder on a transport: each request answered by its response, and a message that comes in one MCTP packet
(R443, R448 to R451). -/

namespace Sys2Proof.Machine

/-! ### Bytes of a message -/

theorem bodyNat_one (b : List Byte) (off : Nat) : bodyNat b off 1 = (b.getD off 0).toNat := rfl

theorem bodyNat_two (b : List Byte) (off : Nat) :
    bodyNat b off 2 = (b.getD off 0).toNat + 256 * (b.getD (off + 1) 0).toNat := rfl

/-! ### Requests (R449, R451) -/

/-- A response sent as one message, behind the message type of SPDM. -/
def spdmSent (t : Transport) (r : State × List Byte) : State := mctpSend r.1 t (0x05 :: r.2)

section
variable {s : State} {t : Transport} {req : List Byte}

theorem spdmRequest_served {code : Nat} (up : spdmUp s t = true) (long : 4 ≤ req.length)
    (coded : bodyNat req 1 1 = code) : spdmRequest s t code req = spdmSent t (spdmAnswer s t req) :=
  if_pos (by simp [up, coded, show 2 ≤ req.length by omega])

theorem spdmRequest_unserved {code : Nat} (down : spdmUp s t = false) : spdmRequest s t code req = s :=
  if_neg (by simp [down])

section
variable (long : 4 ≤ req.length)
include long

theorem spdmAnswer_getVersion (code : bodyNat req 1 1 = 0x84) : spdmAnswer s t req = spdmVersion s t req := by
  simp [spdmAnswer, Nat.not_lt.2 long, code]

theorem spdmAnswer_getCapabilities (code : bodyNat req 1 1 = 0xE1) :
    spdmAnswer s t req = spdmCapabilities s t req := by
  simp [spdmAnswer, Nat.not_lt.2 long, code]

theorem spdmAnswer_negotiate (code : bodyNat req 1 1 = 0xE3) : spdmAnswer s t req = spdmAlgorithms s t req := by
  simp [spdmAnswer, Nat.not_lt.2 long, code]

theorem spdmAnswer_getDigests (code : bodyNat req 1 1 = 0x81) :
    spdmAnswer s t req = afterAlgo s t req (spdmDigests s t req) := by
  simp [spdmAnswer, Nat.not_lt.2 long, code]

theorem spdmAnswer_getCertificate (code : bodyNat req 1 1 = 0x82) :
    spdmAnswer s t req = afterAlgo s t req (spdmCertificate s t req) := by
  simp [spdmAnswer, Nat.not_lt.2 long, code]

theorem spdmAnswer_challenge (code : bodyNat req 1 1 = 0x83) :
    spdmAnswer s t req = afterAlgo s t req (spdmChallenge s t req) := by
  simp [spdmAnswer, Nat.not_lt.2 long, code]

theorem spdmAnswer_getMeasurements (code : bodyNat req 1 1 = 0xE0) :
    spdmAnswer s t req = afterAlgo s t req (spdmMeasurements s t req) := by
  simp [spdmAnswer, Nat.not_lt.2 long, code]

end

/-! ### The order of R451 -/

theorem spdmCapabilities_unordered (order : (s.spdm t).msgA = [] ∨ (s.spdm t).caps = true) :
    spdmCapabilities s t req = (s, spdmError (s.spdm t) SpdmErr.unexpected 0) :=
  if_pos (by simpa using order)

theorem spdmAlgorithms_unordered (order : (s.spdm t).caps = false ∨ (s.spdm t).algo = true) :
    spdmAlgorithms s t req = (s, spdmError (s.spdm t) SpdmErr.unexpected 0) :=
  if_pos (by simpa using order)

theorem afterAlgo_unordered (before : (s.spdm t).algo = false) (k : State × List Byte) :
    afterAlgo s t req k = (s, spdmError (s.spdm t) SpdmErr.unexpected 0) :=
  if_pos (by simp [before])

theorem afterAlgo_negotiated (after : (s.spdm t).algo = true) (version : (req.headD 0).toNat = (s.spdm t).version)
    (k : State × List Byte) : afterAlgo s t req k = k :=
  (if_neg (by simp [after])).trans (if_neg (not_not.2 version))

/-! ### MCTP packets (R443) -/

theorem mctpPacket_unserved (down : spdmUp s t = false) (b : List Byte) : exec (.mctpPacket t b) s = .next s :=
  congrArg Host.Outcome.next (if_pos (by simp [down]))

/-- A packet with both its first and its last mark carries a whole message. -/
theorem mctpPacket_whole (up : spdmUp s t = true) {src dst flags : Byte} (marks : 192 ≤ flags.toNat) :
    exec (.mctpPacket t ([0x01, dst, src, flags, 0x05] ++ req)) s = .next (mctpMessage
      (s.modSpdm t fun x => { x with mctp := none }) t (dst.toNat * 256 + src.toNat) (flags.toNat % 8) (0x05 :: req)) := by
  have first : 128 ≤ flags.toNat := by omega
  have last : flags.toNat / 64 % 2 = 1 := by omega
  change execMctpPacket t _ s = _
  simp [execMctpPacket, up, bodyNat_one, first, last]

end

/-- Settles O58: a request that is served is sent the answer of its code, which R451's order may refuse. -/
theorem spdmRequestsAreAnswered : Obligations.SpdmRequestsAreAnswered := by
  refine fun t s => ⟨fun up req long => ?_, fun down req i named => ?_⟩
  · have sent : ∀ {code : Nat} {a : State × List Byte}, bodyNat req 1 1 = code → spdmAnswer s t req = a →
        (.next (spdmRequest s t code req) : Result) = .next (spdmSent t a) := fun coded answer =>
      congrArg Host.Outcome.next ((spdmRequest_served up long coded).trans (congrArg (spdmSent t) answer))
    refine ⟨fun code => sent code (spdmAnswer_getVersion long code), fun code => ?_, fun code => ?_, fun before => ?_,
      fun after version => ?_, fun src dst flags => mctpPacket_whole up⟩
    · have answer := spdmAnswer_getCapabilities (s := s) (t := t) long code
      exact ⟨fun order => sent code (answer.trans (spdmCapabilities_unordered order)), fun _ _ => sent code answer⟩
    · have answer := spdmAnswer_negotiate (s := s) (t := t) long code
      exact ⟨fun order => sent code (answer.trans (spdmAlgorithms_unordered order)), fun _ _ _ => sent code answer⟩
    · have refused := afterAlgo_unordered (req := req) before
      exact ⟨fun code => sent code ((spdmAnswer_getDigests long code).trans (refused _)),
        fun code => sent code ((spdmAnswer_getCertificate long code).trans (refused _)),
        fun code => sent code ((spdmAnswer_challenge long code).trans (refused _)),
        fun code => sent code ((spdmAnswer_getMeasurements long code).trans (refused _))⟩
    · have taken := afterAlgo_negotiated (req := req) after version
      exact ⟨fun code => sent code ((spdmAnswer_getDigests long code).trans (taken _)),
        fun code => sent code ((spdmAnswer_getCertificate long code).trans (taken _)),
        fun code => sent code ((spdmAnswer_challenge long code).trans (taken _)),
        fun code => sent code ((spdmAnswer_getMeasurements long code).trans (taken _))⟩
  · have ignored : ∀ code, (.next (spdmRequest s t code req) : Result) = .next s := fun _ =>
      congrArg Host.Outcome.next (spdmRequest_unserved down)
    simp only [List.mem_cons, List.not_mem_nil, or_false] at named
    rcases named with rfl | rfl | rfl | rfl | rfl | rfl | rfl | rfl
    iterate 7 exact ignored _
    exact mctpPacket_unserved down req

end Sys2Proof.Machine
end

section
/-! The I3C target: its address, the common command codes, command frames and their responses, and in-band interrupts
(R438 to R442, R444, R446, R447, Tables 17.2 to 17.4). -/

namespace Sys2Proof.Machine

section
variable {s : State} (up : s.targetUp = true)
include up

/-! ### The address (R438 to R440) -/

theorem entdaa_wins (free : s.porter.i3c.da = 0) {w : BitVec 64} (lowest : s.daaWord ≤ w.toNat) (a : BitVec 7) :
    exec (.entdaa (some w) a) s =
      .next ((s.emit (.i3c (beBytes 8 s.daaWord))).modI3c fun i => { dropResponses i with da := a }) :=
  congrArg Host.Outcome.next ((if_neg (by simp [up, free])).trans (if_pos (decide_eq_true lowest)))

theorem entdaa_loses (free : s.porter.i3c.da = 0) {w : BitVec 64} (lower : w.toNat < s.daaWord) (a : BitVec 7) :
    exec (.entdaa (some w) a) s = .next (s.emit (.i3c (beBytes 8 s.daaWord))) :=
  congrArg Host.Outcome.next ((if_neg (by simp [up, free])).trans
    (if_neg (ne_true_of_eq_false (decide_eq_false (Nat.not_le.2 lower)))))

theorem rstdaa_runs : exec .rstdaa s = .next (s.modI3c fun i => { dropResponses i with da := 0 }) :=
  congrArg Host.Outcome.next (if_pos up)

theorem enec_named {b : Byte} (named : bitAt b 0 = true) :
    exec (.enec b) s = .next (s.modI3c fun i => { i with enint := true }) :=
  congrArg Host.Outcome.next (if_pos (by simp [up, named]))

theorem disec_named {b : Byte} (named : bitAt b 0 = true) :
    exec (.disec b) s = .next (s.modI3c fun i => { i with enint := false }) :=
  congrArg Host.Outcome.next (if_pos (by simp [up, named]))

theorem addressed_without (free : s.porter.i3c.da = 0) (k : State → State) : addressed s k = s.emit .i3cNack :=
  (if_neg (by simp [up])).trans (if_pos free)

section
variable (held : s.porter.i3c.da ≠ 0)
include held

theorem addressed_runs (k : State → State) : addressed s k = k s := (if_neg (by simp [up])).trans (if_neg held)

/-! ### Common command codes that set a length (Table 17.2) -/

theorem setmwl_inRange {n : BitVec 16} (least : 16 ≤ n.toNat) (most : n.toNat ≤ 64) :
    exec (.setmwl n) s = .next (s.modI3c fun i => { i with mwl := n.toNat }) :=
  congrArg Host.Outcome.next ((addressed_runs up held _).trans (if_pos ⟨least, most⟩))

theorem setmrl_inRange {n : BitVec 16} (least : 16 ≤ n.toNat) (most : n.toNat ≤ 256) :
    exec (.setmrl n) s = .next (s.modI3c fun i => { i with mrl := n.toNat }) :=
  congrArg Host.Outcome.next ((addressed_runs up held _).trans (if_pos ⟨least, most⟩))

/-! ### Responses (R442) -/

theorem responseRead_ready {b : List Byte} {l : List (Bool × List Byte)} (ready : s.porter.i3c.ready = (true, b) :: l)
    (fits : b.length ≤ s.porter.i3c.mrl) :
    exec .responseRead s = .next ((s.modI3c fun i => { i with ready := l }).emit (.i3c b)) := by
  refine congrArg Host.Outcome.next ((addressed_runs up held _).trans ?_)
  simp only [ready, if_neg (Nat.not_lt.2 fits)]

theorem responseRead_nothing (ready : s.porter.i3c.ready = []) (idle : s.porter.i3c.busyCmd = none) :
    exec .responseRead s = .next (s.emit (.i3c (respFrame 0 Frame.noCmd []))) := by
  refine congrArg Host.Outcome.next ((addressed_runs up held _).trans ?_)
  simp only [ready, idle]

/-! ### In-band interrupts (R447) -/

theorem ibiRequest_first {bit n : Nat} {l : List (Nat × Nat)} (enabled : s.porter.i3c.enint = true)
    (never : s.porter.i3c.lastIbi = none) (waits : s.porter.i3c.ibi = (bit, n) :: l) (acked : Bool) :
    exec (.ibiRequest acked) s = .next ((s.modI3c fun i =>
      { i with ibi := if acked || 3 ≤ n then l else (bit, n + 1) :: l, lastIbi := some s.now }).emit (.ibi (bit + 1))) := by
  change execIbiRequest acked s = _
  simp only [execIbiRequest, up, beq_false_of_ne held, enabled, never, waits, Bool.not_true, Bool.or_self,
    Bool.false_eq_true, if_false]

/-! ### Command frames (R441) -/

section
variable (idle : s.porter.i3c.busyCmd = none) (rom : s.inRom = false)
include idle rom

theorem withFrame_runs {cmd len : Nat} {args : List Byte} (fits : len + 4 ≤ s.porter.i3c.mwl)
    (exactly : args.length = len) (k : State → State) : withFrame s cmd args len k = k s := by
  refine (addressed_runs up held _).trans ?_
  simp [idle, rom, exactly, Nat.not_lt.2 fits]

/-- Every command frame of Table 17.3 fits into a write of 15 bytes: the longest has 11 bytes of arguments. -/
theorem frame_runs {i : Instr} {cmd len : Nat} {args : List Byte} {k : State → State}
    (e : exec i s = .next (withFrame s cmd args len k)) (wide : 15 ≤ s.porter.i3c.mwl) (short : len ≤ 11)
    (exactly : args.length = len) : exec i s = .next (k s) :=
  e.trans (congrArg Host.Outcome.next (withFrame_runs up held idle rom (by omega) exactly k))

section
variable (wide : 15 ≤ s.porter.i3c.mwl)
include wide

theorem readPage_known {x b : Byte} {q : List Byte} (page : pageBytes s x.toNat b.toNat = some q) :
    exec (.readPage [x, b, 0]) s = .next (respReady s 0x01 Frame.ok q) := by
  refine (frame_runs up held idle rom (len := 3) rfl wide (by omega) rfl).trans (congrArg Host.Outcome.next ?_)
  have named : bodyNat [x, b, 0] 0 1 = x.toNat := rfl
  have index : bodyNat [x, b, 0] 1 2 = b.toNat := by simp [bodyNat_two]
  simp only [rom, named, index, page, Bool.false_and, Bool.false_eq_true, if_false]

theorem alertAck_clears (x b : Byte) :
    let u := s.modPorter fun p => { p with alert := p.alert &&& ~~~(BitVec.ofNat 6 (bodyNat [x, b] 0 2)) }
    exec (.alertAck [x, b]) s = .next (respReady u 0x02 Frame.ok (leBytes 2 u.porter.alert.toNat)) :=
  (frame_runs up held idle rom (i := .alertAck [x, b]) (args := [x, b]) rfl wide (by decide) rfl :)

theorem warmReset_taken {t : State} (taken : warmRequest s 1 = some t) :
    exec (.warmReset [0x52, 0x57]) s = .next (respReady t 0x07 Frame.ok []) := by
  refine (frame_runs up held idle rom (len := 2) rfl wide (by omega) rfl).trans (congrArg Host.Outcome.next ?_)
  refine (if_neg (by decide)).trans ?_
  rw [taken]

theorem warmReset_ignored (ignored : warmRequest s 1 = none) : exec (.warmReset [0x52, 0x57]) s =
    .next (respReady (s.modPorter fun p => { p with rstErr := true }) 0x07 Frame.refused []) := by
  refine (frame_runs up held idle rom (len := 2) rfl wide (by omega) rfl).trans (congrArg Host.Outcome.next ?_)
  refine (if_neg (by decide)).trans ?_
  rw [ignored]

theorem fwCommit_begins {c : Byte} (classes : c.toNat ≤ 7) (unused : s.porter.fw.busy = false) :
    exec (.fwCommit [c]) s =
      .next (fwCommitStart (s.modI3c fun i => { i with busyCmd := some (0x08, true) }) c.toNat true) := by
  refine (frame_runs up held idle rom (len := 1) rfl wide (by omega) rfl).trans (congrArg Host.Outcome.next ?_)
  have named : bodyNat [c] 0 1 = c.toNat := rfl
  simp only [named, Nat.not_lt.2 classes, unused, Bool.false_eq_true, if_false]

omit rom in
/-- A frame of no arguments whose code is no command's is answered BAD_CMD. -/
theorem commandFrameRefused_unknown {c : Byte} (unknown : c = 0 ∨ 8 < c.toNat) :
    exec (.commandFrameRefused [0xC5, c, 0, crc8 [0xC5, c, 0]]) s = .next (respReady s c.toNat Frame.badCmd []) := by
  have outside : ¬ (1 ≤ c.toNat ∧ c.toNat ≤ 8) := by
    rcases unknown with rfl | above
    · decide
    · omega
  refine congrArg Host.Outcome.next ((addressed_runs up held _).trans ?_)
  simp [bodyNat_one, outside, idle, show ¬ s.porter.i3c.mwl < 4 by omega]

end
end
end
end

/-! ### A warm reset asked for (R368, Table 13.9) -/

section
variable {s : State}

theorem warmRequest_starts (heard : s.resetsIgnored = false) (still : s.flashBusy = false) (src : Nat) :
    warmRequest s src = some (warmReset s src) := by
  simp [warmRequest, heard, still]

theorem warmRequest_ignored (ignored : s.resetsIgnored = true) (src : Nat) : warmRequest s src = none := if_pos ignored

end

/-- Settles O57: the address and the event enables, then what an addressed target answers, then its command frames. -/
theorem i3cTargetAnswers : Obligations.I3cTargetAnswers := by
  intro s up
  refine ⟨fun w a free => ⟨fun lowest => entdaa_wins up free lowest a, fun lower => entdaa_loses up free lower a⟩,
    rstdaa_runs up, fun b named => ⟨enec_named up named, disec_named up named⟩, fun free i named => ?_, fun held => ?_⟩
  · have nack : ∀ k, (.next (addressed s k) : Result) = .next (s.emit .i3cNack) := fun k =>
      congrArg Host.Outcome.next (addressed_without up free k)
    simp only [List.mem_cons, List.not_mem_nil, or_false] at named
    rcases named with rfl | rfl | rfl | rfl | rfl | rfl | rfl
    all_goals exact nack _
  · have runs : ∀ k, (.next (addressed s k) : Result) = .next (k s) := fun k =>
      congrArg Host.Outcome.next (addressed_runs up held k)
    refine ⟨runs _, runs _, runs _, runs _, runs _, runs _,
      fun n least => ⟨setmwl_inRange up held least, setmrl_inRange up held least⟩,
      fun b l => responseRead_ready up held, responseRead_nothing up held, fun idle rom wide => ?_,
      fun bit n l acked enabled never waits => ibiRequest_first up held enabled never waits acked⟩
    have frame : ∀ {i : Instr} {cmd len : Nat} {args : List Byte} (k : State → State),
        exec i s = .next (withFrame s cmd args len k) → len ≤ 11 → args.length = len → exec i s = .next (k s) :=
      fun k e short exactly => frame_runs up held idle rom e wide short exactly
    exact ⟨fun x b q => readPage_known up held idle rom wide, alertAck_clears up held idle rom wide,
      fun a three => ⟨frame (calFrame · 0x03 .read a) rfl (by omega) three,
        frame (calFrame · 0x05 .clear a) rfl (by omega) three⟩,
      fun a eleven => frame (calFrame · 0x04 .write a) rfl (by omega) eleven,
      frame (len := 0) (calFrame · 0x06 .restore []) rfl (by omega) rfl,
      fun heard still => warmReset_taken up held idle rom wide (warmRequest_starts heard still 1),
      fun ignored => warmReset_ignored up held idle rom wide (warmRequest_ignored ignored 1),
      fun c => fwCommit_begins up held idle rom wide, fun c => commandFrameRefused_unknown up held idle wide⟩

end Sys2Proof.Machine
end

section
/-! Power through the start gate and the porter release, and what losses of the input, of rails and of clocks do (R346, R347,
R358, R362, R421, R429 to R433). -/

namespace Sys2Proof.Machine

/-! ### Rails -/

/-- A rail that serves no hall is the bus, the Pelaitik die's or the park tier's. -/
theorem rail_of_module {r : Rail}
    (other : ∀ h : HallId, r ∉ [Rail.hallCore h, .hallSram h, .hallDram h, .hallNetwork h]) :
    r = .bus ∨ r = .pelaitik ∨ r = .park := by
  cases r with
  | bus => exact .inl rfl
  | pelaitik => exact .inr (.inl rfl)
  | park => exact .inr (.inr rfl)
  | hallCore h => exact absurd (by simp) (other h)
  | hallSram h => exact absurd (by simp) (other h)
  | hallDram h => exact absurd (by simp) (other h)
  | hallNetwork h => exact absurd (by simp) (other h)

section
variable {s : State}

/-! ### The start gate (R421, R429, R432) -/

theorem startGateOpen_ready (ready : s.porter.power.phase = .unpowered ∨
    (s.porter.power.phase = .bleeding ∧ s.passed s.porter.power.since 2000000 = true)) :
    exec .startGateOpen s = .next (setEn (powerOff s .sequencing) true) := by
  refine congrArg Host.Outcome.next (if_pos ?_)
  rcases ready with off | ⟨bleeding, bled⟩
  · simp [off]
  · simp [bleeding, bled]

theorem startGateOpen_on (on : s.porter.power.phase = .on) : exec .startGateOpen s = .next s :=
  congrArg Host.Outcome.next (if_neg (by simp [on]))

/-! ### While the rails sequence (R358, R362, R429) -/

section
variable (sequencing : s.porter.power.phase = .sequencing)
include sequencing

theorem railPgoodTimeout_hall {h : HallId} {r : Rail}
    (serves : r ∈ [Rail.hallCore h, .hallSram h, .hallDram h, .hallNetwork h]) :
    exec (.railPgoodTimeout r) s = .next (s.modHall h fun x => { x with railFail := true }) := by
  simp only [List.mem_cons, List.not_mem_nil, or_false] at serves
  rcases serves with rfl | rfl | rfl | rfl
  all_goals exact congrArg Host.Outcome.next (if_neg (not_not.2 sequencing))

theorem railPgoodTimeout_module {r : Rail}
    (other : ∀ h : HallId, r ∉ [Rail.hallCore h, .hallSram h, .hallDram h, .hallNetwork h]) :
    exec (.railPgoodTimeout r) s = .next (powerOff s .bleeding) := by
  rcases rail_of_module other with rfl | rfl | rfl
  all_goals exact congrArg Host.Outcome.next (if_neg (not_not.2 sequencing))

theorem porterRelease_boots (r : BringupReport) (straps : Fin 8) :
    let u := s.modPorter fun p =>
      { p with power := { p.power with phase := .on, since := s.now, pwrgd := true }, elapsed := 0, elapsedOn := true,
               i3c := { slot := straps } }
    let b := u.firstSlot
    exec (.porterRelease r straps) s = .next
      (if porterVerifies u r b then bootPorterUp u r b
       else if porterVerifies u r (!b) then bootPorterUp u r (!b)
       else u.modPorter fun p => { p with fail := 1 }) :=
  congrArg Host.Outcome.next (if_neg (not_not.2 sequencing))

end

/-! ### The input lost (R431) -/

theorem dropAll_powered (powered : s.porter.power.phase ∈ [PowerPhase.on, .sequencing, .powerDown]) :
    dropAll s = powerOff s .bleeding := by
  simp only [List.mem_cons, List.not_mem_nil, or_false] at powered
  unfold dropAll
  rcases powered with on | sequencing | powerDown
  · rw [on]
  · rw [sequencing]
  · rw [powerDown]

/-! ### In service (R430, R433) -/

section
variable (on : s.porter.power.phase = .on)
include on

theorem railPgoodLoss_compute {h : HallId} {r : Rail} (serves : r ∈ [Rail.hallCore h, .hallSram h, .hallDram h]) :
    exec (.railPgoodLoss r) s = .next (loseCompute s h) := by
  simp only [List.mem_cons, List.not_mem_nil, or_false] at serves
  rcases serves with rfl | rfl | rfl
  all_goals exact congrArg Host.Outcome.next (if_neg (not_not.2 on))

theorem railPgoodLoss_network (h : HallId) : exec (.railPgoodLoss (.hallNetwork h)) s = .next (loseNetRail s h) :=
  congrArg Host.Outcome.next (if_neg (not_not.2 on))

theorem railPgoodLoss_module {r : Rail}
    (other : ∀ h : HallId, r ∉ [Rail.hallCore h, .hallSram h, .hallDram h, .hallNetwork h]) :
    exec (.railPgoodLoss r) s = .next (powerOff s .bleeding) := by
  rw [← dropAll_powered (s := s) (by simp [on])]
  rcases rail_of_module other with rfl | rfl | rfl
  all_goals exact congrArg Host.Outcome.next (if_neg (not_not.2 on))

theorem enableFall_on : exec .enableFall s = .next (settle ((List.finRange 12).foldl
    (fun (t : State) (h : HallId) => holdLost (followDiv t h) h)
    (((setEn s false).modPorter fun p => { p with power := { p.power with phase := .powerDown, since := s.now } }).modHost
      fun d => { d with pbPerst := false }))) := by
  have stays : (setEn s false).porter.power.phase = .on := on
  change execEnableFall s = _
  simp only [execEnableFall, stays]
  rfl

end

/-! ### Clocks lost (R346, R347) -/

theorem pllLockLoss_locked {h : HallId} (net : s.hallNet h = true) (locked : (s.hall h).pllLocked = true) :
    exec (.pllLockLoss h) s =
      .next ((loseNetwork (s.modHall h fun x => { x with pllLocked := false }) h).replaceCause 9) := by
  have stays : (s.modHall h fun x => { x with pllLocked := false }).hallNet h = true := by
    unfold State.hallNet
    rw [State.hall_modHall_same]
    exact net
  exact congrArg Host.Outcome.next ((if_pos locked).trans (if_pos stays))

theorem refLost_first (up : s.porterUp = true) (alive : s.porter.host.refLost = false) :
    let u := (List.finRange 12).foldl holdHall s
    exec .refLost s = .next ((({ u with
      halls := u.halls.map fun (q : Nat × Hall) => (q.1, { q.2 with elapsedOn := false }) } : State).modPorter fun p =>
      { p with elapsedOn := false,
               host := { p.host with refLost := true, coresRun := false, parkSelfRef := 0xFFFFFF } }).replaceCause 9) :=
  congrArg Host.Outcome.next (if_neg (by simp [up, alive]))

theorem refLost_again (lost : s.porter.host.refLost = true) : exec .refLost s = .next s :=
  congrArg Host.Outcome.next (if_pos (by simp [lost]))

end

/-- Settles O52: the start, the sequencing, the loss of the input, the service and the clocks, each by the equation of its
command. -/
theorem powerComesAndGoes : Obligations.PowerComesAndGoes := by
  refine fun s => ⟨fun ready => ⟨_, startGateOpen_ready ready, rfl, rfl, rfl, rfl⟩, startGateOpen_on,
    fun sequencing => ⟨fun h r => railPgoodTimeout_hall sequencing, fun r => railPgoodTimeout_module sequencing,
      fun r straps => ?_⟩,
    fun powered => ⟨_, congrArg Host.Outcome.next (dropAll_powered powered), rfl, rfl, rfl, rfl, rfl, rfl, rfl, rfl, rfl⟩,
    fun on => ⟨fun h r => railPgoodLoss_compute on, railPgoodLoss_network on, fun r => railPgoodLoss_module on,
      enableFall_on on⟩,
    fun h => pllLockLoss_locked, refLost_first, refLost_again⟩
  have boots := porterRelease_boots sequencing r straps
  exact ⟨fun first => boots.trans (congrArg _ (if_pos first)),
    fun first second => boots.trans (congrArg _ ((if_neg (ne_true_of_eq_false first)).trans (if_pos second))),
    fun first second => boots.trans (congrArg _ ((if_neg (ne_true_of_eq_false first)).trans
      (if_neg (ne_true_of_eq_false second))))⟩

end Sys2Proof.Machine
end

section
/-! The housekeeping round, the steps of D, the coolant window and the input monitor (R399, R411, R412, R416, R417, R421,
R437). -/

namespace Sys2Proof.Machine

/-! ### Between NORMAL and DEGRADED (R417) -/

/-- The cooling state after a window. -/
def followDegraded (u : State) : State :=
  match u.porter.cool.state with
  | .normal => if u.porter.cool.isDegraded then enterCool u .degraded else u
  | .degraded => if u.porter.cool.isDegraded then u else enterCool u .normal
  | _ => u

theorem followDegraded_eq (u : State) : followDegraded u =
    if u.porter.cool.state = .normal ∧ u.porter.cool.isDegraded = true then enterCool u .degraded
    else if u.porter.cool.state = .degraded ∧ u.porter.cool.isDegraded = false then enterCool u .normal else u := by
  unfold followDegraded
  cases u.porter.cool.state with
  | normal => simp
  | degraded => cases u.porter.cool.isDegraded <;> simp
  | hold => simp
  | lost => simp
  | dramLost => simp

/-! ### The round (R399) -/

/-- What a round reports of a hall that its report leaves out. -/
def unreadHall : HallRound := { temps := [], rails := [], busy := [], want := 0 }

/-- The first part of a round: the porter and every hall that answers are read, and the input round closes. -/
def readRound (s : State) (r : RoundInput) : State :=
  inputRound ((List.finRange 12).foldl (fun (t : State) (h : HallId) =>
    if t.hallNet h then readHall t h (r.halls.getD h unreadHall) else t) (readPorter s r)) r.unsched

/-- The second part of a round: what it decides for every hall that answers, and for the module. -/
def decideRound (u : State) (r : RoundInput) : State :=
  let w := (List.finRange 12).foldl (fun (t : State) (h : HallId) =>
    if t.hallNet h then hallRound t h (r.halls.getD h unreadHall).busy else t) u
  let hot := (List.range 12).any fun h => (w.hall h).drams.any fun q => q.2.2.any fun v => decide (920 ≤ v)
  let x := sumRound (pelaitikRound (coolRound (if hot then loseDram w else w)))
  settle (if 4 < failedPairs x ∨ 16 < failedDram x then x.replaceCause 5 else x)

/-- What a round does once it has read: in COLD_WAIT it waits for warmth, then the bring-up goes on (R359). -/
def endRound (u : State) (r : RoundInput) : State :=
  match u.porter.stage, u.porter.boot with
  | .coldWait, some b => if anyCold u then u else bootRest (bootLinks u b) { b with coldSensor := false }
  | _, _ => decideRound u r

theorem endRound_warm {u : State} (warm : u.porter.stage ≠ .coldWait) (r : RoundInput) :
    endRound u r = decideRound u r := by
  unfold endRound
  split
  · next cold _ => exact absurd cold warm
  · rfl

theorem endRound_coldWait {u : State} {b : BringupReport} (cold : u.porter.stage = .coldWait)
    (boot : u.porter.boot = some b) (r : RoundInput) : endRound u r =
      if anyCold u then u else bootRest (bootLinks u b) { b with coldSensor := false } := by
  unfold endRound
  rw [cold, boot]

section
variable {s : State} (up : s.porterUp = true) (on : s.porter.power.phase = .on)
include up on

section
variable (alive : s.porter.host.refLost = false) {r : RoundInput}
include alive

theorem housekeepingRound_reads {u : State} (read : readRound s r = u) :
    exec (.housekeepingRound r) s = .next (endRound u r) := by
  unfold readRound unreadHall at read
  refine congrArg Host.Outcome.next ((if_neg (by simp [up, on, alive])).trans ?_)
  dsimp only
  rw [read]
  rfl

end

/-! ### The coolant window (R416, R417) -/

theorem coolantWindow_closes :
    let u := { (s.modPorter fun p => { p with cool := p.cool.window s.fresh }) with fresh := s.fresh + 2 }
    exec .coolantWindow s = .next
      (if 86400 ≤ u.porter.cool.degTime then (followDegraded u).replaceCause 6 else followDegraded u) :=
  congrArg Host.Outcome.next (if_neg (by simp [up, on]))

end

/-! ### The steps of D (R411, R412) -/

/-- The slot of the step schedule that is used now, on hall `h`. -/
def useSlot (s : State) (h : Nat) : State := s.modPorter fun p =>
  { p with power := { p.power with lastStep := some s.now, slotsNow := p.power.slotsNow + 1, lastHall := h } }

/-- The next hall whose D stands above its cap. -/
def forcedHall (s : State) : Option Nat :=
  rrNext 12 s.porter.power.lastHall fun h => capOf s h < (s.hall h).therm.d

/-- The next hall that asked for a step. -/
def askedHall (s : State) : Option Nat := rrNext 12 s.porter.power.lastHall fun h => (s.hall h).therm.step != 0

/-- What a slot that is due does: a forced step, else one asked for, else a load removed. -/
def nextStep (s : State) : State :=
  match forcedHall s with
  | some h => stepD (useSlot s h) (Fin.ofNat 12 h) false
  | none =>
    match askedHall s with
    | some h => stepD (useSlot s h) (Fin.ofNat 12 h) ((s.hall h).therm.step == 1)
    | none => if removesLoads s then removeLoad (useSlot s s.porter.power.lastHall) else s

section
variable {s : State}

theorem nextStep_forced {h : Nat} (forced : forcedHall s = some h) :
    nextStep s = stepD (useSlot s h) (Fin.ofNat 12 h) false := by
  unfold nextStep
  rw [forced]

theorem nextStep_asked {h : Nat} (free : forcedHall s = none) (asked : askedHall s = some h) :
    nextStep s = stepD (useSlot s h) (Fin.ofNat 12 h) ((s.hall h).therm.step == 1) := by
  unfold nextStep
  rw [free, asked]

theorem nextStep_none (free : forcedHall s = none) (quiet : askedHall s = none) (stays : removesLoads s = false) :
    nextStep s = s := by
  unfold nextStep
  rw [free, quiet, stays]
  rfl

theorem dStepSlot_early {t : Nat} (last : s.porter.power.lastStep = some t) (early : s.now < t + 1670) :
    exec .dStepSlot s = .next s :=
  congrArg Host.Outcome.next (if_pos (by simp [last, early]))

theorem dStepSlot_due (steps : s.porter.power.phase = .on ∨ s.porter.power.phase = .powerDown)
    (due : s.porter.power.lastStep = none ∨ ∃ t, s.porter.power.lastStep = some t ∧ t + 1670 ≤ s.now) :
    exec .dStepSlot s = .next (nextStep s) := by
  refine congrArg Host.Outcome.next (if_neg ?_)
  rcases due with first | ⟨t, last, late⟩
  · simpa [first] using or_iff_not_imp_left.1 steps
  · simpa [last, late] using or_iff_not_imp_left.1 steps

/-! ### The input monitor (R421, R437) -/

theorem peakClear_eq (s : State) (w : Word) : peakClear s w = s.modPorter fun p =>
    { p with power := { p.power with peak := if bitAt w 16 then 0 else p.power.peak } } := by
  unfold peakClear
  split <;> rfl

end

/-- Settles O51: the round, a slot of the step schedule, the window and the two commands of the input monitor, each by the
equation of its command. -/
theorem roundsStepsAndWindows : Obligations.RoundsStepsAndWindows := by
  refine fun s => ⟨fun up on alive r => ?_, fun steps => ⟨fun t => dStepSlot_early, fun due => ?_⟩, fun up on => ?_,
    fun mv ma => ⟨_, rfl, rfl, rfl, rfl, rfl, rfl, rfl, rfl⟩, fun w up => ?_⟩
  · intro z u w hot x
    have reads : exec (.housekeepingRound r) s = .next (endRound u r) := housekeepingRound_reads up on alive rfl
    exact ⟨fun warm => reads.trans (congrArg _ (endRound_warm warm r)),
      fun b cold boot => reads.trans (congrArg _ (endRound_coldWait cold boot r))⟩
  · have slot := dStepSlot_due steps due
    exact ⟨fun h forced => slot.trans (congrArg _ (nextStep_forced forced)),
      fun h free asked => slot.trans (congrArg _ (nextStep_asked free asked)),
      fun free quiet stays => slot.trans (congrArg _ (nextStep_none free quiet stays))⟩
  · have closes := coolantWindow_closes up on
    simp only [followDegraded_eq] at closes
    exact closes
  · exact ⟨_, congrArg Host.Outcome.next ((if_pos up).trans (peakClear_eq s w)), rfl, rfl, rfl⟩

end Sys2Proof.Machine
end
